-- ==== Sys2Proof/Word.lean ====
section
/-! DEFINITION. Word types of the Prethar AX9: fixed widths of spec/00_scope.md R3-R5 and the registers of R14, R15, R33. -/

namespace Sys2Proof

abbrev Byte := BitVec 8
abbrev Word32 := BitVec 32
abbrev Word64 := BitVec 64
/-- A set of lanes of one task: bit l is lane l (R14, at most 64 lanes). -/
abbrev Mask := BitVec 64
/-- One 128-byte line (R1), byte i in bits [8i+7:8i]. -/
abbrev Line := BitVec 1024
/-- One accumulator entry (R47, R309). -/
abbrev A40 := BitVec 40

end Sys2Proof
end

