-- ==== Sys2Proof/Config.lean ====
section
/-! DEFINITION. The free values of the model: constants without a body, applied to the counter State.tick (and a key) for a fresh
value each time. Nothing can evaluate them, so a statement holds for every value of them. notes/assumptions/4.md, 5.md, 6.md, 11.md, 12.md.
Beside them the numbers the spec fixes for the device. -/

namespace Sys2Proof.Config

/-- Undefined register content under R8, R37, R157: fresh per (tick, key). -/
opaque freeReg : Nat → Nat → BitVec 32
/-- Undefined byte under R8 (scratch R293, R196; copy overlap R301). -/
opaque freeByte : Nat → Nat → BitVec 8
/-- Undefined accumulator entry (R8, R329, R330). -/
opaque freeA40 : Nat → Nat → BitVec 40
/-- A choice the spec leaves open between two orders or two copies of a value (R174, R177, R292, R354). -/
opaque coin : Nat → Nat → Bool
/-- Which of the enabled turns comes next when the agenda names none (DESIGN CHOICE, log 3). -/
opaque pick : Nat → Nat
/-- Cycles that pass beyond the one a step takes (timing is left out; R379 only says that CLOCK counts cycles). -/
opaque idle : Nat → Nat
/-- Bits of an inexact special-function result (R160): function number, format code, rounding mode code, input code.
One part returns the same bits for the same inputs and mode, so it depends on nothing else. -/
opaque sfBits : Nat → Nat → Nat → BitVec 32 → BitVec 32
/-- SHA3-512 (R371, R372, R375), a standard outside the spec. -/
opaque sha3 : List (BitVec 8) → BitVec 512
/-- ML-DSA-87 verification of a signature over a digest under a public key (R371), a standard outside the spec. -/
opaque mldsaVerify : (key sig : List (BitVec 8)) → BitVec 512 → Bool
/-- ML-DSA-87 signature of a report under the device identity key: 4,627 bytes (R372). -/
opaque mldsaSign : List (BitVec 8) → BitVec 37016
/-- The key under which root firmware verifies the other images (R371): its own, found in its image where the spec does not say. -/
opaque ownKey : List (BitVec 8) → List (BitVec 8)

def numCores : Nat := 160
/-- R1: lines of the 2 MiB of one L2 slice. -/
def l2Lines : Nat := 16384
/-- R1, R168: bytes of a device's HBM, 384 GiB. -/
def hbmBytes : Nat := 0x6000000000
/-- R1: the root core, 16 VF firmware cores and 160 supervisor cores. -/
def numHarts : Nat := 177
def coresPerDie : Nat := 40
def numVfs : Nat := 16
def queuesPerVf : Nat := 16
/-- Cycles of a lease (R265). -/
def leaseCycles : Nat := 4096
/-- R214 step 2. -/
def withdrawCycles : Nat := 3500
/-- R217. -/
def idleLimit : Nat := 2 ^ 20
/-- Cycles in one microsecond of the 1.75 GHz clock (R5, R224). -/
def cyclesPerUs : Nat := 1750
/-- R367: default starvation limit and default slice of 2 ms. -/
def slimDefault : Nat := 1750000
def sliceDefault : Nat := 3500000
/-- R212. -/
def maxRequests : Nat := 32
/-- R104. -/
def maxChildren : Nat := 4096
/-- R233: entries of a core's ordered buffer and the default spill cap of 1 GiB. -/
def orderedEntries : Nat := 2048
def spillDefault : Nat := 2 ^ 30

end Sys2Proof.Config
end

