-- ==== Sys2Proof/Syntax.lean ====
section
/-! DEFINITION. The syntax: operand types and the ONE inductive Instr, a constructor for each of the 226 rows of
spec/opcode_table.json. Task instructions and capsule body steps carry decoded operands; an event of a device unit carries
the unit, task or request it happens to. -/

namespace Sys2Proof

/-- A register specifier (R33): v0-v191 or s0-s63. -/
inductive Reg where
  | v (n : Fin 192)
  | s (n : Fin 64)
  deriving DecidableEq, Repr

/-- A guard: predicate index and negation (R28, R45). -/
structure Guard where
  neg : Bool
  p : Fin 8
  deriving DecidableEq, Repr

/-- Second source: a register, or the immediate that I = 1 puts in its place (R28, R35). -/
inductive Opnd where
  | reg (r : Reg)
  | imm (x : BitVec 16)
  deriving DecidableEq, Repr

/-- Element types (R34); code 0xF is not a type. -/
inductive Ty where
  | i32 | n32 | i64 | n64 | f32 | f16 | bf16 | e4m3 | e5m2 | l6 | i16 | n16 | i8 | n8 | b32
  deriving DecidableEq, Repr

/-- Rounding modes (R56). -/
inductive RMode where
  | rne | rtz | rdn | rup | rod
  deriving DecidableEq, Repr

/-- Scopes (R237). -/
inductive Scope where
  | task | ply | core | die | device | domain | system
  deriving DecidableEq, Repr

structure Alu1 where
  g : Guard
  ty : Ty
  dst : Reg
  a : Reg
  deriving DecidableEq, Repr

structure Alu2 where
  g : Guard
  ty : Ty
  dst : Reg
  a : Reg
  b : Opnd
  deriving DecidableEq, Repr

structure Alu3 where
  g : Guard
  ty : Ty
  dst : Reg
  a : Reg
  b : Opnd
  c : Reg
  deriving DecidableEq, Repr

/-- BFX, BFI (R134): BFX has no srcB. -/
structure BitField where
  g : Guard
  ty : Ty
  dst : Reg
  a : Reg
  b : Reg
  pos : Fin 64
  len : Fin 128
  deriving DecidableEq, Repr

/-- Integer conditions (R135). -/
inductive ICond where
  | eq | ne | lt | le | gt | ge
  deriving DecidableEq, Repr

/-- Floating conditions (R144). -/
inductive FCond where
  | eq | ne | lt | le | gt | ge | ord | uno
  deriving DecidableEq, Repr

/-- Second source of ICMP: a register or a 12-bit immediate. -/
inductive Opnd12 where
  | reg (r : Reg)
  | imm (x : BitVec 12)
  deriving DecidableEq, Repr

structure Icmp where
  g : Guard
  ty : Ty
  any : Bool
  cond : ICond
  dst : Fin 8
  a : Reg
  b : Opnd12
  deriving DecidableEq, Repr

structure Fcmp where
  g : Guard
  ty : Ty
  any : Bool
  cond : FCond
  dst : Fin 8
  a : Reg
  b : Reg
  deriving DecidableEq, Repr

structure Sel where
  g : Guard
  ty : Ty
  dst : Reg
  a : Reg
  b : Opnd
  p : Fin 8
  deriving DecidableEq, Repr

structure Movi where
  g : Guard
  ty : Ty
  dst : Reg
  imm : BitVec 16
  deriving DecidableEq, Repr

structure Movw where
  g : Guard
  ty : Ty
  dst : Reg
  imm : BitVec 64
  deriving DecidableEq, Repr

structure Lea where
  g : Guard
  ty : Ty
  dst : Reg
  base : Reg
  index : Reg
  scale : Fin 4
  disp : BitVec 24
  deriving DecidableEq, Repr

structure Plog where
  g : Guard
  dst : Fin 8
  a : Fin 8
  b : Fin 8
  table : BitVec 4
  deriving DecidableEq, Repr

structure Movsp where
  g : Guard
  wide : Bool
  dst : Reg
  num : Fin 18
  deriving DecidableEq, Repr

/-- The operations of a P-form slot (R38 condition 1), grouped by operand shape. -/
inductive PairAlu2 where
  | iadd | isub | imul | imin | imax | and | or | xor | shl | shr | sar | fadd | fsub | fmul | fmin | fmax
  deriving DecidableEq, Repr

inductive PairAlu1 where
  | mov | fneg | fabs
  deriving DecidableEq, Repr

inductive Slot where
  | alu2 (op : PairAlu2) (x : Alu2)
  | alu1 (op : PairAlu1) (x : Alu1)
  | movi (x : Movi)
  | icmp (x : Icmp)
  | fcmp (x : Fcmp)
  | plog (x : Plog)
  deriving DecidableEq, Repr

/-- Target of CALLX and MEET: a register, or PC + 4 × offset. -/
inductive Target where
  | reg (r : Reg)
  | rel (off : BitVec 16)
  deriving DecidableEq, Repr

inductive ElectDst where
  | s (n : Fin 64)
  | p (n : Fin 8)
  deriving DecidableEq, Repr

structure Cvt where
  g : Guard
  ty : Ty
  src : Ty
  mode : Option RMode
  sat : Bool
  dst : Reg
  a : Reg
  deriving DecidableEq, Repr

structure Pack where
  g : Guard
  ty : Ty
  src : Ty
  mode : Option RMode
  sat : Bool
  half : Bool
  dst : Reg
  a : Reg
  b : Reg
  c : Reg
  deriving DecidableEq, Repr

structure Unpk where
  g : Guard
  ty : Ty
  src : Ty
  idx : Fin 4
  dst : Reg
  a : Reg
  deriving DecidableEq, Repr

inductive VoteMode where
  | any | all | ballot | eq
  deriving DecidableEq, Repr

structure Vote where
  g : Guard
  ty : Ty
  mode : VoteMode
  dst : ElectDst
  a : Reg
  deriving DecidableEq, Repr

inductive FoldOp where
  | add | min | max | and | or | xor
  deriving DecidableEq, Repr

structure Prfx where
  g : Guard
  ty : Ty
  op : FoldOp
  excl : Bool
  dst : Reg
  a : Reg
  deriving DecidableEq, Repr

structure Redv where
  g : Guard
  ty : Ty
  op : FoldOp
  dst : Fin 64
  a : Reg
  deriving DecidableEq, Repr

structure Cpack where
  g : Guard
  ty : Ty
  dst : Reg
  a : Reg
  cnt : Fin 64
  deriving DecidableEq, Repr

/-- A unary special-function operation (R159). -/
structure Sf1 where
  g : Guard
  ty : Ty
  tok : Fin 8
  dst : Fin 192
  a : Reg
  deriving DecidableEq, Repr

structure SfDiv where
  g : Guard
  ty : Ty
  tok : Fin 8
  mode : Option RMode
  dst : Fin 192
  a : Reg
  b : Reg
  deriving DecidableEq, Repr

structure SfIdiv where
  g : Guard
  ty : Ty
  tok : Fin 8
  dst : Fin 192
  rem : Option (Fin 192)
  a : Reg
  b : Reg
  deriving DecidableEq, Repr

/-- Address operands of the memory and atomic layouts (R165, R166, R248). -/
structure MemAddr where
  base : Reg
  index : Reg
  scale : Fin 4
  disp : BitVec 16
  deriving DecidableEq, Repr

structure Mem where
  g : Guard
  ty : Ty
  la : Fin 16
  addr : MemAddr
  data : Reg
  deriving DecidableEq, Repr

structure Fifo where
  g : Guard
  ty : Ty
  la : Fin 16
  bank : Fin 16
  data : Reg
  deriving DecidableEq, Repr

inductive CctlOp where
  | clean | inval | flush | l1all | evict
  deriving DecidableEq, Repr

inductive BankMode where
  | cache | scratch | fifo
  deriving DecidableEq, Repr

inductive AtomOp where
  | add | min | max | and | or | xor | xchg
  deriving DecidableEq, Repr

structure Atom where
  g : Guard
  ty : Ty
  op : AtomOp
  ret : Bool
  la : Fin 16
  addr : MemAddr
  data : Reg
  deriving DecidableEq, Repr

structure Cas where
  g : Guard
  ty : Ty
  la : Fin 16
  addr : MemAddr
  data : Reg
  cmp : Reg
  deriving DecidableEq, Repr

structure ScopedMem where
  g : Guard
  ty : Ty
  scope : Scope
  la : Fin 16
  addr : MemAddr
  data : Reg
  deriving DecidableEq, Repr

inductive FenceKind where
  | acq | rel | ar
  deriving DecidableEq, Repr

/-- The engine tail (R297): scope, arrival word / 16, gate word / 16 and gate generation register. -/
structure Tail where
  scope : Scope
  arrive : Option (BitVec 16)
  gate : Option (BitVec 16)
  gateGen : Fin 64
  deriving DecidableEq, Repr

inductive TileKind where
  | a | b | cb
  deriving DecidableEq, Repr

structure TcTile where
  g : Guard
  ty : Ty
  tile : Fin 64
  base : Fin 64
  origin : Fin 64
  ly : Fin 8
  kind : TileKind
  scale : Fin 64
  tail : Tail
  deriving DecidableEq, Repr

structure TcQnt2 where
  g : Guard
  ty : Ty
  tile : Fin 64
  base : Fin 64
  origin : Fin 64
  ly : Fin 8
  tail : Tail
  deriving DecidableEq, Repr

structure TcCopy where
  g : Guard
  dst : Fin 64
  src : Fin 64
  len : Fin 64
  tail : Tail
  deriving DecidableEq, Repr

inductive FillMode where
  | global | scratch | tile (ty : Ty)
  deriving DecidableEq, Repr

structure TcFill where
  g : Guard
  mode : FillMode
  dst : Fin 64
  const : Fin 64
  len : Fin 64
  tail : Tail
  deriving DecidableEq, Repr

/-- CAP.ENTER (R274): cell, return slot and code are s registers or even v pairs; s63 as code keeps the cell's CODE. -/
structure CapEnter where
  g : Guard
  dst : Fin 192
  cell : Reg
  args : Option (Fin 192)
  status : Fin 8
  slot : Reg
  code : Reg
  deriving DecidableEq, Repr

structure CapWord where
  g : Guard
  dst : Fin 64
  base : Fin 64
  disp : BitVec 16
  deriving DecidableEq, Repr

inductive CxOp where
  | add | sub | and | or | xor | shl | shr | sar | minu | maxu | mins | maxs | mul
  deriving DecidableEq, Repr

inductive CxCond where
  | always | eq | ne | ltu | geu | lt | ge
  deriving DecidableEq, Repr

structure MxArm where
  g : Guard
  cv : Fin 16
  count : Fin 65
  desc : Fin 64
  ply : Fin 64
  gate : Option (BitVec 16)
  gateGen : Fin 64
  deriving DecidableEq, Repr

inductive RawMode where
  | tile | raw | rawScr
  deriving DecidableEq, Repr

structure MxDrain where
  g : Guard
  ty : Ty
  mode : RawMode
  tile : Fin 16
  zero : Bool
  free : Bool
  dst : Fin 64
  deriving DecidableEq, Repr

structure MxFill where
  g : Guard
  mode : RawMode
  tile : Fin 16
  src : Fin 64
  deriving DecidableEq, Repr

structure PgMem where
  g : Guard
  scr : Bool
  ctx : Fin 8
  addr : Fin 64
  deriving DecidableEq, Repr

structure PgRun where
  g : Guard
  trans : Bool
  ctx : Fin 8
  dst : Fin 64
  limit : Fin 64
  cnt : Fin 64
  deriving DecidableEq, Repr

structure SpawnF where
  g : Guard
  dst : Fin 64
  alw : Fin 64
  arg0 : Fin 64
  argc : Fin 9
  entry : BitVec 32
  hint : Fin 3
  prio : Option (BitVec 2)
  exm : Fin 3
  deriving DecidableEq, Repr

/-- Where a placement takes its record from (R108, R109, R397). -/
inductive PlaceQueue where
  | localQ (core : Nat)
  | dist (die : Nat)
  | dispatcher
  deriving DecidableEq, Repr

/-- Sender of a launch record: the host, a task of a peer device, or the operating system that a self-hosted device runs (R358, R368,
R370). -/
inductive Sender where
  | host
  | peer (dev : BitVec 10) (asid : BitVec 16)
  | resident
  deriving DecidableEq, Repr

/-- One lane of a peer's atomic: its byte in the line, operand and compare value. -/
structure PeerLane where
  off : BitVec 7
  data : BitVec 64
  cmp : BitVec 64
  deriving DecidableEq, Repr

/-- What a peer asks of a line of this device (R179, R227). -/
inductive PeerOp where
  | read
  | write (bytes : BitVec 128) (data : Line)
  | atomic (op : AtomOp) (ty : Ty) (lanes : List PeerLane)
  | cas (ty : Ty) (lanes : List PeerLane)
  deriving DecidableEq, Repr

/-- A line request arriving over the Velham link, with the MS bit and the policy of the peer's mapping (R179, R183, R227). -/
structure PeerLine where
  dev : BitVec 10
  asid : BitVec 16
  prin : BitVec 24
  va : BitVec 64
  off : BitVec 42
  sealId : BitVec 20
  ms : Bool
  cpol : BitVec 4
  op : PeerOp
  deriving DecidableEq, Repr

/-- A remote spawn request (R369). -/
structure SpawnxReq where
  dev : BitVec 10
  asid : BitVec 16
  sender : Nat
  kernel : BitVec 32
  entry : BitVec 32
  alw : BitVec 64
  argc : Nat
  args : List (BitVec 64)
  prio : BitVec 2
  ceil : BitVec 2
  exmode : Bool
  ownExm : Bool
  fpctl : BitVec 64
  handle : BitVec 32
  ordinal : BitVec 64
  prin : BitVec 24
  deriving DecidableEq, Repr

/-- A bind record (R13, R21, R188): the slot's kernel, VF and address space, the banks given to the kernel, and the starvation limit
that root firmware sets on the core with it, if any (R367). -/
structure BindRec where
  core : Nat
  slot : Nat
  kernel : BitVec 32
  vf : Nat
  asid : BitVec 16
  scratchBanks : BitVec 16
  fifoBanks : BitVec 16
  cacheBanks : BitVec 16
  slim : Option Nat := none
  deriving DecidableEq, Repr

/-- What the VF firmware sets for an address space (R171, R206, R207, R209), and whether it has suspended the context (R369). -/
structure AsdArgs where
  asid : BitVec 16
  vf : Nat
  desc : BitVec 256
  policy : List (BitVec 4)
  handlerKernel : Option (BitVec 32)
  handlerEntry : BitVec 32
  handlerAlw : BitVec 64
  devices : List Nat
  suspended : Bool := false
  deriving DecidableEq, Repr

/-- What an owner sets for its virtual function: event ring (R377), host window (R169), slice (R367), spill limit (R233), debugger
(R206); and for the device, whether it is self-hosted and coupled (R370) and the safe tier's ranges of host memory, base and length
(R375). -/
structure VfSettings where
  ringBase : BitVec 64
  ringK : Nat
  ringOn : Bool
  hostBase : Nat
  slice : Nat
  spillLimit : Nat
  debugger : Bool
  selfHosted : Bool
  coupled : Bool
  tierRanges : List (Nat × Nat) := []
  deriving DecidableEq, Repr

/-- An image handed to the loader (R393-R395); frames are the physical frames the VF firmware uses for pages and tables. -/
structure LoadArgs where
  asid : BitVec 16
  image : List (BitVec 8)
  base : BitVec 64
  size : Nat
  sealId : BitVec 20
  kid : BitVec 32
  frames : List Nat
  deriving DecidableEq, Repr

inductive Instr where
  -- control
  | nop (g : Guard)
  | bra (g : Guard) (off : BitVec 24)
  | brx (g : Guard) (src : Reg) (disp : Option (BitVec 16))
  | call (g : Guard) (off : BitVec 24)
  | callx (g : Guard) (dst : Fin 192) (tgt : Target)
  | ret (g : Guard) (src : Option Reg)
  | meet (g : Guard) (tgt : Target)
  | meetclr (g : Guard)
  | yield (g : Guard)
  | exit (g : Guard)
  | elect (g : Guard) (dst : ElectDst) (src : Option (Fin 192))
  | quant (g : Guard) (imm : BitVec 16)
  | pair (a b : Slot)
  | illegalInstruction (reason : BitVec 8) (slot : BitVec 8) (word : BitVec 64)
  -- tasks
  | spawn (x : SpawnF)
  | spawnf (x : SpawnF) (n : Fin 4097)
  | spawnx (x : SpawnF) (dev : BitVec 10)
  | join (g : Guard) (dst h : Fin 64)
  | joinany (g : Guard) (dst : Fin 64)
  | topup (g : Guard) (res : Bool) (dst h amt : Fin 64)
  | resume (g : Guard) (dst h : Fin 64)
  | cancel (g : Guard) (dst h : Fin 64)
  | alwrd (g : Guard) (held : Bool) (dst : Fin 64)
  | plynew (g : Guard) (dst : Fin 64) (cap : Fin 65)
  | plyjoin (g : Guard) (src : Fin 64)
  | plyleave (g : Guard) (src : Fin 64)
  | plybar (g : Guard) (src : Fin 64)
  | setpri (g : Guard) (child : Option (Fin 64)) (prio : BitVec 2)
  -- integer and address
  | iadd (x : Alu2) | isub (x : Alu2)
  | iadds (sub : Bool) (x : Alu2)
  | imul (x : Alu2) | imulh (x : Alu2)
  | imad (x : Alu3)
  | imin (x : Alu2) | imax (x : Alu2)
  | iabs (sat : Bool) (x : Alu1)
  | and (x : Alu2) | or (x : Alu2) | xor (x : Alu2) | andn (x : Alu2)
  | shl (x : Alu2) | shr (x : Alu2) | sar (x : Alu2)
  | clz (x : Alu1) | popc (x : Alu1) | brev (x : Alu1)
  | bfx (x : BitField) | bfi (x : BitField)
  | icmp (x : Icmp)
  | sel (x : Sel)
  | mov (x : Alu1) | movi (x : Movi) | movw (x : Movw)
  | lea (x : Lea)
  | plog (x : Plog)
  | movsp (x : Movsp)
  | dot4 (sat : Bool) (x : Alu3)
  -- floating point
  | fadd (x : Alu2) | fsub (x : Alu2) | fmul (x : Alu2)
  | ffma (x : Alu3)
  | fmin (x : Alu2) | fmax (x : Alu2)
  | fneg (x : Alu1) | fabs (x : Alu1)
  | fcmp (x : Fcmp)
  | fclass (x : Alu1)
  | frnd (mode : Option RMode) (x : Alu1)
  | cvt (x : Cvt)
  | pack (x : Pack)
  | unpk (x : Unpk)
  | fdot2 (x : Alu3)
  -- cross-lane
  | shfl (x : Alu2) | shflx (x : Alu2) | shflup (x : Alu2) | shfldn (x : Alu2)
  | vote (x : Vote)
  | prfx (x : Prfx)
  | redv (x : Redv)
  | confl (x : Alu1)
  | cpack (x : Cpack)
  -- special function
  | sfRcp (x : Sf1) | sfRsq (x : Sf1) | sfSqrt (x : Sf1) | sfExp2 (x : Sf1) | sfLog2 (x : Sf1)
  | sfSin (x : Sf1) | sfCos (x : Sf1) | sfTanh (x : Sf1) | sfSigm (x : Sf1) | sfGelu (x : Sf1)
  | sfDiv (x : SfDiv)
  | sfIdiv (x : SfIdiv)
  | sfWait (g : Guard) (mask : BitVec 8)
  | sfDelivery (core queue idx : Nat)
  -- memory
  | ld (x : Mem) | st (x : Mem) | ldu (x : Mem) | stu (x : Mem)
  | ldp (x : Mem) | stp (x : Mem) | lds (x : Mem) | sts (x : Mem)
  | fpsh (x : Fifo) | fpop (x : Fifo)
  | fifoRequestServed (core bank : Nat)
  | prf (g : Guard) (l2 : Bool) (addr : MemAddr)
  | cctl (g : Guard) (op : CctlOp) (addr : MemAddr)
  | bankset (g : Guard) (bank : Fin 16) (mode : BankMode)
  | probe (g : Guard) (dst : Fin 64) (addr : MemAddr)
  | pageTableWalk (core : Nat) (asid : BitVec 16) (va : BitVec 64) (write : Bool)
  | velhamLineRequest (r : PeerLine)
  | resultReturn (task out lane : Nat)
  | storeGloballyPerformed (req : Nat)
  | atomicApplication (req : Nat)
  | deferredFault (req : Nat)
  -- atomics and ordering
  | atom (x : Atom)
  | cas (x : Cas)
  | atomd (x : Atom)
  | aflush (g : Guard)
  | batchApplication (task : Nat)
  | fence (g : Guard) (kind : FenceKind) (scope : Scope)
  | lda (x : ScopedMem)
  | stl (x : ScopedMem)
  | atoms (x : Atom)
  -- tile copy
  | tcLoad (x : TcTile) | tcStore (x : TcTile)
  | tcQnt2 (x : TcQnt2)
  | tcCopy (x : TcCopy)
  | tcFill (x : TcFill)
  | tcLyset (g : Guard) (scr : Bool) (ly : Fin 8) (addr : Fin 64)
  | arrive (g : Guard) (set : Option Scope) (word amt : Fin 64)
  | await (g : Guard) (dst word gen : Fin 64) (timeout : BitVec 16)
  | awaitTimeout (task lane : Nat)
  | awtest (g : Guard) (dst word : Fin 64)
  | tcStat (g : Guard) (dst : Fin 64)
  | engineOperationStart (core op : Nat)
  | engineOperationComplete (core op : Nat)
  | engineOperationFault (core op : Nat)
  -- capsule
  | capEnter (x : CapEnter)
  | capExit (x : CapWord)
  | capAbort (x : CapWord)
  | capProbe (x : CapWord)
  | cellGrant (cell : Nat)
  | leaseExpiry (cell : Nat)
  | cxGet (cd : Fin 8) (n : Fin 20)
  | cxPut (n : Fin 20) (ca : Fin 8)
  | cxLd (cd ca : Fin 8) (d : BitVec 18)
  | cxAlu (op : CxOp) (cd ca : Fin 8) (cb : Option (Fin 8)) (imm : BitVec 18)
  | cxMovi (cd : Fin 8) (imm : BitVec 18) (sh : Fin 4)
  | cxBr (cond : CxCond) (ca : Fin 8) (cb : Option (Fin 8)) (off : BitVec 18)
  | cxRes (cd : Fin 8) (sel : Fin 3)
  | capExitStep
  | capAbortStep
  | epochClosed (task lane : Nat)
  -- matrix
  | mxArm (x : MxArm)
  | mxSign (g : Guard) (cv : Fin 16)
  | mxFence (g : Guard)
  | mxWait (g : Guard) (dst : Fin 64) (cv : Fin 16)
  | mxZero (g : Guard) (tiles : BitVec 16)
  | mxDrain (x : MxDrain)
  | mxFill (x : MxFill)
  | mxStep (g : Guard) (dst : Fin 64) (cv : Fin 16)
  | mxAbort (g : Guard) (cv : Fin 16)
  | mxOperationStart (core : Nat)
  | matrixStep (core : Nat)
  | mxOperationComplete (core : Nat)
  -- pattern
  | pgLoad (x : PgMem)
  | pgRun (x : PgRun)
  | pgSave (x : PgMem) (free : Bool)
  | pgRest (x : PgMem)
  | pgStat (g : Guard) (dst : Fin 64) (ctx : Fin 8)
  -- system
  | trap (g : Guard) (num : BitVec 16)
  | sysrd (g : Guard) (dst : Fin 64) (num : BitVec 8)
  | syswr (g : Guard) (src : Fin 64) (num : BitVec 8)
  | bkpt (g : Guard) (tag : BitVec 16)
  | susp (g : Guard) (us : BitVec 16)
  | suspDelayExpiry (task : Nat)
  -- placement, retirement, time
  | taskPlacement (q : PlaceQueue) (pbase : BitVec 64)
  | stealRequest (die : Nat) (kernel : BitVec 32)
  | topupCredit (n : Nat)
  | taskRetirement (task : Nat)
  | starvationSelect (core spindle : Nat)
  | vfSliceExpiry (core : Nat) (slots : Mask) (binds : List BindRec)
  | preempt (core : Nat) (slots : Mask)
  | loadWithdrawal (task out : Nat)
  | contextResume (task core slot : Nat)
  -- supervisor
  | fqheadWrite (core : Nat) (value : BitVec 8)
  | controlSpaceWrite (core : Nat) (off : BitVec 24) (value : BitVec 64)
  | replay (core slot : Nat) | skip (core slot : Nat) | terminate (core slot : Nat)
  | escalate (core slot : Nat) | halt (core slot : Nat) | release (core slot : Nat)
  -- VF firmware
  | pagerFaultGroup (asid : BitVec 16) (page : BitVec 64) (edits : List (Nat × BitVec 64)) (serve : Bool)
  | handlerSpawn (task : Nat)
  | tlbInvalidation (asid : BitVec 16) (lo : BitVec 64) (len : Nat)
  | sealCacheShootdown (asid : BitVec 16)
  | mxrst (core : Nat)
  | mxIdleExpiry (core : Nat)
  -- launch
  | launchRecord (vf queue : Nat) (sender : Sender) (rec : BitVec 512)
  | tornWrite (vf queue : Nat)
  | launchAdmission (vf queue : Nat)
  | nodeStart (vf queue : Nat)
  | nodeCompletion (launch node : Nat)
  | launchCompletion (launch : Nat)
  | apertureRead (vf : Nat) (off : BitVec 36) (len : Nat)
  | apertureWrite (vf : Nat) (off : BitVec 36) (data : List (BitVec 8))
  | spawnxRequest (r : SpawnxReq)
  | queueSettings (vf queue : Nat) (asid : BitVec 16) (prin : BitVec 24) (base : BitVec 64) (size : Nat) (sealId : BitVec 20)
      (own : Option VfSettings)
  | accessControlTable (vf queue idx : Nat) (entry : BitVec 64)
  | bindRecord (b : BindRec)
  | load (x : LoadArgs)
  | upstreamHotReset
  | verifiedBoot
  | attestationRequest (vf : Nat) (nonce : BitVec 512)
  | frzN
  | freeze
  | checkpoint
  | restore
  | counterMirror (vf : Nat)
  | issueGating (core spindle : Nat) (on : Bool)
  | addressSpaceDescriptor (x : AsdArgs)
  | teardown (asid : BitVec 16)
  deriving DecidableEq, Repr

end Sys2Proof
end

