-- ==== Sys2Proof/Machine/State.lean ====
section
/-! DEFINITION. The state of the device as plain data: everything the spec gives the machine (INVENTORY.md '## State'),
the reasons a step can stop, and the state after reset. -/

namespace Sys2Proof.Machine

/-- A table of n-bit values by key in ONE canonical form: keys strictly rising, no entry 0; an absent key reads 0.
Registers, predicates, scratch and memory (Host.Cell is its 8-bit entry) all have this form. -/
abbrev Store (n : Nat) := List (Nat × BitVec n)

/-- What tells kernels apart on a core: the ASID and the kernel id within its address space (R357, R395). -/
abbrev KKey := BitVec 48

/-- The canonical form of a table. -/
def Store.wf {n : Nat} : Store n → Bool
  | [] => true
  | [(_, x)] => x != 0
  | (k, x) :: (k', x') :: r => x != 0 && Nat.blt k k' && Store.wf ((k', x') :: r)

/-- Physical memory: bytes by address (Host.Cell), in the canonical form (log 2). -/
abbrev Memory := List Host.Cell

/-- The canonical form of memory: addresses strictly rising, no entry equal to what an unlisted address reads as (0). -/
def Memory.wf (m : Memory) : Bool := Store.wf (n := 8) m

/-- Exhaustion modes (R98, R101). -/
inductive ExMode where
  | unwind | pause
  deriving DecidableEq, Repr

/-- Final completion statuses (R104). -/
inductive Final where
  | done | exhausted | cancelled | faulted | refused
  deriving DecidableEq, Repr

/-- Park reasons (R213); ordering stands for the parks R213 gives no number (FENCE, STL, AFLUSH), log 20. -/
inductive Park where
  | none | meeting | barrier | fifo | capsule | join | await | mxWait | sfWait | fault | susp | ordering
  deriving DecidableEq, Repr

/-- A lane (R14, R66, R68, R155). -/
structure Lane where
  pc : BitVec 32
  link : BitVec 32
  depth : BitVec 8
  meetValid : Bool
  meetDepth : BitVec 8
  meetAddr : BitVec 32
  exited : Bool
  park : Park
  tok : Store 6
  deriving DecidableEq, Repr

/-- A fault record (R200). -/
structure FaultRec where
  code : BitVec 8
  slot : BitVec 6
  deferred : Bool
  replayed : Bool
  low : BitVec 8
  depth : BitVec 8
  pc : BitVec 32
  lmask : Mask
  addr : BitVec 64
  alw : BitVec 64
  held : BitVec 64
  gmask : Mask
  detail : BitVec 128
  deriving DecidableEq, Repr

/-- One lane's part of a memory instruction: addresses, store data or operand, compare value, the bits of private bytes that read as
written when it issued (R225), and the value obtained. -/
structure LaneAcc where
  lane : Nat
  va : BitVec 64
  pa : Nat
  data : BitVec 64
  cmp : BitVec 64
  mask : BitVec 64
  val : Option (BitVec 64)
  deriving DecidableEq, Repr

/-- What a request asks of its line: a load, the fill of a PRF, a store, or an atomic (R191, R194, R231, R250). -/
inductive ReqKind where
  | load
  | prefetch
  | store
  | atomic (op : AtomOp)
  | cas
  deriving DecidableEq, Repr

/-- A line request in flight (R181, R240): sent by a core, not yet performed at its home. A load or a prefetch with fill brings the
line into L1; a store with fill updates L1 only when it performs. seals: those of the lanes' other translations of the line; depth: the
call depth of its group when it issued (R200). -/
structure Req where
  id : Nat
  inst : Nat
  core : Nat
  task : Nat
  out : Option Nat
  kind : ReqKind
  ty : Ty
  line : Nat
  cpol : BitVec 4
  ms : Bool
  bypass : Bool
  caps : Bool
  stl : Bool
  fill : Bool
  deny : Bool
  peer : Bool
  sealId : BitVec 20
  seals : List (BitVec 20)
  asid : BitVec 16
  prin : BitVec 24
  pc : BitVec 32
  depth : BitVec 8
  group : Mask
  lanes : List LaneAcc
  deriving DecidableEq, Repr

/-- Where a long-latency instruction's value comes from (R36). -/
inductive OutKind where
  | memory
  | scratch
  | fifo (bank : Nat)
  deriving DecidableEq, Repr

/-- A long-latency result not yet returned to every lane (R37): remaining counted instructions per lane in window; clob: the
destination registers, by the key of a register in a lane, that a counted instruction has written; depth: the group's when it issued. -/
structure Out where
  id : Nat
  kind : OutKind
  pc : BitVec 32
  depth : BitVec 8
  group : Mask
  dst : Reg
  ty : Ty
  window : Store 5
  open_ : Mask
  clob : Store 1
  lanes : List LaneAcc
  acq : Option Scope
  isLoad : Bool
  deriving DecidableEq, Repr

/-- Progress of one lane of a CAP.ENTER (R272). -/
inductive CapStage where
  | waiting
  | own (epoch : BitVec 40)
  | adopt (epoch : BitVec 40)
  | displaced (epoch : BitVec 40)
  | done
  deriving DecidableEq, Repr

/-- A lane in its CAP.ENTER; mark: the stores that its END's release waits for are those numbered below; next: the address of its
next step's word. -/
structure CapLane where
  lane : Nat
  cellVa : BitVec 64
  cell : Nat
  slotVa : BitVec 64
  code : Option (BitVec 64)
  args : List (BitVec 64)
  seq : Nat
  stage : CapStage
  mark : Option Nat
  next : BitVec 64
  deriving DecidableEq, Repr

/-- What a parked group waits for. -/
inductive WaitKind where
  | join (h : BitVec 32) (dst : Fin 64)
  | joinAny (dst : Fin 64)
  | topup (dst : Fin 64)
  | plybar (id : BitVec 32) (reqs : List Nat)
  | plywait (id : BitVec 32)
  | fpsh (bank : Nat) (id : Nat)
  | capEnter (dst : Fin 192) (status : Fin 8) (lanes : List CapLane)
  | sfWait (mask : BitVec 8)
  | await (word : Nat) (gen : BitVec 32) (dst : Fin 64) (timeout : BitVec 16) (since : BitVec 64)
  | mxWait (cv : Nat) (dst : Fin 64)
  | fence (reqs : List Nat) (rel acq : Option Scope)
  | stl (reqs : List Nat) (scope : Scope) (send : List Req)
  | aflush
  | arrive (word amount : Nat) (scope : Scope) (reqs : List Nat)
  | capAbort (dst : Fin 64) (cell : Nat) (reqs : List Nat)
  | bankset (bank : Nat) (mode : BankMode) (copies : List Nat) (mx : List (Nat × BitVec 16))
  deriving DecidableEq, Repr

/-- A parked instruction: its lanes, its PC and its length. -/
structure Wait where
  lanes : Mask
  pc : BitVec 32
  len : BitVec 32
  kind : WaitKind
  deriving DecidableEq, Repr

/-- An entry of the ordered buffer (R233). -/
structure DEntry where
  ordinal : BitVec 64
  seq : BitVec 32
  lane : Nat
  va : BitVec 64
  pa : Nat
  sealId : BitVec 20
  op : AtomOp
  ty : Ty
  data : BitVec 64
  cpol : BitVec 4
  ms : Bool
  core : Nat
  spilled : Bool
  deriving DecidableEq, Repr

/-- A child as its parent's completion records hold it (R103, R104, R120, R235). -/
structure Child where
  handle : BitVec 32
  task : Nat
  final : Option Final
  remainder : BitVec 64
  paused : Bool
  reported : Bool
  seq : Nat
  counted : Bool
  remote : Bool
  entries : List DEntry
  deriving DecidableEq, Repr

/-- How a matrix operation ended for a participant (R320, R328). -/
inductive MxEnd where
  | done | aborted | cancelled
  | fault (code : BitVec 8) (detail : BitVec 128)
  deriving DecidableEq, Repr

/-- A task's record of the epoch it last armed or signed on a convergence register (R311): whether it armed it, the operand tiles once the
operation has ended, and whether it has waited for it (R245). -/
structure MxRec where
  core : Nat
  cv : Nat
  epoch : BitVec 16
  tiles : BitVec 16
  armer : Bool
  ops : List Nat
  waited : Bool
  fin : Option MxEnd
  deriving DecidableEq, Repr

/-- Where a task is (R21, R108, R109, R213-R216, R369). -/
inductive Place where
  | localQ (core : Nat)
  | distQ (die : Nat)
  | dispatch
  | inbound
  | remote (dev : BitVec 10)
  | placed (core slot : Nat)
  | saved
  | retired
  deriving DecidableEq, Repr

/-- A FIFO request waiting at a bank (R190); dead: the bank has left FIFO mode since (R193). -/
structure FifoReq where
  id : Nat
  task : Nat
  bank : Nat
  push : Bool
  vals : List (BitVec 32)
  lanes : Mask
  out : Nat
  dead : Bool
  deriving DecidableEq, Repr

/-- A pending replay (R213, R214): a memory instruction, AWAIT or CAP.ENTER withdrawn by a save. An atomic with a result holds that result and
its requests. -/
structure Replay where
  pc : BitVec 32
  group : Mask
  code : BitVec 8
  out : Option Out
  wait : Option Wait
  stores : List Req
  fifo : Option FifoReq
  deriving DecidableEq, Repr

/-- A generator context (R344, R345): sixteen words and the cursor. -/
structure GCtx where
  owner : Option Nat
  busy : Bool
  words : List (BitVec 32)
  outer : BitVec 32
  inner : BitVec 32
  rowoff : BitVec 24
  count : BitVec 24
  state : BitVec 2
  trans : Bool
  tile : BitVec 16
  deriving DecidableEq, Repr

/-- States of a convergence register (R311). -/
inductive CvState where
  | idle | armed | issued | paused
  deriving DecidableEq, Repr

/-- A convergence register with the progress of its operation (R311, R315, R318): skip says which steps are skipped, block is the
sum P of the current scale block, descVa the descriptor's address; stale: operand bytes that it may read as they were, each as 256 plus
that value (R245); taint: the operand bytes that are undefined to it (R320). -/
structure Cv where
  state : CvState
  epoch : BitVec 16
  armer : Nat
  desc : BitVec 512
  descVa : BitVec 64
  need : Nat
  signers : List Nat
  ply : Option (BitVec 32)
  gate : Option (Nat × BitVec 32)
  pos : BitVec 32
  issued : Nat
  reserved : BitVec 64
  executed : Nat
  started : Bool
  skip : List Bool
  block : Store 40
  stale : Store 9
  taint : Store 1
  ended : Option MxEnd
  deriving DecidableEq, Repr

/-- delay: the cycles of a SUSP that must pass from clock before the context may resume; 0 once SUSP_DELAY_EXPIRY has come (R224).
What a save moves into the context beside the task's own state (R213-R215). A paused matrix portion stays in its convergence
register (R322); whether copies are still in flight (ACCP) is seen in the core's copies. -/
structure Saved where
  clock : BitVec 64
  core : Nat
  slot : Nat
  susp : Bool
  delay : Nat
  gens : List (Nat × GCtx)
  tiles : List (Nat × Store 40)
  unwaited : BitVec 16
  deriving DecidableEq, Repr

/-- A layout record (R283). -/
structure Layout where
  base : BitVec 64
  stride : List (BitVec 32)
  ext : List (BitVec 32)
  clipq : BitVec 8
  clipp : BitVec 8
  fmt : BitVec 8
  flags : BitVec 8
  sstr : BitVec 32
  deriving DecidableEq, Repr

/-- The five copy operations with what they took at issue (R291, R298-R302). -/
inductive CopyKind where
  | load (ty : Ty) (kind : TileKind) (tile : Nat) (base : BitVec 64) (org : List Int) (ly : Layout) (scale : BitVec 64)
  | store (ty : Ty) (kind : TileKind) (tile : Nat) (base : BitVec 64) (org : List Int) (ly : Layout) (scale : BitVec 64)
  | qnt2 (ty : Ty) (tile : Nat) (base : BitVec 64) (org : List Int) (ly : Layout)
  | copy (dst src : BitVec 64) (len : Nat)
  | fillGlobal (dst : BitVec 64) (c : BitVec 64) (len : Nat)
  | fillScratch (dst : Nat) (c : BitVec 64) (len : Nat)
  | fillTile (ty : Ty) (tile : Nat) (c : BitVec 64)
  deriving DecidableEq, Repr

/-- A copy operation in flight (R291-R295); gate0: the gate that its instruction names, gate: the same until it opens;
depth: the group's when it issued. -/
structure CopyOp where
  id : Nat
  task : Nat
  core : Nat
  kernel : KKey
  asid : BitVec 16
  prin : BitVec 24
  pc : BitVec 32
  depth : BitVec 8
  group : Mask
  kind : CopyKind
  lyNum : Nat
  scope : Scope
  arrive : Option Nat
  gate : Option (Nat × BitVec 32)
  gate0 : Option (Nat × BitVec 32)
  started : Bool
  reserved : BitVec 64
  deriving DecidableEq, Repr

/-- A special-function operation not yet delivered (R154, R156): results are computed from the sources read at issue; clob:
the destination registers, by the key of a register in a lane, that a later instruction has written. -/
structure SfOp where
  id : Nat
  queue : Nat
  tok : Fin 8
  lanes : Mask
  group : Mask
  clob : Store 1
  dst : Fin 192
  rem : Option (Fin 192)
  ty : Ty
  vals : List (Nat × BitVec 64)
  rems : List (Nat × BitVec 64)
  flags : BitVec 5
  deriving DecidableEq, Repr

/-- A task (R15, R66, R67, R93, R107, R203, R213). unfenced: scratch bytes written since the last MX.FENCE, each as 256 plus what it held
before (R245); after: the core and the number below which its stores come before the first issue (R119, R244); relMark: the number of requests
when the task stopped issuing, up to which its retirement's release waits (R244); carried: the stores of cores that it ran on before, which
its releases cover still (R241); deferred: the instructions to perform again, that of the outstanding record first, and so deferredCopies;
fetchFault: the outstanding record was raised by the fetch of an instruction's first word (R205). -/
structure Task where
  id : Nat
  vf : Nat
  asid : BitVec 16
  prin : BitVec 24
  kernel : BitVec 32
  parent : Option Nat
  root : Nat
  handle : BitVec 32
  ordinal : BitVec 64
  det : Bool
  launch : Option (Nat × Nat)
  handlerFor : Option Nat
  viaSpawnx : Bool
  place : Place
  arrival : Nat
  everPlaced : Bool
  lcores : List Nat
  alw : BitVec 64
  held : BitVec 64
  fpctl : BitVec 64
  sealcnt : BitVec 64
  zerochk : BitVec 64
  exmode : ExMode
  ownExm : ExMode
  dset : Mask
  oset : Mask
  quant : BitVec 16
  bbc : BitVec 16
  childCtr : BitVec 16
  childGen : BitVec 16
  prio : BitVec 2
  ceil : BitVec 2
  plies : List (BitVec 32)
  pbase : BitVec 64
  privWritten : Store 1
  unfenced : Store 9
  after : Option (Nat × Nat)
  relMark : Nat
  carried : List Nat
  lanes : List Lane
  sregs : Store 64
  vregs : Store 32
  preds : Store 64
  outs : List Out
  sfOps : List SfOp
  waits : List Wait
  children : List Child
  dseq : BitVec 32
  dentries : List DEntry
  mxRecs : List MxRec
  fault : Option FaultRec
  fetchFault : Bool
  notice : Option FaultRec
  trapRec : Option FaultRec
  deferred : List Req
  deferredCopies : List CopyOp
  replayCap : List Wait
  halted : Bool
  suspended : Bool
  escalated : Bool
  werr : Bool
  saving : Option (BitVec 64)
  suspUs : BitVec 16
  paused : Bool
  stop : Option Final
  pendingReplays : List Replay
  saved : Option Saved
  lastSelect : BitVec 64
  deriving DecidableEq, Repr

/-- A registered kernel (R357, R395). -/
structure Kernel where
  kid : BitVec 32
  asid : BitVec 16
  cbase : BitVec 64
  w : Nat
  n : Nat
  priv : Nat
  scr : Nat
  entry : BitVec 32
  deriving DecidableEq, Repr

/-- What a walk finds (R172, R173): the page's physical base and size, the entry's address and its two words. -/
structure Leaf where
  base : Nat
  size : Nat
  pte : Nat
  w0 : Nat
  w1 : Nat
  deriving DecidableEq, Repr

/-- A translation kept by a TLB (R175): of a core, or of a die for the second level. -/
structure TlbEntry where
  unit : Nat
  asid : BitVec 16
  va : Nat
  leaf : Leaf
  deriving DecidableEq, Repr

/-- A result of Grant kept by a seal cache (R177). -/
structure SealEntry where
  core : Nat
  asid : BitVec 16
  prin : BitVec 24
  sealId : BitVec 20
  rd : Bool
  wr : Bool
  deriving DecidableEq, Repr

/-- A line of a core's L1 (R178, R182). -/
structure L1Line where
  way : Nat
  line : Nat
  data : Line
  sealId : BitVec 20
  asid : BitVec 16
  priv : Bool
  task : Nat
  dirty : BitVec 128
  deriving DecidableEq, Repr

/-- A line of the home L2 (R178); stream: it goes first when room is needed (R183). -/
structure L2Line where
  line : Nat
  data : Line
  sealId : BitVec 20
  dirty : Bool
  stream : Bool
  deriving DecidableEq, Repr

/-- A bank (R188). -/
structure Bank where
  mode : BankMode
  owner : Option KKey
  fifo : List (BitVec 32)
  deriving DecidableEq, Repr

/-- A task's eight layout registers on a core (R288). -/
structure LySet where
  task : Nat
  regs : List (Option Layout)
  savedAt : Option Nat
  deriving DecidableEq, Repr

/-- A bound slot (R13, R21): since when its tasks have held it, once they have (R367). -/
structure Bind where
  slot : Nat
  kernel : BitVec 32
  vf : Nat
  asid : BitVec 16
  held : Bool
  since : BitVec 64
  deriving DecidableEq, Repr

/-- A spindle: for each priority the slot selected last (R110), the starved slot to take first (R367), gating (R379). -/
structure Spindle where
  last : List Nat
  forced : Option Nat
  gated : Option (BitVec 64)
  deriving DecidableEq, Repr

/-- A compute core; bodyOrder: the capsule bodies, by task and lane, that have stepped, the latest last (R263). -/
structure Core where
  id : Nat
  binds : List Bind
  banks : List Bank
  scratch : List (KKey × Store 8)
  conflicts : List (KKey × BitVec 32)
  fifoReqs : List FifoReq
  l1 : List L1Line
  l1ptr : Store 8
  copies : List CopyOp
  lysets : List LySet
  tiles : List (Store 40)
  tileOwner : List (Option Nat)
  unwaited : BitVec 16
  cvs : List Cv
  running : Option Nat
  gens : List GCtx
  fqHead : BitVec 8
  fqTail : BitVec 8
  fqIe : Bool
  ring : List FaultRec
  mxStepAt : BitVec 64
  mxrst : Bool
  spindles : List Spindle
  slim : Nat
  bodyOrder : List (Nat × Nat)
  deriving DecidableEq, Repr

/-- An address space (R171, R206, R209, R369); devices: the members of its load-store domain (R119). -/
structure Asd where
  asid : BitVec 16
  vf : Nat
  gk : BitVec 5
  gtab : BitVec 51
  fmode : Bool
  strict : Bool
  rootFrame : BitVec 40
  policy : List (BitVec 4)
  handlerKernel : Option (BitVec 32)
  handlerEntry : BitVec 32
  handlerAlw : BitVec 64
  devices : List Nat
  suspended : Bool
  torn : Bool
  deriving DecidableEq, Repr

/-- A launch record as parsed (R358). -/
structure LaunchRec where
  sender : Sender
  graph : BitVec 64
  nodes : BitVec 64
  allow : BitVec 64
  cctr : BitVec 64
  rblk : BitVec 64
  blist : BitVec 64
  cadd : BitVec 32
  phase : BitVec 2
  prio : BitVec 2
  det : Bool
  nbuf : BitVec 8
  seq : BitVec 16
  deriving DecidableEq, Repr

/-- A launch queue (R357, R368, R396). -/
structure Queue where
  asid : BitVec 16
  prin : BitVec 24
  arenaBase : BitVec 64
  arenaSize : Nat
  arenaSeal : BitVec 20
  ring : List LaunchRec
  torn : BitVec 16
  denied : BitVec 16
  full : BitVec 16
  acl : List (BitVec 64)
  lastPhase : BitVec 2
  deriving DecidableEq, Repr

/-- Progress of one node of a launch (R359, R362). -/
structure Node where
  idx : Nat
  kernel : BitVec 32
  entry : BitVec 32
  nalw : BitVec 64
  succ : BitVec 64
  pcnt : Nat
  halt : Bool
  args : List (BitVec 64)
  started : Bool
  placed : Bool
  readyAt : Nat
  task : Option Nat
  result : Option (BitVec 8)
  deriving DecidableEq, Repr

/-- An admitted launch (R361-R364). -/
structure Launch where
  id : Nat
  vf : Nat
  queue : Nat
  record : LaunchRec
  pool : BitVec 64
  nodes : List Node
  halted : Bool
  hostReset : Bool
  done : Bool
  deriving DecidableEq, Repr

/-- A virtual function: counters in the order of R376, event ring (R377), slice (R367), host window (R169). -/
structure Vf where
  counters : List (BitVec 64)
  ringBase : BitVec 64
  ringK : Nat
  ringOn : Bool
  wptr : BitVec 64
  lost : BitVec 64
  hostBase : Nat
  slice : Nat
  spillLimit : Nat
  debugger : Bool
  deriving DecidableEq, Repr

/-- A ply (R114-R116). -/
structure Ply where
  die : Nat
  idx : Nat
  gen : BitVec 8
  asid : BitVec 16
  cap : Nat
  members : List Nat
  arrived : List Nat
  barrier : Nat
  deriving DecidableEq, Repr

/-- A top-up on its way to the child's account (R102). -/
structure Credit where
  parent : Nat
  child : BitVec 32
  amount : BitVec 64
  res : Bool
  lanes : Mask
  deriving DecidableEq, Repr

/-- What the power and boot state is (R371, R373). -/
inductive Power where
  | off | open_ | recovery | frozen
  deriving DecidableEq, Repr

/-- A firmware image in the flash with its signature (R371). -/
structure FwImage where
  bytes : List (BitVec 8)
  key : List (BitVec 8)
  sig : List (BitVec 8)
  svn : BitVec 64
  deriving DecidableEq, Repr

/-- A RISC-V hart of a firmware or supervisor core: its pc, x and f registers and fcsr (R1; log 106). -/
structure Hart where
  pc : BitVec 64
  x : Store 64
  f : Store 64
  fcsr : BitVec 32
  deriving DecidableEq, Repr

/-- An image in the safe tier (R375): HBM, what firmware keeps in it (the contexts with what a core keeps for them, their plies and credits,
waiting remote spawns, the functions' counters and event rings), the ranges of host memory that hold it, its digest and whether the
trailer holds COMPLETE. -/
structure TierImage where
  mem : Memory
  tasks : List Task
  cores : List Core
  launches : List Launch
  vfs : List Vf
  plies : List Ply
  plyGens : Store 8
  credits : List Credit
  inbound : List SpawnxReq
  ranges : List (Nat × Nat)
  digest : BitVec 512
  complete : Bool
  deriving DecidableEq, Repr

/-- Who is issuing: a lane group of a task, or the capsule body a lane executes. -/
inductive Issuer where
  | idle
  | group (task : Nat) (lanes : Mask)
  | body (task lane : Nat)
  deriving DecidableEq, Repr

/-- What a step does: a spindle's issue, one capsule body step, what a task performs again before it issues (R211, R216), or a device
event (log 3). -/
inductive Turn where
  | issue (core spindle : Nat)
  | capStep (task lane : Nat)
  | redo (task : Nat)
  | event (i : Instr)
  deriving DecidableEq, Repr

/-- The device. lastQueue: the launch queue, numbered 16 × VF + queue, whose record was admitted last (R361); fwSram: the private SRAM of
the firmware cores, the root core's 8 MiB first, then 2 MiB for each VF core; harts: those of the root core, the 16 VF cores and the 160
supervisor cores, in that order (R1). -/
structure State where
  tick : Nat
  clock : BitVec 64
  power : Power
  agenda : List Turn
  cur : Issuer
  deviceNo : BitVec 10
  mem : Memory
  hostMem : Memory
  ueLines : List Nat
  ceLines : List Nat
  l2 : List L2Line
  tlb : List TlbEntry
  dieTlb : List TlbEntry
  seals : List SealEntry
  reqs : List Req
  nextReq : Nat
  nextTask : Nat
  nextSeq : Nat
  tasks : List Task
  cores : List Core
  kernels : List Kernel
  asds : List Asd
  queues : List Queue
  lastQueue : Nat
  launches : List Launch
  vfs : List Vf
  plies : List Ply
  plyGens : Store 8
  credits : List Credit
  leases : List (Nat × BitVec 64)
  inbound : List SpawnxReq
  peerGrants : List (Nat × SealEntry)
  stopAdmission : Bool
  heldHost : List Instr
  selfHosted : Bool
  coupled : Bool
  flash : List FwImage
  fuseDigest : BitVec 512
  fuseSvn : BitVec 64
  running : List FwImage
  fwSram : Store 8
  harts : List Hart
  tier : Option TierImage
  tierRanges : List (Nat × Nat)
  tierPending : Bool
  reports : List (List (BitVec 8))
  hostReads : List (List (BitVec 8))
  loadResults : List (List (BitVec 8))
  deriving DecidableEq, Repr

/-- Why the machine stops with a fault. -/
inductive Fault where
  /-- Raised by a task instruction or a body step when exec is called on a state in which no group or body is issuing.
  Safe: step never calls exec so. -/
  | noIssuer
  deriving DecidableEq, Repr

/-- Why a step is refused. -/
inductive Refusal where
  /-- Raised by an arm of exec for an instruction that has no meaning yet. Safe. -/
  | notModelled (mnemonic : String)
  deriving DecidableEq, Repr

/-! ### Reset -/

def Spindle.reset : Spindle := { last := [15, 15, 15, 15], forced := none, gated := none }

def Hart.reset : Hart := { pc := 0, x := [], f := [], fcsr := 0 }

def Bank.reset : Bank := { mode := .cache, owner := none, fifo := [] }

def Cv.reset : Cv :=
  { state := .idle, epoch := 0, armer := 0, desc := 0, descVa := 0, need := 0, signers := [], ply := none, gate := none, pos := 0,
    issued := 0, reserved := 0, executed := 0, started := false, skip := [], block := [], stale := [], taint := [], ended := none }

/-- A cleared context is EMPTY with every byte zero (R344). -/
def GCtx.reset : GCtx :=
  { owner := none, busy := false, words := List.replicate 16 0, outer := 0, inner := 0, rowoff := 0, count := 0, state := 0,
    trans := false, tile := 0 }

def FaultRec.zero : FaultRec :=
  { code := 0, slot := 0, deferred := false, replayed := false, low := 0, depth := 0, pc := 0, lmask := 0, addr := 0, alw := 0,
    held := 0, gmask := 0, detail := 0 }

/-- A core after reset (R110, R201, R217, R309, R345; the rest log 1). -/
def Core.reset (id : Nat) : Core :=
  { id := id, binds := [], banks := List.replicate 16 Bank.reset, scratch := [], conflicts := [], fifoReqs := [], l1 := [],
    l1ptr := [], copies := [], lysets := [], tiles := List.replicate 16 [],
    tileOwner := List.replicate 16 none, unwaited := 0, cvs := List.replicate 16 Cv.reset, running := none,
    gens := List.replicate 8 GCtx.reset, fqHead := 0, fqTail := 0, fqIe := false, ring := List.replicate 128 FaultRec.zero,
    mxStepAt := 0, mxrst := false, spindles := List.replicate 4 Spindle.reset, slim := Config.slimDefault, bodyOrder := [] }

def Queue.reset : Queue :=
  { asid := 0, prin := 0, arenaBase := 0, arenaSize := 0, arenaSeal := 0, ring := [], torn := 0, denied := 0, full := 0,
    acl := List.replicate 16 0, lastPhase := 0 }

def Vf.reset : Vf :=
  { counters := List.replicate 6 0, ringBase := 0, ringK := 0, ringOn := false, wptr := 0, lost := 0, hostBase := 0,
    slice := Config.sliceDefault, spillLimit := Config.spillDefault, debugger := false }

/-- The device right after reset: every unit at the value the spec states, the rest as log 1 names. The list of cores holds
a core from the first time something is bound on it; an absent core is Core.reset. -/
def State.reset : State :=
  { tick := 0, clock := 0, power := .off, agenda := [], cur := .idle, deviceNo := 0, mem := [], hostMem := [], ueLines := [],
    ceLines := [], l2 := [], tlb := [], dieTlb := [], seals := [], reqs := [], nextReq := 0, nextTask := 1, nextSeq := 0, tasks := [],
    cores := [], kernels := [], asds := [], queues := List.replicate 256 Queue.reset, lastQueue := 255, launches := [],
    vfs := List.replicate 16 Vf.reset, plies := [], plyGens := [], credits := [], leases := [], inbound := [],
    peerGrants := [], stopAdmission := false, heldHost := [], selfHosted := false, coupled := false, flash := [],
    fuseDigest := 0, fuseSvn := 0, running := [], fwSram := [], harts := List.replicate Config.numHarts Hart.reset,
    tier := none, tierRanges := [], tierPending := false, reports := [], hostReads := [],
    loadResults := [] }

end Sys2Proof.Machine
end

