-- ==== Sys2Proof/Machine/Types.lean ====
section
/-! DEFINITION. Bits, bytes, lane masks, and the widths, codes and ranges of the element types (R33-R35, R46, R167). -/

namespace Sys2Proof

/-- Bits [lo+n-1:lo] of a number. -/
def bits (w lo n : Nat) : Nat := (w >>> lo) % 2 ^ n

def bit (w i : Nat) : Bool := w.testBit i

/-- A number read as n-bit two's complement. -/
def sext (n w : Nat) : Int := if w % 2 ^ n < 2 ^ (n - 1) then ((w % 2 ^ n : Nat) : Int) else ((w % 2 ^ n : Nat) : Int) - (2 ^ n : Nat)

/-- An integer reduced modulo 2^n. -/
def wrap (n : Nat) (x : Int) : Nat := (x % ((2 ^ n : Nat) : Int)).toNat

/-- The lanes of a mask, ascending. -/
def lanesOf (m : Mask) : List Nat := (List.range 64).filter fun l => m.getLsbD l

/-- The mask with the one lane l. -/
def laneBit (l : Nat) : Mask := (1 : BitVec 64) <<< l

/-- The mask of a list of lanes. -/
def maskOf (ls : List Nat) : Mask := ls.foldl (fun m l => m ||| laneBit l) 0

/-- The mask of the lanes below w that satisfy p. -/
def maskWhere (w : Nat) (p : Nat → Bool) : Mask := maskOf ((List.range w).filter p)

/-- The lowest lane of a mask. -/
def lowest? (m : Mask) : Option Nat := (lanesOf m).head?

def Line.byte (d : Line) (i : Nat) : BitVec 8 := (d >>> (8 * i)).setWidth 8

def Line.setByte (d : Line) (i : Nat) (b : BitVec 8) : Line :=
  (d &&& ~~~((255 : BitVec 1024) <<< (8 * i))) ||| ((b.setWidth 1024) <<< (8 * i))

/-- Low n bytes of a number as a list, the lowest first. -/
def bytesLE : Nat → Nat → List (BitVec 8)
  | 0, _ => []
  | n + 1, v => BitVec.ofNat 8 v :: bytesLE n (v / 256)

/-- A list of bytes as a number, the first lowest. -/
def ofBytesLE : List (BitVec 8) → Nat
  | [] => 0
  | b :: r => b.toNat + 256 * ofBytesLE r

/-- A structure's fields placed at byte offsets. -/
def packBytes (fs : List (Nat × Nat)) : Nat := fs.foldl (fun acc f => acc ||| (f.2 <<< (8 * f.1))) 0

def ceilDiv (a b : Nat) : Nat := (a + (b - 1)) / b

/-- n without duplicates, first occurrence kept. -/
def distinct : List Nat → List Nat
  | [] => []
  | a :: r => a :: (distinct r).filter (· ≠ a)

/-- Replace element i of a list. -/
def listUpd {α : Type} (l : List α) (i : Nat) (f : α → α) : List α := l.mapIdx fun j x => if j = i then f x else x

/-- Size in bytes of a memory access of a type (R167). -/
def Ty.bytes : Ty → Nat
  | .i8 | .n8 => 1
  | .i16 | .n16 => 2
  | .i64 | .n64 => 8
  | .i32 | .n32 | .f32 | .b32 | .f16 | .bf16 | .e4m3 | .e5m2 | .l6 => 4

/-- Whether a type is 64 bits wide (R33, R34). -/
def Ty.wide : Ty → Bool
  | .i64 | .n64 => true
  | _ => false

/-- Whether a type's integers are signed. -/
def Ty.signed : Ty → Bool
  | .i32 | .i64 | .i16 | .i8 => true
  | _ => false

/-- Element width in bits and element count of a type in its register (R34). -/
def Ty.elem : Ty → Nat × Nat
  | .i32 | .n32 | .f32 | .b32 => (32, 1)
  | .i64 | .n64 => (64, 1)
  | .f16 | .bf16 | .i16 | .n16 => (16, 2)
  | .e4m3 | .e5m2 | .l6 | .i8 | .n8 => (8, 4)

/-- Type codes (R34). -/
def Ty.code : Ty → Nat
  | .i32 => 0 | .n32 => 1 | .i64 => 2 | .n64 => 3 | .f32 => 4 | .f16 => 5 | .bf16 => 6 | .e4m3 => 7 | .e5m2 => 8 | .l6 => 9
  | .i16 => 10 | .n16 => 11 | .i8 => 12 | .n8 => 13 | .b32 => 14

def Ty.ofCode : Nat → Option Ty
  | 0 => some .i32 | 1 => some .n32 | 2 => some .i64 | 3 => some .n64 | 4 => some .f32 | 5 => some .f16 | 6 => some .bf16
  | 7 => some .e4m3 | 8 => some .e5m2 | 9 => some .l6 | 10 => some .i16 | 11 => some .n16 | 12 => some .i8 | 13 => some .n8
  | 14 => some .b32 | _ => none

/-- The range of an integer type. -/
def Ty.range (t : Ty) : Int × Int :=
  let w := t.elem.1
  if t.signed then (-(2 ^ (w - 1) : Nat), (2 ^ (w - 1) : Nat) - 1) else (0, (2 ^ w : Nat) - 1)

/-- Whether a type is an integer type. -/
def Ty.isInt : Ty → Bool
  | .i32 | .n32 | .i64 | .n64 | .i16 | .n16 | .i8 | .n8 => true
  | _ => false

/-- Whether a type is a floating format or l6. -/
def Ty.isFloat : Ty → Bool
  | .f32 | .f16 | .bf16 | .e4m3 | .e5m2 | .l6 => true
  | _ => false

/-- The integer that an element of an integer type holds. -/
def Ty.toI (t : Ty) (x : Nat) : Int := if t.signed then sext t.elem.1 x else ((x % 2 ^ t.elem.1 : Nat) : Int)

/-- The formats that FTZ acts on (R58). -/
def Ty.ftz : Ty → Bool
  | .f32 | .f16 | .bf16 => true
  | _ => false

/-- Codes of R56. -/
def RMode.code : RMode → Nat
  | .rne => 0 | .rtz => 1 | .rdn => 2 | .rup => 3 | .rod => 4

end Sys2Proof
end

