-- ==== Sys2Proof/Machine/Base.lean ====
section
/-! DEFINITION. The plainest operations: canonical tables, bytes and bit fields, access to tasks, cores, lanes, kernels and
address spaces of the state. -/

namespace Sys2Proof.Machine

/-! ### Tables -/

/-- The value at key k; an absent key reads 0. -/
def Store.get {n : Nat} : Store n → Nat → BitVec n
  | [], _ => 0
  | (k', x) :: r, k => if k = k' then x else Store.get r k

/-- Insert an entry before the first greater key. -/
def Store.insert {n : Nat} : Store n → Nat → BitVec n → Store n
  | [], k, x => [(k, x)]
  | e :: r, k, x => if k < e.1 then (k, x) :: e :: r else e :: Store.insert r k x

/-- Put x at key k, keeping the canonical form (0 removes the entry). -/
def Store.set {n : Nat} (m : Store n) (k : Nat) (x : BitVec n) : Store n :=
  let r := m.filter fun e => e.1 != k
  if x = 0 then r else Store.insert r k x

/-- n bytes from address a, little-endian (R4). -/
def Store.readLE (m : Store 8) (a : Nat) : Nat → Nat
  | 0 => 0
  | n + 1 => (Store.get m a).toNat + 256 * Store.readLE m (a + 1) n

/-- Write the low n bytes of v from address a, little-endian. -/
def Store.writeLE (m : Store 8) (a : Nat) : Nat → Nat → Store 8
  | 0, _ => m
  | n + 1, v => Store.writeLE (Store.set m a (BitVec.ofNat 8 v)) (a + 1) n (v / 256)

/-! ### Access to the state's objects -/

def State.task? (s : State) (id : Nat) : Option Task := s.tasks.find? fun t => t.id == id

def State.updTask (s : State) (id : Nat) (f : Task → Task) : State :=
  { s with tasks := s.tasks.map fun t => if t.id = id then f t else t }

/-- A core; one that nothing has been bound on is as after reset. -/
def State.core (s : State) (c : Nat) : Core := (s.cores.find? fun k => k.id == c).getD (Core.reset c)

def State.updCore (s : State) (c : Nat) (f : Core → Core) : State :=
  if s.cores.any (fun k => k.id == c) then { s with cores := s.cores.map fun k => if k.id = c then f k else k }
  else { s with cores := s.cores ++ [f (Core.reset c)] }

def Asd.reset (asid : BitVec 16) : Asd :=
  { asid := asid, vf := 0, gk := 0, gtab := 0, fmode := false, strict := false, rootFrame := 0, policy := [],
    handlerKernel := none, handlerEntry := 0, handlerAlw := 0, devices := [], suspended := false, torn := false }

/-- The descriptor of an address space; one never set holds zeros (R171). -/
def State.asd (s : State) (asid : BitVec 16) : Asd := (s.asds.find? fun a => a.asid == asid).getD (Asd.reset asid)

def State.kernel? (s : State) (asid : BitVec 16) (kid : BitVec 32) : Option Kernel :=
  s.kernels.find? fun k => k.kid == kid && k.asid == asid

def kkey (asid : BitVec 16) (kid : BitVec 32) : KKey := asid ++ kid
def Task.kkey (t : Task) : KKey := Machine.kkey t.asid t.kernel
def Kernel.key (k : Kernel) : KKey := kkey k.asid k.kid

/-- A kernel of width 16 with 8 registers and no memory: what stands for a kernel id that is not registered. -/
def Kernel.none : Kernel := { kid := 0, asid := 0, cbase := 0, w := 16, n := 8, priv := 0, scr := 0, entry := 0 }

def State.kernelOf (s : State) (t : Task) : Kernel := (s.kernel? t.asid t.kernel).getD Kernel.none

def Task.core (t : Task) : Nat := match t.place with | .placed c _ => c | _ => 0
def Task.slot (t : Task) : Nat := match t.place with | .placed _ k => k | _ => 0
def Task.isPlaced (t : Task) : Bool := match t.place with | .placed _ _ => true | _ => false
def Task.isRetired (t : Task) : Bool := match t.place with | .retired => true | _ => false
def dieOf (core : Nat) : Nat := core / Config.coresPerDie
def Task.die (t : Task) : Nat := dieOf t.core

/-- Bank numbers of a core in a mode that a kernel owns, ascending (R188). -/
def Core.banksOf (c : Core) (k : KKey) (m : BankMode) : List Nat :=
  (List.range 16).filter fun i => match c.banks[i]? with | some b => b.mode == m && b.owner == some k | none => false

/-- Numbers of the CACHE banks, whichever kernel owns them: the ways of L1 (R182). -/
def Core.ways (c : Core) : List Nat :=
  (List.range 16).filter fun i => match c.banks[i]? with | some b => b.mode == .cache | none => false

def Core.scratchOf (c : Core) (k : KKey) : Store 8 := ((c.scratch.find? fun e => e.1 == k).map (·.2)).getD []

def Core.setScratch (c : Core) (k : KKey) (m : Store 8) : Core :=
  if c.scratch.any (fun e => e.1 == k) then { c with scratch := c.scratch.map fun e => if e.1 = k then (k, m) else e }
  else { c with scratch := c.scratch ++ [(k, m)] }

def Core.gen (c : Core) (i : Nat) : GCtx := c.gens.getD i GCtx.reset
def Core.cv (c : Core) (i : Nat) : Cv := c.cvs.getD i Cv.reset
def Core.tile (c : Core) (i : Nat) : Store 40 := c.tiles.getD i []

def State.vf (s : State) (v : Nat) : Vf := s.vfs.getD v Vf.reset

def State.updVf (s : State) (v : Nat) (f : Vf → Vf) : State := { s with vfs := listUpd s.vfs v f }

def State.queue (s : State) (v q : Nat) : Queue := s.queues.getD (16 * v + q) Queue.reset

def State.updQueue (s : State) (v q : Nat) (f : Queue → Queue) : State := { s with queues := listUpd s.queues (16 * v + q) f }

/-- Raise per-VF counter i, saturating at 64 bits (R376): 0 SEALDENY, 1 MEMCE, 2 MEMUE, 3 BKPT, 4 XDROP, 5 ENGERR. -/
def State.count (s : State) (v i : Nat) : State :=
  s.updVf v fun f => { f with counters := listUpd f.counters i fun x => if x = BitVec.allOnes 64 then x else x + 1 }

def State.launch? (s : State) (id : Nat) : Option Launch := s.launches.find? fun l => l.id == id

def State.updLaunch (s : State) (id : Nat) (f : Launch → Launch) : State :=
  { s with launches := s.launches.map fun l => if l.id = id then f l else l }

/-! ### Lanes of a task -/

def Lane.start (pc : BitVec 32) : Lane :=
  { pc := pc, link := 0, depth := 0, meetValid := false, meetDepth := 0, meetAddr := 0, exited := false, park := .none, tok := [] }

def Task.lane (t : Task) (l : Nat) : Lane := t.lanes.getD l (Lane.start 0)

/-- Change the lanes of a mask. -/
def Task.onLanes (t : Task) (m : Mask) (f : Nat → Lane → Lane) : Task :=
  { t with lanes := t.lanes.mapIdx fun l x => if m.getLsbD l then f l x else x }

def Task.laneMask (t : Task) (p : Lane → Bool) : Mask := maskWhere t.lanes.length fun l => p (t.lane l)

/-- Lanes that have not exited. -/
def Task.unexited (t : Task) : Mask := t.laneMask fun x => !x.exited

/-- Eligible lanes (R69). -/
def Task.eligible (t : Task) : Mask := (t.laneMask fun x => !x.exited && x.park == .none) &&& ~~~t.dset

/-- Predicate p of every lane: p0 always reads true (R14). -/
def Task.pred (t : Task) (p : Fin 8) : Mask := if p = 0 then BitVec.allOnes 64 else t.preds.get p.val

/-- Write predicate p of the lanes of m: writes to p0 are discarded (R33). -/
def Task.setPred (t : Task) (p : Fin 8) (m v : Mask) : Task :=
  if p = 0 then t else { t with preds := t.preds.set p.val ((t.pred p &&& ~~~m) ||| (v &&& m)) }

/-- Guard-true lanes of a group (R28, R45). -/
def Task.guarded (t : Task) (g : Guard) (group : Mask) : Mask := group &&& (if g.neg then ~~~t.pred g.p else t.pred g.p)

/-- An s register: s63 reads as zero (R33). -/
def Task.sreg (t : Task) (r : Fin 64) : BitVec 64 := if r = 63 then 0 else t.sregs.get r.val

/-- Write an s register: writes to s63 are discarded (R33). -/
def Task.setS (t : Task) (r : Fin 64) (x : BitVec 64) : Task := if r = 63 then t else { t with sregs := t.sregs.set r.val x }

/-- Key of v register r of lane l. -/
def vkey (r l : Nat) : Nat := 64 * r + l

/-- Key of s register r, behind those of the v registers. -/
def skey (r : Nat) : Nat := 12288 + r

def Task.vreg (t : Task) (r l : Nat) : BitVec 32 := t.vregs.get (vkey r l)

def Task.setV (t : Task) (r l : Nat) (x : BitVec 32) : Task := { t with vregs := t.vregs.set (vkey r l) x }

/-- A 64-bit v pair: the low half in the even register (R33). -/
def Task.setV64 (t : Task) (r l : Nat) (x : BitVec 64) : Task :=
  (t.setV r l (x.setWidth 32)).setV (r + 1) l ((x >>> 32).setWidth 32)

def State.addClock (s : State) (n : Nat) : State := { s with clock := s.clock + BitVec.ofNat 64 n }

end Sys2Proof.Machine
end

