-- ==== Sys2Proof/Machine/Generator.lean ====
section
/-! DEFINITION. The index generator: pattern programs, their terms, block enumeration, the steps it gives the matrix engine, and
the image of a context (spec/17_patterns.md R334-R346). -/

namespace Sys2Proof.Machine

/-- A term of a pattern program; the centre's ratio is kept with the terms that use it (R334, R335). -/
inductive Term where
  | band (num den : Nat) (lo hi : Int)
  | dil (num den step count : Nat) (off : Int)
  | bdiag (num den size : Nat)
  | stride (s phase : Nat)
  | hash (num den seed t win : Nat)
  | kron (outer inner : Term) (ik inn : Nat)
  | union (a b : Term)
  | isect (a b : Term)
  | clip (a : Term) (nbc : Nat)
  deriving DecidableEq, Repr

/-- A term at one block row: exact membership, and a range outside of which it repeats with a period (0: nothing outside). -/
structure RowSet where
  mem : Int → Bool
  lo : Int
  hi : Int
  per : Nat

/-- R337: the hash, in 32-bit wrapping arithmetic. -/
def patHash (kb nb : Int) (seed : Nat) : Nat :=
  let w (x : Nat) := x % 2 ^ 32
  let x := w (wrap 32 kb * 0x9E3779B1) ^^^ w (wrap 32 nb * 0x85EBCA77) ^^^ seed
  let x := x ^^^ (x >>> 15)
  let x := w (x * 0x2C1B3C6D)
  x ^^^ (x >>> 12)

/-- The centre function (R334): floor division. -/
def centre (num den : Nat) (kb : Int) : Int := kb * num / den

def Term.row : Term → Int → RowSet
  | .band n d lo hi, kb =>
    let c := centre n d kb
    { mem := fun x => c + lo ≤ x && x ≤ c + hi, lo := c + lo, hi := c + hi, per := 0 }
  | .dil n d st ct off, kb =>
    let a := centre n d kb + off
    { mem := fun x => (x - a) % st = 0 && 0 ≤ x - a && x - a < (st * ct : Nat), lo := a, hi := a + (st * ct : Nat), per := 0 }
  | .bdiag n d size, kb =>
    let a := size * (centre n d kb / size)
    { mem := fun x => a ≤ x && x < a + size, lo := a, hi := a + size - 1, per := 0 }
  | .stride s ph, _ => { mem := fun x => x % s = ph, lo := 0, hi := -1, per := s }
  | .hash n d seed t win, kb =>
    let c := centre n d kb
    { mem := fun x => c - win ≤ x && x ≤ c + win && patHash kb x seed / 65536 < 32 * t, lo := c - win, hi := c + win, per := 0 }
  | .kron o i ik inn, kb =>
    let ro := o.row (kb / ik)
    let ri := i.row (kb % ik)
    { mem := fun x => ro.mem (x / inn) && ri.mem (x % inn), lo := ro.lo * inn, hi := ro.hi * inn + inn - 1, per := ro.per * inn }
  | .union a b, kb =>
    let ra := a.row kb
    let rb := b.row kb
    { mem := fun x => ra.mem x || rb.mem x, lo := min ra.lo rb.lo, hi := max ra.hi rb.hi
      per := if ra.per = 0 then rb.per else if rb.per = 0 then ra.per else Nat.lcm ra.per rb.per }
  | .isect a b, kb =>
    let ra := a.row kb
    let rb := b.row kb
    { mem := fun x => ra.mem x && rb.mem x, lo := min ra.lo rb.lo, hi := max ra.hi rb.hi
      per := if ra.per = 0 || rb.per = 0 then 0 else Nat.lcm ra.per rb.per }
  | .clip a nbc, kb =>
    let ra := a.row kb
    { mem := fun x => 0 ≤ x && x < nbc && ra.mem x, lo := 0, hi := nbc - 1, per := 0 }

/-- R336: the columns of block row kb, ascending. -/
def Term.cols (t : Term) (nbc kb : Nat) : List Nat :=
  let r := t.row kb
  let inside := (List.range (r.hi + 1 - r.lo).toNat).filterMap fun (i : Nat) =>
    if r.mem (r.lo + i) then some ((r.lo + i) % nbc).toNat else none
  let g := Nat.gcd r.per nbc
  let rep := if r.per = 0 then [] else (List.range r.per).filterMap fun (i : Nat) =>
    if r.mem (r.hi + 1 + i) then some ((r.hi + 1 + i) % g).toNat else none
  (List.range nbc).filter fun c => inside.contains c || rep.contains (c % g)

/-! ### Programs (R334, R335, R346) -/

/-- A well-formed program: its size and its final term, and the index of the first PHASH word too wide to invert (R339). -/
structure Program where
  kbc : Nat
  nbc : Nat
  term : Term
  wide : Option Nat
  deriving DecidableEq, Repr

/-- Whether the operands of a word are in range and its zero fields zero (R335). -/
def wordOk (w : Nat) : Bool :=
  let v := bits w 0 27
  match bits w 27 5 with
  | 0x01 => bits v 12 15 ≠ 0 && bits v 0 12 ≠ 0
  | 0x02 => bits v 0 13 ≠ 0
  | 0x03 => sext 13 (bits v 14 13) ≤ sext 13 (bits v 1 13) && bits v 0 1 = 0
  | 0x04 => bits v 18 9 ≠ 0 && bits v 10 8 ≠ 0
  | 0x05 => bits v 16 11 = 0 && bits v 0 16 ≠ 0
  | 0x06 => bits v 14 13 ≠ 0 && bits v 0 14 < bits v 14 13
  | 0x07 => true
  | 0x08 => bits v 14 13 ≠ 0 && bits v 0 14 ≠ 0
  | _ => v = 0

/-- Push the term of a word onto the stack (R335). -/
def pushTerm (w num den nbc : Nat) (st : List Term) : Option (List Term) :=
  let v := bits w 0 27
  match bits w 27 5, st with
  | 0x03, st => some (.band num den (sext 13 (bits v 14 13)) (sext 13 (bits v 1 13)) :: st)
  | 0x04, st => some (.dil num den (bits v 18 9) (bits v 10 8) (sext 10 (bits v 0 10)) :: st)
  | 0x05, st => some (.bdiag num den (bits v 0 16) :: st)
  | 0x06, st => some (.stride (bits v 14 13) (bits v 0 14) :: st)
  | 0x07, st => some (.hash num den (bits v 19 8) (bits v 8 11) (bits v 0 8) :: st)
  | 0x08, i :: o :: st => some (.kron o i (bits v 14 13) (bits v 0 14) :: st)
  | 0x09, b :: a :: st => some (.union a b :: st)
  | 0x0A, b :: a :: st => some (.isect a b :: st)
  | 0x0B, a :: st => some (.clip a nbc :: st)
  | _, _ => none

/-- Read the words from index i on; an error is (reason, word index) of R346. -/
def parseFrom (kbc nbc : Nat) : List (BitVec 32) → (i num den : Nat) → List Term → Option Nat → Except (Nat × Nat) Program
  | [], _, _, _, _, _ => .error (5, 0xFF)
  | w :: ws, i, num, den, st, wide =>
    let c := bits w.toNat 27 5
    if 0x0C ≤ c then .error (1, i)
    else if c = 1 then .error (3, i)
    else if !wordOk w.toNat then .error (2, i)
    else if c = 0 then
      match st with
      | [t] => .ok { kbc := kbc, nbc := nbc, term := t, wide := wide }
      | _ => .error (4, i)
    else if c = 2 then parseFrom kbc nbc ws (i + 1) (bits w.toNat 13 14) (bits w.toNat 0 13) st wide
    else match pushTerm w.toNat num den nbc st with
      | none => .error (4, i)
      | some st' =>
        if 4 < st'.length then .error (4, i)
        else parseFrom kbc nbc ws (i + 1) num den st'
          (if c = 7 && 64 < bits w.toNat 0 8 then wide.orElse (fun _ => some i) else wide)

def parseProgram : List (BitVec 32) → Except (Nat × Nat) Program
  | [] => .error (5, 0xFF)
  | w :: ws =>
    let c := bits w.toNat 27 5
    if 0x0C ≤ c then .error (1, 0)
    else if c ≠ 1 then .error (3, 0)
    else if !wordOk w.toNat then .error (2, 0)
    else parseFrom (bits w.toNat 12 15) (bits w.toNat 0 12) ws 1 1 1 [] none

/-! ### Enumeration (R338, R340) -/

/-- A block with its forward rank and the forward rank of the first block of its row (forward) or column (transposed). -/
structure Blk where
  kb : Nat
  nb : Nat
  rank : Nat
  first : Nat
  deriving DecidableEq, Repr

def fwdRows (t : Term) (nbc : Nat) : List Nat → Nat → List Blk
  | [], _ => []
  | kb :: r, off =>
    let cs := t.cols nbc kb
    (cs.zipIdx.map fun c => { kb := kb, nb := c.1, rank := off + c.2, first := off }) ++ fwdRows t nbc r (off + cs.length)

/-- All blocks in forward order. -/
def Program.forward (p : Program) : List Blk := fwdRows p.term p.nbc (List.range p.kbc) 0

/-- All blocks in transposed order. -/
def Program.transposed (p : Program) : List Blk :=
  let all := p.forward
  (List.range p.nbc).flatMap fun nb =>
    let col := all.filter fun b => b.nb == nb
    let f := match col with | [] => 0 | b :: _ => b.rank
    col.map fun b => { b with first := f }

def Program.blocks (p : Program) (trans : Bool) : List Blk := if trans then p.transposed else p.forward

def Blk.outer (b : Blk) (trans : Bool) : Nat := if trans then b.nb else b.kb
def Blk.inner (b : Blk) (trans : Bool) : Nat := if trans then b.kb else b.nb

/-! ### Contexts (R344, R345) -/

def GCtx.isEmpty (g : GCtx) : Bool := g.state = 0
def GCtx.program (g : GCtx) : Except (Nat × Nat) Program := parseProgram g.words

/-- A cursor at the start of an enumeration. -/
def GCtx.restart (g : GCtx) : GCtx :=
  { g with outer := 0, inner := 0, rowoff := 0, count := 0, state := 1, trans := false, tile := 0 }

/-- The 96-byte image of a context (R345). -/
def GCtx.image (g : GCtx) : List (BitVec 8) :=
  (g.words.flatMap fun w => bytesLE 4 w.toNat) ++ bytesLE 32
    (g.outer.toNat + g.inner.toNat * 2 ^ 32 + g.rowoff.toNat * 2 ^ 64 + g.count.toNat * 2 ^ 96 + g.state.toNat * 2 ^ 120 +
      (if g.trans then 2 ^ 122 else 0) + g.tile.toNat * 2 ^ 128)

def wordsOf (w : Nat) : List (BitVec 32) := (List.range 16).map fun i => BitVec.ofNat 32 (w >>> (32 * i))

/-- A context from its image; none where the cursor is invalid (R350). -/
def GCtx.ofImage (task : Nat) (w : Nat) (p : Program) : Option GCtx :=
  let c := bits w 512 256
  let trans := bit c 122
  let zeros := bits c 88 8 = 0 && bits c 123 5 = 0 && bits c 144 112 = 0
  let outer := bits c 0 32
  if bits c 120 2 = 0 || !zeros || (if trans then p.nbc else p.kbc) < outer then none
  else some
    { owner := some task, busy := false, words := wordsOf w, outer := BitVec.ofNat 32 outer, inner := BitVec.ofNat 32 (bits c 32 32)
      rowoff := BitVec.ofNat 24 (bits c 64 24), count := BitVec.ofNat 24 (bits c 96 24), state := BitVec.ofNat 2 (bits c 120 2)
      trans := trans, tile := BitVec.ofNat 16 (bits c 128 16) }

/-- The blocks still to deliver, with ranks counted from the values the cursor holds: ROWOFF is the rank of the first block of the current
row; at the start of an enumeration, which is no row's yet, it is added to every rank (R340, R350). -/
def GCtx.remaining (g : GCtx) (p : Program) : List Blk :=
  if g.state = 3 then []
  else
    let rest := (p.blocks g.trans).dropWhile fun b =>
      b.outer g.trans < g.outer.toNat || (b.outer g.trans = g.outer.toNat && b.inner g.trans < g.inner.toNat)
    let row := (p.blocks g.trans).find? fun b => b.outer g.trans = g.outer.toNat
    let bias : Int := if g.state = 1 && g.outer = 0 then g.rowoff.toNat
      else match row.orElse fun _ => rest.head? with | none => 0 | some b => (g.rowoff.toNat : Int) - b.first
    rest.map fun b => { b with rank := wrap 32 (b.rank + bias), first := wrap 32 (b.first + bias) }

/-- Whether a block cannot be delivered (R340). -/
def undeliverable (count : Nat) (b : Blk) : Bool := 2 ^ 24 ≤ b.rank || 2 ^ 24 - 1 ≤ count

/-- DETAIL of fault 0x0F (R346). -/
def detail0F (b : Blk) : BitVec 128 := BitVec.ofNat 128 (packBytes [(0, b.kb), (4, b.nb), (8, b.rank % 2 ^ 32)])

/-- The cursor once n blocks have been delivered: it names the next block; where ROWOFF cannot hold the rank of that block's row, it
stays behind the last block delivered (R340, R345, log 27). Where none has been, STATE alone changes (R349). -/
def GCtx.deliver (g : GCtx) (p : Program) (n : Nat) : GCtx :=
  if n = 0 then { g with state := if (g.remaining p).isEmpty then 3 else 2 } else
  let g1 := { g with count := g.count + BitVec.ofNat 24 n }
  let last := ((g.remaining p).take n).getLast?
  match (g.remaining p).drop n with
  | b :: _ =>
    if b.first < 2 ^ 24 then
      { g1 with outer := BitVec.ofNat 32 (b.outer g.trans), inner := BitVec.ofNat 32 (b.inner g.trans)
                rowoff := BitVec.ofNat 24 b.first, state := 2 }
    else match last with
      | some a =>
        { g1 with outer := BitVec.ofNat 32 (a.outer g.trans), inner := BitVec.ofNat 32 (a.inner g.trans + 1)
                  rowoff := BitVec.ofNat 24 a.first, state := 2 }
      | none => { g1 with state := 2 }
  | [] =>
    { g1 with outer := BitVec.ofNat 32 (if g.trans then p.nbc else p.kbc), inner := 0, state := 3
              rowoff := match (g.remaining p).getLast? with | some b => BitVec.ofNat 24 b.first | none => g.rowoff }

/-- A block record (R349). -/
def Blk.record (b : Blk) : Nat := b.rank % 2 ^ 24 * 2 ^ 32 + b.nb % 2 ^ 16 * 2 ^ 16 + b.kb % 2 ^ 16

/-! ### Steps for the matrix engine (R341) -/

/-- A step: row block, output tile column, operation block row, the blocks (operation block column and rank), COUNT before it. -/
structure PStep where
  mi : Nat
  nj : Nat
  kb : Nat
  blocks : List (Nat × Nat)
  count : Nat
  deriving DecidableEq, Repr

def countSteps : List PStep → Nat → List PStep
  | [], _ => []
  | s :: r, n => { s with count := n } :: countSteps r (n + s.blocks.length)

/-- The steps of a pattern operation; COUNT starts again for each row block (R341, R342). -/
def Program.steps (p : Program) (trans : Bool) (mt nt : Nat) : List PStep :=
  let bs : List (Nat × Nat × Nat) := (p.blocks trans).map fun b => if trans then (b.nb, b.kb, b.rank) else (b.kb, b.nb, b.rank)
  let kbs := if trans then p.nbc else p.kbc
  (List.range mt).flatMap fun mi =>
    countSteps ((List.range nt).flatMap fun nj => (List.range kbs).filterMap fun kb =>
      match bs.filter fun b => b.1 == kb && b.2.1 / 8 == nj with
      | [] => none
      | l => some { mi := mi, nj := nj, kb := kb, blocks := l.map fun b => b.2, count := 0 }) 0

/-- The first block of a step that cannot be delivered, as fault 0x0F names it. -/
def PStep.bad (st : PStep) (trans : Bool) : Option Blk :=
  match st.blocks.zipIdx.find? fun b => 2 ^ 24 ≤ b.1.2 || 2 ^ 24 - 1 ≤ st.count + b.2 with
  | none => none
  | some b => some (if trans then { kb := b.1.1, nb := st.kb, rank := b.1.2, first := 0 }
      else { kb := st.kb, nb := b.1.1, rank := b.1.2, first := 0 })

end Sys2Proof.Machine
end

