-- ==== Sys2Proof/Machine/Flags.lean ====
section
/-! DEFINITION. Number formats, rounding, conversions and the flags they raise (spec/03_numbers.md R46-R65). Values are exact:
sign, integer significand, power of two. -/

namespace Sys2Proof.Machine

/-- A set of flags in the order of FPCTL[8:4]: NV, DZ, OF, UF, NX (R63). -/
abbrev FFlags := BitVec 5

def fNV : FFlags := 1
def fDZ : FFlags := 2
def fOF : FFlags := 4
def fUF : FFlags := 8
def fNX : FFlags := 16

/-- A floating format: exponent bits, fraction bits, bias; e4m3 has no infinity and one NaN pattern (R47-R49). -/
structure Fmt where
  eb : Nat
  fb : Nat
  bias : Nat
  noInf : Bool
  deriving DecidableEq, Repr

def Fmt.f32 : Fmt := ⟨8, 23, 127, false⟩
def Fmt.f16 : Fmt := ⟨5, 10, 15, false⟩
def Fmt.bf16 : Fmt := ⟨8, 7, 127, false⟩
def Fmt.e4m3 : Fmt := ⟨4, 3, 7, true⟩
def Fmt.e5m2 : Fmt := ⟨5, 2, 15, false⟩
def Fmt.a40 : Fmt := ⟨8, 31, 127, false⟩

def Fmt.emin (f : Fmt) : Int := 1 - (f.bias : Int)
def Fmt.signBit (f : Fmt) : Nat := 2 ^ (f.eb + f.fb)
def Fmt.infCode (f : Fmt) : Nat := (2 ^ f.eb - 1) * 2 ^ f.fb
/-- The largest finite magnitude's code. -/
def Fmt.maxCode (f : Fmt) : Nat := if f.noInf then f.infCode + 2 ^ f.fb - 2 else f.infCode - 1
/-- The canonical NaN (the table of floating formats). -/
def Fmt.nanCode (f : Fmt) : Nat := if f.noInf then f.infCode + 2 ^ f.fb - 1 else f.infCode + 2 ^ (f.fb - 1)

/-- A decoded value: NaN (signalling or quiet), infinity, or (-1)^neg × m × 2^e. -/
inductive FVal where
  | nan (sig : Bool)
  | inf (neg : Bool)
  | fin (neg : Bool) (m : Nat) (e : Int)
  deriving DecidableEq, Repr

/-- R47-R49: the value of a code. -/
def Fmt.decode (f : Fmt) (c : Nat) : FVal :=
  let neg := c.testBit (f.eb + f.fb)
  let ex := bits c f.fb f.eb
  let fr := bits c 0 f.fb
  if ex = 2 ^ f.eb - 1 && !f.noInf then
    if fr = 0 then .inf neg else .nan (!fr.testBit (f.fb - 1))
  else if f.noInf && ex = 2 ^ f.eb - 1 && fr = 2 ^ f.fb - 1 then .nan false
  else if ex = 0 then .fin neg fr (f.emin - f.fb)
  else .fin neg (2 ^ f.fb + fr) ((ex : Int) - f.bias - f.fb)

def FVal.isNan : FVal → Bool
  | .nan _ => true
  | _ => false

def FVal.isSig : FVal → Bool
  | .nan b => b
  | _ => false

def FVal.isZero : FVal → Bool
  | .fin _ m _ => m == 0
  | _ => false

def FVal.neg : FVal → Bool
  | .nan _ => false
  | .inf n => n
  | .fin n _ _ => n

def FVal.negate : FVal → FVal
  | .nan b => .nan b
  | .inf n => .inf (!n)
  | .fin n m e => .fin (!n) m e

/-- Number of bits of m. -/
def bitLen (m : Nat) : Nat := if m = 0 then 0 else Nat.log2 m + 1

def signed (neg : Bool) (m : Nat) : Int := if neg then -(m : Int) else (m : Int)

/-- What an overflow gives (R57). -/
def Fmt.overflow (f : Fmt) (mode : RMode) (sat neg : Bool) : Nat :=
  let toInf := !sat && !f.noInf && (match mode with
    | .rne => true | .rtz => false | .rdn => neg | .rup => !neg | .rod => false)
  (if neg then f.signBit else 0) + (if toInf then f.infCode else f.maxCode)

/-- Round t with discarded part r of d bits (and a sticky bit below) under a mode (R56). -/
def roundT (mode : RMode) (neg : Bool) (t r d : Nat) (sticky : Bool) : Nat × Bool :=
  let inexact := r != 0 || sticky
  let half := 2 ^ (d - 1)
  let t' := match mode with
    | .rne => if d ≠ 0 && (r > half || (r = half && (sticky || t % 2 = 1))) then t + 1 else t
    | .rtz => t
    | .rdn => if inexact && neg then t + 1 else t
    | .rup => if inexact && !neg then t + 1 else t
    | .rod => if inexact && t % 2 = 0 then t + 1 else t
  (t', inexact)

/-- Round the exact magnitude m × 2^e (plus something below it when sticky) into a format (R56-R58). A zero m gives ±0. -/
def Fmt.round (f : Fmt) (mode : RMode) (sat neg : Bool) (m : Nat) (e : Int) (sticky : Bool := false) : Nat × FFlags :=
  let sb := if neg then f.signBit else 0
  if m = 0 && !sticky then (sb, 0)
  else
    let top := e + (bitLen m : Int) - 1
    let q := max top f.emin - f.fb
    let (t, r, d) := if q ≤ e then (m <<< (e - q).toNat, 0, 0)
      else (m >>> (q - e).toNat, m % 2 ^ (q - e).toNat, (q - e).toNat)
    let (t', inexact) := roundT mode neg t r d sticky
    let (t'', q') := if 2 ^ (f.fb + 1) ≤ t' then (t' / 2, q + 1) else (t', q)
    let tiny := top < f.emin
    let code := if t'' < 2 ^ f.fb then t'' else ((q' + f.fb + f.bias).toNat) * 2 ^ f.fb + (t'' - 2 ^ f.fb)
    if f.maxCode < code then (f.overflow mode sat neg, fOF ||| fNX)
    else (sb + code, (if inexact then fNX else 0) ||| (if inexact && tiny then fUF else 0))

/-- A value into a format: NaN becomes the canonical NaN; an infinity becomes the target's, or the largest finite value with
overflow and inexact where the target has none (R57, R59). A signalling NaN sets invalid. -/
def Fmt.ofVal (f : Fmt) (mode : RMode) (sat : Bool) : FVal → Nat × FFlags
  | .nan sig => (f.nanCode, if sig then fNV else 0)
  | .inf neg => if f.noInf then ((if neg then f.signBit else 0) + f.maxCode, fOF ||| fNX)
      else ((if neg then f.signBit else 0) + f.infCode, 0)
  | .fin neg m e => f.round mode sat neg m e

/-- The exact product; 0 × ∞ is invalid (R59, R143). -/
def FVal.mul : FVal → FVal → FVal × FFlags
  | .nan a, .nan b => (.nan false, if a || b then fNV else 0)
  | .nan a, _ => (.nan false, if a then fNV else 0)
  | _, .nan b => (.nan false, if b then fNV else 0)
  | .inf a, .inf b => (.inf (a != b), 0)
  | .inf a, .fin b m _ => if m = 0 then (.nan false, fNV) else (.inf (a != b), 0)
  | .fin a m _, .inf b => if m = 0 then (.nan false, fNV) else (.inf (a != b), 0)
  | .fin a m e, .fin b m' e' => (.fin (a != b) (m * m') (e + e'), 0)

/-- Exact sum of finite terms as an integer times 2^e. -/
def sumFin : List FVal → Int × Int
  | [] => (0, 0)
  | .fin n m e :: r =>
    let (x, ex) := sumFin r
    if m = 0 then (x, ex)
    else if x = 0 then (signed n m, e)
    else if e ≤ ex then (signed n m + x * 2 ^ (ex - e).toNat, e)
    else (signed n m * 2 ^ (e - ex).toNat + x, ex)
  | _ :: r => sumFin r

/-- The exact sum of terms: NaN and ∞ − ∞ as R59, an exact zero with the sign of R56. Infinities of both signs are invalid beside a quiet
NaN too (R141; of FDOT2 DEDUCED, log 84). -/
def sumVal (mode : RMode) (ts : List FVal) : FVal × FFlags :=
  let hasInf (n : Bool) := ts.any fun t => match t with | .inf b => b == n | _ => false
  let clash := hasInf true && hasInf false
  if ts.any FVal.isNan then (.nan false, if ts.any FVal.isSig || clash then fNV else 0)
  else
    if clash then (.nan false, fNV)
    else if hasInf true then (.inf true, 0)
    else if hasInf false then (.inf false, 0)
    else
      let (x, e) := sumFin ts
      if x = 0 then
        if ts.all FVal.neg then (.fin true 0 0, 0)
        else if ts.all (fun t => !t.neg) then (.fin false 0 0, 0)
        else (.fin (mode == .rdn) 0 0, 0)
      else (.fin (x < 0) x.natAbs e, 0)

/-- R58: read a subnormal as zero of the same sign under FTZ. -/
def ftzIn (ftz : Bool) (f : Fmt) (c : Nat) : Nat :=
  if ftz && bits c f.fb f.eb = 0 then (if c.testBit (f.eb + f.fb) then f.signBit else 0) else c

/-- R58: replace a subnormal result by zero of the same sign under FTZ, with underflow and inexact. -/
def ftzOut (ftz : Bool) (f : Fmt) (r : Nat × FFlags) : Nat × FFlags :=
  if ftz && bits r.1 f.fb f.eb = 0 && bits r.1 0 f.fb ≠ 0 then
    (if r.1.testBit (f.eb + f.fb) then f.signBit else 0, r.2 ||| fUF ||| fNX) else r

/-- The floating format of a type; none for l6 and the integer types. -/
def fmtOf : Ty → Option Fmt
  | .f32 => some .f32 | .f16 => some .f16 | .bf16 => some .bf16 | .e4m3 => some .e4m3 | .e5m2 => some .e5m2
  | _ => none

/-- A rounded sum of terms in a format. -/
def sumRound (f : Fmt) (mode : RMode) (ts : List FVal) (fl : FFlags) : Nat × FFlags :=
  let (v, fl') := sumVal mode ts
  let (c, fl'') := f.ofVal mode false v
  (c, fl ||| fl' ||| fl'')

/-! ### L6 (R52-R55) -/

def l6T (i : Nat) : Nat := match i with | 0 => 0x800 | 1 => 0x983 | 2 => 0xB50 | _ => 0xD74

/-- T[k mod 4] × 2^(floor(k/4) − 11) for an integer k. -/
def l6Mag (k : Int) : Nat × Int := (l6T (k % 4).toNat, k / 4 - 11)

/-- R53; 0x20 is NaR, 0x00 zero; bits above 5 are ignored. -/
def l6Val (c : Nat) : FVal :=
  let m := bits c 0 5
  let s := c.testBit 5
  if m = 0 then (if s then .nan false else .fin false 0 0)
  else .fin s (l6Mag ((m : Int) - 16)).1 (l6Mag ((m : Int) - 16)).2

/-- R54: the exact product of two codes. -/
def l6Mul (a b : Nat) : FVal :=
  let ma := bits a 0 5
  let mb := bits b 0 5
  let nar := (ma = 0 && a.testBit 5) || (mb = 0 && b.testBit 5)
  if nar then .nan false
  else if ma = 0 || mb = 0 then .fin false 0 0
  else
    let k : Int := (ma : Int) + mb - 32
    .fin (a.testBit 5 != b.testBit 5) (l6Mag k).1 (l6Mag k).2

/-- Significands of the midpoints μ1 to μ4 (R55), as 24-bit integers. -/
def l6Mid : List Nat := [0x8B95C2, 0xA5FED7, 0xC5672A, 0xEAC0C7]

/-- R55: conversion into L6, from the exact value. -/
def toL6 : FVal → Nat × FFlags
  | .nan sig => (0x20, if sig then fNV else 0)
  | .inf neg => ((if neg then 0x20 else 0) + 31, fOF ||| fNX)
  | .fin neg m e =>
    if m = 0 then (0, 0)
    else
      let len := bitLen m
      let ex : Int := e + len - 1
      let g := m * 2 ^ 23
      let scaled (mu : Nat) := mu * 2 ^ (len - 1)
      let q0 := (l6Mid.filter fun mu => scaled mu < g).length
      let q := if l6Mid.any (fun mu => scaled mu = g) then
          (if g = scaled 0x8B95C2 then 0 else if g = scaled 0xEAC0C7 then 4 else 2) else q0
      let mm : Int := 16 + 4 * ex + q
      if 32 ≤ mm then ((if neg then 0x20 else 0) + 31, fOF ||| fNX)
      else if mm ≤ 0 then (0, fUF ||| fNX)
      else
        let (tm, te) := l6Mag (mm - 16)
        let exact := if te ≤ e then tm = m * 2 ^ (e - te).toNat else tm * 2 ^ (te - e).toNat = m
        ((if neg then 0x20 else 0) + mm.toNat, if exact then 0 else fNX)

/-! ### Conversions (R60-R62) -/

/-- Round to an integer under a mode (R62); the flag says the value changed. -/
def toIntMag (mode : RMode) (neg : Bool) (m : Nat) (e : Int) : Nat × Bool :=
  if 0 ≤ e then (m * 2 ^ e.toNat, false)
  else
    let d := (-e).toNat
    roundT mode neg (m / 2 ^ d) (m % 2 ^ d) d false

def clampTo (r : Int × Int) (x : Int) : Int := if x < r.1 then r.1 else if r.2 < x then r.2 else x

/-- R62: float to integer, saturating; NaN gives 0. -/
def toInt (mode : RMode) (t : Ty) : FVal → Nat × FFlags
  | .nan _ => (0, fNV)
  | .inf neg => (wrap t.elem.1 (if neg then t.range.1 else t.range.2), fNV)
  | .fin neg m e =>
    let (x, inexact) := toIntMag mode neg m e
    let y := signed neg x
    let c := clampTo t.range y
    if c = y then (wrap t.elem.1 y, if inexact then fNX else 0) else (wrap t.elem.1 c, fNV)

/-- The value of an element of a floating type or l6. -/
def tyVal (t : Ty) (c : Nat) : FVal :=
  match fmtOf t with
  | some f => f.decode c
  | none => l6Val c

/-- One element converted from type src to type dst (R146): ftz is FPCTL.FTZ where it acts, else false. A conversion into l6 follows R55
alone, which ignores FPCTL, so its source keeps its subnormals (R61; DEDUCED, log 83). An e5m2 subnormal into f16 under FTZ, exact by R60,
is flushed as R58 says of every subnormal result (DEDUCED, log 113). -/
def convert (ftz : Bool) (mode : RMode) (sat : Bool) (src dst : Ty) (x : Nat) : Nat × FFlags :=
  if src.isInt then
    let v := src.toI x
    if dst.isInt then (wrap dst.elem.1 (if sat then clampTo dst.range v else v), 0)
    else match fmtOf dst with
      | some f => ftzOut (ftz && dst.ftz) f (f.round mode sat (v < 0) v.natAbs 0)
      | none => toL6 (.fin (v < 0) v.natAbs 0)
  else
    let x' := match fmtOf src with | some f => ftzIn (ftz && src.ftz && dst ≠ .l6) f x | none => x
    let v := tyVal src x'
    if dst.isInt then toInt mode dst v
    else match fmtOf dst with
      | some f => ftzOut (ftz && dst.ftz) f (f.ofVal mode sat v)
      | none => toL6 v

/-! ### A40 (R47, R51, R315): round to odd, no flags -/

def a40Val (x : A40) : FVal := Fmt.a40.decode x.toNat

/-- RoundToOdd of an exact value into A40 with the IEEE overflow treatment (R57 gives ±max). -/
def a40Odd (v : FVal) : A40 := BitVec.ofNat 40 (Fmt.a40.ofVal .rod false v).1

def a40Add (x y : A40) : A40 := a40Odd (sumVal .rod [a40Val x, a40Val y]).1

/-- The exact sum of two values rounded to odd into A40: an inner node of the sum tree (R315). -/
def a40Node (x y : FVal) : A40 := a40Odd (sumVal .rod [x, y]).1

/-- Multiply a value by 2^k exactly. -/
def FVal.scale (k : Int) : FVal → FVal
  | .fin n m e => .fin n m (e + k)
  | v => v

/-! ### Division and square root (R160, R162) -/

/-- x / y rounded once (R162). -/
def divRound (f : Fmt) (mode : RMode) (x y : FVal) : Nat × FFlags :=
  let sig := if x.isSig || y.isSig then fNV else 0
  if x.isNan || y.isNan then (f.nanCode, sig)
  else
    let neg := x.neg != y.neg
    let sb := if neg then f.signBit else 0
    match x, y with
    | .inf _, .inf _ => (f.nanCode, fNV)
    | .inf _, _ => (sb + f.infCode, 0)
    | _, .inf _ => (sb, 0)
    | .fin _ m e, .fin _ m' e' =>
      if m' = 0 then (if m = 0 then (f.nanCode, fNV) else (sb + f.infCode, fDZ))
      else if m = 0 then (sb, 0)
      else
        let k := f.fb + 4 + bitLen m'
        f.round mode false neg ((m <<< k) / m') (e - e' - k) ((m <<< k) % m' != 0)
    | _, _ => (f.nanCode, 0)

/-- Integer square root by bits, fuel counting the bits of the root. -/
def isqrt (n : Nat) : Nat → Nat → Nat
  | 0, r => r
  | b + 1, r => let r' := r + 2 ^ b; if r' * r' ≤ n then isqrt n b r' else isqrt n b r

/-- √x rounded once (R160, R161). -/
def sqrtRound (f : Fmt) (mode : RMode) : FVal → Nat × FFlags
  | .nan sig => (f.nanCode, if sig then fNV else 0)
  | .inf true => (f.nanCode, fNV)
  | .inf false => (f.infCode, 0)
  | .fin neg m e =>
    if m = 0 then (if neg then f.signBit else 0, 0)
    else if neg then (f.nanCode, fNV)
    else
      let k := 2 * (f.fb + 4) + (if (e - 2 * (f.fb + 4)) % 2 = 0 then 0 else 1)
      let n := m <<< k
      let r := isqrt n (bitLen n / 2 + 1) 0
      f.round mode false false r ((e - k) / 2) (r * r != n)

/-! ### FPCTL (R63, R64) -/

def fpctlMode (x : BitVec 64) : RMode :=
  match x.toNat % 8 with | 1 => .rtz | 2 => .rdn | 3 => .rup | 4 => .rod | _ => .rne

def fpctlFtz (x : BitVec 64) : Bool := x.getLsbD 3

def Task.mode (t : Task) (m : Option RMode) : RMode := m.getD (fpctlMode t.fpctl)
def Task.ftz (t : Task) : Bool := fpctlFtz t.fpctl

/-- OR flags into FPCTL[8:4]. -/
def Task.raise (t : Task) (fl : FFlags) : Task := { t with fpctl := t.fpctl ||| ((fl.setWidth 64) <<< 4) }

end Sys2Proof.Machine
end

