-- ==== Sys2Proof/Machine/Access.lean ====
section
/-! DEFINITION. The memory system: the physical map, L2 and L1, translation, seals, event rings, and line requests in flight
(spec/08_memory.md R165-R187, spec/11_atomics_ordering.md R227-R243, spec/21_bringup.md R376-R378). -/

namespace Sys2Proof.Machine

/-! ### The physical map (R11, R169, R170) -/

inductive Zone where
  | hbm | reserved | host | peer
  deriving DecidableEq, Repr

def State.zone (s : State) (pa : Nat) : Zone :=
  if (pa % 2 ^ 52) >>> 42 ≠ s.deviceNo.toNat then .peer
  else if pa % 2 ^ 42 < 0x6000000000 then .hbm
  else if pa % 2 ^ 42 < 0x20000000000 then .reserved
  else .host

/-- Address in host memory of a host-window address (R169). -/
def State.hostAddr (s : State) (vf pa : Nat) : Nat := pa % 2 ^ 42 - 0x20000000000 + (s.vf vf).hostBase

/-- An address of the host window names memory of its virtual function, whose number stands above bit 51 in the tag of a line that a
cache holds (R169); every other address stands for itself. -/
def State.canon (s : State) (vf pa : Nat) : Nat := if s.zone pa = .host then pa % 2 ^ 52 + vf * 2 ^ 52 else pa

/-- A byte beneath L2. -/
def State.rawByte (s : State) (vf pa : Nat) : BitVec 8 :=
  match s.zone pa with
  | .hbm | .peer => Store.get s.mem pa
  | .host => Store.get s.hostMem (s.hostAddr vf pa)
  | .reserved => 0

def State.rawSet (s : State) (vf pa : Nat) (b : BitVec 8) : State :=
  match s.zone pa with
  | .hbm | .peer => { s with mem := Store.set s.mem pa b }
  | .host => { s with hostMem := Store.set s.hostMem (s.hostAddr vf pa) b }
  | .reserved => s

def lineAddr (pa : Nat) : Nat := pa / 128 * 128

/-- The HBM stack of an address (R170). -/
def stackOf (pa : Nat) : Nat := (bits pa 12 3) ^^^ (bits pa 22 3)

/-- The home of a line: device, kind and number of its slice, or of the memory-side unit of an MS page (R170, R227, R240). -/
def State.home (s : State) (pa : Nat) (ms : Bool) : Nat × Nat × Nat :=
  let channel := (bits pa 15 5) ^^^ (bits pa 25 5)
  let slice := (bits pa 7 5) ^^^ (bits pa 17 5)
  match s.zone pa with
  | .hbm | .peer => (pa >>> 42, if ms then (1, 32 * stackOf pa + channel) else (0, 32 * (stackOf pa / 2) + slice))
  | .host | .reserved => ((pa % 2 ^ 52) >>> 42, 2, 0)

/-! ### L2 (R1, R178, R183) -/

def State.l2? (s : State) (line : Nat) : Option L2Line := s.l2.find? fun l => l.line == line

/-- A byte as its home holds it. -/
def State.homeByte (s : State) (vf pa : Nat) : BitVec 8 :=
  match s.l2? (lineAddr (s.canon vf pa)) with
  | some l => l.data.byte (pa % 128)
  | none => s.rawByte vf pa

def State.homeSet (s : State) (vf pa : Nat) (b : BitVec 8) : State :=
  match s.l2? (lineAddr (s.canon vf pa)) with
  | some _ => { s with l2 := s.l2.map fun l =>
      if l.line = lineAddr (s.canon vf pa) then { l with data := l.data.setByte (pa % 128) b, dirty := true } else l }
  | none => s.rawSet vf pa b

def State.homeRead (s : State) (vf pa : Nat) : Nat → Nat
  | 0 => 0
  | n + 1 => (s.homeByte vf pa).toNat + 256 * s.homeRead vf (pa + 1) n

def State.homeWrite (s : State) (vf pa : Nat) : Nat → Nat → State
  | 0, _ => s
  | n + 1, v => (s.homeSet vf pa (BitVec.ofNat 8 v)).homeWrite vf (pa + 1) n (v / 256)

/-- The 128 bytes of a line as its home holds it. -/
def State.homeLine (s : State) (vf line : Nat) : Line := BitVec.ofNat 1024 (s.homeRead vf line 128)

/-- Write a dirty L2 line back to memory; it stays resident and clean. -/
def State.l2Clean (s : State) (vf line : Nat) : State :=
  match s.l2? line with
  | some l =>
    if l.dirty then
      let s' := (List.range 128).foldl (fun s i => s.rawSet vf (line + i) (l.data.byte i)) s
      { s' with l2 := s'.l2.map fun k => if k.line = line then { k with dirty := false } else k }
    else s
  | none => s

def State.l2Drop (s : State) (line : Nat) : State := { s with l2 := s.l2.filter fun l => l.line ≠ line }

/-- The L2 slice that holds a line, numbered 32 × die + slice: its stack's die; a host line lies at die 0 (R170; log 90). -/
def State.l2Slice (s : State) (line : Nat) : Nat :=
  32 * (if s.zone line = .host then 0 else stackOf line / 2) + ((bits line 7 5) ^^^ (bits line 17 5))

/-- Room for one more line in an L2 slice: when it is full a STREAM line leaves, or else one that the spec does not name (R1, R183; log 90). -/
def State.l2Room (s : State) (slice : Nat) : State :=
  let held := s.l2.filter fun l => s.l2Slice l.line == slice
  if held.length < Config.l2Lines then s
  else
    let first := held.filter (·.stream)
    let of_ := if first.isEmpty then held else first
    match of_[Config.pick s.tick % of_.length]? with
    | some l => (s.l2Clean (l.line / 2 ^ 52) l.line).l2Drop l.line
    | none => s

/-- A correctable error in a line read from memory is corrected and counted (R186). -/
def State.corrected (s : State) (vf line : Nat) : State :=
  if s.ceLines.contains line then { s.count vf 1 with ceLines := s.ceLines.filter (· ≠ line) } else s

/-- A line is read where L2 holds it, or else in memory. -/
def State.memRead (s : State) (vf line : Nat) : State := if (s.l2? (s.canon vf line)).isSome then s else s.corrected vf line

/-- Fill a line into L2 with the seal of the translation that fills it (R178). Peer lines are never held here (R170). -/
def State.l2Fill (s : State) (vf line : Nat) (sealId : BitVec 20) (stream : Bool) : State :=
  match s.zone line, s.l2? (s.canon vf line) with
  | .peer, _ | .reserved, _ | _, some _ => s
  | _, none =>
    let s1 := (s.corrected vf line).l2Room (s.l2Slice line)
    { s1 with l2 := s1.l2 ++ [{ line := lineAddr (s.canon vf line), data := s.homeLine vf line, sealId := sealId, dirty := false, stream := stream }] }

/-- An access that bypasses L2 (R183): whether a dirty copy had been written back before it is open (log 8). -/
def State.l2Bypass (s : State) (vf line : Nat) : State :=
  let s1 := s.corrected vf line
  match s1.l2? line with
  | some l => if l.dirty && Config.coin s1.tick line then s1.l2Clean vf line else s1
  | none => s1

/-- Host-window writes complete: every dirty line of the host window is written to host memory (R237). -/
def State.hostFlush (s : State) : State :=
  (s.l2.filter fun l => l.dirty && s.zone l.line == .host).foldl (fun s l => s.l2Clean (l.line / 2 ^ 52) l.line) s

/-- What a release at a scope does besides waiting (R237). -/
def State.released (s : State) (sc : Scope) : State := if sc = .system then s.hostFlush else s

/-! ### Translation (R172-R175) -/

def Leaf.r (l : Leaf) : Bool := bit l.w0 2
def Leaf.w (l : Leaf) : Bool := bit l.w0 3
def Leaf.x (l : Leaf) : Bool := bit l.w0 4
def Leaf.caps (l : Leaf) : Bool := bit l.w0 5
def Leaf.ms (l : Leaf) : Bool := bit l.w0 6
def Leaf.sealId (l : Leaf) : BitVec 20 := BitVec.ofNat 20 l.w1
def Leaf.cpol (l : Leaf) : BitVec 4 := BitVec.ofNat 4 (l.w1 >>> 20)
def Leaf.pa (l : Leaf) (va : Nat) : Nat := l.base + va % l.size
/-- The unit and policy that serve a page: capsule memory lies at its home slice, whatever its MS and CPOL (R261). -/
def Leaf.atMs (l : Leaf) : Bool := l.ms && !l.caps
def Leaf.policy (l : Leaf) : BitVec 4 := if l.caps then 0 else l.cpol
/-- MS pages and CPOL 3 bypass L1 and L2 (R183). -/
def Leaf.bypass (l : Leaf) : Bool := l.atMs || l.policy = 3
/-- Whether a line keeps out of L1 (R183, R261). -/
def Leaf.noL1 (l : Leaf) : Bool := l.bypass || l.cpol = 1 || l.caps
/-- STREAM (R183). -/
def Leaf.stream (l : Leaf) : Bool := l.cpol = 2 && !l.ms

/-- A walk from the table at t through the levels left (R173). An error names the reason and the level. -/
def walkFrom (s : State) (vf va : Nat) : List Nat → Nat → Except (Nat × Nat) Leaf
  | [], _ => .error (2, 5)
  | lev :: rest, t =>
    let ea := t + 16 * bits va (52 - 8 * lev) 8
    let e0 := s.homeRead vf ea 8
    let e1 := s.homeRead vf (ea + 8) 8
    let frame := bits e0 12 40 * 4096
    if !bit e0 0 then .error (1, lev)
    else if bit e0 1 then
      if lev = 5 then .error (2, lev)
      else if frame >>> 42 ≠ s.deviceNo.toNat then .error (4, lev)
      else walkFrom s vf va rest frame
    else
      let span := bits e0 9 2
      if lev < 3 || (lev = 3 && 1 < span) then .error (2, lev)
      else
        let size := 2 ^ (52 - 8 * lev + 2 * span)
        .ok { base := s.canon vf (frame / size * size), size := size, pte := ea, w0 := e0, w1 := e1 }

def walk (s : State) (asid : BitVec 16) (va : Nat) : Except (Nat × Nat) Leaf :=
  if va >>> 52 ≠ 0 then .error (3, 0)
  else walkFrom s (s.asd asid).vf va [1, 2, 3, 4, 5] ((s.asd asid).rootFrame.toNat * 4096)

/-- Whether two leaves differ in nothing but A and D. -/
def Leaf.same (a b : Leaf) : Bool :=
  a.base = b.base && a.size = b.size && a.w1 = b.w1 && bits a.w0 0 7 = bits b.w0 0 7

def tlbFind (es : List TlbEntry) (unit : Nat) (asid : BitVec 16) (va : Nat) : Option TlbEntry :=
  es.find? fun e => e.unit == unit && e.asid == asid && e.va ≤ va && va < e.va + e.leaf.size

/-- The entry that the core's L1 TLB or its die's second-level TLB holds for an address. -/
def State.cached (s : State) (core : Nat) (asid : BitVec 16) (va : Nat) : Option Leaf :=
  ((tlbFind s.tlb core asid va).orElse fun _ => tlbFind s.dieTlb (dieOf core) asid va).map (·.leaf)

/-- Translate: the page table's answer, or, until an invalidation, possibly an old cached entry (R174, log 6). -/
def State.xlate (s : State) (core : Nat) (asid : BitVec 16) (va : Nat) : Except (Nat × Nat) Leaf :=
  let fresh := walk s asid va
  match s.cached core asid va with
  | none => fresh
  | some l =>
    let agrees := match fresh with | .ok f => f.same l | .error _ => false
    if agrees then fresh else if Config.coin s.tick (va / l.size * l.size) then .ok l else fresh

/-- The addresses of the entries that a walk reads. -/
def walkEntries (s : State) (vf va : Nat) : List Nat → Nat → List Nat
  | [], _ => []
  | lev :: rest, t =>
    let ea := t + 16 * bits va (52 - 8 * lev) 8
    let e0 := s.homeRead vf ea 8
    if bit e0 0 && bit e0 1 then ea :: walkEntries s vf va rest (bits e0 12 40 * 4096) else [ea]

/-- The lines that a walk reads are corrected and counted (R186). -/
def State.walked (s : State) (asid : BitVec 16) (va : Nat) : State :=
  let a := s.asd asid
  (walkEntries s a.vf va [1, 2, 3, 4, 5] (a.rootFrame.toNat * 4096)).foldl (fun s ea => s.memRead a.vf (lineAddr ea)) s

/-- The walker's marks on an entry (A, and D on a write) and the entry's place in both TLBs (R172, R175). -/
def State.touch (s : State) (core : Nat) (asid : BitVec 16) (va : Nat) (write : Bool) : State :=
  match walk s asid va with
  | .error _ => s
  | .ok l =>
    let w0 := l.w0 ||| 0x80 ||| (if write then 0x100 else 0)
    let s0 := if (s.cached core asid va).isSome then s else s.walked asid va
    let s1 := if w0 = l.w0 then s0 else s0.homeWrite (s.asd asid).vf l.pte 8 w0
    let e (u : Nat) : TlbEntry := { unit := u, asid := asid, va := va / l.size * l.size, leaf := { l with w0 := w0 } }
    let put (es : List TlbEntry) (u : Nat) := match tlbFind es u asid va with | some _ => es | none => es ++ [e u]
    { s1 with tlb := put s1.tlb core, dieTlb := put s1.dieTlb (dieOf core) }

/-! ### Seals (R176-R180) -/

/-- R176: the bucket hash. -/
def grantHash (prin : BitVec 24) (sealId : BitVec 20) : Nat :=
  let h := ((prin.toNat * 0x27D4EB2F) ^^^ (sealId.toNat * 0x165667B1)) % 2 ^ 32
  h ^^^ (h >>> 16)

/-- R176: (RD, WR) from the grant table. -/
def grantTable (s : State) (asid : BitVec 16) (prin : BitVec 24) (sealId : BitVec 20) : Bool × Bool :=
  let a := s.asd asid
  let n := 2 ^ a.gk.toNat
  let b := grantHash prin sealId % n
  let at_ (k : Nat) : Nat := s.homeRead a.vf (a.gtab.toNat + 128 * ((b + k / 8) % n) + 16 * (k % 8)) 8
  let hit (e : Nat) : Bool := bit e 63 && bits e 0 24 = prin.toNat && bits e 24 20 = sealId.toNat
  match (List.range 16).find? fun k => hit (at_ k) with
  | some k => (bit (at_ k) 44, bit (at_ k) 45)
  | none => (false, false)

/-- The two lines of the grant table that a lookup reads are corrected and counted (R176, R186). -/
def State.grantRead (s : State) (asid : BitVec 16) (prin : BitVec 24) (sealId : BitVec 20) : State :=
  let a := s.asd asid
  let b := grantHash prin sealId
  [b, b + 1].foldl (fun s i => s.memRead a.vf (a.gtab.toNat + 128 * (i % 2 ^ a.gk.toNat))) s

/-- R177: the grant for an access from a core: the table's, or, until a shootdown, possibly a cached one (log 7). -/
def State.grant (s : State) (core : Nat) (asid : BitVec 16) (prin : BitVec 24) (sealId : BitVec 20) : Bool × Bool :=
  if sealId = 0 then (true, true)
  else
    let fresh := grantTable s asid prin sealId
    match s.seals.find? fun e => e.core == core && e.asid == asid && e.prin == prin && e.sealId == sealId with
    | none => fresh
    | some e => if (e.rd, e.wr) = fresh then fresh else if Config.coin s.tick sealId.toNat then (e.rd, e.wr) else fresh

def State.noteSeal (s : State) (core : Nat) (asid : BitVec 16) (prin : BitVec 24) (sealId : BitVec 20) : State :=
  if sealId = 0 || s.seals.any (fun e => e.core == core && e.asid == asid && e.prin == prin && e.sealId == sealId) then s
  else
    let g := grantTable s asid prin sealId
    let s := s.grantRead asid prin sealId
    { s with seals := s.seals ++ [{ core := core, asid := asid, prin := prin, sealId := sealId, rd := g.1, wr := g.2 }] }

/-- Whether Grant gives what a seal's access needs. -/
def State.sealOk (s : State) (core : Nat) (asid : BitVec 16) (prin : BitVec 24) (r w : Bool) (x : BitVec 20) : Bool :=
  (!r || (s.grant core asid prin x).1) && (!w || (s.grant core asid prin x).2)

/-- Whether a line request is granted: under its translation's seal and the seal of the copy that serves it, the one in L1 where L1 may
serve a read, or else the one in L2; a store meets both (R178, R179). -/
def State.granted (s : State) (core : Nat) (asid : BitVec 16) (prin : BitVec 24) (l : Leaf) (useL1 : Bool) (line : Nat) (r w : Bool) : Bool :=
  let ok := s.sealOk core asid prin r w
  let l1 := if !useL1 || l.noL1 || (r && w) then none else ((s.core core).l1.find? fun k => k.line == line).map (·.sealId)
  let l2 := if (if r && w then l.ms else l.bypass) || (l1.isSome && !w) then none else (s.l2? line).map (·.sealId)
  ok l.sealId && (l1.map ok).getD true && (l2.map ok).getD true

/-- Whether a peer's own grants admit a request (R179). -/
def State.peerOk (s : State) (dev : Nat) (asid : BitVec 16) (prin : BitVec 24) (sealId : BitVec 20) (r w : Bool) : Bool :=
  sealId = 0 || s.peerGrants.any fun p => p.1 == dev && p.2.asid == asid && p.2.prin == prin && p.2.sealId == sealId &&
    (!r || p.2.rd) && (!w || p.2.wr)

/-- Whether this device makes the check of a request: of a peer's line only where the core's L1 serves it (R179). -/
def State.checksHere (s : State) (core : Nat) (l : Leaf) (useL1 : Bool) (line : Nat) (w : Bool) : Bool :=
  s.zone line ≠ .peer || (useL1 && !w && !l.noL1 && (s.core core).l1.any fun k => k.line == line)

/-- Whether every check that a request of a core would meet is passed, a peer's answer included. -/
def State.reachable (s : State) (core : Nat) (asid : BitVec 16) (prin : BitVec 24) (l : Leaf) (useL1 : Bool) (line : Nat) (r w : Bool) : Bool :=
  if s.checksHere core l useL1 line w then s.granted core asid prin l useL1 line r w
  else s.peerOk (line >>> 42) asid prin l.sealId r w

/-- A line that delivers zeros and drops writes (R169, R186). -/
def State.isUe (s : State) (line : Nat) : Bool := s.ueLines.contains line || s.zone line == .reserved

/-! ### Event rings (R377) -/

/-- Read 8 bytes at a virtual address as firmware does; 0 where nothing is mapped. -/
def State.vRead8 (s : State) (asid : BitVec 16) (va : Nat) : Nat :=
  match walk s asid va with
  | .ok l => s.homeRead (s.asd asid).vf (l.pa va) 8
  | .error _ => 0

def State.vWrite8 (s : State) (asid : BitVec 16) (va v : Nat) : State :=
  match walk s asid va with
  | .ok l => s.homeWrite (s.asd asid).vf (l.pa va) 8 v
  | .error _ => s

/-- The fields of an event record (R377). -/
structure Event where
  kind : Nat
  code : Nat := 0
  asid : Nat := 0
  task : Nat := 0
  addr : Nat := 0
  prin : Nat := 0
  sealId : Nat := 0
  detail : Nat := 0
  pc : Nat := 0
  lmask : Nat := 0

def Event.word (e : Event) (clock : Nat) : Nat :=
  packBytes [(0, e.kind), (1, e.code), (2, e.asid), (4, e.task % 2 ^ 32), (8, clock), (16, e.addr), (24, e.prin), (28, e.sealId),
    (32, e.detail), (48, e.pc), (52, e.lmask)]

/-- Append a record and raise WPTR with a release at system scope, or raise LOST when the ring is full (R377). -/
def State.event (s : State) (vf : Nat) (e : Event) : State :=
  let f := s.vf vf
  if !f.ringOn then s
  else
    let asid := (s.queue vf 0).asid
    let base := f.ringBase.toNat
    let rptr := BitVec.ofNat 64 (s.vRead8 asid (base + 8))
    if f.wptr - rptr = BitVec.ofNat 64 (2 ^ f.ringK) then
      (s.updVf vf fun f => { f with lost := f.lost + 1 }).vWrite8 asid (base + 16) (f.lost + 1).toNat
    else
      let at_ := base + 128 + 64 * (f.wptr.toNat % 2 ^ f.ringK)
      let w := e.word s.clock.toNat
      let s1 := (List.range 8).foldl (fun s i => s.vWrite8 asid (at_ + 8 * i) (bits w (64 * i) 64)) s
      ((s1.updVf vf fun f => { f with wptr := f.wptr + 1 }).vWrite8 asid base (f.wptr + 1).toNat).released .system

/-- A denied line request (R179): the counter, the task's SEALCNT, and a seal event. -/
def State.deny (s : State) (task : Nat) (asid : BitVec 16) (prin : BitVec 24) (va : Nat) (sealId : BitVec 20) : State :=
  let vf := (s.asd asid).vf
  ((s.count vf 0).updTask task fun t => { t with sealcnt := t.sealcnt + 1 }).event vf
    { kind := 1, asid := asid.toNat, task := task, addr := va / 128 * 128, prin := prin.toNat, sealId := sealId.toNat }

/-- A denied line request as its task's device sees it: where a peer made the check only SEALCNT rises here (R179). -/
def State.denied (s : State) (task : Nat) (asid : BitVec 16) (prin : BitVec 24) (va : Nat) (sealId : BitVec 20) (here : Bool) : State :=
  if here then s.deny task asid prin va sealId else s.updTask task fun t => { t with sealcnt := t.sealcnt + 1 }

/-- An uncorrectable error (R186). -/
def State.ueError (s : State) (task : Nat) (asid : BitVec 16) (prin : BitVec 24) (va : Nat) (sealId : BitVec 20) : State :=
  let vf := (s.asd asid).vf
  (s.count vf 2).event vf
    { kind := 2, asid := asid.toNat, task := task, addr := va / 128 * 128, prin := prin.toNat, sealId := sealId.toNat }

/-! ### L1 (R182, R183) -/

def Core.l1? (c : Core) (line : Nat) : Option L1Line := c.l1.find? fun l => l.line == line

def l1Set (line : Nat) : Nat := line / 128 % 512

/-- Write the dirty bytes of a private line back to its home. -/
def State.writeBack (s : State) (l : L1Line) : State :=
  let vf := (s.asd l.asid).vf
  if l.dirty = 0 then s
  else (List.range 128).foldl (fun s i => if l.dirty.getLsbD i then s.homeSet vf (l.line + i) (l.data.byte i) else s)
    (s.l2Fill vf l.line l.sealId false)

/-- The copy in a core's L1 that may serve a load: not one that a store of the core on its way has yet to update (R239). -/
def State.l1Ready (s : State) (core line : Nat) : Option L1Line :=
  if s.reqs.any fun r => r.core == core && r.line == line && r.kind == .store && r.fill && !r.deny then none else (s.core core).l1? line

/-- Bytes of a line overlaid with the core's stores to it still in flight that have updated L1, in order (R239, R243). -/
def overlay (s : State) (core line : Nat) (d : Line) : Line :=
  s.reqs.foldl (fun d r =>
    if r.core = core && r.line = line && r.kind = .store && !r.fill && !r.deny then
      r.lanes.foldl (fun d a =>
        (List.range r.ty.bytes).foldl (fun d i => d.setByte (a.pa % 128 + i) (BitVec.ofNat 8 (a.data.toNat >>> (8 * i)))) d) d
    else d) d

/-- Put a line into L1: over a resident global copy, into a way that is free in its set, or else the way the set's round-robin pointer
names; the pointer then stands at a STREAM line's way, so that it goes first (R182, R183). A resident private line stays. -/
def State.l1Fill (s : State) (core : Nat) (l : L1Line) (stream : Bool) : State :=
  let c := s.core core
  let ways := c.ways
  let st := l1Set l.line
  let here := c.l1.filter fun k => l1Set k.line = st
  match c.l1? l.line, ways with
  | some k, _ =>
    if k.priv then s else s.updCore core fun c => { c with l1 := c.l1.map fun k => if k.line = l.line then { l with way := k.way } else k }
  | none, [] => s
  | none, w0 :: _ =>
    match ways.find? fun w => !here.any fun k => k.way == w with
    | some w => s.updCore core fun c =>
        { c with
          l1 := c.l1 ++ [{ l with way := w }]
          l1ptr := if stream then Store.set c.l1ptr st (BitVec.ofNat 8 (ways.idxOf w)) else c.l1ptr }
    | none =>
      let p := (Store.get c.l1ptr st).toNat % ways.length
      let w := ways.getD p w0
      let s1 := match here.find? fun k => k.way == w with
        | some k => if k.priv && k.dirty ≠ 0 then s.writeBack k else s
        | none => s
      s1.updCore core fun c =>
        { c with
          l1 := c.l1.filter (fun k => !(l1Set k.line = st && k.way == w)) ++ [{ l with way := w }]
          l1ptr := if stream then c.l1ptr else Store.set c.l1ptr st (BitVec.ofNat 8 ((p + 1) % ways.length)) }

/-- Drop every global line of a core's L1 (R237: the acquire). -/
def State.dropGlobal (s : State) (core : Nat) : State :=
  s.updCore core fun c => { c with l1 := c.l1.filter fun l => l.priv }

/-- Drop a core's copy of a line, a dirty private one behind its write-back; fills of the line that are already on their way do not bring
it back (R230). -/
def State.dropLine (s : State) (core line : Nat) : State :=
  let s1 := match (s.core core).l1? line with
    | some l => if l.priv then s.writeBack l else s
    | none => s
  ({ s1 with reqs := s1.reqs.map fun r =>
      if r.core = core && r.line = line && (r.kind = .load || r.kind = .prefetch) then { r with fill := false } else r } : State).updCore core
    fun c => { c with l1 := c.l1.filter fun l => l.line ≠ line }

/-- Drop a core's copy of a global line (R195). -/
def State.dropCopy (s : State) (core line : Nat) : State :=
  s.updCore core fun c => { c with l1 := c.l1.filter fun l => l.line ≠ line || l.priv }

/-- Update the bytes of a resident line with a store's bytes (R182, R243). -/
def State.l1Store (s : State) (core : Nat) (pa n v : Nat) (dirty : Bool) : State :=
  s.updCore core fun c =>
    { c with l1 := c.l1.map fun l =>
        if l.line = lineAddr pa then
          { l with
            data := (List.range n).foldl (fun d i => d.setByte (pa % 128 + i) (BitVec.ofNat 8 (v >>> (8 * i)))) l.data
            dirty := if dirty || l.priv then
                (List.range n).foldl (fun d i => d ||| ((1 : BitVec 128) <<< (pa % 128 + i))) l.dirty else l.dirty }
        else l }

/-- n bytes of a line's data from offset o. -/
def lineRead (d : Line) (o n : Nat) : Nat := ((d >>> (8 * o)).toNat) % 2 ^ (8 * n)

/-! ### Private regions (R185, R225, R396) -/

/-- Offset within the task's private region of a virtual address, if it lies there. -/
def Task.privOff (t : Task) (k : Kernel) (va : Nat) : Option Nat :=
  if t.pbase.toNat ≤ va && va < t.pbase.toNat + k.priv * k.w then some (va - t.pbase.toNat) else none

/-- Bytes of the private region that the task has not written read as zero (R225). -/
def Task.maskPriv (t : Task) (k : Kernel) (va n v : Nat) : Nat :=
  match t.privOff k va with
  | none => v
  | some o => (List.range n).foldl (fun acc i =>
      acc + (if t.privWritten.get (o + i) = 1 then bits v (8 * i) 8 * 2 ^ (8 * i) else 0)) 0

def Task.markPriv (t : Task) (k : Kernel) (va n : Nat) : Task :=
  match t.privOff k va with
  | none => t
  | some o => { t with privWritten := (List.range n).foldl (fun m i => m.set (o + i) 1) t.privWritten }

/-- The bytes of a store that was refused are not written: those that its mask names as unwritten before it read as zero again. -/
def Task.unmarkPriv (t : Task) (k : Kernel) (va n : Nat) (mask : BitVec 64) : Task :=
  match t.privOff k va with
  | none => t
  | some o => { t with privWritten := (List.range n).foldl (fun m i => if mask.getLsbD (8 * i) then m else m.set (o + i) 0) t.privWritten }

/-- The live task of an address space in whose private region an address lies (R185, R396). -/
def State.privOwner (s : State) (asid : BitVec 16) (va : Nat) : Option Task :=
  s.tasks.find? fun t => t.asid == asid && t.everPlaced && !t.isRetired && (t.privOff (s.kernelOf t) va).isSome

/-- The n bytes at an address of an address space are written: in a private region they are no longer unwritten (R225; log 105). -/
def State.markBytes (s : State) (asid : BitVec 16) (va n : Nat) : State :=
  match s.privOwner asid va with
  | none => s
  | some t => s.updTask t.id fun t => t.markPriv (s.kernelOf t) va n

/-- A store's bytes are written, those of its denied lines apart. -/
def State.markStore (s : State) (r : Req) : State :=
  if r.deny then s else r.lanes.foldl (fun s a => s.markBytes r.asid a.va.toNat r.ty.bytes) s

/-- The bits of the n bytes at an address that read through: zero in the private bytes that their task has not written (R225). -/
def State.privMask (s : State) (asid : BitVec 16) (va n : Nat) : BitVec 64 :=
  match s.privOwner asid va with
  | none => BitVec.allOnes 64
  | some t => BitVec.ofNat 64 (t.maskPriv (s.kernelOf t) va n (2 ^ (8 * n) - 1))

/-! ### Atomic operations (R231) -/

/-- New value of an atomic operation: x old, y operand, on the bits of the type's width. -/
def atomApply (op : AtomOp) (ty : Ty) (x y : Nat) : Nat :=
  let w := ty.elem.1
  let x := x % 2 ^ w
  let y := y % 2 ^ w
  match op with
  | .add => if ty = .f32 then
        (sumRound .f32 .rne [Fmt.f32.decode x, Fmt.f32.decode y] 0).1
      else (x + y) % 2 ^ w
  | .min => if ty.toI x ≤ ty.toI y then x else y
  | .max => if ty.toI x ≤ ty.toI y then y else x
  | .and => x &&& y
  | .or => x ||| y
  | .xor => x ^^^ y
  | .xchg => y

/-! ### Performing a request at its home (R229, R231, R239) -/

/-- Read at the home, or beneath L2 for a bypassing page. -/
def State.serveRead (s : State) (vf : Nat) (bypass : Bool) (pa n : Nat) : Nat :=
  if bypass then (List.range n).foldl (fun acc i => acc + (s.rawByte vf (pa + i)).toNat * 2 ^ (8 * i)) 0
  else s.homeRead vf pa n

def State.serveWrite (s : State) (vf : Nat) (bypass : Bool) (pa n v : Nat) : State :=
  if bypass then (List.range n).foldl (fun s i => s.rawSet vf (pa + i) (BitVec.ofNat 8 (v >>> (8 * i)))) s
  else s.homeWrite vf pa n v

/-- Set the value obtained by lanes of an outstanding result. -/
def State.setVals (s : State) (task : Nat) (out : Option Nat) (vals : List (Nat × BitVec 64)) : State :=
  match out with
  | none => s
  | some o => s.updTask task fun t =>
      { t with outs := t.outs.map fun u => if u.id = o then
          { u with lanes := u.lanes.map fun a => match vals.find? fun p => p.1 == a.lane with
              | some p => { a with val := some p.2 }
              | none => a }
        else u }

/-- The operations that go to the host as PCIe AtomicOps (R228). -/
def ReqKind.pcie (k : ReqKind) (ty : Ty) : Bool :=
  match k with
  | .atomic .add => ty.isInt
  | .atomic .xchg | .cas => true
  | _ => false

/-- Where a request executes (R183, R227, R228): the line made ready there, and whether that is beneath L2: at the host for its AtomicOps, at
the memory-side unit for an MS page, in memory for an uncached load or store; an uncached atomic works at its slice, which holds no copy
for it. -/
def State.unitOf (s : State) (vf line : Nat) (sealId : BitVec 20) (ms : Bool) (cpol : BitVec 4) (kind : ReqKind) (ty : Ty) : State × Bool :=
  let atomic := match kind with | .atomic _ | .cas => true | _ => false
  if s.zone line = .host && kind.pcie ty then ((s.l2Clean vf line).l2Drop line, true)
  else if ms || (cpol = 3 && !atomic) then (s.l2Bypass vf line, true)
  else if cpol = 3 then (s.memRead vf line, false)
  else (s.l2Fill vf line sealId (cpol = 2), false)

/-- Private bytes that an atomic finds unwritten stand as zero before it applies (R225). -/
def State.zeroUnwritten (s : State) (vf : Nat) (bypass : Bool) (n : Nat) (lanes : List LaneAcc) : State :=
  lanes.foldl (fun s a =>
    if a.mask.toNat % 2 ^ (8 * n) = 2 ^ (8 * n) - 1 then s
    else s.serveWrite vf bypass a.pa n (s.serveRead vf bypass a.pa n &&& a.mask.toNat)) s

/-- Lanes of one request applied in ascending lane order; each receives the old value it found (R229, R249, R250). -/
def applyLanes (vf : Nat) (bypass : Bool) (kind : ReqKind) (ty : Ty) : List LaneAcc → State → State × List (Nat × BitVec 64)
  | [], s => (s, [])
  | a :: r, s =>
    let n := ty.bytes
    let old := s.serveRead vf bypass a.pa n
    let s1 := match kind with
      | .load | .prefetch => s
      | .store => s.serveWrite vf bypass a.pa n a.data.toNat
      | .atomic op => s.serveWrite vf bypass a.pa n (atomApply op ty old a.data.toNat)
      | .cas => if old = a.cmp.toNat % 2 ^ (8 * n) then s.serveWrite vf bypass a.pa n a.data.toNat else s
    let (s', vs) := applyLanes vf bypass kind ty r s1
    (s', (a.lane, BitVec.ofNat 64 old) :: vs)

/-- RD and WR that a request needs (R177). -/
def Req.needs (r : Req) : Bool × Bool :=
  match r.kind with | .load | .prefetch => (true, false) | .store => (false, true) | .atomic _ | .cas => (true, true)

/-- Whether the level that serves a request denies it: the device that owns a peer line by its own copy of the grants, the home by the seal
of the line that its L2 holds (R178, R179). -/
def State.reqDenied (s : State) (r : Req) : Bool :=
  let (rd, wr) := r.needs
  if r.peer then (r.sealId :: r.seals).any fun x => !s.peerOk (r.line >>> 42) r.asid r.prin x rd wr
  else !r.bypass && (match s.l2? r.line with | some l => !s.sealOk r.core r.asid r.prin rd wr l.sealId | none => false)

/-- The OWNER and EPOCH words of a cell, and its other words, as its home holds them. -/
structure Cell where
  owner : Nat
  state : Nat
  step : Nat
  count : Nat
  prin : Nat
  code : Nat
  slot : Nat
  deriving DecidableEq, Repr

def State.cell (s : State) (vf pa : Nat) : Cell :=
  let o := s.homeRead vf pa 8
  let e := s.homeRead vf (pa + 8) 8
  { owner := bits o 0 32, state := min (bits o 48 8) 3, step := bits o 56 8, count := bits e 0 40, prin := bits e 40 24
    code := s.homeRead vf (pa + 16) 8, slot := s.homeRead vf (pa + 24) 8 }

/-- Whether an ordinary store may not write at an address of capsule memory: the cell is not FREE, or the byte lies in its first 16 (R261). -/
def State.cellShut (s : State) (vf pa : Nat) : Bool := pa % 256 < 16 || (s.cell vf (pa / 256 * 256)).state ≠ 0

/-- Whether a store to a cell finds it no longer FREE (R261). -/
def State.cellTaken (s : State) (r : Req) : Bool :=
  r.kind = .store && r.caps && !r.deny && r.lanes.any fun a => s.cellShut (s.asd r.asid).vf a.pa

/-- Whether the far end would fault a request (R180, R186, R211): a denial, or an uncorrectable error, under STRICT, or a cell that is no
longer FREE (R261). Atomics find their uncorrectable errors at issue (R232), and a prefetch never faults (R194). -/
def State.reqBad (s : State) (r : Req) : Option (BitVec 8) :=
  if s.cellTaken r then some 0x0B
  else if !(s.asd r.asid).strict || r.kind = .prefetch then none
  else if s.reqDenied r then some 0x17
  else if s.isUe r.line && (match r.kind with | .load | .store => true | _ => false) then some 0x18
  else none

/-- Whether some line of the instruction of a request would fault: then it performs for no lane (R180, R186, R211). -/
def State.instBad (s : State) (r : Req) : Bool :=
  s.reqs.any fun q => q.task == r.task && q.inst == r.inst && (s.reqBad q).isSome

/-- Whether a request stands behind an LDA of its task whose value has not returned: it does not perform yet (R254). -/
def State.behindLda (s : State) (r : Req) : Bool :=
  match s.task? r.task with
  | none => false
  | some t => t.outs.any fun o => o.acq.isSome && decide (o.id < r.inst)

/-- Whether a request may not perform yet. -/
def State.stuck (s : State) (r : Req) : Bool := s.instBad r || s.behindLda r

/-- Count and log a denied request: a denial that the far device found is counted there, and here in the task's SEALCNT only (R179). -/
def State.denyReq (s : State) (r : Req) : State :=
  let va := (match r.lanes with | [] => (0 : BitVec 64) | a :: _ => a.va).toNat
  s.denied r.task r.asid r.prin va r.sealId (!r.peer || r.deny)

/-- A store that is not made: its private bytes stay unwritten, and its update of the core's L1 goes with the copy (R225, R243). -/
def State.unstore (s : State) (r : Req) : State :=
  if r.kind = .store && !r.deny then
    let s1 := r.lanes.foldl (fun s a => match s.privOwner r.asid a.va.toNat with
      | none => s
      | some u => s.updTask u.id fun u => u.unmarkPriv (s.kernelOf u) a.va.toNat r.ty.bytes a.mask) s
    if r.fill then s1 else s1.dropCopy r.core r.line
  else s

/-- A refused request performs for no lane: zeros for a load, no write for a store (R179, R186). -/
def State.refuseReq (s : State) (r : Req) : State := (s.setVals r.task r.out (r.lanes.map fun a => (a.lane, 0))).unstore r

/-- Perform one request: at its home, lane by lane; zeros and no writes where denied or uncorrectable (R178, R179, R186). A load with fill
brings the line into L1, overlaid with the core's stores still in flight; a store with fill updates L1 only now (R243). -/
def State.performReq (s : State) (r : Req) : State :=
  let vf := (s.asd r.asid).vf
  let va := (match r.lanes with | [] => (0 : BitVec 64) | a :: _ => a.va).toNat
  let s0 := { s with reqs := s.reqs.filter fun q => q.id ≠ r.id }
  let denied := r.deny || s.reqDenied r
  if r.kind = .prefetch && (denied || s.isUe r.line) then s0
  else if denied then (s0.denyReq r).refuseReq r
  else if s.isUe r.line then (s0.ueError r.task r.asid r.prin va r.sealId).refuseReq r
  else
    let (s1, beneath) := s0.unitOf vf r.line r.sealId r.ms r.cpol r.kind r.ty
    let s2 := match r.kind with | .atomic _ | .cas => s1.zeroUnwritten vf beneath r.ty.bytes r.lanes | _ => s1
    let (s3, vals) := applyLanes vf beneath r.kind r.ty r.lanes s2
    let s4 := (if r.kind = .store then s3.markStore r else s3).setVals r.task r.out vals
    if !r.fill then s4
    else match r.kind with
      | .load | .prefetch =>
        let l : L1Line :=
          { way := 0, line := r.line, data := overlay s4 r.core r.line (s4.homeLine vf r.line), sealId := r.sealId,
            asid := r.asid, priv := false, task := r.task, dirty := 0 }
        s4.l1Fill r.core l (r.cpol = 2)
      | _ => r.lanes.foldl (fun s a => s.l1Store r.core a.pa r.ty.bytes a.data.toNat false) s4

/-- Whether a request must perform with or before another: an earlier one of its core to the same home (R240), or, under STRICT, one of the
same instruction, which performs for every lane or for none (R180, R187). -/
def State.withReq (s : State) (q r : Req) : Bool :=
  (q.core == r.core && s.home q.line q.ms == s.home r.line r.ms && (s.reqs.takeWhile fun x => x.id != r.id).any fun x => x.id == q.id) ||
  ((s.asd r.asid).strict && q.task == r.task && q.inst == r.inst)

/-- The requests that must perform with some of a list; fuel bounds their number. -/
def State.closure (s : State) : Nat → List Req → List Req
  | 0, rs => rs
  | n + 1, rs =>
    let more := s.reqs.filter fun q => !rs.any (fun r => r.id == q.id) && rs.any fun r => s.withReq q r
    if more.isEmpty then rs else s.closure n (rs ++ more)

/-- Perform requests in their order up to the first that may not: what an earlier one changes is seen by the checks of the next. -/
def performPrefix : List Req → State → State
  | [], s => s
  | r :: rs, s => if s.stuck r then s else performPrefix rs (s.performReq r)

/-- Perform a request with those that must perform with it, oldest first; not where one of them may not yet. -/
def State.performThrough (s : State) (id : Nat) : State :=
  match s.reqs.find? fun r => r.id == id with
  | none => s
  | some r =>
    let all := s.closure s.reqs.length [r]
    if all.any s.stuck then s else performPrefix (s.reqs.filter fun q => all.any fun a => a.id == q.id) s

/-- Perform every request that satisfies p, oldest first. -/
def State.performAll (s : State) (p : Req → Bool) : State :=
  (s.reqs.filter p).foldl (fun s r => s.performThrough r.id) s

/-- Whether a request of a core comes before one that the core now makes at a line's home (R240). -/
def State.ahead (s : State) (core line : Nat) (ms : Bool) (r : Req) : Bool := r.core == core && s.home r.line r.ms == s.home line ms

end Sys2Proof.Machine
end

