-- ==== Sys2Proof/Machine/Tile.lean ====
section
/-! DEFINITION. Canonical tiles, layouts, and what a copy operation of the tile copy unit or a bulk copy engine reads and
writes (spec/15_tile_copy.md R281-R287, R293-R302, R308, R352). -/

namespace Sys2Proof

/-- The element formats of a canonical tile (R281). -/
def Ty.isTile : Ty → Bool
  | .e4m3 | .e5m2 | .l6 | .i8 | .n8 | .f16 | .bf16 => true
  | _ => false

/-- Size of a tile or storage element in bytes (R281, R283). -/
def Ty.tileBytes : Ty → Nat
  | .f32 => 4
  | .f16 | .bf16 => 2
  | _ => 1

/-- Inner extent QX of a tile (R281). -/
def Ty.qx (t : Ty) : Nat := if t.tileBytes = 2 then 64 else 128

def TileKind.code : TileKind → Nat
  | .a => 0 | .b => 1 | .cb => 2

/-- Numbers of the scopes (R237). -/
def Scope.code : Scope → Nat
  | .task => 0 | .ply => 1 | .core => 2 | .die => 3 | .device => 4 | .domain => 5 | .system => 6

def Scope.ofCode : Nat → Option Scope
  | 0 => some .task | 1 => some .ply | 2 => some .core | 3 => some .die | 4 => some .device | 5 => some .domain
  | 6 => some .system | _ => none

end Sys2Proof

namespace Sys2Proof.Machine

/-! ### Tiles (R281, R282) -/

/-- Byte offset of element (p, q) of a tile of kind A or B. -/
def tileOff (ty : Ty) (p q : Nat) : Nat :=
  let s := ty.tileBytes
  (q / (8 / s)) * 512 + p * 8 + (q % (8 / s)) * s

/-- Byte offset of element (k, n) of block i of a compacted tile. -/
def blockOff (ty : Ty) (i k n : Nat) : Nat := i * 64 * ty.tileBytes + (n * 8 + k) * ty.tileBytes

/-- Blocks of a compacted tile. -/
def blocksOf (ty : Ty) : Nat := 8192 / (64 * ty.tileBytes)

/-- A tile's header fields. -/
structure Header where
  fmt : Nat
  kind : Nat
  vrows : Nat
  vcols : Nat
  zero : Bool
  sq : Nat
  gen : Nat
  rs : List Nat
  deriving DecidableEq, Repr

def Store.tileHeader (m : Store 8) (t : Nat) : Header :=
  { fmt := m.readLE (t + 8192) 1, kind := m.readLE (t + 8193) 1, vrows := m.readLE (t + 8194) 1, vcols := m.readLE (t + 8195) 1,
    zero := bit (m.readLE (t + 8196) 1) 0, sq := m.readLE (t + 8197) 1, gen := m.readLE (t + 8200) 4,
    rs := (List.range 64).map fun p => m.readLE (t + 8256 + p) 1 }

/-- The 256 header bytes (R282). -/
def Header.bytes (h : Header) : List (BitVec 8) :=
  let b (x : Nat) := BitVec.ofNat 8 x
  [b h.fmt, b h.kind, b h.vrows, b h.vcols, b (if h.zero then 1 else 0), b h.sq, 0, 0] ++ bytesLE 4 h.gen ++ List.replicate 52 0 ++
    (h.rs.map b) ++ List.replicate 128 0

/-- Whether a code is the zero of its format: ±0, or code 0 (R282). -/
def zeroCode (ty : Ty) (x : Nat) : Bool :=
  match fmtOf ty with
  | some f => x % f.signBit = 0
  | none => x % 2 ^ (8 * ty.tileBytes) = 0

/-! ### Layouts (R283, R284) -/

def i32 (x : BitVec 32) : Int := sext 32 x.toNat
def i64 (x : BitVec 64) : Int := sext 64 x.toNat

def Layout.ofNat (w : Nat) : Layout :=
  { base := BitVec.ofNat 64 w
    stride := (List.range 4).map fun d => BitVec.ofNat 32 (w >>> (64 + 32 * d))
    ext := (List.range 4).map fun d => BitVec.ofNat 32 (w >>> (192 + 32 * d))
    clipq := BitVec.ofNat 8 (w >>> 320), clipp := BitVec.ofNat 8 (w >>> 328), fmt := BitVec.ofNat 8 (w >>> 336)
    flags := BitVec.ofNat 8 (w >>> 344), sstr := BitVec.ofNat 32 (w >>> 352) }

def Layout.inScratch (l : Layout) : Bool := l.flags.getLsbD 0
def Layout.scl (l : Layout) : Bool := l.flags.getLsbD 1
/-- The storage format; FMT is checked when the layout register is loaded (R303). -/
def Layout.ty (l : Layout) : Ty := (Ty.ofCode l.fmt.toNat).getD .n8

def mod64 (x : Int) : Nat := wrap 64 x

/-- One element of a tile operation: its tile offset, indices, storage address, and validity. -/
structure Elem where
  off : Nat
  p : Nat
  q : Nat
  addr : Nat
  ok : Bool

/-- Storage coordinates' address, exact, and validity in the extents (R284). -/
def Layout.at_ (l : Layout) (base : BitVec 64) (xs : List Int) : Int × Bool :=
  let dims := xs.zip (l.stride.zip l.ext)
  (dims.foldl (fun a d => a + d.1 * i32 d.2.1) ((base.toNat : Int) + i64 l.base),
    dims.all fun d => 0 ≤ d.1 && d.1 < (d.2.2.toNat : Int))

/-- The elements of a tile under a layout (R284, R352). -/
def elems (ty : Ty) (kind : TileKind) (base : BitVec 64) (org : List Int) (ly : Layout) : List Elem :=
  let o (d : Nat) := org.getD d 0
  let clip (p q : Nat) := (ly.clipq = 0 || q < ly.clipq.toNat) && (ly.clipp = 0 || p < ly.clipp.toNat)
  match kind with
  | .cb =>
    (List.range (blocksOf ty)).flatMap fun (i : Nat) =>
      let (a, ok) := ly.at_ base [o 0 + i, o 1, o 2, o 3]
      (List.range 64).map fun e =>
        let k := e % 8
        let n := e / 8
        { off := blockOff ty i k n, p := 0, q := i, addr := mod64 (a + (n * 8 * ty.tileBytes + k * ty.tileBytes : Nat)), ok := ok && clip 0 i }
  | _ =>
    (List.range 64).flatMap fun (p : Nat) => (List.range ty.qx).map fun (q : Nat) =>
      let (a, ok) := ly.at_ base [o 0 + q, o 1 + p, o 2, o 3]
      { off := tileOff ty p q, p := p, q := q, addr := mod64 a, ok := ok && clip p q }

/-- The scale bytes of a tile operation: (p for kind A, or none for the square scale) and their addresses (R286). -/
def scaleAddrs (kind : TileKind) (scale : BitVec 64) (org : List Int) (ly : Layout) (rows : List Nat) : List (Option Nat × Nat) :=
  let o (d : Nat) := org.getD d 0
  let s : Int := scale.toNat
  if !ly.scl then []
  else match kind with
    | .a => rows.map fun p => (some p, mod64 (s + (o 1 + p) * ly.sstr.toNat + o 0 / 128))
    | _ => [(none, mod64 (s + (o 1 / 128) * ly.sstr.toNat + o 0 / 128))]

/-- R287: whether an element converts from storage format to tile format. -/
def convertible (storage tile : Ty) : Bool :=
  storage = tile || match storage, tile with
    | .f32, .l6 | .bf16, .l6 | .f16, .l6 => true
    | _, .l6 | .l6, _ => false
    | a, b => a.isFloat && b.isFloat

/-- R287, tile to storage: the same pairings with source and destination exchanged. -/
def storable (tile storage : Ty) : Bool := convertible storage tile

/-- A storage element as a tile element (R287): RNE, saturating, subnormals kept. -/
def loadElem (storage tile : Ty) (x : Nat) : Nat := if storage = tile then x else (convert false .rne true storage tile x).1

/-- A value into a tile or storage format (R287, R299, R300, R330). -/
def valTo (ty : Ty) (v : FVal) : Nat :=
  match fmtOf ty with
  | some f => (f.ofVal .rne true v).1
  | none => if ty = .l6 then (toL6 v).1 else (toInt .rne ty v).1

/-- The value of an element of a tile format. -/
def elemVal (ty : Ty) (x : Nat) : FVal :=
  if ty.isInt then let i := ty.toI x; .fin (i < 0) i.natAbs 0 else tyVal ty x

/-- A tile element as a storage element, scaled by 2^(scale − 127) (R299). -/
def storeElem (tile storage : Ty) (x scale : Nat) : Nat :=
  if scale = 255 then (match fmtOf storage with | some f => f.nanCode | none => if storage = .l6 then 0x20 else 0)
  else if scale = 127 && tile = storage then x
  else valTo storage ((elemVal tile x).scale ((scale : Int) - 127))

/-! ### Global accesses of the engines (R285, R295) -/

/-- A fault met by an engine: code, DETAIL and failing address. -/
structure EFault where
  code : BitVec 8
  detail : BitVec 128
  addr : BitVec 64
  deriving DecidableEq, Repr

/-- R256: DETAIL of fault 0x05. -/
def detail5 (reason level : Nat) (asid : BitVec 16) : BitVec 128 :=
  BitVec.ofNat 128 (reason + level * 2 ^ 8 + asid.toNat * 2 ^ 16)

/-- One line as an access meets it: its leaf, whether its seal is denied, whether it is uncorrectable. -/
structure ELine where
  va : Nat
  leaf : Leaf
  deny : Bool
  ue : Bool

/-- How an engine accesses its lines: the core, on whose behalf, whether through the core's L1 (the tile copy unit) or at the homes (a
bulk copy engine), and whether it writes. -/
structure EngMode where
  core : Nat
  asid : BitVec 16
  prin : BitVec 24
  useL1 : Bool
  write : Bool

/-- Translate and check one line of an engine's access; writes into CAPS pages are denied (R261). -/
def engLine (s : State) (m : EngMode) (va : Nat) : Except EFault ELine :=
  match s.xlate m.core m.asid va with
  | .error (r, lev) => .error { code := 0x05, detail := detail5 r lev m.asid, addr := BitVec.ofNat 64 va }
  | .ok l =>
    if !(if m.write then l.w else l.r) then .error { code := 0x06, detail := 0, addr := BitVec.ofNat 64 va }
    else
      let line := lineAddr (l.pa va)
      let granted := s.reachable m.core m.asid m.prin l m.useL1 line (!m.write) m.write
      let ue := s.isUe line
      let strict := (s.asd m.asid).strict
      if strict && !granted then .error { code := 0x17, detail := 0, addr := BitVec.ofNat 64 va }
      else if strict && ue then .error { code := 0x18, detail := 0, addr := BitVec.ofNat 64 va }
      else .ok { va := va / 128 * 128, leaf := l, deny := !granted || (m.write && l.caps), ue := ue }

/-- The first address on each line of a list of addresses. -/
def lineReps : List Nat → List Nat
  | [] => []
  | a :: r => a :: (lineReps r).filter fun b => b / 128 ≠ a / 128

/-- Check every line of a list of addresses, in order; leniently, the lines that would fault are left out. -/
def engLines (lenient : Bool) (s : State) (m : EngMode) (vas : List Nat) : Except EFault (List ELine) :=
  if lenient then .ok ((lineReps vas).filterMap fun va => match engLine s m va with | .ok l => some l | .error _ => none)
  else (lineReps vas).mapM (engLine s m)

def lineFor (ls : List ELine) (va : Nat) : Option ELine := ls.find? fun l => l.va == va / 128 * 128

/-- A byte as the core's L1 gives it, or else as its home holds it; zero where denied or uncorrectable, or where a private region is
unwritten (R225). -/
def State.engByte (s : State) (m : EngMode) (ls : List ELine) (va : Nat) : BitVec 8 :=
  match lineFor ls va with
  | none => 0
  | some e =>
    let pa := e.leaf.pa va
    if e.deny || e.ue then 0
    else
      (match (if m.useL1 && !e.leaf.noL1 then s.l1Ready m.core (lineAddr pa) else none) with
      | some l => l.data.byte (pa % 128)
      | none => if e.leaf.bypass then s.rawByte (s.asd m.asid).vf pa else s.homeByte (s.asd m.asid).vf pa) &&&
        (s.privMask m.asid va 1).setWidth 8

def State.engRead (s : State) (m : EngMode) (ls : List ELine) (va : Nat) : Nat → Nat
  | 0 => 0
  | n + 1 => (s.engByte m ls va).toNat + 256 * s.engRead m ls (va + 1) n

/-- Write one byte at its home, updating a resident line of the core's L1 when the tile copy unit writes (R245); in a private
region it is written now (R225). -/
def State.engPut (s : State) (m : EngMode) (ls : List ELine) (va : Nat) (b : BitVec 8) : State :=
  match lineFor ls va with
  | none => s
  | some e =>
    let pa := e.leaf.pa va
    if e.deny || e.ue then s
    else
      let s0 := s.markBytes m.asid va 1
      let s1 := if e.leaf.bypass then s0.rawSet (s.asd m.asid).vf pa b else s0.homeSet (s.asd m.asid).vf pa b
      if m.useL1 then s1.l1Store m.core pa 1 b.toNat false else s1

/-- Bring the lines that an engine accesses as their pages' policy says: into L2, and on a read through L1 into the core's L1 (R182, R183,
R285). -/
def State.engBring (s : State) (m : EngMode) (task : Nat) (ls : List ELine) : State :=
  ls.foldl (fun s e =>
    let vf := (s.asd m.asid).vf
    let line := lineAddr (e.leaf.pa e.va)
    if e.deny || e.ue then s
    else
      let s1 := (s.unitOf vf line e.leaf.sealId e.leaf.atMs e.leaf.policy (if m.write then .store else .load) .b32).1
      if m.write || !m.useL1 || e.leaf.noL1 || ((s1.core m.core).l1? line).isSome then s1
      else s1.l1Fill m.core
        { way := 0, line := line, data := overlay s1 m.core line (s1.homeLine vf line), sealId := e.leaf.sealId
          asid := m.asid, priv := false, task := task, dirty := 0 } e.leaf.stream) s

/-- Mark, count and log the lines an engine has accessed (R172, R179, R186). -/
def State.engNote (s : State) (m : EngMode) (task : Nat) (ls : List ELine) : State :=
  ls.foldl (fun s e =>
    let s1 := (s.touch m.core m.asid e.va m.write).noteSeal m.core m.asid m.prin e.leaf.sealId
    let here := (m.write && e.leaf.caps) || s.checksHere m.core e.leaf m.useL1 (lineAddr (e.leaf.pa e.va)) m.write
    if e.deny then s1.denied task m.asid m.prin e.va e.leaf.sealId here
    else if e.ue then s1.ueError task m.asid m.prin e.va e.leaf.sealId else s1) s

/-! ### What an operation reads and writes -/

/-- The elements that TC.STORE writes: valid, and below VROWS and VCOLS (R299). -/
def storeElems (m : Store 8) (ty : Ty) (kind : TileKind) (tile : Nat) (base : BitVec 64) (org : List Int) (ly : Layout) : List Elem :=
  let h := m.tileHeader tile
  (elems ty kind base org ly).filter fun e => e.ok && e.q < h.vcols && e.p < h.vrows

/-- The scale bytes that TC.STORE writes beside them. -/
def storeScales (es : List Elem) (kind : TileKind) (scale : BitVec 64) (org : List Int) (ly : Layout) : List (Option Nat × Nat) :=
  if es.isEmpty && kind = .a then [] else scaleAddrs kind scale org ly (distinct (es.map (·.p)))

/-- Scratch ranges (start, length) that an operation of a kernel with scratch m writes (R293). -/
def CopyOp.scrRanges (o : CopyOp) (m : Store 8) : List (Nat × Nat) :=
  match o.kind with
  | .load _ _ t _ _ _ _ => [(t, 8448)]
  | .store ty kind tile base org ly scale =>
    let es := storeElems m ty kind tile base org ly
    if ly.inScratch then es.map (fun e => (e.addr, ly.ty.tileBytes)) ++ (storeScales es kind scale org ly).map fun x => (x.2, 1) else []
  | .qnt2 _ t _ _ _ => [(t, 16896)]
  | .fillScratch d _ n => [(d, n)]
  | .fillTile _ t _ => [(t, 8448)]
  | .copy _ _ _ | .fillGlobal _ _ _ => []

/-- The tile copy unit works through the core's L1; only TC.COPY is a bulk copy engine's, which works at the homes (R245, R301). -/
def CopyOp.mode (o : CopyOp) (write : Bool) : EngMode :=
  { core := o.core, asid := o.asid, prin := o.prin, useL1 := (match o.kind with | .copy _ _ _ => false | _ => true), write := write }

/-- Scratch as an operation reads it: the bytes that another operation in flight is writing are undefined (R293). -/
def State.scrSeen (s : State) (o : CopyOp) : Store 8 :=
  let c := s.core o.core
  let m := c.scratchOf o.kernel
  let others := c.copies.filter fun p => p.started && p.id ≠ o.id && p.kernel = o.kernel
  (others.flatMap fun p => (p.scrRanges m).flatMap fun r => (List.range r.2).map (r.1 + ·)).foldl
    (fun m a => m.set a (Config.freeByte s.tick a)) m

/-- The effect of an operation: bytes to scratch in order, bytes to global memory in order, granules settled and arrival amount
at completion, the lines read and written. -/
structure CopyEffect where
  scr : List (Nat × BitVec 8)
  glob : List (Nat × BitVec 8)
  granules : Nat
  amount : Nat
  rd : List ELine
  wr : List ELine

/-- Bytes of one tile: every element's code, then the header (R298). -/
def tileBytes (m : Store 8) (t : Nat) (ty : Ty) (es : List (Nat × Nat)) (h : Header) : List (Nat × BitVec 8) :=
  let data := es.flatMap fun e => (bytesLE ty.tileBytes e.2).zipIdx.map fun b => (t + e.1 + b.2, b.1)
  data ++ ({ h with gen := (m.tileHeader t).gen + 1 }).bytes.zipIdx.map fun (b : BitVec 8 × Nat) => (t + 8192 + b.2, b.1)

def allZero (ty : Ty) (es : List (Nat × Nat)) : Bool := es.all fun e => zeroCode ty e.2

def noScales : List Nat := List.replicate 64 127

def maxPlus1 (l : List Nat) : Nat := l.foldl (fun a x => max a (x + 1)) 0

/-- R298, R352. -/
def loadEffect (lenient : Bool) (s : State) (o : CopyOp) (ty : Ty) (kind : TileKind) (tile : Nat) (base : BitVec 64) (org : List Int) (ly : Layout)
    (scale : BitVec 64) : Except EFault CopyEffect := do
  let es := elems ty kind base org ly
  let valid := es.filter (·.ok)
  let rows := distinct (valid.map (·.p))
  let n := ly.ty.tileBytes
  let sc := if valid.isEmpty && kind = .a then [] else scaleAddrs kind scale org ly rows
  let scr := s.scrSeen o
  let ls ← if ly.inScratch then pure [] else engLines lenient s (o.mode false) (valid.map (·.addr) ++ sc.map (·.2))
  let get (a k : Nat) : Nat := if ly.inScratch then scr.readLE a k else s.engRead (o.mode false) ls a k
  let data := es.map fun e => (e.off, if e.ok then loadElem ly.ty ty (get e.addr n) else 0)
  let rsOf (p : Nat) : Nat := match sc.find? fun x => x.1 == some p with | some x => get x.2 1 | none => 127
  let sq : Nat := match sc.find? fun x => x.1 == none with | some x => get x.2 1 | none => 127
  let h : Header :=
    { fmt := ty.code, kind := kind.code
      vrows := if kind = .cb then (if valid.isEmpty then 0 else 8) else maxPlus1 (valid.map (·.p))
      vcols := if kind = .cb then (distinct (valid.map (·.q))).length else maxPlus1 (valid.map (·.q))
      zero := allZero ty data, sq := sq, gen := 0, rs := (List.range 64).map rsOf }
  pure { scr := tileBytes scr tile ty data h, glob := [], granules := 1056, amount := 8448, rd := ls, wr := [] }

/-- R299: the header is checked when the operation starts. -/
def storeHeader (m : Store 8) (tile : Nat) (ty : Ty) (kind : TileKind) (lyNum : Nat) : Except EFault Header :=
  let h := m.tileHeader tile
  let f (r : Nat) : EFault := { code := 0x11, detail := BitVec.ofNat 128 (r + 256 * lyNum), addr := BitVec.ofNat 64 tile }
  if !((Ty.ofCode h.fmt).map Ty.isTile).getD false || 2 < h.kind then .error (f 7)
  else if h.fmt ≠ ty.code || h.kind ≠ kind.code then .error (f 6)
  else .ok h

def storeEffect (lenient : Bool) (s : State) (o : CopyOp) (ty : Ty) (kind : TileKind) (tile : Nat) (base : BitVec 64) (org : List Int) (ly : Layout)
    (scale : BitVec 64) : Except EFault CopyEffect := do
  let m := s.scrSeen o
  let h := m.tileHeader tile
  let es := storeElems m ty kind tile base org ly
  let n := ly.ty.tileBytes
  let code (e : Elem) : Nat := m.readLE (tile + e.off) ty.tileBytes
  let out (e : Elem) : Nat := if kind = .cb then code e
    else storeElem ty ly.ty (code e) (if ly.scl then 127 else if kind = .a then h.rs.getD e.p 127 else h.sq)
  let sc := storeScales es kind scale org ly
  let place (a k v : Nat) : List (Nat × BitVec 8) := (bytesLE k v).zipIdx.map fun (b : BitVec 8 × Nat) => ((a + b.2) % 2 ^ 64, b.1)
  let all := (es.flatMap fun e => place e.addr n (out e)) ++
    (sc.flatMap fun x => place x.2 1 (match x.1 with | some p => h.rs.getD p 127 | none => h.sq))
  if ly.inScratch then
    pure { scr := all, glob := [], granules := ceilDiv all.length 8, amount := all.length, rd := [], wr := [] }
  else
    let ls ← engLines lenient s (o.mode true) (all.map (·.1))
    pure { scr := [], glob := all, granules := ceilDiv all.length 8, amount := all.length, rd := [], wr := ls }

/-- R300: the largest target exponent. -/
def qEmax : Ty → Int
  | .e4m3 => 7 | .e5m2 => 14 | .l6 => 2 | _ => 6

/-- Unbiased exponent of the largest magnitude of a row; an infinity counts as the largest (R300). -/
def rowScale (ty : Ty) (row : List FVal) : Nat :=
  if row.any FVal.isNan then 255
  else
    let e (v : FVal) : Option Int := match v with
      | .fin _ m x => if m = 0 then none else some (x + bitLen m - 1)
      | .inf _ => some 10000
      | .nan _ => none
    match row.filterMap e with
    | [] => 127
    | x :: r => (clampTo (1, 254) (r.foldl max x - qEmax ty + 127)).toNat

/-- Address and validity of the element at row r and column c of the region that TC.QNT2 reads. -/
def qntAt (base : BitVec 64) (org : List Int) (ly : Layout) (r c : Nat) : Nat × Bool :=
  let (a, ok) := ly.at_ base [org.getD 0 0 + c, org.getD 1 0 + r, org.getD 2 0, org.getD 3 0]
  (mod64 a, ok && (ly.clipq = 0 || c < ly.clipq.toNat) && (ly.clipp = 0 || r < ly.clipp.toNat))

/-- TC.QNT2 (R300): a row that holds a NaN has the scale 0xFF, and its other elements become what R300's formula gives for s = 255 (DEDUCED,
log 114). -/
def qnt2Effect (lenient : Bool) (s : State) (o : CopyOp) (ty : Ty) (tile : Nat) (base : BitVec 64) (org : List Int) (ly : Layout) :
    Except EFault CopyEffect := do
  let n := ly.ty.tileBytes
  let at_ := qntAt base org ly
  let all := (List.range 64).flatMap fun r => (List.range 64).map fun c => at_ r c
  let m := s.scrSeen o
  let ls ← if ly.inScratch then pure [] else engLines lenient s (o.mode false) ((all.filter (·.2)).map (·.1))
  let val (r c : Nat) : FVal :=
    let (a, ok) := at_ r c
    if !ok then .fin false 0 0
    else tyVal ly.ty (if ly.inScratch then m.readLE a n else s.engRead (o.mode false) ls a n)
  let mk (t : Nat) (f : Nat → Nat → FVal) : List (Nat × BitVec 8) :=
    let rs := (List.range 64).map fun p => rowScale ty ((List.range 64).map fun q => f p q)
    let data := (List.range 64).flatMap fun p => (List.range ty.qx).map fun q =>
      (tileOff ty p q, if 64 ≤ q then 0 else valTo ty ((f p q).scale (127 - (rs.getD p 127 : Int))))
    tileBytes m t ty data
      { fmt := ty.code, kind := 0, vrows := 64, vcols := 64, zero := allZero ty data, sq := 127, gen := 0, rs := rs }
  pure { scr := mk tile val ++ mk (tile + 8448) (fun p q => val q p), glob := [], granules := 2112, amount := 16896, rd := ls, wr := [] }

/-- Byte i of the constant of TC.FILL. -/
def fillByte (c : BitVec 64) (i : Nat) : BitVec 8 := BitVec.ofNat 8 (c.toNat >>> (8 * (i % 8)))

/-- R301: overlapping destination bytes are undefined. -/
def copyEffect (lenient : Bool) (s : State) (o : CopyOp) (dst src : BitVec 64) (len : Nat) : Except EFault CopyEffect := do
  let sva (i : Nat) := (src.toNat + i) % 2 ^ 64
  let dva (i : Nat) := (dst.toNat + i) % 2 ^ 64
  let rd ← engLines lenient s (o.mode false) ((List.range len).map sva)
  let wr ← engLines lenient s (o.mode true) ((List.range len).map dva)
  let inSrc (a : Nat) : Bool := src.toNat ≤ a && a < src.toNat + len
  let out := (List.range len).map fun i =>
    (dva i, if inSrc (dva i) then Config.freeByte s.tick (dva i) else s.engByte (o.mode false) rd (sva i))
  pure { scr := [], glob := out, granules := ceilDiv len 8, amount := len, rd := rd, wr := wr }

def fillTileEffect (m : Store 8) (ty : Ty) (tile : Nat) (c : BitVec 64) : CopyEffect :=
  let x := c.toNat % 2 ^ (8 * ty.tileBytes)
  let data := (List.range 64).flatMap fun p => (List.range ty.qx).map fun q => (tileOff ty p q, x)
  { scr := tileBytes m tile ty data
      { fmt := ty.code, kind := 0, vrows := 64, vcols := ty.qx, zero := zeroCode ty x, sq := 127, gen := 0, rs := noScales }
    glob := [], granules := 1056, amount := 8448, rd := [], wr := [] }

/-- The effect of an operation that has started, or the fault it meets (R295, R298-R302); leniently, what it can still do. -/
def CopyOp.effect (lenient : Bool) (s : State) (o : CopyOp) : Except EFault CopyEffect :=
  match o.kind with
  | .load ty kind tile base org ly scale => loadEffect lenient s o ty kind tile base org ly scale
  | .store ty kind tile base org ly scale => storeEffect lenient s o ty kind tile base org ly scale
  | .qnt2 ty tile base org ly => qnt2Effect lenient s o ty tile base org ly
  | .copy dst src len => copyEffect lenient s o dst src len
  | .fillGlobal dst c len => do
    let va (i : Nat) := (dst.toNat + i) % 2 ^ 64
    let wr ← engLines lenient s (o.mode true) ((List.range len).map va)
    pure { scr := [], glob := (List.range len).map fun i => (va i, fillByte c i), granules := ceilDiv len 8, amount := len, rd := [], wr := wr }
  | .fillScratch dst c len =>
    pure { scr := (List.range len).map fun i => (dst + i, fillByte c i), glob := [], granules := ceilDiv len 8, amount := len, rd := [], wr := [] }
  | .fillTile ty tile c => pure (fillTileEffect (s.scrSeen o) ty tile c)

/-- The check at start (R295, R299). -/
def CopyOp.startFault (s : State) (o : CopyOp) : Option EFault :=
  match o.kind with
  | .store ty kind tile _ _ _ _ =>
    match storeHeader (s.scrSeen o) tile ty kind o.lyNum with
    | .error f => some f
    | .ok _ => none
  | _ => none

/-- Write bytes of a kernel's scratch on a core. -/
def Core.scrPut (c : Core) (k : KKey) (bs : List (Nat × BitVec 8)) : Core :=
  c.setScratch k (bs.foldl (fun m b => m.set b.1 b.2) (c.scratchOf k))

/-- Groups of n of a list, the last may be short; fuel bounds their number. -/
def chunks {α : Type} (n : Nat) : Nat → List α → List (List α)
  | 0, _ => []
  | _, [] => []
  | f + 1, l => l.take n :: chunks n f (l.drop n)

/-- Rows that one group touches in its fullest bank, minus 1 (R188, R296). -/
def groupConflicts (nbs : Nat) (as : List Nat) : Nat :=
  let rows := distinct (as.map (· / 128))
  ((List.range nbs).foldl (fun m b => max m (rows.filter fun r => r % nbs == b).length) 0) - 1

/-- R296: the bank conflicts of an operation's reads of storage in scratch. -/
def CopyOp.conflicts (nbs : Nat) (o : CopyOp) : Nat :=
  let count (rows : List (List Nat)) : Nat := rows.foldl (fun n r => (chunks 32 64 r).foldl (fun n g => n + groupConflicts nbs g) n) 0
  match o.kind with
  | .load ty kind _ base org ly _ =>
    if !ly.inScratch then 0
    else
      let es := (elems ty kind base org ly).filter (·.ok)
      let row (e : Elem) : Nat := match kind with | .cb => e.q | _ => e.p
      count ((List.range 128).map fun p => (es.filter fun e => row e == p).map (·.addr))
  | .qnt2 _ _ base org ly =>
    if !ly.inScratch then 0
    else count ((List.range 64).map fun r => (List.range 64).filterMap fun c =>
      let (a, ok) := qntAt base org ly r c
      if ok then some a else none)
  | _ => 0

/-- Add to a kernel's saturating conflict counter (R296). -/
def Core.addConflicts (c : Core) (k : KKey) (n : Nat) : Core :=
  if n = 0 then c
  else if c.conflicts.any fun e => e.1 == k then
    { c with conflicts := c.conflicts.map fun e => if e.1 = k then (k, BitVec.ofNat 32 (min (e.2.toNat + n) (2 ^ 32 - 1))) else e }
  else { c with conflicts := c.conflicts ++ [(k, BitVec.ofNat 32 (min n (2 ^ 32 - 1)))] }

/-- Carry an operation out to its last byte. -/
def State.copyApply (s : State) (o : CopyOp) (e : CopyEffect) : State :=
  let s1 := (s.engNote (o.mode false) o.task e.rd).engNote (o.mode true) o.task e.wr
  let s2 := s1.updCore o.core fun c =>
    (c.scrPut o.kernel e.scr).addConflicts o.kernel (o.conflicts (c.banksOf o.kernel .scratch).length)
  e.glob.foldl (fun s b => s.engPut (o.mode true) e.wr b.1 b.2) s2

/-- Whether a granule can be written: its lines, and those of its source, are accessible. -/
def CopyOp.granuleOk (o : CopyOp) (e : CopyEffect) (g : List (Nat × BitVec 8)) : Bool :=
  g.all fun b => (lineFor e.wr b.1).isSome && match o.kind with
    | .copy dst src _ => (lineFor e.rd ((src.toNat + (b.1 + (2 ^ 64 - dst.toNat)) % 2 ^ 64) % 2 ^ 64)).isSome
    | _ => true

/-- Bring the lines of an operation. -/
def State.copyBring (s : State) (o : CopyOp) (e : CopyEffect) : State :=
  (s.engBring (o.mode false) o.task e.rd).engBring (o.mode true) o.task e.wr

/-- Whether a scratch byte is one of the header of a tile that an operation writes. -/
def CopyOp.inHeader (o : CopyOp) (a : Nat) : Bool :=
  let of_ (t : Nat) : Bool := decide (t + 8192 ≤ a) && decide (a < t + 8448)
  match o.kind with
  | .load _ _ t _ _ _ _ | .fillTile _ t _ => of_ t
  | .qnt2 _ t _ _ _ => of_ t || of_ (t + 8448)
  | _ => false

/-- Stop a started operation at a granule boundary: which granules it had begun is open, and those are written and counted, no byte of
any other (R354); the data of a tile whose writing is cancelled is undefined while its header stays (R282); how many conflicts it had
counted is open (R294-R296). Answers the granules written. -/
def State.copyPartial (s : State) (o : CopyOp) : State × Nat :=
  match o.effect true s with
  | .error _ => (s, 0)
  | .ok e =>
    let key (i : Nat) := 1048576 * o.id + i
    let tile := match o.kind with | .load _ _ _ _ _ _ _ | .qnt2 _ _ _ _ _ | .fillTile _ _ _ => true | _ => false
    let begun (l : List (Nat × BitVec 8)) := (chunks 8 l.length l).zipIdx.filter fun g => Config.coin s.tick (key g.2)
    let gs := (begun e.glob).filter fun g => o.granuleOk e g.1
    let data := e.scr.filter fun b => !o.inHeader b.1
    let sg := begun data
    let scr := if sg.isEmpty then []
      else if tile then data.map fun b => (b.1, Config.freeByte s.tick (key b.1)) else sg.flatMap (·.1)
    let s1 := s.engNote (o.mode false) o.task e.rd
    let s2 := if gs.isEmpty then s1 else s1.engNote (o.mode true) o.task e.wr
    let s3 := (gs.flatMap (·.1)).foldl (fun s b => s.engPut (o.mode true) e.wr b.1 b.2) s2
    let s4 := s3.updCore o.core fun c =>
      let n := o.conflicts (c.banksOf o.kernel .scratch).length
      (c.scrPut o.kernel scr).addConflicts o.kernel (Config.pick (s.tick + key 1) % (n + 1))
    (s4, min e.granules (gs.length + sg.length))

end Sys2Proof.Machine
end

