-- ==== Sys2Proof/Machine/Engine.lean ====
section
/-! DEFINITION. The matrix engine: descriptors, steps, the arithmetic of a step and of a scale block, and the end of an operation
(spec/16_matrix.md R309-R323). -/

namespace Sys2Proof.Machine

/-! ### Descriptors (R312-R314) -/

structure Desc where
  pattern : Bool
  trans : Bool
  afmt : Nat
  bfmt : Nat
  acc : Nat
  m : Nat
  n : Nat
  k : Nat
  gctx : Nat
  p : Nat
  port : Nat
  cores : List Nat
  abase : Nat
  astr : Nat
  bbase : Nat
  bstr : Nat
  deriving DecidableEq, Repr

def Desc.of (w : BitVec 512) : Desc :=
  let b (o n : Nat) := bits w.toNat (8 * o) (8 * n)
  { pattern := bit (b 0 1) 0, trans := bit (b 0 1) 1, afmt := b 1 1, bfmt := b 2 1, acc := b 3 1 % 16, m := b 4 2, n := b 6 2
    k := b 8 4, gctx := b 12 1 % 8, p := b 13 1, port := b 14 1, cores := [b 16 2, b 18 2], abase := b 24 4, astr := b 28 4
    bbase := b 32 4, bstr := b 36 4 }

/-- Step classes (R313): K of one step and of one tile. -/
def stepClass (a b : Nat) : Option (Nat × Nat) :=
  let fp8 (x : Nat) := x = 7 || x = 8
  let int8 (x : Nat) := x = 12 || x = 13
  let half (x : Nat) := x = 5 || x = 6
  if fp8 a && fp8 b then some (8, 128)
  else if int8 a && int8 b then some (8, 128)
  else if half a && half b then some (4, 64)
  else if a = 9 && b = 9 then some (16, 128)
  else none

def Desc.ks (d : Desc) : Nat := ((stepClass d.afmt d.bfmt).map (·.1)).getD 8
def Desc.qx (d : Desc) : Nat := ((stepClass d.afmt d.bfmt).map (·.2)).getD 128
def Desc.aty (d : Desc) : Ty := (Ty.ofCode d.afmt).getD .e4m3
def Desc.bty (d : Desc) : Ty := (Ty.ofCode d.bfmt).getD .e4m3
def Desc.mt (d : Desc) : Nat := d.m / 64
def Desc.nt (d : Desc) : Nat := d.n / 64
def Desc.kt (d : Desc) : Nat := ceilDiv d.k d.qx
/-- Tiles of the result per member (R314). -/
def Desc.share (d : Desc) : Nat := ceilDiv (d.mt * d.nt) d.p
def Desc.first (d : Desc) : Nat := d.port * d.share
/-- Number of tiles in the portion. -/
def Desc.tiles (d : Desc) : Nat := min ((d.port + 1) * d.share) (d.mt * d.nt) - d.first
/-- The dense bound S that MX.ARM reserves (R321). -/
def Desc.bound (d : Desc) : Nat := d.tiles * ceilDiv d.k d.ks
/-- Scale blocks of one tile (R315). -/
def Desc.nb (d : Desc) : Nat := ceilDiv d.k 128
/-- The accumulator tiles of the portion, as a mask. -/
def Desc.tileMask (d : Desc) : BitVec 16 :=
  (List.range d.tiles).foldl (fun m i => m ||| ((1 : BitVec 16) <<< (d.acc + i))) 0

/-- Whether a descriptor is malformed, reason 0x05 (R313), the comparison with the pattern's size apart. -/
def Desc.malformed (d : Desc) : Bool :=
  (stepClass d.afmt d.bfmt).isNone || !(d.m = 64 || d.m = 128 || d.m = 192 || d.m = 256) ||
  d.n % 64 ≠ 0 || d.n = 0 || 384 < d.n || d.k = 0 || 2 ^ 24 ≤ d.k || d.k % d.ks ≠ 0 ||
  (d.trans && !d.pattern) || (d.pattern && !(d.afmt = 7 || d.afmt = 8 || d.afmt = 12 || d.afmt = 13))

/-- Whether a descriptor breaks a limit, reason 0x06 (R313); so does a P above 2, which R313 names in neither list (DESIGN CHOICE, log 95). -/
def Desc.beyond (d : Desc) (core : Nat) : Bool :=
  2 < d.p || 16 * d.p < d.mt * d.nt || d.p ≤ d.port || 16 < d.acc + d.tiles || d.cores.getD d.port 0 ≠ core ||
  (d.p = 2 && (d.cores.getD 0 0 = d.cores.getD 1 0 || dieOf (d.cores.getD 0 0) ≠ dieOf (d.cores.getD 1 0))) ||
  (d.pattern && d.p ≠ 1)

/-- Whether K and N are the pattern's size in elements, exchanged under TRANS (R313). -/
def Desc.fits (d : Desc) (p : Program) : Bool :=
  if d.trans then d.k = 8 * p.nbc && d.n = 8 * p.kbc else d.k = 8 * p.kbc && d.n = 8 * p.nbc

/-! ### Steps (R315, R317, R341) -/

/-- A step: the index of its tile in the portion, its scale block counted over the portion, and what it multiplies. -/
inductive StepKind where
  | dense (kstep : Nat)
  | pat (st : PStep)
  deriving DecidableEq, Repr

structure MStep where
  tile : Nat
  block : Nat
  kind : StepKind
  deriving DecidableEq, Repr

/-- The steps of a pattern operation's portion. -/
def Desc.patSteps (d : Desc) (prog : Option Program) : List MStep :=
  match prog with
  | none => []
  | some p => (p.steps d.trans d.mt d.nt).map fun st =>
      let tile := st.mi * d.nt + st.nj
      { tile := tile, block := tile * d.nb + st.kb / 16, kind := .pat st }

def Desc.stepCount (d : Desc) (prog : Option Program) : Nat :=
  if d.pattern then (d.patSteps prog).length else d.tiles * (d.k / d.ks)

def Desc.stepAt (d : Desc) (prog : Option Program) (i : Nat) : Option MStep :=
  if d.pattern then (d.patSteps prog)[i]?
  else
    let per := d.k / d.ks
    if d.tiles * per ≤ i then none
    else some { tile := i / per, block := (i / per) * d.nb + (i % per) * d.ks / 128, kind := .dense (i % per) }

/-! ### Operand tiles -/

/-- Operand scratch as an operation sees it: bytes written between the first signature and MX.WAIT are undefined, and bytes not fenced
before their writer's signature may read as they were before (R245, R320). -/
structure Operand where
  tick : Nat
  mem : Store 8
  stale : Store 9
  taint : Store 1

/-- A byte of it, as it was or as it is. -/
def Operand.byte (o : Operand) (old : Bool) (a : Nat) : BitVec 8 :=
  if o.taint.get a = 1 then Config.freeByte o.tick a
  else if old && o.stale.get a ≠ 0 then (o.stale.get a).setWidth 8 else o.mem.get a

def Operand.bytes (o : Operand) (old : Bool) (a : Nat) : Nat → Nat
  | 0 => 0
  | n + 1 => (o.byte old a).toNat + 256 * o.bytes old (a + 1) n

/-- One element: all of it as it was, or all of it as it is (R245). -/
def Operand.read (o : Operand) (a n : Nat) : Nat := o.bytes (Config.coin o.tick (2 ^ 24 + a)) a n

/-- The scratch whose headers and flags the operation reads. -/
def Operand.view (o : Operand) : Store 8 :=
  let now (m : Store 8) (a : Nat) : Store 8 := m.set a (o.byte (Config.coin o.tick (2 ^ 24 + a)) a)
  (o.taint.map (·.1)).foldl now ((o.stale.map (·.1)).foldl now o.mem)

def Desc.aTile (d : Desc) (mi kt : Nat) : Nat := d.abase + (mi * d.kt + kt) * d.astr
def Desc.bTile (d : Desc) (nj kt : Nat) : Nat := d.bbase + (nj * d.kt + kt) * d.bstr
def Desc.cTile (d : Desc) (i : Nat) : Nat := d.bbase + i * d.bstr

/-- The exact product of two elements (R316). -/
def product (ta tb : Ty) (x y : Nat) : FVal :=
  if ta = .l6 then l6Mul x y else ((elemVal ta x).mul (elemVal tb y)).1

/-- One level of the sum tree (R315). -/
def treeLevel : List FVal → List FVal
  | a :: b :: r => a40Val (a40Node a b) :: treeLevel r
  | l => l

/-- The sum tree over the products of a step: fuel counts its levels. -/
def treeSum : Nat → List FVal → FVal
  | 0, l => l.headD (.fin false 0 0)
  | n + 1, l => match l with
    | [] => .fin false 0 0
    | [v] => v
    | l => treeSum n (treeLevel l)

/-- P + Tree rounded to odd. -/
def accumulate (p : A40) (prods : List FVal) : A40 := a40Node (a40Val p) (treeSum 5 prods)

/-- Element (m, k) of row block mi. -/
def Desc.aElem (d : Desc) (o : Operand) (mi m k : Nat) : Nat :=
  o.read (d.aTile mi (k / d.qx) + tileOff d.aty m (k % d.qx)) d.aty.tileBytes

/-- Element (k, n) of column block nj of a dense B. -/
def Desc.bElem (d : Desc) (o : Operand) (nj k n : Nat) : Nat :=
  o.read (d.bTile nj (k / d.qx) + tileOff d.bty n (k % d.qx)) d.bty.tileBytes

/-- Element (k, n) of compacted block b, exchanged under TRANS (R317). -/
def Desc.cElem (d : Desc) (o : Operand) (b k n : Nat) : Nat :=
  let (k, n) := if d.trans then (n, k) else (k, n)
  o.read (d.cTile (b / 128) + blockOff d.bty (b % 128) k n) d.bty.tileBytes

/-- One step added into the block sum P (R315, R317). -/
def Desc.stepSum (d : Desc) (o : Operand) (st : MStep) (p : Store 40) : Store 40 :=
  let t := d.first + st.tile
  let mi := t / d.nt
  let nj := t % d.nt
  match st.kind with
  | .dense ks =>
    let k0 := ks * d.ks
    (List.range 64).foldl (fun p m => (List.range 64).foldl (fun p n =>
      p.set (64 * m + n) (accumulate (p.get (64 * m + n)) ((List.range d.ks).map fun j =>
        product d.aty d.bty (d.aElem o mi m (k0 + j)) (d.bElem o nj (k0 + j) n)))) p) p
  | .pat s =>
    (List.range 64).foldl (fun p m => s.blocks.foldl (fun p b => (List.range 8).foldl (fun p c =>
      let n := (8 * b.1 + c) % 64
      p.set (64 * m + n) (accumulate (p.get (64 * m + n)) ((List.range 8).map fun j =>
        product d.aty d.bty (d.aElem o mi m (8 * s.kb + j)) (d.cElem o b.2 j c)))) p) p) p

/-- A scale byte: RSCALE of row m, or SQSCALE. -/
def Operand.rscale (o : Operand) (tile m : Nat) : Nat := o.read (tile + 8256 + m) 1
def Operand.sqscale (o : Operand) (tile : Nat) : Nat := o.read (tile + 8197) 1

/-- A block sum scaled by 2^(sa + sb − 254); a scale of 0xFF makes it NaN (R315, R316). -/
def scaled (p : A40) (sa sb : Nat) : FVal := if sa = 255 || sb = 255 then .nan false else (a40Val p).scale ((sa : Int) + sb - 254)

/-- Add the block sum of scale block lb (counted over the portion) into its accumulator tile. -/
def Desc.closeBlock (d : Desc) (o : Operand) (lb : Nat) (p acc : Store 40) : Store 40 :=
  let t := d.first + lb / d.nb
  let mi := t / d.nt
  let nj := t % d.nt
  let kt := 128 * (lb % d.nb) / d.qx
  let at_ := d.aTile mi kt
  let sb := o.sqscale (if d.pattern then d.cTile 0 else d.bTile nj kt)
  (List.range 64).foldl (fun acc m =>
    let sa := o.rscale at_ m
    (List.range 64).foldl (fun acc n =>
      acc.set (64 * m + n) (a40Node (a40Val (acc.get (64 * m + n))) (scaled (p.get (64 * m + n)) sa sb))) acc) acc

/-! ### The running operation -/

/-- The program that a pattern operation takes from its context. -/
def Core.progOf (c : Core) (d : Desc) : Option Program :=
  if d.pattern then (match (c.gen d.gctx).program with | .ok p => some p | .error _ => none) else none

def Core.setTile (c : Core) (i : Nat) (m : Store 40) : Core := { c with tiles := listUpd c.tiles i fun _ => m }
def Core.setCv (c : Core) (i : Nat) (f : Cv → Cv) : Core := { c with cvs := listUpd c.cvs i f }
def Core.setGen (c : Core) (i : Nat) (f : GCtx → GCtx) : Core := { c with gens := listUpd c.gens i f }

/-- Scale blocks from lb to hi − 1 that hold no step any more: the first with sum P, the others with +0. A tile that the arming task has
released takes no sum (R310). -/
def Core.closeBlocks (c : Core) (armer : Nat) (d : Desc) (o : Operand) (p : Store 40) (lb hi : Nat) : Core :=
  (List.range (hi - lb)).foldl (fun c i =>
    let tile := d.acc + (lb + i) / d.nb
    if c.tileOwner.getD tile none = some armer then
      c.setTile tile (d.closeBlock o (lb + i) (if i = 0 then p else []) (c.tile tile))
    else c) c

/-- The operand tiles of a portion: A tiles with kind 0, dense B with kind 1, compacted with kind 2 (R320). -/
def Desc.operandTiles (d : Desc) (prog : Option Program) : List (Bool × Nat) :=
  let mis := distinct ((List.range d.tiles).map fun i => (d.first + i) / d.nt)
  let njs := distinct ((List.range d.tiles).map fun i => (d.first + i) % d.nt)
  let kts := List.range d.kt
  (mis.flatMap fun mi => kts.map fun kt => (true, d.aTile mi kt)) ++
    (if d.pattern then
      let blocks := match prog with | some p => p.forward.length | none => 0
      (List.range (ceilDiv blocks 128)).map fun i => (false, d.cTile i)
    else njs.flatMap fun nj => kts.map fun kt => (false, d.bTile nj kt))

/-- The header check at start (R320, R343). -/
def Desc.headersOk (d : Desc) (m : Store 8) (prog : Option Program) : Bool :=
  (d.operandTiles prog).all fun x =>
    let h := m.tileHeader x.2
    if x.1 then h.fmt = d.afmt && h.kind = 0
    else h.fmt = d.bfmt && h.kind = (if d.pattern then 2 else 1) && (!d.pattern || h.sq = (m.tileHeader (d.cTile 0)).sq)

/-- Whether every data element of a tile is zero, recomputed from its data (R318). -/
def recomputedZero (m : Store 8) (ty : Ty) (t : Nat) : Bool :=
  (List.range (8192 / ty.tileBytes)).all fun i => zeroCode ty (m.readLE (t + i * ty.tileBytes) ty.tileBytes)

/-- Whether a step is skipped: the ZERO flags of the tiles it reads, recomputed where ZEROCHK.EN is set (R318). -/
def Desc.skips (d : Desc) (m : Store 8) (recompute : Bool) (st : MStep) : Bool :=
  let z (ty : Ty) (t : Nat) : Bool := if recompute then recomputedZero m ty t else (m.tileHeader t).zero
  let t := d.first + st.tile
  match st.kind with
  | .dense ks => z d.aty (d.aTile (t / d.nt) (ks * d.ks / d.qx)) || z d.bty (d.bTile (t % d.nt) (ks * d.ks / d.qx))
  | .pat s => z d.aty (d.aTile (t / d.nt) (8 * s.kb / d.qx)) || s.blocks.all fun b => z d.bty (d.cTile (b.2 / 128))

/-- Tiles whose recomputed flag differs from the header (R318). -/
def Desc.zeroDiffs (d : Desc) (m : Store 8) (prog : Option Program) : Nat :=
  ((d.operandTiles prog).filter fun x => recomputedZero m (if x.1 then d.aty else d.bty) x.2 != (m.tileHeader x.2).zero).length

/-- The steps skipped, decided when the operation starts, as a list of flags by position. -/
def Desc.skipList (d : Desc) (m : Store 8) (prog : Option Program) (recompute : Bool) : List Bool :=
  (List.range (d.stepCount prog)).map fun i => match d.stepAt prog i with | some st => d.skips m recompute st | none => false

/-- The generator cursor of an operation that has passed pos steps: it names the next, or behind the last one the end, with every block
counted (R340, R344, R345). -/
def Core.cursorAt (c : Core) (d : Desc) (pos : Nat) : Core :=
  if !d.pattern || pos = 0 then c
  else match c.progOf d, d.stepAt (c.progOf d) pos with
    | some p, some { tile := t, block := _, kind := .pat st } =>
      let b := match st.blocks with | [] => (0, 0) | b :: _ => b
      let outer := st.kb
      let first := ((p.blocks d.trans).find? fun x => x.outer d.trans == outer).map (·.first)
      c.setGen d.gctx fun g =>
        { g with outer := BitVec.ofNat 32 outer, inner := BitVec.ofNat 32 b.1, rowoff := BitVec.ofNat 24 (first.getD 0)
                 count := BitVec.ofNat 24 st.count, state := 2, trans := d.trans, tile := BitVec.ofNat 16 t }
    | some p, none => match d.stepAt (c.progOf d) (pos - 1) with
      | some { tile := _, block := _, kind := .pat st } => c.setGen d.gctx fun g =>
        { g with outer := BitVec.ofNat 32 (if d.trans then p.nbc else p.kbc), inner := 0
                 count := BitVec.ofNat 24 (st.count + st.blocks.length), state := 2, trans := d.trans }
      | _ => c
    | _, _ => c

/-- What one step of the running operation does: the next position, or its end. -/
inductive StepResult where
  | more (c : Core)
  | last (c : Core)
  | bad (b : Blk) (c : Core)

/-- Execute the step at POS of register i (R315, R317, R318, R342); a block that cannot be delivered ends the scale block there. -/
def mxStep1 (tick : Nat) (c : Core) (i : Nat) (mem : Store 8) : StepResult :=
  let v := c.cv i
  let d := Desc.of v.desc
  let prog := c.progOf d
  let total := d.tiles * d.nb
  match d.stepAt prog v.pos.toNat with
  | none => .last c
  | some st =>
    let o : Operand := { tick := tick, mem := mem, stale := v.stale, taint := v.taint }
    let bad : Option Blk := match st.kind with | .pat s => s.bad d.trans | .dense _ => none
    match bad with
    | some b =>
      let before : Bool := match d.stepAt prog (v.pos.toNat - 1) with | some a => v.pos != 0 && a.block == st.block | none => false
      let closed : Core := (c.closeBlocks v.armer d o v.block st.block (st.block + 1)).setCv i (fun v => { v with block := [] })
      .bad b (bif before then closed else c)
    | none =>
      let skip := v.skip.getD v.pos.toNat false
      let p := if skip then v.block else d.stepSum o st v.block
      let next : Nat := match d.stepAt prog (v.pos.toNat + 1) with | some s => s.block | none => total
      let closes : Bool := Nat.blt st.block next
      let c1 := if closes then c.closeBlocks v.armer d o p st.block next else c
      let c2 := (c1.setCv i fun v =>
        { v with pos := v.pos + 1, executed := if skip then v.executed else v.executed + 1
                 block := if closes then [] else p }).cursorAt d (v.pos.toNat + 1)
      if (d.stepAt prog (v.pos.toNat + 1)).isNone then .last c2 else .more c2

/-- Whether a started operation stands at a boundary that closes a scale block or a tile (R321). -/
def Core.atBoundary (c : Core) (i : Nat) : Bool :=
  let v := c.cv i
  let d := Desc.of v.desc
  let prog := c.progOf d
  v.pos = 0 || match d.stepAt prog (v.pos.toNat - 1), d.stepAt prog v.pos.toNat with
    | some a, some b => a.block < b.block
    | _, _ => true

/-- Steps of a started operation that have been added into its tiles: those executed, but for the ones of a scale block still open
(R97, R218, R315). -/
def Core.added (c : Core) (i : Nat) : Nat :=
  let v := c.cv i
  let d := Desc.of v.desc
  let prog := c.progOf d
  let pos := v.pos.toNat
  let blockOf (k : Nat) : Option Nat := (d.stepAt prog k).map (·.block)
  if c.atBoundary i then v.executed
  else v.executed - ((List.range (min 32 pos)).filter fun k =>
    blockOf (pos - 1 - k) == blockOf (pos - 1) && !v.skip.getD (pos - 1 - k) false).length

/-- Run a started operation to the boundary of R321, at most 32 steps away. -/
def toBoundary (tick : Nat) (i : Nat) (mem : Store 8) : Nat → Core → Core
  | 0, c => c
  | n + 1, c =>
    if c.atBoundary i then c
    else match mxStep1 tick c i mem with
      | .more c' => toBoundary tick i mem n c'
      | .last c' => c'
      | .bad _ c' => c'

/-! ### Tiles and the end of an operation -/

/-- Release a tile: it becomes +0 and has no owner (R310). -/
def Core.freeTile (c : Core) (i : Nat) : Core :=
  { c with tiles := listUpd c.tiles i fun _ => [], tileOwner := listUpd c.tileOwner i fun _ => none
           unwaited := c.unwaited &&& ~~~((1 : BitVec 16) <<< i) }

/-- A task owns a tile from its first naming of it (R310). -/
def Core.claimTile (c : Core) (i task : Nat) : Core := { c with tileOwner := listUpd c.tileOwner i fun _ => some task }

def Core.ownedBy (c : Core) (task : Nat) : List Nat :=
  (List.range 16).filter fun i => c.tileOwner.getD i none == some task

/-- Settle a reservation (R97). -/
def Task.settle (t : Task) (reserved actual : Nat) : Task :=
  { t with held := t.held - BitVec.ofNat 64 reserved, alw := t.alw + BitVec.ofNat 64 (reserved - actual) }

/-- Write the final status into the record of every task that armed or signed the epoch, with the operand tiles, which stay undefined until its
MX.WAIT (R245, R320). -/
def Task.mxFinal (t : Task) (core cv : Nat) (epoch : BitVec 16) (ops : List Nat) (e : MxEnd) : Task :=
  { t with mxRecs := t.mxRecs.map fun r =>
      if r.core = core && r.cv = cv && r.epoch = epoch && r.fin.isNone then { r with fin := some e, ops := ops } else r }

/-- A context at the end of the operation that names it (R344). -/
def GCtx.done (g : GCtx) : GCtx := { g with busy := false, state := if g.state = 0 then 0 else 3 }

/-- The end of a pattern operation's use of its context: the core's where the arming task owns it, else the one that the arming task's saved
context holds (R213, R344). -/
def State.genDone (s : State) (core armer : Nat) (d : Desc) : State :=
  if !d.pattern then s
  else if ((s.core core).gen d.gctx).owner = some armer then s.updCore core fun c => c.setGen d.gctx GCtx.done
  else s.updTask armer fun t =>
    { t with saved := t.saved.map fun sv => { sv with gens := sv.gens.map fun p => if p.1 = d.gctx then (p.1, p.2.done) else p } }

/-- End the operation of register i with a final status: settle, record, clear BUSY, IDLE. The arming task's tiles of an operation that was
issued are to be waited for (R311, R320, R321, R344). -/
def State.mxEnd (s : State) (core i : Nat) (e : MxEnd) : State :=
  let v := (s.core core).cv i
  let d := Desc.of v.desc
  let s1 := s.updTask v.armer fun t => t.settle v.reserved.toNat v.executed
  let ops := if v.signers.isEmpty then [] else (d.operandTiles ((s.core core).progOf d)).map (·.2)
  let s2 := { s1 with tasks := s1.tasks.map fun (t : Task) => t.mxFinal core i v.epoch ops e }
  (s2.genDone core v.armer d).updCore core fun c =>
    let c1 := c.setCv i fun v =>
      { v with state := .idle, started := false, block := [], gate := none, ended := some e, stale := [], taint := [] }
    let left := (List.range 16).filter fun j => d.tileMask.getLsbD j && c.tileOwner.getD j none == some v.armer && v.need ≤ v.signers.length
    { c1 with
      running := if c1.running = some i then none else c1.running
      unwaited := left.foldl (fun m j => m ||| ((1 : BitVec 16) <<< j)) c1.unwaited }

/-- Stop the operation of register i at its boundary and end it (R321, R333). -/
def State.mxStop (s : State) (core i : Nat) (e : MxEnd) : State :=
  let c := s.core core
  let v := c.cv i
  if v.state = .idle then s
  else
    let kern := ((s.task? v.armer).map (·.kkey)).getD 0
    let s1 := if v.state = .issued && v.started then s.updCore core fun c => toBoundary s.tick i (c.scratchOf kern) 64 c else s
    s1.mxEnd core i e

end Sys2Proof.Machine
end

