-- ==== Sys2Proof/Machine/Ops.lean ====
section
/-! DEFINITION. The shared operations: lanes that arrive, park and are released; capsule cells; TAKING A FAULT and the return from
one; scratch writes and arrival words; the account and the issue of an instruction; joins, plies, and the stop of a task
(spec/04_control.md R71-R80, spec/05_tasks.md R93-R106, R114-R120, spec/09_system.md R198-R205, spec/13_capsules.md R259-R265). -/

namespace Sys2Proof.Machine

/-! ### Lanes (R71 steps 5 to 7) -/

/-- Lanes of a mask standing at their meeting point park (R78). -/
def Task.arrive (t : Task) (m : Mask) : Task :=
  t.onLanes m fun _ x =>
    if x.meetValid && !x.exited && x.park = .none && x.depth = x.meetDepth && x.pc = x.meetAddr then { x with park := .meeting } else x

/-- Whether some unexited lane that is not parked at a meeting holds the meeting value (d, a) (R79). -/
def Task.heldBack (t : Task) (d : BitVec 8) (a : BitVec 32) : Bool :=
  t.lanes.any fun x => !x.exited && x.meetValid && x.park ≠ .meeting && x.meetDepth = d && x.meetAddr = a

/-- Release the lanes of every meeting that nobody holds back (R79). -/
def Task.releaseMeets (t : Task) : Task :=
  { t with lanes := t.lanes.map fun x =>
      if x.park = .meeting && !t.heldBack x.meetDepth x.meetAddr then { x with park := .none, meetValid := false } else x }

/-- Unexited, unparked lanes. -/
def Task.running (t : Task) : Mask := t.laneMask fun x => !x.exited && x.park = .none

/-- Lanes leave O when they issue, park or exit; an empty O, or no runnable lane outside D, empties D (R76). -/
def Task.leaveSets (t : Task) (issued : Mask) : Task :=
  let o := t.oset &&& t.running &&& ~~~issued
  let d := t.dset &&& t.unexited
  if o = 0 || t.running &&& ~~~d = 0 then { t with dset := 0, oset := 0 } else { t with dset := d, oset := o }

/-- R76: defer the issuing group. -/
def Task.defer (t : Task) (group : Mask) : Task :=
  let d := t.dset ||| group
  { t with dset := d, oset := t.running &&& ~~~d, bbc := 0 }

/-- Steps 5 to 7 of R71 for the lanes that issued. -/
def Task.settleLanes (t : Task) (issued : Mask) : Task := ((t.arrive issued).leaveSets issued).releaseMeets

def Task.advance (t : Task) (m : Mask) (len : Nat) : Task := t.onLanes m fun _ x => { x with pc := x.pc + BitVec.ofNat 32 len }

def Task.parkLanes (t : Task) (m : Mask) (p : Park) : Task := t.onLanes m fun _ x => { x with park := p }

/-- Park a group on a wait. -/
def Task.hold (t : Task) (w : Wait) (p : Park) : Task := { t.parkLanes w.lanes p with waits := t.waits ++ [w] }

def Task.credit (t : Task) (a : BitVec 64) : Task := { t with alw := t.alw + a }

/-- End a wait: its lanes run on behind the instruction. -/
def Task.wake (t : Task) (w : Wait) : Task :=
  let t1 : Task := { t with waits := t.waits.filter (· ≠ w) }
  (((t1.parkLanes w.lanes .none).advance w.lanes w.len.toNat).arrive w.lanes).leaveSets 0 |>.releaseMeets

/-! ### Capsule cells (R258-R265) -/

def ownerWord (owner state step : Nat) : Nat := owner % 2 ^ 32 + state * 2 ^ 48 + step % 256 * 2 ^ 56

/-- Write OWNER in one write of its line (R186). -/
def State.setOwner (s : State) (vf pa owner state step : Nat) : State := (s.memRead vf (lineAddr pa)).homeWrite vf pa 8 (ownerWord owner state step)

def State.lease (s : State) (pa : Nat) : State :=
  { s with leases := (s.leases.filter fun l => l.1 ≠ pa) ++ [(pa, s.clock + BitVec.ofNat 64 Config.leaseCycles)] }

def State.dropLease (s : State) (pa : Nat) : State := { s with leases := s.leases.filter fun l => l.1 ≠ pa }

def CapStage.serving : CapStage → Bool
  | .own _ | .adopt _ => true
  | _ => false

/-- Capsule lanes of a task, those of a withdrawn CAP.ENTER included. -/
def Task.capLanes (t : Task) : List CapLane :=
  (t.waits ++ t.replayCap).flatMap fun w => match w.kind with | .capEnter _ _ ls => ls | _ => []

/-- Change the lanes of every CAP.ENTER of a task. -/
def Task.onCaps (t : Task) (f : CapLane → CapLane) : Task :=
  let g (w : Wait) : Wait := match w.kind with
    | .capEnter d st ls => { w with kind := .capEnter d st (ls.map f) }
    | _ => w
  { t with waits := t.waits.map g, replayCap := t.replayCap.map g }

/-- R264: every HELD cell of a stopping task becomes ORPHAN; a step in progress is abandoned. -/
def State.orphan (s : State) (tid : Nat) : State :=
  match s.task? tid with
  | none => s
  | some t =>
    let vf := (s.asd t.asid).vf
    (t.capLanes.foldl (fun s l =>
      let c := s.cell vf l.cell
      if l.stage.serving && c.state = 1 && c.owner = tid then (s.setOwner vf l.cell tid 2 c.step).dropLease l.cell else s) s).updTask
        tid fun t => t.onCaps fun l => { l with mark := none }

/-- R267, R272: a task that runs again takes back its ORPHAN cells, or finds itself displaced; an adopter whose cell was taken
keeps its place. -/
def State.capReturn (s : State) (tid : Nat) : State :=
  match s.task? tid with
  | none => s
  | some t =>
    let vf := (s.asd t.asid).vf
    let again (s : State) (l : CapLane) : CapStage :=
      let c := s.cell vf l.cell
      match l.stage with
      | .own e => if (c.state = 1 || c.state = 2) && c.owner = tid && c.count = e.toNat then .own e else .displaced e
      | .adopt e => if (c.state = 1 || c.state = 2) && c.owner = tid && c.count = e.toNat then .adopt e else .waiting
      | x => x
    let s1 := t.capLanes.foldl (fun s l =>
      let c := s.cell vf l.cell
      if l.stage.serving && c.state = 2 && c.owner = tid && (again s l).serving then (s.setOwner vf l.cell tid 1 c.step).lease l.cell else s) s
    s1.updTask tid fun t => { t with waits := t.waits.map fun w => match w.kind with
      | .capEnter d st ls => { w with kind := .capEnter d st (ls.map fun l => { l with stage := again s1 l }) }
      | _ => w }

/-! ### Taking a fault, and the return from one (R22, R199-R205) -/

/-- A fault record of a task (R200). -/
def Task.record (t : Task) (code : BitVec 8) (pc : BitVec 32) (gmask lmask : Mask) (addr : BitVec 64) (detail : BitVec 128)
    (deferred replayed : Bool) : FaultRec :=
  { code := code, slot := BitVec.ofNat 6 t.slot, deferred := deferred, replayed := replayed
    low := BitVec.ofNat 8 ((lowest? lmask).getD 0), depth := (t.lane ((lowest? gmask).getD 0)).depth
    pc := pc, lmask := lmask, addr := addr, alw := t.alw, held := t.held, gmask := gmask, detail := detail }

/-- Write a record at FQTAIL mod 128 of a core's ring, then advance FQTAIL (R202). -/
def State.pushRecord (s : State) (core : Nat) (r : FaultRec) : State :=
  s.updCore core fun c => { c with ring := listUpd c.ring (c.fqTail.toNat % 128) (fun _ => r), fqTail := c.fqTail + 1 }

/-- TAKING A FAULT: the task's cells become ORPHAN, its record enters the ring of its core, the group parks, which takes its lanes out
of O (R76), and the task stops for its supervisor; PC and account stand as before the instruction (R22, R199, R202, R264). -/
def State.takeFault (s : State) (tid : Nat) (r : FaultRec) : State :=
  match s.task? tid with
  | none => s
  | some t =>
    ((s.orphan tid).pushRecord t.core r).updTask tid fun t =>
      let t1 := t.onLanes r.gmask fun _ x => if x.park = .none then { x with park := .fault } else x
      { t1.leaveSets 0 with fault := some r }

/-- RETURN FROM A FAULT: the record is withdrawn and the parked lanes run again from the lane state as it stands (R205). -/
def Task.clearFault (t : Task) : Task :=
  { t with fault := none, fetchFault := false, escalated := false, werr := false
           lanes := t.lanes.map fun x => if x.park = .fault then { x with park := .none } else x }

/-- Stopped for the supervisor: FAULT, HALTED or SUSPENDED (R203). -/
def Task.insp (t : Task) : Bool := t.fault.isSome || t.halted || t.suspended

/-- A task that may issue. -/
def Task.canIssue (t : Task) : Bool :=
  t.isPlaced && !t.insp && t.saving.isNone && !t.paused && t.stop.isNone && t.pendingReplays.isEmpty && t.deferred.isEmpty &&
  t.deferredCopies.isEmpty

/-- An LDA of the task has not returned to every lane: no later access of the task performs before its acquire (R254). -/
def Task.acquiring (t : Task) : Bool := t.outs.any fun o => o.acq.isSome

/-! ### Scopes (R237) -/

/-- The acquire of a scope: die and above, and ply, drop every global line of the core's L1. -/
def State.acquire (s : State) (core : Nat) (sc : Scope) : State :=
  match sc with
  | .task | .core => s
  | _ => s.dropGlobal core

/-- The acquire of a task; one that is not placed holds no line in any L1. -/
def State.acquireOf (s : State) (t : Task) (sc : Scope) : State := if t.isPlaced then s.acquire t.core sc else s

/-- Whether a release at a scope waits for a store's home to acknowledge it (R237). -/
def State.inScope (s : State) (sc : Scope) (r : Req) : Bool :=
  r.kind = .store && (match sc, s.zone r.line with
    | .task, _ | .core, _ => false
    | .system, _ => true
    | .domain, z => z ≠ .host
    | _, z => z = .hbm || z = .reserved)

/-- Loads and atomics of a task; a prefetch orders nothing. -/
def Req.own (r : Req) (tid : Nat) : Bool := r.task == tid && (match r.kind with | .load | .atomic _ | .cas => true | _ => false)

/-- The stores that parked STLs of a task will send. -/
def Task.parkedStores (t : Task) : List Req :=
  t.waits.flatMap fun w => match w.kind with | .stl _ _ send => send | _ => []

/-- What a release by a task waits for besides its core's requests: the stores of parked STLs, what a deferred fault or a save holds back,
neither of which has even updated L1 (R237), and the stores in scope of cores that it ran on before (R241). -/
def State.heldBack (s : State) (t : Task) (sc : Scope) : List Nat :=
  (t.parkedStores ++ t.deferred ++ t.pendingReplays.flatMap (·.stores)).map (·.id) ++
    (s.reqs.filter fun r => t.carried.contains r.id && s.inScope sc r).map (·.id)

/-- Numbers of the requests that a release by a task of a core at a scope waits for: the stores in scope that the core has sent, the task's
loads and atomics in flight, which the release orders as well (R241), and what is held back from the core (R237, R253). -/
def State.releaseSet (s : State) (core tid : Nat) (sc : Scope) : List Nat :=
  (s.reqs.filter fun r => (r.core == core && s.inScope sc r) || r.own tid).map (·.id) ++
    match s.task? tid with | some t => s.heldBack t sc | none => []

/-- Whether some of these requests is still to perform: in flight, or held back by a parked STL, a deferred fault or a pending replay. -/
def State.unperformed (s : State) (ids : List Nat) : Bool :=
  ids.any fun i => s.reqs.any (fun r => r.id == i) || s.tasks.any fun t =>
    t.parkedStores.any (fun r => r.id == i) || t.deferred.any (fun r => r.id == i) ||
    t.pendingReplays.any fun p => p.stores.any fun r => r.id == i

/-! ### Scratch writes and arrival words (R289, R290) -/

/-- Whether an arrival word has reached a generation. -/
def reached (m : Store 8) (word : Nat) (gen : BitVec 32) : Bool := (BitVec.ofNat 32 (m.readLE (word + 12) 4) - gen).toNat < 2 ^ 31

/-- The scope of the acquire at a word: its SCOPE, never below core (R290). -/
def wordScope (m : Store 8) (word : Nat) : Scope :=
  match Scope.ofCode (bits (m.readLE (word + 11) 1) 0 3) with
  | some .task | none => .core
  | some sc => sc

/-- Words of gates of a kernel's copies and issued matrix operations on a core that stand reached. -/
def State.openGates (s : State) (core : Nat) (k : KKey) : List Nat :=
  let c := s.core core
  let m := c.scratchOf k
  (c.copies.filterMap fun o => match o.gate with
    | some (w, g) => if o.kernel = k && reached m w g then some w else none
    | none => none) ++
  c.cvs.filterMap fun v => match v.gate with
    | some (w, g) => if v.state = .issued && ((s.task? v.armer).map (·.kkey)) = some k && reached m w g then some w else none
    | none => none

/-- The test made after each write to a kernel's scratch, and when a matrix operation issues or goes on: the gates of issued operations open,
with their acquire, and waits of AWAIT end (R290, R292, R305, R320). -/
def State.scratchTouched (s : State) (core : Nat) (k : KKey) : State :=
  let m := (s.core core).scratchOf k
  let words := s.openGates core k
  let s1 := s.updCore core fun c =>
    { c with
      copies := c.copies.map fun o => match o.gate with
        | some (w, g) => if o.kernel = k && reached m w g then { o with gate := none } else o
        | none => o
      cvs := c.cvs.map fun v => match v.gate with
        | some (w, g) =>
          if v.state = .issued && ((s.task? v.armer).map (·.kkey)) = some k && reached m w g then { v with gate := none } else v
        | none => v }
  let s2 := words.foldl (fun s w => s.acquire core (wordScope m w)) s1
  s2.tasks.foldl (fun s t =>
    if t.kkey ≠ k || t.place ≠ .placed core t.slot then s
    else t.waits.foldl (fun s w => match w.kind with
      | .await word gen dst _ _ =>
        if reached m word gen then (s.updTask t.id fun t => (t.setS dst 0).wake w).acquire core (wordScope m word) else s
      | _ => s) s) s2

/-- Bytes written are undefined to a matrix operation of the kernel that has a signature (R320); a unit's writes are defined for an
operation whose gate is still closed, which the gate orders behind them (R292, log 26). -/
def State.taintScr (s : State) (core : Nat) (k : KKey) (addrs : List Nat) (unit : Bool) : State :=
  s.updCore core fun c => { c with cvs := c.cvs.map fun v =>
    if !v.signers.isEmpty && v.state ≠ .idle && !(unit && v.gate.isSome) && ((s.task? v.armer).map (·.kkey)) = some k then
      { v with taint := addrs.foldl (fun m a => m.set a 1) v.taint } else v }

/-- Write bytes of a kernel's scratch on a core. -/
def State.scrWrite (s : State) (core : Nat) (k : KKey) (bs : List (Nat × BitVec 8)) : State :=
  ((s.taintScr core k (bs.map (·.1)) false).updCore core fun c => c.scrPut k bs).scratchTouched core k

def bytesAt (a n v : Nat) : List (Nat × BitVec 8) := (bytesLE n v).zipIdx.map fun b => (a + b.2, b.1)

/-- R290: the word after an arrival of an amount at a scope. -/
def arrivalWord (w amount : Nat) (sc : Scope) : Nat :=
  let target := bits w 44 44
  let count := min (bits w 0 44 + amount) (2 ^ 44 - 1)
  let n := if target = 0 then 0 else count / target
  let scope := if n = 0 then bits w 88 3 else sc.code
  (if target = 0 then count else count % target) + target * 2 ^ 44 + scope * 2 ^ 88 + (bits w 96 32 + n) % 2 ^ 32 * 2 ^ 96

def State.arriveAt (s : State) (core : Nat) (k : KKey) (word amount : Nat) (sc : Scope) : State :=
  s.scrWrite core k (bytesAt word 16 (arrivalWord (((s.core core).scratchOf k).readLE word 16) amount sc))

/-- R289: the check of an arrival word. -/
def wordFault (word scrsize : Nat) : Option EFault :=
  if word % 16 ≠ 0 then some { code := 0x12, detail := 1, addr := BitVec.ofNat 64 word }
  else if scrsize < word + 16 then some { code := 0x12, detail := 2, addr := BitVec.ofNat 64 word }
  else none

/-! ### Banks that change their mode (R193, R196) -/

/-- Charge of a FIFO request (R192). -/
def fifoCost (lanes : Mask) : Nat := 2 + ceilDiv (4 * (lanesOf lanes).length) 8

/-- A request waiting at a bank that is no FIFO raises fault 0x09 and its charge is returned: a push precisely, a pop as a
deferred fault, since its lanes have gone on (log 21): it is withdrawn and stands to be issued anew, as after a save, by REPLAY, and
is abandoned by SKIP. The request of a task with a record stays, and raises its own afterwards. -/
def State.fifoFault (s : State) (q : FifoReq) : State :=
  match s.task? q.task with
  | none => s
  | some t =>
    if t.fault.isSome || !t.isPlaced then s
    else
      let back (m : Mask) (t : Task) : Task := t.credit (BitVec.ofNat 64 (fifoCost m))
      if q.push then
        match t.waits.find? fun w => match w.kind with | .fpsh _ i => i == q.id | _ => false with
        | none => s
        | some w =>
          let s1 := s.updCore t.core fun c => { c with fifoReqs := c.fifoReqs.filter fun r => r.id ≠ q.id }
          let s2 := s1.updTask t.id fun t => back q.lanes ({ t with waits := t.waits.filter (· ≠ w) }.parkLanes w.lanes .none)
          match s2.task? t.id with
          | none => s2
          | some t => s2.takeFault t.id (t.record 0x09 w.pc w.lanes q.lanes 0 0 false false)
      else
        match t.outs.find? fun o => o.id == q.out with
        | none => s
        | some o =>
          let again : Replay := { pc := o.pc, group := o.group, code := 0x09, out := some o, wait := none, stores := [], fifo := some { q with dead := false } }
          let s0 := s.updCore t.core fun c => { c with fifoReqs := c.fifoReqs.filter fun r => r.id ≠ q.id }
          let s1 := s0.updTask t.id fun t =>
            { back q.lanes t with outs := t.outs.filter (fun p => p.id ≠ o.id), pendingReplays := again :: t.pendingReplays }
          match s1.task? t.id with
          | none => s1
          | some t =>
            let r : FaultRec := { t.record 0x09 o.pc o.group q.lanes 0 0 true false with depth := o.depth }
            ((s1.orphan t.id).pushRecord t.core r).updTask t.id fun t => { t with fault := some r }

/-- The requests that wait on a bank which leaves FIFO mode: each raises fault 0x09, whatever the bank does next (R193). -/
def State.fifoLeft (s : State) (core bank : Nat) : State :=
  let s1 := s.updCore core fun c => { c with fifoReqs := c.fifoReqs.map fun q => if q.bank = bank then { q with dead := true } else q }
  ((s1.core core).fifoReqs.filter fun q => q.bank == bank).foldl State.fifoFault s1

/-- The effect of BANKSET once it need not wait (R196). -/
def State.bankAct (s : State) (core : Nat) (k : Kernel) (bank : Nat) (mode : BankMode) : State :=
  let c := s.core core
  let b := c.banks.getD bank Bank.reset
  if b.mode = mode || b.owner ≠ some k.key then s
  else
    let gone := c.l1.filter fun l => l.way == bank
    let s1 := if b.mode = .cache then
        ((gone.filter fun l => l.priv && l.dirty != 0).foldl State.writeBack s).updCore core fun c =>
          { c with l1 := c.l1.filter fun l => l.way ≠ bank }
      else s
    let s2 := s1.updCore core fun c =>
      let c1 := { c with banks := listUpd c.banks bank fun b => { b with mode := mode, fifo := [] } }
      if b.mode = .scratch || mode = .scratch then
        c1.setScratch k.key ((List.range k.scr).foldl (fun m a => m.set a (Config.freeByte s.tick a)) [])
      else c1
    if b.mode = .fifo then s2.fifoLeft core bank else s2

/-- Operations that BANKSET waits for which are still in flight. -/
def Core.busyWith (c : Core) (copies : List Nat) (mx : List (Nat × BitVec 16)) : Bool :=
  c.copies.any (fun o => copies.contains o.id) || mx.any fun p => (c.cv p.1).state != .idle && (c.cv p.1).epoch == p.2

/-- Waits of BANKSET end when their operations have. -/
def State.serveBanks (s : State) : State :=
  s.tasks.foldl (fun s t => t.waits.foldl (fun s w => match w.kind with
    | .bankset bank mode copies mx =>
      if !t.isPlaced || (s.core t.core).busyWith copies mx then s
      else (s.bankAct t.core (s.kernelOf t) bank mode).updTask t.id fun t => t.wake w
    | _ => s) s) s

/-! ### The ends of engine work (R293, R294, R320, R321) -/

/-- Take a copy out of its core and settle it (R97). -/
def State.copySettle (s : State) (o : CopyOp) (granules : Nat) : State :=
  ((s.updCore o.core fun c => { c with copies := c.copies.filter fun p => p.id ≠ o.id }).updTask o.task fun t =>
    t.settle o.reserved.toNat granules).serveBanks

/-- Cancel a copy at its next granule boundary (R294). -/
def State.copyCancel (s : State) (o : CopyOp) : State :=
  if o.started then
    let (s1, n) := s.copyPartial o
    let open_ := (o.scrRanges ((s.core o.core).scratchOf o.kernel)).flatMap fun r => (List.range r.2).map (r.1 + ·)
    ((s1.copySettle o n).taintScr o.core o.kernel open_ true).scratchTouched o.core o.kernel
  else s.copySettle o 0

/-- The task has waited for its operation on a register (R245). -/
def Task.mxWaited (t : Task) (cv : Nat) : Task :=
  { t with mxRecs := t.mxRecs.map fun r => if r.cv = cv then { r with waited := true } else r }

/-- Waits of MX.WAIT end where their record has a final status; a delivered fault is taken, one at a time (R202, R320, R328). -/
def State.serveMxWaits (s : State) : State :=
  s.tasks.foldl (fun s t0 => t0.waits.foldl (fun s w => match s.task? t0.id, w.kind with
    | some t, .mxWait cv dst =>
      match (t.mxRecs.find? fun r => r.cv == cv).bind (·.fin) with
      | none => s
      | some e =>
        if !t.isPlaced then s
        else match e with
          | .done | .aborted | .cancelled =>
            let code : BitVec 64 := match e with | .done => 0 | .aborted => 1 | _ => 2
            (s.updTask t.id fun t => ((t.setS dst code).mxWaited cv).wake w).updCore t.core fun c =>
              { c with unwaited := c.unwaited &&& ~~~(((t.mxRecs.find? fun r => r.cv == cv).map (·.tiles)).getD 0) }
          | .fault code detail =>
            if t.fault.isSome then s
            else
              let s1 := s.updTask t.id fun t => { (t.credit 1).parkLanes w.lanes .none with waits := t.waits.filter (· ≠ w) }
              s1.takeFault t.id ((t.credit 1).record code w.pc w.lanes w.lanes 0 detail false false)
    | _, _ => s) s) s

/-- Cancel every matrix operation that a task armed, a paused one included (R20, R321). -/
def State.mxCancelAll (s : State) (tid : Nat) : State :=
  let s1 := s.cores.foldl (fun s c => (List.range 16).foldl (fun s i =>
    let v := (s.core c.id).cv i
    if v.state ≠ .idle && v.armer = tid then s.mxStop c.id i .cancelled else s) s) s
  s1.serveMxWaits.serveBanks

/-! ### Children and joins (R103-R106, R120) -/

def Final.code : Final → BitVec 64
  | .done => 0 | .exhausted => 1 | .cancelled => 3 | .faulted => 4 | .refused => 5

def Task.child? (t : Task) (h : BitVec 32) : Option Child := t.children.find? fun c => c.handle == h

def Task.setChild (t : Task) (h : BitVec 32) (f : Child → Child) : Task :=
  { t with children := t.children.map fun c => if c.handle = h then f c else c }

/-- Write the result of a JOIN: status and remainder (R120). -/
def Task.joinResult (t : Task) (dst : Fin 64) (h : BitVec 32) (status remainder : BitVec 64) : Task :=
  let t1 := t.setS dst (((h.setWidth 64) <<< 32) ||| status)
  if hd : dst.val + 1 < 64 then t1.setS ⟨dst.val + 1, hd⟩ remainder else t1

/-- Report a child to a waiting group; a final status releases the record and credits the remainder (R104, R120, R244). -/
def State.report (s : State) (tid : Nat) (w : Wait) (dst : Fin 64) (c : Child) : State :=
  match c.final with
  | some f =>
    let s1 := s.updTask tid fun t =>
      (((t.credit c.remainder).joinResult dst c.handle f.code c.remainder).wake w)
    let s2 := s1.updTask tid fun t => { t with children := t.children.filter fun d => d.handle ≠ c.handle }
    match s2.task? tid with
    | some t => s2.acquireOf t .device
    | none => s2
  | none => s.updTask tid fun t =>
      ((t.joinResult dst c.handle 2 0).wake w).setChild c.handle fun d => { d with reported := true }

/-- The child that a JOIN of a handle may report now; sealed entries are applied first (R235). -/
def Child.ready (c : Child) (any : Bool) : Bool :=
  (c.final.isSome && c.entries.isEmpty) || (c.final.isNone && c.paused && !(any && c.reported))

/-- The child that JOINANY reports: the first received; in a deterministic launch the lowest index (R113, R120). -/
def Task.anyChild (t : Task) : Option Child :=
  if t.det then
    match t.children.foldl (fun (a : Option Child) c => match a with
        | none => some c
        | some b => if c.handle.toNat < b.handle.toNat then some c else a) none with
    | some c => if c.ready false then some c else none
    | none => none
  else
    (t.children.filter (·.ready true)).foldl (fun (a : Option Child) c => match a with
      | none => some c
      | some b => if c.seq < b.seq || (c.seq = b.seq && c.handle.toNat < b.handle.toNat) then some c else a) none

/-- Serve the joins of a task in the order in which they parked. -/
def State.serveJoins (s : State) (tid : Nat) : State :=
  match s.task? tid with
  | none => s
  | some t0 => t0.waits.foldl (fun s w =>
      match s.task? tid with
      | none => s
      | some t => match w.kind with
        | .join h dst => match t.child? h with
          | none => s.updTask tid fun t => (t.joinResult dst h 0xFF 0).wake w
          | some c => if c.ready false then s.report tid w dst c else s
        | .joinAny dst =>
          if t.children.isEmpty then s.updTask tid fun t => (t.joinResult dst 0xFFFFFFFF 0xFF 0).wake w
          else match t.anyChild with
            | some c => s.report tid w dst c
            | none => s
        | _ => s) s

/-! ### Plies (R114-R116) -/

def Ply.id (p : Ply) : BitVec 32 := BitVec.ofNat 32 (p.die * 2 ^ 16 + p.gen.toNat * 2 ^ 8 + p.idx)

def State.ply? (s : State) (id : BitVec 32) : Option Ply := s.plies.find? fun p => p.id == id

def State.updPly (s : State) (id : BitVec 32) (f : Ply → Ply) : State :=
  { s with plies := s.plies.map fun p => if p.id = id then f p else p }

/-- Release the barrier when every current member has arrived; released groups acquire at ply scope (R116, R244). -/
def State.plyRelease (s : State) (id : BitVec 32) : State :=
  match s.ply? id with
  | none => s
  | some p =>
    if p.members.isEmpty || !p.members.all (fun m => p.arrived.contains m) then s
    else
      let s1 := s.updPly id fun p => { p with arrived := [], barrier := p.barrier + 1 }
      s1.tasks.foldl (fun s t => t.waits.foldl (fun s w => match w.kind with
        | .plywait i => if i = id then (s.updTask t.id fun t => t.wake w).acquireOf t .ply else s
        | _ => s) s) s1

/-- A task leaves a ply: its arrival is withdrawn, its parked groups run on, an empty ply dissolves (R114-R116, R124). -/
def State.plyLeave (s : State) (tid : Nat) (id : BitVec 32) : State :=
  let s1 := s.updTask tid fun t =>
    let ws := t.waits.filter fun w => match w.kind with | .plybar i _ | .plywait i => i == id | _ => false
    ws.foldl Task.wake { t with plies := t.plies.filter (· ≠ id) }
  match s1.ply? id with
  | none => s1
  | some p =>
    let left := p.members.filter (· ≠ tid)
    if left.isEmpty then
      { s1 with plies := s1.plies.filter (fun p => p.id ≠ id)
                plyGens := Store.set s1.plyGens (256 * p.die + p.idx) (Store.get s1.plyGens (256 * p.die + p.idx) + 1) }
    else (s1.updPly id fun p => { p with members := left, arrived := p.arrived.filter (· ≠ tid) }).plyRelease id

/-- A wait that stands at the barrier of a ply with its own stores unperformed. -/
def Wait.atBar (w : Wait) (id : BitVec 32) : Bool := match w.kind with | .plybar i _ => i == id | _ => false

/-- Count a task's arrival: every group of it that stands at the barrier joins the wait of this generation (R82, R116). -/
def State.plyArrive (s : State) (tid : Nat) (id : BitVec 32) : State :=
  let s1 := s.updTask tid fun t => { t with waits := t.waits.map fun x => if x.atBar id then { x with kind := .plywait id } else x }
  (s1.updPly id fun p => if p.arrived.contains tid then p else { p with arrived := p.arrived ++ [tid] }).plyRelease id

/-! ### Stopping a task (R99, R105, R193, R202) -/

/-- Withdraw the FIFO requests of a task that no bank has served (R193). -/
def State.fifoWithdraw (s : State) (tid : Nat) : State :=
  { s with cores := s.cores.map fun c => { c with fifoReqs := c.fifoReqs.filter fun r => r.task ≠ tid } }

/-- Outstanding results a withdrawn FPOP leaves behind are dropped. -/
def Task.dropFifoOuts (t : Task) : Task :=
  { t with outs := t.outs.filter fun o => match o.kind with | .fifo _ => o.lanes.any (fun a => a.val.isSome) | _ => true }

/-- A notice of code 0x16 (R105, R200). -/
def Task.notice16 (t : Task) : FaultRec :=
  { FaultRec.zero with code := 0x16, slot := BitVec.ofNat 6 t.slot, addr := BitVec.ofNat 64 t.id, alw := t.alw, held := t.held }

/-- Step 4 of R99: a stopping task whose children have all retired leaves its plies. -/
def State.unwindPlies (s : State) (tid : Nat) : State :=
  match s.task? tid with
  | none => s
  | some t =>
    if t.stop.isSome && t.children.all (fun c => c.final.isSome) then t.plies.foldl (fun s p => s.plyLeave tid p) s else s

/-- Steps 1 and 2 of R99 for one task, with its final status: a save in progress is given up, results of loads that a deferred fault
has withdrawn are discarded, and a pause ends, in the parent's record too. Its cells become ORPHAN at once, as R264 says (log 78). Where
its supervisor handles a record the notice of R105 follows; the record that a saved context carries is handled by no one, and ends. -/
def State.stopOne (s : State) (tid : Nat) (f : Final) : State :=
  match s.task? tid with
  | none => s
  | some t =>
    let s1 := (s.orphan tid).fifoWithdraw tid
    let s2 := s1.updTask tid fun t =>
      { t.dropFifoOuts with
        stop := some f, waits := [], replayCap := [], paused := false, pendingReplays := [], deferred := [], deferredCopies := []
        relMark := s.nextReq, saving := none, suspended := false
        outs := t.dropFifoOuts.outs.filter fun o => !t.deferred.any fun r => r.out == some o.id }
    let s2 := match t.parent with
      | some p => if t.paused then s2.updTask p fun q => q.setChild t.handle fun c => { c with paused := false } else s2
      | none => s2
    let s3 := (s2.cores.flatMap fun c => c.copies.filter fun o => o.task == tid).foldl State.copyCancel s2
    let s4 := s3.mxCancelAll tid
    if t.fault.isNone then s4
    else if !t.isPlaced then s4.updTask tid fun t => { t.clearFault with notice := none }
    else if t.notice.isNone then (s4.pushRecord t.core t.notice16).updTask tid fun t => { t with notice := some t.notice16 }
    else s4

/-- Step 3 of R99: children that had retired and were not reported give their remainders at once. -/
def Task.sweep (t : Task) : Task :=
  let done := t.children.filter fun c => c.final.isSome
  { t with alw := done.foldl (fun a c => a + c.remainder) t.alw
           dentries := t.dentries ++ done.flatMap (·.entries)
           children := t.children.filter fun c => c.final.isNone }

/-- Stop a task and every live descendant (R99, R105); one without live children leaves its plies at once, any other behind the retirement
of its last child. Fuel bounds the depth of the tree. -/
def stopTree : Nat → Final → State → Nat → State
  | 0, _, s, _ => s
  | n + 1, f, s, tid =>
    match s.task? tid with
    | none => s
    | some t =>
      if t.stop.isSome || t.isRetired then s
      else
        let s1 := (s.stopOne tid f).updTask tid Task.sweep
        ((t.children.filter fun c => c.final.isNone).foldl (fun s c => stopTree n .cancelled s c.task) s1).unwindPlies tid

def State.stopTask (s : State) (tid : Nat) (f : Final) : State := stopTree (s.tasks.length + 1) f s tid

/-! ### The account and the issue of an instruction (R45, R70, R93-R100) -/

/-- The record of trap 0x0A (R98, R356). -/
def Task.trapRecord (t : Task) (pc : BitVec 32) (group : Mask) (cost : Nat) : FaultRec :=
  t.record 0x0A pc group group 0 (BitVec.ofNat 128 (cost % 2 ^ 64)) false false

/-- The task pauses: its cells become ORPHAN, and its parent's joins may report it (R100, R120, R264). -/
def State.pause (s : State) (tid : Nat) : State :=
  match s.task? tid with
  | none => s
  | some t =>
    let s1 := (s.orphan tid).updTask tid fun t => { t with paused := true }
    match t.parent with
    | none => s1
    | some p =>
      let s2 := s1.updTask p fun q => q.setChild t.handle fun c => { c with paused := true, reported := false, seq := s1.nextSeq }
      ({ s2 with nextSeq := s2.nextSeq + 1 }).serveJoins p

/-- Trap 0x0A: the record is kept with the task; PAUSE parks it, UNWIND unwinds it (R98-R100). -/
def State.exhaust (s : State) (tid : Nat) (r : FaultRec) : State :=
  match s.task? tid with
  | none => s
  | some t =>
    let s1 := s.updTask tid fun t => { t with trapRec := some r }
    match t.ownExm with
    | .pause => s1.pause tid
    | .unwind => s1.stopTask tid .exhausted

/-- What an instruction sees when it issues: the task, its kernel, the issuing group, its guard-true lanes, the PC. -/
structure Ctx where
  s : State
  tid : Nat
  t : Task
  k : Kernel
  group : Mask
  act : Mask
  pc : BitVec 32
  len : Nat

/-- What a group of a task sees when it issues an instruction of a guard and a length. -/
def Ctx.of (s : State) (t : Task) (group : Mask) (g : Guard) (len : Nat) : Ctx :=
  { s := s, tid := t.id, t := t, k := s.kernelOf t, group := group, act := t.guarded g group
    pc := (t.lane ((lowest? group).getD 0)).pc, len := len }

/-- What an instruction decides: a fault before its charge, a fault after a charge that is returned, to wait under R70, or a cost,
a reservation and its effect. -/
inductive Plan where
  | fault (code : BitVec 8) (lmask : Mask) (addr : BitVec 64) (detail : BitVec 128) (note : State → State)
  | late (cost : Nat) (code : BitVec 8) (lmask : Mask) (addr : BitVec 64) (detail : BitVec 128) (note : State → State)
  | wait
  | go (cost reserve : Nat) (eff : State → State)

/-- One counted instruction passes in every open window of the issuing lanes (R37). -/
def Task.countWindows (t : Task) (group : Mask) : Task :=
  { t with outs := t.outs.map fun o =>
      { o with window := (lanesOf (group &&& o.open_)).foldl (fun w l => w.set l (w.get l - 1)) o.window } }

/-- Charge an issue: the fixed part and the reservation leave ALW, the reservation enters HELD (R95, R97). -/
def Task.charge (t : Task) (cost reserve : Nat) : Task :=
  { t with alw := t.alw - BitVec.ofNat 64 (cost + reserve), held := t.held + BitVec.ofNat 64 reserve }

/-- A fault of the plan comes after a charge of this cost: a cost beyond ALW traps first (R95). -/
def Plan.after (cost : Nat) (p : Plan) : Plan :=
  match p with
  | .fault code lmask addr detail note => .late cost code lmask addr detail note
  | p => p

/-- What a read before a fault leaves: lines brought, denials counted and logged (R179, R180). -/
def Plan.noting (note : State → State) (p : Plan) : Plan :=
  match p with
  | .fault code lmask addr detail n => .fault code lmask addr detail fun s => n (note s)
  | p => p

/-- Issue one instruction of the group that s.cur names: a cost beyond ALW traps, but behind the faults that come before the
charge; the charge precedes every effect and steps 5 to 7 of R71 follow it; a later fault returns it (R95, R199). -/
def issue (s : State) (len : Nat) (g : Guard) (plan : Ctx → Plan) : Host.Outcome State Fault Refusal :=
  match s.cur with
  | .group tid group =>
    match s.task? tid with
    | none => .fault .noIssuer
    | some t =>
      let c := Ctx.of s t group g len
      match plan c with
      | .fault code lmask addr detail note =>
        .next ((note s).takeFault tid (t.record code c.pc group lmask addr detail false false))
      | .late cost code lmask addr detail note =>
        if t.alw.toNat < cost then .next (s.exhaust tid (t.trapRecord c.pc group cost))
        else .next ((note s).takeFault tid (t.record code c.pc group lmask addr detail false false))
      | .wait => .next s
      | .go cost reserve eff =>
        if t.alw.toNat < cost + reserve then .next (s.exhaust tid (t.trapRecord c.pc group (cost + reserve)))
        else
          let s1 := s.updTask tid fun t => (t.charge cost reserve).countWindows group
          .next ((eff s1).updTask tid fun t => t.settleLanes group)
  | _ => .fault .noIssuer

/-- A fault without lines to note. -/
def Plan.trap (code : BitVec 8) (lmask : Mask) (addr : BitVec 64 := 0) (detail : BitVec 128 := 0) : Plan :=
  .fault code lmask addr detail id

/-- Update the issuing task. -/
def Ctx.upd (c : Ctx) (f : Task → Task) (s : State) : State := s.updTask c.tid f

/-- The group goes on behind the instruction. -/
def Ctx.next (c : Ctx) (s : State) : State := s.updTask c.tid fun t => t.advance c.group c.len

/-- An instruction that changes only its task and goes on. -/
def Ctx.simple (c : Ctx) (cost : Nat) (f : Task → Task) : Plan :=
  .go cost 0 fun s => s.updTask c.tid fun t => (f t).advance c.group c.len

/-- A uniform instruction: it performs if some lane has a true guard, else it is charged its fixed part and goes on (R45, R118). -/
def Ctx.uniform (c : Ctx) (cost : Nat) (p : Plan) : Plan := if c.act = 0 then .go cost 0 c.next else p

/-- Park the issuing group on a wait. -/
def Ctx.hold (c : Ctx) (k : WaitKind) (p : Park) (s : State) : State :=
  s.updTask c.tid fun t => t.hold { lanes := c.group, pc := c.pc, len := BitVec.ofNat 32 c.len, kind := k } p

end Sys2Proof.Machine
end

