-- ==== Sys2Proof/Machine/Operands.lean ====
section
/-! DEFINITION. Operand forms: registers, pairs, broadcast s registers, immediates, effective addresses, the per-lane and the
uniform path, and undefined register reads (spec/02_encoding.md R33-R37, spec/06_vector.md R126-R129, spec/08_memory.md R166). -/

namespace Sys2Proof.Machine

/-! ### Registers whose value is still on its way (R37, R157) -/

def Out.coversV (o : Out) (r l : Nat) : Bool :=
  o.open_.getLsbD l && (match o.dst with | .v n => n.val = r || (o.ty.wide && n.val + 1 = r) | .s _ => false)

def Out.coversS (o : Out) (r : Nat) : Bool := o.open_ ≠ 0 && (match o.dst with | .s n => n.val = r | .v _ => false)

def SfOp.covers (o : SfOp) (r l : Nat) : Bool :=
  let one (d : Fin 192) := d.val = r || (o.ty.wide && d.val + 1 = r)
  o.lanes.getLsbD l && (one o.dst || (match o.rem with | some d => one d | none => false))

/-- Whether v register r of lane l awaits a result. -/
def Task.awaits (t : Task) (r l : Nat) : Bool := t.outs.any (·.coversV r l) || t.sfOps.any (·.covers r l)

/-- Read v register r of lane l: undefined while a result is on its way (R8, R37, R157). -/
def Task.rdV (t : Task) (tick r l : Nat) : BitVec 32 := if t.awaits r l then Config.freeReg tick (vkey r l) else t.vreg r l

/-- Read an s register: undefined while a result is on its way (R37), but for s63, which reads as zero (R33). -/
def Task.rdS (t : Task) (tick : Nat) (r : Fin 64) : BitVec 64 :=
  if r ≠ 63 && t.outs.any (·.coversS r.val) then
    (Config.freeReg tick (20000 + r.val)).setWidth 64 + ((Config.freeReg tick (20100 + r.val)).setWidth 64 <<< 32)
  else t.sreg r

/-- Note that a register with a result on its way has been written: either value may stay (R37, R157). -/
def Task.overwrite (t : Task) (r l : Nat) : Task :=
  { t with outs := t.outs.map fun o => if o.coversV r l then { o with clob := o.clob.set (vkey r l) 1 } else o
           sfOps := t.sfOps.map fun o => if o.covers r l then { o with clob := o.clob.set (vkey r l) 1 } else o }

def Task.overwriteS (t : Task) (r : Nat) : Task :=
  { t with outs := t.outs.map fun o => if o.coversS r then { o with clob := o.clob.set (skey r) 1 } else o }

/-- Whether a register that was written while a result was on its way to it keeps what was written: both halves of a pair, whose low register
is base, or neither (R37, R157). -/
def staysWritten (clob : Store 1) (tick id base key : Nat) : Bool := clob.get key = 1 && Config.coin tick (20000 * id + base)

def Task.wrV (t : Task) (r l : Nat) (x : BitVec 32) : Task := (t.setV r l x).overwrite r l
def Task.wrS (t : Task) (r : Fin 64) (x : BitVec 64) : Task := (t.setS r x).overwriteS r.val

/-! ### Operands -/

/-- The 32- or 64-bit value of a register in a lane: pairs for wide v operands, s registers broadcast (R33, R126). -/
def Task.reg (t : Task) (tick : Nat) (wide : Bool) (r : Reg) (l : Nat) : Nat :=
  match r with
  | .v n => if wide then (t.rdV tick n.val l).toNat + (t.rdV tick (n.val + 1) l).toNat * 2 ^ 32 else (t.rdV tick n.val l).toNat
  | .s n => if wide then (t.rdS tick n).toNat else (t.rdS tick n).toNat % 2 ^ 32

/-- R35: the expansion of imm16 in a type. -/
def expand (ty : Ty) (x : BitVec 16) : Nat :=
  let n := x.toNat
  match ty with
  | .i32 => wrap 32 (sext 16 n)
  | .n32 | .b32 => n
  | .i64 => wrap 64 (sext 16 n)
  | .n64 => n
  | .f32 => n * 65536
  | .f16 | .bf16 | .i16 | .n16 => n * 65537
  | .e4m3 | .e5m2 | .l6 | .i8 | .n8 => n * 65537

def Task.opnd (t : Task) (tick : Nat) (ty : Ty) (o : Opnd) (l : Nat) : Nat :=
  match o with
  | .reg r => t.reg tick ty.wide r l
  | .imm x => expand ty x

/-- Element i of a register value. -/
def elemAt (ty : Ty) (x i : Nat) : Nat := bits x (i * ty.elem.1) ty.elem.1

/-- A register value from its elements. -/
def packElems (ty : Ty) (f : Nat → Nat) : Nat :=
  (List.range ty.elem.2).foldl (fun acc i => acc + (f i % 2 ^ ty.elem.1) * 2 ^ (i * ty.elem.1)) 0

/-- A 64-bit s value of a result: sign-extended for i32, else zero-extended (R127). -/
def sExtend (ty : Ty) (x : Nat) : BitVec 64 :=
  if ty.wide then BitVec.ofNat 64 x else if ty = .i32 then BitVec.ofNat 64 (wrap 64 (sext 32 x)) else BitVec.ofNat 64 (x % 2 ^ 32)

/-- Write a result into the destination of a lane, or into an s register (R33, R126, R127). -/
def Task.put (t : Task) (ty : Ty) (dst : Reg) (l x : Nat) : Task :=
  match dst with
  | .v n => if ty.wide then (t.wrV n.val l (BitVec.ofNat 32 x)).wrV (n.val + 1) l (BitVec.ofNat 32 (x / 2 ^ 32))
            else t.wrV n.val l (BitVec.ofNat 32 x)
  | .s n => t.wrS n (sExtend ty x)

/-! ### The per-lane and the uniform path (R126, R127) -/

/-- The lanes an instruction computes for: the guard-true lanes, or the lowest of them where the destination is uniform. -/
def performLanes (dst : Reg) (act : Mask) : List Nat :=
  match dst with
  | .v _ => lanesOf act
  | .s _ => (lowest? act).toList

/-- Compute a result with flags for each performing lane and write it; every read sees the registers as they stood. -/
def Task.compute (t : Task) (ty : Ty) (dst : Reg) (act : Mask) (f : Nat → Nat × FFlags) : Task :=
  (performLanes dst act).foldl (fun t' l => (t'.put ty dst l (f l).1).raise (f l).2) t

/-- An ALU instruction of cost 1 (R128): compute, write, go on. -/
def Ctx.alu (c : Ctx) (ty : Ty) (dst : Reg) (f : Nat → Nat × FFlags) : Plan :=
  c.simple 1 fun t => t.compute ty dst c.act f

/-- The same for a result without flags. -/
def Ctx.aluI (c : Ctx) (ty : Ty) (dst : Reg) (f : Nat → Nat) : Plan := c.alu ty dst fun l => (f l, 0)

def Ctx.reg (c : Ctx) (wide : Bool) (r : Reg) (l : Nat) : Nat := c.t.reg c.s.tick wide r l
def Ctx.opnd (c : Ctx) (ty : Ty) (o : Opnd) (l : Nat) : Nat := c.t.opnd c.s.tick ty o l
/-- A 64-bit s register of the issuing task. -/
def Ctx.sval (c : Ctx) (r : Fin 64) : BitVec 64 := c.t.rdS c.s.tick r

/-- A predicate result for each performing lane (R126). -/
def Ctx.toPred (c : Ctx) (dst : Fin 8) (f : Nat → Bool × FFlags) : Plan :=
  c.simple 1 fun t =>
    let m := maskOf ((lanesOf c.act).filter fun l => (f l).1)
    ((lanesOf c.act).foldl (fun t l => t.raise (f l).2) t).setPred dst c.act m

/-- The lowest guard-true lane. -/
def Ctx.low (c : Ctx) : Nat := (lowest? c.act).getD 0

/-- Write an s register of the issuing task. -/
def Ctx.putS (c : Ctx) (r : Fin 64) (x : BitVec 64) (s : State) : State := s.updTask c.tid fun t => t.wrS r x

/-! ### Effective addresses (R166) -/

/-- base + SignExtend32(index) × scale + disp as an exact integer; wide bases are 64 bits, others the low 32 bits. -/
def Ctx.effAddr (c : Ctx) (wideBase : Bool) (a : MemAddr) (l : Nat) : Int :=
  let base : Nat := if a.base = .s 63 then 0 else c.reg wideBase a.base l
  let idx : Int := if a.index = .s 63 then 0 else sext 32 (c.reg false a.index l)
  (base : Int) + idx * 2 ^ a.scale.val + sext 16 a.disp.toNat

/-- The same modulo 2^64: the address of a global access. -/
def Ctx.globalAddr (c : Ctx) (a : MemAddr) (l : Nat) : Nat := mod64 (c.effAddr true a l)

end Sys2Proof.Machine
end

