-- ==== Sys2Proof/Machine/Control.lean ====
section
/-! DEFINITION. The control instructions (spec/04_control.md R75-R91) and the record of a decode fault (spec/02_encoding.md R43, R44). -/

namespace Sys2Proof.Machine

/-- PC + 4 × offset of n bits. -/
def relTarget (pc : BitVec 32) (n : Nat) (off : Nat) : BitVec 32 := pc + BitVec.ofNat 32 (wrap 32 (4 * sext n off))

/-- Target of CALLX and MEET in a lane. -/
def Ctx.target (c : Ctx) (t : Target) (l : Nat) : BitVec 32 :=
  match t with
  | .reg r => BitVec.ofNat 32 (c.reg false r l)
  | .rel off => relTarget c.pc 16 off.toNat

/-- Guard-true lanes go to their targets, the others behind the instruction. -/
def Ctx.jump (c : Ctx) (f : Nat → BitVec 32) (t : Task) : Task :=
  t.onLanes c.group fun l x => { x with pc := if c.act.getLsbD l then f l else x.pc + BitVec.ofNat 32 c.len }

/-- R75, R76: a backward-taken branch counts, and at QUANT the group is deferred. -/
def Ctx.countBackward (c : Ctx) (f : Nat → BitVec 32) (t : Task) : Task :=
  if (lanesOf c.act).any (fun l => (f l).toNat ≤ c.pc.toNat) then
    if t.quant.toNat ≤ t.bbc.toNat + 1 then t.defer c.group else { t with bbc := t.bbc + 1 }
  else t

/-- A branch: jump, arrive at meetings, count (R71 steps 4 to 6, R84, R85). -/
def Ctx.branch (c : Ctx) (f : Nat → BitVec 32) : Plan :=
  .go 1 0 (c.upd fun t => c.countBackward f ((c.jump f t).arrive c.group))

/-- A call: depth + 1 in the guard-true lanes, the return address as `save` writes it; at depth 255 fault 0x03 (R81, R84, R86). -/
def Ctx.callTo (c : Ctx) (f : Nat → BitVec 32) (save : Task → Task) : Plan :=
  if c.act ≠ 0 && (c.t.lane c.low).depth = 255 then .trap 0x03 c.act
  else .go 1 0 (c.upd fun t => (save (c.jump f t)).onLanes c.act fun _ x => { x with depth := x.depth + 1 })

/-- NOP (R83). -/
def execNop (g : Guard) (s : State) : Host.Outcome State Fault Refusal := issue s 8 g fun c => c.simple 1 id

/-- BRA (R84). -/
def execBra (g : Guard) (off : BitVec 24) (s : State) : Host.Outcome State Fault Refusal :=
  issue s 8 g fun c => c.branch fun _ => relTarget c.pc 24 off.toNat

/-- BRX (R85): the displacement is signed, the sum wraps at 32 bits. -/
def execBrx (g : Guard) (src : Reg) (disp : Option (BitVec 16)) (s : State) : Host.Outcome State Fault Refusal :=
  issue s 8 g fun c => c.branch fun l =>
    BitVec.ofNat 32 (c.reg false src l) + (match disp with | none => 0 | some d => BitVec.ofNat 32 (wrap 32 (sext 16 d.toNat)))

/-- CALL (R84). -/
def execCall (g : Guard) (off : BitVec 24) (s : State) : Host.Outcome State Fault Refusal :=
  issue s 8 g fun c => c.callTo (fun _ => relTarget c.pc 24 off.toNat) fun t =>
    t.onLanes c.act fun _ x => { x with link := c.pc + 8 }

/-- CALLX (R86): the target is read before dst is written. -/
def execCallx (g : Guard) (dst : Fin 192) (tgt : Target) (s : State) : Host.Outcome State Fault Refusal :=
  issue s 8 g fun c => c.callTo (c.target tgt) fun t => (lanesOf c.act).foldl (fun t l => t.wrV dst.val l (c.pc + 8)) t

/-- RET (R87): never counted under R75; at depth 0 fault 0x03. -/
def execRet (g : Guard) (src : Option Reg) (s : State) : Host.Outcome State Fault Refusal :=
  issue s 8 g fun c =>
    if c.act ≠ 0 && (c.t.lane c.low).depth = 0 then .trap 0x03 c.act
    else
      let f (l : Nat) : BitVec 32 := match src with | none => (c.t.lane l).link | some r => BitVec.ofNat 32 (c.reg false r l)
      .go 1 0 (c.upd fun t => (c.jump f t).onLanes c.act fun _ x => { x with depth := x.depth - 1 })

/-- MEET (R88). -/
def execMeet (g : Guard) (tgt : Target) (s : State) : Host.Outcome State Fault Refusal :=
  issue s 8 g fun c => c.simple 1 fun t =>
    t.onLanes c.act fun l x => { x with meetValid := true, meetDepth := x.depth, meetAddr := c.target tgt l }

/-- MEETCLR (R89). -/
def execMeetclr (g : Guard) (s : State) : Host.Outcome State Fault Refusal :=
  issue s 8 g fun c => c.simple 1 fun t => t.onLanes c.act fun _ x => { x with meetValid := false }

/-- YIELD (R77, R89): with a guard-true lane, the whole issuing group is deferred after its lanes arrive. The round-robin
pointer has moved to the task when it was selected. -/
def execYield (g : Guard) (s : State) : Host.Outcome State Fault Refusal :=
  issue s 8 g fun c => .go 1 0 (c.upd fun t =>
    let t1 := (t.advance c.group c.len).arrive c.group
    if c.act = 0 then t1 else t1.defer c.group)

/-- What follows a task's last EXIT: its children that are paused are cancelled (R106). -/
def State.lastExit (s : State) (tid : Nat) : State :=
  match s.task? tid with
  | none => s
  | some t =>
    if t.unexited ≠ 0 then s
    else (t.children.filter fun c => c.final.isNone && c.paused).foldl (fun s c => s.stopTask c.task .cancelled) s

/-- EXIT (R89). When no unexited lane is left the task stops issuing, and its release set is fixed (R106, R244). -/
def execExit (g : Guard) (s : State) : Host.Outcome State Fault Refusal :=
  issue s 8 g fun c => .go 1 0 fun s => (s.updTask c.tid fun t =>
    let t1 := (t.advance (c.group &&& ~~~c.act) c.len).onLanes c.act fun _ x => { x with exited := true, meetValid := false }
    if t1.unexited = 0 then { t1 with relMark := s.nextReq } else t1).lastExit c.tid

/-- ELECT (R90): srcA = s63 leaves the candidates unrestricted. -/
def execElect (g : Guard) (dst : ElectDst) (src : Option (Fin 192)) (s : State) : Host.Outcome State Fault Refusal :=
  issue s 8 g fun c => c.uniform 1 <| c.simple 1 fun t =>
    let e := (lanesOf c.act).find? fun l => match src with | none => true | some r => c.t.rdV c.s.tick r.val l != 0
    match dst with
    | .s n => t.wrS n (match e with | some l => BitVec.ofNat 64 l | none => BitVec.allOnes 64)
    | .p n => t.setPred n c.group (match e with | some l => laneBit l | none => 0)

/-- QUANT (R91). -/
def execQuant (g : Guard) (imm : BitVec 16) (s : State) : Host.Outcome State Fault Refusal :=
  issue s 8 g fun c => c.uniform 1 <| c.simple 1 fun t => { t with quant := imm, bbc := 0 }

/-- DETAIL of fault 0x01 (R44). -/
def detail1 (reason slot : BitVec 8) (word : BitVec 64) : BitVec 128 :=
  reason.setWidth 128 ||| (slot.setWidth 128 <<< 8) ||| (word.setWidth 128 <<< 64)

/-- A word that is no instruction: fault 0x01 for the whole group, whatever the guards (R43, R44). -/
def execIllegalInstruction (reason slot : BitVec 8) (word : BitVec 64) (s : State) : Host.Outcome State Fault Refusal :=
  issue s 8 { neg := false, p := 0 } fun c => .trap 0x01 c.group 0 (detail1 reason slot word)

end Sys2Proof.Machine
end

