-- ==== Sys2Proof/Machine/Integer.lean ====
section
/-! DEFINITION. Integer, address and move instructions (spec/06_vector.md R131-R141). The value functions take a Ctx, so that a slot
of a pair computes with the same ones. -/

namespace Sys2Proof.Machine

/-! ### Values -/

/-- An element-wise operation on srcA and srcB. -/
def Ctx.map2 (c : Ctx) (x : Alu2) (f : Nat → Nat → Nat) (l : Nat) : Nat :=
  let a := c.reg x.ty.wide x.a l
  let b := c.opnd x.ty x.b l
  packElems x.ty fun i => f (elemAt x.ty a i) (elemAt x.ty b i)

/-- An element-wise operation on srcA. -/
def Ctx.map1 (c : Ctx) (x : Alu1) (f : Nat → Nat) (l : Nat) : Nat :=
  let a := c.reg x.ty.wide x.a l
  packElems x.ty fun i => f (elemAt x.ty a i)

def Ty.w (t : Ty) : Nat := t.elem.1

def iaddE (ty : Ty) (x y : Nat) : Nat := (x + y) % 2 ^ Ty.w ty
def isubE (ty : Ty) (x y : Nat) : Nat := wrap (Ty.w ty) ((x : Int) - y)
def iaddsE (ty : Ty) (sub : Bool) (x y : Nat) : Nat :=
  wrap (Ty.w ty) (clampTo ty.range (if sub then ty.toI x - ty.toI y else ty.toI x + ty.toI y))
def imulE (ty : Ty) (x y : Nat) : Nat := x * y % 2 ^ Ty.w ty
/-- High w bits of the exact 2w-bit product. -/
def imulhE (ty : Ty) (x y : Nat) : Nat := wrap (Ty.w ty) (ty.toI x * ty.toI y / ((2 ^ Ty.w ty : Nat) : Int))
def iminE (ty : Ty) (x y : Nat) : Nat := if ty.toI x ≤ ty.toI y then x else y
def imaxE (ty : Ty) (x y : Nat) : Nat := if ty.toI x ≤ ty.toI y then y else x
def andnE (ty : Ty) (x y : Nat) : Nat := x &&& (2 ^ Ty.w ty - 1 - y)
def shlE (ty : Ty) (x y : Nat) : Nat := if Ty.w ty ≤ y then 0 else (x <<< y) % 2 ^ Ty.w ty
def shrE (ty : Ty) (x y : Nat) : Nat := if Ty.w ty ≤ y then 0 else x >>> y
/-- Fill with bit w − 1, whatever the type. -/
def sarE (ty : Ty) (x y : Nat) : Nat := wrap (Ty.w ty) (sext (Ty.w ty) x / ((2 ^ min y (Ty.w ty) : Nat) : Int))
def iabsE (ty : Ty) (sat : Bool) (x : Nat) : Nat :=
  if ty.toI x = ty.range.1 then (if sat then wrap (Ty.w ty) ty.range.2 else x) else (ty.toI x).natAbs
def clzE (ty : Ty) (x : Nat) : Nat := Ty.w ty - bitLen x
def popcE (ty : Ty) (x : Nat) : Nat := ((List.range (Ty.w ty)).filter fun i => x.testBit i).length
def brevE (ty : Ty) (x : Nat) : Nat :=
  (List.range (Ty.w ty)).foldl (fun a i => a + if x.testBit i then 2 ^ (Ty.w ty - 1 - i) else 0) 0

/-- BFX (R134): a field past bit w − 1 reads the fill bits of the shift. -/
def bfxE (ty : Ty) (pos len x : Nat) : Nat :=
  let w := Ty.w ty
  let t := if ty.signed then sarE ty x pos else shrE ty x pos
  if ty.signed then wrap w (sext len t) else t % 2 ^ len

/-- BFI (R134). -/
def bfiE (ty : Ty) (pos len x y : Nat) : Nat :=
  let w := Ty.w ty
  let m := ((2 ^ len - 1) <<< pos) % 2 ^ w
  (y &&& (2 ^ w - 1 - m)) ||| ((x <<< pos) % 2 ^ w &&& m)

/-- One comparison (R135). -/
def icmpE (cond : ICond) (ty : Ty) (x y : Nat) : Bool :=
  match cond with
  | .eq => x = y
  | .ne => x ≠ y
  | .lt => ty.toI x < ty.toI y
  | .le => ty.toI x ≤ ty.toI y
  | .gt => ty.toI y < ty.toI x
  | .ge => ty.toI y ≤ ty.toI x

/-- ICMP's second source in every element: a register, or the 12-bit immediate sign- or zero-extended (R135). -/
def Ctx.opnd12 (c : Ctx) (ty : Ty) (b : Opnd12) (l : Nat) : Nat :=
  match b with
  | .reg r => c.reg ty.wide r l
  | .imm x => packElems ty fun _ => if ty.signed then wrap (Ty.w ty) (sext 12 x.toNat) else x.toNat % 2 ^ Ty.w ty

def Ctx.icmp (c : Ctx) (x : Icmp) (l : Nat) : Bool :=
  let a := c.reg x.ty.wide x.a l
  let b := c.opnd12 x.ty x.b l
  let r (i : Nat) : Bool := icmpE x.cond x.ty (elemAt x.ty a i) (elemAt x.ty b i)
  if x.any then (List.range x.ty.elem.2).any r else (List.range x.ty.elem.2).all r

/-- PLOG: bit 2a + b of the truth table (R139). -/
def Ctx.plog (c : Ctx) (x : Plog) (l : Nat) : Bool :=
  let v (p : Fin 8) : Nat := if (c.t.pred p).getLsbD l then 1 else 0
  x.table.getLsbD (2 * v x.a + v x.b)

def Ctx.movi (_c : Ctx) (x : Movi) (_l : Nat) : Nat := expand x.ty x.imm

/-- Special registers (R140, R68); a task that a peer's SPAWNX delivered here reads its handle as well (R369); SBASE is the base of the
kernel's scratch addresses, 0. -/
def Ctx.special (c : Ctx) (n : Fin 18) (l : Nat) : Nat :=
  let x := c.t.lane l
  match n.val with
  | 0x00 => l
  | 0x01 => c.k.w
  | 0x02 => c.t.slot
  | 0x03 => c.t.slot / 16
  | 0x04 => c.t.core
  | 0x05 => c.t.die
  | 0x06 => c.s.deviceNo.toNat
  | 0x07 => c.t.ordinal.toNat
  | 0x08 => if c.t.parent.isSome || c.t.viaSpawnx then c.t.handle.toNat else 0xFFFFFFFF
  | 0x09 => x.depth.toNat
  | 0x0A => if x.meetValid then x.meetAddr.toNat + x.meetDepth.toNat * 2 ^ 32 + 2 ^ 63 else 0
  | 0x0B => c.s.clock.toNat
  | 0x0C => c.t.prin.toNat
  | 0x0D => c.t.asid.toNat
  | 0x0E => c.k.cbase.toNat
  | 0x0F => c.t.pbase.toNat
  | 0x10 => 0
  | _ => c.k.scr

/-! ### Meanings -/

/-- A two-operand integer instruction (R131). -/
def alu2I (x : Alu2) (f : Nat → Nat → Nat) (s : State) : Host.Outcome State Fault Refusal :=
  issue s 8 x.g fun c => c.aluI x.ty x.dst (c.map2 x f)

/-- A one-operand integer instruction (R133). -/
def alu1I (x : Alu1) (f : Nat → Nat) (s : State) : Host.Outcome State Fault Refusal :=
  issue s 8 x.g fun c => c.aluI x.ty x.dst (c.map1 x f)

def execIadd (x : Alu2) (s : State) : Host.Outcome State Fault Refusal := alu2I x (iaddE x.ty) s
def execIsub (x : Alu2) (s : State) : Host.Outcome State Fault Refusal := alu2I x (isubE x.ty) s
def execIadds (sub : Bool) (x : Alu2) (s : State) : Host.Outcome State Fault Refusal := alu2I x (iaddsE x.ty sub) s
def execImul (x : Alu2) (s : State) : Host.Outcome State Fault Refusal := alu2I x (imulE x.ty) s
def execImulh (x : Alu2) (s : State) : Host.Outcome State Fault Refusal := alu2I x (imulhE x.ty) s
def execImin (x : Alu2) (s : State) : Host.Outcome State Fault Refusal := alu2I x (iminE x.ty) s
def execImax (x : Alu2) (s : State) : Host.Outcome State Fault Refusal := alu2I x (imaxE x.ty) s
def execAnd (x : Alu2) (s : State) : Host.Outcome State Fault Refusal := alu2I x (· &&& ·) s
def execOr (x : Alu2) (s : State) : Host.Outcome State Fault Refusal := alu2I x (· ||| ·) s
def execXor (x : Alu2) (s : State) : Host.Outcome State Fault Refusal := alu2I x (· ^^^ ·) s
def execAndn (x : Alu2) (s : State) : Host.Outcome State Fault Refusal := alu2I x (andnE x.ty) s
def execShl (x : Alu2) (s : State) : Host.Outcome State Fault Refusal := alu2I x (shlE x.ty) s
def execShr (x : Alu2) (s : State) : Host.Outcome State Fault Refusal := alu2I x (shrE x.ty) s
def execSar (x : Alu2) (s : State) : Host.Outcome State Fault Refusal := alu2I x (sarE x.ty) s
def execIabs (sat : Bool) (x : Alu1) (s : State) : Host.Outcome State Fault Refusal := alu1I x (iabsE x.ty sat) s
def execClz (x : Alu1) (s : State) : Host.Outcome State Fault Refusal := alu1I x (clzE x.ty) s
def execPopc (x : Alu1) (s : State) : Host.Outcome State Fault Refusal := alu1I x (popcE x.ty) s
def execBrev (x : Alu1) (s : State) : Host.Outcome State Fault Refusal := alu1I x (brevE x.ty) s

/-- IMAD (R132). -/
def execImad (x : Alu3) (s : State) : Host.Outcome State Fault Refusal :=
  issue s 12 x.g fun c => c.aluI x.ty x.dst fun l =>
    let a := c.reg x.ty.wide x.a l
    let b := c.opnd x.ty x.b l
    let z := c.reg x.ty.wide x.c l
    packElems x.ty fun i => elemAt x.ty a i * elemAt x.ty b i + elemAt x.ty z i

def execBfx (x : BitField) (s : State) : Host.Outcome State Fault Refusal :=
  issue s 12 x.g fun c => c.aluI x.ty x.dst fun l => bfxE x.ty x.pos.val x.len.val (c.reg x.ty.wide x.a l)

def execBfi (x : BitField) (s : State) : Host.Outcome State Fault Refusal :=
  issue s 12 x.g fun c => c.aluI x.ty x.dst fun l =>
    bfiE x.ty x.pos.val x.len.val (c.reg x.ty.wide x.a l) (c.reg x.ty.wide x.b l)

def execIcmp (x : Icmp) (s : State) : Host.Outcome State Fault Refusal :=
  issue s 8 x.g fun c => c.toPred x.dst fun l => (c.icmp x l, 0)

/-- SEL (R136): on the uniform path the predicate is the lowest guard-true lane's. -/
def execSel (x : Sel) (s : State) : Host.Outcome State Fault Refusal :=
  issue s 12 x.g fun c => c.aluI x.ty x.dst fun l =>
    if (c.t.pred x.p).getLsbD l then c.reg x.ty.wide x.a l else c.opnd x.ty x.b l

def execMov (x : Alu1) (s : State) : Host.Outcome State Fault Refusal :=
  issue s 8 x.g fun c => c.aluI x.ty x.dst (c.reg x.ty.wide x.a)

def execMovi (x : Movi) (s : State) : Host.Outcome State Fault Refusal :=
  issue s 8 x.g fun c => c.aluI x.ty x.dst (c.movi x)

def execMovw (x : Movw) (s : State) : Host.Outcome State Fault Refusal :=
  issue s 16 x.g fun c => c.aluI x.ty x.dst fun _ => if x.ty.wide then x.imm.toNat else x.imm.toNat % 2 ^ 32

/-- LEA (R138): the type is the index's; base and result are 64 bits. -/
def execLea (x : Lea) (s : State) : Host.Outcome State Fault Refusal :=
  issue s 12 x.g fun c => c.aluI .n64 x.dst fun l =>
    let idx : Int := match x.ty with
      | .i32 => sext 32 (c.reg false x.index l)
      | .n32 => c.reg false x.index l
      | _ => c.reg true x.index l
    mod64 ((c.reg true x.base l : Int) + idx * 2 ^ x.scale.val + sext 24 x.disp.toNat)

def execPlog (x : Plog) (s : State) : Host.Outcome State Fault Refusal :=
  issue s 8 x.g fun c => c.toPred x.dst fun l => (c.plog x l, 0)

/-- MOVSP (R140). -/
def execMovsp (x : Movsp) (s : State) : Host.Outcome State Fault Refusal :=
  issue s 8 x.g fun c => c.aluI (if x.wide then .n64 else .n32) x.dst fun l =>
    if x.wide then c.special x.num l else c.special x.num l % 2 ^ 32

/-- DOT4 (R141): the exact S, wrapped or saturated, or rounded once to f32; FTZ does not apply. -/
def execDot4 (sat : Bool) (x : Alu3) (s : State) : Host.Outcome State Fault Refusal :=
  issue s 12 x.g fun c => c.alu .n32 x.dst fun l =>
    let a := c.reg false x.a l
    let b := c.opnd x.ty x.b l
    let z := c.reg false x.c l
    if x.ty.isInt then
      let acc : Ty := if x.ty.signed then .i32 else .n32
      let r := (List.range 4).foldl (fun (r : Int) i => r + x.ty.toI (elemAt x.ty a i) * x.ty.toI (elemAt x.ty b i)) (acc.toI z)
      (wrap 32 (if sat then clampTo acc.range r else r), 0)
    else
      let ps := (List.range 4).map fun i => (tyVal x.ty (elemAt x.ty a i)).mul (tyVal x.ty (elemAt x.ty b i))
      sumRound .f32 (fpctlMode c.t.fpctl) (Fmt.f32.decode z :: ps.map (·.1)) (ps.foldl (fun f p => f ||| p.2) 0)

end Sys2Proof.Machine
end

