-- ==== Sys2Proof/Machine/FloatOps.lean ====
section
/-! DEFINITION. Floating-point instructions and pairs (spec/06_vector.md R142-R148; spec/02_encoding.md R32, R38, R39). -/

namespace Sys2Proof.Machine

/-! ### Values -/

def fmtD (ty : Ty) : Fmt := (fmtOf ty).getD .f32

/-- An element as read: a subnormal reads as zero under FTZ (R58). -/
def fin1 (ftz : Bool) (ty : Ty) (x : Nat) : Nat := ftzIn (ftz && ty.ftz) (fmtD ty) x

def fval (ftz : Bool) (ty : Ty) (x : Nat) : FVal := (fmtD ty).decode (fin1 ftz ty x)

/-- A rounded result, flushed under FTZ (R58). -/
def fout (ftz : Bool) (ty : Ty) (r : Nat × FFlags) : Nat × FFlags := ftzOut (ftz && ty.ftz) (fmtD ty) r

/-- The rounded sum of exact terms with flags already raised. -/
def fsum (ftz : Bool) (ty : Ty) (mode : RMode) (ts : List FVal) (fl : FFlags) : Nat × FFlags :=
  fout ftz ty (sumRound (fmtD ty) mode ts fl)

def faddE (ftz : Bool) (mode : RMode) (ty : Ty) (x y : Nat) : Nat × FFlags := fsum ftz ty mode [fval ftz ty x, fval ftz ty y] 0
def fsubE (ftz : Bool) (mode : RMode) (ty : Ty) (x y : Nat) : Nat × FFlags :=
  fsum ftz ty mode [fval ftz ty x, (fval ftz ty y).negate] 0

def fmulE (ftz : Bool) (mode : RMode) (ty : Ty) (x y : Nat) : Nat × FFlags :=
  let (v, fl) := (fval ftz ty x).mul (fval ftz ty y)
  let (c, fl') := (fmtD ty).ofVal mode false v
  fout ftz ty (c, fl ||| fl')

def ffmaE (ftz : Bool) (mode : RMode) (ty : Ty) (x y z : Nat) : Nat × FFlags :=
  let (v, fl) := (fval ftz ty x).mul (fval ftz ty y)
  fsum ftz ty mode [v, fval ftz ty z] fl

/-- A code's place in the order of the numbers; −0 comes below +0 when zeros are told apart. -/
def fkey (f : Fmt) (zeros : Bool) (x : Nat) : Int :=
  let m : Int := bits x 0 (f.eb + f.fb)
  if x.testBit (f.eb + f.fb) then (if zeros then -m - 1 else -m) else m

/-- R142: the lesser (or greater) of two; a NaN gives way to a number. -/
def fminE (ftz max : Bool) (ty : Ty) (x y : Nat) : Nat × FFlags :=
  let f := fmtD ty
  let x' := fin1 ftz ty x
  let y' := fin1 ftz ty y
  let vx := f.decode x'
  let vy := f.decode y'
  let fl : FFlags := if vx.isSig || vy.isSig then fNV else 0
  if vx.isNan && vy.isNan then (f.nanCode, fl)
  else if vx.isNan then (y', fl)
  else if vy.isNan then (x', fl)
  else if (fkey f true x' ≤ fkey f true y') != max then (x', fl) else (y', fl)

def fnegE (ftz : Bool) (ty : Ty) (x : Nat) : Nat := fin1 ftz ty x ^^^ (fmtD ty).signBit
def fabsE (ftz : Bool) (ty : Ty) (x : Nat) : Nat := bits (fin1 ftz ty x) 0 ((fmtD ty).eb + (fmtD ty).fb)

/-- R144: one comparison. -/
def fcmpE (ftz : Bool) (cond : FCond) (ty : Ty) (x y : Nat) : Bool × FFlags :=
  let f := fmtD ty
  let x' := fin1 ftz ty x
  let y' := fin1 ftz ty y
  let vx := f.decode x'
  let vy := f.decode y'
  let nan := vx.isNan || vy.isNan
  let sig : FFlags := if vx.isSig || vy.isSig then fNV else 0
  let any : FFlags := if nan then fNV else 0
  let kx := fkey f false x'
  let ky := fkey f false y'
  match cond with
  | .eq => (!nan && kx = ky, sig)
  | .ne => (nan || kx ≠ ky, sig)
  | .lt => (!nan && kx < ky, any)
  | .le => (!nan && kx ≤ ky, any)
  | .gt => (!nan && ky < kx, any)
  | .ge => (!nan && ky ≤ kx, any)
  | .ord => (!nan, sig)
  | .uno => (nan, sig)

/-- R144: the class mask of one element. -/
def fclassE (ftz : Bool) (ty : Ty) (x : Nat) : Nat :=
  let f := fmtD ty
  let x' := fin1 ftz ty x
  let sub := bits x' f.fb f.eb = 0
  match f.decode x' with
  | .nan sig => if sig then 1 else 2
  | .inf neg => if neg then 4 else 512
  | .fin neg m _ =>
    if m = 0 then (if neg then 32 else 64)
    else if sub then (if neg then 16 else 128) else (if neg then 8 else 256)

/-- R145: one element to an integral value in its format. -/
def frndE (ftz : Bool) (mode : RMode) (ty : Ty) (x : Nat) : Nat × FFlags :=
  let f := fmtD ty
  let x' := fin1 ftz ty x
  match f.decode x' with
  | .nan sig => (f.nanCode, if sig then fNV else 0)
  | .inf _ => (x', 0)
  | .fin neg m e =>
    if m = 0 then (x', 0)
    else
      let (n, inexact) := toIntMag mode neg m e
      ((f.round mode false neg n 0).1, if inexact then fNX else 0)

/-- Element-wise with flags. -/
def packF (ty : Ty) (f : Nat → Nat × FFlags) : Nat × FFlags :=
  (packElems ty fun i => (f i).1, (List.range ty.elem.2).foldl (fun a i => a ||| (f i).2) 0)

def Ctx.fmap2 (c : Ctx) (x : Alu2) (f : Bool → RMode → Ty → Nat → Nat → Nat × FFlags) (l : Nat) : Nat × FFlags :=
  let a := c.reg x.ty.wide x.a l
  let b := c.opnd x.ty x.b l
  packF x.ty fun i => f c.t.ftz (fpctlMode c.t.fpctl) x.ty (elemAt x.ty a i) (elemAt x.ty b i)

def Ctx.fcmp (c : Ctx) (x : Fcmp) (l : Nat) : Bool × FFlags :=
  let a := c.reg x.ty.wide x.a l
  let b := c.reg x.ty.wide x.b l
  let rs := (List.range x.ty.elem.2).map fun i => fcmpE c.t.ftz x.cond x.ty (elemAt x.ty a i) (elemAt x.ty b i)
  (if x.any then rs.any (·.1) else rs.all (·.1), rs.foldl (fun a r => a ||| r.2) 0)

/-- R146: the first k elements converted, the others zero. -/
def cvtReg (ftz : Bool) (mode : RMode) (sat : Bool) (src dst : Ty) (x : Nat) : Nat × FFlags :=
  let k := min src.elem.2 dst.elem.2
  packF dst fun i => if i < k then convert ftz mode sat src dst (elemAt src x i) else (0, 0)

/-! ### Meanings -/

/-- A two-operand floating instruction (R142). -/
def alu2F (x : Alu2) (f : Bool → RMode → Ty → Nat → Nat → Nat × FFlags) (s : State) : Host.Outcome State Fault Refusal :=
  issue s 8 x.g fun c => c.alu x.ty x.dst (c.fmap2 x f)

def execFadd (x : Alu2) (s : State) : Host.Outcome State Fault Refusal := alu2F x faddE s
def execFsub (x : Alu2) (s : State) : Host.Outcome State Fault Refusal := alu2F x fsubE s
def execFmul (x : Alu2) (s : State) : Host.Outcome State Fault Refusal := alu2F x fmulE s
def execFmin (x : Alu2) (s : State) : Host.Outcome State Fault Refusal := alu2F x (fun z _ => fminE z false) s
def execFmax (x : Alu2) (s : State) : Host.Outcome State Fault Refusal := alu2F x (fun z _ => fminE z true) s

/-- FFMA (R143). -/
def execFfma (x : Alu3) (s : State) : Host.Outcome State Fault Refusal :=
  issue s 12 x.g fun c => c.alu x.ty x.dst fun l =>
    let a := c.reg x.ty.wide x.a l
    let b := c.opnd x.ty x.b l
    let z := c.reg x.ty.wide x.c l
    packF x.ty fun i => ffmaE c.t.ftz (fpctlMode c.t.fpctl) x.ty (elemAt x.ty a i) (elemAt x.ty b i) (elemAt x.ty z i)

def execFneg (x : Alu1) (s : State) : Host.Outcome State Fault Refusal :=
  issue s 8 x.g fun c => c.aluI x.ty x.dst (c.map1 x (fnegE c.t.ftz x.ty))

def execFabs (x : Alu1) (s : State) : Host.Outcome State Fault Refusal :=
  issue s 8 x.g fun c => c.aluI x.ty x.dst (c.map1 x (fabsE c.t.ftz x.ty))

def execFcmp (x : Fcmp) (s : State) : Host.Outcome State Fault Refusal := issue s 8 x.g fun c => c.toPred x.dst (c.fcmp x)

def execFclass (x : Alu1) (s : State) : Host.Outcome State Fault Refusal :=
  issue s 8 x.g fun c => c.aluI .n32 x.dst fun l =>
    let a := c.reg false x.a l
    (List.range x.ty.elem.2).foldl (fun acc i => acc + fclassE c.t.ftz x.ty (elemAt x.ty a i) * 2 ^ (16 * i)) 0

def execFrnd (mode : Option RMode) (x : Alu1) (s : State) : Host.Outcome State Fault Refusal :=
  issue s 8 x.g fun c => c.alu x.ty x.dst fun l =>
    let a := c.reg x.ty.wide x.a l
    packF x.ty fun i => frndE c.t.ftz (c.t.mode mode) x.ty (elemAt x.ty a i)

def execCvt (x : Cvt) (s : State) : Host.Outcome State Fault Refusal :=
  issue s 8 x.g fun c => c.alu x.ty x.dst fun l =>
    cvtReg c.t.ftz (c.t.mode x.mode) x.sat x.src x.ty (c.reg x.src.wide x.a l)

/-- An element that PACK copies from srcC: of l6 only its six bits, the others are written as zero (R34). -/
def keptElem (ty : Ty) (x i : Nat) : Nat := if ty = .l6 then elemAt ty x i % 64 else elemAt ty x i

/-- PACK (R147): two elements, or one half of four with the other half from srcC. -/
def execPack (x : Pack) (s : State) : Host.Outcome State Fault Refusal :=
  issue s 12 x.g fun c => c.alu x.ty x.dst fun l =>
    let cv (r : Reg) : Nat × FFlags := convert c.t.ftz (c.t.mode x.mode) x.sat x.src x.ty (c.reg false r l)
    let a := cv x.a
    let b := cv x.b
    let z := c.reg false x.c l
    let lo := if x.ty.elem.2 = 4 && x.half then 2 else 0
    (packElems x.ty fun i => if i = lo then a.1 else if i = lo + 1 then b.1 else keptElem x.ty z i, a.2 ||| b.2)

/-- UNPK (R148). -/
def execUnpk (x : Unpk) (s : State) : Host.Outcome State Fault Refusal :=
  issue s 8 x.g fun c => c.alu x.ty x.dst fun l =>
    convert c.t.ftz (fpctlMode c.t.fpctl) false x.src x.ty (elemAt x.src (c.reg false x.a l) x.idx.val)

/-- FDOT2 (R143): z and the result are f32. -/
def execFdot2 (x : Alu3) (s : State) : Host.Outcome State Fault Refusal :=
  issue s 12 x.g fun c => c.alu .f32 x.dst fun l =>
    let a := c.reg false x.a l
    let b := c.opnd x.ty x.b l
    let p (i : Nat) : FVal × FFlags := (fval c.t.ftz x.ty (elemAt x.ty a i)).mul (fval c.t.ftz x.ty (elemAt x.ty b i))
    fsum c.t.ftz .f32 (fpctlMode c.t.fpctl) [(p 0).1, (p 1).1, fval c.t.ftz .f32 (c.reg false x.c l)] ((p 0).2 ||| (p 1).2)

/-! ### Pairs (R39) -/

/-- Value of a two-operand pairable operation in a lane. -/
def Ctx.pairAlu2 (c : Ctx) (op : PairAlu2) (x : Alu2) (l : Nat) : Nat × FFlags :=
  let i (f : Ty → Nat → Nat → Nat) : Nat × FFlags := (c.map2 x (f x.ty) l, 0)
  match op with
  | .iadd => i iaddE | .isub => i isubE | .imul => i imulE | .imin => i iminE | .imax => i imaxE
  | .and => i fun _ a b => a &&& b
  | .or => i fun _ a b => a ||| b
  | .xor => i fun _ a b => a ^^^ b
  | .shl => i shlE | .shr => i shrE | .sar => i sarE
  | .fadd => c.fmap2 x faddE l
  | .fsub => c.fmap2 x fsubE l
  | .fmul => c.fmap2 x fmulE l
  | .fmin => c.fmap2 x (fun z _ => fminE z false) l
  | .fmax => c.fmap2 x (fun z _ => fminE z true) l

def Ctx.pairAlu1 (c : Ctx) (op : PairAlu1) (x : Alu1) (l : Nat) : Nat :=
  match op with
  | .mov => c.reg x.ty.wide x.a l
  | .fneg => c.map1 x (fnegE c.t.ftz x.ty) l
  | .fabs => c.map1 x (fabsE c.t.ftz x.ty) l

def Slot.guard : Slot → Guard
  | .alu2 _ x => x.g
  | .alu1 _ x => x.g
  | .movi x => x.g
  | .icmp x => x.g
  | .fcmp x => x.g
  | .plog x => x.g

/-- One slot under its own guard; its sources are those before the pair (R38, R39). -/
def Ctx.slot (c : Ctx) (x : Slot) (t : Task) : Task :=
  let act := c.t.guarded (Slot.guard x) c.group
  let c : Ctx := { c with act := act }
  let toP (dst : Fin 8) (f : Nat → Bool × FFlags) : Task :=
    ((lanesOf act).foldl (fun t l => t.raise (f l).2) t).setPred dst act (maskOf ((lanesOf act).filter fun l => (f l).1))
  match x with
  | .alu2 op x => t.compute x.ty x.dst act (c.pairAlu2 op x)
  | .alu1 op x => t.compute x.ty x.dst act fun l => (c.pairAlu1 op x l, 0)
  | .movi x => t.compute x.ty x.dst act fun l => (c.movi x l, 0)
  | .icmp x => toP x.dst fun l => (c.icmp x l, 0)
  | .fcmp x => toP x.dst (c.fcmp x)
  | .plog x => toP x.dst fun l => (c.plog x l, 0)

/-- A pair: one charge of 2, slot 0 before slot 1 (R39). -/
def execPair (a b : Slot) (s : State) : Host.Outcome State Fault Refusal :=
  issue s 16 { neg := false, p := 0 } fun c => c.simple 2 fun t => c.slot b (c.slot a t)

end Sys2Proof.Machine
end

