-- ==== Sys2Proof/Machine/CrossLane.lean ====
section
/-! DEFINITION. Cross-lane instructions (spec/06_vector.md R149-R153): every read sees the values at the instruction's boundary. -/

namespace Sys2Proof.Machine

/-- A shuffle (R149): srcA of lane j, or the lane's own where j is outside the task. -/
def shuffle (x : Alu2) (j : Nat → Nat → Int) (s : State) : Host.Outcome State Fault Refusal :=
  issue s 8 x.g fun c => c.aluI x.ty x.dst fun l =>
    let k := match x.b with | .reg r => c.reg x.ty.wide r l | .imm i => i.toNat
    let src := j l k
    c.reg x.ty.wide x.a (if 0 ≤ src && src < (c.t.lanes.length : Int) then src.toNat else l)

def execShfl (x : Alu2) (s : State) : Host.Outcome State Fault Refusal := shuffle x (fun _ k => k) s
def execShflx (x : Alu2) (s : State) : Host.Outcome State Fault Refusal := shuffle x (fun l k => (l ^^^ k : Nat)) s
def execShflup (x : Alu2) (s : State) : Host.Outcome State Fault Refusal := shuffle x (fun l k => (l : Int) - k) s
def execShfldn (x : Alu2) (s : State) : Host.Outcome State Fault Refusal := shuffle x (fun l k => (l + k : Nat)) s

/-- VOTE (R150). -/
def execVote (x : Vote) (s : State) : Host.Outcome State Fault Refusal :=
  issue s 8 x.g fun c => c.uniform 1 <| c.simple 1 fun t =>
    let v := c.reg x.ty.wide x.a
    let ls := lanesOf c.act
    let one : Bool := match x.mode with
      | .any | .ballot => ls.any fun l => v l != 0
      | .all => ls.all fun l => v l != 0
      | .eq => ls.all fun l => v l == v c.low
    match x.dst with
    | .p n => t.setPred n c.group (if one then BitVec.allOnes 64 else 0)
    | .s n => t.wrS n (match x.mode with
      | .ballot => maskOf (ls.filter fun l => v l != 0)
      | _ => if one then 1 else 0)

/-- The operation of a fold; f32 rounds to nearest even and keeps subnormals (R151). -/
def foldOp (op : FoldOp) (ty : Ty) (x y : Nat) : Nat :=
  match op with
  | .add => if ty = .f32 then (sumRound .f32 .rne [Fmt.f32.decode x, Fmt.f32.decode y] 0).1 else iaddE ty x y
  | .min => if ty = .f32 then (fminE false false .f32 x y).1 else iminE ty x y
  | .max => if ty = .f32 then (fminE false true .f32 x y).1 else imaxE ty x y
  | .and => x &&& y
  | .or => x ||| y
  | .xor => x ^^^ y

/-- The identity of an empty exclusive prefix (R151). -/
def foldId (op : FoldOp) (ty : Ty) : Nat :=
  match op with
  | .add | .or | .xor => 0
  | .and => 2 ^ Ty.w ty - 1
  | .min => if ty = .f32 then Fmt.f32.infCode else wrap (Ty.w ty) ty.range.2
  | .max => if ty = .f32 then Fmt.f32.signBit + Fmt.f32.infCode else wrap (Ty.w ty) ty.range.1

/-- NaN results are canonical (R151). -/
def foldFix (ty : Ty) (x : Nat) : Nat := if ty = .f32 && (Fmt.f32.decode x).isNan then Fmt.f32.nanCode else x

/-- The fold over a list in ascending lane order, from the first value. -/
def foldVals (op : FoldOp) (ty : Ty) : List Nat → Nat
  | [] => foldId op ty
  | x :: r => foldFix ty (r.foldl (foldOp op ty) x)

def execPrfx (x : Prfx) (s : State) : Host.Outcome State Fault Refusal :=
  issue s 8 x.g fun c => c.aluI x.ty x.dst fun l =>
    foldVals x.op x.ty (((lanesOf c.act).filter fun j => if x.excl then j < l else j ≤ l).map (c.reg x.ty.wide x.a))

def execRedv (x : Redv) (s : State) : Host.Outcome State Fault Refusal :=
  issue s 8 x.g fun c => c.aluI x.ty (.s x.dst) fun _ => foldVals x.op x.ty ((lanesOf c.act).map (c.reg x.ty.wide x.a))

/-- CONFL (R152): a pair of registers when W = 64. -/
def execConfl (x : Alu1) (s : State) : Host.Outcome State Fault Refusal :=
  issue s 8 x.g fun c => c.aluI (if c.k.w = 64 then .n64 else .n32) x.dst fun l =>
    let v := c.reg x.ty.wide x.a
    (maskOf ((lanesOf c.act).filter fun j => j < l && v j == v l)).toNat

/-- CPACK (R153): the values of the guard-true lanes to the lowest lanes of the group, and their count. -/
def execCpack (x : Cpack) (s : State) : Host.Outcome State Fault Refusal :=
  issue s 12 x.g fun c => c.uniform 1 <| c.simple 1 fun t =>
    let from_ := lanesOf c.act
    let t1 := (from_.zip (lanesOf c.group)).foldl (fun t p => t.put x.ty x.dst p.2 (c.reg x.ty.wide x.a p.1)) t
    t1.wrS x.cnt (BitVec.ofNat 64 from_.length)

end Sys2Proof.Machine
end

