-- ==== Sys2Proof/WellFormed.lean ====
section
/-! DEFINITION. Well-formed instructions of a kernel with N registers and width W: each check carries the reason that R44 gives its
failure. The decoder makes the same checks on what it has read (spec/02_encoding.md R33-R45 and the entries of each class). -/

namespace Sys2Proof

/-- A check: whether it holds, and the reason recorded where it does not (R44). -/
abbrev Check := Bool × Nat

/-! ### Registers (R33, R42) -/

def Reg.isV : Reg → Bool
  | .v _ => true
  | .s _ => false

/-- A register for a 32-bit value: a v specifier is below N. -/
def Reg.ok (n : Nat) : Reg → Bool
  | .v r => Nat.blt r.val n
  | .s _ => true

/-- A register for a 64-bit value: a v pair is even and below N. -/
def Reg.okPair (n : Nat) : Reg → Bool
  | .v r => r.val % 2 == 0 && Nat.blt (r.val + 1) n
  | .s _ => true

/-- A register for a value of a type. -/
def Reg.okTy (n : Nat) (t : Ty) (r : Reg) : Bool := if t.wide then r.okPair n else r.ok n

def Opnd.isV : Opnd → Bool
  | .reg r => r.isV
  | .imm _ => false

def Opnd.okTy (n : Nat) (t : Ty) : Opnd → Bool
  | .reg r => r.okTy n t
  | .imm _ => true

/-- An l6 immediate leaves bits [7:6] and [15:14] zero (R35). -/
def immOk (t : Ty) (x : BitVec 16) : Bool := t != .l6 || x &&& 0xC0C0 == 0

def Opnd.immOk (t : Ty) : Opnd → Bool
  | .reg _ => true
  | .imm x => Sys2Proof.immOk t x

def Opnd.isReg : Opnd → Bool
  | .reg _ => true
  | .imm _ => false

/-- A type the entry lists. -/
def chkTy (p : Ty → Bool) (t : Ty) : Check := (p t, 9)
def chkReg (n : Nat) (t : Ty) (r : Reg) : Check := (r.okTy n t, 10)
def chkReg32 (n : Nat) (r : Reg) : Check := (r.ok n, 10)
def chkPair (n : Nat) (r : Reg) : Check := (r.okPair n, 10)
/-- A destination that must be a v register. -/
def chkV (r : Reg) : Check := (r.isV, 10)
/-- An s destination takes no v source (R42). -/
def chkUni (dst : Reg) (srcs : List Bool) : Check := (dst.isV || srcs.all (!·), 11)
/-- A source that must be an s register. -/
def chkS (r : Reg) : Check := (!r.isV, 11)

/-! ### Type lists -/

def Ty.isIntB (t : Ty) : Bool := t.isInt || t == .b32
def Ty.isMad (t : Ty) : Bool := t.isInt && t != .i8 && t != .n8
def Ty.isSgn (t : Ty) : Bool := t == .i32 || t == .i64 || t == .i16 || t == .i8
def Ty.isFp (t : Ty) : Bool := t == .f32 || t == .f16 || t == .bf16
def Ty.isWord (t : Ty) : Bool := t == .i32 || t == .n32 || t == .i64 || t == .n64
def Ty.isRed (t : Ty) : Bool := t.isWord || t == .f32 || t == .b32
def Ty.isTileTy (t : Ty) : Bool := t == .f16 || t == .bf16 || t == .e4m3 || t == .e5m2 || t == .l6 || t == .i8 || t == .n8
def anyTy (_ : Ty) : Bool := true

/-! ### Operand shapes -/

def Alu1.checks (n : Nat) (p : Ty → Bool) (x : Alu1) : List Check :=
  [chkTy p x.ty, chkReg n x.ty x.dst, chkReg n x.ty x.a, chkUni x.dst [x.a.isV]]

def Alu2.checks (n : Nat) (p : Ty → Bool) (x : Alu2) : List Check :=
  [chkTy p x.ty, chkReg n x.ty x.dst, chkReg n x.ty x.a, (x.b.okTy n x.ty, 10), chkUni x.dst [x.a.isV, x.b.isV]]

def Alu3.checks (n : Nat) (p : Ty → Bool) (x : Alu3) : List Check :=
  [chkTy p x.ty, chkReg n x.ty x.dst, chkReg n x.ty x.a, (x.b.okTy n x.ty, 10), chkReg n x.ty x.c,
    chkUni x.dst [x.a.isV, x.b.isV, x.c.isV]]

def BitField.checks (n : Nat) (bfx : Bool) (x : BitField) : List Check :=
  [(!bfx || x.b == .v 0, 7), chkTy Ty.isWord x.ty, chkReg n x.ty x.dst, chkReg n x.ty x.a, chkReg n x.ty x.b,
    chkUni x.dst [x.a.isV, !bfx && x.b.isV],
    (Nat.blt x.pos.val x.ty.elem.1 && Nat.ble 1 x.len.val && Nat.ble x.len.val x.ty.elem.1, 12)]

def Icmp.checks (n : Nat) (x : Icmp) : List Check :=
  [chkTy Ty.isIntB x.ty, chkReg n x.ty x.a, (match x.b with | .reg r => r.okTy n x.ty | .imm _ => true, 10),
    (x.ty != .b32 || x.cond == .eq || x.cond == .ne, 12)]

def Fcmp.checks (n : Nat) (x : Fcmp) : List Check := [chkTy Ty.isFp x.ty, chkReg n x.ty x.a, chkReg n x.ty x.b]

def Sel.checks (n : Nat) (x : Sel) : List Check :=
  [chkReg n x.ty x.dst, chkReg n x.ty x.a, (x.b.okTy n x.ty, 10), chkUni x.dst [x.a.isV, x.b.isV], (x.b.immOk x.ty, 12)]

def Movi.checks (n : Nat) (x : Movi) : List Check := [chkReg n x.ty x.dst, (immOk x.ty x.imm, 12)]

def Movw.checks (n : Nat) (x : Movw) : List Check := [(x.ty.wide || x.imm >>> 32 == 0, 7), chkReg n x.ty x.dst]

def Lea.checks (n : Nat) (x : Lea) : List Check :=
  [chkTy (fun t => t == .i32 || t == .n32 || t == .i64) x.ty, chkPair n x.dst, chkPair n x.base, chkReg n x.ty x.index,
    chkUni x.dst [x.base.isV, x.index.isV]]

/-- DOT4 and FDOT2: 32-bit registers, no immediate. -/
def Alu3.dotChecks (n : Nat) (p : Ty → Bool) (x : Alu3) : List Check := x.checks n p ++ [(x.b.isReg, 12)]

def Cvt.checks (n : Nat) (x : Cvt) : List Check :=
  [chkTy (· != .b32) x.ty, chkReg n x.ty x.dst, chkReg n x.src x.a, chkUni x.dst [x.a.isV], (x.src != .b32, 12)]

def Ty.two (t : Ty) : Bool := t.elem.2 == 2

def Pack.checks (n : Nat) (x : Pack) : List Check :=
  [chkTy (fun t => t.isTileTy || t == .i16 || t == .n16) x.ty, chkReg32 n x.dst, chkReg32 n x.a, chkReg32 n x.b, chkReg32 n x.c,
    chkUni x.dst [x.a.isV, x.b.isV, !x.ty.two && x.c.isV],
    (if x.ty.isFloat then x.src == .f32 else x.src == .i32 || x.src == .n32, 12),
    (!x.ty.two || (x.c == .v 0 && !x.half), 12)]

def Unpk.checks (n : Nat) (x : Unpk) : List Check :=
  let pairing : Bool := match x.ty with
    | .f32 => x.src.isFloat && x.src != .f32
    | .i32 => x.src == .i16 || x.src == .i8
    | .n32 => x.src == .n16 || x.src == .n8
    | _ => false
  [chkTy (fun t => t == .f32 || t == .i32 || t == .n32) x.ty, chkReg32 n x.dst, chkReg32 n x.a, chkUni x.dst [x.a.isV],
    (pairing && Nat.blt x.idx.val x.src.elem.2, 12)]

/-- SHFL and its kin: as for every v operand of a 64-bit type, srcB is a pair there (R129). -/
def Alu2.shflChecks (n : Nat) (x : Alu2) : List Check :=
  [chkReg n x.ty x.dst, chkReg n x.ty x.a, (x.b.okTy n x.ty, 10), chkUni x.dst [x.a.isV, x.b.isV]]

def ElectDst.isP : ElectDst → Bool
  | .s _ => false
  | .p _ => true

def Vote.checks (n : Nat) (x : Vote) : List Check :=
  [chkTy (fun t => t.isWord || t == .b32) x.ty, chkReg n x.ty x.a, (!(x.mode == .ballot && x.dst.isP), 12)]

/-- Operations of PRFX and REDV by type (R151). -/
def FoldOp.takes (op : FoldOp) (t : Ty) : Bool :=
  match op with
  | .add | .min | .max => t.isWord || t == .f32
  | .and | .or | .xor => t.isWord || t == .b32

def Prfx.checks (n : Nat) (x : Prfx) : List Check :=
  [chkTy Ty.isRed x.ty, chkV x.dst, chkReg n x.ty x.dst, chkReg n x.ty x.a, (x.op.takes x.ty, 12)]

def Redv.checks (n : Nat) (x : Redv) : List Check := [chkTy Ty.isRed x.ty, chkReg n x.ty x.a, (x.op.takes x.ty, 12)]

def Alu1.conflChecks (n w : Nat) (x : Alu1) : List Check :=
  [chkTy Ty.isRed x.ty, chkV x.dst, (if w = 64 then x.dst.okPair n else x.dst.ok n, 10), chkReg n x.ty x.a]

def Cpack.checks (n : Nat) (x : Cpack) : List Check := [chkV x.dst, chkReg n x.ty x.dst, chkReg n x.ty x.a]

def Sf1.checks (n : Nat) (x : Sf1) : List Check := [chkTy Ty.isFp x.ty, chkReg n x.ty (.v x.dst), chkReg n x.ty x.a]

def SfDiv.checks (n : Nat) (x : SfDiv) : List Check :=
  [chkTy Ty.isFp x.ty, chkReg n x.ty (.v x.dst), chkReg n x.ty x.a, chkReg n x.ty x.b]

/-- The remainder's registers do not overlap the quotient's (R159). -/
def apart (t : Ty) (a b : Fin 192) : Bool :=
  if t.wide then a.val / 2 != b.val / 2 else a != b

def SfIdiv.checks (n : Nat) (x : SfIdiv) : List Check :=
  [chkTy Ty.isWord x.ty, chkReg n x.ty (.v x.dst), chkReg n x.ty x.a, chkReg n x.ty x.b,
    (match x.rem with | none => true | some r => Reg.okTy n x.ty (.v r), 10),
    (match x.rem with | none => true | some r => apart x.ty x.dst r, 12)]

/-! ### Memory and atomics -/

/-- Operands of a per-lane global access. -/
def MemAddr.globalChecks (n : Nat) (a : MemAddr) : List Check := [chkPair n a.base, chkReg32 n a.index]
/-- Operands of a private or scratch access. -/
def MemAddr.localChecks (n : Nat) (a : MemAddr) : List Check := [chkReg32 n a.base, chkReg32 n a.index]
/-- Operands of a uniform access. -/
def MemAddr.uniChecks (n : Nat) (a : MemAddr) : List Check :=
  [chkReg32 n a.base, chkReg32 n a.index, chkS a.base, chkS a.index]

def Mem.checks (n : Nat) (long : Bool) (p : Ty → Bool) (addr : List Check) (x : Mem) : List Check :=
  [(long || x.la == 0, 8), chkTy p x.ty, chkV x.data, chkReg n x.ty x.data] ++ addr

def Mem.uniChecks (n : Nat) (long : Bool) (x : Mem) : List Check :=
  [(long || x.la == 0, 8), chkReg n x.ty x.data, chkS x.data] ++ x.addr.uniChecks n

/-- Types of private accesses (R185). -/
def Ty.isPriv (t : Ty) : Bool := Nat.ble 4 t.bytes

def Fifo.checks (n : Nat) (long : Bool) (x : Fifo) : List Check :=
  [(long || x.la == 0, 8), chkTy (fun t => t.bytes == 4) x.ty, chkV x.data, chkReg32 n x.data]

/-- Types of an atomic operation (R231). -/
def AtomOp.takes (op : AtomOp) (t : Ty) : Bool :=
  match op with
  | .add => t.isWord || t == .f32
  | .min | .max => t.isWord
  | .and | .or | .xor => t.isWord || t == .b32
  | .xchg => t.isRed

/-- A displacement of 11 bits (R248). -/
def dispOk (d : BitVec 16) : Bool := (d.extractLsb' 0 11).signExtend 16 == d

def atomAddr (n : Nat) (scr : Bool) (a : MemAddr) (data : Reg) : List Check :=
  [(dispOk a.disp, 7), if scr then chkReg32 n a.base else chkPair n a.base, chkReg32 n a.index,
    (data.isV || !(a.base.isV || a.index.isV), 11)]

def Atom.checks (n : Nat) (scr : Bool) (x : Atom) : List Check :=
  [(x.ret || x.la == 0, 8), chkTy x.op.takes x.ty, chkReg n x.ty x.data] ++ atomAddr n scr x.addr x.data

def Cas.checks (n : Nat) (x : Cas) : List Check :=
  [chkTy Ty.isRed x.ty, chkReg n x.ty x.data, chkReg n x.ty x.cmp, (x.data.isV || !x.cmp.isV, 11)] ++ atomAddr n false x.addr x.data

def ScopedMem.checks (n : Nat) (long : Bool) (x : ScopedMem) : List Check :=
  [(long || x.la == 0, 8), chkTy Ty.isRed x.ty, chkReg n x.ty x.data] ++ atomAddr n false x.addr x.data

/-! ### Engines, capsules, tasks -/

/-- Scopes of an arrival (R297, R304). -/
def Scope.arrives : Scope → Bool
  | .task | .ply => false
  | _ => true

def Tail.checks (t : Tail) : List Check :=
  [(t.scope.arrives, 12), (t.arrive != some 0xFFFF, 7), (t.gate != some 0xFFFF, 7)]

def evenOrNone (r : Fin 64) : Bool := r.val % 2 == 0 || r == 63

def TcTile.checks (x : TcTile) : List Check :=
  [chkTy Ty.isTileTy x.ty, (evenOrNone x.origin, 10)] ++ x.tail.checks

def TcQnt2.checks (x : TcQnt2) : List Check :=
  [chkTy (fun t => t == .e4m3 || t == .e5m2 || t == .l6 || t == .i8) x.ty, (evenOrNone x.origin, 10)] ++ x.tail.checks

def TcFill.checks (x : TcFill) : List Check :=
  (match x.mode with | .tile t => [chkTy Ty.isTileTy t, (x.len == 63, 12)] | _ => []) ++ x.tail.checks

def CapEnter.checks (n : Nat) (x : CapEnter) : List Check :=
  [(x.dst.val % 4 == 0 && Nat.blt (x.dst.val + 3) n, 10), chkPair n x.cell, chkPair n x.slot, chkPair n x.code,
    (match x.args with | none => true | some r => r.val % 2 == 0 && Nat.blt (r.val + 7) n, 10)]

def SpawnF.checks (x : SpawnF) : List Check :=
  [(if x.argc = 0 then x.arg0 == 63 else Nat.ble (x.arg0.val + x.argc.val) 64, 12), (x.entry &&& 3 == 0, 12)]

def Target.checks (n : Nat) : Target → List Check
  | .reg r => [chkReg32 n r]
  | .rel _ => []

/-! ### Pairs (R38) -/

/-- Registers that a specifier stands for with a type. -/
def Reg.span (t : Ty) (r : Reg) : List Reg :=
  match r with
  | .v x => if t.wide then [.v x, .v (x + 1)] else [.v x]
  | .s x => [.s x]

def Opnd.span (t : Ty) : Opnd → List Reg
  | .reg r => r.span t
  | .imm _ => []

/-- What a slot does to registers and predicates. -/
structure SlotSets where
  dst : List Reg
  pdst : Option (Fin 8)
  src : List Reg
  psrc : List (Fin 8)
  mul : Bool
  deriving DecidableEq, Repr

def Slot.sets : Slot → SlotSets
  | .alu2 op x =>
    { dst := x.dst.span x.ty, pdst := none, src := x.a.span x.ty ++ x.b.span x.ty, psrc := [x.g.p], mul := op == .imul || op == .fmul }
  | .alu1 _ x => { dst := x.dst.span x.ty, pdst := none, src := x.a.span x.ty, psrc := [x.g.p], mul := false }
  | .movi x => { dst := x.dst.span x.ty, pdst := none, src := [], psrc := [x.g.p], mul := false }
  | .icmp x =>
    { dst := [], pdst := some x.dst, src := x.a.span x.ty ++ (match x.b with | .reg r => r.span x.ty | .imm _ => [])
      psrc := [x.g.p], mul := false }
  | .fcmp x => { dst := [], pdst := some x.dst, src := x.a.span x.ty ++ x.b.span x.ty, psrc := [x.g.p], mul := false }
  | .plog x => { dst := [], pdst := some x.dst, src := [], psrc := [x.g.p, x.a, x.b], mul := false }

/-- Numbers of the v registers of a list, each once. -/
def vNumbers (rs : List Reg) : List Nat := distinct (rs.filterMap fun r => match r with | .v x => some x.val | .s _ => none)

/-- Whether a slot's destination is per lane. -/
def SlotSets.perLane (x : SlotSets) : Bool := x.pdst.isSome || x.dst.all Reg.isV

/-- Conditions 2 to 7 of R38. -/
def pairOk (a b : Slot) : Bool :=
  let x := a.sets
  let y := b.sets
  let vs := vNumbers (x.src ++ y.src)
  !x.dst.any (fun r => y.dst.contains r) && !x.dst.any (fun r => y.src.contains r) &&
    (match x.pdst with | none => true | some p => y.pdst != some p && !y.psrc.contains p) &&
    !(x.mul && y.mul) && !(x.pdst.isSome && y.pdst.isSome) && (distinct (vs.map (· % 4))).length == vs.length &&
    (x.perLane == y.perLane)

/-- Types of a pairable two-operand operation. -/
def PairAlu2.tys : PairAlu2 → Ty → Bool
  | .iadd | .isub | .imul | .imin | .imax => Ty.isInt
  | .and | .or | .xor | .shl | .shr | .sar => Ty.isIntB
  | .fadd | .fsub | .fmul | .fmin | .fmax => Ty.isFp

def PairAlu1.tys : PairAlu1 → Ty → Bool
  | .mov => anyTy
  | .fneg | .fabs => Ty.isFp

def Slot.checks (n : Nat) : Slot → List Check
  | .alu2 op x => x.checks n op.tys
  | .alu1 op x => x.checks n op.tys
  | .movi x => x.checks n
  | .icmp x => x.checks n
  | .fcmp x => x.checks n
  | .plog _ => []

/-! ### Instructions -/

/-- The checks of an instruction in a kernel with N registers and width W; an event of a device unit has none. -/
def Instr.checks (n w : Nat) : Instr → List Check
  | .brx _ src _ => [chkReg32 n src]
  | .callx _ dst t => chkReg32 n (.v dst) :: t.checks n
  | .ret _ (some r) => [chkReg32 n r]
  | .meet _ t => t.checks n
  | .elect _ _ (some v) => [chkReg32 n (.v v)]
  | .quant _ x => [(x != 0, 12)]
  | .pair a b => a.checks n ++ b.checks n ++ [(pairOk a b, 13)]
  | .spawn x | .spawnx x _ => x.checks
  | .spawnf x k => x.checks ++ [(k != 0, 12)]
  | .join _ dst _ | .joinany _ dst => [(dst.val % 2 == 0, 10)]
  | .plynew _ _ cap => [(cap != 0, 12)]
  | .iadd x | .isub x | .iadds _ x | .imul x | .imulh x | .imin x | .imax x => x.checks n Ty.isInt
  | .imad x => x.checks n Ty.isMad
  | .iabs _ x => x.checks n Ty.isSgn
  | .and x | .or x | .xor x | .andn x | .shl x | .shr x | .sar x => x.checks n Ty.isIntB
  | .clz x | .popc x | .brev x => x.checks n Ty.isIntB
  | .bfx x => x.checks n true
  | .bfi x => x.checks n false
  | .icmp x => x.checks n
  | .sel x => x.checks n
  | .mov x => x.checks n anyTy
  | .movi x => x.checks n
  | .movw x => x.checks n
  | .lea x => x.checks n
  | .movsp x => [if x.wide then chkPair n x.dst else chkReg32 n x.dst]
  | .dot4 sat x => x.dotChecks n (fun t => t == .e4m3 || t == .e5m2 || t == .i8 || t == .n8) ++ [(!(sat && x.ty.isFloat), 12)]
  | .fadd x | .fsub x | .fmul x | .fmin x | .fmax x => x.checks n Ty.isFp
  | .ffma x => x.checks n Ty.isFp
  | .fneg x | .fabs x | .fclass x | .frnd _ x => x.checks n Ty.isFp
  | .fcmp x => x.checks n
  | .cvt x => x.checks n
  | .pack x => x.checks n
  | .unpk x => x.checks n
  | .fdot2 x => x.dotChecks n fun t => t == .f16 || t == .bf16
  | .shfl x | .shflx x | .shflup x | .shfldn x => x.shflChecks n
  | .vote x => x.checks n
  | .prfx x => x.checks n
  | .redv x => x.checks n
  | .confl x => x.conflChecks n w
  | .cpack x => x.checks n
  | .sfRcp x | .sfRsq x | .sfSqrt x | .sfExp2 x | .sfLog2 x | .sfSin x | .sfCos x | .sfTanh x | .sfSigm x | .sfGelu x => x.checks n
  | .sfDiv x => x.checks n
  | .sfIdiv x => x.checks n
  | .ld x => x.checks n true anyTy (x.addr.globalChecks n)
  | .st x => x.checks n false anyTy (x.addr.globalChecks n)
  | .ldu x => x.uniChecks n true
  | .stu x => x.uniChecks n false
  | .ldp x => x.checks n true Ty.isPriv (x.addr.localChecks n)
  | .stp x => x.checks n false Ty.isPriv (x.addr.localChecks n)
  | .lds x => x.checks n true anyTy (x.addr.localChecks n)
  | .sts x => x.checks n false anyTy (x.addr.localChecks n)
  | .fpsh x => x.checks n false
  | .fpop x => x.checks n true
  | .prf _ _ a => a.globalChecks n
  | .cctl _ op a => (op != .l1all || a.base == .s 63, 7) :: a.uniChecks n
  | .probe _ _ a => a.uniChecks n
  | .atom x | .atomd x => x.checks n false
  | .cas x => x.checks n
  | .lda x => x.checks n true
  | .stl x => x.checks n false
  | .atoms x => x.checks n true
  | .tcLoad x | .tcStore x => x.checks
  | .tcQnt2 x => x.checks
  | .tcCopy x => x.tail.checks
  | .tcFill x => x.checks
  | .arrive _ (some sc) _ _ => [(sc.arrives, 12)]
  | .capEnter x => x.checks n
  | .capProbe x => [(x.dst.val % 2 == 0, 10)]
  | .cxAlu _ _ _ (some _) imm => [(imm == 0, 7)]
  | .cxBr _ _ _ off => [(off != 0 && !off.msb, 12)]
  | .mxArm x => [(x.count != 0, 12), (x.gate != some 0xFFFF, 7)]
  | .mxZero _ tiles => [(tiles != 0, 12)]
  | .mxDrain x => [(if x.mode == .tile then x.ty.isTileTy else x.ty == .i32, 9)]
  | .sysrd _ _ num | .syswr _ _ num => [(Nat.blt num.toNat 7 || Nat.ble 0x40 num.toNat, 12)]
  | .nop _ | .bra _ _ | .call _ _ | .ret _ none | .meetclr _ | .yield _ | .exit _ | .elect _ _ none | .illegalInstruction _ _ _
  | .topup _ _ _ _ _ | .resume _ _ _ | .cancel _ _ _ | .alwrd _ _ _ | .plyjoin _ _ | .plyleave _ _ | .plybar _ _ | .setpri _ _ _
  | .plog _ | .sfWait _ _ | .sfDelivery _ _ _ | .fifoRequestServed _ _ | .bankset _ _ _ | .pageTableWalk _ _ _ _ | .velhamLineRequest _
  | .resultReturn _ _ _ | .storeGloballyPerformed _ | .atomicApplication _ | .deferredFault _ | .aflush _ | .batchApplication _
  | .fence _ _ _ | .tcLyset _ _ _ _ | .arrive _ none _ _ | .await _ _ _ _ _ | .awaitTimeout _ _ | .awtest _ _ _ | .tcStat _ _
  | .engineOperationStart _ _ | .engineOperationComplete _ _ | .engineOperationFault _ _ | .capExit _ | .capAbort _ | .cellGrant _
  | .leaseExpiry _ | .cxGet _ _ | .cxPut _ _ | .cxLd _ _ _ | .cxAlu _ _ _ none _ | .cxMovi _ _ _ | .cxRes _ _ | .capExitStep
  | .capAbortStep | .epochClosed _ _ | .mxSign _ _ | .mxFence _ | .mxWait _ _ _ | .mxFill _ | .mxStep _ _ _ | .mxAbort _ _
  | .mxOperationStart _ | .matrixStep _ | .mxOperationComplete _ | .pgLoad _ | .pgRun _ | .pgSave _ _ | .pgRest _ | .pgStat _ _ _
  | .trap _ _ | .bkpt _ _ | .susp _ _ | .suspDelayExpiry _ | .taskPlacement _ _ | .stealRequest _ _ | .topupCredit _
  | .taskRetirement _ | .starvationSelect _ _ | .vfSliceExpiry _ _ _ | .preempt _ _ | .loadWithdrawal _ _ | .contextResume _ _ _
  | .fqheadWrite _ _ | .controlSpaceWrite _ _ _ | .replay _ _ | .skip _ _ | .terminate _ _ | .escalate _ _ | .halt _ _ | .release _ _
  | .pagerFaultGroup _ _ _ _ | .handlerSpawn _ | .tlbInvalidation _ _ _ | .sealCacheShootdown _ | .mxrst _ | .mxIdleExpiry _
  | .launchRecord _ _ _ _ | .tornWrite _ _ | .launchAdmission _ _ | .nodeStart _ _ | .nodeCompletion _ _ | .launchCompletion _
  | .apertureRead _ _ _ | .apertureWrite _ _ _ | .spawnxRequest _ | .queueSettings _ _ _ _ _ _ _ _ | .accessControlTable _ _ _ _
  | .bindRecord _ | .load _ | .upstreamHotReset | .verifiedBoot | .attestationRequest _ _ | .frzN | .freeze | .checkpoint | .restore
  | .counterMirror _ | .issueGating _ _ _ | .addressSpaceDescriptor _ | .teardown _ => []

/-- Well formed in a kernel with N registers and width W. -/
def Instr.wellFormed (n w : Nat) (i : Instr) : Bool := (i.checks n w).all (·.1)

end Sys2Proof
end

