-- ==== Sys2Proof/Decode.lean ====
section
/-! DEFINITION. The decoder, total on any bits and rejecting by reason (R43, R44), the decoder of capsule body words (R268, R278), and the
encoder, from the layouts of spec/02_encoding.md R28-R42 and the encoding tables of each class. -/

namespace Sys2Proof

/-! ### Fields of a word -/

/-- The fields of the common S layout (R28) with bits [127:64]. -/
structure Fields where
  op : BitVec 8
  la : BitVec 4
  dst : BitVec 8
  a : BitVec 8
  b : BitVec 8
  p : BitVec 3
  neg : BitVec 1
  ty : BitVec 4
  imm : BitVec 16
  i : BitVec 1
  mx : BitVec 1
  hi : BitVec 64
  deriving DecidableEq, Repr

/-- Cut a word into its fields (R28). -/
def Fields.ofWord (w : BitVec 128) : Fields :=
  { op := w.extractLsb' 2 8, la := w.extractLsb' 10 4, dst := w.extractLsb' 14 8, a := w.extractLsb' 22 8, b := w.extractLsb' 30 8
    p := w.extractLsb' 38 3, neg := w.extractLsb' 41 1, ty := w.extractLsb' 42 4, imm := w.extractLsb' 46 16, i := w.extractLsb' 62 1
    mx := w.extractLsb' 63 1, hi := w.extractLsb' 64 64 }

/-- Lay fields out behind a form (R24, R28). -/
def Fields.toWord (f : Fields) (form : BitVec 2) : BitVec 128 :=
  f.hi ++ f.mx ++ f.i ++ f.imm ++ f.ty ++ f.neg ++ f.p ++ f.b ++ f.a ++ f.dst ++ f.la ++ f.op ++ form

/-- One slot of a P form as fields: its major opcode, and the reserved bits of mod in hi (R32). -/
def Fields.ofSlot (x : BitVec 64) : Fields :=
  { op := 0x40 + (x.extractLsb' 2 6).setWidth 8, la := 0, dst := x.extractLsb' 8 8, a := x.extractLsb' 16 8, b := x.extractLsb' 24 8
    p := x.extractLsb' 32 3, neg := x.extractLsb' 35 1, ty := x.extractLsb' 36 4, imm := x.extractLsb' 40 16, i := x.extractLsb' 56 1
    mx := x.extractLsb' 57 1, hi := (x.extractLsb' 58 6).setWidth 64 }

/-- Lay a slot out: op6 is the major opcode minus 0x40 (R32). -/
def Fields.toSlot (f : Fields) (low : BitVec 2) : BitVec 64 :=
  (0 : BitVec 6) ++ f.mx ++ f.i ++ f.imm ++ f.ty ++ f.neg ++ f.p ++ f.b ++ f.a ++ f.dst ++ (f.op - 0x40).setWidth 6 ++ low

/-- srcC and the other bits of the third word (R29). -/
def Fields.c (f : Fields) : BitVec 8 := f.hi.setWidth 8
def Fields.x24 (f : Fields) : BitVec 24 := f.hi.extractLsb' 8 24

/-- Bits [127:64] of an M form. -/
def third (x24 : BitVec 24) (c : BitVec 8) : BitVec 64 := (0 : BitVec 32) ++ x24 ++ c

/-- The offset of the branch layout (R31). -/
def Fields.off (f : Fields) : BitVec 24 := f.b ++ f.a ++ f.dst

/-- The 18-bit field [63:46] (R28). -/
def Fields.imm18 (f : Fields) : BitVec 18 := f.mx ++ f.i ++ f.imm

def Fields.guard (f : Fields) : Guard := { neg := f.neg == 1, p := f.p.toFin }

/-- The element type of a code; code 0xF is checked apart. -/
def tyOf (x : BitVec 4) : Ty := (Ty.ofCode x.toNat).getD .i32

/-- A register field (R33). -/
def Reg.of (x : BitVec 8) : Reg := if h : x.toNat < 192 then .v ⟨x.toNat, h⟩ else .s ⟨x.toNat - 192, by omega⟩

def Reg.code : Reg → BitVec 8
  | .v r => BitVec.ofNat 8 r.val
  | .s r => BitVec.ofNat 8 (192 + r.val)

/-- A field that names an s register, and one that names a v register. -/
def sOf (x : BitVec 8) : Fin 64 := Fin.ofNat 64 x.toNat
def vOf (x : BitVec 8) : Fin 192 := Fin.ofNat 192 x.toNat
def sCode (r : Fin 64) : BitVec 8 := BitVec.ofNat 8 (192 + r.val)
def vCode (r : Fin 192) : BitVec 8 := BitVec.ofNat 8 r.val

/-- A field that names a predicate. -/
def pOf (x : BitVec 8) : Fin 8 := Fin.ofNat 8 x.toNat
def pCode (p : Fin 8) : BitVec 8 := BitVec.ofNat 8 p.val

/-! ### Checks on fields -/

/-- A reserved field. -/
def zr {n : Nat} (x : BitVec n) : Check := (x == 0, 7)

def Fields.noMx (f : Fields) : Check := (f.mx == 0, 7)
def Fields.noLa (f : Fields) : Check := (f.la == 0, 8)
/-- An entry that accepts no type (R34). -/
def Fields.noTy (f : Fields) : Check := (f.ty == 0, 9)
def Fields.okTy (f : Fields) : Check := (f.ty != 15, 9)

/-- An entry without an immediate; the bits of imm16 given are reserved while I = 0 (R28). -/
def Fields.immNone (f : Fields) (resv : BitVec 16 := 0xFFFF) : List Check :=
  [(f.i == 0 || f.b == 0, 7), (f.i == 1 || f.imm &&& resv == 0, 7), (f.i == 0, 12)]

/-- An entry that may take an immediate for srcB. -/
def Fields.immOpt (f : Fields) : List Check := [(if f.i == 1 then f.b == 0 else f.imm == 0, 7)]

/-- An entry that requires an immediate; the bits of imm16 given are reserved. -/
def Fields.immReq (f : Fields) (resv : BitVec 16 := 0) : List Check :=
  [(f.i == 0 || f.b == 0, 7), (f.imm &&& resv == 0, 7), (f.i == 1, 12)]

/-- A destination field that names an s register, of any number or of an even one. -/
def sDst (x : BitVec 8) : Check := (Nat.ble 192 x.toNat, 10)
/-- A source field that names an s register: a v specifier of N or above is reason 0x0A first (R33, R43). -/
def sSrc (n : Nat) (x : BitVec 8) : List Check := [(Nat.ble 192 x.toNat || Nat.blt x.toNat n, 10), (Nat.ble 192 x.toNat, 11)]
/-- A destination field that names a v register. -/
def vDst (x : BitVec 8) : Check := (Nat.blt x.toNat 192, 10)
/-- A field that names a predicate (R33). -/
def pFld (x : BitVec 8) : Check := (Nat.blt x.toNat 8, 10)

/-- The second source, or the immediate in its place. -/
def Fields.opnd (f : Fields) : Opnd := if f.i == 1 then .imm f.imm else .reg (Reg.of f.b)

/-- The second source register of an entry without an immediate; with I = 1 srcB names no register (R28). -/
def Fields.bReg (f : Fields) : Reg := if f.i == 1 then .s 63 else Reg.of f.b
/-- A second source that must be an s register. -/
def Fields.bSrc (n : Nat) (f : Fields) : List Check := if f.i == 1 then [] else sSrc n f.b

/-- What a word decodes to if its checks hold. -/
structure Dec where
  enc : List Check
  instr : Instr

/-- The reason of the first check in the order of R43 that fails. -/
def verdict : List Check → Option Nat
  | [] => none
  | (true, _) :: cs => verdict cs
  | (false, r) :: cs => match verdict cs with
    | none => some r
    | some q => some (min r q)

/-! ### Shapes -/

def Fields.alu1 (f : Fields) : Alu1 := { g := f.guard, ty := tyOf f.ty, dst := Reg.of f.dst, a := Reg.of f.a }
def Fields.alu2 (f : Fields) : Alu2 := { g := f.guard, ty := tyOf f.ty, dst := Reg.of f.dst, a := Reg.of f.a, b := f.opnd }
def Fields.alu3 (f : Fields) : Alu3 :=
  { g := f.guard, ty := tyOf f.ty, dst := Reg.of f.dst, a := Reg.of f.a, b := f.opnd, c := Reg.of f.c }

/-- One source, srcB = 0 and no immediate. -/
def Fields.enc1 (f : Fields) (resv : BitVec 16 := 0xFFFF) : List Check := [f.okTy, f.noLa, zr f.b] ++ f.immNone resv
/-- Two sources or an immediate. -/
def Fields.enc2 (f : Fields) : List Check := [f.okTy, f.noLa] ++ f.immOpt

def d1 (f : Fields) (c : Alu1 → Instr) : Dec := { enc := f.noMx :: f.enc1, instr := c f.alu1 }
def d2 (f : Fields) (c : Alu2 → Instr) : Dec := { enc := f.noMx :: f.enc2, instr := c f.alu2 }
def d3 (f : Fields) (c : Alu3 → Instr) : Dec := { enc := [f.noMx, zr f.x24] ++ f.enc2, instr := c f.alu3 }
/-- Three sources without an immediate. -/
def d3r (f : Fields) (mx : List Check) (c : Alu3 → Instr) : Dec :=
  { enc := mx ++ [zr f.x24, f.okTy, f.noLa] ++ f.immNone, instr := c { f.alu3 with b := .reg f.bReg } }

/-- Nothing but a guard. -/
def dPlain (f : Fields) (c : Guard → Instr) : Dec :=
  { enc := [f.noMx, zr f.dst, zr f.a, zr f.b, f.noLa, f.noTy] ++ f.immNone, instr := c f.guard }

/-- A branch (R31). -/
def dBranch (f : Fields) (c : Guard → BitVec 24 → Instr) : Dec :=
  { enc := [f.noMx, zr f.i, zr f.imm, zr f.ty, f.noLa], instr := c f.guard f.off }

/-- Conditions of ICMP (R135) and FCMP (R144). -/
def icondOf : Nat → Option ICond
  | 0 => some .eq | 1 => some .ne | 2 => some .lt | 3 => some .le | 4 => some .gt | 5 => some .ge | _ => none
def ICond.code : ICond → BitVec 4
  | .eq => 0 | .ne => 1 | .lt => 2 | .le => 3 | .gt => 4 | .ge => 5
def fcondOf : Nat → Option FCond
  | 0 => some .eq | 1 => some .ne | 2 => some .lt | 3 => some .le | 4 => some .gt | 5 => some .ge | 6 => some .ord | 7 => some .uno
  | _ => none
def FCond.code : FCond → BitVec 4
  | .eq => 0 | .ne => 1 | .lt => 2 | .le => 3 | .gt => 4 | .ge => 5 | .ord => 6 | .uno => 7

/-- Rounding modes of an entry: 0 to 4, or 8 for FPCTL.RM (R145, R146, R159). -/
def modeOf : Nat → Option (Option RMode)
  | 0 => some (some .rne) | 1 => some (some .rtz) | 2 => some (some .rdn) | 3 => some (some .rup) | 4 => some (some .rod)
  | 8 => some none | _ => none
def modeCode : Option RMode → BitVec 4
  | some .rne => 0 | some .rtz => 1 | some .rdn => 2 | some .rup => 3 | some .rod => 4 | none => 8

def foldOf : Nat → Option FoldOp
  | 0 => some .add | 1 => some .min | 2 => some .max | 3 => some .and | 4 => some .or | 5 => some .xor | _ => none
def FoldOp.code : FoldOp → BitVec 3
  | .add => 0 | .min => 1 | .max => 2 | .and => 3 | .or => 4 | .xor => 5

def atomOf : Nat → Option AtomOp
  | 0 => some .add | 1 => some .min | 2 => some .max | 3 => some .and | 4 => some .or | 5 => some .xor | 6 => some .xchg | _ => none
def AtomOp.code : AtomOp → BitVec 4
  | .add => 0 | .min => 1 | .max => 2 | .and => 3 | .or => 4 | .xor => 5 | .xchg => 6

def scopeOf : Nat → Option Scope
  | 0 => some .task | 1 => some .ply | 2 => some .core | 3 => some .die | 4 => some .device | 5 => some .domain | 6 => some .system
  | _ => none
def Scope.bits3 : Scope → BitVec 3
  | .task => 0 | .ply => 1 | .core => 2 | .die => 3 | .device => 4 | .domain => 5 | .system => 6

/-- A value that the entry defines, or reason 0x0C. -/
def defined {α : Type} (x : Option α) : Check := (x.isSome, 12)

/-- Bits lo and up of a 16-bit field. -/
def fld (x : BitVec 16) (lo n : Nat) : Nat := bits x.toNat lo n

def Fields.icmp (f : Fields) : Icmp :=
  { g := f.guard, ty := tyOf f.ty, any := f.mx == 1, cond := (icondOf (fld f.imm 12 4)).getD .eq, dst := pOf f.dst, a := Reg.of f.a
    b := if f.i == 1 then .imm (f.imm.setWidth 12) else .reg (Reg.of f.b) }

def Fields.encIcmp (f : Fields) : List Check :=
  [f.okTy, f.noLa, (if f.i == 1 then f.b == 0 else f.imm &&& 0xFFF == 0, 7), pFld f.dst, defined (icondOf (fld f.imm 12 4))]

def Fields.fcmp (f : Fields) : Fcmp :=
  { g := f.guard, ty := tyOf f.ty, any := f.mx == 1, cond := (fcondOf (fld f.imm 12 4)).getD .eq, dst := pOf f.dst, a := Reg.of f.a
    b := f.bReg }

def Fields.encFcmp (f : Fields) : List Check := [f.okTy, f.noLa, pFld f.dst, defined (fcondOf (fld f.imm 12 4))] ++ f.immNone 0xFFF

def Fields.movi (f : Fields) : Movi := { g := f.guard, ty := tyOf f.ty, dst := Reg.of f.dst, imm := f.imm }
def Fields.encMovi (f : Fields) : List Check := [f.noMx, f.okTy, f.noLa, zr f.a] ++ f.immReq

def Fields.plog (f : Fields) : Plog :=
  { g := f.guard, dst := pOf f.dst, a := pOf f.a, b := pOf f.b, table := f.imm.setWidth 4 }
def Fields.encPlog (f : Fields) : List Check := [f.noMx, f.noTy, f.noLa, pFld f.dst, pFld f.a, pFld f.b] ++ f.immNone 0xFFF0

/-! ### Control (R83-R91) -/

def dBrx (f : Fields) : Dec :=
  { enc := [f.noMx, zr f.dst, zr f.b, f.noLa, f.noTy] ++ f.immOpt
    instr := .brx f.guard (Reg.of f.a) (if f.i == 1 then some f.imm else none) }

def Fields.target (f : Fields) : Target := if f.i == 1 then .rel f.imm else .reg (Reg.of f.a)

def Fields.encTarget (f : Fields) : List Check := [f.noMx, zr f.b, f.noLa, f.noTy, (f.i == 0 || f.a == 0, 7)] ++ f.immOpt

def decControl (f : Fields) : Dec :=
  match f.op.toNat with
  | 0x00 => dPlain f .nop
  | 0x01 => dBranch f .bra
  | 0x02 => dBrx f
  | 0x03 => dBranch f .call
  | 0x04 => { enc := vDst f.dst :: f.encTarget, instr := .callx f.guard (vOf f.dst) f.target }
  | 0x05 =>
    { enc := [zr f.dst, zr f.b, f.noLa, f.noTy, (f.mx == 1 || f.a == 0, 7)] ++ f.immNone
      instr := .ret f.guard (if f.mx == 1 then some (Reg.of f.a) else none) }
  | 0x06 => { enc := zr f.dst :: f.encTarget, instr := .meet f.guard f.target }
  | 0x07 => dPlain f .meetclr
  | 0x08 => dPlain f .yield
  | 0x09 => dPlain f .exit
  | 0x0A =>
    { enc := [zr f.b, f.noLa, f.noTy, (Nat.blt f.a.toNat 192 || f.a == 0xFF, 10), if f.mx == 1 then pFld f.dst else sDst f.dst] ++ f.immNone
      instr := .elect f.guard (if f.mx == 1 then .p (pOf f.dst) else .s (sOf f.dst)) (if f.a == 0xFF then none else some (vOf f.a)) }
  | _ => { enc := [f.noMx, zr f.dst, zr f.a, zr f.b, f.noLa, f.noTy] ++ f.immReq, instr := .quant f.guard f.imm }

/-! ### Tasks (R118-R125) -/

/-- Values of the hint and of exm in the SPAWN family. -/
def Fields.spawn (f : Fields) : SpawnF :=
  { g := f.guard, dst := sOf f.dst, alw := sOf f.a, arg0 := sOf f.b, argc := Fin.ofNat 9 (bits f.hi.toNat 24 4)
    entry := f.hi.extractLsb' 32 32, hint := Fin.ofNat 3 (bits f.hi.toNat 21 3)
    prio := if f.hi.extractLsb' 20 1 == 1 then some (f.hi.extractLsb' 18 2) else none, exm := Fin.ofNat 3 (bits f.hi.toNat 16 2) }

def Fields.encSpawn (n : Nat) (f : Fields) : List Check :=
  [f.noMx, zr (f.hi.extractLsb' 28 4), f.noLa, f.noTy, sDst f.dst, (Nat.ble (bits f.hi.toNat 24 4) 8, 12),
    (Nat.ble (bits f.hi.toNat 21 3) 2, 12), (Nat.ble (bits f.hi.toNat 16 2) 2, 12)] ++ sSrc n f.a ++ f.bSrc n ++ f.immNone

/-- A task instruction on s registers: destination, handle or amount. -/
def Fields.encTask (n : Nat) (f : Fields) (dst a b : Bool) : List Check :=
  [f.noLa, f.noTy, if dst then sDst f.dst else zr f.dst] ++ (if a then sSrc n f.a else [zr f.a]) ++ (if b then f.bSrc n else [zr f.b])

def decTask (n : Nat) (f : Fields) : Dec :=
  match f.op.toNat with
  | 0x20 => { enc := zr (f.hi.extractLsb' 0 16) :: f.encSpawn n, instr := .spawn f.spawn }
  | 0x21 =>
    { enc := (Nat.ble (bits f.hi.toNat 0 16) 4096, 12) :: f.encSpawn n, instr := .spawnf f.spawn (Fin.ofNat 4097 (bits f.hi.toNat 0 16)) }
  | 0x22 => { enc := zr (f.hi.extractLsb' 10 6) :: f.encSpawn n, instr := .spawnx f.spawn (f.hi.extractLsb' 0 10) }
  | 0x23 => { enc := f.noMx :: f.encTask n true true false ++ f.immNone, instr := .join f.guard (sOf f.dst) (sOf f.a) }
  | 0x24 => { enc := f.noMx :: f.encTask n true false false ++ f.immNone, instr := .joinany f.guard (sOf f.dst) }
  | 0x25 => { enc := f.encTask n true true true ++ f.immNone, instr := .topup f.guard (f.mx == 1) (sOf f.dst) (sOf f.a) (sOf f.b) }
  | 0x26 => { enc := f.noMx :: f.encTask n true true false ++ f.immNone, instr := .resume f.guard (sOf f.dst) (sOf f.a) }
  | 0x27 => { enc := f.noMx :: f.encTask n true true false ++ f.immNone, instr := .cancel f.guard (sOf f.dst) (sOf f.a) }
  | 0x28 => { enc := f.encTask n true false false ++ f.immNone, instr := .alwrd f.guard (f.mx == 1) (sOf f.dst) }
  | 0x29 =>
    { enc := [f.noMx, (Nat.ble f.imm.toNat 64, 12)] ++ f.encTask n true false false ++ f.immReq
      instr := .plynew f.guard (sOf f.dst) (Fin.ofNat 65 f.imm.toNat) }
  | 0x2A => { enc := f.noMx :: f.encTask n false true false ++ f.immNone, instr := .plyjoin f.guard (sOf f.a) }
  | 0x2B => { enc := f.noMx :: f.encTask n false true false ++ f.immNone, instr := .plyleave f.guard (sOf f.a) }
  | 0x2C => { enc := f.noMx :: f.encTask n false true false ++ f.immNone, instr := .plybar f.guard (sOf f.a) }
  | _ =>
    { enc := [(f.mx == 1 || f.a == 0xFF || Nat.blt f.a.toNat 192, 10), (Nat.blt f.imm.toNat 4, 12)] ++ f.encTask n false true false ++ f.immReq
      instr := .setpri f.guard (if f.mx == 1 then some (sOf f.a) else none) (f.imm.setWidth 2) }

/-! ### Integer and address (R131-R141) -/

def Fields.bitField (f : Fields) (b : Reg) : BitField :=
  { g := f.guard, ty := tyOf f.ty, dst := Reg.of f.dst, a := Reg.of f.a, b := b, pos := Fin.ofNat 64 (bits f.x24.toNat 0 6)
    len := Fin.ofNat 128 (bits f.x24.toNat 6 7) }

def Fields.encBit (f : Fields) : List Check := [f.noMx, zr f.c, zr (f.x24.extractLsb' 13 11), f.okTy, f.noLa] ++ f.immNone

/-- Numbers of MOVSP (R140). -/
def Fields.movsp (f : Fields) : Movsp := { g := f.guard, wide := f.ty == 3, dst := Reg.of f.dst, num := Fin.ofNat 18 (fld f.imm 0 8) }

def decInt (f : Fields) : Dec :=
  match f.op.toNat with
  | 0x40 => d2 f .iadd
  | 0x41 => d2 f .isub
  | 0x42 => { enc := f.enc2, instr := .iadds (f.mx == 1) f.alu2 }
  | 0x43 => d2 f .imul
  | 0x44 => d2 f .imulh
  | 0x45 => d3 f .imad
  | 0x46 => d2 f .imin
  | 0x47 => d2 f .imax
  | 0x48 => { enc := f.enc1, instr := .iabs (f.mx == 1) f.alu1 }
  | 0x49 => d2 f .and
  | 0x4A => d2 f .or
  | 0x4B => d2 f .xor
  | 0x4C => d2 f .andn
  | 0x4D => d2 f .shl
  | 0x4E => d2 f .shr
  | 0x4F => d2 f .sar
  | 0x50 => d1 f .clz
  | 0x51 => d1 f .popc
  | 0x52 => d1 f .brev
  | 0x53 => { enc := f.encBit, instr := .bfx (f.bitField (Reg.of f.b)) }
  | 0x54 => { enc := f.encBit, instr := .bfi (f.bitField f.bReg) }
  | 0x55 => { enc := f.encIcmp, instr := .icmp f.icmp }
  | 0x56 =>
    { enc := [f.noMx, zr f.x24, pFld f.c] ++ f.enc2
      instr := .sel { g := f.guard, ty := tyOf f.ty, dst := Reg.of f.dst, a := Reg.of f.a, b := f.opnd, p := pOf f.c } }
  | 0x57 => d1 f .mov
  | 0x58 => { enc := f.encMovi, instr := .movi f.movi }
  | 0x59 =>
    { enc := [f.noMx, f.okTy, f.noLa, zr f.a, zr f.b] ++ f.immNone
      instr := .movw { g := f.guard, ty := tyOf f.ty, dst := Reg.of f.dst, imm := f.hi } }
  | 0x5A =>
    { enc := [f.noMx, zr (f.c.extractLsb' 2 6), f.okTy, f.noLa] ++ f.immNone
      instr := .lea { g := f.guard, ty := tyOf f.ty, dst := Reg.of f.dst, base := Reg.of f.a, index := f.bReg
                      scale := Fin.ofNat 4 f.c.toNat, disp := f.x24 } }
  | 0x5B => { enc := f.encPlog, instr := .plog f.plog }
  | 0x5C =>
    { enc := [f.noMx, zr f.a, zr f.b, f.noLa, (f.ty == 1 || f.ty == 3, 9), (Nat.blt (fld f.imm 0 8) 18, 12)] ++ f.immNone 0xFF00
      instr := .movsp f.movsp }
  | _ => d3r f [] (.dot4 (f.mx == 1))

/-! ### Floating point (R142-R148) -/

def Fields.cvt (f : Fields) : Cvt :=
  { g := f.guard, ty := tyOf f.ty, src := tyOf (f.imm.extractLsb' 0 4), mode := (modeOf (fld f.imm 4 4)).getD none
    sat := f.imm.extractLsb' 8 1 == 1, dst := Reg.of f.dst, a := Reg.of f.a }

def Fields.pack (f : Fields) : Pack :=
  { g := f.guard, ty := tyOf f.ty, src := tyOf (f.x24.extractLsb' 0 4), mode := (modeOf (bits f.x24.toNat 4 4)).getD none
    sat := f.x24.extractLsb' 8 1 == 1, half := f.x24.extractLsb' 9 1 == 1, dst := Reg.of f.dst, a := Reg.of f.a, b := f.bReg
    c := Reg.of f.c }

def decFloat (f : Fields) : Dec :=
  match f.op.toNat with
  | 0x60 => d2 f .fadd
  | 0x61 => d2 f .fsub
  | 0x62 => d2 f .fmul
  | 0x63 => d3 f .ffma
  | 0x64 => d2 f .fmin
  | 0x65 => d2 f .fmax
  | 0x66 => d1 f .fneg
  | 0x67 => d1 f .fabs
  | 0x68 => { enc := f.encFcmp, instr := .fcmp f.fcmp }
  | 0x69 => d1 f .fclass
  | 0x6A =>
    { enc := [f.noMx, defined (modeOf (fld f.imm 0 4))] ++ f.enc1 0xFFF0, instr := .frnd ((modeOf (fld f.imm 0 4)).getD none) f.alu1 }
  | 0x6B =>
    { enc := [f.noMx, (f.imm.extractLsb' 0 4 != 15, 12), defined (modeOf (fld f.imm 4 4))] ++ f.enc1 0xFE00, instr := .cvt f.cvt }
  | 0x6C =>
    { enc := [f.noMx, zr (f.x24.extractLsb' 10 14), f.okTy, f.noLa, (f.x24.extractLsb' 0 4 != 15, 12),
        defined (modeOf (bits f.x24.toNat 4 4))] ++ f.immNone
      instr := .pack f.pack }
  | 0x6D =>
    { enc := [f.noMx, (f.imm.extractLsb' 0 4 != 15, 12)] ++ f.enc1 0xFFC0
      instr := .unpk { g := f.guard, ty := tyOf f.ty, src := tyOf (f.imm.extractLsb' 0 4), idx := Fin.ofNat 4 (fld f.imm 4 2)
                       dst := Reg.of f.dst, a := Reg.of f.a } }
  | _ => d3r f [f.noMx] .fdot2

/-! ### Cross-lane (R149-R153) -/

def voteOf : Nat → VoteMode
  | 0 => .any | 1 => .all | 2 => .ballot | _ => .eq
def VoteMode.code : VoteMode → BitVec 16
  | .any => 0 | .all => 1 | .ballot => 2 | .eq => 3

def decCross (f : Fields) : Dec :=
  match f.op.toNat with
  | 0x70 => d2 f .shfl
  | 0x71 => d2 f .shflx
  | 0x72 => d2 f .shflup
  | 0x73 => d2 f .shfldn
  | 0x74 =>
    { enc := (if f.mx == 1 then pFld f.dst else sDst f.dst) :: f.enc1 0xFFFC
      instr := .vote { g := f.guard, ty := tyOf f.ty, mode := voteOf (fld f.imm 0 2)
                       dst := if f.mx == 1 then .p (pOf f.dst) else .s (sOf f.dst), a := Reg.of f.a } }
  | 0x75 =>
    { enc := [f.noMx, defined (foldOf (fld f.imm 0 3))] ++ f.enc1 0xFFF0
      instr := .prfx { g := f.guard, ty := tyOf f.ty, op := (foldOf (fld f.imm 0 3)).getD .add, excl := f.imm.extractLsb' 3 1 == 1
                       dst := Reg.of f.dst, a := Reg.of f.a } }
  | 0x76 =>
    { enc := [f.noMx, defined (foldOf (fld f.imm 0 3)), sDst f.dst] ++ f.enc1 0xFFF8
      instr := .redv { g := f.guard, ty := tyOf f.ty, op := (foldOf (fld f.imm 0 3)).getD .add, dst := sOf f.dst, a := Reg.of f.a } }
  | 0x77 => d1 f .confl
  | _ =>
    { enc := [f.noMx, zr f.x24, sDst f.c] ++ f.enc1
      instr := .cpack { g := f.guard, ty := tyOf f.ty, dst := Reg.of f.dst, a := Reg.of f.a, cnt := sOf f.c } }

/-! ### Special function (R159, R164) -/

def Fields.tok (f : Fields) : Fin 8 := Fin.ofNat 8 (fld f.imm 0 3)

def Fields.encSf (f : Fields) : List Check := [f.noMx, f.okTy, f.noLa, vDst f.dst] ++ f.immNone 0xFFF8

/-- A unary function; srcB other than 0 is reason 0x0C (R159). -/
def dSf1 (f : Fields) (c : Sf1 → Instr) : Dec :=
  { enc := (f.b == 0, 12) :: f.encSf
    instr := c { g := f.guard, ty := tyOf f.ty, tok := f.tok, dst := vOf f.dst, a := Reg.of f.a } }

def decSf (f : Fields) : Dec :=
  match f.op.toNat with
  | 0x80 => dSf1 f .sfRcp
  | 0x81 => dSf1 f .sfRsq
  | 0x82 => dSf1 f .sfSqrt
  | 0x83 => dSf1 f .sfExp2
  | 0x84 => dSf1 f .sfLog2
  | 0x85 => dSf1 f .sfSin
  | 0x86 => dSf1 f .sfCos
  | 0x87 => dSf1 f .sfTanh
  | 0x88 => dSf1 f .sfSigm
  | 0x89 => dSf1 f .sfGelu
  | 0x8A =>
    { enc := [zr (f.x24.extractLsb' 4 20), (f.c == 0, 12), defined (modeOf (bits f.x24.toNat 0 4))] ++ f.encSf
      instr := .sfDiv { g := f.guard, ty := tyOf f.ty, tok := f.tok, mode := (modeOf (bits f.x24.toNat 0 4)).getD none, dst := vOf f.dst
                        a := Reg.of f.a, b := f.bReg } }
  | 0x8B =>
    { enc := [zr (f.x24.extractLsb' 1 23), if f.x24.extractLsb' 0 1 == 1 then (f.c == 0, 12) else vDst f.c] ++ f.encSf
      instr := .sfIdiv { g := f.guard, ty := tyOf f.ty, tok := f.tok, dst := vOf f.dst
                         rem := if f.x24.extractLsb' 0 1 == 1 then none else some (vOf f.c), a := Reg.of f.a, b := f.bReg } }
  | _ =>
    { enc := [f.noMx, zr f.dst, zr f.a, zr f.b, f.noLa, f.noTy] ++ f.immReq 0xFF00, instr := .sfWait f.guard (f.imm.setWidth 8) }

/-! ### Memory (R165, R192-R197) -/

/-- Scale: bits [63:62]. -/
def Fields.scale (f : Fields) : Fin 4 := Fin.ofNat 4 (2 * f.mx.toNat + f.i.toNat)

def Fields.memAddr (f : Fields) : MemAddr := { base := Reg.of f.a, index := Reg.of f.b, scale := f.scale, disp := f.imm }

def Fields.mem (f : Fields) : Mem :=
  { g := f.guard, ty := tyOf f.ty, la := f.la.toFin, addr := f.memAddr, data := Reg.of f.dst }

def dMem (f : Fields) (c : Mem → Instr) : Dec := { enc := [f.okTy], instr := c f.mem }

def dFifo (f : Fields) (c : Fifo → Instr) : Dec :=
  { enc := [f.noMx, zr f.a, zr f.b, f.okTy] ++ f.immReq 0xFFF0
    instr := c { g := f.guard, ty := tyOf f.ty, la := f.la.toFin, bank := Fin.ofNat 16 (fld f.imm 0 4), data := Reg.of f.dst } }

def cctlOf : Nat → Option CctlOp
  | 0 => some .clean | 1 => some .inval | 2 => some .flush | 3 => some .l1all | 4 => some .evict | _ => none
def CctlOp.code : CctlOp → BitVec 8
  | .clean => 0 | .inval => 1 | .flush => 2 | .l1all => 3 | .evict => 4

def bankModeOf : Nat → Option BankMode
  | 0 => some .cache | 1 => some .scratch | 2 => some .fifo | _ => none
def BankMode.code : BankMode → BitVec 2
  | .cache => 0 | .scratch => 1 | .fifo => 2

def decMem (f : Fields) : Dec :=
  match f.op.toNat with
  | 0x90 => dMem f .ld
  | 0x91 => dMem f .st
  | 0x92 => dMem f .ldu
  | 0x93 => dMem f .stu
  | 0x94 => dMem f .ldp
  | 0x95 => dMem f .stp
  | 0x96 => dMem f .lds
  | 0x97 => dMem f .sts
  | 0x98 => dFifo f .fpsh
  | 0x99 => dFifo f .fpop
  | 0x9A => { enc := [f.noLa, f.noTy, (Nat.blt f.dst.toNat 2, 12)], instr := .prf f.guard (f.dst == 1) f.memAddr }
  | 0x9B =>
    { enc := [f.noLa, f.noTy, defined (cctlOf f.dst.toNat)], instr := .cctl f.guard ((cctlOf f.dst.toNat).getD .clean) f.memAddr }
  | 0x9C =>
    { enc := [f.noMx, zr f.dst, zr f.a, zr f.b, f.noLa, f.noTy, defined (bankModeOf (fld f.imm 4 2))] ++ f.immReq 0xFFC0
      instr := .bankset f.guard (Fin.ofNat 16 (fld f.imm 0 4)) ((bankModeOf (fld f.imm 4 2)).getD .cache) }
  | _ => { enc := [f.noLa, f.noTy, sDst f.dst], instr := .probe f.guard (sOf f.dst) f.memAddr }

/-! ### Atomics and ordering (R248-R255) -/

def Fields.atomAddr (f : Fields) : MemAddr :=
  { base := Reg.of f.a, index := Reg.of f.b, scale := f.scale, disp := (f.imm.extractLsb' 5 11).signExtend 16 }

def dAtom (f : Fields) (c : Atom → Instr) : Dec :=
  { enc := [f.okTy, (f.imm.extractLsb' 4 1 == 1 || f.la == 0, 8), (Ty.isRed (tyOf f.ty), 9), defined (atomOf (fld f.imm 0 4))]
    instr := c { g := f.guard, ty := tyOf f.ty, op := (atomOf (fld f.imm 0 4)).getD .xchg, ret := f.imm.extractLsb' 4 1 == 1
                 la := f.la.toFin, addr := f.atomAddr, data := Reg.of f.dst } }

def dScoped (f : Fields) (c : ScopedMem → Instr) : Dec :=
  { enc := [f.okTy, zr (f.imm.extractLsb' 4 1), (f.imm.extractLsb' 3 1 == 0, 12), defined (scopeOf (fld f.imm 0 3))]
    instr := c { g := f.guard, ty := tyOf f.ty, scope := (scopeOf (fld f.imm 0 3)).getD .task, la := f.la.toFin, addr := f.atomAddr
                 data := Reg.of f.dst } }

def kindOf : Nat → Option FenceKind
  | 1 => some .acq | 2 => some .rel | 3 => some .ar | _ => none
def FenceKind.code : FenceKind → BitVec 2
  | .acq => 1 | .rel => 2 | .ar => 3

def decAtom (f : Fields) : Dec :=
  match f.op.toNat with
  | 0xA0 => dAtom f .atom
  | 0xA1 =>
    { enc := [f.okTy, zr (f.imm.extractLsb' 0 5), zr f.x24]
      instr := .cas { g := f.guard, ty := tyOf f.ty, la := f.la.toFin, addr := f.atomAddr, data := Reg.of f.dst, cmp := Reg.of f.c } }
  | 0xA2 => dAtom f .atomd
  | 0xA3 => dPlain f .aflush
  | 0xA4 =>
    { enc := [f.noMx, zr f.dst, zr f.a, zr f.b, f.noLa, f.noTy, defined (kindOf (fld f.imm 4 2)), defined (scopeOf (fld f.imm 0 3))] ++
        f.immReq 0xFFC8
      instr := .fence f.guard ((kindOf (fld f.imm 4 2)).getD .acq) ((scopeOf (fld f.imm 0 3)).getD .task) }
  | 0xA5 => dScoped f .lda
  | 0xA6 => dScoped f .stl
  | _ => dAtom f .atoms

/-! ### Tile copy (R297-R307) -/

/-- A word of an arrival or a gate: 0xFFFF is none. -/
def wordOf (x : BitVec 16) : Option (BitVec 16) := if x == 0xFFFF then none else some x
def wordCode (x : Option (BitVec 16)) : BitVec 16 := x.getD 0xFFFF

def Fields.tail (f : Fields) : Tail :=
  { scope := (scopeOf (bits f.hi.toNat 21 3)).getD .core, arrive := wordOf (f.hi.extractLsb' 24 16), gate := wordOf (f.hi.extractLsb' 40 16)
    gateGen := sOf (f.hi.extractLsb' 56 8) }

def Tail.hi (t : Tail) (low : BitVec 21) : BitVec 64 :=
  sCode t.gateGen ++ wordCode t.gate ++ wordCode t.arrive ++ t.scope.bits3 ++ low

def kindOfTile : Nat → Option TileKind
  | 0 => some .a | 1 => some .b | 2 => some .cb | _ => none
def TileKind.field : TileKind → BitVec 2
  | .a => 0 | .b => 1 | .cb => 2

/-- Checks of an engine operation: every operand an s register (R291), and the tail. -/
def Fields.encEngine (n : Nat) (f : Fields) : List Check :=
  [f.noMx, f.noLa, defined (scopeOf (bits f.hi.toNat 21 3)), sDst (f.hi.extractLsb' 56 8)] ++ sSrc n f.dst ++ sSrc n f.a ++ f.bSrc n ++
    f.immNone

def Fields.encTile (n : Nat) (f : Fields) : List Check :=
  [f.okTy, zr (f.hi.extractLsb' 13 8), sDst (f.hi.extractLsb' 5 8), defined (kindOfTile (bits f.hi.toNat 3 2))] ++ f.encEngine n

def Fields.tcTile (f : Fields) (tile base : BitVec 8) : TcTile :=
  { g := f.guard, ty := tyOf f.ty, tile := sOf tile, base := sOf base, origin := sOf f.b, ly := Fin.ofNat 8 (bits f.hi.toNat 0 3)
    kind := (kindOfTile (bits f.hi.toNat 3 2)).getD .a, scale := sOf (f.hi.extractLsb' 5 8), tail := f.tail }

/-- Mode of TC.FILL; the type is that of mode 2. -/
def Fields.fillMode (f : Fields) : FillMode :=
  match bits f.hi.toNat 0 2 with
  | 1 => .scratch
  | 2 => .tile (tyOf f.ty)
  | _ => .global

def decTile (n : Nat) (f : Fields) : Dec :=
  match f.op.toNat with
  | 0xB0 => { enc := f.encTile n, instr := .tcLoad (f.tcTile f.dst f.a) }
  | 0xB1 => { enc := f.encTile n, instr := .tcStore (f.tcTile f.a f.dst) }
  | 0xB2 =>
    { enc := [f.okTy, zr (f.hi.extractLsb' 3 18)] ++ f.encEngine n
      instr := .tcQnt2 { g := f.guard, ty := tyOf f.ty, tile := sOf f.dst, base := sOf f.a, origin := sOf f.b
                         ly := Fin.ofNat 8 (bits f.hi.toNat 0 3), tail := f.tail } }
  | 0xB3 =>
    { enc := [f.noTy, zr (f.hi.extractLsb' 0 21)] ++ f.encEngine n
      instr := .tcCopy { g := f.guard, dst := sOf f.dst, src := sOf f.a, len := sOf f.b, tail := f.tail } }
  | 0xB4 =>
    { enc := [zr (f.hi.extractLsb' 2 19), (bits f.hi.toNat 0 2 == 2 || f.ty == 0, 9), f.okTy, (bits f.hi.toNat 0 2 != 3, 12)] ++ f.encEngine n
      instr := .tcFill { g := f.guard, mode := f.fillMode, dst := sOf f.dst, const := sOf f.a, len := sOf f.b, tail := f.tail } }
  | 0xB5 =>
    { enc := [zr (f.dst.extractLsb' 3 5), zr f.b, f.noLa, f.noTy] ++ sSrc n f.a ++ f.immNone
      instr := .tcLyset f.guard (f.mx == 1) (Fin.ofNat 8 f.dst.toNat) (sOf f.a) }
  | 0xB6 =>
    { enc := [zr f.dst, f.noLa, f.noTy, defined (scopeOf (fld f.imm 0 3)), (f.mx == 0 || f.imm.extractLsb' 0 3 == 0, 12)] ++ sSrc n f.a ++
        f.bSrc n ++ f.immNone 0xFFF8
      instr := .arrive f.guard (if f.mx == 1 then none else some ((scopeOf (fld f.imm 0 3)).getD .core)) (sOf f.a) (sOf f.b) }
  | 0xB7 =>
    { enc := [f.noMx, f.noLa, f.noTy, sDst f.dst] ++ sSrc n f.a ++ f.bSrc n ++ f.immNone 0
      instr := .await f.guard (sOf f.dst) (sOf f.a) (sOf f.b) f.imm }
  | 0xB8 => { enc := f.noMx :: f.encTask n true true false ++ f.immNone, instr := .awtest f.guard (sOf f.dst) (sOf f.a) }
  | _ => { enc := f.noMx :: f.encTask n true false false ++ f.immNone, instr := .tcStat f.guard (sOf f.dst) }

/-! ### Capsules (R274-R277) -/

def Fields.capEnter (f : Fields) : CapEnter :=
  { g := f.guard, dst := vOf f.dst, cell := Reg.of f.a, args := if f.b == 0xFF then none else some (vOf f.b)
    status := Fin.ofNat 8 (bits f.hi.toNat 40 8), slot := Reg.of (f.hi.extractLsb' 48 8), code := Reg.of (f.hi.extractLsb' 56 8) }

def Fields.capWord (f : Fields) : CapWord := { g := f.guard, dst := sOf f.dst, base := sOf f.a, disp := f.imm }

/-- CAP.EXIT, CAP.ABORT and CAP.PROBE: the memory layout with no index (R276). -/
def Fields.encCapWord (n : Nat) (f : Fields) : List Check :=
  [f.noMx, zr f.i, (f.b == 0xFF, 7), f.noLa, f.noTy, sDst f.dst] ++ sSrc n f.a

def decCap (n : Nat) (f : Fields) : Dec :=
  match f.op.toNat with
  | 0xC0 =>
    { enc := [f.noMx, zr (f.hi.extractLsb' 0 40), f.noLa, f.noTy, vDst f.dst, (Nat.blt f.b.toNat 192 || f.b == 0xFF, 10),
        (Nat.blt (bits f.hi.toNat 40 8) 8, 12)] ++ [(f.i == 1 || f.imm == 0, 7), (f.i == 0 || f.b == 0, 7), (f.i == 0, 12)]
      instr := .capEnter f.capEnter }
  | 0xC1 => { enc := f.encCapWord n, instr := .capExit f.capWord }
  | 0xC2 => { enc := f.encCapWord n, instr := .capAbort f.capWord }
  | _ => { enc := f.encCapWord n, instr := .capProbe f.capWord }

/-! ### Matrix (R324) -/

/-- A matrix instruction: reserved control bits, its registers. -/
def Fields.encMx (n : Nat) (f : Fields) (resv : BitVec 16) (dst a ty : Bool) : List Check :=
  [f.noMx, zr f.b, f.noLa, if ty then f.okTy else f.noTy] ++ (if dst then sSrc n f.dst else [zr f.dst]) ++ (if a then sSrc n f.a else [zr f.a]) ++
    f.immNone resv

def Fields.cv (f : Fields) : Fin 16 := Fin.ofNat 16 (fld f.imm 0 4)

def rawOf : Nat → Option RawMode
  | 0 => some .tile | 1 => some .raw | 2 => some .rawScr | _ => none
def RawMode.code : RawMode → BitVec 2
  | .tile => 0 | .raw => 1 | .rawScr => 2

def decMx (n : Nat) (f : Fields) : Dec :=
  match f.op.toNat with
  | 0xD0 =>
    { enc := [zr (f.hi.extractLsb' 0 32), (Nat.ble (fld f.imm 4 8) 64, 12)] ++ sSrc n (f.hi.extractLsb' 56 8) ++
        sSrc n (f.hi.extractLsb' 32 8) ++ f.encMx n 0xF000 false true false
      instr := .mxArm { g := f.guard, cv := f.cv, count := Fin.ofNat 65 (fld f.imm 4 8), desc := sOf f.a, ply := sOf (f.hi.extractLsb' 32 8)
                        gate := wordOf (f.hi.extractLsb' 40 16), gateGen := sOf (f.hi.extractLsb' 56 8) } }
  | 0xD1 => { enc := f.encMx n 0xFFF0 false false false, instr := .mxSign f.guard f.cv }
  | 0xD2 => { enc := f.encMx n 0xFFFF false false false, instr := .mxFence f.guard }
  | 0xD3 => { enc := f.encMx n 0xFFF0 true false false, instr := .mxWait f.guard (sOf f.dst) f.cv }
  | 0xD4 => { enc := f.encMx n 0 false false false, instr := .mxZero f.guard f.imm }
  | 0xD5 =>
    { enc := [zr (f.hi.extractLsb' 8 56), defined (rawOf (bits f.hi.toNat 4 2))] ++ f.encMx n 0xFFFF true false true
      instr := .mxDrain { g := f.guard, ty := tyOf f.ty, mode := (rawOf (bits f.hi.toNat 4 2)).getD .raw, tile := Fin.ofNat 16 (bits f.hi.toNat 0 4)
                          zero := f.hi.extractLsb' 6 1 == 1, free := f.hi.extractLsb' 7 1 == 1, dst := sOf f.dst } }
  | 0xD6 =>
    { enc := [zr (f.hi.extractLsb' 6 58), defined (rawOf (bits f.hi.toNat 4 2))] ++ f.encMx n 0xFFFF false true false
      instr := .mxFill { g := f.guard, mode := (rawOf (bits f.hi.toNat 4 2)).getD .raw, tile := Fin.ofNat 16 (bits f.hi.toNat 0 4), src := sOf f.a } }
  | 0xD7 => { enc := f.encMx n 0xFFF0 true false false, instr := .mxStep f.guard (sOf f.dst) f.cv }
  | _ => { enc := f.encMx n 0xFFF0 false false false, instr := .mxAbort f.guard f.cv }

/-! ### Pattern and system (R347-R351, R219-R224) -/

def Fields.pgMem (f : Fields) : PgMem := { g := f.guard, scr := f.mx == 1, ctx := Fin.ofNat 8 f.dst.toNat, addr := sOf f.a }

def Fields.encPg (n : Nat) (f : Fields) (resv : BitVec 16) : List Check :=
  [zr (f.dst.extractLsb' 3 5), zr f.b, f.noLa, f.noTy] ++ sSrc n f.a ++ f.immNone resv

def decPg (n : Nat) (f : Fields) : Dec :=
  match f.op.toNat with
  | 0xE0 => { enc := f.encPg n 0xFFFF, instr := .pgLoad f.pgMem }
  | 0xE1 =>
    { enc := [zr (f.hi.extractLsb' 3 61), f.noLa, f.noTy] ++ sSrc n f.dst ++ sSrc n f.a ++ f.bSrc n ++ f.immNone
      instr := .pgRun { g := f.guard, trans := f.mx == 1, ctx := Fin.ofNat 8 (bits f.hi.toNat 0 3), dst := sOf f.dst, limit := sOf f.a
                        cnt := sOf f.b } }
  | 0xE2 => { enc := f.encPg n 0xFFFE, instr := .pgSave f.pgMem (f.imm.extractLsb' 0 1 == 1) }
  | 0xE3 => { enc := f.encPg n 0xFFFF, instr := .pgRest f.pgMem }
  | _ =>
    { enc := [f.noMx, zr f.a, zr f.b, f.noLa, f.noTy] ++ sSrc n f.dst ++ f.immReq 0xFFF8
      instr := .pgStat f.guard (sOf f.dst) (Fin.ofNat 8 (fld f.imm 0 3)) }

/-- A system instruction (R221). -/
def Fields.encSys (n : Nat) (f : Fields) (resv : BitVec 16) (dst a : Bool) : List Check :=
  [f.noMx, zr f.b, f.noLa, f.noTy] ++ (if dst then sSrc n f.dst else [zr f.dst]) ++ (if a then sSrc n f.a else [zr f.a]) ++ f.immReq resv

def decSys (n : Nat) (f : Fields) : Dec :=
  match f.op.toNat with
  | 0xF0 => { enc := f.encSys n 0 false false, instr := .trap f.guard f.imm }
  | 0xF1 => { enc := f.encSys n 0xFF00 true false, instr := .sysrd f.guard (sOf f.dst) (f.imm.setWidth 8) }
  | 0xF2 => { enc := f.encSys n 0xFF00 false true, instr := .syswr f.guard (sOf f.a) (f.imm.setWidth 8) }
  | 0xF3 => { enc := f.encSys n 0 false false, instr := .bkpt f.guard f.imm }
  | _ => { enc := f.encSys n 0 false false, instr := .susp f.guard f.imm }

/-! ### The opcode map (R40) -/

/-- Form of an opcode: 0 S, 1 M, 2 L; none where it is unassigned. -/
def formOf (op : Nat) : Option (BitVec 2) :=
  if op ≤ 0x0B then some 0
  else if 0x20 ≤ op && op ≤ 0x2D then some (if op ≤ 0x22 then 2 else 0)
  else if 0x40 ≤ op && op ≤ 0x5D then
    some (if op = 0x59 then 2 else if op = 0x45 || op = 0x53 || op = 0x54 || op = 0x56 || op = 0x5A || op = 0x5D then 1 else 0)
  else if 0x60 ≤ op && op ≤ 0x6E then some (if op = 0x63 || op = 0x6C || op = 0x6E then 1 else 0)
  else if 0x70 ≤ op && op ≤ 0x78 then some (if op = 0x78 then 1 else 0)
  else if 0x80 ≤ op && op ≤ 0x8C then some (if op = 0x8A || op = 0x8B then 1 else 0)
  else if 0x90 ≤ op && op ≤ 0x9D then some 0
  else if 0xA0 ≤ op && op ≤ 0xA7 then some (if op = 0xA1 then 1 else 0)
  else if 0xB0 ≤ op && op ≤ 0xB9 then some (if op ≤ 0xB4 then 2 else 0)
  else if 0xC0 ≤ op && op ≤ 0xCA then some (if op = 0xC0 then 2 else 0)
  else if 0xD0 ≤ op && op ≤ 0xD8 then some (if op = 0xD0 || op = 0xD5 || op = 0xD6 then 2 else 0)
  else if 0xE0 ≤ op && op ≤ 0xE4 then some (if op = 0xE1 then 2 else 0)
  else if 0xF0 ≤ op && op ≤ 0xF4 then some 0
  else none

/-- The decoder of an assigned opcode of a task stream. -/
def decOp (n : Nat) (f : Fields) : Dec :=
  match f.op.toNat / 16 with
  | 0 => decControl f
  | 2 => decTask n f
  | 4 | 5 => decInt f
  | 6 => decFloat f
  | 7 => decCross f
  | 8 => decSf f
  | 9 => decMem f
  | 10 => decAtom f
  | 11 => decTile n f
  | 12 => decCap n f
  | 13 => decMx n f
  | 14 => decPg n f
  | _ => decSys n f

/-! ### Pairs (R38, R43) -/

/-- A slot of a pairable opcode, with its checks (R38 condition 1). -/
def decSlot (f : Fields) : Option (List Check × Slot) :=
  let two (o : PairAlu2) : Option (List Check × Slot) := some (f.noMx :: f.enc2, .alu2 o f.alu2)
  let one (o : PairAlu1) : Option (List Check × Slot) := some (f.noMx :: f.enc1, .alu1 o f.alu1)
  match f.op.toNat with
  | 0x40 => two .iadd
  | 0x41 => two .isub
  | 0x43 => two .imul
  | 0x46 => two .imin
  | 0x47 => two .imax
  | 0x49 => two .and
  | 0x4A => two .or
  | 0x4B => two .xor
  | 0x4D => two .shl
  | 0x4E => two .shr
  | 0x4F => two .sar
  | 0x55 => some (f.encIcmp, .icmp f.icmp)
  | 0x57 => one .mov
  | 0x58 => some (f.encMovi, .movi f.movi)
  | 0x5B => some (f.encPlog, .plog f.plog)
  | 0x60 => two .fadd
  | 0x61 => two .fsub
  | 0x62 => two .fmul
  | 0x64 => two .fmin
  | 0x65 => two .fmax
  | 0x66 => one .fneg
  | 0x67 => one .fabs
  | 0x68 => some (f.encFcmp, .fcmp f.fcmp)
  | _ => none

/-- The checks of one slot, in order: pairable, then R43's. -/
def checkSlot (n : Nat) (x : BitVec 64) (low : BitVec 2) : Except Nat Slot :=
  let f := Fields.ofSlot x
  match decSlot f with
  | none => .error 13
  | some (enc, sl) =>
    match verdict ([zr f.hi, (x.extractLsb' 0 2 == low, 7)] ++ enc ++ sl.checks n) with
    | some r => .error r
    | none => .ok sl

/-- CheckPair of R43: the reason and the slot byte. -/
def decodePair (n : Nat) (w : BitVec 128) : Except (Nat × Nat) Instr :=
  match checkSlot n (w.extractLsb' 0 64) 3 with
  | .error r => .error (r, 0)
  | .ok a => match checkSlot n (w.extractLsb' 64 64) 0 with
    | .error r => .error (r, 1)
    | .ok b => if pairOk a b then .ok (.pair a b) else .error (13, 2)

/-! ### The decoder -/

/-- Length in bytes by the form (R24). -/
def formLen (form : Nat) : Nat := match form with | 0 => 8 | 1 => 12 | _ => 16

def fill4 : Nat := 0xFFFFFFFC

/-- A word of an S, M or L form whose bits above its length are zero. -/
def decodeWord (n w : Nat) (x : BitVec 128) : Except (Nat × Nat) Instr :=
  let f := Fields.ofWord x
  match formOf f.op.toNat with
  | none => .error (4, 0xFF)
  | some form =>
    if form ≠ x.extractLsb' 0 2 then .error (5, 0xFF)
    else if 0xC4 ≤ f.op.toNat && f.op.toNat ≤ 0xCA then .error (6, 0xFF)
    else
      let d := decOp n f
      match verdict (d.enc ++ d.instr.checks n w) with
      | some r => .error (r, 0xFF)
      | none => .ok d.instr

/-- DecodeCheck of R43 for a kernel of N registers and width W: PC and the bytes from it to the end of its window as a number. An error
names the reason and the slot byte of R44. -/
def decode? (n w : Nat) (pc : BitVec 32) (raw : Nat) : Except (Nat × Nat) Instr :=
  let w0 := raw % 2 ^ 32
  if pc.toNat % 4 ≠ 0 then .error (1, 0xFF)
  else if bits w0 2 8 = 0xFF && w0 % 4 = 0 then .error (if w0 = fill4 then 3 else 4, 0xFF)
  else if 32 < pc.toNat % 32 + formLen (w0 % 4) then .error (2, 0xFF)
  else
    let x := BitVec.ofNat 128 (raw % 2 ^ (8 * formLen (w0 % 4)))
    if w0 % 4 = 3 then decodePair n x else decodeWord n w x

/-- The decoder: what does not decode is an illegal instruction with its reason, slot and first 64 bits (R44). -/
def decode (n w : Nat) (pc : BitVec 32) (raw : Nat) : Instr :=
  match decode? n w pc raw with
  | .ok i => i
  | .error (r, slot) => .illegalInstruction (BitVec.ofNat 8 r) (BitVec.ofNat 8 slot) (BitVec.ofNat 64 raw)

/-! ### Capsule body words (R268, R278) -/

def cxOpOf : Nat → Option CxOp
  | 0 => some .add | 1 => some .sub | 2 => some .and | 3 => some .or | 4 => some .xor | 5 => some .shl | 6 => some .shr | 7 => some .sar
  | 8 => some .minu | 9 => some .maxu | 10 => some .mins | 11 => some .maxs | 12 => some .mul | _ => none
def CxOp.code : CxOp → BitVec 4
  | .add => 0 | .sub => 1 | .and => 2 | .or => 3 | .xor => 4 | .shl => 5 | .shr => 6 | .sar => 7
  | .minu => 8 | .maxu => 9 | .mins => 10 | .maxs => 11 | .mul => 12

def cxCondOf : Nat → Option CxCond
  | 0 => some .always | 1 => some .eq | 2 => some .ne | 3 => some .ltu | 4 => some .geu | 5 => some .lt | 6 => some .ge | _ => none
def CxCond.code : CxCond → BitVec 4
  | .always => 0 | .eq => 1 | .ne => 2 | .ltu => 3 | .geu => 4 | .lt => 5 | .ge => 6

/-- A body word; none where it is malformed. -/
def decodeBody (x : BitVec 64) : Option Instr :=
  let f := Fields.ofWord (x.setWidth 128)
  let c (r : BitVec 8) : Fin 8 := pOf r
  let isC (r : BitVec 8) : Bool := Nat.blt r.toNat 8
  let cb : Option (Fin 8) := if f.b == 0xFF then none else some (c f.b)
  let ok (b : Bool) (i : Instr) : Option Instr := if b then some i else none
  if x.extractLsb' 0 2 ≠ 0 || f.la ≠ 0 || f.p ≠ 0 || f.neg ≠ 0 then none
  else match f.op.toNat with
  | 0xC1 => ok (f.imm18 == 0 && f.ty == 0 && f.b == 0 && f.a == 0 && f.dst == 0) .capExitStep
  | 0xC2 => ok (f.imm18 == 0 && f.ty == 0 && f.b == 0 && f.a == 0 && f.dst == 0) .capAbortStep
  | 0xC4 => ok (Nat.blt f.imm18.toNat 20 && f.ty == 0 && f.b == 0 && f.a == 0 && isC f.dst) (.cxGet (c f.dst) (Fin.ofNat 20 f.imm18.toNat))
  | 0xC5 => ok (Nat.blt f.imm18.toNat 20 && f.ty == 0 && f.b == 0 && isC f.a && f.dst == 0) (.cxPut (Fin.ofNat 20 f.imm18.toNat) (c f.a))
  | 0xC6 => ok (f.ty == 0 && f.b == 0 && isC f.a && isC f.dst) (.cxLd (c f.dst) (c f.a) f.imm18)
  | 0xC7 =>
    ok ((cxOpOf f.ty.toNat).isSome && isC f.a && isC f.dst && (f.b == 0xFF || (isC f.b && f.imm18 == 0)))
      (.cxAlu ((cxOpOf f.ty.toNat).getD .add) (c f.dst) (c f.a) cb f.imm18)
  | 0xC8 => ok (Nat.blt f.ty.toNat 4 && f.b == 0 && f.a == 0 && isC f.dst) (.cxMovi (c f.dst) f.imm18 (Fin.ofNat 4 f.ty.toNat))
  | 0xC9 =>
    ok ((cxCondOf f.ty.toNat).isSome && f.dst == 0 && isC f.a && (f.b == 0xFF || isC f.b) && f.imm18 != 0 && !f.imm18.msb)
      (.cxBr ((cxCondOf f.ty.toNat).getD .always) (c f.a) cb f.imm18)
  | 0xCA => ok (Nat.blt f.imm18.toNat 3 && f.ty == 0 && f.b == 0 && f.a == 0 && isC f.dst) (.cxRes (c f.dst) (Fin.ofNat 3 f.imm18.toNat))
  | _ => none

/-! ### The encoder -/

/-- The fields of an opcode with a guard; everything else zero. -/
def blank (op : BitVec 8) (g : Guard) : Fields :=
  { op := op, la := 0, dst := 0, a := 0, b := 0, p := BitVec.ofFin g.p, neg := if g.neg then 1 else 0, ty := 0, imm := 0, i := 0, mx := 0, hi := 0 }

def tyCode (t : Ty) : BitVec 4 := BitVec.ofNat 4 t.code
def flag (b : Bool) : BitVec 1 := if b then 1 else 0

/-- Place a second source or an immediate. -/
def Fields.withOpnd (f : Fields) : Opnd → Fields
  | .reg r => { f with b := r.code }
  | .imm x => { f with i := 1, imm := x }

def e1 (op : BitVec 8) (x : Alu1) : Fields := { blank op x.g with ty := tyCode x.ty, dst := x.dst.code, a := x.a.code }
def e2 (op : BitVec 8) (x : Alu2) : Fields :=
  { blank op x.g with ty := tyCode x.ty, dst := x.dst.code, a := x.a.code }.withOpnd x.b
def e3 (op : BitVec 8) (x : Alu3) : Fields :=
  { blank op x.g with ty := tyCode x.ty, dst := x.dst.code, a := x.a.code, hi := third 0 x.c.code }.withOpnd x.b

def Icmp.enc (x : Icmp) : Fields :=
  let f := { blank 0x55 x.g with ty := tyCode x.ty, dst := pCode x.dst, a := x.a.code, mx := flag x.any, imm := x.cond.code ++ (0 : BitVec 12) }
  match x.b with
  | .reg r => { f with b := r.code }
  | .imm v => { f with i := 1, imm := x.cond.code ++ v }

def Fcmp.enc (x : Fcmp) : Fields :=
  { blank 0x68 x.g with
    ty := tyCode x.ty, dst := pCode x.dst, a := x.a.code, b := x.b.code, mx := flag x.any, imm := x.cond.code ++ (0 : BitVec 12) }

def Movi.enc (x : Movi) : Fields := { blank 0x58 x.g with ty := tyCode x.ty, dst := x.dst.code, i := 1, imm := x.imm }

def Plog.enc (x : Plog) : Fields :=
  { blank 0x5B x.g with dst := pCode x.dst, a := pCode x.a, b := pCode x.b, imm := x.table.setWidth 16 }

def BitField.enc (op : BitVec 8) (x : BitField) : Fields :=
  { blank op x.g with
    ty := tyCode x.ty, dst := x.dst.code, a := x.a.code, b := x.b.code
    hi := third ((0 : BitVec 11) ++ BitVec.ofNat 7 x.len.val ++ BitVec.ofNat 6 x.pos.val) 0 }

/-- A target of CALLX or MEET. -/
def Fields.withTarget (f : Fields) : Target → Fields
  | .reg r => { f with a := r.code }
  | .rel x => { f with i := 1, imm := x }

/-- A branch: the offset fills srcB, srcA and dst. -/
def eBranch (op : BitVec 8) (g : Guard) (off : BitVec 24) : Fields :=
  { blank op g with b := off.extractLsb' 16 8, a := off.extractLsb' 8 8, dst := off.extractLsb' 0 8 }

def SpawnF.enc (op : BitVec 8) (x : SpawnF) (low : BitVec 16) : Fields :=
  { blank op x.g with
    dst := sCode x.dst, a := sCode x.alw, b := sCode x.arg0
    hi := x.entry ++ (0 : BitVec 4) ++ BitVec.ofNat 4 x.argc.val ++ BitVec.ofNat 3 x.hint.val ++ flag x.prio.isSome ++ x.prio.getD 0 ++
      BitVec.ofNat 2 x.exm.val ++ low }

/-- Scale bits: [63] is MX and [62] is I. -/
def Fields.withAddr (f : Fields) (x : MemAddr) : Fields :=
  { f with a := x.base.code, b := x.index.code, mx := BitVec.ofNat 1 (x.scale.val / 2), i := BitVec.ofNat 1 x.scale.val, imm := x.disp }

def Mem.enc (op : BitVec 8) (x : Mem) : Fields :=
  ({ blank op x.g with ty := tyCode x.ty, la := BitVec.ofFin x.la, dst := x.data.code } : Fields).withAddr x.addr

def Fifo.enc (op : BitVec 8) (x : Fifo) : Fields :=
  { blank op x.g with ty := tyCode x.ty, la := BitVec.ofFin x.la, dst := x.data.code, i := 1, imm := BitVec.ofNat 16 x.bank.val }

/-- The atomic layout: disp, RET and the operation or scope in [61:46]. -/
def Fields.withAtom (f : Fields) (x : MemAddr) (ret : Bool) (op : BitVec 4) : Fields :=
  { f.withAddr x with imm := x.disp.extractLsb' 0 11 ++ flag ret ++ op }

def Atom.enc (op : BitVec 8) (x : Atom) : Fields :=
  ({ blank op x.g with ty := tyCode x.ty, la := BitVec.ofFin x.la, dst := x.data.code } : Fields).withAtom x.addr x.ret x.op.code

def ScopedMem.enc (op : BitVec 8) (x : ScopedMem) : Fields :=
  ({ blank op x.g with ty := tyCode x.ty, la := BitVec.ofFin x.la, dst := x.data.code } : Fields).withAtom x.addr false (x.scope.bits3.setWidth 4)

def Sf1.enc (op : BitVec 8) (x : Sf1) : Fields :=
  { blank op x.g with ty := tyCode x.ty, dst := vCode x.dst, a := x.a.code, imm := BitVec.ofNat 16 x.tok.val }

def TcTile.enc (op : BitVec 8) (x : TcTile) (dst a : Fin 64) : Fields :=
  { blank op x.g with
    ty := tyCode x.ty, dst := sCode dst, a := sCode a, b := sCode x.origin
    hi := x.tail.hi ((0 : BitVec 8) ++ sCode x.scale ++ x.kind.field ++ BitVec.ofNat 3 x.ly.val) }

def CapWord.enc (op : BitVec 8) (x : CapWord) : Fields :=
  { blank op x.g with dst := sCode x.dst, a := sCode x.base, b := 0xFF, imm := x.disp }

def PgMem.enc (op : BitVec 8) (x : PgMem) : Fields :=
  { blank op x.g with mx := flag x.scr, dst := BitVec.ofNat 8 x.ctx.val, a := sCode x.addr }

/-- A guard that is p0. -/
def noGuard : Guard := { neg := false, p := 0 }

/-- The CX layout (R278). -/
def eCx (op : BitVec 8) (imm18 : BitVec 18) (fn : BitVec 4) (b a dst : BitVec 8) : Fields :=
  { blank op noGuard with
    mx := imm18.extractLsb' 17 1, i := imm18.extractLsb' 16 1, imm := imm18.extractLsb' 0 16, ty := fn, b := b, a := a, dst := dst }

def cbCode (cb : Option (Fin 8)) : BitVec 8 := match cb with | some c => pCode c | none => 0xFF

/-- A task instruction on s registers. -/
def eS (op : BitVec 8) (g : Guard) (dst a b : BitVec 8) : Fields := { blank op g with dst := dst, a := a, b := b }

/-- The fields of an instruction; none for a pair, an event of a device unit or an illegal word. -/
def Instr.fields : Instr → Option Fields
  | .nop g => some (blank 0x00 g)
  | .bra g off => some (eBranch 0x01 g off)
  | .brx g src none => some { blank 0x02 g with a := src.code }
  | .brx g src (some d) => some { blank 0x02 g with a := src.code, i := 1, imm := d }
  | .call g off => some (eBranch 0x03 g off)
  | .callx g dst t => some (({ blank 0x04 g with dst := vCode dst } : Fields).withTarget t)
  | .ret g none => some (blank 0x05 g)
  | .ret g (some r) => some { blank 0x05 g with mx := 1, a := r.code }
  | .meet g t => some ((blank 0x06 g).withTarget t)
  | .meetclr g => some (blank 0x07 g)
  | .yield g => some (blank 0x08 g)
  | .exit g => some (blank 0x09 g)
  | .elect g dst src =>
    let a : BitVec 8 := match src with | none => 0xFF | some v => vCode v
    match dst with
    | .s r => some { blank 0x0A g with dst := sCode r, a := a }
    | .p p => some { blank 0x0A g with dst := pCode p, a := a, mx := 1 }
  | .quant g x => some { blank 0x0B g with i := 1, imm := x }
  | .spawn x => some (x.enc 0x20 0)
  | .spawnf x k => some (x.enc 0x21 (BitVec.ofNat 16 k.val))
  | .spawnx x d => some (x.enc 0x22 (d.setWidth 16))
  | .join g dst h => some (eS 0x23 g (sCode dst) (sCode h) 0)
  | .joinany g dst => some (eS 0x24 g (sCode dst) 0 0)
  | .topup g res dst h amt => some { eS 0x25 g (sCode dst) (sCode h) (sCode amt) with mx := flag res }
  | .resume g dst h => some (eS 0x26 g (sCode dst) (sCode h) 0)
  | .cancel g dst h => some (eS 0x27 g (sCode dst) (sCode h) 0)
  | .alwrd g held dst => some { eS 0x28 g (sCode dst) 0 0 with mx := flag held }
  | .plynew g dst cap => some { eS 0x29 g (sCode dst) 0 0 with i := 1, imm := BitVec.ofNat 16 cap.val }
  | .plyjoin g src => some (eS 0x2A g 0 (sCode src) 0)
  | .plyleave g src => some (eS 0x2B g 0 (sCode src) 0)
  | .plybar g src => some (eS 0x2C g 0 (sCode src) 0)
  | .setpri g none pr => some { eS 0x2D g 0 0xFF 0 with i := 1, imm := pr.setWidth 16 }
  | .setpri g (some h) pr => some { eS 0x2D g 0 (sCode h) 0 with mx := 1, i := 1, imm := pr.setWidth 16 }
  | .iadd x => some (e2 0x40 x)
  | .isub x => some (e2 0x41 x)
  | .iadds sub x => some { e2 0x42 x with mx := flag sub }
  | .imul x => some (e2 0x43 x)
  | .imulh x => some (e2 0x44 x)
  | .imad x => some (e3 0x45 x)
  | .imin x => some (e2 0x46 x)
  | .imax x => some (e2 0x47 x)
  | .iabs sat x => some { e1 0x48 x with mx := flag sat }
  | .and x => some (e2 0x49 x)
  | .or x => some (e2 0x4A x)
  | .xor x => some (e2 0x4B x)
  | .andn x => some (e2 0x4C x)
  | .shl x => some (e2 0x4D x)
  | .shr x => some (e2 0x4E x)
  | .sar x => some (e2 0x4F x)
  | .clz x => some (e1 0x50 x)
  | .popc x => some (e1 0x51 x)
  | .brev x => some (e1 0x52 x)
  | .bfx x => some (x.enc 0x53)
  | .bfi x => some (x.enc 0x54)
  | .icmp x => some x.enc
  | .sel x => some (({ blank 0x56 x.g with ty := tyCode x.ty, dst := x.dst.code, a := x.a.code, hi := third 0 (pCode x.p) } : Fields).withOpnd x.b)
  | .mov x => some (e1 0x57 x)
  | .movi x => some x.enc
  | .movw x => some { blank 0x59 x.g with ty := tyCode x.ty, dst := x.dst.code, hi := x.imm }
  | .lea x =>
    some { blank 0x5A x.g with
           ty := tyCode x.ty, dst := x.dst.code, a := x.base.code, b := x.index.code, hi := third x.disp (BitVec.ofNat 8 x.scale.val) }
  | .plog x => some x.enc
  | .movsp x => some { blank 0x5C x.g with ty := if x.wide then 3 else 1, dst := x.dst.code, imm := BitVec.ofNat 16 x.num.val }
  | .dot4 sat x => some { e3 0x5D x with mx := flag sat }
  | .fadd x => some (e2 0x60 x)
  | .fsub x => some (e2 0x61 x)
  | .fmul x => some (e2 0x62 x)
  | .ffma x => some (e3 0x63 x)
  | .fmin x => some (e2 0x64 x)
  | .fmax x => some (e2 0x65 x)
  | .fneg x => some (e1 0x66 x)
  | .fabs x => some (e1 0x67 x)
  | .fcmp x => some x.enc
  | .fclass x => some (e1 0x69 x)
  | .frnd m x => some { e1 0x6A x with imm := (modeCode m).setWidth 16 }
  | .cvt x =>
    some { blank 0x6B x.g with
           ty := tyCode x.ty, dst := x.dst.code, a := x.a.code, imm := (0 : BitVec 7) ++ flag x.sat ++ modeCode x.mode ++ tyCode x.src }
  | .pack x =>
    some { blank 0x6C x.g with
           ty := tyCode x.ty, dst := x.dst.code, a := x.a.code, b := x.b.code
           hi := third ((0 : BitVec 14) ++ flag x.half ++ flag x.sat ++ modeCode x.mode ++ tyCode x.src) x.c.code }
  | .unpk x =>
    some { blank 0x6D x.g with
           ty := tyCode x.ty, dst := x.dst.code, a := x.a.code, imm := (0 : BitVec 10) ++ BitVec.ofNat 2 x.idx.val ++ tyCode x.src }
  | .fdot2 x => some (e3 0x6E x)
  | .shfl x => some (e2 0x70 x)
  | .shflx x => some (e2 0x71 x)
  | .shflup x => some (e2 0x72 x)
  | .shfldn x => some (e2 0x73 x)
  | .vote x =>
    let f := { blank 0x74 x.g with ty := tyCode x.ty, a := x.a.code, imm := x.mode.code }
    match x.dst with
    | .s r => some { f with dst := sCode r }
    | .p p => some { f with dst := pCode p, mx := 1 }
  | .prfx x =>
    some { blank 0x75 x.g with ty := tyCode x.ty, dst := x.dst.code, a := x.a.code, imm := (0 : BitVec 12) ++ flag x.excl ++ x.op.code }
  | .redv x => some { blank 0x76 x.g with ty := tyCode x.ty, dst := sCode x.dst, a := x.a.code, imm := x.op.code.setWidth 16 }
  | .confl x => some (e1 0x77 x)
  | .cpack x => some { blank 0x78 x.g with ty := tyCode x.ty, dst := x.dst.code, a := x.a.code, hi := third 0 (sCode x.cnt) }
  | .sfRcp x => some (x.enc 0x80)
  | .sfRsq x => some (x.enc 0x81)
  | .sfSqrt x => some (x.enc 0x82)
  | .sfExp2 x => some (x.enc 0x83)
  | .sfLog2 x => some (x.enc 0x84)
  | .sfSin x => some (x.enc 0x85)
  | .sfCos x => some (x.enc 0x86)
  | .sfTanh x => some (x.enc 0x87)
  | .sfSigm x => some (x.enc 0x88)
  | .sfGelu x => some (x.enc 0x89)
  | .sfDiv x =>
    some { blank 0x8A x.g with
           ty := tyCode x.ty, dst := vCode x.dst, a := x.a.code, b := x.b.code, imm := BitVec.ofNat 16 x.tok.val
           hi := third ((modeCode x.mode).setWidth 24) 0 }
  | .sfIdiv x =>
    some { blank 0x8B x.g with
           ty := tyCode x.ty, dst := vCode x.dst, a := x.a.code, b := x.b.code, imm := BitVec.ofNat 16 x.tok.val
           hi := match x.rem with | none => third 1 0 | some r => third 0 (vCode r) }
  | .sfWait g m => some { blank 0x8C g with i := 1, imm := m.setWidth 16 }
  | .ld x => some (x.enc 0x90)
  | .st x => some (x.enc 0x91)
  | .ldu x => some (x.enc 0x92)
  | .stu x => some (x.enc 0x93)
  | .ldp x => some (x.enc 0x94)
  | .stp x => some (x.enc 0x95)
  | .lds x => some (x.enc 0x96)
  | .sts x => some (x.enc 0x97)
  | .fpsh x => some (x.enc 0x98)
  | .fpop x => some (x.enc 0x99)
  | .prf g l2 a => some (({ blank 0x9A g with dst := if l2 then 1 else 0 } : Fields).withAddr a)
  | .cctl g op a => some (({ blank 0x9B g with dst := op.code } : Fields).withAddr a)
  | .bankset g bank m => some { blank 0x9C g with i := 1, imm := (0 : BitVec 10) ++ m.code ++ BitVec.ofNat 4 bank.val }
  | .probe g dst a => some (({ blank 0x9D g with dst := sCode dst } : Fields).withAddr a)
  | .atom x => some (x.enc 0xA0)
  | .cas x =>
    some { ({ blank 0xA1 x.g with ty := tyCode x.ty, la := BitVec.ofFin x.la, dst := x.data.code } : Fields).withAtom x.addr false 0 with
           hi := third 0 x.cmp.code }
  | .atomd x => some (x.enc 0xA2)
  | .aflush g => some (blank 0xA3 g)
  | .fence g k sc => some { blank 0xA4 g with i := 1, imm := (0 : BitVec 10) ++ k.code ++ (0 : BitVec 1) ++ sc.bits3 }
  | .lda x => some (x.enc 0xA5)
  | .stl x => some (x.enc 0xA6)
  | .atoms x => some (x.enc 0xA7)
  | .tcLoad x => some (x.enc 0xB0 x.tile x.base)
  | .tcStore x => some (x.enc 0xB1 x.base x.tile)
  | .tcQnt2 x =>
    some { blank 0xB2 x.g with
           ty := tyCode x.ty, dst := sCode x.tile, a := sCode x.base, b := sCode x.origin
           hi := x.tail.hi ((0 : BitVec 18) ++ BitVec.ofNat 3 x.ly.val) }
  | .tcCopy x => some { eS 0xB3 x.g (sCode x.dst) (sCode x.src) (sCode x.len) with hi := x.tail.hi 0 }
  | .tcFill x =>
    let f := eS 0xB4 x.g (sCode x.dst) (sCode x.const) (sCode x.len)
    match x.mode with
    | .global => some { f with hi := x.tail.hi 0 }
    | .scratch => some { f with hi := x.tail.hi 1 }
    | .tile t => some { f with ty := tyCode t, hi := x.tail.hi 2 }
  | .tcLyset g scr ly addr => some { eS 0xB5 g (BitVec.ofNat 8 ly.val) (sCode addr) 0 with mx := flag scr }
  | .arrive g none word amt => some { eS 0xB6 g 0 (sCode word) (sCode amt) with mx := 1 }
  | .arrive g (some sc) word amt => some { eS 0xB6 g 0 (sCode word) (sCode amt) with imm := sc.bits3.setWidth 16 }
  | .await g dst word gen t => some { eS 0xB7 g (sCode dst) (sCode word) (sCode gen) with imm := t }
  | .awtest g dst word => some (eS 0xB8 g (sCode dst) (sCode word) 0)
  | .tcStat g dst => some (eS 0xB9 g (sCode dst) 0 0)
  | .capEnter x =>
    some { blank 0xC0 x.g with
           dst := vCode x.dst, a := x.cell.code, b := match x.args with | none => 0xFF | some v => vCode v
           hi := x.code.code ++ x.slot.code ++ BitVec.ofNat 8 x.status.val ++ (0 : BitVec 40) }
  | .capExit x => some (x.enc 0xC1)
  | .capAbort x => some (x.enc 0xC2)
  | .capProbe x => some (x.enc 0xC3)
  | .cxGet cd k => some (eCx 0xC4 (BitVec.ofNat 18 k.val) 0 0 0 (pCode cd))
  | .cxPut k ca => some (eCx 0xC5 (BitVec.ofNat 18 k.val) 0 0 (pCode ca) 0)
  | .cxLd cd ca d => some (eCx 0xC6 d 0 0 (pCode ca) (pCode cd))
  | .cxAlu op cd ca cb imm => some (eCx 0xC7 imm op.code (cbCode cb) (pCode ca) (pCode cd))
  | .cxMovi cd imm sh => some (eCx 0xC8 imm (BitVec.ofNat 4 sh.val) 0 0 (pCode cd))
  | .cxBr cond ca cb off => some (eCx 0xC9 off cond.code (cbCode cb) (pCode ca) 0)
  | .cxRes cd k => some (eCx 0xCA (BitVec.ofNat 18 k.val) 0 0 0 (pCode cd))
  | .capExitStep => some (eCx 0xC1 0 0 0 0 0)
  | .capAbortStep => some (eCx 0xC2 0 0 0 0 0)
  | .mxArm x =>
    some { blank 0xD0 x.g with
           imm := (0 : BitVec 4) ++ BitVec.ofNat 8 x.count.val ++ BitVec.ofNat 4 x.cv.val, a := sCode x.desc
           hi := sCode x.gateGen ++ wordCode x.gate ++ sCode x.ply ++ (0 : BitVec 32) }
  | .mxSign g cv => some { blank 0xD1 g with imm := BitVec.ofNat 16 cv.val }
  | .mxFence g => some (blank 0xD2 g)
  | .mxWait g dst cv => some { blank 0xD3 g with dst := sCode dst, imm := BitVec.ofNat 16 cv.val }
  | .mxZero g tiles => some { blank 0xD4 g with imm := tiles }
  | .mxDrain x =>
    some { blank 0xD5 x.g with
           ty := tyCode x.ty, dst := sCode x.dst
           hi := (0 : BitVec 56) ++ flag x.free ++ flag x.zero ++ x.mode.code ++ BitVec.ofNat 4 x.tile.val }
  | .mxFill x => some { blank 0xD6 x.g with a := sCode x.src, hi := (0 : BitVec 58) ++ x.mode.code ++ BitVec.ofNat 4 x.tile.val }
  | .mxStep g dst cv => some { blank 0xD7 g with dst := sCode dst, imm := BitVec.ofNat 16 cv.val }
  | .mxAbort g cv => some { blank 0xD8 g with imm := BitVec.ofNat 16 cv.val }
  | .pgLoad x => some (x.enc 0xE0)
  | .pgRun x =>
    some { eS 0xE1 x.g (sCode x.dst) (sCode x.limit) (sCode x.cnt) with mx := flag x.trans, hi := BitVec.ofNat 64 x.ctx.val }
  | .pgSave x free => some { x.enc 0xE2 with imm := (flag free).setWidth 16 }
  | .pgRest x => some (x.enc 0xE3)
  | .pgStat g dst ctx => some { blank 0xE4 g with dst := sCode dst, i := 1, imm := BitVec.ofNat 16 ctx.val }
  | .trap g x => some { blank 0xF0 g with i := 1, imm := x }
  | .sysrd g dst k => some { blank 0xF1 g with i := 1, imm := k.setWidth 16, dst := sCode dst }
  | .syswr g src k => some { blank 0xF2 g with i := 1, imm := k.setWidth 16, a := sCode src }
  | .bkpt g x => some { blank 0xF3 g with i := 1, imm := x }
  | .susp g x => some { blank 0xF4 g with i := 1, imm := x }
  | .pair _ _ | .illegalInstruction _ _ _
  | .sfDelivery _ _ _ | .fifoRequestServed _ _ | .pageTableWalk _ _ _ _ | .velhamLineRequest _ | .resultReturn _ _ _
  | .storeGloballyPerformed _ | .atomicApplication _ | .deferredFault _ | .batchApplication _ | .awaitTimeout _ _
  | .engineOperationStart _ _ | .engineOperationComplete _ _ | .engineOperationFault _ _ | .cellGrant _ | .leaseExpiry _
  | .epochClosed _ _ | .mxOperationStart _ | .matrixStep _ | .mxOperationComplete _ | .suspDelayExpiry _ | .taskPlacement _ _
  | .stealRequest _ _ | .topupCredit _ | .taskRetirement _ | .starvationSelect _ _ | .vfSliceExpiry _ _ _ | .preempt _ _
  | .loadWithdrawal _ _ | .contextResume _ _ _ | .fqheadWrite _ _ | .controlSpaceWrite _ _ _ | .replay _ _ | .skip _ _ | .terminate _ _
  | .escalate _ _ | .halt _ _ | .release _ _ | .pagerFaultGroup _ _ _ _ | .handlerSpawn _ | .tlbInvalidation _ _ _
  | .sealCacheShootdown _ | .mxrst _ | .mxIdleExpiry _ | .launchRecord _ _ _ _ | .tornWrite _ _ | .launchAdmission _ _ | .nodeStart _ _
  | .nodeCompletion _ _ | .launchCompletion _ | .apertureRead _ _ _ | .apertureWrite _ _ _ | .spawnxRequest _
  | .queueSettings _ _ _ _ _ _ _ _ | .accessControlTable _ _ _ _ | .bindRecord _ | .load _ | .upstreamHotReset | .verifiedBoot
  | .attestationRequest _ _ | .frzN | .freeze | .checkpoint | .restore | .counterMirror _ | .issueGating _ _ _
  | .addressSpaceDescriptor _ | .teardown _ => none

/-- Opcode of a two-operand pairable operation, and of a one-operand one. -/
def PairAlu2.op : PairAlu2 → BitVec 8
  | .iadd => 0x40 | .isub => 0x41 | .imul => 0x43 | .imin => 0x46 | .imax => 0x47 | .and => 0x49 | .or => 0x4A | .xor => 0x4B
  | .shl => 0x4D | .shr => 0x4E | .sar => 0x4F | .fadd => 0x60 | .fsub => 0x61 | .fmul => 0x62 | .fmin => 0x64 | .fmax => 0x65
def PairAlu1.op : PairAlu1 → BitVec 8
  | .mov => 0x57 | .fneg => 0x66 | .fabs => 0x67

def Slot.fields : Slot → Fields
  | .alu2 o x => e2 o.op x
  | .alu1 o x => e1 o.op x
  | .movi x => x.enc
  | .icmp x => x.enc
  | .fcmp x => x.enc
  | .plog x => x.enc

/-- The encoder: the word of an instruction in the low bytes of 128 bits. -/
def encode (i : Instr) : Option (BitVec 128) :=
  match i with
  | .pair a b => some (b.fields.toSlot 0 ++ a.fields.toSlot 3)
  | i => i.fields.map fun f => f.toWord ((formOf f.op.toNat).getD 0)

/-- Length in bytes of an encoded word (R24). -/
def wordLen (x : BitVec 128) : Nat := formLen (x.toNat % 4)

/-- Whether an instruction is one that only a capsule body holds. -/
def Instr.isBody : Instr → Bool
  | .cxGet _ _ | .cxPut _ _ | .cxLd _ _ _ | .cxAlu _ _ _ _ _ | .cxMovi _ _ _ | .cxBr _ _ _ _ | .cxRes _ _ | .capExitStep | .capAbortStep => true
  | _ => false

/-! ### The word of a table row -/

/-- The instruction that the decoder reads from a word of nbits bits, the rest zero, at the start of a window, in a kernel with every
register and width 32; a word of a capsule body decodes as one. -/
def decodeTableWord (nbits w : Nat) : Option Instr :=
  let raw := w % 2 ^ min nbits 128
  match decode? 192 32 0 raw with
  | .ok i => some i
  | .error (6, _) => decodeBody (BitVec.ofNat 64 raw)
  | .error _ => none

end Sys2Proof
end

