-- ==== Sys2Proof/Machine/Order.lean ====
section
/-! DEFINITION. What follows a performed request: the waits of releases, deferred faults found at the far end; and the saving of
a context (spec/11_atomics_ordering.md R237, R241, R254; spec/09_system.md R211-R215). -/

namespace Sys2Proof.Machine

/-! ### Stores sent, and releases served (R230, R237, R243, R254) -/

/-- Requests with their numbers: each takes the next. -/
def State.numbered (s : State) (rs : List Req) : State × List Req :=
  ({ s with nextReq := s.nextReq + rs.length }, rs.zipIdx.map fun r => { r.1 with id := s.nextReq + r.2 })

/-- Send requests behind those in flight; the core's copies of the lines they touch are dropped where R230 says so. -/
def State.sendNow (s : State) (rs : List Req) (drop : Bool) : State :=
  rs.foldl (fun s r =>
    let s1 := { s with reqs := s.reqs ++ [r] }
    if drop then s1.dropLine r.core r.line else s1) s

/-- The stores of an STL go on their way: their bytes are written, and the core's copies of their lines are dropped (R225, R230). -/
def State.sendStl (s : State) (rs : List Req) : State := (rs.foldl State.markStore s).sendNow rs true

def State.send (s : State) (rs : List Req) (drop : Bool) : State := let (s1, rs) := s.numbered rs; s1.sendNow rs drop

/-- An instruction's stores to capsule memory, if it has any, perform when they are sent, behind the earlier requests of their core (R240,
R261). -/
def State.performCaps (s : State) (core inst : Nat) (any : Bool) : State :=
  if any then s.performAll fun r => r.core == core && r.inst == inst && r.caps else s

/-- Cost of a memory instruction: its fixed part and its bytes (R95, R96). -/
def memCost (fixed lanes bytes : Nat) : Nat := fixed + ceilDiv (lanes * bytes) 8

/-- Cost of a request's instruction that returns nothing: an STL, a plain store or an atomic. -/
def storeCost (rs : List Req) : Nat :=
  match rs with
  | [] => 2
  | r :: _ => memCost (match r.kind with | .store => if r.stl then 4 else 2 | _ => 4) (rs.flatMap (·.lanes)).length r.ty.bytes

/-- A parked STL whose release is over sends its store from the core that its task runs on, and its group goes on; where a cell that it would
write is no longer FREE it takes fault 0x0B with its charge returned and no lane performs, and a store to a cell waits while an earlier
request of the core may not perform (R239, R240, R254, R261). -/
def State.stlSend (s : State) (tid : Nat) (w : Wait) (sc : Scope) (send : List Req) : State :=
  match s.task? tid with
  | none => s
  | some t =>
    let send := send.map fun r => { r with core := t.core }
    let bad := send.flatMap fun r => r.lanes.filter fun a => r.caps && !r.deny && s.cellShut (s.asd r.asid).vf a.pa
    if send.any (·.caps) && s.reqs.any (fun q => q.core == t.core && s.stuck q) then s
    else match bad with
    | [] =>
      let s1 := ((s.released sc).sendStl send).updTask tid fun t => t.wake w
      match send with | [] => s1 | r :: _ => s1.performCaps r.core r.inst (send.any (·.caps))
    | _ =>
      let m := maskOf (bad.map (·.lane))
      let va := ((bad.find? fun a => some a.lane == lowest? m).map (·.va.toNat)).getD 0
      let t1 := t.credit (BitVec.ofNat 64 (storeCost send))
      (s.updTask tid fun _ => { t1.parkLanes w.lanes .none with waits := t1.waits.filter (· ≠ w) }).takeFault tid
        (t1.record 0x0B w.pc w.lanes m (BitVec.ofNat 64 (va / 256 * 256)) 5 false false)

/-- CAP.ABORT of a task stream at the cell's owner, after its release (R276). -/
def State.capAbortAct (s : State) (tid : Nat) (w : Wait) (dst : Fin 64) (cell : Nat) : State :=
  match s.task? tid with
  | none => s
  | some t =>
    let vf := (s.asd t.asid).vf
    let c := s.cell vf cell
    let count := if c.count + 1 < 2 ^ 40 then c.count + 1 else 1
    let s1 := if c.state = 3 then (s.setOwner vf cell 0 0 0).homeWrite vf (cell + 8) 8 (count + c.prin * 2 ^ 40) else s
    (s1.updTask tid fun t => (t.wrS dst (BitVec.ofNat 64 c.state)).wake w).acquire t.core .device

/-- Serve the waits of placed tasks whose stores have all been performed; one that another's service has ended is over. -/
def State.serveOrder (s : State) : State :=
  (s.tasks.filter (·.isPlaced)).foldl (fun s t => t.waits.foldl (fun s w =>
    if !(((s.task? t.id).map (·.waits)).getD []).contains w then s
    else match w.kind with
    | .fence reqs rel acq =>
      if s.unperformed reqs then s
      else
        let s1 := (match rel with | some sc => s.released sc | none => s).updTask t.id fun t => t.wake w
        match acq with | some sc => s1.acquire t.core sc | none => s1
    | .stl reqs scope send =>
      if s.unperformed reqs || ((s.task? t.id).map (fun t => t.fault.isSome || t.stop.isSome)).getD true then s else s.stlSend t.id w scope send
    | .arrive word amount scope reqs =>
      if s.unperformed reqs then s
      else ((s.released scope).updTask t.id fun t => t.wake w).arriveAt t.core t.kkey word amount scope
    | .capAbort dst cell reqs => if s.unperformed reqs then s else s.capAbortAct t.id w dst cell
    | .plybar id reqs =>
      if s.unperformed reqs || ((s.task? t.id).map (fun t => !t.dentries.isEmpty)).getD false then s else s.plyArrive t.id id
    | _ => s) s) s

/-! ### Deferred faults (R211, R295) -/

/-- Count and log each line of an instruction that the far end refuses with a code (R179, R180, R186). -/
def State.noteBad (s : State) (rs : List Req) (code : BitVec 8) : State :=
  (rs.filter fun r => s.reqBad r == some code).foldl (fun s r =>
    let va := (match r.lanes with | [] => (0 : BitVec 64) | a :: _ => a.va).toNat
    if code = 0x17 then s.denyReq r else if code = 0x18 then s.ueError r.task r.asid r.prin va r.sealId else s) s

/-- The requests of the instruction of a request, and the code and lanes of the fault they meet, in the order of R187. -/
def State.badOf (s : State) (r : Req) : List Req × BitVec 8 × List LaneAcc :=
  let rs := s.reqs.filter fun q => q.task == r.task && q.inst == r.inst
  let code : BitVec 8 := if rs.any (fun q => s.reqBad q == some 0x0B) then 0x0B
    else if rs.any (fun q => s.reqBad q == some 0x17) then 0x17 else 0x18
  (rs, code, (rs.filter fun q => s.reqBad q == some code).flatMap (·.lanes))

/-- The requests of an instruction are withdrawn: what the far end found is counted, and its stores are not made (R211, R225). -/
def State.withdraw (s : State) (task inst : Nat) (rs : List Req) (code : BitVec 8) : State :=
  rs.foldl State.unstore { s.noteBad rs code with reqs := s.reqs.filter fun q => !(q.task == task && q.inst == inst) }

/-- The record of a deferred fault of a memory instruction, with the depth at its issue (R200); at a cell it names the cell (R261). -/
def Task.deferredRecord (t : Task) (r : Req) (code : BitVec 8) (bad : List LaneAcc) (replayed : Bool) : FaultRec :=
  let m := maskOf (bad.map (·.lane))
  let low := (lowest? m).getD 0
  let va := ((bad.find? fun a => a.lane == low).map (·.va)).getD 0
  { t.record code r.pc r.group m (if code = 0x0B then BitVec.ofNat 64 (va.toNat / 256 * 256) else va) (if code = 0x0B then 5 else 0)
      (!replayed) replayed with depth := r.depth }

def Out.cost (o : Out) : Nat := memCost (if o.acq.isSome || !o.isLoad then 4 else 2) o.lanes.length o.ty.bytes

/-- Cost of the memory instruction that sent these requests: returned at its deferred fault, charged anew by its REPLAY (R95, R211). -/
def Task.reqCost (t : Task) (rs : List Req) : Nat :=
  match t.outs.find? fun o => rs.any fun r => some o.id == r.out with
  | some o => o.cost
  | none => storeCost rs

/-- Stop a task for a deferred fault: no lane of it parks, since its lanes stand elsewhere (R211). -/
def State.takeDeferred (s : State) (tid : Nat) (r : FaultRec) : State :=
  match s.task? tid with
  | none => s
  | some t => ((s.orphan tid).pushRecord t.core r).updTask tid fun t => { t with fault := some r }

/-! ### Saving a context (R213-R215, R193, R224) -/

/-- Withdraw the unserved FIFO requests of a task as pending replays (R193). -/
def State.fifoToReplays (s : State) (tid : Nat) : State :=
  (s.updTask tid fun t =>
    let qs := (s.core t.core).fifoReqs.filter fun q => q.task == tid
    let pushOf (q : FifoReq) : Option Wait := if !q.push then none
      else t.waits.find? fun w => match w.kind with | .fpsh _ i => i == q.id | _ => false
    let popOf (q : FifoReq) : Option Out := if q.push then none else t.outs.find? fun o => o.id == q.out
    { t with
      waits := t.waits.filter fun w => !(qs.filterMap pushOf).contains w
      outs := t.outs.filter fun o => !(qs.filterMap popOf).contains o
      pendingReplays := t.pendingReplays ++ qs.filterMap fun q => match pushOf q, popOf q with
        | some w, _ => some { pc := w.pc, group := w.lanes, code := 0, out := none, wait := some w, stores := [], fifo := some q }
        | none, some o => some { pc := o.pc, group := o.group, code := 0, out := some o, wait := none, stores := [], fifo := some q }
        | none, none => none }).fifoWithdraw tid

/-- Steps 1 and 3 of a save: issue stops, cells become ORPHAN, FIFO requests are withdrawn (R214, R264). -/
def State.beginSave (s : State) (tid : Nat) : State :=
  match s.task? tid with
  | none => s
  | some t =>
    if !t.isPlaced || t.saving.isSome || t.stop.isSome then s
    else ((s.orphan tid).fifoToReplays tid).updTask tid fun t => { t with saving := some s.clock }

/-- A memory instruction as a pending replay. -/
def Replay.ofMem (r : Req) (code : BitVec 8) (out : Option Out) (rs : List Req) : Replay :=
  { pc := r.pc, group := r.group, code := code, out := out, wait := none, stores := rs, fifo := none }

/-- Stores that cannot perform become pending replays with their fault's code (R214 step 4), and prefetches end; fuel counts
instructions. -/
def storesToReplays (tid : Nat) : Nat → State → State
  | 0, s => { s with reqs := s.reqs.filter fun q => q.task ≠ tid }
  | n + 1, s =>
    match s.reqs.find? fun r => r.task == tid && r.kind ≠ .prefetch with
    | none => { s with reqs := s.reqs.filter fun q => q.task ≠ tid }
    | some r =>
      let (rs, code, _) := s.badOf r
      storesToReplays tid n ((s.withdraw tid r.inst rs code).updTask tid fun t =>
        { t with pendingReplays := t.pendingReplays ++ [Replay.ofMem r code none rs] })

/-- Whether an outstanding result is that of an instruction which a deferred fault has stopped. -/
def Task.isDeferred (t : Task) (o : Out) : Bool := t.deferred.any fun r => r.out == some o.id

/-- The instructions that a deferred fault has stopped, each as a pending replay; the outstanding record is the first one's (R211, R213). -/
def Task.deferredReplays (t : Task) : List Replay :=
  (distinct (t.deferred.map (·.inst))).filterMap fun i =>
    let rs := t.deferred.filter fun r => r.inst == i
    rs.head?.map fun r => Replay.ofMem r ((t.fault.map (·.code)).getD 0) (t.outs.find? fun o => r.out == some o.id) rs

/-- Pause the matrix portions that a task armed (R321, R322). -/
def State.mxPause (s : State) (tid core : Nat) : State :=
  let kern := ((s.task? tid).map (·.kkey)).getD 0
  (List.range 16).foldl (fun s i =>
    let v := (s.core core).cv i
    if v.armer ≠ tid || !(v.state = .armed || v.state = .issued) then s
    else
      let s1 := if v.started then s.updCore core fun c => toBoundary s.tick i (c.scratchOf kern) 64 c else s
      s1.updCore core fun c =>
        { (c.setCv i fun v => { v with state := .paused }) with running := if c.running = some i then none else c.running }) s

/-- The waits that a save turns into pending replays: AWAIT and CAP.ENTER (R213, R272, R305). -/
def WaitKind.replayed : WaitKind → Bool
  | .await _ _ _ _ _ | .capEnter _ _ _ => true
  | _ => false

/-- A slot is vacated: no starved task stands there any more (R367). -/
def Core.vacate (c : Core) (slot : Nat) : Core :=
  { c with spindles := listUpd c.spindles (slot / 16) fun x => if x.forced = some (slot % 16) then { x with forced := none } else x }

/-- Steps 4 to 6 of a save; the stores of its core that a parked group of the task waits for are driven on as well. -/
def State.finishSave (s : State) (tid : Nat) : State :=
  match s.task? tid with
  | none => s
  | some t =>
    let core := t.core
    let waited := t.waits.flatMap fun w => match w.kind with
      | .fence ids _ _ | .stl ids _ _ | .arrive _ _ _ ids | .capAbort _ _ ids | .plybar _ ids => ids
      | _ => []
    let s0 := (s.performAll fun r => r.task == tid || waited.contains r.id).serveOrder
    let s1 := (s0.performAll fun r => r.task == tid).serveOrder
    let s2 := storesToReplays tid (s1.reqs.length + 1) s1
    let dirty := (s2.core core).l1.filter fun l => l.priv && l.task == tid
    let s3 := (dirty.foldl State.writeBack s2).updCore core fun c => { c with l1 := c.l1.filter fun l => !(l.priv && l.task == tid) }
    let s4 := s3.mxPause tid core
    let c := s4.core core
    let own := c.ownedBy tid
    let gens := (List.range 8).filter fun i => (c.gen i).owner == some tid
    let sv : Saved :=
      { clock := s4.clock, core := core, slot := t.slot, susp := t.suspended
        delay := if t.suspended then t.suspUs.toNat * Config.cyclesPerUs else 0
        gens := gens.map fun i => (i, c.gen i), tiles := own.map fun i => (i, c.tile i)
        unwaited := own.foldl (fun m i => m ||| (c.unwaited &&& ((1 : BitVec 16) <<< i))) 0 }
    let s5 := s4.updCore core fun c =>
      let c1 := own.foldl Core.freeTile (c.vacate t.slot)
      let c2 := gens.foldl (fun (c : Core) i => c.setGen i fun _ => GCtx.reset) c1
      { c2 with lysets := c2.lysets.map fun x => if x.task = tid then { x with savedAt := some s4.nextSeq } else x }
    let s6 : State := { s5 with nextSeq := s5.nextSeq + 1 }
    s6.updTask tid fun t =>
      let ws := t.waits.filter fun (w : Wait) => w.kind.replayed
      { t with
        waits := t.waits.filter fun (w : Wait) => !w.kind.replayed
        outs := t.outs.filter fun o => !t.isDeferred o
        deferred := []
        carried := (t.carried ++ (s6.reqs.filter fun r => r.core == core && r.kind == .store).map (·.id)).filter fun i => s6.reqs.any fun r => r.id == i
        pendingReplays := t.deferredReplays ++ t.pendingReplays ++
          (ws.map fun (w : Wait) => ({ pc := w.pc, group := w.lanes, code := 0, out := none, wait := some w, stores := [], fifo := none } : Replay))
        saving := none, suspended := false, place := .saved, saved := some sv }

/-- A save goes on when every long-latency result has returned, those of instructions to perform again apart, and every special-function
operation has delivered. -/
def State.trySave (s : State) (tid : Nat) : State :=
  match s.task? tid with
  | none => s
  | some t => if t.saving.isSome && t.outs.all t.isDeferred && t.sfOps.isEmpty then s.finishSave tid else s

/-- Save a task: at once where nothing is outstanding. -/
def State.save (s : State) (tid : Nat) : State := (s.beginSave tid).trySave tid

end Sys2Proof.Machine
end

