-- ==== Sys2Proof/Machine/Memory.lean ====
section
/-! DEFINITION. Memory access instructions, FIFO banks and the events that carry requests on (spec/08_memory.md R165-R197; R36, R37,
R211, R212, R225, R226, R256). -/

namespace Sys2Proof.Machine

/-! ### Checks (R168, R174, R180, R187) -/

/-- One lane's global access with its translation. -/
structure GAcc where
  acc : LaneAcc
  leaf : Leaf

def GAcc.line (a : GAcc) : Nat := lineAddr a.acc.pa

/-- The accesses of each distinct line, in the order of their first lanes; a line reached through several mappings takes the policy of
its first lane's (R181; log 91). -/
def byLine (as : List GAcc) : List (List GAcc) := (distinct (as.map GAcc.line)).map fun k => as.filter fun a => a.line == k

/-- How an access is checked: R and W needed, whether it is an atomic, whether a peer's answer and uncorrectable errors are known at once,
and whether L1 may serve it. -/
structure Need where
  r : Bool
  w : Bool
  atomic : Bool := false
  far : Bool := false
  ue : Bool := false
  l1 : Bool := true

def Need.load : Need := { r := true, w := false }
def Need.store : Need := { r := false, w := true }
def Need.acquire : Need := { Need.load with l1 := false }
def Need.atom : Need := { r := true, w := true, atomic := true, ue := true }
/-- The same for an access that performs at once. -/
def Need.now (n : Need) : Need := { n with far := true, ue := true }

/-- Whether the check of an access is known here: this device makes it, or the access performs at once (R179). -/
def Ctx.known (c : Ctx) (n : Need) (a : GAcc) : Bool := n.far || c.s.checksHere c.t.core a.leaf n.l1 a.line n.w

/-- A denial that is known when the instruction issues. -/
def Ctx.denied (c : Ctx) (n : Need) (a : GAcc) : Bool :=
  c.known n a && !c.s.reachable c.t.core c.t.asid c.t.prin a.leaf n.l1 a.line n.r n.w

/-- The accesses on lines that are denied: one denied mapping denies the line request (R179). -/
def Ctx.shut (c : Ctx) (n : Need) (as : List GAcc) : List GAcc :=
  let bad := (as.filter (c.denied n)).map GAcc.line
  as.filter fun a => bad.contains a.line

/-- What a memory instruction may fault with: code, lanes, address and detail of the lowest, lines to count. -/
structure MFault where
  code : BitVec 8
  lanes : Mask
  addr : BitVec 64
  detail : BitVec 128
  note : State → State

def MFault.plan (f : MFault) : Plan := .fault f.code f.lanes f.addr f.detail f.note

/-- The first of some candidates with a faulting lane (R187). -/
def firstFault (cs : List (BitVec 8 × List Nat × (Nat → BitVec 64 × BitVec 128) × (State → State))) : Option MFault :=
  (cs.find? fun x => !x.2.1.isEmpty).map fun x =>
    let m := maskOf x.2.1
    let d := x.2.2.1 ((lowest? m).getD 0)
    { code := x.1, lanes := m, addr := d.1, detail := d.2, note := x.2.2.2 }

/-- Count and log each denied line once (R179, R180). -/
def Ctx.noteDenied (c : Ctx) (n : Need) (as : List GAcc) (s : State) : State :=
  (byLine as).foldl (fun s g => match g with
    | [] => s
    | a :: _ => s.denied c.tid c.t.asid c.t.prin a.acc.va.toNat a.leaf.sealId (c.s.checksHere c.t.core a.leaf n.l1 a.line n.w)) s

def Ctx.noteUe (c : Ctx) (as : List GAcc) (s : State) : State :=
  (byLine as).foldl (fun s g => match g with
    | [] => s
    | a :: _ => s.ueError c.tid c.t.asid c.t.prin a.acc.va.toNat a.leaf.sealId) s

/-- Check the global accesses of an instruction in the order of R187; the address of 0x07 is the one in `ea`. Where one lane's access spans
pages the fault names its first piece that fails, and 0x06, 0x17 and 0x18 its first piece (log 107). -/
def Ctx.gcheck (c : Ctx) (as : List LaneAcc) (n : Need) (align : Nat) : Except MFault (List GAcc) :=
  let va (l : Nat) : BitVec 64 := ((as.find? fun a => a.lane == l).map (·.va)).getD 0
  let mis := (as.filter fun a => a.va.toNat % align ≠ 0).map (·.lane)
  let xs := as.map fun a => (a, c.s.xlate c.t.core c.t.asid a.va.toNat)
  let bad5 := xs.filterMap fun x => match x.2 with | .error e => some (x.1, e) | .ok _ => none
  let gs : List GAcc := xs.filterMap fun x => match x.2 with
    | .ok l => some { acc := { x.1 with pa := l.pa x.1.va.toNat }, leaf := l }
    | .error _ => none
  let bad6 := gs.filter fun a => (n.r && !a.leaf.r) || (n.w && !a.leaf.w) || (n.atomic && a.leaf.caps)
  let strict := (c.s.asd c.t.asid).strict
  let bad17 := if strict then c.shut n gs else []
  let bad18 := if strict && n.ue then gs.filter fun a => c.s.isUe a.line else []
  let lanes (g : List GAcc) : List Nat := g.map (·.acc.lane)
  let plain (l : Nat) : BitVec 64 × BitVec 128 := (va l, 0)
  let d5 (l : Nat) : BitVec 64 × BitVec 128 := match bad5.find? fun x => x.1.lane == l with
    | some (a, e) => (a.va, detail5 e.1 e.2 c.t.asid)
    | none => (0, 0)
  match firstFault [(0x07, mis, plain, id), (0x05, bad5.map (·.1.lane), d5, id), (0x06, lanes bad6, plain, id),
      (0x17, lanes bad17, plain, c.noteDenied n bad17), (0x18, lanes bad18, plain, c.noteUe bad18)] with
  | some f => .error f
  | none => .ok gs

/-- The lanes that a fault of a uniform instruction names: its guard-true lanes (log 22). -/
def Ctx.uniformFault (c : Ctx) (f : MFault) : Plan := .fault f.code c.act f.addr f.detail f.note

/-! ### Register images (R167) -/

def memBits (ty : Ty) (x : Nat) : Nat := x % 2 ^ (8 * ty.bytes)

/-- A loaded value as its 64-bit register image. -/
def memImage (ty : Ty) (s : Bool) (x : Nat) : BitVec 64 :=
  let v := memBits ty x
  if ty.signed then BitVec.ofNat 64 (wrap (if s || ty.wide then 64 else 32) (sext (8 * ty.bytes) v)) else BitVec.ofNat 64 v

/-- A lane's access. -/
def laneAcc (l : Nat) (va data : BitVec 64) : LaneAcc :=
  { lane := l, va := va, pa := 0, data := data, cmp := 0, mask := BitVec.allOnes 64, val := none }

/-! ### Requests (R181, R212) -/

/-- Requests of a task that could become pending replays (R212). -/
def State.replayable (s : State) (t : Task) : Nat :=
  let stores := distinct ((s.reqs.filter fun r => r.task == t.id && r.out.isNone && r.kind ≠ .prefetch).map (·.inst))
  t.outs.length + stores.length + (t.waits.filter fun w => match w.kind with
    | .await _ _ _ _ _ | .capEnter _ _ _ | .fpsh _ _ | .stl _ _ _ => true
    | _ => false).length

/-- Go on with a plan unless the task holds 32 requests already (R212). -/
def Ctx.counted (c : Ctx) (p : Plan) : Plan :=
  match p with
  | .go cost r eff => if Config.maxRequests ≤ c.s.replayable c.t then .wait else .go cost r eff
  | p => p

/-- The call depth of the issuing group (R200). -/
def Ctx.depth (c : Ctx) : BitVec 8 := (c.t.lane ((lowest? c.group).getD 0)).depth

/-- A request for one line. -/
def Ctx.req (c : Ctx) (inst : Nat) (out : Option Nat) (kind : ReqKind) (ty : Ty) (g : List GAcc) (fill deny stl : Bool) : List Req :=
  match g with
  | [] => []
  | a :: r =>
    let plain := match kind with | .load | .prefetch | .store => true | _ => false
    [{ id := 0, inst := inst, core := c.t.core, task := c.tid, out := out, kind := kind, ty := ty, line := a.line, cpol := a.leaf.policy
       ms := a.leaf.atMs, bypass := if plain then a.leaf.bypass else a.leaf.atMs, caps := a.leaf.caps, stl := stl, fill := fill, deny := deny
       peer := c.s.zone a.line == .peer, sealId := a.leaf.sealId, seals := (r.map (·.leaf.sealId)).filter (· ≠ a.leaf.sealId)
       asid := c.t.asid, prin := c.t.prin, pc := c.pc, depth := c.depth, group := c.group, lanes := g.map (·.acc) }]

/-- Mark the pages and seals that an access used (R172, R175, R177). -/
def Ctx.touch (c : Ctx) (gs : List GAcc) (write : Bool) (s : State) : State :=
  gs.foldl (fun s a => (s.touch c.t.core c.t.asid a.acc.va.toNat write).noteSeal c.t.core c.t.asid c.t.prin a.leaf.sealId) s

/-- Take the next instruction number. -/
def State.bump (s : State) : State := { s with nextReq := s.nextReq + 1 }

/-- A new outstanding result: every lane of the group may issue n more instructions (R37). -/
def Ctx.newOut (c : Ctx) (id : Nat) (kind : OutKind) (dst : Reg) (ty : Ty) (la : Nat) (acc : List LaneAcc) (acq : Option Scope)
    (isLoad : Bool) (s : State) : State :=
  let o : Out :=
    { id := id, kind := kind, pc := c.pc, depth := c.depth, group := c.group, dst := dst, ty := ty
      window := (lanesOf c.group).foldl (fun w l => Store.set w l (BitVec.ofNat 5 la)) [], open_ := c.group, clob := []
      lanes := acc, acq := acq, isLoad := isLoad }
  s.updTask c.tid fun t => { t with outs := t.outs ++ [o] }

/-- The bytes written into private regions are no longer unwritten (R225; log 105). -/
def Ctx.markAll (c : Ctx) (gs : List GAcc) (n : Nat) (s : State) : State :=
  gs.foldl (fun s a => s.markBytes c.t.asid a.acc.va.toNat n) s

/-! ### Accesses that perform when they issue (R178, R240) -/

/-- Go on with a plan made for the state that f leaves. -/
def Plan.over (f : State → State) (p : Plan) : Plan :=
  match p with
  | .fault code lmask addr detail n => .fault code lmask addr detail fun s => n (f s)
  | .late cost code lmask addr detail n => .late cost code lmask addr detail fun s => n (f s)
  | .wait => .wait
  | .go cost reserve eff => .go cost reserve fun s => eff (f s)

/-- Of some accesses those that come to their homes: no copy in the core's L1 serves them, a private one where they are private. -/
def Ctx.homeward (c : Ctx) (priv : Bool) (as : List LaneAcc) : List GAcc :=
  (as.filterMap fun a => match c.s.xlate c.t.core c.t.asid a.va.toNat with
    | .ok l => some { acc := { a with pa := l.pa a.va.toNat }, leaf := l }
    | .error _ => none).filter fun a =>
      a.leaf.noL1 || (if priv then (((c.s.core c.t.core).l1.find? fun l => l.line == a.line).map (·.priv)) != some true
        else (c.s.l1Ready c.t.core a.line).isNone)

/-- Whether a request of a core comes before some of these accesses at their homes. -/
def State.before (s : State) (core : Nat) (hs : List GAcc) (r : Req) : Bool := hs.any fun a => s.ahead core a.line a.leaf.atMs r

/-- The requests of the core that come before some accesses perform first. -/
def State.clear (s : State) (core : Nat) (hs : List GAcc) : State := s.performAll (s.before core hs)

/-- Whether some request that comes before these accesses may not perform yet. -/
def State.blocked (s : State) (core : Nat) (hs : List GAcc) : Bool := s.reqs.any (s.before core hs)

/-- The plan of an instruction that accesses memory at once: behind the core's requests to the homes that it comes to, with its checks made
in the state that they leave; it waits while one of them may not perform. -/
def Ctx.behind (c : Ctx) (priv : Bool) (as : List LaneAcc) (p : Ctx → Plan) : Plan :=
  let hs := c.homeward priv as
  let s1 := c.s.clear c.t.core hs
  if s1.blocked c.t.core hs then .wait else (p { c with s := s1 }).over fun s => s.clear c.t.core hs

/-- Loads from global memory (R191, R179, R182): denied lines give zeros, lines in L1 give their bytes, the others are asked for; behind an
LDA whose value has not returned, all of them (R254). -/
def Ctx.loadEff (c : Ctx) (n : Need) (ty : Ty) (dst : Reg) (la : Nat) (gs : List GAcc) (acq : Option Scope) (s : State) : State :=
  let inst := s.nextReq
  let s1 := (c.touch gs false s).bump
  let shut := (c.shut n gs).map GAcc.line
  let s2 := if acq.isSome then gs.foldl (fun s a => s.dropLine c.t.core a.line) s1 else s1
  let held := c.t.acquiring
  let (s3, accs) := (byLine gs).foldl (fun (p : State × List LaneAcc) g => match g with
    | [] => p
    | a :: _ =>
      if shut.contains a.line then (c.noteDenied n g p.1, p.2 ++ g.map fun x => { x.acc with val := some 0 })
      else match (if a.leaf.noL1 || held then none else p.1.l1Ready c.t.core a.line) with
        | some l => (p.1, p.2 ++ g.map fun x => { x.acc with val := some (BitVec.ofNat 64 (lineRead l.data (x.acc.pa % 128) ty.bytes)) })
        | none => (p.1.send (c.req inst (some inst) .load ty g (!a.leaf.noL1) false false) false, p.2 ++ g.map (·.acc))) (s2, [])
  c.newOut inst .memory dst ty la accs acq true s3

/-- The cell that a store to a CAPS page meets: fault 0x0B with reason 0x05 unless it is FREE and the bytes lie above 0x0F (R261). -/
def Ctx.capsStore (c : Ctx) (as : List GAcc) : Option MFault :=
  let vf := (c.s.asd c.t.asid).vf
  let shut := (c.shut Need.store.now as).map GAcc.line
  let bad := as.filter fun a => a.leaf.caps && !shut.contains a.line && c.s.cellShut vf a.acc.pa
  let at_ (l : Nat) : BitVec 64 × BitVec 128 := match bad.find? fun a => a.acc.lane == l with
    | some a => (BitVec.ofNat 64 (a.acc.va.toNat / 256 * 256), 5)
    | none => (0, 0)
  firstFault [(0x0B, bad.map (·.acc.lane), at_, id)]

/-- Whether a store to capsule memory must wait: an earlier request of the core that may not perform yet stands before it (R240). -/
def Ctx.capsHeld (c : Ctx) (as : List GAcc) : Bool :=
  as.any (fun a => a.leaf.caps) && c.s.reqs.any fun q => q.core == c.t.core && c.s.stuck q

/-- Whether the far end would refuse a store's line as it stands (R179, R186). -/
def Ctx.farBad (c : Ctx) (a : GAcc) : Bool :=
  c.s.isUe a.line || (c.s.zone a.line == .peer && !c.s.peerOk (a.line >>> 42) c.t.asid c.t.prin a.leaf.sealId false true)

/-- Whether a store updates L1 only when it performs, and not before (R243): its far end would refuse its line, or under STRICT some line of
its instruction, which then performs for no lane (R179, R180, R186), or it stands behind an LDA (R254). -/
def Ctx.holdsL1 (c : Ctx) (gs : List GAcc) (a : GAcc) : Bool :=
  c.t.acquiring || (if (c.s.asd c.t.asid).strict then gs.any c.farBad else c.farBad a)

/-- The requests of a store, and its effect on the core's L1 at once (R182, R191, R243, R261). Capsule memory is written at once, behind
the core's earlier requests to it. -/
def Ctx.storeEff (c : Ctx) (ty : Ty) (gs : List GAcc) (s : State) : State :=
  let inst := s.nextReq
  let s1 := (c.touch gs true s).bump
  let shut := (c.shut Need.store gs).map GAcc.line
  let s2 := c.markAll (gs.filter fun a => !shut.contains a.line) ty.bytes s1
  ((byLine gs).foldl (fun s g => match g with
    | [] => s
    | a :: _ =>
      let deny := shut.contains a.line
      let hold := !deny && !a.leaf.noL1 && c.holdsL1 gs a
      let s' := if deny || a.leaf.noL1 || hold then s
        else g.foldl (fun s x => s.l1Store c.t.core x.acc.pa ty.bytes x.acc.data.toNat false) s
      s'.send (c.req inst none .store ty g hold deny false) false) s2).performCaps c.t.core inst (gs.any (·.leaf.caps))

/-! ### LD, ST, LDU, STU (R166, R191) -/

/-- Lanes of a global instruction: the guard-true lanes, or the lowest where it is uniform. -/
def Ctx.globalLanes (c : Ctx) (uniform : Bool) : List Nat := if uniform then (lowest? c.act).toList else lanesOf c.act

/-- The accesses of a global instruction; bytes of a private region that its task has not written read as zero (R225). -/
def Ctx.accesses (c : Ctx) (uniform : Bool) (ty : Ty) (a : MemAddr) (data : Nat → Nat) : List LaneAcc :=
  (c.globalLanes uniform).map fun l =>
    let va := c.globalAddr a l
    { laneAcc l (BitVec.ofNat 64 va) (BitVec.ofNat 64 (memBits ty (data l))) with mask := c.s.privMask c.t.asid va ty.bytes }

def Ctx.loads (c : Ctx) (uniform : Bool) (ty : Ty) (a : MemAddr) : List LaneAcc := c.accesses uniform ty a fun _ => 0

def Ctx.stores (c : Ctx) (uniform : Bool) (ty : Ty) (a : MemAddr) (data : Reg) : List LaneAcc := c.accesses uniform ty a (c.reg ty.wide data)

def Ctx.faultPlan (c : Ctx) (uniform : Bool) (f : MFault) : Plan := if uniform then c.uniformFault f else f.plan

/-- A global load. -/
def globalLoad (uniform : Bool) (x : Mem) (s : State) : Host.Outcome State Fault Refusal :=
  issue s 8 x.g fun c =>
    let as := c.loads uniform x.ty x.addr
    match c.gcheck as .load x.ty.bytes with
    | .error f => c.faultPlan uniform f
    | .ok gs => c.counted <| .go (memCost 2 as.length x.ty.bytes) 0 fun s => c.next (c.loadEff .load x.ty x.data x.la.val gs none s)

/-- A global store. -/
def globalStore (uniform : Bool) (x : Mem) (s : State) : Host.Outcome State Fault Refusal :=
  issue s 8 x.g fun c =>
    let as := c.stores uniform x.ty x.addr x.data
    match c.gcheck as .store x.ty.bytes with
    | .error f => c.faultPlan uniform f
    | .ok gs => match c.capsStore gs with
      | some f => c.faultPlan uniform f
      | none =>
        if c.capsHeld gs then .wait
        else c.counted <| .go (memCost 2 as.length x.ty.bytes) 0 fun s => c.next (c.storeEff x.ty gs s)

def execLd (x : Mem) (s : State) : Host.Outcome State Fault Refusal := globalLoad false x s
def execSt (x : Mem) (s : State) : Host.Outcome State Fault Refusal := globalStore false x s
def execLdu (x : Mem) (s : State) : Host.Outcome State Fault Refusal := globalLoad true x s
def execStu (x : Mem) (s : State) : Host.Outcome State Fault Refusal := globalStore true x s

/-! ### LDP, STP (R185, R225, R226) -/

/-- DETAIL of fault 0x04 (R226). -/
def detail4 (o : Int) (priv size : Nat) : BitVec 128 := BitVec.ofNat 128 (packBytes [(0, wrap 32 o), (4, priv), (8, size)])

/-- The 4-byte pieces of a lane's access at private offset o: words w, and w + 1 of an 8-byte one. -/
def Ctx.privPieces (c : Ctx) (l : Nat) (o : Nat) (size : Nat) : List Nat :=
  (List.range (size / 4)).map fun i => (c.t.pbase.toNat + ((o / 4 + i) * c.k.w + l) * 4) % 2 ^ 64

/-- The pieces of a private access, of the lanes within the private limit. -/
def Ctx.privAccs (c : Ctx) (ty : Ty) (a : MemAddr) : List LaneAcc :=
  (lanesOf c.act).flatMap fun l =>
    let o := c.effAddr false a l
    if o < 0 || (c.k.priv : Int) < o + ty.bytes then [] else (c.privPieces l o.toNat ty.bytes).map fun va => laneAcc l (BitVec.ofNat 64 va) 0

/-- Checks of a private access: alignment and the private limit on offsets, then each piece's translation, permission and seal. -/
def Ctx.pcheck (c : Ctx) (ty : Ty) (a : MemAddr) (n : Need) : Except MFault (List (Nat × List GAcc)) :=
  let size := ty.bytes
  let ls := lanesOf c.act
  let o (l : Nat) : Int := c.effAddr false a l
  let addr (l : Nat) : BitVec 64 := BitVec.ofNat 64 (mod64 (o l))
  match firstFault [(0x07, ls.filter fun l => o l % size ≠ 0, fun l => (addr l, 0), id),
      (0x04, ls.filter fun l => o l < 0 || (c.k.priv : Int) < o l + size, fun l => (addr l, detail4 (o l) c.k.priv size), id)] with
  | some f => .error f
  | none =>
    let all := ls.flatMap fun l => (c.privPieces l (o l).toNat size).map fun va => laneAcc l (BitVec.ofNat 64 va) 0
    match c.gcheck all n 4 with
    | .error f => .error f
    | .ok gs => .ok (ls.map fun l => (l, gs.filter fun g => g.acc.lane == l))

/-- The bytes of a line as the task's private region shows them: those it has not written are zero (R225). -/
def Ctx.privShown (c : Ctx) (a : GAcc) (d : Line) (s : State) : Line :=
  let t := (s.task? c.tid).getD c.t
  let va0 := a.acc.va.toNat / 128 * 128
  (List.range 128).foldl (fun d i => d.setByte i (BitVec.ofNat 8 (t.maskPriv c.k (va0 + i) 1 (d.byte i).toNat))) d

/-- The private line of an access in L1, where the core has a CACHE bank: a global copy becomes private under its own seal (R178), a miss
fills it, but for a store
that covers the whole line (R182, R225). -/
def Ctx.privLine (c : Ctx) (a : GAcc) (whole : Bool) (s : State) : State :=
  let vf := (s.asd c.t.asid).vf
  let own (d : Line) (s : State) : L1Line :=
    { way := 0, line := a.line, data := c.privShown a d s, sealId := a.leaf.sealId, asid := c.t.asid, priv := true, task := c.tid, dirty := 0 }
  if a.leaf.noL1 then s
  else match (s.core c.t.core).l1? a.line with
    | some l => if l.priv then s else s.l1Fill c.t.core { own l.data s with sealId := l.sealId } a.leaf.stream
    | none =>
      if whole then s.l1Fill c.t.core (own 0 s) a.leaf.stream
      else
        let s1 := s.l2Fill vf a.line a.leaf.sealId a.leaf.stream
        s1.l1Fill c.t.core (own (s1.homeLine vf a.line) s1) a.leaf.stream

/-- One 4-byte piece read; zero where denied or uncorrectable, or where the task has written nothing (R225). -/
def Ctx.privRead (c : Ctx) (shut : List Nat) (a : GAcc) (s : State) : Nat × State :=
  let vf := (s.asd c.t.asid).vf
  if shut.contains a.line || s.isUe a.line then (0, s)
  else
    let s1 := c.privLine a false s
    let v := match (if a.leaf.noL1 then none else (s1.core c.t.core).l1? a.line) with
      | some l => lineRead l.data (a.acc.pa % 128) 4
      | none => s1.serveRead vf a.leaf.bypass a.acc.pa 4
    (c.t.maskPriv c.k a.acc.va.toNat 4 v, s1)

/-- One 4-byte piece written into its private line, or at its home. -/
def Ctx.privWrite (c : Ctx) (shut : List Nat) (whole : Bool) (a : GAcc) (v : Nat) (s : State) : State :=
  let vf := (s.asd c.t.asid).vf
  if shut.contains a.line || s.isUe a.line then s
  else
    let s1 := c.privLine a whole s
    let s2 := match (if a.leaf.noL1 then none else (s1.core c.t.core).l1? a.line) with
      | some _ => s1.l1Store c.t.core a.acc.pa 4 v true
      | none => s1.serveWrite vf a.leaf.bypass a.acc.pa 4 v
    s2.updTask c.tid fun t => t.markPriv c.k a.acc.va.toNat 4

/-- Count the denied and the uncorrectable lines of an access that performs at once. -/
def Ctx.noteNow (c : Ctx) (n : Need) (gs : List GAcc) (s : State) : State :=
  let bad := c.shut n gs
  let shut := bad.map GAcc.line
  c.noteUe (gs.filter fun a => !shut.contains a.line && s.isUe a.line) (c.noteDenied n bad s)

/-- LDP: private accesses perform when they issue (log 23). -/
def execLdp (x : Mem) (s : State) : Host.Outcome State Fault Refusal :=
  issue s 8 x.g fun c => c.behind true (c.privAccs x.ty x.addr) fun c =>
    let n := Need.load.now
    match c.pcheck x.ty x.addr n with
    | .error f => f.plan
    | .ok ls => c.counted <| .go (memCost 2 ls.length x.ty.bytes) 0 fun s =>
        let inst := s.nextReq
        let gs := ls.flatMap (·.2)
        let shut := (c.shut n gs).map GAcc.line
        let s1 := c.noteNow n gs (c.touch gs false s).bump
        let (s2, accs) := ls.foldl (fun (p : State × List LaneAcc) l =>
          let (s', v, _) := l.2.foldl (fun (q : State × Nat × Nat) a =>
            let (x, s') := c.privRead shut a q.1
            (s', q.2.1 + x * 2 ^ q.2.2, q.2.2 + 32)) (p.1, 0, 0)
          (s', p.2 ++ [{ laneAcc l.1 0 0 with val := some (BitVec.ofNat 64 v) }])) (s1, [])
        c.next (c.newOut inst .memory x.data x.ty x.la.val accs none true s2)

/-- STP. -/
def execStp (x : Mem) (s : State) : Host.Outcome State Fault Refusal :=
  issue s 8 x.g fun c => c.behind true (c.privAccs x.ty x.addr) fun c =>
    let n := Need.store.now
    match c.pcheck x.ty x.addr n with
    | .error f => f.plan
    | .ok ls => c.counted <| .go (memCost 2 ls.length x.ty.bytes) 0 fun s =>
        let gs := ls.flatMap (·.2)
        let shut := (c.shut n gs).map GAcc.line
        let whole (a : GAcc) : Bool := (distinct ((gs.filter fun b => b.line == a.line).map (·.acc.pa))).length = 32
        let s1 := c.noteNow n gs (c.touch gs true s)
        c.next (ls.foldl (fun s l =>
          let v := c.reg x.ty.wide x.data l.1
          (l.2.zipIdx).foldl (fun s a => c.privWrite shut (whole a.1) a.1 (bits v (32 * a.2) 32) s) s) s1)

/-! ### LDS, STS (R188, R189, R293, R245) -/

/-- Checks of a scratch access: alignment, then the range. -/
def Ctx.scheck (c : Ctx) (ty : Ty) (a : MemAddr) (lanes : List Nat) : Except MFault (List (Nat × Nat)) :=
  let n := ty.bytes
  let o (l : Nat) : Int := c.effAddr false a l
  let addr (l : Nat) : BitVec 64 := BitVec.ofNat 64 (mod64 (o l))
  match firstFault [(0x07, lanes.filter fun l => o l % n ≠ 0, fun l => (addr l, 0), id),
      (0x08, lanes.filter fun l => o l < 0 || (c.k.scr : Int) < o l + n, fun l => (addr l, 0), id)] with
  | some f => .error f
  | none => .ok (lanes.map fun l => (l, (o l).toNat))

/-- Whether a byte lies in an operand tile of a matrix operation that has ended and that the reading task, or the task that armed it, has
yet to wait for (R245). -/
def State.unwaitedOperand (s : State) (core tid : Nat) (k : KKey) (a : Nat) : Bool :=
  s.tasks.any fun t => t.kkey == k && !t.isRetired && t.mxRecs.any fun r =>
    r.core = core && !r.waited && (r.armer || t.id = tid) && r.ops.any fun x => x ≤ a && a < x + 8448

/-- Whether a scratch byte reads as undefined to a task: written by a copy in flight, or in an operand of a matrix operation from its first
signature to its MX.WAIT (R293, R320, R245). -/
def State.scrUndef (s : State) (core tid : Nat) (k : KKey) (a : Nat) : Bool :=
  let c := s.core core
  c.copies.any (fun o => o.started && o.kernel = k && (o.scrRanges (c.scratchOf k)).any fun r => r.1 ≤ a && a < r.1 + r.2) ||
  s.unwaitedOperand core tid k a ||
  c.cvs.any fun v => !v.signers.isEmpty && v.state ≠ .idle && ((s.task? v.armer).map (·.kkey)) = some k &&
    ((Desc.of v.desc).operandTiles (c.progOf (Desc.of v.desc))).any fun x => x.2 ≤ a && a < x.2 + 8448

def State.scrRead (s : State) (core tid : Nat) (k : KKey) (a : Nat) : Nat → Nat
  | 0 => 0
  | n + 1 => (if s.scrUndef core tid k a then Config.freeByte s.tick a else ((s.core core).scratchOf k).get a).toNat +
      256 * s.scrRead core tid k (a + 1) n

/-- Scratch bytes written by a task: unfenced until its MX.FENCE, with what they held before (R245, R327). -/
def State.scrStore (s : State) (core tid : Nat) (k : KKey) (bs : List (Nat × BitVec 8)) : State :=
  let old (a : Nat) : BitVec 9 := 256 + (((s.core core).scratchOf k).get a).setWidth 9
  let s1 := s.updTask tid fun t =>
    { t with unfenced := bs.foldl (fun m b => if m.get b.1 = 0 then m.set b.1 (old b.1) else m) t.unfenced }
  s1.scrWrite core k bs

def execLds (x : Mem) (s : State) : Host.Outcome State Fault Refusal :=
  issue s 8 x.g fun c => match c.scheck x.ty x.addr (lanesOf c.act) with
    | .error f => f.plan
    | .ok ls => c.counted <| .go (memCost 2 ls.length x.ty.bytes) 0 fun s =>
        let accs := ls.map fun l => { laneAcc l.1 0 0 with
          val := some (BitVec.ofNat 64 (s.scrRead c.t.core c.tid c.t.kkey l.2 x.ty.bytes)) }
        c.next (c.newOut s.nextReq .scratch x.data x.ty x.la.val accs none true s.bump)

def execSts (x : Mem) (s : State) : Host.Outcome State Fault Refusal :=
  issue s 8 x.g fun c => match c.scheck x.ty x.addr (lanesOf c.act) with
    | .error f => f.plan
    | .ok ls => c.counted <| .go (memCost 2 ls.length x.ty.bytes) 0 fun s =>
        c.next (s.scrStore c.t.core c.tid c.t.kkey (ls.flatMap fun l => bytesAt l.2 x.ty.bytes (c.reg x.ty.wide x.data l.1)))

/-! ### FPSH, FPOP (R190, R192, R193) -/

/-- Fault 0x09 where the bank is no FIFO of the task's kernel. -/
def Ctx.fifoBad (c : Ctx) (bank : Nat) : Bool :=
  let b := (c.s.core c.t.core).banks.getD bank Bank.reset
  !(b.mode = .fifo && b.owner = some c.t.kkey)

def execFpsh (x : Fifo) (s : State) : Host.Outcome State Fault Refusal :=
  issue s 8 x.g fun c =>
    if c.act = 0 then .go 2 0 c.next
    else if c.fifoBad x.bank.val then .trap 0x09 c.act
    else c.counted <| .go (fifoCost c.act) 0 fun s =>
      let q : FifoReq :=
        { id := s.nextSeq, task := c.tid, bank := x.bank.val, push := true
          vals := (lanesOf c.act).map fun l => BitVec.ofNat 32 (c.reg false x.data l), lanes := c.act, out := 0, dead := false }
      let s1 : State := { s with nextSeq := s.nextSeq + 1 }
      c.hold (.fpsh x.bank.val q.id) .fifo (s1.updCore c.t.core fun k => { k with fifoReqs := k.fifoReqs ++ [q] })

def execFpop (x : Fifo) (s : State) : Host.Outcome State Fault Refusal :=
  issue s 8 x.g fun c =>
    if c.act = 0 then .go 2 0 c.next
    else if c.fifoBad x.bank.val then .trap 0x09 c.act
    else c.counted <| .go (fifoCost c.act) 0 fun s =>
      let accs := (lanesOf c.act).map fun l => laneAcc l 0 0
      let q : FifoReq := { id := s.nextSeq, task := c.tid, bank := x.bank.val, push := false, vals := [], lanes := c.act, out := s.nextReq, dead := false }
      let s1 : State := { s.bump with nextSeq := s.nextSeq + 1 }
      let s2 := s1.updCore c.t.core fun k => { k with fifoReqs := k.fifoReqs ++ [q] }
      c.next (c.newOut s.nextReq (.fifo x.bank.val) x.data x.ty x.la.val accs none false s2)

/-- FIFO_REQUEST_SERVED: the bank serves the first of its requests that can be served whole; pushes keep their order among
pushes and pops among pops (R190). A request that its bank has left in leaving FIFO mode raises fault 0x09 (R193). -/
def execFifoRequestServed (core bank : Nat) (s : State) : Host.Outcome State Fault Refusal :=
  let c := s.core core
  let b := c.banks.getD bank Bank.reset
  let lost := c.fifoReqs.filter fun r => r.bank == bank && r.dead
  let rs := c.fifoReqs.filter fun r => r.bank == bank && !r.dead
  match lost.find? fun r => ((s.task? r.task).map fun t => t.fault.isNone && t.isPlaced).getD false with
  | some r => .next (s.fifoFault r)
  | none =>
    let n (r : FifoReq) : Nat := (lanesOf r.lanes).length
    let ok (r : FifoReq) : Bool := if r.push then b.fifo.length + n r ≤ 16384 else n r ≤ b.fifo.length
    let heads := rs.filter fun r => (rs.find? fun q => q.push == r.push).map (·.id) == some r.id
    match heads.find? ok with
    | none => .next s
    | some r =>
      let s1 := s.updCore core fun c =>
        { c with
          fifoReqs := c.fifoReqs.filter fun q => q.id ≠ r.id
          banks := listUpd c.banks bank fun b => { b with fifo := if r.push then b.fifo ++ r.vals else b.fifo.drop (n r) } }
      if r.push then
        .next (s1.updTask r.task fun t => match t.waits.find? fun w => match w.kind with | .fpsh _ i => i == r.id | _ => false with
          | some w => t.wake w
          | none => t)
      else
        .next (s1.setVals r.task (some r.out) (((lanesOf r.lanes).zip b.fifo).map fun p => (p.1, p.2.setWidth 64)))

/-! ### PRF, CCTL, BANKSET, PROBE (R194-R197) -/

/-- The access of a hint: none where translation, permission or a seal check that n knows fails. -/
def Ctx.quiet (c : Ctx) (lane va : Nat) (n : Need) : Option GAcc :=
  match c.s.xlate c.t.core c.t.asid va with
  | .error _ => none
  | .ok l =>
    let a : GAcc := { acc := { laneAcc lane (BitVec.ofNat 64 va) 0 with pa := l.pa va }, leaf := l }
    if (n.r && !l.r) || (n.w && !l.w) || c.denied n a then none else some a

/-- PRF (R194): one request per line, for the named level; a page that bypasses the caches has nothing to fill. -/
def execPrf (g : Guard) (l2 : Bool) (addr : MemAddr) (s : State) : Host.Outcome State Fault Refusal :=
  issue s 8 g fun c => .go 2 0 fun s =>
    let gs := (lanesOf c.act).filterMap fun l => c.quiet l (c.globalAddr addr l) .load
    let s1 := (byLine (gs.filter fun a => !a.leaf.bypass)).foldl (fun s g => match g with
      | [] => s
      | a :: _ =>
        let fill := !l2 && !a.leaf.noL1 && ((s.core c.t.core).l1? a.line).isNone
        s.send (c.req s.nextReq none .prefetch .b32 g fill false false) false) s.bump
    c.next s1

/-- Write a dirty private line of a core back; it stays resident and clean. -/
def State.cleanLine (s : State) (core line : Nat) : State :=
  match (s.core core).l1? line with
  | some l => if l.priv then (s.writeBack l).updCore core fun c =>
      { c with l1 := c.l1.map fun k => if k.line = line then { k with dirty := 0 } else k } else s
  | none => s

/-- CCTL (R195): its address is checked as a load's is, by the page's R and the seal's RD (log 108). -/
def execCctl (g : Guard) (op : CctlOp) (addr : MemAddr) (s : State) : Host.Outcome State Fault Refusal :=
  issue s 8 g fun c => c.uniform 4 <| .go 4 0 fun s =>
    let core := c.t.core
    c.next (match op with
      | .l1all => s.dropGlobal core
      | _ => match c.quiet c.low (c.globalAddr addr c.low) Need.load.now with
        | none => s
        | some a => match op with
          | .clean => s.cleanLine core a.line
          | .inval => s.dropCopy core a.line
          | .flush => (s.cleanLine core a.line).updCore core fun k => { k with l1 := k.l1.filter fun l => l.line ≠ a.line }
          | _ => (s.l2Clean (s.asd c.t.asid).vf a.line).l2Drop a.line)

/-- BANKSET (R196): it waits, parked, for the earlier copies and matrix operations of the kernel where SCRATCH is entered or left; an armed
operation without its last signature has not been issued (R320). -/
def execBankset (g : Guard) (bank : Fin 16) (mode : BankMode) (s : State) : Host.Outcome State Fault Refusal :=
  issue s 8 g fun c => c.uniform 16 <|
    let k := c.s.core c.t.core
    let b := k.banks.getD bank.val Bank.reset
    let nbs := ((k.banksOf c.t.kkey .scratch).filter (· ≠ bank.val)).length + (if mode = .scratch then 1 else 0)
    if b.owner ≠ some c.t.kkey || nbs * 65536 < c.k.scr then .trap 0x09 c.act
    else
      let scr := b.mode ≠ mode && (b.mode = .scratch || mode = .scratch)
      let copies := if scr then (k.copies.filter fun o => o.kernel = c.t.kkey).map (·.id) else []
      let mx := if scr then (List.range 16).filterMap fun i =>
          let v := k.cv i
          if v.state != .idle && decide (v.need ≤ v.signers.length) && ((c.s.task? v.armer).map (·.kkey)) = some c.t.kkey then some (i, v.epoch) else none
        else []
      if k.busyWith copies mx then .go 16 0 (c.hold (.bankset bank.val mode copies mx) .ordering)
      else .go 16 0 fun s => c.next (s.bankAct c.t.core c.k bank.val mode)

/-- The word that PROBE writes (R197). -/
def Ctx.probe (c : Ctx) (va : Nat) : BitVec 64 :=
  match c.s.xlate c.t.core c.t.asid va with
  | .error _ => 0
  | .ok l =>
    let (rd, wr) := c.s.grant c.t.core c.t.asid c.t.prin l.sealId
    let b (x : Bool) (i : Nat) : Nat := if x then 2 ^ i else 0
    BitVec.ofNat 64 (l.sealId.toNat * 2 ^ 32 + (Nat.log2 l.size - 12) / 2 * 2 ^ 8 + b l.ms 7 + b l.caps 6 + b wr 5 + b rd 4 +
      b l.x 3 + b l.w 2 + b l.r 1 + 1)

def execProbe (g : Guard) (dst : Fin 64) (addr : MemAddr) (s : State) : Host.Outcome State Fault Refusal :=
  issue s 8 g fun c => c.uniform 2 <| c.simple 2 fun t => t.wrS dst (c.probe (c.globalAddr addr c.low))

/-! ### Events -/

/-- PAGE_TABLE_WALK: a walker marks the entry and fills both TLBs (R172, R173, R175). -/
def execPageTableWalk (core : Nat) (asid : BitVec 16) (va : BitVec 64) (write : Bool) (s : State) : Host.Outcome State Fault Refusal :=
  .next (s.touch core asid va.toNat write)

/-- VELHAM_LINE_REQUEST: a peer's request for a line of this device, checked here against this device's grants; a denial is
counted and logged here, reads give zeros and writes are dropped; an atomic executes at its slice or memory-side unit (R178, R179, R186,
R227). The reply goes out of the device. A checkpoint holds it (R375). -/
def execVelhamLineRequest (r : PeerLine) (s : State) : Host.Outcome State Fault Refusal :=
  if s.tierPending then .next { s with heldHost := s.heldHost ++ [.velhamLineRequest r] }
  else
  let vf := (s.asd r.asid).vf
  let line := s.canon vf (lineAddr (s.deviceNo.toNat * 2 ^ 42 + r.off.toNat))
  let (rd, wr) := match r.op with | .read => (true, false) | .write _ _ => (false, true) | _ => (true, true)
  let ok (x : BitVec 20) : Bool := x = 0 || (let g := grantTable s r.asid r.prin x; (!rd || g.1) && (!wr || g.2))
  let (kind, ty, lanes) : ReqKind × Ty × List PeerLane := match r.op with
    | .read => (.load, .b32, [])
    | .write _ _ => (.store, .b32, [])
    | .atomic op ty ls => (.atomic op, ty, ls)
    | .cas ty ls => (.cas, ty, ls)
  let held := if r.ms || (r.cpol = 3 && lanes.isEmpty) then none else (s.l2? line).map (·.sealId)
  let event (k : Nat) : Event :=
    { kind := k, asid := r.asid.toNat, task := 0, addr := r.va.toNat / 128 * 128, prin := r.prin.toNat, sealId := r.sealId.toNat }
  if !(ok r.sealId && (held.map ok).getD true) then .next ((s.count vf 0).event vf (event 1))
  else if s.isUe line then .next ((s.count vf 2).event vf (event 2))
  else
    let (s1, beneath) := s.unitOf vf line r.sealId r.ms r.cpol kind ty
    .next (match r.op with
      | .read => s1
      | .write bs d => (List.range 128).foldl (fun s i => if bs.getLsbD i then s.serveWrite vf beneath (line + i) 1 (d.byte i).toNat else s) s1
      | _ =>
        let accs := lanes.zipIdx.map fun (x : PeerLane × Nat) =>
          { laneAcc x.2 r.va x.1.data with pa := line + x.1.off.toNat / ty.bytes * ty.bytes, cmp := x.1.cmp }
        (applyLanes vf beneath kind ty accs s1).1)

/-- What one lane's result writes; a register that the lane wrote itself meanwhile keeps either value, a pair as a whole (R37). -/
def Task.deliver (t : Task) (tick : Nat) (o : Out) (a : LaneAcc) : Task :=
  match a.val with
  | none => t
  | some v =>
    let stays (k0 k : Nat) : Bool := staysWritten o.clob tick o.id k0 k
    let x := (v &&& a.mask).toNat
    match o.dst with
    | .s n => if stays (skey n.val) (skey n.val) then t else t.setS n (memImage o.ty true x)
    | .v n =>
      let y := memImage o.ty false x
      let t1 := if stays (vkey n.val a.lane) (vkey n.val a.lane) then t else t.setV n.val a.lane (y.setWidth 32)
      if o.ty.wide && !stays (vkey n.val a.lane) (vkey (n.val + 1) a.lane) then t1.setV (n.val + 1) a.lane ((y >>> 32).setWidth 32) else t1

/-- RESULT_RETURN: a long-latency result returns to one lane, or as a whole where its destination is an s register. Its requests
perform first, under STRICT those of every lane, so that a fault leaves no lane performed; a FIFO result waits for its service. The last
return ends the window and, for LDA, acquires (R36, R37, R180, R254). A result that comes back to a stopping task is discarded (R99, R355). -/
def execResultReturn (task out lane : Nat) (s : State) : Host.Outcome State Fault Refusal :=
  match s.task? task with
  | none => .next s
  | some t0 =>
    if !t0.isPlaced then .next s
    else match t0.outs.find? fun o => o.id == out with
    | none => .next s
    | some o0 =>
      let uniform := match o0.dst with | .s _ => true | .v _ => false
      let mine (a : LaneAcc) : Bool := uniform || a.lane == lane
      if !o0.open_.getLsbD lane then .next s
      else
        let strict := (s.asd t0.asid).strict
        let s1 := s.performAll fun r => r.out == some out && r.task == task && (strict || r.lanes.any mine)
        match (s1.task? task).bind fun t => t.outs.find? fun o => o.id == out with
        | none => .next s
        | some o =>
          let held := strict && s1.reqs.any fun r => r.out == some out && r.task == task
          if held || (o.lanes.filter mine).any (·.val.isNone) then .next s1.serveOrder
          else
            let left := if uniform then 0 else o.open_ &&& ~~~laneBit lane
            let s2 := s1.updTask task fun t =>
              let t1 := if t.stop.isSome then t else (o.lanes.filter mine).foldl (fun t a => t.deliver s.tick o a) t
              { t1 with outs := if left = 0 then t1.outs.filter fun p => p.id ≠ out
                  else t1.outs.map fun p => if p.id = out then { p with open_ := left } else p }
            let s3 := match o.acq with | some sc => if left = 0 && t0.stop.isNone then s2.acquire t0.core sc else s2 | none => s2
            .next (s3.serveOrder.trySave task)

/-- STORE_GLOBALLY_PERFORMED: a store performs at its home and is acknowledged (R237, R240); what waited for it goes on. -/
def execStoreGloballyPerformed (req : Nat) (s : State) : Host.Outcome State Fault Refusal :=
  match s.reqs.find? fun r => r.id == req && r.kind == .store with
  | none => .next s
  | some _ => .next (s.performThrough req).serveOrder

/-- ATOMIC_APPLICATION: an atomic is applied at its unit (R227, R229). -/
def execAtomicApplication (req : Nat) (s : State) : Host.Outcome State Fault Refusal :=
  match s.reqs.find? fun r => r.id == req && (match r.kind with | .atomic _ | .cas => true | _ => false) with
  | none => .next s
  | some _ => .next (s.performThrough req).serveOrder

/-- DEFERRED_FAULT: the far end has refused a request; its instruction performs for no lane and its task stops (R211). A task that
is stopping or has retired drops the instruction; of one that is being saved an atomic with a result becomes a pending replay (R214). -/
def execDeferredFault (req : Nat) (s : State) : Host.Outcome State Fault Refusal :=
  match s.reqs.find? fun r => r.id == req with
  | none => .next s
  | some r0 =>
    if (s.reqBad r0).isNone || s.behindLda r0 then .next s
    else match s.task? r0.task with
    | none => .next s
    | some t =>
      let (rs, code, bad) := s.badOf r0
      let gone : State := s.withdraw r0.task r0.inst rs code
      if t.stop.isSome || !t.isPlaced then
        .next ((gone.updTask t.id fun t => { t with outs := t.outs.filter fun o => some o.id ≠ r0.out }).serveOrder.trySave t.id)
      else if t.saving.isSome then
        match r0.kind, t.outs.find? fun o => some o.id == r0.out with
        | .atomic _, some o | .cas, some o =>
          .next ((gone.updTask t.id fun t =>
            { t with outs := t.outs.filter fun p => p.id ≠ o.id
                     pendingReplays := t.pendingReplays ++ [Replay.ofMem r0 code (some o) rs] }).serveOrder.trySave t.id)
        | _, _ => .next s
      else if t.fault.isSome then .next s
      else
        let back := BitVec.ofNat 64 (t.reqCost rs)
        let s1 := gone.updTask t.id fun t => { t.credit back with deferred := rs ++ t.deferred }
        .next (s1.takeDeferred t.id ((t.credit back).deferredRecord r0 code bad false))

end Sys2Proof.Machine
end

