-- ==== Sys2Proof/Machine/Atomics.lean ====
section
/-! DEFINITION. Atomic and ordering instructions (spec/11_atomics_ordering.md R227-R255; spec/12_program_scatter.md R256, R257). -/

namespace Sys2Proof.Machine

/-! ### Global atomics (R229-R232, R249, R250) -/

/-- Requests of an atomic, with the results that denied lines give at once. -/
def Ctx.atomSend (c : Ctx) (inst : Nat) (out : Option Nat) (kind : ReqKind) (ty : Ty) (gs : List GAcc) (s : State) :
    State × List LaneAcc :=
  let shut := (c.shut Need.atom gs).map GAcc.line
  (byLine gs).foldl (fun (p : State × List LaneAcc) g => match g with
    | [] => p
    | a :: _ =>
      if shut.contains a.line then (c.noteDenied Need.atom g p.1, p.2 ++ g.map fun x => { x.acc with val := some 0 })
      else (p.1.send (c.req inst out kind ty g false false false) true, p.2 ++ g.map (·.acc)))
    (c.markAll (gs.filter fun a => !shut.contains a.line) ty.bytes s, [])

/-- The effect of an atomic: lines dropped from the core's L1, requests sent, an outstanding result where it returns one, which its unit
gives as the task sees it (R225). -/
def Ctx.atomEff (c : Ctx) (kind : ReqKind) (ty : Ty) (ret : Bool) (la : Nat) (data : Reg) (gs : List GAcc) (s : State) : State :=
  let inst := s.nextReq
  let s1 := gs.foldl (fun s a => s.dropLine c.t.core a.line) (c.touch gs true s).bump
  let (s2, accs) := c.atomSend inst (if ret then some inst else none) kind ty gs s1
  if ret then c.newOut inst .memory data ty la (accs.map fun a => { a with mask := BitVec.allOnes 64 }) none false s2 else s2

def regUniform : Reg → Bool
  | .s _ => true
  | .v _ => false

/-- Global atomics as ATOM performs them; an uncorrectable error is found at issue (R232). -/
def Ctx.atomPlan (c : Ctx) (kind : ReqKind) (ty : Ty) (ret : Bool) (la : Nat) (data : Reg) (as : List LaneAcc) : Plan :=
  match c.gcheck as .atom ty.bytes with
  | .error f => c.faultPlan (regUniform data) f
  | .ok gs => c.counted <| .go (memCost 4 as.length ty.bytes) 0 fun s => c.next (c.atomEff kind ty ret la data gs s)

def Ctx.atom (c : Ctx) (x : Atom) : Plan :=
  c.atomPlan (.atomic x.op) x.ty x.ret x.la.val x.data (c.stores (regUniform x.data) x.ty x.addr x.data)

def execAtom (x : Atom) (s : State) : Host.Outcome State Fault Refusal := issue s 8 x.g fun c => c.atom x

/-- CAS (R250): it compares bits and always returns. -/
def execCas (x : Cas) (s : State) : Host.Outcome State Fault Refusal :=
  issue s 12 x.g fun c => c.atomPlan .cas x.ty true x.la.val x.data <|
    (c.stores (regUniform x.data) x.ty x.addr x.data).map fun a =>
      { a with cmp := BitVec.ofNat 64 (memBits x.ty (c.reg x.ty.wide x.cmp a.lane)) }

/-! ### Deterministic buffering (R233-R236, R251, R257) -/

/-- The launch of a task's skein. -/
def State.launchOf (s : State) (t : Task) : Option Launch :=
  ((s.task? t.root).bind (·.launch)).bind fun p => s.launch? p.1

/-- Every entry held on the device, a child's sealed ones included, with its launch. -/
def State.allEntries (s : State) : List (Option Nat × DEntry) :=
  s.tasks.flatMap fun t => (t.dentries ++ t.children.flatMap (·.entries)).map fun e => ((s.launchOf t).map (·.id), e)

/-- Free places of the core's ordered buffer. -/
def State.freeOnChip (s : State) (core : Nat) : Nat :=
  Config.orderedEntries - (s.allEntries.filter fun e => e.2.core = core && !e.2.spilled).length

/-- Free places of the spill region of a task's launch: 64 bytes for each AU of the pool that its record gives, within the VF's spill limit. -/
def State.freeSpill (s : State) (t : Task) : Nat :=
  let pool := ((s.launchOf t).map fun l => l.record.allow.toNat).getD 0
  let used := (s.allEntries.filter fun e => e.1 = (s.launchOf t).map (·.id) && e.2.spilled).length
  min (64 * pool) (s.vf t.vf).spillLimit / 32 - used

/-- Place one entry for each lane, on chip while there is room, then spilled. -/
def placeEntries (free : Nat) : List DEntry → List DEntry
  | [] => []
  | e :: r => { e with spilled := free = 0 } :: placeEntries (free - 1) r

def detail1B (reason : Nat) : BitVec 128 := BitVec.ofNat 128 reason

/-- ATOMD (R251): outside a deterministic launch it is ATOM; inside, its checks and its charge are ATOM's and it places entries, with the
number of performed issues as it stands, for a replay too (R233, R257; log 109). Without a guard-true lane a form with a result still opens
its window (R45). -/
def execAtomd (x : Atom) (s : State) : Host.Outcome State Fault Refusal :=
  issue s 8 x.g fun c =>
    if !c.t.det then c.atom x
    else if c.act = 0 then c.counted <| .go 4 0 fun s =>
      c.next (if x.ret then c.newOut s.nextReq .memory x.data x.ty x.la.val [] none false s.bump else s)
    else if x.ret then .trap 0x1B c.act 0 (detail1B 5)
    else if c.t.dseq = BitVec.allOnes 32 then .trap 0x1B c.act 0 (detail1B 3)
    else
      let u := regUniform x.data
      let as := c.stores u x.ty x.addr x.data
      let n := Need.atom.now
      match c.gcheck as n x.ty.bytes with
      | .error f => c.faultPlan u f
      | .ok gs =>
        let shut := (c.shut n gs).map GAcc.line
        let live := gs.filter fun a => !shut.contains a.line
        let free := c.s.freeOnChip c.t.core
        if free + c.s.freeSpill c.t < live.length then .trap 0x1B c.act 0 (detail1B 4)
        else c.counted <| .go (memCost 4 as.length x.ty.bytes) 0 fun s =>
          let s2 := c.noteDenied n (gs.filter fun a => shut.contains a.line) (c.touch gs true s)
          let es := live.map fun a : GAcc =>
            ({ ordinal := c.t.ordinal, seq := c.t.dseq, lane := a.acc.lane, va := a.acc.va, pa := a.acc.pa, sealId := a.leaf.sealId
               op := x.op, ty := x.ty, data := a.acc.data, cpol := a.leaf.policy
               ms := a.leaf.atMs, core := c.t.core, spilled := false } : DEntry)
          c.next (s2.updTask c.tid fun t => { t with dseq := t.dseq + 1, dentries := t.dentries ++ placeEntries free es })

/-- Place of an entry in the order of R236. -/
def DEntry.before (a b : DEntry) : Bool :=
  a.ordinal.toNat < b.ordinal.toNat || (a.ordinal = b.ordinal && (a.seq.toNat < b.seq.toNat || (a.seq = b.seq && a.lane < b.lane)))

def insertEntry (e : DEntry) : List DEntry → List DEntry
  | [] => [e]
  | x :: r => if e.before x then e :: x :: r else x :: insertEntry e r

def sortEntries (es : List DEntry) : List DEntry := es.foldl (fun l e => insertEntry e l) []

/-- Apply one entry at its home; an uncorrectable error is counted and logged and raises no fault, and so is a denial that the level which
serves it finds (R178, R232, R236; log 92). The update counts as a store of the flushing task, so it also updates the line that its core's
L1 holds (R182, R239); private bytes that were unwritten count as zero and are written now (R225). -/
def State.applyEntry (s : State) (t : Task) (e : DEntry) : State :=
  let vf := (s.asd t.asid).vf
  let line := lineAddr e.pa
  let n := e.ty.bytes
  let peer := s.zone line = .peer
  let denied := if peer then !s.peerOk (line >>> 42) t.asid t.prin e.sealId true true
    else !e.ms && (match s.l2? line with | some l => !s.sealOk e.core t.asid t.prin true true l.sealId | none => false)
  if denied then s.denied t.id t.asid t.prin e.va.toNat e.sealId (!peer)
  else if s.isUe line then s.ueError t.id t.asid t.prin e.va.toNat e.sealId
  else
    let (s1, beneath) := s.unitOf vf line e.sealId e.ms e.cpol (.atomic e.op) e.ty
    let old := s1.serveRead vf beneath e.pa n &&& (s1.privMask t.asid e.va.toNat n).toNat
    let new := atomApply e.op e.ty old e.data.toNat
    let s2 := s1.serveWrite vf beneath e.pa n new
    let s3 := s2.markBytes t.asid e.va.toNat n
    if t.isPlaced then s3.l1Store t.core e.pa n new false else s3

/-- Apply a batch of a task in order, behind the requests of its core that are in flight to the same homes (R240). -/
def State.applyBatch (s : State) (tid : Nat) (es : List DEntry) : State :=
  match s.task? tid with
  | none => s
  | some t =>
    let s1 := s.performAll fun r => es.any fun e => s.ahead t.core (lineAddr e.pa) e.ms r
    (sortEntries es).foldl (fun s e => s.applyEntry t e) s1

/-- BATCH_APPLICATION: the batch of the flush point at which a task stands is applied (R235, R236): its own entries for AFLUSH and
PLYBAR, a child's sealed entries for a JOIN; the root's at its retirement. Then the flush point completes. -/
def execBatchApplication (task : Nat) (s : State) : Host.Outcome State Fault Refusal :=
  match s.task? task with
  | none => .next s
  | some t =>
    let flush := t.waits.any fun w => match w.kind with | .aflush | .plybar _ _ => true | _ => false
    let rootEnd := t.parent.isNone && !t.isRetired && (t.stop.isSome || t.unexited = 0) && t.children.isEmpty
    let s1 := if flush || rootEnd then
        (s.applyBatch task t.dentries).updTask task fun t => { t with dentries := [] }
      else s
    let due (t : Task) : Option Child := t.waits.findSome? fun w => match w.kind with
      | .join h _ => (t.child? h).bind fun c => if c.final.isSome && !c.entries.isEmpty then some c else none
      | .joinAny _ =>
        let first := t.children.foldl (fun (a : Option Child) c => match a with
          | none => some c
          | some b => if c.handle.toNat < b.handle.toNat then some c else a) none
        first.bind fun c => if c.final.isSome && !c.entries.isEmpty then some c else none
      | _ => none
    let s2 := match (s1.task? task).bind due with
      | none => s1
      | some c => (s1.applyBatch task c.entries).updTask task fun t => t.setChild c.handle fun d => { d with entries := [] }
    let s3 := (s2.updTask task fun t => t.waits.foldl (fun t w => match w.kind with | .aflush => t.wake w | _ => t) t)
    .next (s3.serveOrder.serveJoins task)

/-! ### AFLUSH, FENCE, LDA, STL, ATOMS (R252-R255) -/

def execAflush (g : Guard) (s : State) : Host.Outcome State Fault Refusal :=
  issue s 8 g fun c => c.uniform 4 <|
    if c.t.det && !c.t.dentries.isEmpty then .go 4 0 (c.hold .aflush .ordering) else .go 4 0 c.next

/-- FENCE (R253): it orders every earlier access of the task: its earlier loads and atomics perform first; a release waits for the
stores of its scope as well; the acquire comes last. -/
def execFence (g : Guard) (kind : FenceKind) (scope : Scope) (s : State) : Host.Outcome State Fault Refusal :=
  issue s 8 g fun c => c.uniform 2 <| .go 2 0 fun s =>
    let rel := match kind with | .acq => none | _ => some scope
    let acq := match kind with | .rel => none | _ => some scope
    let ids := match rel with
      | some sc => s.releaseSet c.t.core c.tid sc
      | none => (s.reqs.filter fun r => r.own c.tid).map (·.id)
    if s.unperformed ids then c.hold (.fence ids rel acq) .ordering s
    else
      let s1 := c.next (match rel with | some sc => s.released sc | none => s)
      match acq with | some sc => s1.acquire c.t.core sc | none => s1

/-- LDA (R254): the core's copies are dropped at issue, the acquire takes effect when the value has returned. -/
def execLda (x : ScopedMem) (s : State) : Host.Outcome State Fault Refusal :=
  issue s 8 x.g fun c =>
    let u := regUniform x.data
    let as := c.loads u x.ty x.addr
    match c.gcheck as .acquire x.ty.bytes with
    | .error f => c.faultPlan u f
    | .ok gs => c.counted <| .go (memCost 4 as.length x.ty.bytes) 0 fun s =>
        c.next (c.loadEff .acquire x.ty x.data x.la.val gs (some x.scope) s)

/-- STL (R254): the release's wait, then the store; its lines are dropped from the core's L1 (R230) and a copy filled meanwhile is
updated only when the home has it (R243). Its requests take their numbers at issue, so that a later release covers a parked one (R253). -/
def execStl (x : ScopedMem) (s : State) : Host.Outcome State Fault Refusal :=
  issue s 8 x.g fun c =>
    let u := regUniform x.data
    let as := c.stores u x.ty x.addr x.data
    match c.gcheck as .store x.ty.bytes with
    | .error f => c.faultPlan u f
    | .ok gs => match c.capsStore gs with
      | some f => c.faultPlan u f
      | none =>
        if c.capsHeld gs then .wait
        else c.counted <| .go (memCost 4 as.length x.ty.bytes) 0 fun s =>
          let inst := s.nextReq
          let shut := (c.shut Need.store gs).map GAcc.line
          let s1 := gs.foldl (fun s a => s.dropLine c.t.core a.line) (c.touch gs true s).bump
          let ids := if c.act = 0 then [] else s1.releaseSet c.t.core c.tid x.scope
          let (s2, reqs) := s1.numbered <|
            (byLine gs).flatMap fun g => c.req inst none .store x.ty g true (g.any fun a => shut.contains a.line) true
          if s2.unperformed ids then c.hold (.stl ids x.scope reqs) .ordering s2
          else c.next (((s2.released x.scope).sendStl reqs).performCaps c.t.core inst (reqs.any (·.caps)))

/-- ATOMS (R255): at the scratch bank, lanes of one row consecutively in ascending order. -/
def execAtoms (x : Atom) (s : State) : Host.Outcome State Fault Refusal :=
  issue s 8 x.g fun c =>
    let ls := if regUniform x.data then (lowest? c.act).toList else lanesOf c.act
    match c.scheck x.ty x.addr ls with
    | .error f => c.faultPlan (regUniform x.data) f
    | .ok as =>
      let go (s : State) : State × List LaneAcc :=
        as.foldl (fun (p : State × List LaneAcc) l =>
          let old := p.1.scrRead c.t.core c.tid c.t.kkey l.2 x.ty.bytes
          let new := atomApply x.op x.ty old (memBits x.ty (c.reg x.ty.wide x.data l.1))
          (p.1.scrStore c.t.core c.tid c.t.kkey (bytesAt l.2 x.ty.bytes new),
            p.2 ++ [{ laneAcc l.1 0 0 with val := some (BitVec.ofNat 64 old) }])) (s, [])
      let cost := memCost 4 as.length x.ty.bytes
      if x.ret then c.counted <| .go cost 0 fun s =>
        let (s1, accs) := go s.bump
        c.next (c.newOut s.nextReq .scratch x.data x.ty x.la.val accs none false s1)
      else c.counted <| .go cost 0 fun s => c.next (go s).1

end Sys2Proof.Machine
end

