-- ==== Sys2Proof/Machine/Fetch.lean ====
section
/-! DEFINITION. The fetch of code (spec/02_encoding.md R24-R27). -/

namespace Sys2Proof.Machine

/-- What a fetch gives: a fault's code, detail, address and the lines to count, or the bytes from PC to the end of its window
as a number, the first lowest. -/
inductive Fetched where
  | bad (code : BitVec 8) (detail : BitVec 128) (va : BitVec 64) (note : State → State)
  | bytes (w : Nat)

/-- Virtual address of a PC (R27). -/
def fetchVa (k : Kernel) (pc : BitVec 32) : Nat := (k.cbase.toNat + pc.toNat) % 2 ^ 64

/-- Fetch at a PC for a task: translated, with X permission, sealed; denials and errors fault whether or not STRICT is set. No byte
of the next window is fetched (R25, R27). -/
def State.fetch (s : State) (t : Task) (pc : BitVec 32) : Fetched :=
  let va := fetchVa (s.kernelOf t) pc
  match s.xlate t.core t.asid va with
  | .error e => .bad 0x05 (detail5 e.1 e.2 t.asid) (BitVec.ofNat 64 va) id
  | .ok l =>
    let pa := l.pa va
    let line := lineAddr pa
    if !l.x then .bad 0x06 0 (BitVec.ofNat 64 va) id
    else if !s.reachable t.core t.asid t.prin l false line true false then
      .bad 0x17 0 (BitVec.ofNat 64 va) fun s => s.denied t.id t.asid t.prin va l.sealId (s.checksHere t.core l false line false)
    else if s.isUe line then .bad 0x18 0 (BitVec.ofNat 64 va) fun s => s.ueError t.id t.asid t.prin va l.sealId
    else .bytes (s.serveRead (s.asd t.asid).vf l.bypass pa (32 - pc.toNat % 32))

/-- Length of an instruction in bytes from its first word (R24). -/
def lengthOf (w : Nat) : Nat := match w % 4 with | 0 => 8 | 1 => 12 | _ => 16

/-- The mark a fetch leaves in the page table, the TLBs and the seal cache, and the count of an error that it corrects (R172, R175, R177,
R186). -/
def State.fetchTouch (s : State) (t : Task) (pc : BitVec 32) : State :=
  let va := fetchVa (s.kernelOf t) pc
  match s.xlate t.core t.asid va with
  | .error _ => s
  | .ok l => ((s.touch t.core t.asid va false).noteSeal t.core t.asid t.prin l.sealId).corrected (s.asd t.asid).vf (lineAddr (l.pa va))

end Sys2Proof.Machine
end

