-- ==== Sys2Proof/Machine/TileCopy.lean ====
section
/-! DEFINITION. Tile copy instructions, arrival words and the events of copy operations (spec/15_tile_copy.md R281-R308). -/

namespace Sys2Proof.Machine

/-! ### Faults of the class (R308) -/

/-- Fault 0x11 with its reason and layout register. -/
def fault11 (reason ly : Nat) : EFault := { code := 0x11, detail := BitVec.ofNat 128 (reason + 256 * ly), addr := 0 }

def EFault.plan (f : EFault) (c : Ctx) : Plan := .fault f.code c.act f.addr f.detail id

/-- The first fault of a list of checks. -/
def firstErr (l : List (Option EFault)) : Option EFault := l.findSome? id

def errIf (b : Bool) (f : EFault) : Option EFault := if b then some f else none

def faultAt (code : BitVec 8) (addr : Int) : EFault := { code := code, detail := 0, addr := BitVec.ofNat 64 (mod64 addr) }

/-! ### Layout registers (R288, R303) -/

/-- Layout register n of a task on its core. -/
def Core.layout? (c : Core) (task n : Nat) : Option Layout := (c.lysets.find? fun x => x.task == task).bind fun x => x.regs.getD n none

/-- The set of a task, made where it has none; the set of the task that was saved longest ago makes room for it (R288). -/
def Core.lyset (c : Core) (task : Nat) : Core :=
  if c.lysets.any fun x => x.task == task then c
  else
    let oldest := (c.lysets.filterMap (·.savedAt)).foldl (fun (m : Option Nat) n => match m with
      | none => some n
      | some k => some (min k n)) none
    let kept := if c.lysets.length < 128 then c.lysets else c.lysets.filter fun x => x.savedAt.isNone || x.savedAt ≠ oldest
    { c with lysets := kept ++ [{ task := task, regs := List.replicate 8 none, savedAt := none }] }

def Core.setLayout (c : Core) (task n : Nat) (l : Layout) : Core :=
  let c1 := c.lyset task
  { c1 with lysets := c1.lysets.map fun x => if x.task = task then { x with regs := listUpd x.regs n fun _ => some l } else x }

/-- The checks of a layout record (R283, R303). -/
def Layout.fault (l : Layout) (ly : Nat) : Option EFault :=
  let fmtOk : Bool := match Ty.ofCode l.fmt.toNat with | some t => t.isTile || t = .f32 | none => false
  firstErr [errIf (!fmtOk || l.flags.toNat / 4 ≠ 0) (fault11 2 ly), errIf (128 < l.clipq.toNat || 64 < l.clipp.toNat) (fault11 3 ly)]

/-- Bring the line of a uniform read as a load would, into L2 and L1 (R182, R191). -/
def Ctx.gfill (c : Ctx) (shut : List Nat) (a : GAcc) (s : State) : State :=
  let vf := (s.asd c.t.asid).vf
  if shut.contains a.line || s.isUe a.line then s
  else
    let s2 := (s.unitOf vf a.line a.leaf.sealId a.leaf.atMs a.leaf.policy .load .b32).1
    if a.leaf.noL1 || ((s2.core c.t.core).l1? a.line).isSome then s2
    else s2.l1Fill c.t.core
      { way := 0, line := a.line, data := overlay s2 c.t.core a.line (s2.homeLine vf a.line), sealId := a.leaf.sealId
        asid := c.t.asid, priv := false, task := c.tid, dirty := 0 } a.leaf.stream

/-- n bytes of it; bytes of a private region that its task has not written read as zero (R225). -/
def Ctx.gread (c : Ctx) (shut : List Nat) (a : GAcc) (s : State) (n : Nat) : Nat :=
  if shut.contains a.line || s.isUe a.line then 0
  else (match (if a.leaf.noL1 then none else s.l1Ready c.t.core a.line) with
    | some l => lineRead l.data (a.acc.pa % 128) n
    | none => s.serveRead (s.asd c.t.asid).vf a.leaf.bypass a.acc.pa n) &&& (s.privMask c.t.asid a.acc.va.toNat n).toNat

/-- Read the 8-byte pieces of a uniform read: the number they make, and the state after the lines have been brought. -/
def Ctx.greadAll (c : Ctx) (gs : List GAcc) (s : State) : Nat × State :=
  let shut := (c.shut Need.load.now gs).map GAcc.line
  let s1 := gs.foldl (fun s a => c.gfill shut a s) (c.noteNow Need.load.now gs (c.touch gs false s))
  ((gs.zipIdx.foldl (fun n a => n + c.gread shut a.1 s1 8 * 2 ^ (64 * a.2)) 0), s1)

/-- The 8-byte pieces of a uniform read. -/
def Ctx.uniformPieces (c : Ctx) (a n : Nat) : List LaneAcc := (List.range n).map fun i => laneAcc c.low (BitVec.ofNat 64 (a + 8 * i)) 0

/-- TC.LYSET (R303). -/
def execTcLyset (g : Guard) (scr : Bool) (ly : Fin 8) (addr : Fin 64) (s : State) : Host.Outcome State Fault Refusal :=
  issue s 8 g fun c => c.uniform 8 <| Plan.after 8 <| c.behind false (if scr then [] else c.uniformPieces (c.sval addr).toNat 6) fun c =>
    let a := (c.sval addr).toNat
    let load (w : Nat) (note : State → State) : Plan :=
      match (Layout.ofNat w).fault ly.val with
      | some f => .fault f.code c.act f.addr f.detail note
      | none => .go 8 0 fun s => c.next ((note s).updCore c.t.core fun k => k.setLayout c.tid ly.val (Layout.ofNat w))
    if a % 16 ≠ 0 then (faultAt 0x07 a).plan c
    else if scr then
      if c.k.scr < a + 48 then (faultAt 0x08 a).plan c else load (c.s.scrRead c.t.core c.tid c.t.kkey a 48) id
    else
      match c.gcheck (c.uniformPieces a 6) Need.load.now 8 with
      | .error f => c.uniformFault f
      | .ok gs => load (c.greadAll gs c.s).1 fun s => (c.greadAll gs s).2

/-! ### Issue of an engine operation (R285, R291, R293, R297) -/

/-- An arrival or gate word: its scratch offset. -/
def wordOffset (w : BitVec 16) : Nat := 16 * w.toNat

/-- The words of a tail under R289. -/
def Ctx.tailFault (c : Ctx) (t : Tail) : Option EFault :=
  firstErr ((t.arrive.toList ++ t.gate.toList).map fun w => wordFault (wordOffset w) c.k.scr)

/-- Whether an operation must wait before its issue: no entry is free, an earlier STL of the task is not on its way (R237, R291), or, for a
bulk copy, the task's earlier writes have yet to perform (R245). -/
def State.copyHeld (s : State) (t : Task) (kind : CopyKind) : Bool :=
  32 ≤ (s.core t.core).copies.length ||
    !t.parkedStores.isEmpty || (match kind with | .copy _ _ _ => s.reqs.any (fun r => r.task == t.id && r.needs.2) | _ => false)

/-- Before a bulk copy, which reads at the homes, the task's dirty private lines are written back (R245, R301). -/
def State.copyClean (s : State) (t : Task) (kind : CopyKind) : State :=
  match kind with
  | .copy _ _ _ => ((s.core t.core).l1.filter fun l => l.priv && l.task == t.id).foldl (fun s l => s.cleanLine t.core l.line) s
  | _ => s

/-- An operation takes its entry; a gate already reached is passed at once (R291, R292). -/
def State.copyIssue (s : State) (o : CopyOp) : State :=
  let m := (s.core o.core).scratchOf o.kernel
  let open_ := match o.gate0 with | some (w, g) => reached m w g | none => false
  let o' : CopyOp := { o with id := s.nextSeq, gate := if open_ then none else o.gate0, started := false }
  let s1 : State := { s with nextSeq := s.nextSeq + 1 }
  let s2 := s1.updCore o.core fun k => { k with copies := k.copies ++ [o'] }
  match o.gate0 with | some (w, _) => if open_ then s2.acquire o.core (wordScope m w) else s2 | none => s2

/-- The issue of an engine operation that reserves b. -/
def Ctx.engine (c : Ctx) (tail : Tail) (kind : CopyKind) (ly b : Nat) : Plan :=
  if c.s.copyHeld c.t kind then .wait
  else .go 8 b fun s => c.next ((s.copyClean c.t kind).copyIssue
    { id := 0, task := c.tid, core := c.t.core, kernel := c.t.kkey, asid := c.t.asid, prin := c.t.prin, pc := c.pc, depth := c.depth
      group := c.group, kind := kind, lyNum := ly, scope := tail.scope, arrive := tail.arrive.map wordOffset, gate := none
      gate0 := tail.gate.map fun w => (wordOffset w, (c.sval tail.gateGen).setWidth 32), started := false, reserved := BitVec.ofNat 64 b })

/-- The origin pair; s63 stands for all zero (R297). -/
def Ctx.origin (c : Ctx) (r : Fin 64) : List Int :=
  if r = 63 then [0, 0, 0, 0]
  else
    let a := (c.sval r).toNat
    let b := if h : r.val + 1 < 64 then (c.sval ⟨r.val + 1, h⟩).toNat else 0
    [sext 32 a, sext 32 (a / 2 ^ 32), sext 32 b, sext 32 (b / 2 ^ 32)]

def tileFault07 (t : Nat) : Option EFault := errIf (t % 128 ≠ 0) (faultAt 0x07 t)
def tileFault08 (t size scr : Nat) : Option EFault := errIf (scr < t + size) (faultAt 0x08 t)

/-- R285: base + BASE and the strides are multiples of the storage element. -/
def Layout.alignFault (l : Layout) (base : BitVec 64) : Option EFault :=
  let n := l.ty.tileBytes
  errIf ((base + l.base).toNat % n ≠ 0 || l.stride.any fun x => x.toNat % n ≠ 0) (faultAt 0x07 ((base + l.base).toNat : Int))

/-- R285: with SPACE = 1 every valid byte lies within the kernel's scratch. -/
def Layout.spaceFault (l : Layout) (n scr : Nat) (addrs : List Nat) : Option EFault :=
  if !l.inScratch then none else (addrs.find? fun a => scr < a + n).map fun a => faultAt 0x08 a

/-- The checks of TC.LOAD and TC.STORE (R281, R285, R287, R288, R298, R299), in the order of R187 and then by reason (log 24). -/
def Ctx.tileChecks (c : Ctx) (x : TcTile) (tile : Nat) (base : BitVec 64) (ly : Layout) : Option EFault :=
  let org := c.origin x.origin
  let valid := (elems x.ty x.kind base org ly).filter (·.ok)
  let sc := if valid.isEmpty && x.kind = .a then [] else scaleAddrs x.kind (c.sval x.scale) org ly (distinct (valid.map (·.p)))
  firstErr [tileFault07 tile, ly.alignFault base, tileFault08 tile 8448 c.k.scr,
    ly.spaceFault ly.ty.tileBytes c.k.scr (valid.map (·.addr)), ly.spaceFault 1 c.k.scr (sc.map (·.2)),
    errIf (!convertible ly.ty x.ty || (x.kind = .cb && ly.ty ≠ x.ty)) (fault11 4 x.ly.val),
    errIf (ly.scl && ((org.getD 0 0) % 128 ≠ 0 || (x.kind ≠ .a && (org.getD 1 0) % 64 ≠ 0))) (fault11 5 x.ly.val),
    c.tailFault x.tail]

/-- TC.LOAD and TC.STORE: the register that names the tile, the one that names the storage, the operation and its B. -/
def Ctx.tileOp (c : Ctx) (x : TcTile) (store : Bool) : Plan :=
  c.uniform 8 <|
    let tile := (c.sval x.tile).toNat
    let base := c.sval x.base
    match (c.s.core c.t.core).layout? c.tid x.ly.val with
    | none =>
      match firstErr [tileFault07 tile, tileFault08 tile 8448 c.k.scr] with
      | some f => f.plan c
      | none => (fault11 1 x.ly.val).plan c
    | some ly => match c.tileChecks x tile base ly with
      | some f => f.plan c
      | none =>
        let org := c.origin x.origin
        if store then
          c.engine x.tail (.store x.ty x.kind tile base org ly (c.sval x.scale)) x.ly.val
            (8 * x.ty.qx * ly.ty.tileBytes + (if ly.scl then 8 else 0))
        else c.engine x.tail (.load x.ty x.kind tile base org ly (c.sval x.scale)) x.ly.val 1056

/-- TC.LOAD (R298). -/
def execTcLoad (x : TcTile) (s : State) : Host.Outcome State Fault Refusal := issue s 16 x.g fun c => c.tileOp x false

/-- TC.STORE (R299): dst is the storage base, srcA the tile. -/
def execTcStore (x : TcTile) (s : State) : Host.Outcome State Fault Refusal := issue s 16 x.g fun c => c.tileOp x true

/-- The checks of TC.QNT2 (R285, R287, R288, R300). -/
def Ctx.qntChecks (c : Ctx) (x : TcQnt2) (tile : Nat) (base : BitVec 64) (ly : Layout) : Option EFault :=
  let org := c.origin x.origin
  let valid := ((List.range 64).flatMap fun r => (List.range 64).map fun k => qntAt base org ly r k).filter (·.2)
  firstErr [tileFault07 tile, ly.alignFault base, tileFault08 tile 16896 c.k.scr,
    ly.spaceFault ly.ty.tileBytes c.k.scr (valid.map (·.1)), errIf (!(ly.ty = .f32 || ly.ty = .bf16)) (fault11 4 x.ly.val),
    c.tailFault x.tail]

/-- TC.QNT2 (R300). -/
def execTcQnt2 (x : TcQnt2) (s : State) : Host.Outcome State Fault Refusal :=
  issue s 16 x.g fun c => c.uniform 8 <|
    let tile := (c.sval x.tile).toNat
    let base := c.sval x.base
    match (c.s.core c.t.core).layout? c.tid x.ly.val with
    | none =>
      match firstErr [tileFault07 tile, tileFault08 tile 16896 c.k.scr] with
      | some f => f.plan c
      | none => (fault11 1 x.ly.val).plan c
    | some ly => match c.qntChecks x tile base ly with
      | some f => f.plan c
      | none => c.engine x.tail (.qnt2 x.ty tile base (c.origin x.origin) ly) x.ly.val 2112

/-- R301: the length of a range. -/
def lengthFault (n : Nat) : Option EFault := errIf (n = 0 || 2 ^ 40 < n) (fault11 8 0)

/-- TC.COPY (R301). -/
def execTcCopy (x : TcCopy) (s : State) : Host.Outcome State Fault Refusal :=
  issue s 16 x.g fun c => c.uniform 8 <|
    let n := (c.sval x.len).toNat
    match firstErr [lengthFault n, c.tailFault x.tail] with
    | some f => f.plan c
    | none => c.engine x.tail (.copy (c.sval x.dst) (c.sval x.src) n) 0 (ceilDiv n 8)

/-- TC.FILL (R302). -/
def execTcFill (x : TcFill) (s : State) : Host.Outcome State Fault Refusal :=
  issue s 16 x.g fun c => c.uniform 8 <|
    let n := (c.sval x.len).toNat
    let d := (c.sval x.dst).toNat
    match x.mode with
    | .global => match firstErr [lengthFault n, c.tailFault x.tail] with
      | some f => f.plan c
      | none => c.engine x.tail (.fillGlobal (c.sval x.dst) (c.sval x.const) n) 0 (ceilDiv n 8)
    | .scratch => match firstErr [errIf (c.k.scr < d + n) (faultAt 0x08 d), lengthFault n, c.tailFault x.tail] with
      | some f => f.plan c
      | none => c.engine x.tail (.fillScratch d (c.sval x.const) n) 0 (ceilDiv n 8)
    | .tile ty => match firstErr [tileFault07 d, tileFault08 d 8448 c.k.scr, c.tailFault x.tail] with
      | some f => f.plan c
      | none => c.engine x.tail (.fillTile ty d (c.sval x.const)) 0 1056

/-! ### ARRIVE, AWAIT, AWTEST, TC.STAT (R304-R307) -/

/-- The word that a register names. -/
def Ctx.word (c : Ctx) (r : Fin 64) : Nat := (c.sval r).toNat

/-- ARRIVE (R304): `set` is the scope of an arrival; none sets TARGET and clears COUNT. -/
def execArrive (g : Guard) (set : Option Scope) (word amt : Fin 64) (s : State) : Host.Outcome State Fault Refusal :=
  issue s 8 g fun c => c.uniform 2 <| Plan.after 2 <|
    let w := c.word word
    let n := (c.sval amt).toNat
    match firstErr [wordFault w c.k.scr, errIf (2 ^ 44 ≤ n) { code := 0x12, detail := 3, addr := BitVec.ofNat 64 w }] with
    | some f => f.plan c
    | none => .go 2 0 fun s => match set with
      | none => c.next (s.scrStore c.t.core c.tid c.t.kkey (bytesAt w 11 (n * 2 ^ 44)))
      | some sc =>
        let ids := s.releaseSet c.t.core c.tid sc
        if s.unperformed ids then c.hold (.arrive w n sc ids) .ordering s
        else (c.next (s.released sc)).arriveAt c.t.core c.t.kkey w n sc

/-- AWAIT (R305). -/
def execAwait (g : Guard) (dst word gen : Fin 64) (timeout : BitVec 16) (s : State) : Host.Outcome State Fault Refusal :=
  issue s 8 g fun c => c.uniform 1 <| Plan.after 1 <|
    let w := c.word word
    let n : BitVec 32 := (c.sval gen).setWidth 32
    let m := (c.s.core c.t.core).scratchOf c.t.kkey
    match wordFault w c.k.scr with
    | some f => f.plan c
    | none =>
      if reached m w n then .go 1 0 fun s => (c.next (c.putS dst 0 s)).acquire c.t.core (wordScope m w)
      else c.counted <| .go 1 0 (c.hold (.await w n dst timeout c.s.clock) .await)

/-- AWAIT_TIMEOUT: the wait of a lane has lasted its timeout (R305). -/
def execAwaitTimeout (task lane : Nat) (s : State) : Host.Outcome State Fault Refusal :=
  match s.task? task with
  | none => .next s
  | some t => match t.waits.find? fun w => w.lanes.getLsbD lane && (match w.kind with | .await _ _ _ _ _ => true | _ => false) with
    | some w => match w.kind with
      | .await _ _ dst timeout since =>
        if !t.isPlaced || timeout = 0 || (s.clock - since).toNat < 64 * timeout.toNat then .next s
        else .next (s.updTask task fun t => (t.setS dst 1).wake w)
      | _ => .next s
    | none => .next s

/-- AWTEST (R306): it reads the generation as a scratch load would (R293). -/
def execAwtest (g : Guard) (dst word : Fin 64) (s : State) : Host.Outcome State Fault Refusal :=
  issue s 8 g fun c => c.uniform 1 <| Plan.after 1 <|
    let w := c.word word
    let m := (c.s.core c.t.core).scratchOf c.t.kkey
    match wordFault w c.k.scr with
    | some f => f.plan c
    | none => .go 1 0 fun s =>
      (c.next (c.putS dst (BitVec.ofNat 64 (c.s.scrRead c.t.core c.tid c.t.kkey (w + 12) 4)) s)).acquire c.t.core (wordScope m w)

/-- TC.STAT (R296, R307). -/
def execTcStat (g : Guard) (dst : Fin 64) (s : State) : Host.Outcome State Fault Refusal :=
  issue s 8 g fun c => c.uniform 1 <| .go 1 0 fun s =>
    let n := (((s.core c.t.core).conflicts.find? fun e => e.1 == c.t.kkey).map (·.2)).getD 0
    c.next (c.putS dst (n.setWidth 64) (s.updCore c.t.core fun k =>
      { k with conflicts := k.conflicts.filter fun e => e.1 != c.t.kkey }))

/-! ### Operations in flight (R292-R295) -/

def State.copy? (s : State) (core op : Nat) : Option CopyOp := (s.core core).copies.find? fun o => o.id == op

/-- A denial or an uncorrectable error that faults an operation is counted and logged all the same (R180, R186). -/
def State.engineCount (s : State) (o : CopyOp) (f : EFault) : State :=
  match s.xlate o.core o.asid f.addr.toNat with
  | .error _ => s
  | .ok l =>
    let m := o.mode false
    if f.code = 0x17 then s.denied o.task o.asid o.prin f.addr.toNat l.sealId
      (s.checksHere o.core l m.useL1 (lineAddr (l.pa f.addr.toNat)) (match o.kind with | .load _ _ _ _ _ _ _ | .qnt2 _ _ _ _ _ => false | _ => true))
    else if f.code = 0x18 then s.ueError o.task o.asid o.prin f.addr.toNat l.sealId
    else s

/-- An operation meets a fault: it stops at its granule boundary, settles, does not arrive, and becomes a deferred fault of its
task, or a counted event where the task has retired. It waits while the task has a record or is being saved (R202, R295). -/
def State.engineFault (s : State) (o : CopyOp) (f : EFault) : State :=
  let stop (s : State) : State := (s.engineCount o f).copyCancel o
  let log (vf : Nat) (s : State) : State := (s.count vf 5).event vf
    { kind := 3, code := f.code.toNat, asid := o.asid.toNat, task := o.task, addr := f.addr.toNat, prin := o.prin.toNat
      detail := f.detail.toNat, pc := o.pc.toNat, lmask := o.group.toNat }
  match s.task? o.task with
  | none => log (s.asd o.asid).vf (stop s)
  | some t =>
    if t.isRetired || t.stop.isSome then log t.vf (stop s)
    else if t.fault.isSome || t.saving.isSome then s
    else
      let s1 := (stop s).updTask t.id fun t => { t with deferredCopies := o :: t.deferredCopies }
      match s1.task? t.id with
      | none => s1
      | some t =>
        let r : FaultRec := { t.record f.code o.pc o.group o.group f.addr f.detail true false with depth := o.depth }
        if t.isPlaced then s1.takeDeferred t.id r else s1.updTask t.id fun t => { t with fault := some r }

/-- ENGINE_OPERATION_START: behind its gate, an operation starts; TC.STORE checks its tile's header (R292, R295, R299). -/
def execEngineOperationStart (core op : Nat) (s : State) : Host.Outcome State Fault Refusal :=
  match s.copy? core op with
  | none => .next s
  | some o =>
    if o.gate.isSome || o.started then .next s
    else match o.startFault s with
      | some f => .next (s.engineFault o f)
      | none => .next (s.updCore core fun c => { c with copies := c.copies.map fun p => if p.id = op then { p with started := true } else p })

/-- Whether a request of its core comes before an operation at one of the homes that it accesses (R240). -/
def CopyOp.comesAfter (o : CopyOp) (e : CopyEffect) (s : State) (r : Req) : Bool :=
  (e.rd ++ e.wr).any fun l => s.ahead o.core (lineAddr (l.leaf.pa l.va)) l.leaf.atMs r

/-- The core's requests to the homes of an operation perform first; in the state that they leave its lines are checked and brought (R178,
R240, R245, R285). Whether one of them may not perform yet comes with it. -/
def State.beforeCopy (s : State) (o : CopyOp) : State × Bool :=
  match o.effect true s with
  | .error _ => (s, false)
  | .ok e =>
    let s1 := s.performAll (o.comesAfter e s)
    match o.effect true s1 with
    | .error _ => (s1, false)
    | .ok e1 => (s1.copyBring o e1, s1.reqs.any (o.comesAfter e s1))

/-- ENGINE_OPERATION_COMPLETE: every byte has been written; the operation settles and then arrives, which is a release at its scope (R237,
R245, R293). -/
def execEngineOperationComplete (core op : Nat) (s : State) : Host.Outcome State Fault Refusal :=
  match s.copy? core op with
  | none => .next s
  | some o =>
    if !o.started then .next s
    else
      let (s1, held) := s.beforeCopy o
      match held, o.effect false s1 with
      | true, _ | _, .error _ => .next s
      | false, .ok e =>
        let s2 := (((s1.copyApply o e).copySettle o e.granules).taintScr core o.kernel (e.scr.map (·.1)) true).scratchTouched core o.kernel
        .next (match o.arrive with
          | some w => (s2.released o.scope).arriveAt core o.kernel w e.amount o.scope
          | none => s2).serveOrder

/-- ENGINE_OPERATION_FAULT: a running operation has met a fault (R295). -/
def execEngineOperationFault (core op : Nat) (s : State) : Host.Outcome State Fault Refusal :=
  match s.copy? core op with
  | none => .next s
  | some o =>
    if !o.started then .next s
    else match o.effect false s with
      | .ok _ => .next s
      | .error f => .next (s.engineFault o f)

end Sys2Proof.Machine
end

