-- ==== Sys2Proof/Machine/Capsule.lean ====
section
/-! DEFINITION. Capsules: CAP.ENTER and the other task instructions, grants and leases, body steps and their ends
(spec/13_capsules.md R258-R279). -/

namespace Sys2Proof.Machine

/-- DETAIL of fault 0x0B (R270). -/
def detail0B (reason step : Nat) : BitVec 128 := BitVec.ofNat 128 (reason + 256 * (step % 256))

/-! ### Parked CAP.ENTERs -/

def WaitKind.isCap : WaitKind → Bool
  | .capEnter _ _ _ => true
  | _ => false

def WaitKind.capLanes : WaitKind → List CapLane
  | .capEnter _ _ ls => ls
  | _ => []

/-- The CAP.ENTER in which a lane is parked, and its progress. -/
def Task.capOf (t : Task) (lane : Nat) : Option (Wait × CapLane) :=
  t.waits.findSome? fun w => if w.kind.isCap && w.lanes.getLsbD lane then (w.kind.capLanes.find? fun l => l.lane == lane).map fun l => (w, l) else none

/-- Change a lane's progress. -/
def Task.setCap (t : Task) (lane : Nat) (f : CapLane → CapLane) : Task :=
  { t with waits := t.waits.map fun w => match w.kind with
      | .capEnter d st ls => if w.lanes.getLsbD lane then { w with kind := .capEnter d st (ls.map fun l => if l.lane = lane then f l else l) } else w
      | _ => w }

/-- The group runs on once every lane is done (R275). -/
def Task.capFinish (t : Task) : Task :=
  t.waits.foldl (fun t w => if w.kind.isCap && w.kind.capLanes.all (fun l => l.stage = .done) then t.wake w else t) t

/-- A lane is done: c0 and c1 are delivered, and the status predicate says whether the body exited (R275). -/
def State.capDone (s : State) (tid lane : Nat) (c0 c1 : Nat) (exit : Bool) : State :=
  s.updTask tid fun t => match t.capOf lane with
    | none => t
    | some (w, _) => match w.kind with
      | .capEnter dst st _ =>
        let t1 := (t.setV64 dst.val lane (BitVec.ofNat 64 c0)).setV64 (dst.val + 2) lane (BitVec.ofNat 64 c1)
        let t2 := if st = 0 then t1 else t1.setPred st (laneBit lane) (if exit then laneBit lane else 0)
        (t2.setCap lane fun l => { l with stage := .done }).capFinish
      | _ => t

/-- A fault of a lane in its CAP.ENTER: it is precise there, and the progress of the group is kept (R269, R272). -/
def State.capFault (s : State) (tid lane : Nat) (code : BitVec 8) (addr : BitVec 64) (detail : BitVec 128) : State :=
  match s.task? tid with
  | none => s
  | some t => match t.capOf lane with
    | none => s
    | some (w, _) =>
      (s.takeFault tid (t.record code w.pc w.lanes (laneBit lane) addr detail false false)).updTask tid fun t =>
        match t.capOf lane with
        | none => t
        | some (w, _) => { t.parkLanes w.lanes .fault with waits := t.waits.filter (· ≠ w), replayCap := t.replayCap ++ [w] }

/-- Trap 0x0A at a body step, raised at the CAP.ENTER; a task that pauses stays parked there, and goes on in place when it runs again
(R100, R271, R272). -/
def State.capTrap (s : State) (tid lane cost : Nat) : State :=
  match s.task? tid with
  | none => s
  | some t => match t.capOf lane with
    | none => s
    | some (w, _) => s.exhaust tid (t.trapRecord w.pc w.lanes cost)

/-! ### Taking and adopting a cell (R262, R265, R266) -/

/-- A lane's entry on a FREE cell. -/
def State.capTake (s : State) (tid : Nat) (l : CapLane) : State :=
  match s.task? tid with
  | none => s
  | some t =>
    let vf := (s.asd t.asid).vf
    let c := s.cell vf l.cell
    let count := if c.count + 1 < 2 ^ 40 then c.count + 1 else 1
    let code := match l.code with | some x => x.toNat | none => c.code
    let w (o v : Nat) (s : State) : State := s.homeWrite vf (l.cell + o) 8 v
    let s1 := w 8 (count + t.prin.toNat * 2 ^ 40) (w 0x10 code (w 0x18 l.slotVa.toNat s))
    let s2 := (List.range 8).foldl (fun s i => w (0x20 + 8 * i) ((l.args.getD i 0).toNat) s) s1
    (((s2.setOwner vf l.cell tid 1 0).lease l.cell).acquire t.core .device).updTask tid fun t =>
      t.setCap l.lane fun l => { l with stage := .own (BitVec.ofNat 40 count), mark := none, next := BitVec.ofNat 64 code }

/-- A contender adopts the epoch of a cell. -/
def State.capAdopt (s : State) (tid : Nat) (l : CapLane) : State :=
  match s.task? tid with
  | none => s
  | some t =>
    let vf := (s.asd t.asid).vf
    let c := s.cell vf l.cell
    (((s.setOwner vf l.cell tid 1 c.step).lease l.cell).acquire t.core .device).updTask tid fun t =>
      t.setCap l.lane fun l =>
        { l with stage := .adopt (BitVec.ofNat 40 c.count), mark := none, next := BitVec.ofNat 64 (c.code + 8 * c.step) }

/-- Bodies that the sequencer of a core runs (R263). -/
def State.bodies (s : State) (core : Nat) : Nat :=
  s.tasks.foldl (fun n t => if t.isPlaced && t.core = core then n + (t.waits.flatMap fun w => w.kind.capLanes.filter fun l => l.stage.serving).length else n) 0

/-- Lanes of a core that execute a body: those in the sequencer's order first, then those that have entered since; 64 have a body
context, and the others wait for one (R263). -/
def State.sequence (s : State) (core : Nat) : List (Nat × Nat) :=
  let on := s.tasks.flatMap fun t =>
    if t.canIssue && !t.acquiring && t.core = core then
      (t.waits.flatMap fun w => w.kind.capLanes.filter fun l => l.stage.serving).map fun l => (t.id, l.lane)
    else []
  let old := (s.core core).bodyOrder.filter fun x => on.contains x
  (old ++ on.filter fun x => !old.contains x).take 64

/-- A body has had its turn: it comes last (R263). -/
def State.rotateBody (s : State) (task lane : Nat) : State :=
  match s.task? task with
  | none => s
  | some t => s.updCore t.core fun c => { c with bodyOrder := ((s.sequence t.core).filter fun x => x != (task, lane)) ++ [(task, lane)] }

/-- Whether a lane waits for a cell: it has not entered, or it adopted and has been adopted from in its turn, which it keeps its place
behind (R265, R266). -/
def State.contends (s : State) (t : Task) (l : CapLane) : Bool :=
  match l.stage with
  | .waiting => true
  | .adopt e =>
    let c := s.cell (s.asd t.asid).vf l.cell
    !((c.state = 1 || c.state = 2) && c.owner = t.id && c.count = e.toNat)
  | _ => false

/-- The contenders of a cell that can be served, first come first: one with a body context, or for which its core has one free. -/
def State.contender (s : State) (cell : Nat) : Option (Nat × CapLane) :=
  let all := s.tasks.flatMap fun t =>
    if t.canIssue then
      (t.waits.flatMap fun w => w.kind.capLanes.filter fun l =>
        l.cell = cell && s.contends t l && (l.stage.serving || decide (s.bodies t.core < 64))).map fun l => (t.id, l)
    else []
  all.foldl (fun (m : Option (Nat × CapLane)) x => match m with
    | none => some x
    | some y => if x.2.seq < y.2.seq then some x else some y) none

/-- CELL_GRANT: the home serves the first contender of a cell that is not HELD (R265, R266, R275). -/
def execCellGrant (cell : Nat) (s : State) : Host.Outcome State Fault Refusal :=
  match s.contender cell with
  | none => .next s
  | some (tid, l) =>
    let vf := ((s.task? tid).map fun t => (s.asd t.asid).vf).getD 0
    match (s.cell vf cell).state with
    | 0 => .next (s.capTake tid l)
    | 1 => .next s
    | 2 => .next (s.capAdopt tid l)
    | _ => .next (s.capFault tid l.lane 0x0B l.cellVa (detail0B 3 0))

/-- Cycles from a start on for which the spindle of a slot has been gated by now, where it still is (R379). -/
def State.gatedSpan (s : State) (core slot : Nat) (start : BitVec 64) : Nat :=
  match ((s.core core).spindles.getD (slot / 16) Spindle.reset).gated with
  | some g => s.clock.toNat - max g.toNat start.toNat
  | none => 0

/-- The same of the spindle of a task. -/
def State.gatedFor (s : State) (tid : Nat) (start : BitVec 64) : Nat :=
  match s.task? tid with
  | none => 0
  | some t => if t.isPlaced then s.gatedSpan t.core t.slot start else 0

/-- LEASE_EXPIRY: the lease of a HELD cell has run out and a contender is there (R265, R266). -/
def execLeaseExpiry (cell : Nat) (s : State) : Host.Outcome State Fault Refusal :=
  match s.contender cell with
  | none => .next s
  | some (tid, l) =>
    let vf := ((s.task? tid).map fun t => (s.asd t.asid).vf).getD 0
    let owner := (s.cell vf cell).owner
    let out := match s.leases.find? fun x => x.1 == cell with
      | some x => x.2.toNat + s.gatedFor owner (x.2 - BitVec.ofNat 64 Config.leaseCycles) ≤ s.clock.toNat
      | none => true
    if (s.cell vf cell).state = 1 && out then .next (s.capAdopt tid l) else .next s

/-! ### CAP.ENTER (R274, R275) -/

/-- The operands of one lane. -/
structure CapArgs where
  lane : Nat
  cell : BitVec 64
  slot : BitVec 64
  code : Option (BitVec 64)
  args : List (BitVec 64)

def Ctx.capArgs (c : Ctx) (x : CapEnter) (l : Nat) : CapArgs :=
  let r (k : Reg) : BitVec 64 := BitVec.ofNat 64 (c.reg true k l)
  { lane := l, cell := r x.cell, slot := r x.slot, code := if x.code = .s 63 then none else some (r x.code)
    args := match x.args with
      | none => []
      | some a => (List.range 4).map fun i =>
          BitVec.ofNat 64 ((c.t.rdV c.s.tick (a.val + 2 * i) l).toNat + (c.t.rdV c.s.tick (a.val + 2 * i + 1) l).toNat * 2 ^ 32) }

/-- What the access of a cell needs: R and W, answered at once. -/
def Need.cell : Need := { r := true, w := true, far := true, ue := true }

/-- Whether a cell is denied or its line is uncorrectable. -/
def Ctx.cellBad (c : Ctx) (a : GAcc) : Bool := c.denied .cell a || c.s.isUe a.line

/-- The checks of R275, in the order of R187; the accesses of the cells otherwise. -/
def Ctx.capChecks (c : Ctx) (as : List CapArgs) : Except MFault (List (CapArgs × GAcc)) :=
  let xl (va : BitVec 64) := c.s.xlate c.t.core c.t.asid va.toNat
  let pick (p : CapArgs → Option (BitVec 64 × BitVec 128)) : List Nat × (Nat → BitVec 64 × BitVec 128) :=
    ((as.filter fun a => (p a).isSome).map (·.lane), fun l => ((as.find? fun a => a.lane == l).bind p).getD (0, 0))
  let b7 := pick fun a =>
    if a.cell.toNat % 256 ≠ 0 then some (a.cell, 0) else if a.slot.toNat % 8 ≠ 0 then some (a.slot, 0)
    else match a.code with | some k => if k.toNat % 8 ≠ 0 then some (k, 0) else none | none => none
  let b5 := pick fun a => match xl a.cell with
    | .error e => some (a.cell, detail5 e.1 e.2 c.t.asid)
    | .ok _ => match xl a.slot with
      | .error e => some (a.slot, detail5 e.1 e.2 c.t.asid)
      | .ok _ => match a.code with
        | some k => if k.toNat >>> 52 ≠ 0 then some (k, detail5 3 0 c.t.asid) else none
        | none => none
  let b6 := pick fun a => match xl a.cell with
    | .ok l => if !l.r || !l.w || !l.caps then some (a.cell, 0) else none
    | .error _ => none
  let bB := pick fun a => match xl a.slot with
    | .ok l => if l.caps then some (a.cell, detail0B 7 0) else none
    | .error _ => none
  let gs : List (CapArgs × GAcc) := as.filterMap fun a => match xl a.cell with
    | .ok l => some (a, { acc := { laneAcc a.lane a.cell 0 with pa := l.pa a.cell.toNat }, leaf := l })
    | .error _ => none
  let strict := (c.s.asd c.t.asid).strict
  let deny := if strict then gs.filter fun a => c.denied .cell a.2 else []
  let ue := if strict then gs.filter fun a => c.s.isUe a.2.line else []
  let at_ (l : Nat) : BitVec 64 × BitVec 128 := (((as.find? fun a => a.lane == l).map (·.cell)).getD 0, 0)
  match firstFault [(0x07, b7.1, b7.2, id), (0x05, b5.1, b5.2, id), (0x06, b6.1, b6.2, id), (0x0B, bB.1, bB.2, id),
      (0x17, deny.map (·.1.lane), at_, c.noteDenied .cell (deny.map (·.2))), (0x18, ue.map (·.1.lane), at_, c.noteUe (ue.map (·.2)))] with
  | some f => .error f
  | none => .ok gs

/-- The cells of a task's withdrawn lanes that a re-issued CAP.ENTER does not take up again become ORPHAN, as those of SKIP stay (R264, R272). -/
def State.dropCap (s : State) (tid : Nat) (ls : List CapLane) : State :=
  match s.task? tid with
  | none => s
  | some t =>
    let vf := (s.asd t.asid).vf
    ls.foldl (fun s l =>
      let c := s.cell vf l.cell
      let mine := match l.stage with | .own e | .adopt e => c.count == e.toNat | _ => false
      if mine && c.state = 1 && c.owner = tid then (s.setOwner vf l.cell tid 2 c.step).dropLease l.cell else s) s

/-- CAP.ENTER: its lanes enter, or go on from the progress that a replay kept (R272, R275). A lane whose cell is denied or
uncorrectable is done with zeros. -/
def execCapEnter (x : CapEnter) (s : State) : Host.Outcome State Fault Refusal :=
  issue s 16 x.g fun c =>
    let mine (w : Wait) : Bool := w.pc = c.pc && w.lanes &&& c.group ≠ 0
    let dropped (t : Task) : Task := { t with replayCap := t.replayCap.filter fun w => !mine w }
    let lost := ((c.t.replayCap.filter mine).flatMap fun w => w.kind.capLanes).filter fun l => !c.act.getLsbD l.lane
    if c.act = 0 then .go 8 0 fun s => c.next ((s.dropCap c.tid lost).updTask c.tid dropped)
    else
      let kept := (c.t.replayCap.filter fun w => w.pc = c.pc).flatMap fun w => w.kind.capLanes
      let old (l : Nat) : Option CapLane := (kept.find? fun k => k.lane == l && k.stage != .waiting)
      let fresh := ((lanesOf c.act).filter fun l => (old l).isNone).map (c.capArgs x)
      Plan.after 8 <| match c.capChecks fresh with
      | .error f => f.plan
      | .ok gs => c.counted <| .go 8 0 fun s =>
        let new := gs.zipIdx.map fun a : (CapArgs × GAcc) × Nat =>
          ({ lane := a.1.1.lane, cellVa := a.1.1.cell, cell := a.1.2.acc.pa, slotVa := a.1.1.slot, code := a.1.1.code, args := a.1.1.args
             seq := s.nextSeq + a.2, stage := .waiting, mark := none, next := 0 } : CapLane)
        let ls := ((lanesOf c.act).filterMap old) ++ new
        let bad := gs.filter fun a => c.cellBad a.2
        let s1 := c.touch (gs.map (·.2)) true { s with nextSeq := s.nextSeq + gs.length }
        let s2 := c.noteNow .cell (bad.map (·.2)) (s1.dropCap c.tid lost)
        let s4 := (c.hold (.capEnter x.dst x.status ls) .capsule (s2.updTask c.tid dropped)).capReturn c.tid
        (bad.foldl (fun s a => s.capDone c.tid a.1.lane 0 0 false) s4).updTask c.tid Task.capFinish

/-! ### CAP.EXIT, CAP.ABORT, CAP.PROBE in a task stream (R276, R277) -/

/-- The cell address of these instructions. -/
def Ctx.capVa (c : Ctx) (x : CapWord) : BitVec 64 := c.sval x.base + BitVec.ofInt 64 (sext 16 x.disp.toNat)

/-- CAP.EXIT of a task stream: fault 0x0B whatever the guards. -/
def execCapExit (x : CapWord) (s : State) : Host.Outcome State Fault Refusal :=
  issue s 8 x.g fun c => .trap 0x0B c.group (c.capVa x) (detail0B 6 0)

/-- CAP.ABORT of a task stream: a release, the act at the cell's owner, an acquire. -/
def execCapAbort (x : CapWord) (s : State) : Host.Outcome State Fault Refusal :=
  issue s 8 x.g fun c => c.uniform 4 <| Plan.after 4 <|
    let va := c.capVa x
    let plain := match c.s.xlate c.t.core c.t.asid va.toNat with | .ok l => va.toNat % 256 = 0 && !l.caps | .error _ => false
    if plain then .fault 0x06 c.act va 0 id
    else match c.gcheck [laneAcc c.low va 0] .cell 256 with
    | .error f => c.uniformFault f
    | .ok gs => match gs with
      | [] => .wait
      | a :: _ => .go 4 0 fun s =>
          let s1 := c.touch gs true s
          if c.cellBad a then c.next (c.putS x.dst 0xFF (c.noteNow .cell gs s1))
          else
            let ids := s1.releaseSet c.t.core c.tid .device
            let w : Wait := { lanes := c.group, pc := c.pc, len := 8, kind := .capAbort x.dst a.acc.pa ids }
            let s2 := s1.updTask c.tid fun t => t.hold w .ordering
            if s2.unperformed ids then s2 else s2.capAbortAct c.tid w x.dst a.acc.pa

/-- CAP.PROBE: checked as a load is, before its charge (R187, R191, R277). -/
def execCapProbe (x : CapWord) (s : State) : Host.Outcome State Fault Refusal :=
  issue s 8 x.g fun c => c.uniform 2 <| c.behind false [laneAcc c.low (c.capVa x) 0, laneAcc c.low (c.capVa x + 8) 0] fun c =>
    let va := c.capVa x
    if va.toNat % 16 ≠ 0 then .fault 0x07 c.act va 0 id
    else match c.gcheck [laneAcc c.low va 0, laneAcc c.low (va + 8) 0] Need.load.now 8 with
    | .error f => c.uniformFault f
    | .ok gs => .go 2 0 fun s =>
        let (v, s1) := c.greadAll gs s
        let hi : Fin 64 := if h : x.dst.val + 1 < 64 then ⟨x.dst.val + 1, h⟩ else 63
        c.next (c.putS hi (BitVec.ofNat 64 (v / 2 ^ 64)) (c.putS x.dst (BitVec.ofNat 64 v) s1))

/-! ### Body steps (R263, R268, R269, R271, R278, R279) -/

/-- A body as its executor sees it. -/
structure Body where
  c : Ctx
  w : Wait
  l : CapLane
  vf : Nat
  cell : Cell
  epoch : BitVec 40
  live : Bool

/-- The body that a lane executes, if its task can issue. -/
def State.body? (s : State) (tid lane : Nat) : Option Body :=
  match s.task? tid with
  | none => none
  | some t =>
    if !t.canIssue then none
    else match t.capOf lane with
      | none => none
      | some (w, l) =>
        let vf := (s.asd t.asid).vf
        let cell := s.cell vf l.cell
        let mk (e : BitVec 40) : Option Body := some
          { c := { s := s, tid := tid, t := t, k := s.kernelOf t, group := w.lanes, act := laneBit lane, pc := w.pc, len := 16 }
            w := w, l := l, vf := vf, cell := cell, epoch := e
            live := cell.state = 1 && cell.owner = tid && cell.count = e.toNat }
        match l.stage with
        | .own e | .adopt e => mk e
        | _ => none

/-- A refused step: the holder is displaced, an adopter waits again (R266, R267). -/
def Body.refuse (b : Body) (s : State) : State :=
  s.updTask b.c.tid fun t => t.setCap b.l.lane fun l =>
    { l with mark := none, stage := match l.stage with | .adopt _ => .waiting | _ => .displaced b.epoch }

/-- What the fetch of a step's word gives: a word, or the state after the fetch has ended the step. -/
inductive BodyFetch where
  | idle
  | ended (s : State)
  | word (w : Nat)

/-- Write 8 bytes of the cell. -/
def Body.put (b : Body) (o v : Nat) (s : State) : State := s.homeWrite b.vf (b.l.cell + o) 8 v

def Body.reg (b : Body) (i : Fin 8) : Nat := b.c.s.homeRead b.vf (b.l.cell + 0x20 + 8 * i.val) 8

/-- Why a word of the return slot cannot be written, and what is counted and logged: a denial where its seal, its translation or its page
forbids it (R260), or an uncorrectable error. -/
def Body.slotBad (b : Body) (va : Nat) : Option (BitVec 8 × (State → State)) :=
  let s0 := b.c.s
  let t := b.c.t
  let prin : BitVec 24 := BitVec.ofNat 24 b.cell.prin
  let deny (sealId : BitVec 20) (here : Bool) : Option (BitVec 8 × (State → State)) :=
    some (0x17, fun s => s.denied t.id t.asid prin va sealId here)
  match s0.xlate t.core t.asid va with
  | .error _ => deny 0 true
  | .ok l =>
    let line := lineAddr (l.pa va)
    if !l.w || l.caps then deny l.sealId true
    else if !s0.reachable t.core t.asid prin l true line false true then deny l.sealId (s0.checksHere t.core l true line true)
    else if s0.isUe line then some (0x18, fun s => s.ueError t.id t.asid prin va l.sealId)
    else none

/-- One word of the return slot written as the core's stores are. -/
def Body.slotWord (b : Body) (va v : Nat) (s : State) : State :=
  let t := b.c.t
  match b.c.s.xlate t.core t.asid va with
  | .error _ => s
  | .ok l =>
    let pa := l.pa va
    let line := lineAddr pa
    let s1 := (s.performAll (s.ahead t.core line l.atMs)).touch t.core t.asid va true
    let (s2, beneath) := s1.unitOf b.vf line l.sealId l.atMs l.policy .store .i64
    ((s2.serveWrite b.vf beneath pa 8 v).l1Store t.core pa 8 v false).markBytes t.asid va 8

/-- The return slot: c0, c1 and the status word. A failing line is counted once; where it faults nothing is written, and otherwise the
other lines' words are (R179, R180, R260). -/
def Body.slot (b : Body) (fin : Nat) (faults : Bool) (s : State) : State × Option (BitVec 8 × Nat) :=
  let base := b.cell.slot
  let ws := [(base, b.reg 0), (base + 8, b.reg 1), (base + 16, b.cell.count + fin * 2 ^ 40)]
  let bads := ws.filterMap fun w => (b.slotBad w.1).map fun x => (w.1, x)
  let once := bads.filter fun x => (bads.find? fun y => y.1 / 128 == x.1 / 128).map (·.1) == some x.1
  let s1 := once.foldl (fun s x => x.2.2 s) s
  let fault := ((bads.find? fun x => x.2.1 = 0x17).orElse fun _ => bads.head?).map fun x => (x.2.1, x.1)
  if faults && fault.isSome then (s1, fault)
  else ((ws.filter fun w => !bads.any fun x => x.1 / 128 == w.1 / 128).foldl (fun s w => b.slotWord w.1 w.2 s) s1, none)

/-- The end of a body releases at device scope: the executor's earlier stores, loads and atomics, those numbered below the mark that it
takes, perform first (R244, R246, R266). -/
def Body.released (b : Body) (s : State) : Bool × State :=
  let mark := b.l.mark.getD s.nextReq
  (!s.unperformed ((s.releaseSet b.c.t.core b.c.tid .device).filter fun i => i < mark),
    s.updTask b.c.tid fun t => t.setCap b.l.lane fun l => { l with mark := some mark })

/-- The cell breaks, behind the release of its return slot's write (R266, R268). -/
def Body.break_ (b : Body) (reason : Nat) (s : State) : State :=
  let (done, held) := b.released s
  if !done then held
  else
    let s1 := (s.setOwner b.vf b.l.cell 0 3 b.cell.step).dropLease b.l.cell
    (b.slot 3 false s1).1.capFault b.c.tid b.l.lane 0x0B b.l.cellVa (detail0B reason b.cell.step)

/-- The fetch of a step's word with X permission; a denial or an error is a fault under any policy (R27, R268, R269). -/
def State.bodyFetch (s : State) (tid lane : Nat) : BodyFetch :=
  match s.body? tid lane with
  | none => .idle
  | some b =>
    if b.live && 64 ≤ b.cell.step then .ended (b.break_ 1 s)
    else
      let va := if b.live then b.cell.code + 8 * b.cell.step else b.l.next.toNat
      let bad (code : BitVec 8) (detail : BitVec 128) (s : State) : BodyFetch := .ended (s.capFault tid lane code (BitVec.ofNat 64 va) detail)
      match s.xlate b.c.t.core b.c.t.asid va with
      | .error e => bad 0x05 (detail5 e.1 e.2 b.c.t.asid) s
      | .ok l =>
        let a : GAcc := { acc := { laneAcc lane (BitVec.ofNat 64 va) 0 with pa := l.pa va }, leaf := l }
        let n := Need.acquire.now
        if !l.x then bad 0x06 0 s
        else if b.c.denied n a then bad 0x17 0 (b.c.noteDenied n [a] s)
        else if s.isUe a.line then bad 0x18 0 (b.c.noteUe [a] s)
        else .word (s.homeRead b.vf a.acc.pa 8)

/-- A word that is no body step breaks the cell; an executor that has lost its cell finds out at its commit (R268). -/
def State.bodyMalformed (s : State) (tid lane : Nat) : State :=
  match s.body? tid lane with
  | none => s
  | some b =>
    if b.live then b.break_ 2 s
    else if b.c.t.alw.toNat < 2 then s.capTrap tid lane 2
    else b.refuse (s.updTask tid fun t => t.charge 2 0)

/-- What a step computes: writes to the cell's registers and payload (offset and value), and the next index. -/
structure CellWrite where
  words : List (Nat × Nat)
  step : Nat
  note : State → State

/-- One step other than an end: charged, computed, and committed in one write while OWNER and COUNT still match (R263, R271); a
fault returns its charge (R269). -/
def bodyStep (s : State) (f : Body → Except MFault CellWrite) : Host.Outcome State Fault Refusal :=
  match s.cur with
  | .body tid lane => match s.body? tid lane with
    | none => .next s
    | some b =>
      if b.c.t.alw.toNat < 2 then .next (s.capTrap tid lane 2)
      else
        let paid := s.updTask tid fun t => t.charge 2 0
        if !b.live then .next (b.refuse paid)
        else match f b with
          | .error m => .next ((m.note s).capFault tid lane m.code m.addr m.detail)
          | .ok w =>
            let s1 := w.words.foldl (fun s x => b.put x.1 x.2 s) (w.note paid)
            let s2 := (s1.setOwner b.vf b.l.cell tid 1 w.step).lease b.l.cell
            .next (s2.updTask tid fun t => t.setCap lane fun l => { l with next := BitVec.ofNat 64 (b.cell.code + 8 * w.step) })
  | _ => .fault .noIssuer

/-- A step that writes one checkpoint register and goes on. -/
def Body.setReg (b : Body) (i : Fin 8) (v : Nat) : Except MFault CellWrite :=
  .ok { words := [(0x20 + 8 * i.val, v % 2 ^ 64)], step := b.cell.step + 1, note := id }

def execCxGet (cd : Fin 8) (n : Fin 20) (s : State) : Host.Outcome State Fault Refusal :=
  bodyStep s fun b => b.setReg cd (b.c.s.homeRead b.vf (b.l.cell + 0x60 + 8 * n.val) 8)

def execCxPut (n : Fin 20) (ca : Fin 8) (s : State) : Host.Outcome State Fault Refusal :=
  bodyStep s fun b => .ok { words := [(0x60 + 8 * n.val, b.reg ca)], step := b.cell.step + 1, note := id }

/-- A body's access at an address comes behind the requests of its core to the home (R240): the state that they leave, or none while one of
them may not perform. -/
def State.bodyBehind (s : State) (tid lane : Nat) (va : Body → BitVec 64) : Option State :=
  match s.body? tid lane with
  | none => some s
  | some b =>
    let hs := b.c.homeward false [laneAcc lane (va b) 0]
    let s1 := s.clear b.c.t.core hs
    if s1.blocked b.c.t.core hs then none else some s1

/-- The address of CX.LD. -/
def Body.loadVa (b : Body) (ca : Fin 8) (d : BitVec 18) : BitVec 64 := BitVec.ofNat 64 (b.reg ca) + BitVec.ofInt 64 (sext 18 d.toNat)

/-- CX.LD: RD is needed by the executor's principal and by PRIN; a denied or uncorrectable read without STRICT gives zero. -/
def execCxLd (cd ca : Fin 8) (d : BitVec 18) (s0 : State) : Host.Outcome State Fault Refusal :=
  match (match s0.cur with | .body tid lane => s0.bodyBehind tid lane (fun b => b.loadVa ca d) | _ => some s0) with
  | none => .next s0
  | some s => bodyStep s fun b =>
    let va := b.loadVa ca d
    let prin : BitVec 24 := BitVec.ofNat 24 b.cell.prin
    let c2 : Ctx := { b.c with t := { b.c.t with prin := prin } }
    let need := Need.load.now
    match b.c.gcheck [laneAcc b.l.lane va 0] need 8 with
    | .error f => .error f
    | .ok gs => match c2.gcheck [laneAcc b.l.lane va 0] need 8 with
      | .error f => .error f
      | .ok _ =>
        let zero (note : State → State) : Except MFault CellWrite :=
          .ok { words := [(0x20 + 8 * cd.val, 0)], step := b.cell.step + 1, note := note }
        if gs.any (b.c.denied need) then zero (b.c.noteDenied need gs)
        else if gs.any (c2.denied need) then zero (c2.noteDenied need gs)
        else
          let v := (b.c.greadAll gs b.c.s).1
          .ok { words := [(0x20 + 8 * cd.val, v)], step := b.cell.step + 1, note := fun s => (b.c.greadAll gs s).2 }

/-- The operations of CX.ALU (R278). -/
def cxApply (op : CxOp) (x y : BitVec 64) : BitVec 64 :=
  match op with
  | .add => x + y
  | .sub => x - y
  | .and => x &&& y
  | .or => x ||| y
  | .xor => x ^^^ y
  | .shl => if 64 ≤ y.toNat then 0 else x <<< y.toNat
  | .shr => if 64 ≤ y.toNat then 0 else x >>> y.toNat
  | .sar => x.sshiftRight (min y.toNat 63)
  | .minu => if x.toNat ≤ y.toNat then x else y
  | .maxu => if x.toNat ≤ y.toNat then y else x
  | .mins => if x.toInt ≤ y.toInt then x else y
  | .maxs => if x.toInt ≤ y.toInt then y else x
  | .mul => x * y

/-- Second operand of CX.ALU and CX.BR: a register or the sign-extended immediate. -/
def Body.second (b : Body) (cb : Option (Fin 8)) (imm : BitVec 18) : BitVec 64 :=
  match cb with
  | some r => BitVec.ofNat 64 (b.reg r)
  | none => BitVec.ofInt 64 (sext 18 imm.toNat)

def execCxAlu (op : CxOp) (cd ca : Fin 8) (cb : Option (Fin 8)) (imm : BitVec 18) (s : State) : Host.Outcome State Fault Refusal :=
  bodyStep s fun b => b.setReg cd (cxApply op (BitVec.ofNat 64 (b.reg ca)) (b.second cb imm)).toNat

def execCxMovi (cd : Fin 8) (imm : BitVec 18) (sh : Fin 4) (s : State) : Host.Outcome State Fault Refusal :=
  bodyStep s fun b => b.setReg cd ((BitVec.ofInt 64 (sext 18 imm.toNat) : BitVec 64) <<< (16 * sh.val)).toNat

/-- The conditions of CX.BR. -/
def cxHolds (c : CxCond) (x y : BitVec 64) : Bool :=
  match c with
  | .always => true
  | .eq => x = y
  | .ne => x ≠ y
  | .ltu => x.toNat < y.toNat
  | .geu => y.toNat ≤ x.toNat
  | .lt => x.toInt < y.toInt
  | .ge => y.toInt ≤ x.toInt

/-- CX.BR: a taken branch to index 64 or above commits STEP = min(target, 255) (R268, R278). -/
def execCxBr (cond : CxCond) (ca : Fin 8) (cb : Option (Fin 8)) (off : BitVec 18) (s : State) : Host.Outcome State Fault Refusal :=
  bodyStep s fun b =>
    let taken := cxHolds cond (BitVec.ofNat 64 (b.reg ca)) (b.second cb off)
    .ok { words := [], step := if taken then min (b.cell.step + off.toNat) 255 else b.cell.step + 1, note := id }

/-- CX.RES: COUNT, PRIN or STEP. -/
def execCxRes (cd : Fin 8) (sel : Fin 3) (s : State) : Host.Outcome State Fault Refusal :=
  bodyStep s fun b => b.setReg cd (match sel.val with | 0 => b.cell.count | 1 => b.cell.prin | _ => b.cell.step)

/-- CAP.EXIT and CAP.ABORT as steps (R244, R266, R271, R279): charged 4; behind the release the return slot is written; then the cell
becomes FREE. The holder's lane is done; an adopter enters at once. -/
def bodyEnd (fin : Nat) (s : State) : Host.Outcome State Fault Refusal :=
  match s.cur with
  | .body tid lane => match s.body? tid lane with
    | none => .next s
    | some b =>
      if b.l.mark.isNone && b.c.t.alw.toNat < 4 then .next (s.capTrap tid lane 4)
      else
        let paid := if b.l.mark.isSome then s else s.updTask tid fun t => t.charge 4 0
        let (done, held) := b.released paid
        if !b.live then .next (b.refuse paid)
        else if !done then .next held
        else match b.slot fin (s.asd b.c.t.asid).strict held with
          | (s1, some (code, va)) => .next ((s1.updTask tid fun t => t.credit 4).capFault tid lane code (BitVec.ofNat 64 va) 0)
          | (s1, none) =>
            let s2 := (s1.setOwner b.vf b.l.cell 0 0 0).dropLease b.l.cell
            .next (match b.l.stage with
              | .adopt _ => s2.capTake tid b.l
              | _ => s2.capDone tid lane (b.reg 0) (b.reg 1) (fin = 1))
  | _ => .fault .noIssuer

/-- CAP.EXIT of a body. -/
def execCapExitStep (s : State) : Host.Outcome State Fault Refusal := bodyEnd 1 s

/-- CAP.ABORT of a body. -/
def execCapAbortStep (s : State) : Host.Outcome State Fault Refusal := bodyEnd 2 s

/-- EPOCH_CLOSED: a displaced lane whose epoch is closed reads its return slot with an acquire at device scope (R267). An END of BROKEN ends the
lane with c0, c1 and a false status, as any END but EXIT does (log 110). -/
def execEpochClosed (task lane : Nat) (s : State) : Host.Outcome State Fault Refusal :=
  match s.task? task with
  | none => .next s
  | some t =>
    if !t.canIssue then .next s
    else match t.capOf lane with
      | none => .next s
      | some (w, l) => match l.stage with
        | .displaced e =>
          let cell := s.cell (s.asd t.asid).vf l.cell
          if cell.count = e.toNat && (cell.state = 1 || cell.state = 2) then .next s
          else
            let as := (List.range 3).map fun i => laneAcc lane (l.slotVa + BitVec.ofNat 64 (8 * i)) 0
            let at_ (s : State) : Ctx := { s := s, tid := task, t := t, k := s.kernelOf t, group := w.lanes, act := laneBit lane, pc := w.pc, len := 16 }
            let s0 := s.acquire t.core .device
            let hs := (at_ s0).homeward false as
            let s1 := s0.clear t.core hs
            let c := at_ s1
            if s1.blocked t.core hs then .next s
            else match c.gcheck as Need.load.now 8 with
            | .error f => .next ((f.note s1).capFault task lane f.code f.addr f.detail)
            | .ok gs =>
              let (v, s2) := c.greadAll gs s1
              let st := v / 2 ^ 128
              if st % 2 ^ 40 = e.toNat then .next (s2.capDone task lane (v % 2 ^ 64) (bits v 64 64) (bits st 40 2 = 1))
              else .next (s2.capFault task lane 0x0B l.cellVa (detail0B 4 0))
        | _ => .next s

end Sys2Proof.Machine
end

