-- ==== Sys2Proof/Machine/Matrix.lean ====
section
/-! DEFINITION. The matrix instructions and the events of the matrix engine (spec/16_matrix.md R309-R333). -/

namespace Sys2Proof.Machine

/-! ### Shared parts -/

/-- Fault 0x0C with its reason and register or tile number (R323). -/
def mxTrap (c : Ctx) (reason n : Nat) : Plan := .trap 0x0C c.act 0 (BitVec.ofNat 128 (reason + 256 * n))

def Ctx.k0 (c : Ctx) : Core := c.s.core c.t.core

/-- The lowest tile of a mask that another task owns (R310). -/
def Ctx.foreignTile (c : Ctx) (m : BitVec 16) : Option Nat :=
  (List.range 16).find? fun i => m.getLsbD i && (match c.k0.tileOwner.getD i none with | some t => t != c.tid | none => false)

def tilesOf (m : BitVec 16) : List Nat := (List.range 16).filter fun i => m.getLsbD i

/-- A tile of undefined entries (R8). -/
def undefTile (tick i : Nat) : Store 40 :=
  (List.range 4096).foldl (fun (m : Store 40) e => m.set e (Config.freeA40 tick (4096 * i + e))) []

/-- Whether a tile belongs to an issued operation of its owner that has not been waited on (R320, R329). -/
def Core.pending (c : Core) (i : Nat) : Bool :=
  c.unwaited.getLsbD i || c.cvs.any fun v =>
    (v.state = .issued || v.state = .paused) && v.need ≤ v.signers.length && (Desc.of v.desc).tileMask.getLsbD i &&
      c.tileOwner.getD i none == some v.armer

/-- An entry of a tile as MX.DRAIN reads it. -/
def Core.entry (c : Core) (tick i e : Nat) : A40 := if c.pending i then Config.freeA40 tick (4096 * i + e) else (c.tile i).get e

/-- Give a tile its contents, undefined where it must be waited for first (R245, R329). -/
def Core.putTile (c : Core) (tick i : Nat) (m : Store 40) : Core := c.setTile i (if c.pending i then undefTile tick i else m)

/-- The record of an epoch replaces a task's record of the register (R311). -/
def Task.putMxRec (t : Task) (r : MxRec) : Task := { t with mxRecs := (t.mxRecs.filter fun x => x.cv ≠ r.cv) ++ [r] }

/-- Fault 0x10 of MX.ARM and the pattern instructions (R346). -/
def patTrap (c : Ctx) (reason word : Nat) : Plan := .trap 0x10 c.act 0 (BitVec.ofNat 128 (reason + 256 * word))

/-! ### MX.ARM, MX.SIGN, MX.FENCE, MX.WAIT (R325-R328) -/

/-- The pattern checks of MX.ARM: reason 0x09, BUSY, invertibility, then the pattern's size (R317, R325, R339, R346). -/
def Ctx.armPattern (c : Ctx) (d : Desc) (cv : Nat) : Option Plan :=
  let g := c.k0.gen d.gctx
  if !d.pattern then none
  else if g.isEmpty || g.owner ≠ some c.tid then some (mxTrap c 9 cv)
  else if g.busy then some (patTrap c 8 0xFF)
  else match g.program with
    | .error e => some (patTrap c e.1 e.2)
    | .ok p => match (if d.trans then p.wide else none) with
      | some i => some (.trap 0x0E c.act 0 (BitVec.ofNat 128 (256 * i)))
      | none => if d.fits p then none else some (mxTrap c 5 cv)

/-- The ply checks of MX.ARM: fault 0x19 is the whole group's (R117, R325). -/
def Ctx.armPly (c : Ctx) (x : MxArm) : Option Plan :=
  if x.ply = 63 then none
  else
    let v := c.sval x.ply
    match (if v.toNat < 2 ^ 32 then c.s.ply? (v.setWidth 32) else none) with
    | none => some (.trap 0x19 c.group 0 1)
    | some p => if p.asid ≠ c.t.asid then some (.trap 0x19 c.group 0 3)
        else if p.cap < x.count.val then some (mxTrap c 0x0A x.cv.val) else none

/-- MX.ARM (R321, R325). -/
def execMxArm (x : MxArm) (s : State) : Host.Outcome State Fault Refusal :=
  issue s 16 x.g fun c => c.uniform 16 <|
    let a := (c.sval x.desc).toNat
    let w : BitVec 512 := BitVec.ofNat 512 (c.s.scrRead c.t.core c.tid c.t.kkey a 64)
    let d := Desc.of w
    let cv := x.cv.val
    let gate := x.gate.map fun o => (wordOffset o, ((c.sval x.gateGen).setWidth 32 : BitVec 32))
    if a % 64 ≠ 0 then (faultAt 0x07 a).plan c
    else if c.k.scr < a + 64 then (faultAt 0x08 a).plan c
    else if d.malformed then mxTrap c 5 cv
    else if d.beyond c.t.core then mxTrap c 6 cv
    else if (c.k0.cv cv).state ≠ .idle then mxTrap c 2 cv
    else match c.foreignTile d.tileMask with
    | some i => mxTrap c 4 i
    | none => match c.armPattern d cv with
    | some p => p
    | none => match gate.bind fun g => wordFault g.1 c.k.scr with
    | some f => f.plan c
    | none => match c.armPly x with
    | some p => p
    | none => .go 16 d.bound fun s =>
      let s1 := s.updCore c.t.core fun k =>
        let k1 := (tilesOf d.tileMask).foldl (fun (k : Core) i => k.claimTile i c.tid) k
        let k2 := k1.setCv cv fun v =>
          { Cv.reset with
            state := .armed, epoch := v.epoch + 1, armer := c.tid, desc := w, descVa := c.sval x.desc, need := x.count.val
            ply := if x.ply = 63 then none else some ((c.sval x.ply).setWidth 32)
            gate := gate, reserved := BitVec.ofNat 64 d.bound }
        if d.pattern then k2.setGen d.gctx fun g => { g.restart with busy := true, trans := d.trans } else k2
      c.next (s1.updTask c.tid fun t =>
        t.putMxRec { core := t.core, cv := cv, epoch := (c.k0.cv cv).epoch + 1, tiles := d.tileMask, armer := true, ops := [], waited := false, fin := none })

/-- The last required signature issues the operation, and its gate is tested; while the arming task is being saved, or is, the portion is
PAUSED at position 0 (R320, R322). Operands and gate lie in the scratch of the arming task's kernel (R320); bytes that a task of it has not
fenced may read as they were before, and operand bytes beyond the kernel's scratch are undefined to it (R245; log 26). -/
def State.mxIssue (s : State) (core cv : Nat) : State :=
  let v := (s.core core).cv cv
  let k := ((s.task? v.armer).map s.kernelOf).getD Kernel.none
  let d := Desc.of v.desc
  let prog := (s.core core).progOf d
  let unfenced := (s.tasks.filter fun t => t.kkey = k.key && t.isPlaced && t.core = core).flatMap fun t => t.unfenced
  let beyond := (d.operandTiles prog).flatMap fun x => (List.range (x.2 + 8448 - max x.2 k.scr)).map fun i => max x.2 k.scr + i
  let held : Bool := v.state = .paused || ((s.task? v.armer).map fun t => t.saving.isSome) = some true
  let s1 := s.updCore core fun c => c.setCv cv fun v =>
    { v with
      state := if held then .paused else .issued, issued := s.nextSeq
      stale := unfenced.foldl (fun m e => m.set e.1 e.2) v.stale, taint := beyond.foldl (fun m a => m.set a 1) v.taint }
  ({ s1 with nextSeq := s1.nextSeq + 1 }).scratchTouched core k.key

/-- MX.SIGN (R326): a paused portion that has not issued still counts its signatures (R322). -/
def execMxSign (g : Guard) (cv : Fin 16) (s : State) : Host.Outcome State Fault Refusal :=
  issue s 8 g fun c => c.uniform 2 <|
    let v := c.k0.cv cv.val
    let member := match v.ply with
      | none => true
      | some id => ((c.s.ply? id).map fun p => p.members.contains c.tid).getD false
    if c.group ≠ c.t.unexited then mxTrap c 1 cv.val
    else if !(v.state = .armed || (v.state = .paused && v.signers.length < v.need)) then mxTrap c 2 cv.val
    else if ((c.s.task? v.armer).map (·.asid)) ≠ some c.t.asid || !member || v.signers.contains c.tid || v.need ≤ v.signers.length then
      mxTrap c 3 cv.val
    else .go 2 0 fun s =>
      let s1 := s.updCore c.t.core fun k => k.setCv cv.val fun v => { v with signers := v.signers ++ [c.tid] }
      let s2 := if v.armer = c.tid then s1
        else s1.updTask c.tid fun t => t.putMxRec
          { core := t.core, cv := cv.val, epoch := v.epoch, tiles := 0, armer := false, ops := [], waited := false, fin := none }
      c.next (if v.signers.length + 1 = v.need then s2.mxIssue c.t.core cv.val else s2)

/-- MX.FENCE (R327): scratch writes perform when they issue, so the group goes on at once. -/
def execMxFence (g : Guard) (s : State) : Host.Outcome State Fault Refusal :=
  issue s 8 g fun c => c.uniform 1 <| c.simple 1 fun t => { t with unfenced := [] }

/-- MX.WAIT (R328). -/
def execMxWait (g : Guard) (dst : Fin 64) (cv : Fin 16) (s : State) : Host.Outcome State Fault Refusal :=
  issue s 8 g fun c => c.uniform 1 <| .go 1 0 fun s =>
    if c.t.mxRecs.any fun r => r.cv = cv.val then (c.hold (.mxWait cv.val dst) .mxWait s).serveMxWaits
    else c.next (c.putS dst 3 s)

/-! ### MX.ZERO, MX.DRAIN, MX.FILL (R329-R331) -/

/-- MX.ZERO. -/
def execMxZero (g : Guard) (tiles : BitVec 16) (s : State) : Host.Outcome State Fault Refusal :=
  issue s 8 g fun c => c.uniform 4 <| match c.foreignTile tiles with
    | some i => mxTrap c 4 i
    | none => .go 4 0 fun s => c.next (s.updCore c.t.core fun k =>
        (tilesOf tiles).foldl (fun (k : Core) i => (k.claimTile i c.tid).putTile s.tick i []) k)

/-- The canonical tile that mode 0 of MX.DRAIN writes (R330). -/
def drainTile (m : Store 8) (t : Nat) (ty : Ty) (entry : Nat → A40) : List (Nat × BitVec 8) :=
  let data := (List.range 64).flatMap fun p => (List.range ty.qx).map fun q =>
    (tileOff ty p q, if q < 64 then valTo ty (a40Val (entry (64 * p + q))) else 0)
  tileBytes m t ty data
    { fmt := ty.code, kind := 0, vrows := 64, vcols := 64, zero := allZero ty data, sq := 127, gen := 0, rs := noScales }

/-- The 8-byte accesses of an image in global memory. -/
def Ctx.imageAccs (c : Ctx) (va n : Nat) (data : Nat → BitVec 64) : List LaneAcc :=
  (List.range n).map fun i => laneAcc c.low (BitVec.ofNat 64 (va + 8 * i)) (data i)

/-- A store that parks its group until it has been written: its own requests perform at once, behind the core's earlier ones. -/
def Ctx.storeNow (c : Ctx) (gs : List GAcc) (s : State) : State :=
  ((c.storeEff .n64 gs s).performAll fun r => r.inst == s.nextReq).serveOrder

/-- MX.DRAIN. -/
def execMxDrain (x : MxDrain) (s : State) : Host.Outcome State Fault Refusal :=
  issue s 16 x.g fun c => c.uniform 8 <|
    let i := x.tile.val
    let a := (c.sval x.dst).toNat
    let entry (e : Nat) : A40 := c.k0.entry c.s.tick i e
    let after (s : State) : State := s.updCore c.t.core fun k =>
      let k1 := if x.zero then k.setTile i [] else k
      if x.free then k1.freeTile i else k1
    if c.k0.tileOwner.getD i none ≠ some c.tid then mxTrap c 4 i
    else match x.mode with
    | .tile => match firstErr [tileFault07 a, tileFault08 a 8448 c.k.scr] with
      | some f => f.plan c
      | none => .go (8 + 1056) 0 fun s =>
          c.next (after (s.scrWrite c.t.core c.t.kkey (drainTile ((s.core c.t.core).scratchOf c.t.kkey) a x.ty entry)))
    | .raw =>
      match c.gcheck (c.imageAccs a 4096 fun e => (entry e).setWidth 64) Need.store.now 8 with
      | .error f => c.uniformFault f
      | .ok gs => match c.capsStore gs with
        | some f => c.uniformFault f
        | none => .go (8 + 4096) 0 fun s => c.next (after (c.storeNow gs s))
    | .rawScr =>
      if a % 8 ≠ 0 then (faultAt 0x07 a).plan c
      else if c.k.scr < a + 32768 then (faultAt 0x08 a).plan c
      else .go (8 + 4096) 0 fun s => c.next (after (s.scrWrite c.t.core c.t.kkey
        ((List.range 4096).flatMap fun e => bytesAt (a + 8 * e) 8 (entry e).toNat)))

/-- The entries of mode 0 of MX.FILL (R331). -/
def fillEntries (read : Nat → Nat → Nat) (t : Nat) (ty : Ty) : Store 40 :=
  (List.range 64).foldl (fun (m : Store 40) p =>
    let rs := read (t + 8256 + p) 1
    (List.range 64).foldl (fun (m : Store 40) q =>
      let v := elemVal ty (read (t + tileOff ty p q) ty.tileBytes)
      m.set (64 * p + q) (a40Odd (if rs = 255 then .nan false else v.scale ((rs : Int) - 127)))) m) []

/-- The entries of an image of 64-bit words: bits [63:40] are ignored (R51). -/
def imageEntries (w : Nat) : Store 40 := (List.range 4096).foldl (fun (m : Store 40) e => m.set e (BitVec.ofNat 40 (w >>> (64 * e)))) []

/-- MX.FILL: ownership is checked before the charge, the rest after it. -/
def execMxFill (x : MxFill) (s : State) : Host.Outcome State Fault Refusal :=
  issue s 16 x.g fun c => c.uniform 8 <|
    let i := x.tile.val
    let a := (c.sval x.src).toNat
    let read (o n : Nat) : Nat := c.s.scrRead c.t.core c.tid c.t.kkey o n
    let put (m : Store 40) (s : State) : State := s.updCore c.t.core fun k => (k.claimTile i c.tid).putTile s.tick i m
    match c.foreignTile ((1 : BitVec 16) <<< i) with
    | some j => mxTrap c 4 j
    | none => match x.mode with
    | .tile =>
      let fmt := Ty.ofCode (read (a + 8192) 1)
      let ok : Bool := (match fmt with | some t => t.isTile | none => false) && read (a + 8193) 1 < 3
      Plan.after (8 + 1056) <| match firstErr [tileFault07 a, tileFault08 a 8448 c.k.scr,
          errIf (!ok) { fault11 7 0 with addr := BitVec.ofNat 64 a }] with
      | some f => f.plan c
      | none => .go (8 + 1056) 0 fun s => c.next (put (fillEntries read a (fmt.getD .e4m3)) s)
    | .raw =>
      Plan.after (8 + 4096) <| c.behind false (c.imageAccs a 4096 fun _ => 0) fun c =>
      match c.gcheck (c.imageAccs a 4096 fun _ => 0) Need.load.now 8 with
      | .error f => c.uniformFault f
      | .ok gs => .go (8 + 4096) 0 fun s =>
          let (w, s1) := c.greadAll gs s
          c.next (put (imageEntries w) s1)
    | .rawScr =>
      Plan.after (8 + 4096) <|
      if a % 8 ≠ 0 then (faultAt 0x07 a).plan c
      else if c.k.scr < a + 32768 then (faultAt 0x08 a).plan c
      else .go (8 + 4096) 0 fun s => c.next (put (imageEntries (read a 32768)) s)

/-! ### MX.STEP, MX.ABORT (R332, R333) -/

def CvState.code : CvState → Nat
  | .idle => 0 | .armed => 1 | .issued => 2 | .paused => 3

/-- MX.STEP. -/
def execMxStep (g : Guard) (dst : Fin 64) (cv : Fin 16) (s : State) : Host.Outcome State Fault Refusal :=
  issue s 8 g fun c => c.uniform 1 <| c.simple 1 fun t =>
    let v := c.k0.cv cv.val
    t.wrS dst (BitVec.ofNat 64 (v.epoch.toNat * 2 ^ 48 + v.state.code * 2 ^ 32 + v.pos.toNat))

/-- MX.ABORT. -/
def execMxAbort (g : Guard) (cv : Fin 16) (s : State) : Host.Outcome State Fault Refusal :=
  issue s 8 g fun c => c.uniform 4 <|
    let v := c.k0.cv cv.val
    if v.state ≠ .idle && v.armer ≠ c.tid then mxTrap c 8 cv.val
    else .go 4 0 fun s => c.next (s.mxStop c.t.core cv.val .aborted).serveMxWaits.serveBanks

/-! ### The engine (R315-R320, R342) -/

/-- Kernel of the task that armed a register. -/
def State.armerKernel (s : State) (core cv : Nat) : Kernel :=
  ((s.task? ((s.core core).cv cv).armer).map s.kernelOf).getD Kernel.none

/-- Operand scratch as the operation of a register sees it. -/
def State.operand (s : State) (core cv : Nat) : Operand :=
  let c := s.core core
  { tick := s.tick, mem := c.scratchOf (s.armerKernel core cv).key, stale := (c.cv cv).stale, taint := (c.cv cv).taint }

/-- End the running operation and serve what waited for it. -/
def State.mxFinish (s : State) (core cv : Nat) (e : MxEnd) : State := (s.mxEnd core cv e).serveMxWaits.serveBanks

/-- MX_OPERATION_START: the free engine takes the operation issued earliest whose gate is open; at its first start the headers are
checked and the skipped steps decided; scale blocks before the first step close with a zero sum (R318-R320). -/
def execMxOperationStart (core : Nat) (s : State) : Host.Outcome State Fault Refusal :=
  let c := s.core core
  if c.running.isSome then .next s
  else
    let ready := (List.range 16).filter fun i => (c.cv i).state = .issued && (c.cv i).gate.isNone
    let first := ready.foldl (fun (m : Option Nat) i => match m with
      | none => some i
      | some j => if (c.cv i).issued < (c.cv j).issued then some i else some j) none
    match first with
    | none => .next s
    | some i =>
      let v := c.cv i
      if v.started then .next (s.updCore core fun c => { c with running := some i, mxStepAt := s.clock })
      else
        let d := Desc.of v.desc
        let prog := c.progOf d
        let m := (s.operand core i).view
        if !d.headersOk m prog then .next (s.mxFinish core i (.fault 0x0C (BitVec.ofNat 128 (7 + 256 * i))))
        else
          let zc := ((s.task? v.armer).map (·.zerochk)).getD 0
          let en := zc.getLsbD 0
          let diffs := if en then d.zeroDiffs m prog else 0
          let mcnt := min (bits zc.toNat 32 32 + diffs) (2 ^ 32 - 1)
          let s1 := if en then s.updTask v.armer fun t => { t with zerochk := BitVec.ofNat 64 (mcnt * 2 ^ 32 + 1) } else s
          let lead := match d.stepAt prog 0 with | some st => st.block | none => d.tiles * d.nb
          .next (s1.updCore core fun c =>
            let c1 := c.closeBlocks v.armer d (s.operand core i) [] 0 lead
            { c1.setCv i fun v => { v with started := true, skip := d.skipList m prog en } with running := some i, mxStepAt := s.clock })

/-- MATRIX_STEP: one step; a block that cannot be delivered ends the operation with fault 0x0F (R315, R340, R342). -/
def execMatrixStep (core : Nat) (s : State) : Host.Outcome State Fault Refusal :=
  let c := s.core core
  match c.running with
  | none => .next s
  | some i =>
    match mxStep1 s.tick c i (c.scratchOf (s.armerKernel core i).key) with
    | .more c' | .last c' => .next (s.updCore core fun _ => { c' with mxStepAt := s.clock })
    | .bad b c' => .next ((s.updCore core fun _ => c').mxFinish core i (.fault 0x0F (detail0F b)))

/-- MX_OPERATION_COMPLETE: the last step has been added (R320). -/
def execMxOperationComplete (core : Nat) (s : State) : Host.Outcome State Fault Refusal :=
  let c := s.core core
  match c.running with
  | none => .next s
  | some i =>
    let v := c.cv i
    let d := Desc.of v.desc
    if v.pos.toNat < d.stepCount (c.progOf d) then .next s else .next (s.mxFinish core i .done)

end Sys2Proof.Machine
end

