-- ==== Sys2Proof/Machine/Pattern.lean ====
section
/-! DEFINITION. The pattern instructions (spec/17_patterns.md R347-R351). -/

namespace Sys2Proof.Machine

/-- The ownership and BUSY checks of R346, by reason. -/
def Ctx.pgOwn (c : Ctx) (g : GCtx) (busy : Bool) : Option Plan :=
  if (match g.owner with | some t => t != c.tid | none => false) then some (patTrap c 7 0xFF)
  else if busy && g.busy then some (patTrap c 8 0xFF) else none

/-- An aligned image read from scratch, or from global memory as a load: the number its bytes make, and the state after (R347). -/
def Ctx.pgRead (c : Ctx) (scr : Bool) (a size align : Nat) : Except Plan (Nat × (State → State)) :=
  if a % align ≠ 0 then .error ((faultAt 0x07 a).plan c)
  else if scr then
    if c.k.scr < a + size then .error ((faultAt 0x08 a).plan c) else .ok (c.s.scrRead c.t.core c.tid c.t.kkey a size, id)
  else
    match c.gcheck (c.imageAccs a (size / 8) fun _ => 0) Need.load.now 8 with
    | .error f => .error (c.uniformFault f)
    | .ok gs => .ok ((c.greadAll gs c.s).1, fun s => (c.greadAll gs s).2)

/-- The accesses of such a read that reach memory. -/
def Ctx.pgAccs (c : Ctx) (x : PgMem) (size : Nat) : List LaneAcc :=
  if x.scr then [] else c.imageAccs (c.sval x.addr).toNat (size / 8) fun _ => 0

/-- Give a context of the issuing task's core. -/
def Ctx.putGen (c : Ctx) (i : Nat) (g : GCtx) (s : State) : State := s.updCore c.t.core fun k => k.setGen i fun _ => g

/-- PG.LOAD (R348). -/
def execPgLoad (x : PgMem) (s : State) : Host.Outcome State Fault Refusal :=
  issue s 8 x.g fun c => c.uniform 4 <| c.behind false (c.pgAccs x 64) fun c =>
    match c.pgRead x.scr (c.sval x.addr).toNat 64 64 with
    | .error p => p
    | .ok (w, after) => match c.pgOwn (c.k0.gen x.ctx.val) true with
      | some p => p
      | none => match parseProgram (wordsOf w) with
        | .error e => (patTrap c e.1 e.2).noting after
        | .ok _ => .go 4 0 fun s =>
            c.next (c.putGen x.ctx.val { GCtx.reset with owner := some c.tid, words := wordsOf w, state := 1 } (after s))

/-- The cursor at which a run starts: from the start of an enumeration where the mode changes (R349). -/
def GCtx.runFrom (g : GCtx) (trans : Bool) : GCtx :=
  let g1 := if g.state ≠ 1 && g.trans ≠ trans then g.restart else g
  if g1.state = 1 then { g1 with trans := trans } else g1

/-- PG.RUN (R349): every check precedes the charge. A transposed enumeration that a restored image continues is checked as well (R339). -/
def execPgRun (x : PgRun) (s : State) : Host.Outcome State Fault Refusal :=
  issue s 16 x.g fun c => c.uniform 8 <|
    let g := c.k0.gen x.ctx.val
    let a := (c.sval x.dst).toNat
    let n := min (c.sval x.limit).toNat 4096
    match c.pgOwn g true with
    | some p => p
    | none =>
      if g.isEmpty then patTrap c 6 0xFF
      else match g.program with
      | .error e => patTrap c e.1 e.2
      | .ok p =>
        let g1 := g.runFrom x.trans
        match (if x.trans && g1.state ≠ 3 then p.wide else none) with
        | some i => .trap 0x0E c.act 0 (BitVec.ofNat 128 (256 * i))
        | none =>
          if a % 8 ≠ 0 then (faultAt 0x07 a).plan c
          else if c.k.scr < a + 8 * n then (faultAt 0x08 a).plan c
          else
            let bs := (g1.remaining p).take n
            match bs.zipIdx.find? fun b => undeliverable (g1.count.toNat + b.2) b.1 with
            | some b => .trap 0x0F c.act 0 (detail0F b.1)
            | none => .go 8 n fun s =>
              let s1 := s.scrStore c.t.core c.tid c.t.kkey (bs.zipIdx.flatMap fun b => bytesAt (a + 8 * b.2) 8 b.1.record)
              let s2 := c.putGen x.ctx.val (g1.deliver p bs.length) s1
              c.next (c.putS x.cnt (BitVec.ofNat 64 bs.length) (s2.updTask c.tid fun t => t.settle n bs.length))

/-- PG.SAVE (R350). With no guard-true lane no byte counts: the fixed part alone is charged (R45, R95, R96). -/
def execPgSave (x : PgMem) (free : Bool) (s : State) : Host.Outcome State Fault Refusal :=
  issue s 8 x.g fun c => c.uniform 4 <|
    let g := c.k0.gen x.ctx.val
    let a := (c.sval x.addr).toNat
    let done (s : State) : State := c.next (if free then c.putGen x.ctx.val GCtx.reset s else s)
    match c.pgOwn g free with
    | some p => p
    | none =>
      if a % 32 ≠ 0 then (faultAt 0x07 a).plan c
      else if x.scr then
        if c.k.scr < a + 96 then (faultAt 0x08 a).plan c
        else .go 16 0 fun s => done (s.scrStore c.t.core c.tid c.t.kkey (bytesAt a 96 (ofBytesLE g.image)))
      else
        let w := ofBytesLE g.image
        match c.gcheck (c.imageAccs a 12 fun i => BitVec.ofNat 64 (bits w (64 * i) 64)) Need.store.now 8 with
        | .error f => c.uniformFault f
        | .ok gs => match c.capsStore gs with
          | some f => c.uniformFault f
          | none => .go 16 0 fun s => done (c.storeNow gs s)

/-- PG.REST (R350). -/
def execPgRest (x : PgMem) (s : State) : Host.Outcome State Fault Refusal :=
  issue s 8 x.g fun c => c.uniform 4 <| c.behind false (c.pgAccs x 96) fun c =>
    match c.pgRead x.scr (c.sval x.addr).toNat 96 32 with
    | .error p => p
    | .ok (w, after) => match c.pgOwn (c.k0.gen x.ctx.val) true with
      | some p => p
      | none => match parseProgram (wordsOf w) with
        | .error e => (patTrap c e.1 e.2).noting after
        | .ok p => match GCtx.ofImage c.tid w p with
          | none => (patTrap c 9 0xFF).noting after
          | some g => .go 16 0 fun s => c.next (c.putGen x.ctx.val g (after s))

/-- The word that PG.STAT writes (R351). -/
def GCtx.stat (g : GCtx) (task : Nat) : Nat :=
  let b (x : Bool) (i : Nat) : Nat := if x then 2 ^ i else 0
  let mine := g.owner = some task
  let seen : Bool := g.owner = none || mine
  g.state.toNat * 2 ^ 56 + b mine 54 +
    (if seen then b g.busy 58 + b g.trans 55 + g.count.toNat * 2 ^ 24 + g.rowoff.toNat else 0)

/-- PG.STAT. -/
def execPgStat (g : Guard) (dst : Fin 64) (ctx : Fin 8) (s : State) : Host.Outcome State Fault Refusal :=
  issue s 8 g fun c => c.uniform 1 <| c.simple 1 fun t => t.wrS dst (BitVec.ofNat 64 ((c.k0.gen ctx.val).stat c.tid))

end Sys2Proof.Machine
end

