-- ==== Sys2Proof/Machine/System.lean ====
section
/-! DEFINITION. The system instructions (spec/09_system.md R219-R224). -/

namespace Sys2Proof.Machine

/-- TRAP and BKPT: the fault is the instruction's effect, taken behind its charge, which is kept (R199, R222). -/
def Ctx.raiseTrap (c : Ctx) (cost : Nat) (code : BitVec 8) (imm : BitVec 16) : Plan :=
  c.uniform cost <| .go cost 0 fun s => match s.task? c.tid with
    | none => s
    | some t => s.takeFault c.tid (t.record code c.pc c.group c.act 0 (imm.setWidth 128) false false)

def execTrap (g : Guard) (num : BitVec 16) (s : State) : Host.Outcome State Fault Refusal :=
  issue s 8 g fun c => c.raiseTrap 8 0x13 num

def execBkpt (g : Guard) (tag : BitVec 16) (s : State) : Host.Outcome State Fault Refusal :=
  issue s 8 g fun c => c.raiseTrap 1 0x14 tag

/-- The task-level system registers (R219); numbers from 0x40 on are privileged. -/
def Task.sysreg (t : Task) (k : Kernel) (num : BitVec 8) : Option (BitVec 64) :=
  match num.toNat with
  | 0 => some t.fpctl
  | 1 => some (t.quant.setWidth 64)
  | 2 => some (if t.exmode = .pause then 1 else 0)
  | 3 => some (if t.det then 1 else 0)
  | 4 => some t.sealcnt
  | 5 => some (BitVec.ofNat 64 k.priv)
  | 6 => some t.zerochk
  | _ => none

/-- A write of FPCTL: reserved bits are ignored, and RM stays where its value is reserved (R63). -/
def writeFpctl (old x : BitVec 64) : BitVec 64 :=
  let rm := x &&& 7
  (x &&& 0x1F8) ||| (if rm.toNat ≤ 4 then rm else old &&& 7)

/-- What SYSWR does to the task; read-only registers ignore it (R67, R219, R220). -/
def Task.setSysreg (t : Task) (num : BitVec 8) (x : BitVec 64) : Task :=
  match num.toNat with
  | 0 => { t with fpctl := writeFpctl t.fpctl x }
  | 1 => { t with quant := if (x.setWidth 16 : BitVec 16) = 0 then t.quant else x.setWidth 16, bbc := 0 }
  | 2 => { t with exmode := if x.getLsbD 0 then .pause else .unwind }
  | 6 => { t with zerochk := x &&& 0xFFFFFFFF00000001 }
  | _ => t

/-- The task's loads and atomics that are on their way have performed, so that SEALCNT holds their denials (R220). -/
def Ctx.counts (c : Ctx) (s : State) : State := s.performAll fun r => r.task == c.tid && r.kind ≠ .store

/-- SYSRD (R219, R223): of SEALCNT behind the task's earlier loads and atomics (R220). -/
def execSysrd (g : Guard) (dst : Fin 64) (num : BitVec 8) (s : State) : Host.Outcome State Fault Refusal :=
  issue s 8 g fun c => c.uniform 2 <| Plan.after 2 <| match c.t.sysreg c.k num with
    | none => .trap 0x02 c.act
    | some x =>
      if num ≠ 4 then c.simple 2 fun t => t.wrS dst x
      else if (c.counts c.s).reqs.any fun r => r.task == c.tid && r.kind ≠ .store then .wait
      else .go 2 0 fun s => (c.counts s).updTask c.tid fun t => (t.wrS dst t.sealcnt).advance c.group c.len

/-- SYSWR (R219, R223). -/
def execSyswr (g : Guard) (src : Fin 64) (num : BitVec 8) (s : State) : Host.Outcome State Fault Refusal :=
  issue s 8 g fun c => c.uniform 4 <| Plan.after 4 <| match c.t.sysreg c.k num with
    | none => .trap 0x02 c.act
    | some _ => c.simple 4 fun t => t.setSysreg num (c.sval src)

/-- SUSP (R224): the group goes on behind it and parks, the whole task stops, and the core saves it. -/
def execSusp (g : Guard) (us : BitVec 16) (s : State) : Host.Outcome State Fault Refusal :=
  issue s 8 g fun c => c.uniform 4 <| .go 4 0 fun s =>
    (s.updTask c.tid fun t =>
      let t1 := (t.advance c.group c.len).arrive c.group
      let t2 := t1.onLanes c.group fun _ x => if x.park = .none then { x with park := .susp } else x
      { t2 with suspended := true, suspUs := us }).save c.tid

/-- SUSP_DELAY_EXPIRY: the delay has passed, and root firmware may resume the context (R224). -/
def execSuspDelayExpiry (task : Nat) (s : State) : Host.Outcome State Fault Refusal :=
  match s.task? task with
  | none => .next s
  | some t => match t.saved with
    | none => .next s
    | some sv =>
      if (s.clock - sv.clock).toNat < sv.delay then .next s
      else .next (s.updTask task fun t => { t with saved := some { sv with delay := 0 } })

end Sys2Proof.Machine
end

