-- ==== Sys2Proof/Machine/Replay.lean ====
section
/-! DEFINITION. What a task still has to perform again before it issues: memory instructions stopped by a deferred fault, copy
operations stopped by one, and the pending replays of a saved context (spec/09_system.md R211, R213-R216; spec/08_memory.md R193;
spec/15_tile_copy.md R295). -/

namespace Sys2Proof.Machine

def Replay.cost (p : Replay) : Nat :=
  match p.fifo, p.out, p.wait with
  | some q, _, _ => fifoCost q.lanes
  | none, some o, _ => o.cost
  | none, none, some w => if (match w.kind with | .await _ _ _ _ _ => true | _ => false) then 1 else 8
  | none, none, none => storeCost p.stores

/-- What a replay sees: its group as the lanes it acts for. -/
def State.replayCtx (s : State) (t : Task) (pc : BitVec 32) (group : Mask) : Ctx :=
  { s := s, tid := t.id, t := t, k := s.kernelOf t, group := group, act := group, pc := pc, len := 8 }

/-- A load performed again, for the lanes that had no value yet; then all its lanes are delivered (R211, R214, R247). -/
def Ctx.reload (c : Ctx) (o : Out) : Except MFault (State → State) :=
  let uniform := match o.dst with | .s _ => true | .v _ => false
  let accs := o.lanes.filter fun a => uniform || o.open_.getLsbD a.lane
  let n := if o.acq.isSome then Need.acquire.now else Need.load.now
  match c.gcheck (accs.filter (·.val.isNone)) n o.ty.bytes with
  | .error f => .error f
  | .ok gs => .ok fun s =>
    let shut := (c.shut n gs).map GAcc.line
    let s1 := if o.acq.isSome then gs.foldl (fun s a => s.dropLine c.t.core a.line) s else s
    let s2 := gs.foldl (fun s a => c.gfill shut a s) (c.noteNow n gs (c.touch gs false s1))
    let read := gs.map fun a => { a.acc with val := some (BitVec.ofNat 64 (c.gread shut a s2 o.ty.bytes)), mask := BitVec.allOnes 64 }
    let s3 := s2.updTask c.tid fun t => (accs.filter (·.val.isSome) ++ read).foldl (fun t a => t.deliver s.tick o a) t
    match o.acq with | some sc => s3.acquire c.t.core sc | none => s3

/-- What the lanes of a memory instruction's requests need. -/
def Req.need (r : Req) : Need :=
  match r.kind with | .load | .prefetch => .load | .store => .store | .atomic _ | .cas => .atom

/-- Requests sent anew keep the numbers that they had, so that what waits for them goes on waiting (R241, R244). -/
def renumber (rs qs : List Req) : List Req := qs.zipIdx.map fun x => { x.1 with id := ((rs[x.2]?).map (·.id)).getD x.1.id }

/-- The requests of a memory instruction sent anew, with their addresses translated anew, and performed (R211, R216). -/
def Ctx.resend (c : Ctx) (r : Req) (rs : List Req) (gs : List GAcc) (s : State) : State × List Req :=
  let plain := match r.kind with | .load | .prefetch | .store => true | _ => false
  let store := match r.kind with | .store => true | _ => false
  let shut := (c.shut r.need gs).map GAcc.line
  let s1 := c.touch gs r.needs.2 s
  let s2 := if r.needs.2 then c.markAll (gs.filter fun a => !shut.contains a.line) r.ty.bytes s1 else s1
  let (s3, qs0) := s2.numbered <| (byLine gs).flatMap fun g => match g with
    | [] => []
    | a :: _ => c.req r.inst r.out r.kind r.ty g (plain && !a.leaf.noL1 && (!store || r.stl || c.holdsL1 gs a)) (shut.contains a.line) r.stl
  let qs := (renumber rs qs0).map fun q => { q with depth := r.depth }
  let s4 := if store && !r.stl then gs.foldl (fun s a =>
      if shut.contains a.line || a.leaf.noL1 || c.holdsL1 gs a then s
      else s.l1Store c.t.core a.acc.pa r.ty.bytes a.acc.data.toNat false) s3 else s3
  let s5 := s4.sendNow qs (r.stl || !plain)
  (qs.foldl (fun s q => s.performThrough q.id) s5, qs)

/-- A store or an atomic without a result performed again. -/
def Ctx.restore (c : Ctx) (rs : List Req) : Except MFault (State → State) :=
  match rs with
  | [] => .ok id
  | r :: _ =>
    match c.gcheck (rs.flatMap (·.lanes)) r.need.now r.ty.bytes with
    | .error f => .error f
    | .ok gs => match (if r.needs.1 then none else c.capsStore gs) with
      | some f => .error f
      | none => .ok fun s => (c.resend r rs gs s).1

/-- One pending replay performed: a FIFO request is sent again, an AWAIT or a CAP.ENTER parks again (R193, R216, R272, R305). -/
def Ctx.perform (c : Ctx) (p : Replay) : Except MFault (State → State) :=
  match p.fifo, p.out, p.wait with
  | some q, o, w =>
    if c.fifoBad q.bank then .error { code := 0x09, lanes := q.lanes, addr := 0, detail := 0, note := id }
    else .ok fun s =>
      let s1 : State := { s with nextSeq := s.nextSeq + 1 }
      (s1.updCore c.t.core fun k => { k with fifoReqs := k.fifoReqs ++ [{ q with id := s.nextSeq, dead := false }] }).updTask c.tid fun t =>
        { t with
          outs := t.outs ++ o.toList
          waits := t.waits ++ w.toList.map fun w => { w with kind := .fpsh q.bank s.nextSeq } }
  | none, some o, _ =>
    if o.isLoad then c.reload o
    else match c.restore p.stores with
      | .error f => .error f
      | .ok eff => .ok fun s => eff (s.updTask c.tid fun t => { t with outs := t.outs ++ [o] })
  | none, none, some w => .ok fun s =>
    match w.kind with
    | .await word gen dst timeout _ =>
      let m := (s.core c.t.core).scratchOf c.t.kkey
      if reached m word gen then
        (s.updTask c.tid fun t => (t.setS dst 0).wake w).acquire c.t.core (wordScope m word)
      else s.updTask c.tid fun t => { t with waits := t.waits ++ [{ w with kind := .await word gen dst timeout s.clock }] }
    | _ => (s.updTask c.tid fun t => { t with waits := t.waits ++ [w] }).capReturn c.tid
  | none, none, none => c.restore p.stores

/-- A task that may go on performing what stands before its next issue. -/
def Task.goesOn (t : Task) : Bool := t.isPlaced && t.fault.isNone && t.stop.isNone && !t.paused && t.saving.isNone

/-- The depth at the issue of a pending replay's instruction; that of its lanes, which stand there, where it holds neither a result nor
requests (R200). -/
def Replay.depth (p : Replay) (t : Task) : BitVec 8 :=
  match p.out, p.stores with
  | some o, _ => o.depth
  | none, r :: _ => r.depth
  | none, [] => (t.lane ((lowest? p.group).getD 0)).depth

/-- The accesses of a pending replay that come to their homes at once. -/
def Ctx.replayHomes (c : Ctx) (p : Replay) : List GAcc :=
  match p.fifo, p.out with
  | none, some o => if o.isLoad then c.homeward false (o.lanes.filter (·.val.isNone)) else []
  | _, _ => []

/-- The pending replays in their saved order, each charged anew; a fault raises a record with REPLAYED set and the rest waits
behind it, and so it does while an earlier request of the core may not perform (R240); fuel counts the replays (R216). -/
def runReplays (tid : Nat) : Nat → State → State
  | 0, s => s
  | n + 1, s =>
    match s.task? tid with
    | none => s
    | some t => match t.pendingReplays with
      | [] => s
      | p :: _ =>
        if !t.goesOn then s
        else if t.alw.toNat < p.cost then s.exhaust tid (t.trapRecord p.pc p.group p.cost)
        else
          let hs := (s.replayCtx t p.pc p.group).replayHomes p
          let s0 := s.clear t.core hs
          let paid := s0.updTask tid fun t => t.charge p.cost 0
          if s0.blocked t.core hs || (p.stores.any (·.caps) && s0.reqs.any fun q => q.core == t.core && s0.stuck q) then s
          else match (paid.replayCtx ((paid.task? tid).getD t) p.pc p.group).perform p with
          | .error f => (f.note s0).takeDeferred tid
              { t.record f.code p.pc p.group f.lanes f.addr f.detail false true with depth := p.depth t }
          | .ok eff => runReplays tid n ((eff paid).updTask tid fun t => { t with pendingReplays := t.pendingReplays.drop 1 })

/-- REPLAY of a memory instruction that met a deferred fault, the first of those that have: it is charged anew and performs alone, or faults
again; it waits while an earlier request of the core may not perform (R211, R240). -/
def State.redoFirst (s : State) (tid : Nat) : State :=
  match s.task? tid with
  | none => s
  | some t => match t.deferred with
    | [] => s
    | r :: rest =>
      let rs := rest.filter fun q => q.inst == r.inst
      let left := rest.filter fun q => q.inst ≠ r.inst
      let cost := t.reqCost (r :: rs)
      let c := s.replayCtx t r.pc r.group
      let again (f : MFault) : State := (f.note s).takeDeferred tid
        { t.record f.code r.pc r.group f.lanes f.addr f.detail true false with depth := r.depth }
      if !t.goesOn then s
      else if t.alw.toNat < cost then s.exhaust tid (t.trapRecord r.pc r.group cost)
      else if r.caps && s.reqs.any (fun q => q.core == t.core && s.stuck q) then s
      else match c.gcheck ((r :: rs).flatMap (·.lanes)) r.need.now r.ty.bytes with
        | .error f => again f
        | .ok gs => match (if r.needs.1 then none else c.capsStore gs) with
          | some f => again f
          | none =>
            let (s1, qs) := c.resend r (r :: rs) gs (s.updTask tid fun t => { t.charge cost 0 with deferred := left })
            if s1.reqs.any fun q => qs.any fun x => x.id == q.id then s else s1.serveOrder

/-- All of them; fuel counts the requests. -/
def redoDeferred (tid : Nat) : Nat → State → State
  | 0, s => s
  | n + 1, s =>
    let s1 := s.redoFirst tid
    if ((s1.task? tid).map (·.deferred.length)).getD 0 < ((s.task? tid).map (·.deferred.length)).getD 0 then redoDeferred tid n s1 else s1

/-- REPLAY of a copy operation that met a fault: it is issued again with a new number, charged anew, once it may issue (R291, R295). -/
def redoCopies (tid : Nat) : Nat → State → State
  | 0, s => s
  | n + 1, s => match s.task? tid with
  | none => s
  | some t => match t.deferredCopies with
    | [] => s
    | o :: rest =>
      let cost := 8 + o.reserved.toNat
      if !t.goesOn || s.copyHeld t o.kind then s
      else if t.alw.toNat < cost then s.exhaust tid (t.trapRecord o.pc o.group cost)
      else redoCopies tid n ((((s.updTask tid fun t => { t.charge 8 o.reserved.toNat with deferredCopies := rest }).copyClean t o.kind).copyIssue
        { o with core := t.core }))

/-- Perform everything that stands before a task's next issue, and serve a group that a record kept from the fault of its matrix operation
(R202, R328). -/
def State.goOn (s : State) (tid : Nat) : State :=
  let n (f : Task → Nat) (s : State) : Nat := ((s.task? tid).map f).getD 0
  let s0 := redoDeferred tid (n (·.deferred.length) s) s
  let s1 := redoCopies tid (n (·.deferredCopies.length) s0) s0
  (runReplays tid (n (·.pendingReplays.length) s1) s1).serveMxWaits

end Sys2Proof.Machine
end

