-- ==== Sys2Proof/Machine/Task.lean ====
section
/-! DEFINITION. The task instructions (spec/05_tasks.md R93-R125): spawning, joins, the account, plies, priority. -/

namespace Sys2Proof.Machine

/-! ### Ordinals, handles and new tasks (R103, R107, R112) -/

/-- Level of an ordinal, the root being level 1; 9 for a task whose path does not fit (R112). -/
def levelOf (o : BitVec 64) : Nat :=
  if o = BitVec.allOnes 64 then 9
  else ((List.range 8).takeWhile fun i => bits o.toNat (8 * (7 - i)) 8 ≠ 0).length

/-- Ordinal of the child with index i. -/
def childOrdinal (o : BitVec 64) (i : Nat) : BitVec 64 :=
  if 8 ≤ levelOf o || 255 ≤ i then BitVec.allOnes 64
  else o ||| (BitVec.ofNat 64 (i + 1) <<< (8 * (7 - levelOf o)))

/-- Whether spawning the children with these indices breaks the limits of a deterministic launch (R113). -/
def beyondOrdinals (o : BitVec 64) (ixs : List Nat) : Bool := 8 ≤ levelOf o || ixs.any fun i => 255 ≤ i

/-- The first handle of n children, and the counter and generation after them (R103). -/
def nextHandles (ctr gen : BitVec 16) (n : Nat) : List (BitVec 32) × BitVec 16 × BitVec 16 :=
  let (c, g) := if n = 1 || ctr.toNat + n ≤ 65536 then (ctr, gen) else (0, gen + 1)
  let h (j : Nat) : BitVec 32 := BitVec.ofNat 32 (g.toNat * 65536 + (c.toNat + j))
  let last := c.toNat + n
  ((List.range n).map h, BitVec.ofNat 16 last, if last = 65536 then g + 1 else g)

/-- A task at its start: every register zero, lanes at the entry, QUANT 32 (R66, R67, R107). -/
def Task.fresh (id vf : Nat) (asid : BitVec 16) (prin : BitVec 24) (kernel entry : BitVec 32) (w : Nat) (alw : BitVec 64)
    (prio ceil : BitVec 2) (place : Place) (arrival : Nat) : Task :=
  { id := id, vf := vf, asid := asid, prin := prin, kernel := kernel, parent := none, root := id, handle := 0
    ordinal := 0x0100000000000000, det := false, launch := none, handlerFor := none, viaSpawnx := false, place := place
    arrival := arrival, everPlaced := false, lcores := [], alw := alw, held := 0, fpctl := 0, sealcnt := 0, zerochk := 0
    exmode := .unwind, ownExm := .unwind, dset := 0, oset := 0, quant := 32, bbc := 0, childCtr := 0, childGen := 0
    prio := prio, ceil := ceil, plies := [], pbase := 0, privWritten := [], unfenced := [], after := none, relMark := 0, carried := []
    lanes := List.replicate w (Lane.start entry), sregs := [], vregs := [], preds := [], outs := [], sfOps := [], waits := []
    children := [], dseq := 0, dentries := [], mxRecs := [], fault := none, fetchFault := false, notice := none, trapRec := none, deferred := []
    deferredCopies := [], replayCap := [], halted := false, suspended := false, escalated := false, werr := false
    saving := none, suspUs := 0, paused := false, stop := none, pendingReplays := [], saved := none, lastSelect := 0 }

/-- A child's FPCTL: the parent's RM and FTZ, flags clear (R63). -/
def childFpctl (x : BitVec 64) : BitVec 64 := x &&& 0xF

/-- Priority under the ceiling (R110). -/
def capPrio (p ceil : BitVec 2) : BitVec 2 := if ceil.toNat < p.toNat then ceil else p

/-! ### Routing (R21, R108, R113) -/

/-- Free slots of a core bound to a kernel, virtual function and address space (R21). -/
def State.freeSlots (s : State) (core : Nat) (kernel : BitVec 32) (vf : Nat) (asid : BitVec 16) : List Nat :=
  (((s.core core).binds.filter fun b => b.kernel == kernel && b.vf == vf && b.asid == asid).map (·.slot)).filter fun k =>
    !s.tasks.any fun t => t.place == .placed core k

/-- Records in a local spawn queue. -/
def State.localCount (s : State) (core : Nat) : Nat := (s.tasks.filter fun t => t.place == .localQ core).length

/-- R108: where a spawn record of a core goes. -/
def State.route (s : State) (core : Nat) (kernel : BitVec 32) (vf : Nat) (asid : BitVec 16) (hint : Nat) : Place :=
  let wantLocal : Bool := hint = 1 || (hint = 0 && !(s.freeSlots core kernel vf asid).isEmpty)
  if wantLocal && s.localCount core < 64 then .localQ core else .distQ (dieOf core)

/-- R113: the logical core of an ordinal. -/
def logicalCore (lcores : List Nat) (o : BitVec 64) : Nat := lcores.getD (o.toNat % lcores.length) 0

/-! ### SPAWN, SPAWNF, SPAWNX (R119) -/

/-- What an instruction of the SPAWN family makes: its target, its count and whether it goes to a device. -/
structure SpawnHow where
  x : SpawnF
  n : Nat
  fan : Bool
  dev : Option (BitVec 10)

/-- Arguments: s[srcB] to s[srcB + argc − 1] as s0, s1, … -/
def Ctx.spawnArgs (c : Ctx) (x : SpawnF) : List (BitVec 64) :=
  (List.range x.argc.val).map fun i => if h : x.arg0.val + i < 64 then c.sval ⟨x.arg0.val + i, h⟩ else 0

def putArgs (args : List (BitVec 64)) : Store 64 := args.zipIdx.foldl (fun (m : Store 64) a => m.set a.2 a.1) []

/-- Whether the inbound queue of a context refuses a request: it is full, the kernel is not registered, or the context has been torn down
(R369). -/
def State.inboundRefuses (s : State) (asid : BitVec 16) (kernel : BitVec 32) : Bool :=
  decide (4096 ≤ (s.inbound.filter fun x => x.asid == asid).length) || (s.kernel? asid kernel).isNone || (s.asd asid).torn

/-- One child (R104, R107, R119): outstanding created children bound it, and the inbound queue bounds those sent to this device itself. A
refused one is reportable at once (R120), and one that its target has refused counts until it is joined (R104). -/
def Ctx.spawnOne (c : Ctx) (w : SpawnHow) (a : BitVec 64) (h : BitVec 32) (j : Nat) (s : State) : State :=
  match s.task? c.tid with
  | none => s
  | some t =>
    let rec0 : Child :=
      { handle := h, task := 0, final := none, remainder := 0, paused := false, reported := false, seq := s.nextSeq
        counted := false, remote := w.dev.isSome, entries := [] }
    let s0 : State := { s with nextSeq := s.nextSeq + 1 }
    let full := Config.maxChildren ≤ (t.children.filter (·.counted)).length
    let dropped := w.dev = some s.deviceNo && s.inboundRefuses t.asid t.kernel
    if full || dropped then
      let refused : Child := { rec0 with final := some .refused, remainder := a, counted := !full }
      ((if full then s0 else s0.count t.vf 4).updTask c.tid fun t => { t with children := t.children ++ [refused] }).serveJoins c.tid
    else
      let ord := childOrdinal t.ordinal (h.toNat % 65536)
      let prio := capPrio (w.x.prio.getD t.prio) t.ceil
      let own : ExMode := match w.x.exm.val with | 1 => .unwind | 2 => .pause | _ => t.exmode
      let args := c.spawnArgs w.x
      let id := s0.nextTask
      let place : Place := match w.dev with
        | some d => .remote d
        | none => if t.det then .localQ (logicalCore t.lcores ord) else s0.route t.core t.kernel t.vf t.asid w.x.hint.val
      let base := Task.fresh id t.vf t.asid t.prin t.kernel w.x.entry c.k.w a prio t.ceil place s0.nextSeq
      let child : Task :=
        { base with
          parent := some c.tid, root := t.root, handle := h, ordinal := ord, det := t.det, viaSpawnx := w.dev.isSome
          lcores := t.lcores, fpctl := childFpctl t.fpctl, exmode := t.exmode, ownExm := own, after := some (t.core, s0.nextReq)
          sregs := if w.fan then (putArgs args).set 8 (BitVec.ofNat 64 j) else putArgs args }
      let s1 : State := { s0 with nextTask := id + 1, nextSeq := s0.nextSeq + 1, tasks := s0.tasks ++ [child] }
      let s2 := s1.updTask c.tid fun t => { t with children := t.children ++ [{ rec0 with task := id, counted := true }] }
      match w.dev with
      | some d =>
        if d = s2.deviceNo then
          let r : SpawnxReq :=
            { dev := d, asid := t.asid, sender := c.tid, kernel := t.kernel, entry := w.x.entry, alw := a, argc := w.x.argc.val
              args := args, prio := prio, ceil := t.ceil, exmode := t.exmode == .pause, ownExm := own == .pause
              fpctl := childFpctl t.fpctl, handle := h, ordinal := ord, prin := t.prin }
          { s2 with inbound := s2.inbound ++ [r] }
        else s2
      | none => s2

/-- The SPAWN family (R113, R118, R119). -/
def Ctx.spawn (c : Ctx) (w : SpawnHow) : Plan :=
  let fixed := if w.dev.isSome then 64 else 32
  c.uniform fixed <|
    let a := c.sval w.x.alw
    let (hs, ctr, gen) := nextHandles c.t.childCtr c.t.childGen w.n
    if c.t.det && w.dev.isSome then .trap 0x1B c.act 0 2
    else if c.t.det && beyondOrdinals c.t.ordinal (hs.map fun h => h.toNat % 65536) then .trap 0x1B c.act 0 1
    else if (match w.dev with | some d => !(c.s.asd c.t.asid).devices.contains d.toNat | none => false) then .trap 0x1A c.act
    else .go (fixed + w.n * a.toNat) 0 fun s =>
      let s1 := hs.zipIdx.foldl (fun s h => c.spawnOne w a h.1 h.2 s) s
      c.next (s1.updTask c.tid fun t =>
        ({ t with childCtr := ctr, childGen := gen }.wrS w.x.dst ((hs.headD 0).setWidth 64)))

def execSpawn (x : SpawnF) (s : State) : Host.Outcome State Fault Refusal :=
  issue s 16 x.g fun c => c.spawn { x := x, n := 1, fan := false, dev := none }

def execSpawnf (x : SpawnF) (n : Fin 4097) (s : State) : Host.Outcome State Fault Refusal :=
  issue s 16 x.g fun c => c.spawn { x := x, n := n.val, fan := true, dev := none }

def execSpawnx (x : SpawnF) (dev : BitVec 10) (s : State) : Host.Outcome State Fault Refusal :=
  issue s 16 x.g fun c => c.spawn { x := x, n := 1, fan := false, dev := some dev }

/-! ### JOIN, JOINANY, TOPUP, RESUME, CANCEL (R102, R120-R122) -/

/-- The handle that an s register names: its low 32 bits. -/
def Ctx.handle (c : Ctx) (r : Fin 64) : BitVec 32 := (c.sval r).setWidth 32

/-- JOIN (R120): it parks, and is served at once where the child is reportable. -/
def execJoin (g : Guard) (dst h : Fin 64) (s : State) : Host.Outcome State Fault Refusal :=
  issue s 8 g fun c => c.uniform 4 <| .go 4 0 fun s => (c.hold (.join (c.handle h) dst) .join s).serveJoins c.tid

def execJoinany (g : Guard) (dst : Fin 64) (s : State) : Host.Outcome State Fault Refusal :=
  issue s 8 g fun c => c.uniform 4 <| .go 4 0 fun s => (c.hold (.joinAny dst) .join s).serveJoins c.tid

/-- TOPUP (R121): the amount leaves the issuer's account and travels; the group waits for the outcome. -/
def execTopup (g : Guard) (res : Bool) (dst h amt : Fin 64) (s : State) : Host.Outcome State Fault Refusal :=
  issue s 8 g fun c => c.uniform 4 <|
    let a := c.sval amt
    .go (4 + a.toNat) 0 fun s =>
      let s1 := c.hold (.topup dst) .join s
      { s1 with credits := s1.credits ++ [{ parent := c.tid, child := c.handle h, amount := a, res := res, lanes := c.group }] }

/-- A paused task runs again from the trapped instruction, or from the replay that trapped; its cells come back to it (R100, R267). -/
def State.unpause (s : State) (tid : Nat) : State :=
  match s.task? tid with
  | none => s
  | some t =>
    let s1 := s.updTask tid fun t => { t with paused := false }
    let s2 := match t.parent with
      | some p => s1.updTask p fun q => q.setChild t.handle fun c => { c with paused := false, reported := false }
      | none => s1
    (s2.capReturn tid).goOn tid

/-- RESUME of a child by its handle, and its status (R122). -/
def State.resumeChild (s : State) (tid : Nat) (h : BitVec 32) : State × BitVec 64 :=
  match (s.task? tid).bind fun t => t.child? h with
  | none => (s, 0xFF)
  | some c =>
    if c.final.isSome then (s, 2)
    else match s.task? c.task with
      | none => (s, 2)
      | some k => if k.paused && k.stop.isNone then (s.unpause k.id, 0) else (s, 1)

/-- CANCEL of a child by its handle, and its status (R105, R122). -/
def State.cancelChild (s : State) (tid : Nat) (h : BitVec 32) : State × BitVec 64 :=
  match (s.task? tid).bind fun t => t.child? h with
  | none => (s, 0xFF)
  | some c =>
    if c.final.isSome then (s, 2)
    else match s.task? c.task with
      | none => (s, 2)
      | some k => if k.stop.isSome then (s, 1) else (s.stopTask k.id .cancelled, 0)

/-- RESUME (R122). -/
def execResume (g : Guard) (dst h : Fin 64) (s : State) : Host.Outcome State Fault Refusal :=
  issue s 8 g fun c => c.uniform 4 <| .go 4 0 fun s =>
    let (s1, st) := s.resumeChild c.tid (c.handle h)
    c.next (c.putS dst st s1)

/-- CANCEL (R122). -/
def execCancel (g : Guard) (dst h : Fin 64) (s : State) : Host.Outcome State Fault Refusal :=
  issue s 8 g fun c => c.uniform 4 <| .go 4 0 fun s =>
    let (s1, st) := s.cancelChild c.tid (c.handle h)
    c.next (c.putS dst st s1)

/-- TOPUP_CREDIT: the n-th credit on its way reaches the child's account; the outcome of R102 is written, a refund before it. With .res a
paused child is resumed whatever the amount: that an amount of 0 does so too is the model's choice (DESIGN CHOICE, log 79). -/
def execTopupCredit (n : Nat) (s : State) : Host.Outcome State Fault Refusal :=
  match s.credits[n]? with
  | none => .next s
  | some cr =>
    let s0 : State := { s with credits := s.credits.eraseIdx n }
    match s0.task? cr.parent with
    | none => .next s0
    | some p =>
      let child := (p.child? cr.child).bind fun c => if c.final.isSome then none else s0.task? c.task
      let (s1, st) : State × BitVec 64 := match p.child? cr.child with
        | none => (s0.updTask cr.parent fun t => t.credit cr.amount, 0xFF)
        | some _ => match child with
          | none => (s0.updTask cr.parent fun t => t.credit cr.amount, 2)
          | some k =>
            if k.isRetired then (s0.updTask cr.parent fun t => t.credit cr.amount, 2)
            else if k.stop.isSome then (s0.updTask cr.parent fun t => t.credit cr.amount, 1)
            else
              let s1 := s0.updTask k.id fun t => t.credit cr.amount
              if k.paused then (if cr.res then s1.unpause k.id else s1, 3) else (s1, 0)
      .next (s1.updTask cr.parent fun t =>
        match t.waits.find? fun w => w.lanes == cr.lanes && (match w.kind with | .topup _ => true | _ => false) with
        | some w => match w.kind with
          | .topup dst => (t.setS dst st).wake w
          | _ => t
        | none => t)

/-- ALWRD (R123): behind its own charge. -/
def execAlwrd (g : Guard) (held : Bool) (dst : Fin 64) (s : State) : Host.Outcome State Fault Refusal :=
  issue s 8 g fun c => c.uniform 1 <| c.simple 1 fun t => t.wrS dst (if held then t.held else t.alw)

/-! ### Plies (R114-R117, R124) -/

/-- Fault 0x19 for the whole issuing group, its reason in DETAIL (R116, R117). -/
def plyTrap (c : Ctx) (reason : Nat) : Plan := .trap 0x19 c.group 0 (BitVec.ofNat 128 reason)

/-- The ply that a register names, within a task's address space and die; the lowest-numbered reason otherwise (R117). -/
def Ctx.plyOf (c : Ctx) (r : Fin 64) : Except Nat Ply :=
  let v := c.sval r
  match (if v.toNat < 2 ^ 32 then c.s.ply? (v.setWidth 32) else none) with
  | none => .error 1
  | some p => if p.die ≠ c.t.die then .error 2 else if p.asid ≠ c.t.asid then .error 3 else .ok p

/-- PLYNEW (R114, R124): of the die's free entries it takes the lowest-numbered (DESIGN CHOICE, log 115). -/
def execPlynew (g : Guard) (dst : Fin 64) (cap : Fin 65) (s : State) : Host.Outcome State Fault Refusal :=
  issue s 8 g fun c => c.uniform 4 <|
    let die := c.t.die
    let free := (List.range 256).find? fun i => !c.s.plies.any fun p => p.die == die && p.idx == i
    if 4 ≤ c.t.plies.length then plyTrap c 5
    else match free with
    | none => plyTrap c 7
    | some i => .go 4 0 fun s =>
      let p : Ply :=
        { die := die, idx := i, gen := Store.get s.plyGens (256 * die + i), asid := c.t.asid, cap := cap.val, members := [c.tid]
          arrived := [], barrier := 0 }
      let s1 : State := { s with plies := s.plies ++ [p] }
      c.next (s1.updTask c.tid fun t => { t with plies := t.plies ++ [p.id] }.wrS dst (p.id.setWidth 64))

/-- PLYJOIN. -/
def execPlyjoin (g : Guard) (src : Fin 64) (s : State) : Host.Outcome State Fault Refusal :=
  issue s 8 g fun c => c.uniform 4 <| match c.plyOf src with
    | .error r => plyTrap c r
    | .ok p =>
      if p.cap ≤ p.members.length then plyTrap c 4
      else if 4 ≤ c.t.plies.length then plyTrap c 5
      else if p.members.contains c.tid then plyTrap c 6
      else .go 4 0 fun s =>
        c.next ((s.updPly p.id fun p => { p with members := p.members ++ [c.tid] }).updTask c.tid fun t =>
          { t with plies := t.plies ++ [p.id] })

/-- PLYLEAVE. -/
def execPlyleave (g : Guard) (src : Fin 64) (s : State) : Host.Outcome State Fault Refusal :=
  issue s 8 g fun c => c.uniform 4 <| match c.plyOf src with
    | .error r => plyTrap c r
    | .ok p =>
      if !p.members.contains c.tid then plyTrap c 8
      else .go 4 0 fun s => c.next (s.plyLeave c.tid p.id)

/-- PLYBAR (R82, R116, R244): the group parks; its task arrives once its stores in ply scope have performed and its batch is applied. While
the task's arrival in the open generation stands, a later group joins its wait. -/
def execPlybar (g : Guard) (src : Fin 64) (s : State) : Host.Outcome State Fault Refusal :=
  issue s 8 g fun c => c.uniform 4 <| match c.plyOf src with
    | .error r => plyTrap c r
    | .ok p =>
      if !p.members.contains c.tid then plyTrap c 8
      else if p.arrived.contains c.tid then .go 4 0 (c.hold (.plywait p.id) .barrier)
      else .go 4 0 fun s => (c.hold (.plybar p.id (s.releaseSet c.t.core c.tid .ply)) .barrier s).serveOrder

/-- SETPRI (R110, R125). -/
def execSetpri (g : Guard) (child : Option (Fin 64)) (prio : BitVec 2) (s : State) : Host.Outcome State Fault Refusal :=
  issue s 8 g fun c => c.uniform 4 <| .go 4 0 fun s =>
    let set (t : Task) : Task := { t with prio := capPrio prio t.ceil }
    c.next (match child with
      | none => s.updTask c.tid set
      | some h => match c.t.child? (c.handle h) with
        | some k => if k.final.isSome then s else s.updTask k.task set
        | none => s)

end Sys2Proof.Machine
end

