-- ==== Sys2Proof/Machine/Supervisor.lean ====
section
/-! DEFINITION. The supervisor core: fault queue registers, task windows and their commands, the policy of an address space
(spec/09_system.md R201-R206, R211, R217). -/

namespace Sys2Proof.Machine

/-- The task placed in a slot. -/
def State.at_ (s : State) (core slot : Nat) : Option Task := s.tasks.find? fun t => t.place == .placed core slot

/-- A command that does not apply is ignored and sets WERR (R205). -/
def State.werr (s : State) (tid : Nat) : State := s.updTask tid fun t => { t with werr := true }

/-- Any command ends a task that was cancelled while its record was outstanding: it retires as CANCELLED (R105, R205). -/
def State.endCancelled (s : State) (tid : Nat) : State := s.updTask tid fun t => { t.clearFault with notice := none }

/-- REPLAY: the record is withdrawn and the lanes of GMASK issue again; what a deferred fault or a replay left is performed first
(R205, R211, R216). -/
def State.cmdReplay (s : State) (tid : Nat) : State :=
  match s.task? tid with
  | none => s
  | some t =>
    if t.fault.isNone then s.werr tid
    else if t.stop.isSome then s.endCancelled tid
    else ((s.updTask tid Task.clearFault).capReturn tid).goOn tid

/-- SKIP of a pending replay: it is dropped; the lanes of an AWAIT or a CAP.ENTER go on behind it (R216). -/
def Task.skipReplay (t : Task) : Task :=
  match t.pendingReplays with
  | [] => t
  | p :: ps => match p.wait with
    | none => { t with pendingReplays := ps }
    | some w => ({ t with pendingReplays := ps }).wake w

/-- SKIP of the memory instruction whose deferred fault is outstanding: it is abandoned, with its result (R211). -/
def Task.skipDeferred (t : Task) : Task :=
  match t.deferred with
  | [] => t
  | r :: rs => { t with deferred := rs.filter fun q => q.inst ≠ r.inst, outs := t.outs.filter fun o => r.out ≠ some o.id }

/-- SKIP of an instruction: the lanes of GMASK advance by the length that the first word at their PC gives, and CAP.ENTERs that
stood there are dropped (R205). A lane that so comes to its meeting point arrives there, as after step 4 of R71 (DESIGN CHOICE, log 80). -/
def State.skipInstr (s : State) (t : Task) (r : FaultRec) : State :=
  s.updTask t.id fun t' =>
    let len (l : Nat) : Nat := match s.fetch t (t.lane l).pc with | .bytes w => lengthOf w | .bad _ _ _ _ => 8
    (({ t' with replayCap := t'.replayCap.filter fun w => w.lanes &&& r.gmask = 0 }.onLanes r.gmask fun l x =>
      { x with pc := x.pc + BitVec.ofNat 32 (len l) }).arrive r.gmask).leaveSets 0 |>.releaseMeets

/-- SKIP: not after a fault of the first word's fetch. A skipped breakpoint is counted where no debugger is attached and the policy is
DEFAULT (R205, R206). -/
def State.cmdSkip (s : State) (tid : Nat) : State :=
  match s.task? tid with
  | none => s
  | some t => match t.fault with
    | none => s.werr tid
    | some r =>
      if t.stop.isSome then s.endCancelled tid
      else if t.fetchFault then s.werr tid
      else
        let a := s.asd t.asid
        let act := (a.policy.getD 0x14 0).toNat
        let s0 := if r.code = 0x14 && (act = 0 || 4 < act) && !(s.vf t.vf).debugger then s.count t.vf 3 else s
        let s1 := s0.updTask tid Task.clearFault
        let s2 := if t.deferred.head?.any fun q => r.deferred && q.pc == r.pc && q.group == r.gmask then s1.updTask tid Task.skipDeferred
          else if t.deferredCopies.head?.any fun o => r.deferred && o.pc == r.pc && o.group == r.gmask then
            s1.updTask tid fun t' => { t' with deferredCopies := t'.deferredCopies.drop 1 }
          else if r.replayed || r.deferred then s1.updTask tid Task.skipReplay
          else match s1.task? tid with
            | none => s1
            | some t' => s1.skipInstr t' r
        ((s2.serveOrder).capReturn tid).goOn tid

/-- TERMINATE: cancelled with status FAULTED (R205). -/
def State.cmdTerminate (s : State) (tid : Nat) : State :=
  match s.task? tid with
  | none => s
  | some t =>
    if t.fault.isNone && !t.halted then s.werr tid
    else if t.stop.isSome then s.endCancelled tid
    else (s.updTask tid fun t => { t.clearFault with halted := false }).stopTask tid .faulted

/-- The TRAP record (KIND 3) that the VF firmware logs for an escalated record (R206, R377). -/
def State.logTrap (s : State) (t : Task) (r : FaultRec) : State :=
  s.event t.vf
    { kind := 3, code := r.code.toNat, asid := t.asid.toNat, task := t.id, addr := r.addr.toNat, prin := t.prin.toNat
      detail := r.detail.toNat, pc := r.pc.toNat, lmask := r.lmask.toNat }

/-- ESCALATE: page faults and permission faults go to the pager or handler, any other record is logged and answered by TERMINATE
(R205, R206); a handler's own fault terminates it (R209). -/
def State.cmdEscalate (s : State) (tid : Nat) : State :=
  match s.task? tid with
  | none => s
  | some t => match t.fault with
    | none => s.werr tid
    | some r =>
      if t.stop.isSome then s.endCancelled tid
      else
        let s1 := s.updTask tid fun t => { t with escalated := true, werr := false }
        if t.handlerFor.isSome then s1.cmdTerminate tid
        else if r.code = 0x05 || r.code = 0x06 then s1
        else (s1.logTrap t r).cmdTerminate tid

/-- HALT: the task stops at this boundary; its cells become ORPHAN (R205, R264). -/
def State.cmdHalt (s : State) (tid : Nat) : State :=
  match s.task? tid with
  | none => s
  | some t =>
    if t.stop.isSome && t.fault.isSome then s.endCancelled tid
    else if t.insp then s.werr tid
    else (s.orphan tid).updTask tid fun t => { t with halted := true, werr := false }

/-- RELEASE (R205, R267). -/
def State.cmdRelease (s : State) (tid : Nat) : State :=
  match s.task? tid with
  | none => s
  | some t =>
    if t.stop.isSome && t.fault.isSome then s.endCancelled tid
    else if !t.halted || t.fault.isSome then s.werr tid
    else (s.updTask tid fun t => { t with halted := false, werr := false }).capReturn tid

/-- A command written to the window of a slot; an empty slot has none. -/
def command (core slot : Nat) (f : State → Nat → State) (s : State) : Host.Outcome State Fault Refusal :=
  match s.at_ core slot with
  | none => .next s
  | some t => .next (f s t.id)

def execReplay (core slot : Nat) (s : State) : Host.Outcome State Fault Refusal := command core slot State.cmdReplay s
def execSkip (core slot : Nat) (s : State) : Host.Outcome State Fault Refusal := command core slot State.cmdSkip s
def execTerminate (core slot : Nat) (s : State) : Host.Outcome State Fault Refusal := command core slot State.cmdTerminate s
def execEscalate (core slot : Nat) (s : State) : Host.Outcome State Fault Refusal := command core slot State.cmdEscalate s
def execHalt (core slot : Nat) (s : State) : Host.Outcome State Fault Refusal := command core slot State.cmdHalt s
def execRelease (core slot : Nat) (s : State) : Host.Outcome State Fault Refusal := command core slot State.cmdRelease s

/-! ### Registers of the control space (R201-R204) -/

/-- A write of FQHEAD: a move past FQTAIL is ignored (R202). -/
def Core.setFqHead (c : Core) (x : BitVec 8) : Core := if (x - c.fqHead).toNat ≤ (c.fqTail - c.fqHead).toNat then { c with fqHead := x } else c

/-- FQHEAD_WRITE. -/
def execFqheadWrite (core : Nat) (value : BitVec 8) (s : State) : Host.Outcome State Fault Refusal :=
  .next (s.updCore core fun c => c.setFqHead value)

/-- Bits [lo+n-1:lo] of a register's value, as a field. -/
def fieldOf {n : Nat} (x : BitVec 64) (lo : Nat) : BitVec n := BitVec.ofNat n (x.toNat >>> lo)

def exmodeOf (x : BitVec 64) (lo : Nat) : ExMode := if x.getLsbD lo then .pause else .unwind

/-- A write of the 8 bytes at an offset of the task control block; the rest is read-only (R203, R213). -/
def Task.writeBlock (t : Task) (off : Nat) (x : BitVec 64) : Task :=
  match off with
  | 0x10 => { t with fpctl := writeFpctl t.fpctl x }
  | 0x28 => { t with zerochk := x &&& 0xFFFFFFFF00000001 }
  | 0x30 => { t with dset := x }
  | 0x38 => { t with oset := x }
  | 0x40 => { t with quant := fieldOf x 0, bbc := fieldOf x 16 }
  | 0x48 => { t with handle := fieldOf x 0 }
  | 0x60 => { t with exmode := exmodeOf x 0, ownExm := exmodeOf x 8, prio := fieldOf x 16, ceil := fieldOf x 24, suspUs := fieldOf x 48 }
  | _ => t

/-- A write of half a lane's control: PC and LINK, or MADDR, DEPTH, MDEPTH and FLAGS[4] (R203, R213). -/
def Lane.write (x : Lane) (high : Bool) (v : BitVec 64) : Lane :=
  if high then { x with meetAddr := fieldOf v 0, depth := fieldOf v 32, meetDepth := fieldOf v 40, meetValid := v.getLsbD 52 }
  else { x with pc := fieldOf v 0, link := fieldOf v 32 }

/-- A write of the two v registers at an offset of the register part; bytes beyond W and N ignore it (R203). -/
def Task.writeV (t : Task) (k : Kernel) (off : Nat) (x : BitVec 64) : Task :=
  [(0, (fieldOf x 0 : BitVec 32)), (1, fieldOf x 32)].foldl (fun t p =>
    let i := off / 4 + p.1
    if i < k.w * k.n then t.setV (i / k.w) (i % k.w) p.2 else t) t

/-- A write of 8 bytes into a task's window while it is stopped for the supervisor. -/
def Task.writeWindow (t : Task) (k : Kernel) (off : Nat) (x : BitVec 64) : Task :=
  if 0x80 ≤ off && off < 0x100 then t.writeBlock (off - 0x80) x
  else if 0x100 ≤ off && off < 0x138 then { t with preds := t.preds.set ((off - 0x100) / 8 + 1) x }
  else if 0x200 ≤ off && off < 0x400 then (if h : (off - 0x200) / 8 < 64 then t.setS ⟨(off - 0x200) / 8, h⟩ x else t)
  else if 0x400 ≤ off && off < 0x800 then
    t.onLanes (laneBit ((off - 0x400) / 16)) fun _ y => y.write ((off - 0x400) / 8 % 2 = 1) x
  else if 0x1000 ≤ off then t.writeV k (off - 0x1000) x
  else t

/-- The command that a code of WCMD names. -/
def windowCommand (code : BitVec 64) : State → Nat → State :=
  match code.toNat with
  | 1 => State.cmdReplay
  | 2 => State.cmdSkip
  | 3 => State.cmdTerminate
  | 4 => State.cmdEscalate
  | 5 => State.cmdHalt
  | 6 => State.cmdRelease
  | _ => State.werr

/-- CONTROL_SPACE_WRITE: an aligned write of 8 bytes into the core control space (R201-R204, R217); MXRST written 1 asks for the
reset. Every other offset ignores it. -/
def execControlSpaceWrite (core : Nat) (off : BitVec 24) (value : BitVec 64) (s : State) : Host.Outcome State Fault Refusal :=
  let o := off.toNat
  if o % 8 ≠ 0 then .next s
  else if o = 0 then .next (s.updCore core fun c => c.setFqHead (fieldOf value 0))
  else if o = 0x10 then .next (s.updCore core fun c => { c with fqIe := value.getLsbD 0 })
  else if o = 0x20008 then .next (if value.getLsbD 0 then s.updCore core fun c => { c with mxrst := true } else s)
  else if 0x400000 ≤ o && o < 0x800000 then
    match s.at_ core ((o - 0x400000) / 0x10000) with
    | none => .next s
    | some t =>
      let w := o % 0x10000
      if w = 8 then .next (windowCommand value s t.id)
      else if w < 0x80 then .next (if t.insp then s else s.werr t.id)
      else if !t.insp then .next (s.werr t.id)
      else .next (s.updTask t.id fun t => t.writeWindow (s.kernelOf t) w value)
  else .next s

/-! ### The supervisor's policy (R206) -/

/-- Actions on a record. -/
inductive Action where
  | terminate | escalate | skip | maskReplay | none
  deriving DecidableEq, Repr

/-- The action for a record of a task: the address space's choice for its code, or the default column; a handler's own fault terminates
it, whatever the policy (R206, R209). -/
def State.action (s : State) (t : Task) (r : FaultRec) : Action :=
  if r.code = 0x0A || r.code = 0x16 then .none
  else if t.handlerFor.isSome then .terminate
  else match ((s.asd t.asid).policy.getD r.code.toNat 0).toNat with
  | 1 => .terminate
  | 2 => .escalate
  | 3 => if t.fetchFault then .terminate else .skip
  | 4 => .maskReplay
  | _ =>
    if r.code = 0x05 || r.code = 0x06 || r.code = 0x13 then .escalate
    else if r.code = 0x14 then (if (s.vf t.vf).debugger then .escalate else .skip) else .terminate

/-- The guard field of the instruction at a record's PC: negation and predicate. -/
def State.guardAt (s : State) (t : Task) (pc : BitVec 32) : Option (Bool × Nat) :=
  match s.fetch t pc with
  | .bad _ _ _ _ => none
  | .bytes w => if w % 4 = 3 then some (bit w 35, bits w 32 3) else some (bit w 41, bits w 38 3)

/-- MASKREPLAY: the guard is made false in the faulting lanes by a window write of its predicate, then REPLAY; TERMINATE where it
cannot help. -/
def State.maskReplay (s : State) (t : Task) (r : FaultRec) (core slot : Nat) : Instr :=
  match s.guardAt t r.pc with
  | none => .terminate core slot
  | some (neg, p) =>
    if p = 0 || r.code = 0x01 || r.deferred then .terminate core slot
    else
      let now := t.preds.get p
      let want := if neg then now ||| r.lmask else now &&& ~~~r.lmask
      if now = want then .replay core slot
      else .controlSpaceWrite core (BitVec.ofNat 24 (0x400000 + 0x10000 * slot + 0x100 + 8 * (p - 1))) want

/-- What the supervisor of a core does next: it acts on the record at FQHEAD as the policy says, then advances FQHEAD; records
whose task has gone on, and notices of tasks without a record, are only read. -/
def State.supervise (s : State) (core : Nat) : Option Instr :=
  let c := s.core core
  if c.fqHead = c.fqTail then none
  else
    let r := c.ring.getD (c.fqHead.toNat % 128) FaultRec.zero
    let slot := r.slot.toNat
    let advance : Instr := .fqheadWrite core (c.fqHead + 1)
    some (match s.at_ core slot with
      | none => advance
      | some t => match t.fault with
        | none => advance
        | some f =>
          if r.code = 0x16 then (if t.stop.isSome then .terminate core slot else advance)
          else if f ≠ r || t.escalated then advance
          else match s.action t r with
            | .terminate => .terminate core slot
            | .escalate => .escalate core slot
            | .skip => .skip core slot
            | .maskReplay => s.maskReplay t r core slot
            | .none => advance)

end Sys2Proof.Machine
end

