-- ==== Sys2Proof/Machine/Placement.lean ====
section
/-! DEFINITION. Placement, stealing, retirement, pre-emption and resumption (spec/01_machine.md R13, R21-R23; spec/05_tasks.md R93-R113,
R397; spec/09_system.md R209, R213-R216; spec/20_host_fabric.md R367; spec/21_bringup.md R396). -/

namespace Sys2Proof.Machine

/-! ### Bind records (R13, R21, R188) -/

/-- Give a bank to a kernel in a mode: what it held in its old mode goes, as BANKSET would let it go, and requests that wait on it raise fault
0x09 (R188, R193, R196). -/
def State.giveBank (s : State) (core : Nat) (k : Kernel) (mode : BankMode) (bank : Nat) : State :=
  let b := (s.core core).banks.getD bank Bank.reset
  if b.mode = mode && b.owner = some k.key then s
  else
    let gone := (s.core core).l1.filter fun l => l.way == bank
    let s1 := if b.mode = .cache && mode ≠ .cache then
        ((gone.filter fun l => l.priv && l.dirty != 0).foldl State.writeBack s).updCore core fun c =>
          { c with l1 := c.l1.filter fun l => l.way ≠ bank }
      else s
    let s2 := s1.updCore core fun c => { c with banks := listUpd c.banks bank fun _ => { mode := mode, owner := some k.key, fifo := [] } }
    if b.mode = .fifo then s2.fifoLeft core bank else s2

/-- Bytes of the register partition of a bound slot. -/
def State.partition (s : State) (b : Bind) : Nat := match s.kernel? b.asid b.kernel with | some k => k.w * k.n * 4 | none => 0

/-- Whether root firmware writes a bind record: the kernel is registered, the slot is empty, the quarter holds the partitions, no
bank is taken from another kernel that has a slot, and the SCRATCH banks hold the kernel's scratch (R13, R188). -/
def State.bindOk (s : State) (b : BindRec) : Bool :=
  match s.kernel? b.asid b.kernel with
  | none => false
  | some k =>
    let c := s.core b.core
    let others := c.binds.filter fun x => x.slot ≠ b.slot
    let quarter := (others.filter fun x => x.slot / 16 = b.slot / 16).foldl (fun n x => n + s.partition x) (k.w * k.n * 4)
    let wanted := b.scratchBanks ||| b.fifoBanks ||| b.cacheBanks
    let foreign := (List.range 16).any fun i => wanted.getLsbD i && (match (c.banks.getD i Bank.reset).owner with
      | some o => o != k.key && others.any fun x => kkey x.asid x.kernel == o
      | none => false)
    let scr := (List.range 16).filter fun i => b.scratchBanks.getLsbD i ||
      (!wanted.getLsbD i && (let y := c.banks.getD i Bank.reset; y.mode = .scratch && y.owner = some k.key))
    decide (b.core < Config.numCores) && decide (b.slot < 64) && (s.at_ b.core b.slot).isNone && decide (quarter ≤ 131072) && !foreign &&
      decide (k.scr ≤ 65536 * scr.length)

/-- Write a bind record, and the core's starvation limit where it comes with one (R367). Where the kernel's SCRATCH banks change, its scratch
becomes undefined (R8, R196). -/
def State.bind (s : State) (b : BindRec) : State :=
  match s.kernel? b.asid b.kernel with
  | none => s
  | some k =>
    let before := (s.core b.core).banksOf k.key .scratch
    let give (m : BitVec 16) (mode : BankMode) (s : State) : State :=
      ((List.range 16).filter fun i => m.getLsbD i).foldl (fun s i => s.giveBank b.core k mode i) s
    let s1 := give b.cacheBanks .cache (give b.fifoBanks .fifo (give b.scratchBanks .scratch s))
    let s2 := s1.updCore b.core fun c =>
      { c with binds := c.binds.filter (fun x => x.slot ≠ b.slot) ++
          [{ slot := b.slot, kernel := b.kernel, vf := b.vf, asid := b.asid, held := false, since := s.clock }], slim := b.slim.getD c.slim }
    if (s2.core b.core).banksOf k.key .scratch = before then s2
    else s2.updCore b.core fun c => c.setScratch k.key ((List.range k.scr).foldl (fun m a => m.set a (Config.freeByte s.tick a)) [])

/-- BIND_RECORD. -/
def execBindRecord (b : BindRec) (s : State) : Host.Outcome State Fault Refusal := .next (if s.bindOk b then s.bind b else s)

/-! ### TASK_PLACEMENT, STEAL_REQUEST (R108, R109, R113, R396, R397) -/

/-- Placed tasks of a spindle. -/
def State.onSpindle (s : State) (core sp : Nat) : Nat := (s.tasks.filter fun t => t.isPlaced && t.core = core && t.slot / 16 = sp).length

/-- The better of two slots: the spindle with fewer tasks, then the lower number. -/
def State.betterSlot (s : State) (core : Nat) (best : Option Nat) (k : Nat) : Option Nat :=
  match best with
  | none => some k
  | some b =>
    let nb := s.onSpindle core (b / 16)
    let nk := s.onSpindle core (k / 16)
    if nk < nb || (nk = nb && k < b) then some k else some b

/-- R397: the free bound slot of a core. -/
def State.pickSlot (s : State) (core : Nat) (t : Task) : Option Nat :=
  (s.freeSlots core t.kernel t.vf t.asid).foldl (s.betterSlot core) none

/-- Cores of a placement, in the order in which they are tried. -/
def coresFor (q : PlaceQueue) (t : Task) : List Nat :=
  if t.det then [logicalCore t.lcores t.ordinal]
  else match q with
    | .localQ c => [c]
    | .dist d => (List.range Config.coresPerDie).map fun i => Config.coresPerDie * d + i
    | .dispatcher => List.range Config.numCores

/-- Whether a task waits in a queue. -/
def Task.waitsIn (t : Task) (q : PlaceQueue) : Bool :=
  match q, t.place with
  | .localQ c, .localQ c' => c = c'
  | .dist d, .distQ d' => d = d'
  | .dispatcher, .dispatch => true
  | _, _ => false

def Task.isWaiting (t : Task) : Bool := match t.place with | .localQ _ | .distQ _ | .dispatch => true | _ => false

/-- Tasks of one launch; the tasks of a skein that no launch started stand for themselves. -/
def State.sameLaunch (s : State) (t u : Task) : Bool :=
  let of_ (x : Task) : Option Nat := ((s.task? x.root).bind (·.launch)).map (·.1)
  t.root = u.root || ((of_ t).isSome && of_ t == of_ u)

/-- In a deterministic launch a lower ordinal that waits on the same core holds a task back (R113). -/
def State.heldByOrdinal (s : State) (t : Task) : Bool :=
  t.det && s.tasks.any fun u => u.det && s.sameLaunch u t && u.isWaiting && u.ordinal.toNat < t.ordinal.toNat &&
    logicalCore u.lcores u.ordinal = logicalCore t.lcores t.ordinal

/-- The first of two records: the higher priority, then the earlier arrival (R109). -/
def earlier (a : Option Task) (t : Task) : Option Task :=
  match a with
  | none => some t
  | some b => if b.prio.toNat < t.prio.toNat || (b.prio = t.prio && t.arrival < b.arrival) then some t else some b

/-- Pages of a private region. -/
def regionPages (pbase size : Nat) : List Nat := (List.range (ceilDiv size 4096)).map fun i => pbase + 4096 * i

/-- Whether a PBASE is one that root firmware may choose: a free, mapped range of the arena (R396); 0 where there is no region. -/
def State.pbaseOk (s : State) (t : Task) (pbase : BitVec 64) : Bool :=
  let k := s.kernelOf t
  let size := k.priv * k.w
  if size = 0 then pbase = 0
  else
    let pages := regionPages pbase.toNat size
    let q := (s.launchOf t).map fun l => s.queue l.vf l.queue
    let inArena := match q with
      | some q => decide (q.arenaBase.toNat ≤ pbase.toNat) && decide (pbase.toNat + 4096 * pages.length ≤ q.arenaBase.toNat + q.arenaSize)
      | none => true
    let free := s.tasks.all fun u => u.id = t.id || u.isRetired || !u.everPlaced || u.asid ≠ t.asid ||
      (let ku := s.kernelOf u
       (regionPages u.pbase.toNat (ku.priv * ku.w)).all fun p => !pages.contains p)
    decide (pbase.toNat % 4096 = 0) && inArena && free && pages.all fun p => match walk s t.asid p with
      | .error _ => false
      | .ok l => l.size = 4096 && l.r && l.w && !l.x && !l.caps && !l.ms && l.cpol = 0 &&
          (match q with | some q => l.sealId = q.arenaSeal | none => true)

/-- Whether some page from a on, of n, satisfies p. -/
def anyPage (p : Nat → Bool) : Nat → Nat → Bool
  | _, 0 => false
  | a, n + 1 => p a || anyPage p (a + 4096) n

/-- Whether a task's region finds room in its arena (R396). -/
def State.hasRoom (s : State) (t : Task) : Bool :=
  s.pbaseOk t 0 || match (s.launchOf t).map fun l => s.queue l.vf l.queue with
    | none => true
    | some q => anyPage (fun a => s.pbaseOk t (BitVec.ofNat 64 a)) (ceilDiv q.arenaBase.toNat 4096 * 4096) (q.arenaSize / 4096)

/-- The record that a queue places now, with its core and slot; a task without a free slot, or without room in its arena, is passed over. -/
def State.placeable (s : State) (q : PlaceQueue) : Option (Task × Nat × Nat) :=
  let target (t : Task) : Option (Nat × Nat) := (coresFor q t).findSome? fun c => (s.pickSlot c t).map fun k => (c, k)
  let cs := s.tasks.filter fun t => t.waitsIn q && t.stop.isNone && !s.heldByOrdinal t && (target t).isSome && s.hasRoom t
  (cs.foldl earlier none).bind fun t => (target t).map fun p => (t, p.1, p.2)

/-- Put a task into a slot: the slice of its function counts from when its tasks first hold the slot (R367). -/
def State.place (s : State) (tid core slot : Nat) : State :=
  (s.updCore core fun c =>
    { c with binds := c.binds.map fun b => if b.slot = slot && !b.held then { b with held := true, since := s.clock } else b }).updTask tid fun t =>
      { t with place := .placed core slot, everPlaced := true, lastSelect := s.clock }

/-- TASK_PLACEMENT: at its first placement a task gets its private region (R396). A checkpoint places nothing (R375). -/
def execTaskPlacement (q : PlaceQueue) (pbase : BitVec 64) (s : State) : Host.Outcome State Fault Refusal :=
  match s.placeable q with
  | none => .next s
  | some (t, core, slot) =>
    if !s.pbaseOk t pbase || s.tierPending then .next s
    else
      let s1 := (s.place t.id core slot).updTask t.id fun t => { t with pbase := pbase }
      .next (match t.launch with
        | some (l, n) => s1.updLaunch l fun x => { x with nodes := x.nodes.map fun y => if y.idx = n then { y with placed := true } else y }
        | none => s1)

/-- The oldest record of a kernel in a die's distributor. -/
def State.oldest (s : State) (die : Nat) (b : Bind) : Option Task :=
  (s.tasks.filter fun t => t.place == .distQ die && t.kernel == b.kernel && t.vf = b.vf && t.asid == b.asid && !t.det).foldl
    (fun (a : Option Task) t => match a with
      | none => some t
      | some u => if t.arrival < u.arrival then some t else some u) none

/-- STEAL_REQUEST: a distributor without records for a kernel with free slots on its die takes the oldest of the next die that has
one (R109). -/
def execStealRequest (die : Nat) (kernel : BitVec 32) (s : State) : Host.Outcome State Fault Refusal :=
  let cores := (List.range Config.coresPerDie).map fun i => Config.coresPerDie * die + i
  let free := cores.findSome? fun c => (s.core c).binds.find? fun b =>
    b.kernel == kernel && (s.freeSlots c b.kernel b.vf b.asid).contains b.slot && (s.oldest die b).isNone
  match free with
  | none => .next s
  | some b => match ([1, 2, 3].map fun i => (die + i) % 4).findSome? fun d => s.oldest d b with
    | none => .next s
    | some t => .next (s.updTask t.id fun t => { t with place := .distQ die })

/-! ### TASK_RETIREMENT (R20, R23, R99, R106, R209, R235, R244, R344, R355) -/

/-- Whether a task may retire. -/
def State.mayRetire (s : State) (t : Task) : Bool :=
  let here := t.stop.isSome || ((t.isPlaced || t.place = .saved) && t.pendingReplays.isEmpty)
  let sc : Scope := if t.viaSpawnx then .domain else .device
  here && !t.isRetired && (t.stop.isSome || (t.everPlaced && t.unexited = 0)) && t.fault.isNone && t.deferred.isEmpty &&
    t.deferredCopies.isEmpty && t.outs.isEmpty && t.sfOps.isEmpty && t.children.all (fun c => c.final.isSome) &&
    !(t.isPlaced && s.unperformed ((s.releaseSet t.core t.id sc).filter fun i => i < t.relMark))

/-- What a retiring task leaves on the cores: its private lines, tiles, generator contexts and layout registers go. -/
def Core.forget (c : Core) (tid : Nat) : Core :=
  let c1 := (c.ownedBy tid).foldl Core.freeTile c
  let c2 := (List.range 8).foldl (fun (c : Core) i => if (c.gen i).owner = some tid then c.setGen i fun _ => GCtx.reset else c) c1
  { c2 with l1 := c2.l1.filter (fun l => !(l.priv && l.task == tid)), lysets := c2.lysets.filter fun x => x.task ≠ tid }

/-- The final status goes to the parent's completion record (R103, R104, R235); a stopping parent goes on with step 4 of R99. -/
def State.report' (s : State) (t : Task) (f : Final) : State :=
  match t.parent with
  | none => s
  | some p =>
    let s1 := s.updTask p fun q => q.setChild t.handle fun c =>
      { c with final := some f, remainder := t.alw, entries := t.dentries, paused := false, seq := s.nextSeq }
    (({ s1 with nextSeq := s1.nextSeq + 1 }).serveJoins p).unwindPlies p

/-- A handler's answer: its remainder goes to the faulting task, and s0[1:0] chooses the command (R209). -/
def State.handlerAnswer (s : State) (t : Task) (f : Final) : State :=
  match t.handlerFor with
  | none => s
  | some ft =>
    let s1 := s.updTask ft fun u => if u.isRetired then u else u.credit t.alw
    if ((s1.task? ft).map fun u => u.fault.isSome && u.escalated) ≠ some true then s1
    else if f ≠ .done then s1.cmdTerminate ft
    else match (t.sreg 0).toNat % 4 with
      | 0 => s1.cmdReplay ft
      | 1 => s1.cmdSkip ft
      | _ => s1.cmdTerminate ft

/-- The retirement of a task. -/
def State.retire (s : State) (tid : Nat) : State :=
  let s1 := (s.cores.flatMap fun c => c.copies.filter fun o => o.task == tid).foldl State.copyCancel s
  let s2 := s1.mxCancelAll tid
  let s3 := (((s2.task? tid).map (·.plies)).getD []).foldl (fun s p => s.plyLeave tid p) s2
  let s4 := s3.updTask tid Task.sweep
  let s5 := match s4.task? tid with
    | none => s4
    | some t => if t.parent.isSome || t.dentries.isEmpty then s4
        else (s4.applyBatch tid t.dentries).updTask tid fun t => { t with dentries := [] }
  match s5.task? tid with
  | none => s5
  | some t =>
    let f := t.stop.getD .done
    let s6 : State := { s5 with cores := s5.cores.map fun c => (if t.isPlaced && t.core = c.id then c.vacate t.slot else c).forget tid }
    let s7 := s6.updTask tid fun t => { t with place := .retired, waits := [], halted := false, suspended := false, saving := none, stop := some f }
    ((s7.report' t f).handlerAnswer t f).serveBanks

/-- A child on another device: its final status and remainder come back with that device's reply (R369; log 15). -/
def State.peerReply (s : State) (t : Task) : State :=
  let rest : Nat := ((Config.freeReg s.tick 30000).toNat * 2 ^ 32 + (Config.freeReg s.tick 30001).toNat) % (t.alw.toNat + 1)
  let f : Final := match t.stop with
    | some g => g
    | none => match (Config.freeReg s.tick 30002).toNat % 4 with | 0 => .done | 1 => .exhausted | 2 => .faulted | _ => .refused
  let alw : BitVec 64 := if f = .refused then t.alw else BitVec.ofNat 64 rest
  let t' : Task := { t with alw := alw }
  (s.updTask t.id fun t => { t with place := .retired, alw := alw, stop := some f }).report' t' f

/-- TASK_RETIREMENT. -/
def execTaskRetirement (task : Nat) (s : State) : Host.Outcome State Fault Refusal :=
  match s.task? task with
  | none => .next s
  | some t => match t.place with
    | .remote d => .next (if d = s.deviceNo then s else s.peerReply t)
    | _ => .next (if s.mayRetire t then s.retire task else s)

/-! ### Saving and resuming (R213-R216, R247, R367) -/

/-- Save the tasks of a set of slots. -/
def State.saveSlots (s : State) (core : Nat) (slots : Mask) : State :=
  (lanesOf slots).foldl (fun s k => match s.at_ core k with
    | none => s
    | some t => if t.stop.isSome then s else s.save t.id) s

/-- PREEMPT (R214). -/
def execPreempt (core : Nat) (slots : Mask) (s : State) : Host.Outcome State Fault Refusal := .next (s.saveSlots core slots)

/-- VF_SLICE_EXPIRY: holders whose tasks have held their slots for a full slice of their VF, gated cycles not counted (R379), are pre-empted,
and the freed slots are bound to a VF with a task or a saved context that waits for one (R367). -/
def execVfSliceExpiry (core : Nat) (slots : Mask) (binds : List BindRec) (s : State) : Host.Outcome State Fault Refusal :=
  let held (k : Nat) : Bool := match (s.core core).binds.find? fun b => b.slot == k with
    | some b => b.held && decide ((s.vf b.vf).slice + s.gatedSpan core k b.since ≤ (s.clock - b.since).toNat) &&
        binds.any fun x => x.core = core && x.slot = k && x.vf ≠ b.vf &&
          s.tasks.any fun t => (t.isWaiting || t.place = .saved) && t.vf = x.vf && t.asid = x.asid && t.kernel = x.kernel
    | none => false
  if !(lanesOf slots).all held then .next s
  else
    let s1 := s.saveSlots core slots
    .next (binds.foldl (fun s b => if slots.getLsbD b.slot && b.core = core && s.bindOk b then s.bind b else s) s1)

/-- LOAD_WITHDRAWAL: a load still outstanding 3,500 cycles into a save becomes a pending replay, with its requests (R214). -/
def execLoadWithdrawal (task out : Nat) (s : State) : Host.Outcome State Fault Refusal :=
  match s.task? task with
  | none => .next s
  | some t => match t.saving, t.outs.find? fun o => o.id == out && o.isLoad && !t.isDeferred o && o.lanes.any (fun a => a.val.isNone) with
    | some since, some o =>
      if (s.clock - since).toNat < Config.withdrawCycles then .next s
      else
        let s1 : State := { s with reqs := s.reqs.filter fun r => !(r.task == task && r.out == some out) }
        let rs := s.reqs.filter fun r => r.task == task && r.out == some out
        let p : Replay := { pc := o.pc, group := o.group, code := 0, out := some o, wait := none, stores := rs, fifo := none }
        .next ((s1.updTask task fun t =>
          { t with outs := t.outs.filter (fun x => x.id ≠ out), pendingReplays := t.pendingReplays ++ [p] }).trySave task)
    | _, _ => .next s

/-- Whether a context may resume in a slot (R216): the generator numbers of GENMASK must be free, with MXP and TILEMASK zero too (log 111). -/
def State.mayResume (s : State) (t : Task) (sv : Saved) (core slot : Nat) : Bool :=
  let c := s.core core
  let mxp := (s.core sv.core).cvs.any fun v => v.state = .paused && v.armer = t.id
  let accp := s.cores.any fun c => c.copies.any fun o => o.task == t.id
  let tilesFree := sv.tiles.all fun p => (c.tileOwner.getD p.1 none).isNone
  let gensFree := sv.gens.all fun p => (c.gen p.1).owner.isNone
  t.stop.isNone && sv.delay = 0 && (s.freeSlots core t.kernel t.vf t.asid).contains slot && gensFree &&
    (if mxp || !sv.tiles.isEmpty then tilesFree && !accp && (!mxp || core = sv.core) else true) &&
    t.plies.all (fun p => bits p.toNat 16 2 = dieOf core) && (!t.det || logicalCore t.lcores t.ordinal = core)

/-- Put back what a save took from the core: tiles, contexts, the paused portion, layout registers (R216, R288, R322). -/
def Core.restore (c : Core) (tid : Nat) (sv : Saved) : Core :=
  let c1 := sv.tiles.foldl (fun (c : Core) p => (c.setTile p.1 p.2).claimTile p.1 tid) c
  let c2 := sv.gens.foldl (fun (c : Core) p => c.setGen p.1 fun _ => p.2) c1
  { c2 with
    unwaited := c2.unwaited ||| sv.unwaited
    cvs := c2.cvs.map fun v =>
      if v.state = .paused && v.armer = tid then { v with state := if v.need ≤ v.signers.length then .issued else .armed } else v
    lysets := c2.lysets.map fun x => if x.task = tid then { x with savedAt := none } else x }

/-- CONTEXT_RESUME: state first, then a saved record returns to the new core's ring, or else the pending replays are performed; waits
that ended meanwhile are served (R92, R216, R247). A checkpoint resumes nothing (R375). -/
def execContextResume (task core slot : Nat) (s : State) : Host.Outcome State Fault Refusal :=
  match s.task? task with
  | none => .next s
  | some t => match t.place, t.saved with
    | .saved, some sv =>
      if !s.mayResume t sv core slot || s.tierPending then .next s
      else
        let s1 := (((s.place task core slot).updCore core fun c => c.restore task sv).dropGlobal core).scratchTouched core t.kkey
        let s2 := s1.updTask task fun t =>
          { t with saved := none, lanes := t.lanes.map fun x => if x.park = .susp then { x with park := .none } else x }
        let s3 := match t.fault with
          | some r =>
            let r' : FaultRec := { r with slot := BitVec.ofNat 6 slot }
            (s2.pushRecord core r').updTask task fun t => { t with fault := some r' }
          | none => s2.goOn task
        .next (((s3.serveOrder.serveJoins task).serveMxWaits).serveBanks)
    | _, _ => .next s

end Sys2Proof.Machine
end

