-- ==== Sys2Proof/Machine/Firmware.lean ====
section
/-! DEFINITION. VF firmware: the pager, handlers, invalidations, the matrix engine reset, and the settings it keeps
(spec/09_system.md R206-R210, R217, R218; spec/08_memory.md R171; spec/20_host_fabric.md R357, R368, R369; spec/21_bringup.md R376). -/

namespace Sys2Proof.Machine

/-! ### Page faults (R207-R209) -/

/-- Whether a task's record belongs to a fault group. -/
def Task.inGroup (t : Task) (asid : BitVec 16) (page : BitVec 64) : Bool :=
  t.asid = asid && t.escalated && match t.fault with
    | some r => (r.code = 0x05 || r.code = 0x06) && r.addr.toNat / 4096 = page.toNat / 4096
    | none => false

/-- The devices that the pages below a table lie on; the list holds the levels left (R173). -/
def tableDevices (s : State) (vf : Nat) : List Nat → Nat → List Nat
  | [], _ => []
  | lev :: rest, t => (List.range 256).flatMap fun i =>
    let e := s.homeRead vf (t + 16 * i) 8
    let frame := bits e 12 40 * 4096
    if !bit e 0 then []
    else if bit e 1 then (if lev = 5 || frame >>> 42 ≠ s.deviceNo.toNat then [] else tableDevices s vf rest frame)
    else if lev < 3 || (lev = 3 && 1 < bits e 9 2) then []
    else [frame >>> 42]

/-- The devices that the translations of an address space reach (R207). -/
def State.reached (s : State) (a : Asd) : List Nat := distinct (tableDevices s a.vf [1, 2, 3, 4, 5] (a.rootFrame.toNat * 4096))

/-- PAGER_FAULT_GROUP: the pager edits page-table words at their physical addresses and answers every member of the group, on every
core, with REPLAY, or with TERMINATE where it cannot serve the page (R208). A group without members is an edit alone. Edits that would map a 65th
device are refused (R207). -/
def execPagerFaultGroup (asid : BitVec 16) (page : BitVec 64) (edits : List (Nat × BitVec 64)) (serve : Bool) (s : State) :
    Host.Outcome State Fault Refusal :=
  let a := s.asd asid
  let members := if a.fmode then [] else (s.tasks.filter fun t => t.inGroup asid page).map (·.id)
  let s1 := edits.foldl (fun s e => s.homeWrite a.vf e.1 8 e.2.toNat) s
  if !a.fmode && decide (64 < (s1.reached a).length) then .next s
  else .next (members.foldl (fun s t => if serve then s.cmdReplay t else s.cmdTerminate t) s1)

/-- The eight words of a fault record (R200). -/
def FaultRec.words (r : FaultRec) : List (BitVec 64) :=
  let b (x : Bool) (i : Nat) : Nat := if x then 2 ^ i else 0
  [BitVec.ofNat 64 (r.code.toNat + r.slot.toNat * 2 ^ 8 + b r.deferred 14 + b r.replayed 15 + r.low.toNat * 2 ^ 16 + r.depth.toNat * 2 ^ 24 +
      r.pc.toNat * 2 ^ 32),
    r.lmask, r.addr, r.alw, r.held, r.gmask, r.detail.setWidth 64, (r.detail >>> 64).setWidth 64]

/-- HANDLER_SPAWN: the registered handler runs for an escalated page fault, at the faulting task's cost; a cost beyond ALW is trap
0x0A at the faulting instruction (R209). Its PARENT reads 0xFFFFFFFF and its ORDINAL 0x0100000000000000, a root's (log 49). -/
def execHandlerSpawn (task : Nat) (s : State) : Host.Outcome State Fault Refusal :=
  match s.task? task with
  | none => .next s
  | some t => match t.fault with
    | none => .next s
    | some r =>
      let a := s.asd t.asid
      let running := s.tasks.any fun u => u.handlerFor = some task && !u.isRetired
      match a.handlerKernel.bind fun k => s.kernel? t.asid k with
      | none => .next (if a.fmode && t.escalated then s.cmdTerminate task else s)
      | some k =>
        if !a.fmode || !t.escalated || running || t.stop.isSome || !(r.code = 0x05 || r.code = 0x06) then .next s
        else
          let cost := 32 + a.handlerAlw.toNat
          if t.alw.toNat < cost then
            .next ((s.updTask task Task.clearFault).exhaust task (t.trapRecord r.pc r.gmask cost))
          else
            let base := Task.fresh s.nextTask t.vf t.asid t.prin k.kid a.handlerEntry k.w a.handlerAlw t.prio t.ceil (.distQ t.die) s.nextSeq
            let h : Task :=
              { base with
                root := t.root, handle := BitVec.allOnes 32, handlerFor := some task, sregs := putArgs r.words }
            let s1 : State := { s with nextTask := s.nextTask + 1, nextSeq := s.nextSeq + 1, tasks := s.tasks ++ [h] }
            .next (s1.updTask task fun t => t.charge cost 0)

/-! ### Invalidations (R210) -/

/-- TLB_INVALIDATION: no TLB of the device holds an entry of the range any more. -/
def execTlbInvalidation (asid : BitVec 16) (lo : BitVec 64) (len : Nat) (s : State) : Host.Outcome State Fault Refusal :=
  let keep (e : TlbEntry) : Bool := !(e.asid = asid && e.va < lo.toNat + len && lo.toNat < e.va + e.leaf.size)
  .next { s with tlb := s.tlb.filter keep, dieTlb := s.dieTlb.filter keep }

/-- SEAL_CACHE_SHOOTDOWN: no seal cache holds a result of the ASID any more. -/
def execSealCacheShootdown (asid : BitVec 16) (s : State) : Host.Outcome State Fault Refusal :=
  .next { s with seals := s.seals.filter fun e => e.asid ≠ asid }

/-! ### Matrix engine reset (R217, R218) -/

/-- The reset: unfinished operations settle to the steps they had added, their participants find fault 0x0D at MX.WAIT, and the core
loses its tiles, convergence registers, generator contexts and paused portions. -/
def State.mxReset (s : State) (core : Nat) : State :=
  let s1 := (List.range 16).foldl (fun (s : State) i =>
    let v := (s.core core).cv i
    if v.state = .idle then s
    else
      let d := Desc.of v.desc
      let ops := if v.signers.isEmpty then [] else (d.operandTiles ((s.core core).progOf d)).map (·.2)
      let s' := (s.updTask v.armer fun t => t.settle v.reserved.toNat ((s.core core).added i)).genDone core v.armer d
      { s' with tasks := s'.tasks.map fun (t : Task) => t.mxFinal core i v.epoch ops (.fault 0x0D 0) }) s
  let s2 := s1.updCore core fun c =>
    { c with
      tiles := List.replicate 16 [], tileOwner := List.replicate 16 none, unwaited := 0, cvs := List.replicate 16 Cv.reset
      gens := List.replicate 8 GCtx.reset, running := none, mxrst := false, mxStepAt := s.clock }
  s2.serveMxWaits.serveBanks

/-- MXRST. -/
def execMxrst (core : Nat) (s : State) : Host.Outcome State Fault Refusal := .next (s.mxReset core)

/-- IDLE (R217). -/
def State.mxIdle (s : State) (core : Nat) : Nat :=
  if (s.core core).running.isSome then min (s.clock - (s.core core).mxStepAt).toNat (2 ^ 32 - 1) else 0

/-- MX_IDLE_EXPIRY: the supervisor firmware resets an engine that has been idle beyond its limit. -/
def execMxIdleExpiry (core : Nat) (s : State) : Host.Outcome State Fault Refusal :=
  .next (if Config.idleLimit < s.mxIdle core then s.mxReset core else s)

/-! ### Settings -/

/-- The header of an event ring that has been set or moved: WPTR, LOST, the six counters, and zero behind them (R377); RPTR is
the owner's. -/
def State.ringHeader (s : State) (vf : Nat) : State :=
  let f := s.vf vf
  let asid := (s.queue vf 0).asid
  let put (o v : Nat) (s : State) : State := s.vWrite8 asid (f.ringBase.toNat + o) v
  (List.range 13).foldl (fun s i => put (24 + 8 * i) ((f.counters.getD i 0).toNat) s) (put 16 f.lost.toNat (put 0 f.wptr.toNat s))

/-- QUEUE_SETTINGS: a queue's ASID, principal and arena, and what the owner sets for its function (R357, R396, R377, R367). -/
def execQueueSettings (vf queue : Nat) (asid : BitVec 16) (prin : BitVec 24) (base : BitVec 64) (size : Nat) (sealId : BitVec 20)
    (own : Option VfSettings) (s : State) : Host.Outcome State Fault Refusal :=
  let s1 := s.updQueue vf queue fun q =>
    { q with asid := asid, prin := prin, arenaBase := base, arenaSize := size, arenaSeal := sealId }
  .next (match own with
    | none => s1
    | some o =>
      let on := o.ringOn && decide (6 ≤ o.ringK) && decide (o.ringK ≤ 20)
      let old := s1.vf vf
      let s2 := s1.updVf vf fun f =>
        { f with
          ringBase := o.ringBase, ringK := o.ringK, ringOn := on
          wptr := if o.ringOn && !f.ringOn then 0 else f.wptr, lost := if o.ringOn && !f.ringOn then 0 else f.lost
          hostBase := o.hostBase, slice := o.slice, spillLimit := o.spillLimit, debugger := o.debugger }
      let s3 := if on && !(old.ringOn && old.ringBase = o.ringBase) then s2.ringHeader vf else s2
      { s3 with selfHosted := o.selfHosted, coupled := o.coupled, tierRanges := o.tierRanges })

/-- ACCESS_CONTROL_TABLE: one of the 16 entries of a queue (R368). -/
def execAccessControlTable (vf queue idx : Nat) (entry : BitVec 64) (s : State) : Host.Outcome State Fault Refusal :=
  .next (s.updQueue vf queue fun q => { q with acl := listUpd q.acl idx fun _ => entry })

/-- ADDRESS_SPACE_DESCRIPTOR: the descriptor, the policy and the handler of an address space; PAGER is refused where the
translations reach more than 64 devices (R171, R206, R207, R209). -/
def execAddressSpaceDescriptor (x : AsdArgs) (s : State) : Host.Outcome State Fault Refusal :=
  let d := x.desc.toNat
  let a : Asd :=
    { asid := x.asid, vf := x.vf, gk := BitVec.ofNat 5 (bits d 115 5), gtab := BitVec.ofNat 51 (bits d 64 51), fmode := bit d 53
      strict := bit d 52, rootFrame := BitVec.ofNat 40 (bits d 12 40), policy := x.policy, handlerKernel := x.handlerKernel
      handlerEntry := x.handlerEntry, handlerAlw := x.handlerAlw, devices := x.devices, suspended := x.suspended, torn := false }
  if !a.fmode && decide (64 < (s.reached a).length) then .next s
  else .next { s with asds := s.asds.filter (fun b => b.asid ≠ x.asid) ++ [a] }

/-- COUNTER_MIRROR: the six counters go into the ring's header (R376, R377). -/
def execCounterMirror (vf : Nat) (s : State) : Host.Outcome State Fault Refusal :=
  let f := s.vf vf
  if !f.ringOn then .next s
  else
    let asid := (s.queue vf 0).asid
    .next ((List.range 6).foldl (fun s i => s.vWrite8 asid (f.ringBase.toNat + 24 + 8 * i) (f.counters.getD i 0).toNat) s)

/-! ### Remote spawns (R369) -/

/-- Whether a request is refused. -/
def State.spawnxRefused (s : State) (r : SpawnxReq) : Bool := s.inboundRefuses r.asid r.kernel

/-- A refused request is dropped and counted; a sender on this device finds REFUSED with the allowance returned. -/
def State.refuseSpawnx (s : State) (r : SpawnxReq) : State :=
  let s1 := s.count (s.asd r.asid).vf 4
  if r.dev ≠ s.deviceNo then s1
  else match s1.tasks.find? fun t => t.parent = some r.sender && t.handle = r.handle && !t.isRetired with
    | none => s1
    | some t => (s1.updTask t.id fun t => { t with place := .retired, stop := some .refused }).report' t .refused

/-- Whether a context is bound on the device and runs: its VF firmware has not suspended it (R369). -/
def State.contextBound (s : State) (asid : BitVec 16) : Bool :=
  !(s.asd asid).suspended && s.cores.any fun c => c.binds.any fun b => b.asid == asid

/-- A delivered child goes to a distributor (R108, R369; which die is open). -/
def State.deliverSpawnx (s : State) (r : SpawnxReq) : State :=
  let die := (if Config.coin s.tick 40001 then 1 else 0) + (if Config.coin s.tick 40002 then 2 else 0)
  match (if r.dev = s.deviceNo then s.tasks.find? fun t => t.parent = some r.sender && t.handle = r.handle && !t.isRetired else none) with
  | some t => { s.updTask t.id fun t => { t with place := .distQ die, arrival := s.nextSeq } with nextSeq := s.nextSeq + 1 }
  | none =>
    if r.dev = s.deviceNo then s
    else
      let w := ((s.kernel? r.asid r.kernel).map (·.w)).getD 16
      let base := Task.fresh s.nextTask (s.asd r.asid).vf r.asid r.prin r.kernel r.entry w r.alw r.prio r.ceil (.distQ die) s.nextSeq
      let t : Task :=
        { base with
          handle := r.handle, ordinal := r.ordinal, viaSpawnx := true, fpctl := r.fpctl
          exmode := if r.exmode then .pause else .unwind, ownExm := if r.ownExm then .pause else .unwind
          sregs := putArgs (r.args.take r.argc) }
      { s with nextTask := s.nextTask + 1, nextSeq := s.nextSeq + 1, tasks := s.tasks ++ [t] }

/-- SPAWNX_REQUEST: a request arrives in the inbound queue of its context, or one that waits there is delivered, oldest first, while
the context is bound and running. While a checkpoint is taken arriving requests are held and waiting ones stay (R375). -/
def execSpawnxRequest (r : SpawnxReq) (s : State) : Host.Outcome State Fault Refusal :=
  if s.tierPending then .next (if s.inbound.contains r then s else { s with heldHost := s.heldHost ++ [.spawnxRequest r] })
  else if s.inbound.contains r then
    match s.inbound.find? fun x => x.asid == r.asid with
    | none => .next s
    | some h =>
      let s1 : State := { s with inbound := s.inbound.erase h }
      if s1.spawnxRefused h then .next (s1.refuseSpawnx h)
      else if s.contextBound h.asid then .next (s1.deliverSpawnx h) else .next s
  else if r.dev = s.deviceNo then .next s
  else if s.spawnxRefused r then .next (s.refuseSpawnx r)
  else if s.contextBound r.asid && !s.inbound.any (fun x => x.asid == r.asid) then .next (s.deliverSpawnx r)
  else .next { s with inbound := s.inbound ++ [r] }

/-- TEARDOWN: the context is torn down; requests that wait for it are refused (R369). -/
def execTeardown (asid : BitVec 16) (s : State) : Host.Outcome State Fault Refusal :=
  let old := s.asd asid
  let s1 : State := { s with asds := s.asds.filter (fun a => a.asid ≠ asid) ++ [{ old with torn := true }] }
  let waiting := s1.inbound.filter fun r => r.asid == asid
  .next (waiting.foldl State.refuseSpawnx { s1 with inbound := s1.inbound.filter fun r => r.asid != asid })

end Sys2Proof.Machine
end

