-- ==== Sys2Proof/Machine/Context.lean ====
section
/-! DEFINITION. What reads as bytes: a task's control block and lane control, the context that a save writes (spec/09_system.md R213),
and the core control space as its supervisor reads it (R201-R204, R217). -/

namespace Sys2Proof.Machine

/-! ### A task's state in memory layout (R203, R213) -/

def ExMode.code : ExMode → Nat
  | .unwind => 0 | .pause => 1

/-- Park reasons; R213 numbers none for the ordering instructions, which read as 0 (log 20). -/
def Park.code : Park → Nat
  | .none | .ordering => 0 | .meeting => 1 | .barrier => 2 | .fifo => 3 | .capsule => 4 | .join => 5 | .await => 6 | .mxWait => 7
  | .sfWait => 8 | .fault => 9 | .susp => 10

/-- The task control block: 128 bytes, the path-packed ORDINAL from its first byte on (R4, R112). -/
def Task.block (t : Task) (k : Kernel) : List (BitVec 8) :=
  let ply (i : Nat) : Nat := (t.plies.getD i 0).toNat
  bytesLE 128 (packBytes
    [(0x00, t.alw.toNat), (0x08, t.held.toNat), (0x10, t.fpctl.toNat), (0x18, ofBytesLE (bytesLE 8 t.ordinal.toNat).reverse), (0x20, t.sealcnt.toNat),
     (0x28, t.zerochk.toNat), (0x30, t.dset.toNat), (0x38, t.oset.toNat), (0x40, t.quant.toNat), (0x42, t.bbc.toNat),
     (0x44, t.childCtr.toNat), (0x46, t.childGen.toNat), (0x48, t.handle.toNat), (0x4C, k.priv), (0x50, ply 0), (0x54, ply 1),
     (0x58, ply 2), (0x5C, ply 3), (0x60, t.exmode.code), (0x61, t.ownExm.code), (0x62, t.prio.toNat), (0x63, t.ceil.toNat),
     (0x64, (t.children.filter (·.counted)).length), (0x66, t.suspUs.toNat)])

/-- The lane control of one lane: 16 bytes; zero beyond the task's width. -/
def Task.laneControl (t : Task) (l : Nat) : List (BitVec 8) :=
  match t.lanes[l]? with
  | none => List.replicate 16 0
  | some x =>
    let flag (b : Bool) (i : Nat) : Nat := if b then 2 ^ i else 0
    bytesLE 16 (packBytes
      [(0, x.pc.toNat), (4, x.link.toNat), (8, x.meetAddr.toNat), (12, x.depth.toNat), (13, x.meetDepth.toNat),
       (14, flag x.exited 0 + flag (x.park ≠ .none) 1 + flag (t.dset.getLsbD l) 2 + flag (t.oset.getLsbD l) 3 + flag x.meetValid 4),
       (15, x.park.code)])

/-- p1 to p7, then 8 bytes of zero. -/
def Task.predBytes (t : Task) : List (BitVec 8) := ((List.range 7).flatMap fun i => bytesLE 8 (t.preds.get (i + 1)).toNat) ++ bytesLE 8 0

def Task.sBytes (t : Task) : List (BitVec 8) := (List.range 64).flatMap fun i => bytesLE 8 (t.sreg (Fin.ofNat 64 i)).toNat

/-- Register n of lane l at (n × W + l) × 4. -/
def Task.vBytes (t : Task) (k : Kernel) : List (BitVec 8) :=
  (List.range (k.w * k.n)).flatMap fun i => bytesLE 4 (t.vreg (i / k.w) (i % k.w)).toNat

def FaultRec.bytes (r : FaultRec) : List (BitVec 8) := r.words.flatMap fun w => bytesLE 8 w.toNat

/-! ### The saved context (R213-R215) -/

/-- Counted instructions that a lane has left before it must wait (R37): the fewest over its outstanding results; 0 where it has none. -/
def Task.leftOf (t : Task) (l : Nat) : Nat :=
  ((((t.outs ++ t.pendingReplays.filterMap (·.out)).filter fun o => o.open_.getLsbD l).map fun o => (o.window.get l).toNat).min?).getD 0

/-- The scoreboard: 4 bits for each lane in 32 bytes, then 32 bytes of zero. -/
def Task.scoreboard (t : Task) : List (BitVec 8) :=
  ((List.range 32).map fun i => BitVec.ofNat 8 (t.leftOf (2 * i) % 16 + t.leftOf (2 * i + 1) % 16 * 16)) ++ List.replicate 32 0

/-- A lane's progress as the data of its replay (R272). -/
def CapStage.progress : CapStage → BitVec 64
  | .waiting => 0
  | .own e | .adopt e | .displaced e => e.setWidth 64
  | .done => BitVec.allOnes 64

/-- Each lane's address and store data of a pending replay. -/
def Replay.accesses (p : Replay) : List (Nat × BitVec 64 × BitVec 64) :=
  let mem (a : LaneAcc) : Nat × BitVec 64 × BitVec 64 := (a.lane, a.va, a.data)
  match p.fifo, p.out, p.wait with
  | some q, _, _ => (lanesOf q.lanes).zipIdx.map fun l => (l.1, 0, (q.vals.getD l.2 0).setWidth 64)
  | none, some o, _ => o.lanes.map mem
  | none, none, some w => match w.kind with
    | .capEnter _ _ ls => ls.map fun (l : CapLane) => (l.lane, l.cellVa, l.stage.progress)
    | _ => []
  | none, none, none => p.stores.flatMap fun r => r.lanes.map mem

/-- A pending replay: its record, with the slot that the task had and the depth at its issue, then 16 bytes for each lane. -/
def Replay.bytes (p : Replay) (t : Task) (slot w : Nat) : List (BitVec 8) :=
  let as := p.accesses
  let m := maskOf (as.map (·.1))
  let low := (as.find? fun a => some a.1 == lowest? m).map (·.2.1)
  { t.record p.code p.pc p.group m (low.getD 0) 0 false false with slot := BitVec.ofNat 6 slot, depth := p.depth t }.bytes ++ (List.range w).flatMap fun l =>
    let a := ((as.find? fun a => a.1 == l).map (·.2)).getD (0, 0)
    bytesLE 8 a.1.toNat ++ bytesLE 8 a.2.toNat

/-- The paused portion of a saved task: the lowest-numbered register's, where it has several (log 96). -/
def State.portion (s : State) (t : Task) (sv : Saved) : Option (Nat × Cv) :=
  ((List.range 16).map fun i => (i, (s.core sv.core).cv i)).find? fun p => p.2.state = .paused && p.2.armer = t.id

/-- Copies of a saved task are still in flight: its account is not in the context yet (R215). -/
def State.accp (s : State) (t : Task) : Bool := s.cores.any fun c => c.copies.any fun o => o.task == t.id

/-- Bits for the numbers of a list. -/
def bitsOf (is : List Nat) : Nat := is.foldl (fun m i => m ||| 2 ^ i) 0

/-- The header of a saved context. -/
def State.contextHeader (s : State) (t : Task) (k : Kernel) (sv : Saved) : List (BitVec 8) :=
  let flag (b : Bool) (i : Nat) : Nat := if b then 2 ^ i else 0
  let tiles := bitsOf (sv.tiles.map (·.1))
  let gens := bitsOf (sv.gens.map (·.1))
  bytesLE 64 (1 + k.w * 2 ^ 24 + k.n * 2 ^ 32 + t.pendingReplays.length % 256 * 2 ^ 40 + gens * 2 ^ 48 + tiles * 2 ^ 56 +
    flag t.fault.isSome 72 + flag (s.portion t sv).isSome 73 + flag (s.accp t) 74 + flag t.paused 75 + flag sv.susp 76 +
    t.id % 2 ^ 32 * 2 ^ 96 + t.asid.toNat * 2 ^ 128 + t.prin.toNat * 2 ^ 144 + t.kernel.toNat * 2 ^ 192 + sv.clock.toNat * 2 ^ 224)

/-- The matrix portion state: the descriptor's address, the register's number, POS and the members' cores, in the order that R213 names
them; its offsets are the model's (DESIGN CHOICE, log 96). -/
def portionBytes (p : Nat × Cv) : List (BitVec 8) :=
  let d := Desc.of p.2.desc
  bytesLE 64 (packBytes [(0, p.2.descVa.toNat), (8, p.1), (12, p.2.pos.toNat), (16, d.cores.getD 0 0), (18, d.cores.getD 1 0)])

/-- The bytes of a saved context. -/
def State.contextImage (s : State) (t : Task) (sv : Saved) : List (BitVec 8) :=
  let k := s.kernelOf t
  List.flatten
    [s.contextHeader t k sv, (t.fault.getD FaultRec.zero).bytes, t.block k, t.predBytes, t.scoreboard,
     (List.range k.w).flatMap t.laneControl, t.sBytes, t.vBytes k, t.pendingReplays.flatMap fun p => p.bytes t sv.slot k.w,
     sv.gens.flatMap fun g => g.2.image, ((s.portion t sv).map portionBytes).getD [],
     sv.tiles.flatMap fun a => (List.range 4096).flatMap fun e => bytesLE 8 (a.2.get e).toNat]

/-! ### The core control space as it reads (R201-R204, R217) -/

/-- The 8 bytes at an offset of a list of bytes. -/
def wordAt (b : List (BitVec 8)) (off : Nat) : BitVec 64 := BitVec.ofNat 64 (ofBytesLE ((b.drop off).take 8))

/-- WSTAT. -/
def Task.wstat (t : Task) : BitVec 64 :=
  let flag (b : Bool) (i : Nat) : Nat := if b then 2 ^ i else 0
  BitVec.ofNat 64 (flag t.fault.isSome 0 + flag t.halted 1 + flag t.suspended 2 + flag t.insp 8 + flag t.werr 9 + t.id * 2 ^ 32)

/-- A read of 8 bytes of a task's window: its record, or else that of its trap 0x0A (R98); WCMD and everything beyond W and N read zero. -/
def Task.readWindow (t : Task) (k : Kernel) (off : Nat) : BitVec 64 :=
  if off = 0 then t.wstat
  else if 0x40 ≤ off && off < 0x80 then wordAt ((t.fault.orElse fun _ => t.trapRec).getD FaultRec.zero).bytes (off - 0x40)
  else if 0x80 ≤ off && off < 0x100 then wordAt (t.block k) (off - 0x80)
  else if 0x100 ≤ off && off < 0x140 then wordAt t.predBytes (off - 0x100)
  else if 0x200 ≤ off && off < 0x400 then t.sreg (Fin.ofNat 64 ((off - 0x200) / 8))
  else if 0x400 ≤ off && off < 0x800 then wordAt (t.laneControl ((off - 0x400) / 16)) (off % 16)
  else if 0x1000 ≤ off then
    let v (i : Nat) : Nat := if i < k.w * k.n then (t.vreg (i / k.w) (i % k.w)).toNat else 0
    BitVec.ofNat 64 (v ((off - 0x1000) / 4) + v ((off - 0x1000) / 4 + 1) * 2 ^ 32)
  else 0

/-- An aligned read of 8 bytes of the core control space by the supervisor of a core; a task's window reads its state as it stands, an empty
slot's and every other offset zero. -/
def State.controlRead (s : State) (core : Nat) (off : BitVec 24) : BitVec 64 :=
  let c := s.core core
  let o := off.toNat
  if o % 8 ≠ 0 then 0
  else if o = 0 then c.fqHead.setWidth 64
  else if o = 8 then c.fqTail.setWidth 64
  else if o = 0x10 then (if c.fqIe then 1 else 0)
  else if 0x10000 ≤ o && o < 0x12000 then wordAt (c.ring.getD ((o - 0x10000) / 64) FaultRec.zero).bytes (o % 64)
  else if o = 0x20000 then BitVec.ofNat 64 (s.mxIdle core * 2 ^ 32) ||| (if c.cvs.any fun v => v.state = .issued then 1 else 0)
  else if o = 0x20008 then (if c.mxrst then 1 else 0)
  else if 0x400000 ≤ o && o < 0x800000 then
    match s.at_ core ((o - 0x400000) / 0x10000) with
    | none => 0
    | some t => t.readWindow (s.kernelOf t) (o % 0x10000)
  else 0

end Sys2Proof.Machine
end

