-- ==== Sys2Proof/Machine/Launch.lean ====
section
/-! DEFINITION. Launch records, graphs, nodes and completion (spec/20_host_fabric.md R357-R365, R368). -/

namespace Sys2Proof.Machine

/-- The fields of a launch record (R358). -/
def LaunchRec.of (sender : Sender) (w : BitVec 512) : LaunchRec :=
  let f (n lo : Nat) : BitVec n := BitVec.ofNat n (w.toNat >>> lo)
  { sender := sender, graph := f 64 0, nodes := f 64 64, allow := f 64 128, cctr := f 64 192, rblk := f 64 256, blist := f 64 320
    cadd := f 32 384, phase := f 2 416, prio := f 2 418, det := bit w.toNat 420, nbuf := f 8 424, seq := f 16 432 }

/-! ### Completion (R364) -/

/-- Whether an access of n bytes of host memory fails: a line of the function's host window over it is in error (R169; log 57). -/
def State.hostBad (s : State) (vf a n : Nat) : Bool :=
  s.ueLines.any fun l => s.zone l == .host && s.hostAddr vf l < a + n && a < s.hostAddr vf l + 128

/-- Write bytes at a completion address: of the host for its launches, else a domain physical address (a resident's launch: log 97). False
where the write fails. -/
def State.outWrite (s : State) (vf : Nat) (sender : Sender) (a : Nat) (n v : Nat) : State × Bool :=
  match sender with
  | .host => if s.hostBad vf a n then (s, false) else ({ s with hostMem := Store.writeLE s.hostMem a n v }, true)
  | .peer _ _ | .resident => if s.isUe (lineAddr a) || s.isUe (lineAddr (a + n - 1)) then (s, false) else (s.homeWrite vf a n v, true)

def State.outRead (s : State) (vf : Nat) (sender : Sender) (a n : Nat) : Nat :=
  match sender with
  | .host => Store.readLE s.hostMem a n
  | .peer _ _ | .resident => s.homeRead vf a n

/-- The result block. -/
def resultBlock (pool : Nat) (nrun : Nat) (seq : BitVec 16) (reason lstat : Nat) : Nat :=
  lstat + reason * 2 ^ 8 + seq.toNat * 2 ^ 16 + nrun * 2 ^ 32 + pool * 2 ^ 64

/-- A completion write has failed: counted, and logged as a memory error (R364; the KIND is the model's choice, log 97). -/
def State.completionFails (s : State) (vf a : Nat) : State := (s.count vf 5).event vf { kind := 2, addr := a / 128 * 128 }

/-- Steps 2 and 3 of R364: the result block, then the counter, which a misaligned address fails. -/
def State.completeRecord (s : State) (vf : Nat) (r : LaunchRec) (pool nrun reason lstat : Nat) : State :=
  let put (s : State) (a n v : Nat) : State := match s.outWrite vf r.sender a n v with
    | (s1, true) => s1
    | (s1, false) => s1.completionFails vf a
  let s1 := if r.rblk = 0 then s else put s r.rblk.toNat 16 (resultBlock pool nrun r.seq reason lstat)
  if r.cctr.toNat % 8 ≠ 0 then s1.completionFails vf r.cctr.toNat
  else put s1 r.cctr.toNat 8 (s1.outRead vf r.sender r.cctr.toNat 8 + r.cadd.toNat)

/-! ### Records (R357, R358, R368) -/

def satInc (x : BitVec 16) : BitVec 16 := if x = BitVec.allOnes 16 then x else x + 1

/-- Whether a queue takes a record of a sender: of a peer as its access-control table says (R368). -/
def Queue.admits (q : Queue) (sender : Sender) : Bool :=
  match sender with
  | .host | .resident => true
  | .peer dev asid => q.acl.any fun e => e.getLsbD 63 && bits e.toNat 0 10 = dev.toNat && bits e.toNat 16 16 = asid.toNat

/-- LAUNCH_RECORD: a whole record enters the queue's ring, or is refused by the access-control table, or completes with QFULL. -/
def execLaunchRecord (vf queue : Nat) (sender : Sender) (rec_ : BitVec 512) (s : State) : Host.Outcome State Fault Refusal :=
  let q := s.queue vf queue
  let r := LaunchRec.of sender rec_
  if s.power ≠ .open_ then .next s
  else if !q.admits sender then .next (s.updQueue vf queue fun q => { q with denied := satInc q.denied })
  else if 256 ≤ q.ring.length then
    .next ((s.updQueue vf queue fun q => { q with full := satInc q.full }).completeRecord vf r r.allow.toNat 0 0 2)
  else .next (s.updQueue vf queue fun q => { q with ring := q.ring ++ [r] })

/-- TORN_WRITE: any other write into the record is discarded and counted. -/
def execTornWrite (vf queue : Nat) (s : State) : Host.Outcome State Fault Refusal :=
  if s.power ≠ .open_ then .next s else .next (s.updQueue vf queue fun q => { q with torn := satInc q.torn })

/-- QSTAT of a queue (R357). -/
def Queue.qstat (q : Queue) : Nat := q.ring.length % 512 + q.full.toNat * 2 ^ 16 + q.denied.toNat * 2 ^ 32 + q.torn.toNat * 2 ^ 48

/-- A read of 8 bytes of a queue's launch window: QSTAT, and zero everywhere else, and before the windows are open (R357, R371). -/
def State.launchWindowRead (s : State) (vf queue off : Nat) : Nat :=
  if s.power = .open_ && off = 0x40 then (s.queue vf queue).qstat else 0

/-! ### What firmware and the host reach without an L1 (R178, R179, R183, R186) -/

/-- Whether firmware may access a line under a principal. -/
def State.fwGranted (s : State) (asid : BitVec 16) (prin : BitVec 24) (l : Leaf) (pa : Nat) (w : Bool) : Bool :=
  let ok (x : BitVec 20) : Bool := x = 0 || (let g := grantTable s asid prin x; if w then g.2 else g.1)
  if s.zone pa = .peer then s.peerOk (pa >>> 42) asid prin l.sealId (!w) w
  else ok l.sealId && (l.bypass || ((s.l2? (lineAddr pa)).map fun k => ok k.sealId).getD true)

/-- The walker's mark on an entry without a place in any TLB. -/
def State.markPte (s : State) (asid : BitVec 16) (va : Nat) (write : Bool) : State :=
  match walk s asid va with
  | .error _ => s
  | .ok l =>
    let w0 := l.w0 ||| 0x80 ||| (if write then 0x100 else 0)
    if w0 = l.w0 then s else s.homeWrite (s.asd asid).vf l.pte 8 w0

/-- What an access within one line comes to: no translation or permission, a denial, an uncorrectable error, or its physical address and
whether it is served beneath L2. -/
inductive Reach where
  | unmapped
  | denied
  | error
  | line (pa : Nat) (beneath : Bool)

/-- Reach a line at its home slice or unit: a denial and an error are counted and logged, a served access leaves the walker's mark. -/
def State.reachLine (s : State) (asid : BitVec 16) (prin : BitVec 24) (va : Nat) (write : Bool) : State × Reach :=
  match walk s asid va with
  | .error _ => (s, .unmapped)
  | .ok l =>
    let pa := l.pa va
    if !(if write then l.w else l.r) then (s, .unmapped)
    else if !s.fwGranted asid prin l pa write then (s.denied 0 asid prin va l.sealId (s.zone pa ≠ .peer), .denied)
    else if s.isUe (lineAddr pa) then (s.ueError 0 asid prin va l.sealId, .error)
    else
      let kind : ReqKind := if write then .store else .load
      let (s1, beneath) := ((s.walked asid va).markPte asid va write).unitOf (s.asd asid).vf (lineAddr pa) l.sealId l.atMs l.policy kind .n64
      (s1, .line pa beneath)

/-! ### Graph tables (R359-R361) -/

/-- 128 bytes of a table at a 128-aligned virtual address, read as a load of the address space would read them; none where untranslatable,
unreadable or denied (R360). -/
def State.fwLine (s : State) (asid : BitVec 16) (prin : BitVec 24) (va : Nat) : State × Option Nat :=
  match s.reachLine asid prin va false with
  | (s1, .unmapped) | (s1, .denied) => (s1, none)
  | (s1, .error) => (s1, some 0)
  | (s1, .line pa beneath) => (s1, some (s1.serveRead (s1.asd asid).vf beneath pa 128))

/-- The lines of a table at some addresses. -/
def State.fwLines (s : State) (asid : BitVec 16) (prin : BitVec 24) : List Nat → State × List (Option Nat)
  | [] => (s, [])
  | va :: r =>
    let (s1, x) := s.fwLine asid prin va
    let (s2, xs) := s1.fwLines asid prin r
    (s2, x :: xs)

/-- A dispatcher write into a table; one into an uncorrectable line is dropped and counted. -/
def State.fwWrite (s : State) (asid : BitVec 16) (va n v : Nat) : State :=
  match walk s asid va with
  | .error _ => s
  | .ok l => if s.isUe (lineAddr (l.pa va)) then s.ueError 0 asid 0 va l.sealId else s.homeWrite (s.asd asid).vf (l.pa va) n v

def nodeVa (graph : BitVec 64) (i : Nat) : Nat := graph.toNat + 128 + 128 * i

/-- A node from its 128 bytes (R359). -/
def Node.of (i w : Nat) : Node :=
  { idx := i, kernel := BitVec.ofNat 32 w, entry := BitVec.ofNat 32 (w >>> 32), nalw := BitVec.ofNat 64 (w >>> 64)
    succ := BitVec.ofNat 64 (w >>> 128), pcnt := bits w 192 16, halt := bit w 224
    args := (List.range 8).map fun k => BitVec.ofNat 64 (w >>> (256 + 64 * k))
    started := false, placed := false, readyAt := 0, task := none, result := none }

/-- Whether the zero fields of a node are zero. -/
def nodeZeros (w : Nat) : Bool := bits w 225 7 = 0 && bits w 232 24 = 0 && bits w 896 128 = 0

/-- Nodes left once every node without a predecessor among them has gone; fuel counts rounds. -/
def acyclicLeft : Nat → List Node → List Node
  | 0, ns => ns
  | n + 1, ns =>
    let keep := ns.filter fun a => ns.any fun b => b.succ.getLsbD a.idx
    if keep.length = ns.length then ns else acyclicLeft n keep

/-- R360: the nodes of a launch, or the first case that rejects it, from its header and the lines of its nodes. -/
def State.judge (s : State) (q : Queue) (r : LaunchRec) (h : Nat) (ws : List (Nat × Option Nat)) : Except Nat (List Node) :=
    let nn := bits h 0 16
    if ws.any fun p => p.2.isNone then .error 1
    else if bits h 16 16 ≠ 1 || nn = 0 || 64 < nn || h >>> 32 ≠ 0 || ws.any (fun p => !nodeZeros (p.2.getD 0)) then .error 2
    else if r.nodes = 0 || (List.range 64).any (fun i => r.nodes.getLsbD i && nn ≤ i) then .error 3
    else
      let ns := ws.map fun p => Node.of p.1 (p.2.getD 0)
      let preds (n : Node) : Nat := (ns.filter fun m => m.succ.getLsbD n.idx).length
      if ns.any fun n => (s.kernel? q.asid n.kernel).isNone || n.entry.toNat % 4 ≠ 0 then .error 4
      else if ns.any fun n => n.succ &&& ~~~r.nodes ≠ 0 || n.pcnt ≠ preds n then .error 5
      else if !(acyclicLeft 65 ns).isEmpty then .error 6
      else if r.nbuf ≠ 0 && (r.blist = 0 || r.blist.toNat % 16 ≠ 0) then .error 7
      else .ok ns

/-- Nodes of a launch's mask that its table has. -/
def LaunchRec.listed (r : LaunchRec) (header : Nat) : List Nat :=
  (List.range 64).filter fun i => r.nodes.getLsbD i && i < bits header 0 16

/-- The header is read first, then the nodes of the mask below NNODES (R360). -/
def State.validate (s : State) (q : Queue) (r : LaunchRec) : State × Except Nat (List Node) :=
  if r.graph.toNat % 128 ≠ 0 then (s, .error 1)
  else match s.fwLine q.asid q.prin r.graph.toNat with
  | (s1, none) => (s1, .error 1)
  | (s1, some h) =>
    let (s2, ws) := s1.fwLines q.asid q.prin ((r.listed h).map (nodeVa r.graph))
    (s2, s2.judge q r h ((r.listed h).zip ws))

/-- The queue whose record is admitted next: the first with a record behind the last one served, in the order of VFs and queues (R361). -/
def State.nextQueue (s : State) : Option Nat :=
  ((List.range 256).map fun i => (s.lastQueue + 1 + i) % 256).find? fun i => !(s.queue (i / 16) (i % 16)).ring.isEmpty

/-- LAUNCH_ADMISSION: root firmware admits the queue's next record, or rejects it; queues take turns (R360, R361). -/
def execLaunchAdmission (vf queue : Nat) (s : State) : Host.Outcome State Fault Refusal :=
  let q := s.queue vf queue
  match q.ring with
  | [] => .next s
  | r :: rest =>
    if s.stopAdmission || s.power ≠ .open_ || s.nextQueue ≠ some (16 * vf + queue) then .next s
    else
      match ({ s.updQueue vf queue fun q => { q with ring := rest } with lastQueue := 16 * vf + queue } : State).validate q r with
      | (s1, .error c) => .next (s1.completeRecord vf r r.allow.toNat 0 c 1)
      | (s1, .ok ns) =>
        let l : Launch :=
          { id := s.nextSeq, vf := vf, queue := queue, record := r, pool := r.allow
            nodes := ns.map fun n => { n with readyAt := s.nextSeq }, halted := false, hostReset := false, done := false }
        let s2 : State := { s1 with launches := s1.launches ++ [l], nextSeq := s1.nextSeq + 1 }
        .next (ns.foldl (fun s n =>
          (s.fwWrite q.asid (nodeVa r.graph n.idx + 26) 2 n.pcnt).fwWrite q.asid (nodeVa r.graph n.idx + 96) 8 0xFF) s2)

/-! ### Phase maintenance (R365) -/

/-- Clean every dirty host-window line of a VF and drop the clean copies: its L2 lines, and the global L1 lines of every core bound
to the address space. -/
def State.fullMaintenance (s : State) (vf : Nat) (asid : BitVec 16) : State :=
  let host := (s.l2.filter fun l => s.zone l.line = .host && l.line >>> 52 = vf).map (·.line)
  let s1 := host.foldl (fun s l => (s.l2Clean vf l).l2Drop l) s
  { s1 with cores := s1.cores.map fun c =>
      if c.binds.any fun b => b.asid == asid then { c with l1 := c.l1.filter fun l => l.priv } else c }

/-- The pieces of a range, each within one line: address and length. -/
def linePieces (off len : Nat) : List (Nat × Nat) :=
  if len = 0 then []
  else (List.range ((off + len - 1) / 128 - off / 128 + 1)).map fun i =>
    let lo := max off (128 * (off / 128 + i))
    (lo, min (off + len) (128 * (off / 128 + i + 1)) - lo)

/-- CLEAN of n bytes of a line from physical address pa: what L2 holds of them dirty goes to memory; the line is clean where they are all
of it. -/
def State.cleanBytes (s : State) (vf pa n : Nat) : State :=
  match s.l2? (lineAddr pa) with
  | none => s
  | some l =>
    if !l.dirty then s
    else if n = 128 then s.l2Clean vf (lineAddr pa)
    else (List.range n).foldl (fun s i => s.rawSet vf (pa + i) (l.data.byte ((pa + i) % 128))) s

/-- INVAL of n bytes of a line: no L2 and no L1 holds them any more but as memory has them; private lines stay. -/
def State.dropBytes (s : State) (vf pa n : Nat) : State :=
  let line := lineAddr pa
  let s1 := if n = 128 then s.l2Drop line
    else { s with l2 := s.l2.map fun l => if l.line = line then
      { l with data := (List.range n).foldl (fun d i => d.setByte ((pa + i) % 128) (s.rawByte vf (pa + i))) l.data } else l }
  { s1 with cores := s1.cores.map fun c => { c with l1 := c.l1.filter fun l => l.line ≠ line || l.priv } }

/-- One entry of the buffer list, for the bytes that it names; one that does not translate is skipped and counted. -/
def State.bufferEntry (s : State) (vf : Nat) (asid : BitVec 16) (va w1 : Nat) : State :=
  let mode := bits w1 40 2
  let pieces := linePieces va (bits w1 0 40)
  if mode = 0 then s
  else if pieces.any fun p => match walk s asid p.1 with | .error _ => true | .ok _ => false then s.count vf 5
  else pieces.foldl (fun s p => match walk s asid p.1 with
    | .error _ => s
    | .ok l =>
      let s1 := if mode = 2 then s else s.cleanBytes vf (l.pa p.1) p.2
      if mode = 1 then s1 else s1.dropBytes vf (l.pa p.1) p.2) s

/-- What the dispatcher does between nodes of different phases. -/
def State.phaseChange (s : State) (vf : Nat) (q : Queue) (r : LaunchRec) : State :=
  if r.nbuf = 0 then s.fullMaintenance vf q.asid
  else (List.range r.nbuf.toNat).foldl (fun s i =>
    let a := r.blist.toNat + 16 * i
    match s.fwLine q.asid q.prin (a / 128 * 128) with
    | (s, none) => s.count vf 5
    | (s, some w) => s.bufferEntry vf q.asid (bits w (8 * (a % 128)) 64) (bits w (8 * (a % 128) + 64) 64)) s

/-! ### Nodes (R361-R363) -/

/-- Change a node of a launch. -/
def Launch.setNode (l : Launch) (i : Nat) (f : Node → Node) : Launch :=
  { l with nodes := l.nodes.map fun n => if n.idx = i then f n else n }

/-- A node ends with a status and a remainder: RESULT and REMAIN, the pool, the successors' counters; HALT keeps the others from
starting (R362). -/
def State.endNode (s : State) (lid i : Nat) (status : Nat) (remainder : BitVec 64) : State :=
  match s.launch? lid with
  | none => s
  | some l =>
    let q := s.queue l.vf l.queue
    let at_ (k : Nat) : Nat := nodeVa l.record.graph k
    let n := (l.nodes.find? fun n => n.idx == i).getD (Node.of i 0)
    let succ := l.nodes.filter fun m => n.succ.getLsbD m.idx
    let s1 := (s.fwWrite q.asid (at_ i + 96) 8 status).fwWrite q.asid (at_ i + 104) 8 remainder.toNat
    let s2 := succ.foldl (fun s m => s.fwWrite q.asid (at_ m.idx + 26) 2 (m.pcnt - 1)) s1
    let halts := status ≠ 0 && n.halt
    let stopped := if halts then l.nodes.filter fun m => !m.started && m.idx ≠ i else []
    let s3 := stopped.foldl (fun s m => (s.fwWrite q.asid (at_ m.idx + 96) 8 6).fwWrite q.asid (at_ m.idx + 104) 8 0) s2
    let s4 := s3.updLaunch lid fun l =>
      let l1 := l.setNode i fun n => { n with started := true, result := some (BitVec.ofNat 8 status) }
      { l1 with
        pool := l1.pool + remainder, halted := l1.halted || halts
        nodes := l1.nodes.map fun m =>
          let m1 := if n.succ.getLsbD m.idx then { m with pcnt := m.pcnt - 1, readyAt := if m.pcnt = 1 then s.nextSeq else m.readyAt } else m
          if stopped.any (fun x => x.idx == m.idx) then { m1 with started := true, result := some 6 } else m1 }
    { s4 with nextSeq := s4.nextSeq + 1 }

/-- The next ready node of a queue: in the order of readiness, then the earlier launch, then the lower number (R361). -/
def State.nextNode (s : State) (vf queue : Nat) : Option (Launch × Node) :=
  let all := (s.launches.filter fun l => l.vf = vf && l.queue = queue && !l.halted && !l.done).flatMap fun l =>
    (l.nodes.filter fun n => !n.started && n.result.isNone && n.pcnt = 0).map fun n => (l, n)
  all.foldl (fun (a : Option (Launch × Node)) x => match a with
    | none => some x
    | some y =>
      if x.2.readyAt < y.2.readyAt || (x.2.readyAt = y.2.readyAt && (x.1.id < y.1.id || (x.1.id = y.1.id && x.2.idx < y.2.idx))) then some x
      else some y) none

/-- Cores that hold a bind record for a kernel, ascending (R113, R362). -/
def State.boundCores (s : State) (kernel : BitVec 32) (vf : Nat) (asid : BitVec 16) : List Nat :=
  (List.range Config.numCores).filter fun c => (s.core c).binds.any fun b => b.kernel == kernel && b.vf == vf && b.asid == asid

/-- NODE_START: the phase rule, the allowance, the root task (R362, R363). A deterministic node without a bound core holds its queue. -/
def execNodeStart (vf queue : Nat) (s : State) : Host.Outcome State Fault Refusal :=
  match s.nextNode vf queue with
  | none => .next s
  | some (l, n) =>
    let q := s.queue vf queue
    let r := l.record
    let lcores := if r.det then s.boundCores n.kernel vf q.asid else []
    if (r.det && lcores.isEmpty) || s.stopAdmission then .next s
    else
      let s1 := if r.phase = q.lastPhase then s else s.phaseChange vf q r
      let s2 := s1.updQueue vf queue fun q => { q with lastPhase := r.phase }
      let take := if n.nalw = 0 then l.pool else n.nalw
      if l.pool.toNat < take.toNat || take = 0 then .next (s2.endNode l.id n.idx 5 0)
      else
        let w := ((s.kernel? q.asid n.kernel).map (·.w)).getD 16
        let base := Task.fresh s2.nextTask vf q.asid q.prin n.kernel n.entry w take r.prio r.prio .dispatch s2.nextSeq
        let t : Task :=
          { base with
            handle := BitVec.allOnes 32, det := r.det, launch := some (l.id, n.idx), lcores := lcores, sregs := putArgs n.args }
        let s3 : State := { s2 with nextTask := s2.nextTask + 1, nextSeq := s2.nextSeq + 1, tasks := s2.tasks ++ [t] }
        .next (s3.updLaunch l.id fun l =>
          { l.setNode n.idx (fun n => { n with started := true, task := some t.id }) with pool := l.pool - take })

/-- NODE_COMPLETION: the root of a node has retired (R362). -/
def execNodeCompletion (launch node : Nat) (s : State) : Host.Outcome State Fault Refusal :=
  match (s.launch? launch).bind fun l => l.nodes.find? fun n => n.idx == node with
  | none => .next s
  | some n => match n.result, n.task.bind s.task? with
    | none, some t => if t.isRetired then .next (s.endNode launch node (t.stop.getD .done).code.toNat t.alw) else .next s
    | _, _ => .next s

/-- LSTAT of a launch that has ended: OK, or HOSTRESET after a hot reset (R364, R370). -/
def Launch.lstat (l : Launch) : Nat := if l.hostReset then 3 else 0

/-- LAUNCH_COMPLETION: every node has a result; a release at system scope, the result block, the counter (R364). A launch that a hot
reset ended writes neither, and is logged with LSTAT HOSTRESET (R370). -/
def execLaunchCompletion (launch : Nat) (s : State) : Host.Outcome State Fault Refusal :=
  match s.launch? launch with
  | none => .next s
  | some l =>
    if l.done || l.nodes.any fun n => n.result.isNone then .next s
    else
      let mine (t : Nat) : Bool := match (s.task? t).bind fun t => (s.task? t.root).bind (·.launch) with
        | some p => p.1 = l.id
        | none => false
      let s1 := s.performAll fun r => mine r.task
      if s1.reqs.any fun r => mine r.task then .next s1
      else
        let s2 := (s1.updLaunch launch fun l => { l with done := true }).released .system
        .next (if l.lstat = 3 then s2.event l.vf { kind := 4, asid := (s2.queue l.vf l.queue).asid.toNat }
          else s2.completeRecord l.vf l.record l.pool.toNat (l.nodes.filter (·.placed)).length 0 l.lstat)

end Sys2Proof.Machine
end

