-- ==== Sys2Proof/Machine/Host.lean ====
section
/-! DEFINITION. What the host and the management port do: the aperture, resets, boot, attestation, freeze, checkpoint, power
(spec/20_host_fabric.md R366, R370; spec/21_bringup.md R371-R375, R379). -/

namespace Sys2Proof.Machine

/-! ### The aperture (R366) -/

/-- An aperture access without translation or permission: counted and logged. -/
def State.apertureEvent (s : State) (vf : Nat) (va : Nat) : State :=
  let q := s.queue vf 0
  (s.count vf 5).event vf { kind := 5, asid := q.asid.toNat, addr := va, prin := q.prin.toNat }

/-- Whether some piece of an aperture access has no translation or lacks the permission. -/
def State.apertureUnmapped (s : State) (vf : Nat) (pieces : List (Nat × Nat)) (write : Bool) : Bool :=
  pieces.any fun p => match walk s (s.queue vf 0).asid p.1 with
    | .error _ => true
    | .ok l => !(if write then l.w else l.r)

/-- An aperture access is counted and logged once, whatever number of its lines fail (R366). -/
def State.apertureNote (s : State) (vf : Nat) (pieces : List (Nat × Nat)) (write : Bool) : State :=
  if s.apertureUnmapped vf pieces write then s.apertureEvent vf ((pieces.head?.map (·.1)).getD 0) else s

/-- One aperture access within a line under queue 0's principal: the physical address it may use, or none, where it reads zeros or is
dropped. -/
def State.apertureLine (s : State) (vf va : Nat) (write : Bool) : State × Option (Nat × Bool) :=
  match s.reachLine (s.queue vf 0).asid (s.queue vf 0).prin va write with
  | (s1, .line pa beneath) => (s1, some (pa, beneath))
  | (s1, _) => (s1, none)

/-- Bytes of the 64 GiB aperture that an access covers. -/
def apertureLen (off len : Nat) : Nat := min len (2 ^ 36 - off)

/-- APERTURE_READ. -/
def execApertureRead (vf : Nat) (off : BitVec 36) (len : Nat) (s : State) : Host.Outcome State Fault Refusal :=
  if s.power ≠ .open_ then .next { s with hostReads := s.hostReads ++ [List.replicate len 0] }
  else
    let pieces := linePieces off.toNat (apertureLen off.toNat len)
    let r := pieces.foldl (fun (a : State × List (BitVec 8)) p =>
      match a.1.apertureLine vf p.1 false with
      | (s', none) => (s', a.2 ++ List.replicate p.2 0)
      | (s', some (pa, bypass)) => (s', a.2 ++ bytesLE p.2 (s'.serveRead (s'.asd (s'.queue vf 0).asid).vf bypass pa p.2)))
      (s.apertureNote vf pieces false, ([] : List (BitVec 8)))
    .next { r.1 with hostReads := r.1.hostReads ++ [r.2] }

/-- APERTURE_WRITE: held while a checkpoint is being taken (R375). -/
def execApertureWrite (vf : Nat) (off : BitVec 36) (data : List (BitVec 8)) (s : State) : Host.Outcome State Fault Refusal :=
  if s.power ≠ .open_ then .next s
  else if s.tierPending then .next { s with heldHost := s.heldHost ++ [.apertureWrite vf off data] }
  else
    let pieces := linePieces off.toNat (apertureLen off.toNat data.length)
    .next (pieces.foldl (fun (s : State) p =>
      match s.apertureLine vf p.1 true with
      | (s', none) => s'
      | (s', some (pa, bypass)) =>
        s'.serveWrite (s'.asd (s'.queue vf 0).asid).vf bypass pa p.2 (ofBytesLE ((data.drop (p.1 - off.toNat)).take p.2))) (s.apertureNote vf pieces true))

/-! ### Resets and boot (R370, R371) -/

/-- The device after a reset of all of it: what stands outside the reset stays (the flash, the fuses, the device's number, memory until
boot zeroes it, the host's memory, the safe tier, the copies of grants that other devices hold). -/
def State.wholeReset (s : State) : State :=
  let r := State.reset
  { r with
    tick := s.tick, deviceNo := s.deviceNo, mem := s.mem, hostMem := s.hostMem, ueLines := s.ueLines, ceLines := s.ceLines, peerGrants := s.peerGrants
    flash := s.flash, fuseDigest := s.fuseDigest, fuseSvn := s.fuseSvn, tier := s.tier, tierRanges := s.tierRanges
    reports := s.reports
    hostReads := s.hostReads, loadResults := s.loadResults, agenda := s.agenda }

/-- A launch window after a reset: its registers are zero, and the host's records are gone. -/
def Queue.hostReset (q : Queue) : Queue :=
  { q with
    ring := q.ring.filter (fun r => r.sender ≠ .host), torn := 0, denied := 0, full := 0 }

/-- End one launch of the host: its running roots are cancelled and its unstarted nodes do not run. -/
def State.endHostLaunch (s : State) (l : Launch) : State :=
  let q := s.queue l.vf l.queue
  let idle := l.nodes.filter fun n => !n.started && n.result.isNone
  let roots := l.nodes.filterMap fun n => if n.result.isNone then n.task else none
  let s1 := idle.foldl (fun (s : State) n =>
    (s.fwWrite q.asid (nodeVa l.record.graph n.idx + 96) 8 6).fwWrite q.asid (nodeVa l.record.graph n.idx + 104) 8 0) s
  let s2 := s1.updLaunch l.id fun l =>
    { l with
      hostReset := true, halted := true
      nodes := l.nodes.map fun n => if !n.started && n.result.isNone then { n with started := true, result := some 6 } else n }
  roots.foldl (fun s t => s.stopTask t .cancelled) s2

/-- A self-hosted device's part of a hot reset: launches of peers and of the resident operating system run on, and the reset is logged. -/
def State.hostLinkReset (s : State) : State :=
  let s1 : State := { s with queues := s.queues.map Queue.hostReset }
  let mine := s1.launches.filter fun l => !l.done && l.record.sender = .host
  let s2 := mine.foldl State.endHostLaunch s1
  (List.range Config.numVfs).foldl (fun (s : State) v => s.event v { kind := 4 }) s2

/-- UPSTREAM_HOT_RESET: of the host's part where the device is self-hosted and not coupled, else of the whole device; a frozen device
ignores it (R374). -/
def execUpstreamHotReset (s : State) : Host.Outcome State Fault Refusal :=
  if s.power = .frozen then .next s
  else if s.selfHosted && !s.coupled then .next s.hostLinkReset
  else .next s.wholeReset

/-- Whether an image is signed under a key and new enough (R371). -/
def FwImage.verified (i : FwImage) (key : List (BitVec 8)) (svn : BitVec 64) : Bool :=
  Config.mldsaVerify key i.sig (Config.sha3 i.bytes) && decide (svn.toNat ≤ i.svn.toNat)

/-- The first step of boot that fails: 1 for the root firmware image, under the fused key; 2 for the others, under root firmware's own. -/
def State.bootFails (s : State) : Option (BitVec 8) :=
  match s.flash with
  | root :: rest =>
    if Config.sha3 root.key ≠ s.fuseDigest || !root.verified root.key s.fuseSvn then some 1
    else if rest.length < 2 || rest.any fun i => !i.verified (Config.ownKey root.bytes) s.fuseSvn then some 2 else none
  | [] => some 1

/-- VERIFIED_BOOT: from power off, the checks, cleared memory and open windows; or recovery with the failing step reported. -/
def execVerifiedBoot (s : State) : Host.Outcome State Fault Refusal :=
  if s.power ≠ .off then .next s
  else match s.bootFails with
  | some step => .next { s with power := .recovery, reports := s.reports ++ [[step]] }
  | none => .next { s with power := .open_, running := s.flash, fwSram := [], harts := List.replicate Config.numHarts Hart.reset, cores := []
                           l2 := [], mem := s.mem.filter fun c => s.zone c.1 = .peer }

/-! ### Attestation (R372) -/

/-- Bytes 0 to 279 of the report of a VF. -/
def State.attestation (s : State) (vf : Nat) (nonce : BitVec 512) : Nat :=
  let digest (i : Nat) : Nat := ((s.running[i]?).map fun f => (Config.sha3 f.bytes).toNat).getD 0
  packBytes [(0, 1), (4, vf), (8, nonce.toNat), (72, digest 0), (136, digest 1), (200, digest 2), (264, s.fuseSvn.toNat),
    (272, s.clock.toNat)]

/-- ATTESTATION_REQUEST: the report and its signature of 4,627 bytes. -/
def execAttestationRequest (vf : Nat) (nonce : BitVec 512) (s : State) : Host.Outcome State Fault Refusal :=
  if s.power ≠ .open_ || Config.numVfs ≤ vf then .next s
  else
    let body := bytesLE 280 (s.attestation vf nonce)
    .next { s with reports := s.reports ++ [body ++ bytesLE 4627 (Config.mldsaSign body).toNat] }

/-! ### Freeze (R373, R374) -/

/-- The contexts that an image carries (R375): tasks that have not retired. -/
def State.contexts (s : State) : List Task := s.tasks.filter fun t => !t.isRetired

/-- The bytes of an image, over which its digest is taken: its cells, each its address and its byte, and behind them the saved contexts, which
lie in HBM as well (R375); the order is the model's (log 116). -/
def State.imageBytes (s : State) (m : Memory) (tasks : List Task) : List (BitVec 8) :=
  (m.flatMap fun c => bytesLE 8 c.1 ++ [c.2]) ++ tasks.flatMap fun t => match t.saved with
    | some sv => s.contextImage t sv
    | none => []

/-- The image of this device's memory as it stands. -/
def State.image (s : State) (complete : Bool) : TierImage :=
  let m := s.mem.filter fun c => s.zone c.1 = .hbm
  { mem := m, tasks := s.contexts, cores := s.cores, launches := s.launches, vfs := s.vfs, plies := s.plies, plyGens := s.plyGens
    credits := s.credits, inbound := s.inbound, ranges := s.tierRanges, digest := Config.sha3 (s.imageBytes m s.contexts), complete := complete }

/-- Where byte o of an image lies in host memory: the ranges, each base and length, take the image in their order (log 116). -/
def tierAt : List (Nat × Nat) → Nat → Option Nat
  | [], _ => none
  | r :: rs, o => if o < r.2 then some (r.1 + o) else tierAt rs (o - r.2)

/-- The bytes of an image that lie at an address of host memory; the ranges begin at byte `start` of it. -/
def tierOffsets (a : Nat) : List (Nat × Nat) → Nat → List Nat
  | [], _ => []
  | r :: rs, start => (if r.1 ≤ a && a < r.1 + r.2 then [start + (a - r.1)] else []) ++ tierOffsets a rs (start + r.2)

/-- The trailer, behind the bytes of HBM: the digest and the word COMPLETE. -/
def tierTrailer (digest : BitVec 512) : List (BitVec 8) := bytesLE 64 digest.toNat ++ "COMPLETE".toList.map fun c => BitVec.ofNat 8 c.toNat

/-- Every clock stops; a checkpoint in progress leaves an incomplete image. -/
def State.freeze (s : State) : State :=
  { s with power := .frozen, tierPending := false, tier := if s.tierPending then some (s.image false) else s.tier }

/-- FRZ_N. -/
def execFrzN (s : State) : Host.Outcome State Fault Refusal := .next s.freeze

/-- FREEZE. -/
def execFreeze (s : State) : Host.Outcome State Fault Refusal := .next s.freeze

/-! ### Checkpoint and restore (R375) -/

/-- Pre-empt every slot. -/
def State.saveAll (s : State) : State := s.cores.foldl (fun s c => s.saveSlots c.id (BitVec.allOnes 64)) s

/-- A byte of the image in host memory. -/
def State.tierByte (s : State) (ranges : List (Nat × Nat)) (o : Nat) : BitVec 8 :=
  match tierAt ranges o with
  | some h => Store.get s.hostMem h
  | none => 0

/-- HBM as the image in host memory holds it. -/
def State.tierMem (s : State) (ranges : List (Nat × Nat)) : Memory :=
  s.hostMem.foldl (fun m c => (tierOffsets c.1 ranges 0).foldl (fun m o =>
    if o < Config.hbmBytes then Store.set m (s.deviceNo.toNat * 2 ^ 42 + o) c.2 else m) m) []

/-- Steps 4 and 5: all of HBM and the trailer go into the ranges of host memory. -/
def State.streamImage (s : State) (i : TierImage) : State :=
  let put (m : Memory) (o : Nat) (b : BitVec 8) : Memory := match tierAt i.ranges o with
    | some h => Store.set m h b
    | none => m
  let blank := s.hostMem.filter fun c => (tierOffsets c.1 i.ranges 0).all fun o => Config.hbmBytes ≤ o
  let m1 := i.mem.foldl (fun m c => put m (c.1 % 2 ^ 42) c.2) blank
  { s with hostMem := (tierTrailer i.digest).zipIdx.foldl (fun m b => put m (Config.hbmBytes + b.2) b.1) m1 }

/-- Steps 3 to 5: every dirty L2 line goes to memory, the image and its trailer are written, what was held is performed next, in its order
and ahead of what arrives later. -/
def State.finishCheckpoint (s : State) : State :=
  let s1 := (s.l2.filter fun l => s.zone l.line = .hbm).foldl (fun (s : State) l => s.l2Clean 0 l.line) s
  let i := s1.image true
  { s1.streamImage i with
    tier := some i, tierPending := false, heldHost := []
    agenda := s1.heldHost.map Turn.event ++ s1.agenda }

/-- CHECKPOINT: the command stops admission and saves every task; it ends when no slot holds a task and no copy is in flight. -/
def execCheckpoint (s : State) : Host.Outcome State Fault Refusal :=
  if s.power ≠ .open_ then .next s
  else
    let s1 : State := { s with stopAdmission := true, tierPending := true }
    let s2 := s1.saveAll
    .next (if s2.tasks.any Task.isPlaced || s2.cores.any (fun c => !c.copies.isEmpty) then s2 else s2.finishCheckpoint)

/-- Put back what a core of the image keeps for saved contexts. -/
def Core.fromImage (c : Core) (i : TierImage) : Core :=
  match i.cores.find? fun k => k.id == c.id with
  | some k => { c with cvs := k.cvs, lysets := k.lysets }
  | none => c

/-- The device with what an image's contexts refer to. -/
def State.withImage (s : State) (i : TierImage) : State := { s with cores := i.cores, vfs := i.vfs }

/-- The first number behind those of the image's tasks and launches. -/
def TierImage.nextSeq (i : TierImage) (n : Nat) : Nat :=
  i.launches.foldl (fun n l => max n (l.id + 1)) (i.tasks.foldl (fun n t => max n (t.arrival + 1)) n)

/-- Whether the image in host memory is whole: its trailer stands there, and its digest is that of the bytes before it. -/
def State.tierWhole (s : State) (i : TierImage) : Bool :=
  i.complete && (List.range 72).map (fun k => s.tierByte i.ranges (Config.hbmBytes + k)) ==
    tierTrailer (Config.sha3 ((s.withImage i).imageBytes (s.tierMem i.ranges) i.tasks))

/-- RESTORE: memory and contexts come back from a complete image whose digest matches, and admission reopens; the contexts then resume
under R216. Anything else refuses it. -/
def execRestore (s : State) : Host.Outcome State Fault Refusal :=
  match s.tier with
  | none => .next s
  | some i =>
    if s.power ≠ .open_ || !s.tierWhole i || s.tasks.any Task.isPlaced then .next s
    else
      let others := s.mem.filter fun c => s.zone c.1 ≠ .hbm
      let s1 := i.cores.foldl (fun (s : State) k => s.updCore k.id fun c => c.fromImage i) s
      .next { s1 with
        mem := (s.tierMem i.ranges).foldl (fun m c => Store.set m c.1 c.2) others
        l2 := s1.l2.filter (fun l => s.zone l.line = .host), tlb := [], dieTlb := [], seals := [], reqs := [], cores := s1.cores.map fun c => { c with l1 := [] }
        tasks := i.tasks, launches := i.launches, vfs := i.vfs, plies := i.plies, plyGens := i.plyGens, credits := i.credits
        inbound := i.inbound, stopAdmission := false
        nextSeq := i.nextSeq s1.nextSeq
        nextTask := i.tasks.foldl (fun n t => max n (t.id + 1)) s1.nextTask }

/-! ### Power (R379) -/

/-- The tasks of a spindle. -/
def State.spindleTasks (s : State) (core sp : Nat) : List Nat :=
  (s.tasks.filter fun t => t.isPlaced && t.core = core && t.slot / 16 = sp).map (·.id)

/-- The cycles gated do not count toward starvation, slices and leases; what began while the spindle was gated has been gated since then
only (R379). -/
def State.ungate (s : State) (core sp : Nat) (since : BitVec 64) : State :=
  let n (start : BitVec 64) : BitVec 64 := s.clock - BitVec.ofNat 64 (max since.toNat start.toNat)
  let mine := s.spindleTasks core sp
  let s1 := mine.foldl (fun (s : State) t => s.updTask t fun t => { t with lastSelect := t.lastSelect + n t.lastSelect }) s
  let owned (pa : Nat) : Bool := mine.any fun t => match s.task? t with
    | some t => t.capLanes.any fun l => l.cell = pa && l.stage.serving
    | none => false
  let s2 := s1.updCore core fun c =>
    { c with binds := c.binds.map fun b => if b.slot / 16 = sp then { b with since := b.since + n b.since } else b }
  { s2 with leases := s2.leases.map fun l => if owned l.1 then (l.1, l.2 + n (l.2 - BitVec.ofNat 64 Config.leaseCycles)) else l }

/-- ISSUE_GATING: a spindle is gated, or released. -/
def execIssueGating (core spindle : Nat) (on : Bool) (s : State) : Host.Outcome State Fault Refusal :=
  let was := ((s.core core).spindles.getD spindle Spindle.reset).gated
  let set (x : Option (BitVec 64)) (s : State) : State :=
    s.updCore core fun c => { c with spindles := listUpd c.spindles spindle fun p => { p with gated := x } }
  match on, was with
  | true, none => .next (set (some s.clock) s)
  | false, some g => .next (set none (s.ungate core spindle g))
  | _, _ => .next s

end Sys2Proof.Machine
end

