-- ==== Sys2Proof/Machine/Loader.lean ====
section
/-! DEFINITION. The loader: the object format, relocations, placement and registration (spec/22_appendix_assembly.md R390-R395). -/

namespace Sys2Proof.Machine

/-- An image's bytes. -/
abbrev Image := List (BitVec 8)

/-- A field of an image. -/
def Image.rd (i : Image) (off n : Nat) : Nat := ofBytesLE ((i.drop off).take n)

/-- A field read as two's complement. -/
def Image.rdS (i : Image) (off n : Nat) : Int := sext (8 * n) (Image.rd i off n)

structure KEntry where
  w : Nat
  n : Nat
  flags : Nat
  priv : Nat
  scr : Nat
  entry : Nat
  csect : Nat
  zeros : Bool
  deriving DecidableEq, Repr

structure Section where
  kind : Nat
  kern : Nat
  size : Nat
  foff : Nat
  zeros : Bool
  deriving DecidableEq, Repr

structure Symbol where
  name : Nat
  sect : Nat
  kind : Nat
  bind : Nat
  value : Int
  kern : Nat
  zeros : Bool
  deriving DecidableEq, Repr

structure Reloc where
  sect : Nat
  kind : Nat
  width : Nat
  off : Nat
  sym : Nat
  addend : Int
  zeros : Bool
  deriving DecidableEq, Repr

/-- The tables of an image (R390). -/
structure Tables where
  kernels : List KEntry
  sections : List Section
  symbols : List Symbol
  relocs : List Reloc
  toff : Nat
  deriving DecidableEq, Repr

def KEntry.of (i : Image) (o : Nat) : KEntry :=
  { w := Image.rd i (o + 4) 1, n := Image.rd i (o + 5) 1, flags := Image.rd i (o + 6) 1, priv := 4 * Image.rd i (o + 8) 2
    scr := 128 * Image.rd i (o + 10) 2, entry := Image.rd i (o + 12) 4, csect := Image.rd i (o + 16) 2
    zeros := Image.rd i (o + 7) 1 = 0 && Image.rd i (o + 18) 14 = 0 }

def Section.of (i : Image) (o : Nat) : Section :=
  { kind := Image.rd i o 1, kern := Image.rd i (o + 2) 2, size := Image.rd i (o + 8) 8, foff := Image.rd i (o + 16) 8
    zeros := Image.rd i (o + 4) 4 = 0 && Image.rd i (o + 24) 8 = 0 }

def Symbol.of (i : Image) (o : Nat) : Symbol :=
  { name := Image.rd i o 4, sect := Image.rd i (o + 4) 2, kind := Image.rd i (o + 6) 1, bind := Image.rd i (o + 7) 1
    value := Image.rdS i (o + 8) 8, kern := Image.rd i (o + 16) 2, zeros := Image.rd i (o + 18) 6 = 0 }

def Reloc.of (i : Image) (o : Nat) : Reloc :=
  { sect := Image.rd i o 2, kind := Image.rd i (o + 2) 1, width := Image.rd i (o + 3) 1, off := Image.rd i (o + 4) 4
    sym := Image.rd i (o + 8) 4, addend := Image.rdS i (o + 16) 8, zeros := Image.rd i (o + 12) 4 = 0 }

/-- The tables that a header names. -/
def Tables.of (i : Image) : Tables :=
  let at_ (o n size : Nat) : List Nat := (List.range n).map fun k => o + size * k
  { kernels := (at_ (Image.rd i 16 8) (Image.rd i 7 1) 32).map (KEntry.of i)
    sections := (at_ (Image.rd i 24 8) (Image.rd i 8 2) 32).map (Section.of i)
    symbols := (at_ (Image.rd i 32 8) (Image.rd i 10 2) 24).map (Symbol.of i)
    relocs := (at_ (Image.rd i 40 8) (Image.rd i 12 4) 24).map (Reloc.of i)
    toff := Image.rd i 48 8 }

/-! ### The form of an image (R390) -/

def KEntry.formed (k : KEntry) (t : Tables) (i : Nat) : Bool :=
  k.flags < 2 && k.zeros && (match t.sections[k.csect]? with | some x => x.kind = 1 && x.kern = i | none => false)

def Section.formed (x : Section) (t : Tables) (len : Nat) : Bool :=
  1 ≤ x.kind && x.kind ≤ 4 && x.zeros && x.foff + x.size ≤ len &&
    (if x.kind = 1 then x.kern < t.kernels.length else x.kern = 0xFFFF)

def Symbol.undefined (x : Symbol) : Bool := x.bind = 2

def Symbol.formed (x : Symbol) (t : Tables) : Bool :=
  1 ≤ x.kind && x.kind ≤ 6 && x.bind ≤ 2 && x.zeros &&
    (if x.undefined || x.kind = 5 || x.kind = 6 then x.sect = 0xFFFF else x.sect < t.sections.length) &&
    (!(x.kind = 1 || x.kind = 5) || x.undefined || x.kern < t.kernels.length)

/-- Bytes from OFF that hold a relocation's field. -/
def Reloc.span (r : Reloc) : Nat := match r.kind with | 1 => r.width / 8 | 4 => 12 | 5 => 4 | _ => 8

def Reloc.formed (r : Reloc) (t : Tables) : Bool :=
  (match r.kind with
    | 1 => r.width = 64 || r.width = 32
    | 2 => r.width = 24
    | 3 => r.width = 16
    | 4 => r.width = 24
    | 5 => r.width = 32
    | _ => false) && r.zeros && r.sym < t.symbols.length &&
    (match t.sections[r.sect]? with
      | some x => r.off + r.span ≤ x.size && (x.kind = 1 || r.kind = 5 || (r.kind = 1 && r.width = 64))
      | none => false)

/-- CheckHeader: an image of type 2 whose tables lie in the file and are formed as R390 says, one code section for each kernel. -/
def headerOk (i : Image) : Bool :=
  let len := i.length
  let rd (o n : Nat) := Image.rd i o n
  let nk := rd 7 1
  64 ≤ len && rd 0 4 = 0x43414241 && rd 4 2 = 1 && rd 6 1 = 2 && 1 ≤ nk && rd 56 8 = 0 &&
    rd 16 8 + 32 * nk ≤ len && rd 24 8 + 32 * rd 8 2 ≤ len && rd 32 8 + 24 * rd 10 2 ≤ len && rd 40 8 + 24 * rd 12 4 ≤ len &&
    rd 48 8 ≤ len &&
    (let t := Tables.of i
     t.sections.all (fun x => x.formed t len) && t.symbols.all (fun x => x.formed t) && t.relocs.all (fun x => x.formed t) &&
     (List.range nk).all (fun k => match t.kernels[k]? with | some e => e.formed t k | none => false) &&
     (t.sections.filter fun x => x.kind = 1).length = nk)

/-- The limits of a kernel entry (R14, R185). -/
def KEntry.ok (k : KEntry) : Bool :=
  (k.w = 16 || k.w = 32 || k.w = 64) && 8 ≤ k.n && k.n ≤ 192 && k.n % 8 = 0 && k.priv ≤ 65536 && k.scr ≤ 1048576

/-! ### Placement (R393) -/

def up4k (n : Nat) : Nat := ceilDiv n 4096 * 4096

/-- Sections of a kind with their numbers, in table order. -/
def Tables.ofKind (t : Tables) (kind : Nat) : List (Nat × Section) :=
  ((List.range t.sections.length).zip t.sections).filter fun p => p.2.kind = kind

/-- Address of every section: code by kernel, then data, cells and patterns. -/
def Tables.place (t : Tables) (base : Nat) : List (Nat × Nat) :=
  let code := (t.ofKind 1).map fun p => (p.1, base + p.2.kern * 2 ^ 32)
  let rest := t.ofKind 2 ++ t.ofKind 3 ++ t.ofKind 4
  let laid := rest.foldl (fun (a : List (Nat × Nat) × Nat) p => (a.1 ++ [(p.1, a.2)], a.2 + up4k p.2.size))
    (([] : List (Nat × Nat)), base + t.kernels.length * 2 ^ 32)
  code ++ laid.1

def addrOf (place : List (Nat × Nat)) (i : Nat) : Nat := ((place.find? fun p => p.1 == i).map (·.2)).getD 0

/-- End of the last section. -/
def Tables.top (t : Tables) (base : Nat) : Nat :=
  (t.place base).foldl (fun n p => max n (p.2 + up4k ((t.sections[p.1]?).map (·.size) |>.getD 0))) base

/-- Whether a table of a walk maps some page of [lo, hi). -/
def anyMapped (s : State) (vf lo hi : Nat) : List Nat → Nat → Nat → Bool
  | [], _, _ => false
  | lev :: rest, table, va =>
    (List.range 256).any fun i =>
      let size := 2 ^ (52 - 8 * lev)
      let a := va + size * i
      let e := s.homeRead vf (table + 16 * i) 8
      if hi ≤ a || a + size ≤ lo || !bit e 0 then false
      else if bit e 1 then lev < 5 && anyMapped s vf lo hi rest (bits e 12 40 * 4096) a else 3 ≤ lev

/-- Place fails with SPACE: a base off its boundary, a range too small or overlapping a mapped page, a code section beyond 2^32. -/
def State.noSpace (s : State) (x : LoadArgs) (t : Tables) : Bool :=
  let base := x.base.toNat
  let a := s.asd x.asid
  base % 2 ^ 32 ≠ 0 || 2 ^ 52 < base + x.size || base + x.size < t.top base || t.sections.any (fun y => y.kind = 1 && 2 ^ 32 < y.size) ||
    anyMapped s a.vf base (base + x.size) [1, 2, 3, 4, 5] (a.rootFrame.toNat * 4096) 0

/-! ### Relocations (R392, R394) -/

/-- What a relocation stands on: its symbol's address, the instruction's address, its kernel's CBASE and code size. -/
structure Fix where
  sym : Symbol
  s : Int
  p : Int
  kern : Nat
  cbase : Int
  csize : Int

def Tables.fix (t : Tables) (place : List (Nat × Nat)) (r : Reloc) : Fix :=
  let y := t.symbols.getD r.sym { name := 0, sect := 0, kind := 0, bind := 2, value := 0, kern := 0, zeros := false }
  let x := t.sections.getD r.sect { kind := 0, kern := 0, size := 0, foff := 0, zeros := false }
  { sym := y
    s := if y.kind = 5 || y.kind = 6 then y.value else (addrOf place y.sect : Int) + y.value
    p := (addrOf place r.sect : Int) + r.off, kern := x.kern, cbase := addrOf place r.sect, csize := x.size }

/-- The value of a relocation, before its division by 4. -/
def Reloc.raw (r : Reloc) (f : Fix) : Int :=
  match r.kind with
  | 1 => if r.width = 64 then f.s + r.addend else f.s + r.addend - f.cbase
  | 2 | 3 => f.s + r.addend - f.p
  | _ => f.s + r.addend

def Reloc.isBranch (r : Reloc) : Bool := r.kind = 2 || r.kind = 3
def Reloc.isEntry (r : Reloc) : Bool := r.kind = 1 && r.width = 32

def Reloc.value (r : Reloc) (f : Fix) : Int := if r.isBranch then r.raw f / 4 else r.raw f

/-- Whether a relocation's target lies outside P's kernel. -/
def Reloc.crosses (r : Reloc) (f : Fix) : Bool :=
  let inCode (a : Int) : Bool := f.cbase ≤ a && a < f.cbase + f.csize
  if r.isBranch then !inCode (f.s + r.addend) else if r.isEntry then !(f.sym.kind = 1 && f.sym.kern = f.kern) else false

def Reloc.fits (r : Reloc) (t : Tables) (f : Fix) : Bool :=
  let v := r.value f
  match r.kind with
  | 1 => if r.width = 64 then true else decide (0 ≤ v) && decide (v < 2 ^ 32)
  | 2 | 4 => decide (-(2 ^ 23) ≤ v) && decide (v < 2 ^ 23)
  | 3 => decide (-(2 ^ 15) ≤ v) && decide (v < 2 ^ 15)
  | _ => f.sym.kind = 5 && decide (0 ≤ v) && decide (v < ((t.kernels[f.sym.kern]?).map (fun k => (k.scr : Int))).getD 0)

/-- The status with which a relocation is rejected. -/
def Reloc.rejected (r : Reloc) (t : Tables) (f : Fix) : Option Nat :=
  if f.sym.undefined then some 2
  else if (r.isBranch || r.isEntry) && r.raw f % 4 ≠ 0 then some 4
  else if r.crosses f then some 5
  else if !r.fits t f then some 3 else none

/-- Replace width bits from bit lo of the bytes at an offset. -/
def patch (c : List (BitVec 8)) (off nbytes lo width v : Nat) : List (BitVec 8) :=
  let old := ofBytesLE ((c.drop off).take nbytes)
  let new := old - bits old lo width * 2 ^ lo + v % 2 ^ width * 2 ^ lo
  c.take off ++ bytesLE nbytes new ++ c.drop (off + nbytes)

/-- Write a relocation's value into its section's contents. -/
def Reloc.apply (r : Reloc) (f : Fix) (c : List (BitVec 8)) : List (BitVec 8) :=
  let v := wrap 64 (r.value f)
  match r.kind with
  | 1 => patch c r.off (r.width / 8) 0 r.width v
  | 2 => patch c r.off 8 14 24 v
  | 3 => patch c r.off 8 46 16 v
  | 4 => patch c r.off 12 72 24 v
  | _ => patch c r.off 4 0 32 v

/-! ### Results (R395) -/

/-- Bytes of a symbol's name, to the first zero byte, at most 32. -/
def symName (i : Image) (t : Tables) (y : Symbol) : List (BitVec 8) := ((i.drop (t.toff + y.name)).takeWhile (· ≠ 0)).take 32

def loadRecord (status kind width reloc value sym : Nat) (name : List (BitVec 8)) (kid cbase : Nat) : List (BitVec 8) :=
  bytesLE 64 (packBytes [(0, status), (1, kind), (2, width), (4, reloc), (8, value), (16, sym), (20, ofBytesLE name), (52, kid), (56, cbase)])

def loadFailed (status : Nat) : List (BitVec 8) := loadRecord status 0 0 0xFFFFFFFF 0 0 [] 0 0

/-- The record of a rejected relocation. A value that is not an integer, or of an undefined symbol, is open (log 33). -/
def relocFailed (tick status : Nat) (i : Image) (t : Tables) (n : Nat) (r : Reloc) (f : Fix) : List (BitVec 8) :=
  let free := (Config.freeReg tick 50000).toNat + 2 ^ 32 * (Config.freeReg tick 50001).toNat
  let v := if status = 2 || (status = 4 && r.isBranch) then free else wrap 64 (r.value f)
  loadRecord status r.kind r.width n v r.sym (symName i t f.sym) 0 0

/-! ### Mapping (R172, R173, R393) -/

/-- The words of a leaf that the loader writes. -/
def leafWord (kind frame : Nat) : Nat :=
  1 + (match kind with | 1 => 0x14 | 2 => 0x0C | 3 => 0x2C | _ => 0x04) + frame / 4096 * 4096

/-- Map one 4 KiB page, taking frames for the tables that are missing on the way; frames of tables are cleared. -/
def mapPage (vf va : Nat) (w0 w1 : Nat) : List Nat → Nat → State × List Nat → State × List Nat
  | [], _, a => a
  | lev :: rest, table, (s, free) =>
    let ea := table + 16 * bits va (52 - 8 * lev) 8
    let e := s.homeRead vf ea 8
    if lev = 5 then ((s.homeWrite vf ea 8 w0).homeWrite vf (ea + 8) 8 w1, free)
    else if bit e 0 && bit e 1 then mapPage vf va w0 w1 rest (bits e 12 40 * 4096) (s, free)
    else match free with
      | [] => (s, free)
      | f :: fs =>
        let s1 := ((s.homeWrite vf f 4096 0).homeWrite vf ea 8 (3 + f / 4096 * 4096)).homeWrite vf (ea + 8) 8 0
        mapPage vf va w0 w1 rest f (s1, fs)

/-- Pages of an image: virtual address, section kind, and the bytes that it holds. -/
def pagesOf (t : Tables) (place : List (Nat × Nat)) (contents : List (Nat × List (BitVec 8))) : List (Nat × Nat × List (BitVec 8)) :=
  contents.flatMap fun p =>
    let kind := ((t.sections[p.1]?).map (·.kind)).getD 2
    (List.range (ceilDiv p.2.length 4096)).map fun i => (addrOf place p.1 + 4096 * i, kind, (p.2.drop (4096 * i)).take 4096)

/-- Map and fill the pages: a page takes the next frame, and tables take theirs behind the pages'. -/
def State.mapAll (s : State) (x : LoadArgs) (pages : List (Nat × Nat × List (BitVec 8))) : State :=
  let a := s.asd x.asid
  let root := a.rootFrame.toNat * 4096
  let tables := x.frames.drop pages.length
  ((pages.zip x.frames).foldl (fun (acc : State × List Nat) p =>
    let s1 := acc.1.homeWrite a.vf p.2 p.1.2.2.length (ofBytesLE p.1.2.2)
    mapPage a.vf p.1.1 (leafWord p.1.2.1 p.2) x.sealId.toNat [1, 2, 3, 4, 5] root (s1, acc.2)) (s, tables)).1

/-- Levels, of those from the table on, whose entry for an address points to no table. -/
def missingLevels (s : State) (vf va : Nat) : List Nat → Nat → List Nat
  | [], _ => []
  | lev :: rest, table =>
    let e := s.homeRead vf (table + 16 * bits va (52 - 8 * lev) 8) 8
    if bit e 0 && bit e 1 then missingLevels s vf va rest (bits e 12 40 * 4096) else lev :: rest

/-- The tables that are missing on the way to the pages; pages of one table share it. -/
def State.missingTables (s : State) (x : LoadArgs) (pages : List (Nat × Nat × List (BitVec 8))) : Nat :=
  let a := s.asd x.asid
  (pages.flatMap fun p => (missingLevels s a.vf p.1 [1, 2, 3, 4] (a.rootFrame.toNat * 4096)).map
    fun lev => (lev, p.1 / 2 ^ (52 - 8 * lev))).eraseDups.length

/-- Frames of local HBM, each given once, enough for the pages and the tables that are missing. -/
def State.framesOk (s : State) (x : LoadArgs) (pages : List (Nat × Nat × List (BitVec 8))) : Bool :=
  pages.length + s.missingTables x pages ≤ x.frames.length && x.frames.all (fun f => f % 4096 = 0 && s.zone f = .hbm) &&
    decide x.frames.Nodup

/-- Contents of every section with every relocation written. -/
def Tables.contents (t : Tables) (i : Image) (place : List (Nat × Nat)) : List (Nat × List (BitVec 8)) :=
  ((List.range t.sections.length).zip t.sections).map fun p =>
    (p.1, (t.relocs.filter fun r => r.sect = p.1).foldl (fun c r => r.apply (t.fix place r) c) ((i.drop p.2.foff).take p.2.size))

/-- Kernel k of an image, registered under id B + k. -/
def Tables.register (t : Tables) (x : LoadArgs) : List Kernel :=
  ((List.range t.kernels.length).zip t.kernels).map fun p =>
    { kid := x.kid + BitVec.ofNat 32 p.1, asid := x.asid, cbase := x.base + BitVec.ofNat 64 (p.1 * 2 ^ 32), w := p.2.w, n := p.2.n
      priv := p.2.priv, scr := p.2.scr, entry := BitVec.ofNat 32 p.2.entry }

/-- LOAD: the result is appended to the loader's records; pages and kernels come all or none. Frames that are too few are no load
(log 33). -/
def execLoad (x : LoadArgs) (s : State) : Host.Outcome State Fault Refusal :=
  let done (r : List (BitVec 8)) (s : State) : State := { s with loadResults := s.loadResults ++ [r] }
  if s.power ≠ .open_ then .next s
  else if !headerOk x.image then .next (done (loadFailed 1) s)
  else
    let t := Tables.of x.image
    let nk := t.kernels.length
    if t.kernels.any (fun k => !k.ok) || 2 ^ 32 < x.kid.toNat + nk ||
        (List.range nk).any (fun k => (s.kernel? x.asid (x.kid + BitVec.ofNat 32 k)).isSome) then .next (done (loadFailed 7) s)
    else if s.noSpace x t then .next (done (loadFailed 6) s)
    else
      let place := t.place x.base.toNat
      match ((List.range t.relocs.length).zip t.relocs).findSome? fun p =>
          ((p.2.rejected t (t.fix place p.2)).map fun c => (c, p.1, p.2)) with
      | some (c, n, r) => .next (done (relocFailed s.tick c x.image t n r (t.fix place r)) s)
      | none =>
        let pages := pagesOf t place (t.contents x.image place)
        if !s.framesOk x pages then .next s
        else
          let s1 := s.mapAll x pages
          .next (done (loadRecord 0 0 0 0xFFFFFFFF 0 0 [] x.kid.toNat x.base.toNat) { s1 with kernels := s1.kernels ++ t.register x })

end Sys2Proof.Machine
end

