-- ==== Sys2Proof/Machine/Select.lean ====
section
/-! DEFINITION. What a spindle issues: lane groups and their keys, the step across FILL4, readiness, the choice of a task and the
co-issue through the second port (spec/02_encoding.md R25-R27, R37; spec/04_control.md R69-R74; spec/05_tasks.md R110, R119;
spec/14_program_walk.md R280; spec/20_host_fabric.md R367). -/

namespace Sys2Proof

/-! ### Registers that an instruction names (R37, R280) -/

/-- What two instructions read and write together. -/
def SlotSets.join (x y : SlotSets) : SlotSets :=
  { dst := x.dst ++ y.dst, pdst := x.pdst.or y.pdst, src := x.src ++ y.src, psrc := x.psrc ++ y.psrc, mul := x.mul || y.mul }

/-- A vector-ALU instruction with these destinations and sources. -/
def setsOf (g : Guard) (dst src : List Reg) : SlotSets := { dst := dst, pdst := none, src := src, psrc := [g.p], mul := false }

def Alu1.sets (x : Alu1) : SlotSets := setsOf x.g (x.dst.span x.ty) (x.a.span x.ty)
def Alu2.sets (x : Alu2) : SlotSets := setsOf x.g (x.dst.span x.ty) (x.a.span x.ty ++ x.b.span x.ty)
def Alu3.sets (x : Alu3) : SlotSets := setsOf x.g (x.dst.span x.ty) (x.a.span x.ty ++ x.b.span x.ty ++ x.c.span x.ty)

/-- Destinations and sources of an instruction of opcodes 0x40 to 0x6E or a pair (R73); none for any other instruction. -/
def Instr.aluSets : Instr → Option SlotSets
  | .iadd x | .isub x | .iadds _ x | .imul x | .imulh x | .imin x | .imax x | .and x | .or x | .xor x | .andn x | .shl x | .shr x
  | .sar x | .fadd x | .fsub x | .fmul x | .fmin x | .fmax x => some x.sets
  | .imad x | .dot4 _ x | .ffma x | .fdot2 x => some x.sets
  | .iabs _ x | .clz x | .popc x | .brev x | .mov x | .fneg x | .fabs x | .fclass x | .frnd _ x => some x.sets
  | .bfx x => some (setsOf x.g (x.dst.span x.ty) (x.a.span x.ty))
  | .bfi x => some (setsOf x.g (x.dst.span x.ty) (x.a.span x.ty ++ x.b.span x.ty))
  | .icmp x => some (Slot.icmp x).sets
  | .fcmp x => some (Slot.fcmp x).sets
  | .plog x => some (Slot.plog x).sets
  | .movi x => some (Slot.movi x).sets
  | .sel x =>
    some { dst := x.dst.span x.ty, pdst := none, src := x.a.span x.ty ++ x.b.span x.ty, psrc := [x.g.p, x.p], mul := false }
  | .movw x => some (setsOf x.g (x.dst.span x.ty) [])
  | .lea x => some (setsOf x.g (x.dst.span .n64) (x.base.span .n64 ++ x.index.span x.ty))
  | .movsp x => some (setsOf x.g (x.dst.span (if x.wide then .n64 else .n32)) [])
  | .cvt x => some (setsOf x.g (x.dst.span x.ty) (x.a.span x.src))
  | .pack x => some (setsOf x.g [x.dst] ([x.a, x.b] ++ (if x.ty.two then [] else [x.c])))
  | .unpk x => some (setsOf x.g [x.dst] [x.a])
  | .pair a b => some (a.sets.join b.sets)
  | _ => none

/-- Registers and predicates that one instruction writes and another names are disjoint, both ways. -/
def SlotSets.apart (x y : SlotSets) : Bool :=
  let one (a b : SlotSets) : Bool :=
    !(a.dst.any fun r => b.dst.contains r || b.src.contains r) &&
    (match a.pdst with | none => true | some p => b.pdst ≠ some p && !b.psrc.contains p)
  one x y && one y x

/-- Charge of a vector-ALU instruction. -/
def Instr.aluCost : Instr → Nat
  | .pair _ _ => 2
  | _ => 1

/-- The numbers of the s registers of a list. -/
def sNumbers (rs : List Reg) : List Nat := rs.filterMap fun r => match r with | .s x => some x.val | .v _ => none

/-- n consecutive s registers. -/
def sRun (r : Fin 64) (n : Nat) : List Nat := (List.range n).map fun i => r.val + i

def MemAddr.regs (a : MemAddr) : List Reg := [a.base, a.index]
def sElect : ElectDst → List Nat
  | .s n => [n.val]
  | .p _ => []
def Opnd.regs : Opnd → List Reg
  | .reg r => [r]
  | .imm _ => []

/-- The s registers that an instruction touches (R37). -/
def Instr.sNamed (i : Instr) : List Nat :=
  match i.aluSets with
  | some x => sNumbers (x.dst ++ x.src)
  | none => match i with
    | .brx _ r _ | .ret _ (some r) | .callx _ _ (.reg r) | .meet _ (.reg r) => sNumbers [r]
    | .elect _ d _ => sElect d
    | .spawn x | .spawnf x _ | .spawnx x _ => [x.dst.val, x.alw.val] ++ sRun x.arg0 x.argc.val
    | .join _ d h => sRun d 2 ++ [h.val]
    | .joinany _ d => sRun d 2
    | .topup _ _ d h a => [d.val, h.val, a.val]
    | .resume _ d h | .cancel _ d h => [d.val, h.val]
    | .alwrd _ _ d | .plynew _ d _ | .plyjoin _ d | .plyleave _ d | .plybar _ d => [d.val]
    | .setpri _ (some c) _ => [c.val]
    | .shfl x | .shflx x | .shflup x | .shfldn x => sNumbers (x.dst :: x.a :: x.b.regs)
    | .vote x => sElect x.dst ++ sNumbers [x.a]
    | .prfx x => sNumbers [x.dst, x.a]
    | .redv x => x.dst.val :: sNumbers [x.a]
    | .confl x => sNumbers [x.dst, x.a]
    | .cpack x => x.cnt.val :: sNumbers [x.dst, x.a]
    | .sfRcp x | .sfRsq x | .sfSqrt x | .sfExp2 x | .sfLog2 x | .sfSin x | .sfCos x | .sfTanh x | .sfSigm x | .sfGelu x => sNumbers [x.a]
    | .sfDiv x => sNumbers [x.a, x.b]
    | .sfIdiv x => sNumbers [x.a, x.b]
    | .ld x | .st x | .ldu x | .stu x | .ldp x | .stp x | .lds x | .sts x => sNumbers (x.data :: x.addr.regs)
    | .fpsh x | .fpop x => sNumbers [x.data]
    | .prf _ _ a | .cctl _ _ a => sNumbers a.regs
    | .probe _ d a => d.val :: sNumbers a.regs
    | .atom x | .atomd x | .atoms x => sNumbers (x.data :: x.addr.regs)
    | .cas x => sNumbers (x.data :: x.cmp :: x.addr.regs)
    | .lda x | .stl x => sNumbers (x.data :: x.addr.regs)
    | .tcLoad x | .tcStore x => [x.tile.val, x.base.val, x.scale.val, x.tail.gateGen.val] ++ sRun x.origin 2
    | .tcQnt2 x => [x.tile.val, x.base.val, x.tail.gateGen.val] ++ sRun x.origin 2
    | .tcCopy x => [x.dst.val, x.src.val, x.len.val, x.tail.gateGen.val]
    | .tcFill x => [x.dst.val, x.const.val, x.len.val, x.tail.gateGen.val]
    | .tcLyset _ _ _ a => [a.val]
    | .arrive _ _ w a => [w.val, a.val]
    | .await _ d w g _ => [d.val, w.val, g.val]
    | .awtest _ d w => [d.val, w.val]
    | .tcStat _ d => [d.val]
    | .capEnter x => sNumbers [x.cell, x.slot, x.code]
    | .capExit x | .capAbort x => [x.dst.val, x.base.val]
    | .capProbe x => sRun x.dst 2 ++ [x.base.val]
    | .mxArm x => [x.desc.val, x.ply.val, x.gateGen.val]
    | .mxWait _ d _ | .mxStep _ d _ | .pgStat _ d _ | .sysrd _ d _ | .syswr _ d _ => [d.val]
    | .mxDrain x => [x.dst.val]
    | .mxFill x => [x.src.val]
    | .pgLoad x | .pgSave x _ | .pgRest x => [x.addr.val]
    | .pgRun x => [x.dst.val, x.limit.val, x.cnt.val]
    | _ => []

/-- Instructions that access memory, scratch, cells or tiles when they issue, or let an engine, another task or the account do so. -/
def Instr.accessesNow : Instr → Bool
  | .ldp _ | .stp _ | .lds _ | .sts _ | .fpsh _ | .fpop _ | .cctl _ _ _ | .bankset _ _ _ | .aflush _ | .fence _ _ _ | .atoms _ | .tcLoad _ | .tcStore _ | .tcQnt2 _ | .tcCopy _
  | .tcFill _ | .tcLyset _ _ _ _ | .arrive _ _ _ _ | .await _ _ _ _ _ | .awtest _ _ _ | .capEnter _ | .capAbort _ | .capProbe _ | .mxArm _
  | .mxSign _ _ | .mxFence _ | .mxWait _ _ _ | .mxDrain _ | .mxFill _ | .mxAbort _ _ | .pgLoad _ | .pgSave _ _ | .pgRest _ | .spawn _
  | .spawnf _ _ | .spawnx _ _ | .join _ _ _ | .joinany _ _ | .plybar _ _ => true
  | _ => false

end Sys2Proof

namespace Sys2Proof.Machine

/-! ### Lane groups (R26, R69) -/

/-- The issue key of a lane. -/
def Lane.key (x : Lane) : Nat := (255 - x.depth.toNat) * 2 ^ 32 + x.pc.toNat

/-- The lane group of a key. -/
def Task.groupOf (t : Task) (k : Nat) : Mask := t.eligible &&& t.laneMask fun x => x.key = k

/-- Keys of the eligible lanes. -/
def Task.keys (t : Task) : List Nat := (lanesOf t.eligible).map fun l => (t.lane l).key

/-- The head group: the lowest key; empty where no lane is eligible. -/
def Task.headGroup (t : Task) : Mask := match t.keys.min? with | some k => t.groupOf k | none => 0

/-- The group with the second-lowest key. -/
def Task.secondGroup (t : Task) : Mask :=
  match t.keys.min? with
  | none => 0
  | some k => match (t.keys.filter (· ≠ k)).min? with
    | some k' => t.groupOf k'
    | none => 0

/-- Whether a FILL4 stands at a PC. -/
def State.fillAt (s : State) (t : Task) (pc : BitVec 32) : Bool :=
  pc.toNat % 32 = 28 && (match s.fetch t pc with | .bytes w => w % 2 ^ 32 = fill4 | .bad _ _ _ _ => false)

/-- The step across FILL4 before groups form. -/
def State.skipFill (s : State) (t : Task) : Task :=
  { t with lanes := t.lanes.map fun x => if !x.exited && s.fillAt t x.pc then { x with pc := x.pc + 4 } else x }

/-! ### Readiness (R37, R70, R119) -/

/-- PC of a group. -/
def Task.pcOf (t : Task) (g : Mask) : BitVec 32 := (t.lane ((lowest? g).getD 0)).pc

/-- No lane of the group has come to the end of an open window. -/
def Task.windowsOpen (t : Task) (g : Mask) : Bool := t.outs.all fun o => (lanesOf (g &&& o.open_)).all fun l => o.window.get l ≠ 0

/-- The instruction touches no s register that another group's result is on its way to. -/
def Task.sFree (t : Task) (g : Mask) (i : Instr) : Bool :=
  t.outs.all fun o => match o.dst with
    | .v _ => true
    | .s n => o.open_ = 0 || g &&& ~~~o.group = 0 || n = 63 || !i.sNamed.contains n.val

/-- The stores that come before a child's first issue have been performed (R119, R244). -/
def State.afterStores (s : State) (t : Task) : Bool :=
  match t.after with
  | none => true
  | some (core, n) => !s.unperformed ((s.releaseSet core (t.parent.getD 0) (if t.viaSpawnx then .domain else .device)).filter fun i => i < n)

/-- A child's first issue acquires at the scope of its spawn. -/
def State.firstAcquire (s : State) (t : Task) : State :=
  match t.after with
  | none => s
  | some _ => (s.acquire t.core (if t.viaSpawnx then .domain else .device)).updTask t.id fun t => { t with after := none }

/-- What a group issues. -/
inductive Issue where
  | instr (i : Instr)
  | fetchFault (code : BitVec 8) (detail : BitVec 128) (va : BitVec 64) (note : State → State)

/-- The instruction of a group: fetched under R27 and decoded under R43; a PC that is not a multiple of 4 is never a fetch fault, and where its
window cannot be fetched DETAIL gives zeros for the bytes (R44; log 112). -/
def State.issueOf (s : State) (t : Task) (g : Mask) : Issue :=
  let pc := t.pcOf g
  let k := s.kernelOf t
  match s.fetch t pc with
  | .bytes w => .instr (decode k.n k.w pc w)
  | .bad code detail va note => if pc.toNat % 4 ≠ 0 then .instr (decode k.n k.w pc 0) else .fetchFault code detail va note

/-- The state in which a group issues: FILL4 crossed, the fetch's marks left, the group named. -/
def State.issuing (s : State) (t : Task) (g : Mask) : State :=
  let s1 := ((s.updTask t.id fun _ => t).fetchTouch t (t.pcOf g)).firstAcquire t
  { s1 with cur := .group t.id g }

/-- TAKING A FETCH FAULT: the record names the whole group; nothing is charged (R27, R205). -/
def State.takeFetchFault (s : State) (t : Task) (g : Mask) (code : BitVec 8) (detail : BitVec 128) (va : BitVec 64)
    (note : State → State) : State :=
  ((note s).takeFault t.id (t.record code (t.pcOf g) g g va detail false false)).updTask t.id fun t => { t with fetchFault := true }

/-- Whether an outcome leaves a task as it was: an instruction that only waits (R70). -/
def waits (t : Task) : Host.Outcome State Fault Refusal → Bool
  | .next s => match s.task? t.id with | some u => u = t | none => false
  | _ => false

/-! ### Co-issue (R73, R74, R280) -/

/-- Datapath positions of a group (R72). -/
def positions (g : Mask) : BitVec 32 := g.setWidth 32 ||| (g >>> 32).setWidth 32

/-- Whether two instructions of a task's two first groups may issue together. -/
def mayCoIssue (h j : Mask) (x y : SlotSets) : Bool :=
  j ≠ 0 && positions h &&& positions j = 0 && x.perLane && y.perLane && x.apart y

/-! ### The choice of a task (R110, R367) -/

/-- Slots of a spindle behind the last one selected, in slot order. -/
def slotsAfter (last : Nat) : List Nat := (List.range 16).map fun i => (last + 1 + i) % 16

/-- What a ready task issues. -/
structure Ready where
  t : Task
  group : Mask
  what : Issue

/-- A task that could issue in this cycle but for its instruction: its head group has open windows and its stores are done. -/
def State.headOf (s : State) (t0 : Task) : Option (Task × Mask) :=
  if !t0.canIssue then none
  else
    let t := s.skipFill t0
    let g := t.headGroup
    if g = 0 || !t.windowsOpen g || !s.afterStores t then none else some (t, g)

/-- A ready task, with what it issues; run gives an instruction its meaning. Behind an LDA whose value has not returned the requests of later
instructions wait in the memory system, and an access that would perform when it issues waits with its issue (R254; DESIGN CHOICE, log 94). -/
def State.ready (run : Instr → State → Host.Outcome State Fault Refusal) (s : State) (t0 : Task) : Option Ready :=
  (s.headOf t0).bind fun (t, g) => match s.issueOf t g with
    | .fetchFault c d v n => some { t := t, group := g, what := .fetchFault c d v n }
    | .instr i =>
      if !t.sFree g i || (t.acquiring && i.accessesNow) || waits t (run i { s.updTask t.id (fun _ => t) with cur := .group t.id g }) then none
      else some { t := t, group := g, what := .instr i }

def State.spindle (s : State) (core sp : Nat) : Spindle := (s.core core).spindles.getD sp Spindle.reset

/-- The first ready task of a list of slots of a spindle. -/
def State.firstReady (run : Instr → State → Host.Outcome State Fault Refusal) (s : State) (core sp : Nat) (p : Task → Bool)
    (slots : List Nat) : Option Ready :=
  slots.findSome? fun k => (s.at_ core (16 * sp + k)).bind fun t => if p t then s.ready run t else none

/-- The tasks of a spindle that have not been selected for SLIM cycles, the one that has waited longest first; a task that STARVATION_SELECT
has named comes before them (R367). -/
def State.starving (s : State) (core sp : Nat) : List Nat :=
  let late := s.tasks.filter fun t => t.isPlaced && t.core = core && t.slot / 16 = sp &&
    decide ((s.core core).slim ≤ (s.clock - t.lastSelect).toNat)
  (s.spindle core sp).forced.toList ++ (late.mergeSort fun t u => decide (t.lastSelect.toNat ≤ u.lastSelect.toNat)).map fun t => t.slot % 16

/-- The task that a spindle selects: a starved one first, else the highest priority, round robin within it. A gated spindle selects
none. -/
def State.choose (run : Instr → State → Host.Outcome State Fault Refusal) (s : State) (core sp : Nat) : Option Ready :=
  let x := s.spindle core sp
  if x.gated.isSome then none
  else
    match s.firstReady run core sp (fun _ => true) ((s.starving core sp).map (· % 16)) with
    | some r => some r
    | none => [3, 2, 1, 0].findSome? fun p =>
        s.firstReady run core sp (fun t => t.prio.toNat = p) (slotsAfter (x.last.getD p 15))

/-- Note a selection: the priority's pointer, the cycle, and that a starved task has had its turn. -/
def State.noteSelect (s : State) (core sp : Nat) (t : Task) : State :=
  let k := t.slot % 16
  (s.updCore core fun c => { c with
    spindles := listUpd c.spindles sp fun x =>
      { x with last := listUpd x.last t.prio.toNat (fun _ => k), forced := if x.forced = some k then none else x.forced } }).updTask
    t.id fun t => { t with lastSelect := s.clock }

/-! ### STARVATION_SELECT (R367) -/

/-- Tasks of a spindle that are ready and have not been selected for SLIM cycles. A gated spindle's cycles do not count. -/
def State.starved (s : State) (core sp : Nat) : List Task :=
  s.tasks.filter fun t => t.isPlaced && t.core = core && t.slot / 16 = sp && decide ((s.core core).slim ≤ (s.clock - t.lastSelect).toNat) &&
    (match s.headOf t with
    | none => false
    | some (u, g) => match s.issueOf u g with | .instr i => u.sFree g i | .fetchFault _ _ _ _ => true)

/-- STARVATION_SELECT: the spindle will select the task that has waited longest, ahead of every priority. -/
def execStarvationSelect (core spindle : Nat) (s : State) : Host.Outcome State Fault Refusal :=
  if (s.spindle core spindle).gated.isSome then .next s
  else
    let oldest := (s.starved core spindle).foldl (fun (a : Option Task) t => match a with
      | none => some t
      | some u => if (s.clock - u.lastSelect).toNat < (s.clock - t.lastSelect).toNat then some t else some u) none
    match oldest with
    | none => .next s
    | some t => .next (s.updCore core fun c => { c with
        spindles := listUpd c.spindles spindle fun x => { x with forced := some (t.slot % 16) } })

end Sys2Proof.Machine
end

