-- ==== Sys2Proof/Machine/Elementary.lean ====
section
/-! DEFINITION. The real functions of the special-function queues in fixed point, for the bounds of spec/07_special.md R160. A number
is an integer count of units of 2^-200; every approximation comes with a bound on its error in the same unit, so that a value
within the rule's bound of the exact one is never shut out (log 11). -/

namespace Sys2Proof.Machine

/-- Fraction bits. -/
abbrev fxP : Nat := 200
def fxOne : Int := 2 ^ fxP
def fxMul (a b : Int) : Int := a * b / fxOne

/-- m × 2^e. -/
def fxOf (neg : Bool) (m : Nat) (e : Int) : Int :=
  let k := e + fxP
  signed neg (if 0 ≤ k then m * 2 ^ k.toNat else m / 2 ^ (-k).toNat)

/-- Sum of n terms, each the one before times r over the next of the divisors that d gives. -/
def fxSeries (d : Nat → Nat) (r : Int) : Nat → Nat → Int → Int
  | 0, _, _ => 0
  | n + 1, k, t => t + fxSeries d r n (k + 1) (fxMul t r / (d k : Int))

/-- e^r for |r| ≤ 1. -/
def fxExp (r : Int) : Int := fxSeries (fun k => k + 1) r 60 0 fxOne

/-- sin r and cos r for |r| ≤ 2. -/
def fxSinTaylor (r : Int) : Int := fxSeries (fun k => (2 * k + 2) * (2 * k + 3)) (-fxMul r r) 60 0 r
def fxCosTaylor (r : Int) : Int := fxSeries (fun k => (2 * k + 1) * (2 * k + 2)) (-fxMul r r) 60 0 fxOne

/-- ln 2 = the sum of 1 / (k 2^k). -/
def fxLn2 : Int := (List.range 200).foldl (fun a k => a + fxOne / (((k + 1) * 2 ^ (k + 1) : Nat) : Int)) 0

/-- arctan(1 / n). -/
def fxAtanInv (n : Nat) : Int :=
  (List.range 100).foldl (fun a k =>
    let t := fxOne / (((2 * k + 1) * n ^ (2 * k + 1) : Nat) : Int)
    if k % 2 = 0 then a + t else a - t) 0

/-- π, by Machin's formula. -/
def fxPi : Int := 16 * fxAtanInv 5 - 4 * fxAtanInv 239

/-- An approximation and the bound on its error. -/
structure Approx where
  val : Int
  err : Nat
  deriving DecidableEq, Repr

def apxExp2 (x : Int) : Approx :=
  let k := x / fxOne
  let f := fxExp (fxMul (x - k * fxOne) fxLn2)
  if 0 ≤ k then { val := f * 2 ^ k.toNat, err := 2 ^ (12 + k.toNat) }
  else if k < -400 then { val := 0, err := 2 }
  else { val := f / 2 ^ (-k).toNat, err := 2 ^ 12 }

/-- Bits of log2 of a number in [1, 2), by squaring. -/
def log2Bits : Nat → Nat → Nat → Nat
  | 0, _, acc => acc
  | n + 1, y, acc =>
    let q := y * y / 2 ^ fxP
    if 2 ^ (fxP + 1) ≤ q then log2Bits n (q / 2) (2 * acc + 1) else log2Bits n q (2 * acc)

/-- log2 (m × 2^e). -/
def apxLog2 (m : Nat) (e : Int) : Approx :=
  let l := bitLen m - 1
  { val := ((e + l) * 2 ^ 80 + (log2Bits 80 (m * 2 ^ (fxP - l)) 0 : Nat)) * 2 ^ (fxP - 80), err := 2 ^ (fxP - 78) }

/-- sin (x + quarter turns), for |x| ≤ 2^16. -/
def apxSin (x : Int) (quarters : Int) : Approx :=
  let h := fxPi / 2
  let n := x / h
  let r := x - n * h
  { val := match (n + quarters) % 4 with
      | 0 => fxSinTaylor r
      | 1 => fxCosTaylor r
      | 2 => -fxSinTaylor r
      | _ => -fxCosTaylor r
    err := 2 ^ 40 }

/-- e^-y for y ≥ 0. -/
def fxExpNeg (y : Int) : Int :=
  if 200 * fxOne ≤ y then 0
  else
    let n := y / fxLn2
    fxExp (-(y - n * fxLn2)) / 2 ^ n.toNat

def apxTanh (x : Int) : Approx :=
  let e := fxExpNeg (2 * (x.natAbs : Int))
  let t := (fxOne - e) * fxOne / (fxOne + e)
  { val := if x < 0 then -t else t, err := 2 ^ 24 }

def apxSigm (x : Int) : Approx :=
  let e := fxExpNeg (x.natAbs : Int)
  { val := (if x < 0 then e else fxOne) * fxOne / (fxOne + e), err := 2 ^ 24 }

/-- Laplace's continued fraction t + 1/(t + 2/(t + … + n/f)), the density of the normal law over its tail. -/
def fxMills (t : Int) : Nat → Int → Int
  | 0, f => f
  | n + 1, f => fxMills t n (t + ((n + 1 : Nat) : Int) * fxOne * fxOne / f)

/-- x × ½(1 + erf(x / √2)): below 6 it is x/2 + |x| φ(x) (|x| + |x|³/3 + |x|⁵/15 + …), and from there the tail of the normal law comes
from its continued fraction; from 20 on it is x or 0 but for less than 2^-200. -/
def apxGelu (x : Int) : Approx :=
  let t : Int := x.natAbs
  if 20 * fxOne ≤ t then { val := if x < 0 then 0 else x, err := 2 }
  else
    let q := fxMul t t
    let root := isqrt (2 * fxPi.toNat * 2 ^ fxP) (fxP + 3) 0
    let dens := fxExpNeg (q / 2) * fxOne / (root : Int)
    if t < 6 * fxOne then { val := x / 2 + fxMul t (fxMul (fxSeries (fun k => 2 * k + 3) q 200 0 t) dens), err := 2 ^ 30 }
    else
      let tail := t * dens / fxMills t 120 t
      { val := if x < 0 then -tail else x - tail, err := 2 ^ 30 }

/-- 1 / (m × 2^e) and 1 / √(m × 2^e). -/
def apxRcp (neg : Bool) (m : Nat) (e : Int) : Approx :=
  let k := (2 * fxP : Int) - (e + fxP)
  { val := signed neg (if 0 ≤ k then 2 ^ k.toNat / m else 0), err := 2 }

def apxRsq (m : Nat) (e : Int) : Approx :=
  let k := (2 * fxP : Int) - e
  let q := if 0 ≤ k then 2 ^ k.toNat / m else 0
  { val := isqrt q (bitLen q / 2 + 1) 0, err := 2 }

/-- One ulp of a format at the value, as units of the fixed point. -/
def Approx.ulpOf (a : Approx) (f : Fmt) : Nat := 2 ^ (max ((bitLen (a.val.natAbs + a.err) : Int) - 1 - fxP) f.emin - f.fb + fxP).toNat

/-- One ulp of f32 at the value. -/
def Approx.ulp (a : Approx) : Nat := a.ulpOf .f32

/-- 2^-k. -/
def fxInv (k : Nat) : Nat := 2 ^ (fxP - k)

/-- A code within the bound of the approximated value stands; else the code nearest to that value takes its place. -/
def Approx.pick (a : Approx) (bound code : Nat) : Nat :=
  let ok : Bool := match Fmt.f32.decode code with
    | .fin n m e => (fxOf n m e - a.val).natAbs ≤ bound + a.err
    | _ => false
  if ok then code else (Fmt.f32.round .rne false (a.val < 0) a.val.natAbs (-(fxP : Int))).1

end Sys2Proof.Machine
end

