-- ==== Sys2Proof/Machine/Special.lean ====
section
/-! DEFINITION. The special-function queues (spec/07_special.md R154-R164). -/

namespace Sys2Proof.Machine

/-! ### The unary functions (R160, R161) -/

inductive SfFn where
  | rcp | rsq | sqrt | exp2 | log2 | sin | cos | tanh | sigm | gelu
  deriving DecidableEq, Repr

def SfFn.code : SfFn → Nat
  | .rcp => 0 | .rsq => 1 | .sqrt => 2 | .exp2 => 3 | .log2 => 4 | .sin => 5 | .cos => 6 | .tanh => 7 | .sigm => 8 | .gelu => 9

/-- f32 codes of the constants of R161. -/
def one32 : Nat := 0x3F800000
def half32 : Nat := 0x3F000000
def neg32 (b : Bool) : Nat := if b then 0x80000000 else 0
def inf32 (b : Bool) : Nat := neg32 b + 0x7F800000
def nan32 : Nat := 0x7FC00000

/-- Results that R161 lists; none where the input is an ordinary number of the function. -/
def SfFn.special (fn : SfFn) (v : FVal) : Option (Nat × FFlags) :=
  let z (n : Bool) : Option (Nat × FFlags) := match fn with
    | .rcp => some (inf32 n, fDZ)
    | .rsq => some (inf32 n, fDZ)
    | .sqrt => some (neg32 n, 0)
    | .exp2 => some (one32, 0)
    | .log2 => some (inf32 true, fDZ)
    | .sin | .tanh | .gelu => some (neg32 n, 0)
    | .cos => some (one32, 0)
    | .sigm => some (half32, 0)
  match v with
  | .nan sig => some (nan32, if sig then fNV else 0)
  | .inf false => match fn with
    | .rcp | .rsq => some (0, 0)
    | .sqrt | .exp2 | .log2 | .gelu => some (inf32 false, 0)
    | .sin | .cos => some (nan32, fNV)
    | .tanh | .sigm => some (one32, 0)
  | .inf true => match fn with
    | .rcp => some (neg32 true, 0)
    | .rsq | .sqrt | .log2 | .sin | .cos => some (nan32, fNV)
    | .exp2 | .sigm => some (0, 0)
    | .tanh => some (neg32 true + one32, 0)
    | .gelu => some (neg32 true, 0)
  | .fin n m _ =>
    if m = 0 then z n
    else match fn with
      | .rsq | .sqrt | .log2 => if n then some (nan32, fNV) else none
      | _ => none

/-- The exponent k where a magnitude is 2^k. -/
def pow2? (m : Nat) (e : Int) : Option Int := if m = 2 ^ Nat.log2 m then some (e + Nat.log2 m) else none

/-- An integer value. -/
def int? (n : Bool) (m : Nat) (e : Int) : Option Int :=
  if 0 ≤ e then some (signed n (m * 2 ^ e.toNat))
  else if m % 2 ^ (-e).toNat = 0 then some (signed n (m / 2 ^ (-e).toNat)) else none

/-- The exact cases of R160 (but for those of R161), as f32 codes. -/
def SfFn.exact (fn : SfFn) (n : Bool) (m : Nat) (e : Int) : Option Nat :=
  match fn with
  | .rcp => match pow2? m e with
    | some k => if -126 ≤ -k && -k ≤ 127 then some (Fmt.f32.round .rne false n 1 (-k)).1 else none
    | none => none
  | .rsq => match pow2? m e with
    | some k => if k % 2 = 0 then some (Fmt.f32.round .rne false false 1 (-(k / 2))).1 else none
    | none => none
  | .exp2 => match int? n m e with
    | some k => if -149 ≤ k && k ≤ 127 then some (Fmt.f32.round .rne false false 1 k).1 else none
    | none => none
  | .log2 => match pow2? m e with
    | some k => some (Fmt.f32.round .rne false (k < 0) k.natAbs 0).1
    | none => none
  | _ => none

/-- Whether the exact value of an inexact result is tiny (R58): less than 2^-126. The last f32 codes at which SIGM and GELU of a
negative number are not tiny are those of -87.33654 and -13.146246. -/
def SfFn.tiny (fn : SfFn) (x : Nat) : Bool :=
  let neg : Bool := x.testBit 31
  let mag := x % 2 ^ 31
  match fn with
  | .exp2 => neg && 0x42FC0000 < mag
  | .sin | .tanh => mag ≤ 0x00800000
  | .sigm => neg && 0x42AEAC4F < mag
  | .gelu => mag < 0x01000000 || (neg && (mag = 0x01000000 || 0x41525706 < mag))
  | .rcp => 0x7E800000 < mag
  | .rsq | .sqrt | .log2 | .cos => false

/-- An f32 result of an inexact case: the free bits of the part where they lie within the bound of R160 (log 11); SQRT is correctly
rounded, a large argument of SIN and COS gives a value in [−1, 1], and an overflow follows R57. -/
def SfFn.inexact (fn : SfFn) (mode : RMode) (x : Nat) (n : Bool) (m : Nat) (e : Int) : Nat × FFlags :=
  let free := (Config.sfBits fn.code 4 mode.code (BitVec.ofNat 32 x)).toNat
  let fl := fNX ||| (if fn.tiny x then fUF else 0)
  let v := fxOf n m e
  let ulps (a : Approx) (k floor : Nat) : Nat × FFlags := (a.pick (max (k * a.ulp) floor) free, fl)
  match fn with
  | .rcp =>
    let r := divRound .f32 mode (.fin false 1 0) (.fin n m e)
    if r.2 &&& fOF ≠ 0 then r else ulps (apxRcp n m e) 1 0
  | .rsq => ulps (apxRsq m e) 1 0
  | .sqrt => sqrtRound .f32 mode (.fin n m e)
  | .exp2 => if 128 * fxOne ≤ v then (Fmt.f32.overflow mode false false, fOF ||| fNX) else ulps (apxExp2 v) 2 0
  | .log2 => ulps (apxLog2 m e) 2 (if fxOne ≤ 2 * v && v ≤ 2 * fxOne then fxInv 22 else 0)
  | .sin | .cos =>
    if 2 ^ 16 * fxOne < (v.natAbs : Int) then (if one32 < free % 2 ^ 31 then neg32 (free.testBit 31) + one32 else free, fl)
    else ((apxSin v (if fn = .cos then 1 else 0)).pick (fxInv 21) free, fl)
  | .tanh => ulps (apxTanh v) 2 (fxInv 22)
  | .sigm => ulps (apxSigm v) 2 (fxInv 22)
  | .gelu => ulps (apxGelu v) 2 (fxInv 22)

/-- The function on an f32 code (R160, R161). -/
def SfFn.f32 (fn : SfFn) (mode : RMode) (x : Nat) : Nat × FFlags :=
  let v := Fmt.f32.decode x
  match fn.special v with
  | some r => r
  | none => match v with
    | .fin n m e => match fn.exact n m e with
      | some c => (c, 0)
      | none => fn.inexact mode x n m e
    | _ => (nan32, 0)

/-- The exact value of an inexact result, approximated; none for a large argument of SIN and COS. -/
def SfFn.approx (fn : SfFn) (n : Bool) (m : Nat) (e : Int) : Option Approx :=
  let v := fxOf n m e
  match fn with
  | .rcp => some (apxRcp n m e)
  | .rsq => some (apxRsq m e)
  | .sqrt => none
  | .exp2 => if 128 * fxOne ≤ v then none else some (apxExp2 v)
  | .log2 => some (apxLog2 m e)
  | .sin => if 2 ^ 16 * fxOne < (v.natAbs : Int) then none else some (apxSin v 0)
  | .cos => if 2 ^ 16 * fxOne < (v.natAbs : Int) then none else some (apxSin v 1)
  | .tanh => some (apxTanh v)
  | .sigm => some (apxSigm v)
  | .gelu => some (apxGelu v)

/-- An inexact f32 result r rounded once into a narrower type: it lies within 1 ulp of the exact value in the type (R160), else the value
rounded under the mode takes its place; underflow is judged by the exact value alone: one below the type's smallest normal sets it
beside inexact (R58, R161), and neither a square root nor a large argument of SIN and COS has such a value. -/
def SfFn.narrow (fn : SfFn) (f : Fmt) (mode : RMode) (n : Bool) (m : Nat) (e : Int) (r : Nat) : Nat × FFlags :=
  let c := f.ofVal mode false (Fmt.f32.decode r)
  match fn.approx n m e with
  | none => (c.1, c.2 &&& ~~~fUF)
  | some a =>
    let near : Bool := c.2 &&& fOF ≠ 0 || match f.decode c.1 with
      | .fin n m e => (fxOf n m e - a.val).natAbs ≤ a.ulpOf f + a.err
      | _ => true
    let d := if near then c else f.round mode false (a.val < 0) a.val.natAbs (-(fxP : Int))
    (d.1, d.2 &&& ~~~fUF ||| (if (a.val.natAbs : Int) < 2 ^ (f.emin + fxP).toNat then fUF else 0))

/-- The function on one element: f16 and bf16 through f32, rounded once into the type; FTZ acts on input and result. -/
def SfFn.elem (fn : SfFn) (ftz : Bool) (mode : RMode) (ty : Ty) (x : Nat) : Nat × FFlags :=
  let x' := fin1 ftz ty x
  if ty = .f32 then fout ftz ty (fn.f32 mode x')
  else
    let f := fmtD ty
    let v := f.decode x'
    let (w, _) := Fmt.f32.ofVal .rne false v
    let (r, fl) := fn.f32 mode w
    let (c, fl') := match v with
      | .fin n m e => if fl &&& fNX ≠ 0 then fn.narrow f mode n m e r else f.ofVal mode false (Fmt.f32.decode r)
      | _ => f.ofVal mode false (Fmt.f32.decode r)
    fout ftz ty (c, fl ||| fl' ||| (if v.isSig then fNV else 0))

/-! ### Division (R162, R163) -/

def sfDivE (ftz : Bool) (mode : RMode) (ty : Ty) (x y : Nat) : Nat × FFlags :=
  fout ftz ty (divRound (fmtD ty) mode (fval ftz ty x) (fval ftz ty y))

/-- Quotient and remainder. -/
def idivE (ty : Ty) (x y : Nat) : Nat × Nat :=
  let w := Ty.w ty
  let a := ty.toI x
  let b := ty.toI y
  if b = 0 then (2 ^ w - 1, x)
  else
    let q : Int := if (a < 0) = (b < 0) then (a.natAbs / b.natAbs : Nat) else -((a.natAbs / b.natAbs : Nat) : Int)
    (wrap w q, wrap w (a - q * b))

/-! ### Issue (R154-R158) -/

/-- Operations in queue q of a core. -/
def State.sfQueue (s : State) (core q : Nat) : List (Nat × SfOp) :=
  s.tasks.flatMap fun t => if t.isPlaced && t.core = core then (t.sfOps.filter fun o => o.queue = q).map fun o => (t.id, o) else []

/-- Issue an operation: wait for a queue entry and for the token counters, charge 2, count the token in every issuing lane. An operation
without a guard-true lane completes at issue (R154) and raises no counter, so neither a full queue nor a counter at 63 holds it back
(DESIGN CHOICE, log 88). -/
def sfIssue (s : State) (len : Nat) (g : Guard) (ty : Ty) (tok : Fin 8) (dst : Fin 192) (rem : Option (Fin 192))
    (val : Ctx → Nat → (Nat × FFlags) × Nat) : Host.Outcome State Fault Refusal :=
  issue s len g fun c =>
    let q := c.t.slot / 4
    if c.act = 0 then c.simple 2 id
    else if 16 ≤ (s.sfQueue c.t.core q).length then .wait
    else if (lanesOf c.group).any fun l => (c.t.lane l).tok.get tok.val = 63 then .wait
    else .go 2 0 fun s =>
      let ls := lanesOf c.act
      let op : SfOp :=
        { id := s.nextSeq, queue := q, tok := tok, lanes := c.act, group := c.group, clob := [], dst := dst, rem := rem, ty := ty
          vals := ls.map fun l => (l, BitVec.ofNat 64 (val c l).1.1)
          rems := ls.map fun l => (l, BitVec.ofNat 64 (val c l).2)
          flags := ls.foldl (fun f l => f ||| (val c l).1.2) 0 }
      let s1 : State := { s with nextSeq := s.nextSeq + 1 }
      s1.updTask c.tid fun t =>
        ({ t with sfOps := t.sfOps ++ [op] }.onLanes c.group fun _ x =>
          { x with tok := x.tok.set tok.val (x.tok.get tok.val + 1) }).advance c.group c.len

/-- A unary operation: sources and FPCTL are read at issue (R156). -/
def sfUnary (fn : SfFn) (x : Sf1) (s : State) : Host.Outcome State Fault Refusal :=
  sfIssue s 8 x.g x.ty x.tok x.dst none fun c l =>
    let a := c.reg false x.a l
    (packF x.ty fun i => fn.elem c.t.ftz (fpctlMode c.t.fpctl) x.ty (elemAt x.ty a i), 0)

def execSfRcp (x : Sf1) (s : State) : Host.Outcome State Fault Refusal := sfUnary .rcp x s
def execSfRsq (x : Sf1) (s : State) : Host.Outcome State Fault Refusal := sfUnary .rsq x s
def execSfSqrt (x : Sf1) (s : State) : Host.Outcome State Fault Refusal := sfUnary .sqrt x s
def execSfExp2 (x : Sf1) (s : State) : Host.Outcome State Fault Refusal := sfUnary .exp2 x s
def execSfLog2 (x : Sf1) (s : State) : Host.Outcome State Fault Refusal := sfUnary .log2 x s
def execSfSin (x : Sf1) (s : State) : Host.Outcome State Fault Refusal := sfUnary .sin x s
def execSfCos (x : Sf1) (s : State) : Host.Outcome State Fault Refusal := sfUnary .cos x s
def execSfTanh (x : Sf1) (s : State) : Host.Outcome State Fault Refusal := sfUnary .tanh x s
def execSfSigm (x : Sf1) (s : State) : Host.Outcome State Fault Refusal := sfUnary .sigm x s
def execSfGelu (x : Sf1) (s : State) : Host.Outcome State Fault Refusal := sfUnary .gelu x s

/-- SF.DIV (R162). -/
def execSfDiv (x : SfDiv) (s : State) : Host.Outcome State Fault Refusal :=
  sfIssue s 12 x.g x.ty x.tok x.dst none fun c l =>
    let a := c.reg false x.a l
    let b := c.reg false x.b l
    (packF x.ty fun i => sfDivE c.t.ftz (c.t.mode x.mode) x.ty (elemAt x.ty a i) (elemAt x.ty b i), 0)

/-- SF.IDIV (R163): both destinations deliver together. -/
def execSfIdiv (x : SfIdiv) (s : State) : Host.Outcome State Fault Refusal :=
  sfIssue s 12 x.g x.ty x.tok x.dst x.rem fun c l =>
    let r := idivE x.ty (c.reg x.ty.wide x.a l) (c.reg x.ty.wide x.b l)
    ((r.1, 0), r.2)

/-- Whether every token of a mask is clear in every lane of a group (R164). -/
def Task.tokensClear (t : Task) (group : Mask) (mask : BitVec 8) : Bool :=
  (lanesOf group).all fun l => (List.range 8).all fun k => !mask.getLsbD k || (t.lane l).tok.get k = 0

/-- SF.WAIT (R164). -/
def execSfWait (g : Guard) (mask : BitVec 8) (s : State) : Host.Outcome State Fault Refusal :=
  issue s 8 g fun c => c.uniform 1 <|
    if c.t.tokensClear c.group mask then .go 1 0 c.next else .go 1 0 (c.hold (.sfWait mask) .sfWait)

/-- One register of a delivery: one that a later instruction wrote keeps either value, a pair as a whole (R157). -/
def Task.sfPut (t : Task) (tick : Nat) (o : SfOp) (base r l : Nat) (x : BitVec 32) : Task :=
  if staysWritten o.clob tick o.id (vkey base l) (vkey r l) then t else t.setV r l x

/-- The writes of a delivery. -/
def Task.sfWrite (t : Task) (tick : Nat) (o : SfOp) : Task :=
  let put (t : Task) (d : Fin 192) (vs : List (Nat × BitVec 64)) : Task :=
    vs.foldl (fun t v =>
      let t1 := t.sfPut tick o d.val d.val v.1 (v.2.setWidth 32)
      if o.ty.wide then t1.sfPut tick o d.val (d.val + 1) v.1 (BitVec.ofNat 32 (v.2.toNat / 2 ^ 32)) else t1) t
  let t1 := put t o.dst o.vals
  match o.rem with
  | none => t1
  | some d => put t1 d o.rems

/-- SF_DELIVERY: the idx-th operation of a queue, unless an earlier one of the task writes the same destination register; results,
flags, tokens, then the waits and a save that it was holding back (R156-R158, R164). -/
def execSfDelivery (core queue idx : Nat) (s : State) : Host.Outcome State Fault Refusal :=
  match (s.sfQueue core queue)[idx]? with
  | none => .next s
  | some (tid, o) =>
    let regs (p : SfOp) : List Nat :=
      let one (d : Fin 192) : List Nat := if p.ty.wide then [d.val, d.val + 1] else [d.val]
      one p.dst ++ (match p.rem with | some d => one d | none => [])
    let blocked := ((s.task? tid).map fun t => t.sfOps.any fun p => p.id < o.id && (regs p).any fun r => (regs o).contains r).getD false
    if blocked then .next s
    else
      let s1 := s.updTask tid fun t =>
        let t1 : Task := { t with sfOps := t.sfOps.filter fun p => p.id ≠ o.id }
        let t2 := ((t1.sfWrite s.tick o).raise o.flags).onLanes o.group fun _ x =>
          { x with tok := x.tok.set o.tok.val (x.tok.get o.tok.val - 1) }
        t2.waits.foldl (fun t w => match w.kind with
          | .sfWait mask => if t.tokensClear w.lanes mask then t.wake w else t
          | _ => t) t2
      .next (s1.trySave tid)

end Sys2Proof.Machine
end

