-- ==== Sys2Proof/Machine/Dispatch.lean ====
section
/-! DEFINITION. The dispatch: one arm for each constructor of Instr. -/

namespace Sys2Proof.Machine

def exec (i : Instr) (s : State) : Host.Outcome State Fault Refusal :=
  match i with
  | .nop g => Sys2Proof.Machine.execNop g s
  | .bra g off => Sys2Proof.Machine.execBra g off s
  | .brx g src disp => Sys2Proof.Machine.execBrx g src disp s
  | .call g off => Sys2Proof.Machine.execCall g off s
  | .callx g dst tgt => Sys2Proof.Machine.execCallx g dst tgt s
  | .ret g src => Sys2Proof.Machine.execRet g src s
  | .meet g tgt => Sys2Proof.Machine.execMeet g tgt s
  | .meetclr g => Sys2Proof.Machine.execMeetclr g s
  | .yield g => Sys2Proof.Machine.execYield g s
  | .exit g => Sys2Proof.Machine.execExit g s
  | .elect g dst src => Sys2Proof.Machine.execElect g dst src s
  | .quant g imm => Sys2Proof.Machine.execQuant g imm s
  | .pair a b => Sys2Proof.Machine.execPair a b s
  | .illegalInstruction reason slot word => Sys2Proof.Machine.execIllegalInstruction reason slot word s
  | .spawn x => Sys2Proof.Machine.execSpawn x s
  | .spawnf x n => Sys2Proof.Machine.execSpawnf x n s
  | .spawnx x dev => Sys2Proof.Machine.execSpawnx x dev s
  | .join g dst h => Sys2Proof.Machine.execJoin g dst h s
  | .joinany g dst => Sys2Proof.Machine.execJoinany g dst s
  | .topup g res dst h amt => Sys2Proof.Machine.execTopup g res dst h amt s
  | .resume g dst h => Sys2Proof.Machine.execResume g dst h s
  | .cancel g dst h => Sys2Proof.Machine.execCancel g dst h s
  | .alwrd g held dst => Sys2Proof.Machine.execAlwrd g held dst s
  | .plynew g dst cap => Sys2Proof.Machine.execPlynew g dst cap s
  | .plyjoin g src => Sys2Proof.Machine.execPlyjoin g src s
  | .plyleave g src => Sys2Proof.Machine.execPlyleave g src s
  | .plybar g src => Sys2Proof.Machine.execPlybar g src s
  | .setpri g child prio => Sys2Proof.Machine.execSetpri g child prio s
  | .iadd x => Sys2Proof.Machine.execIadd x s
  | .isub x => Sys2Proof.Machine.execIsub x s
  | .iadds sub x => Sys2Proof.Machine.execIadds sub x s
  | .imul x => Sys2Proof.Machine.execImul x s
  | .imulh x => Sys2Proof.Machine.execImulh x s
  | .imad x => Sys2Proof.Machine.execImad x s
  | .imin x => Sys2Proof.Machine.execImin x s
  | .imax x => Sys2Proof.Machine.execImax x s
  | .iabs sat x => Sys2Proof.Machine.execIabs sat x s
  | .and x => Sys2Proof.Machine.execAnd x s
  | .or x => Sys2Proof.Machine.execOr x s
  | .xor x => Sys2Proof.Machine.execXor x s
  | .andn x => Sys2Proof.Machine.execAndn x s
  | .shl x => Sys2Proof.Machine.execShl x s
  | .shr x => Sys2Proof.Machine.execShr x s
  | .sar x => Sys2Proof.Machine.execSar x s
  | .clz x => Sys2Proof.Machine.execClz x s
  | .popc x => Sys2Proof.Machine.execPopc x s
  | .brev x => Sys2Proof.Machine.execBrev x s
  | .bfx x => Sys2Proof.Machine.execBfx x s
  | .bfi x => Sys2Proof.Machine.execBfi x s
  | .icmp x => Sys2Proof.Machine.execIcmp x s
  | .sel x => Sys2Proof.Machine.execSel x s
  | .mov x => Sys2Proof.Machine.execMov x s
  | .movi x => Sys2Proof.Machine.execMovi x s
  | .movw x => Sys2Proof.Machine.execMovw x s
  | .lea x => Sys2Proof.Machine.execLea x s
  | .plog x => Sys2Proof.Machine.execPlog x s
  | .movsp x => Sys2Proof.Machine.execMovsp x s
  | .dot4 sat x => Sys2Proof.Machine.execDot4 sat x s
  | .fadd x => Sys2Proof.Machine.execFadd x s
  | .fsub x => Sys2Proof.Machine.execFsub x s
  | .fmul x => Sys2Proof.Machine.execFmul x s
  | .ffma x => Sys2Proof.Machine.execFfma x s
  | .fmin x => Sys2Proof.Machine.execFmin x s
  | .fmax x => Sys2Proof.Machine.execFmax x s
  | .fneg x => Sys2Proof.Machine.execFneg x s
  | .fabs x => Sys2Proof.Machine.execFabs x s
  | .fcmp x => Sys2Proof.Machine.execFcmp x s
  | .fclass x => Sys2Proof.Machine.execFclass x s
  | .frnd mode x => Sys2Proof.Machine.execFrnd mode x s
  | .cvt x => Sys2Proof.Machine.execCvt x s
  | .pack x => Sys2Proof.Machine.execPack x s
  | .unpk x => Sys2Proof.Machine.execUnpk x s
  | .fdot2 x => Sys2Proof.Machine.execFdot2 x s
  | .shfl x => Sys2Proof.Machine.execShfl x s
  | .shflx x => Sys2Proof.Machine.execShflx x s
  | .shflup x => Sys2Proof.Machine.execShflup x s
  | .shfldn x => Sys2Proof.Machine.execShfldn x s
  | .vote x => Sys2Proof.Machine.execVote x s
  | .prfx x => Sys2Proof.Machine.execPrfx x s
  | .redv x => Sys2Proof.Machine.execRedv x s
  | .confl x => Sys2Proof.Machine.execConfl x s
  | .cpack x => Sys2Proof.Machine.execCpack x s
  | .sfRcp x => Sys2Proof.Machine.execSfRcp x s
  | .sfRsq x => Sys2Proof.Machine.execSfRsq x s
  | .sfSqrt x => Sys2Proof.Machine.execSfSqrt x s
  | .sfExp2 x => Sys2Proof.Machine.execSfExp2 x s
  | .sfLog2 x => Sys2Proof.Machine.execSfLog2 x s
  | .sfSin x => Sys2Proof.Machine.execSfSin x s
  | .sfCos x => Sys2Proof.Machine.execSfCos x s
  | .sfTanh x => Sys2Proof.Machine.execSfTanh x s
  | .sfSigm x => Sys2Proof.Machine.execSfSigm x s
  | .sfGelu x => Sys2Proof.Machine.execSfGelu x s
  | .sfDiv x => Sys2Proof.Machine.execSfDiv x s
  | .sfIdiv x => Sys2Proof.Machine.execSfIdiv x s
  | .sfWait g mask => Sys2Proof.Machine.execSfWait g mask s
  | .sfDelivery core queue idx => Sys2Proof.Machine.execSfDelivery core queue idx s
  | .ld x => Sys2Proof.Machine.execLd x s
  | .st x => Sys2Proof.Machine.execSt x s
  | .ldu x => Sys2Proof.Machine.execLdu x s
  | .stu x => Sys2Proof.Machine.execStu x s
  | .ldp x => Sys2Proof.Machine.execLdp x s
  | .stp x => Sys2Proof.Machine.execStp x s
  | .lds x => Sys2Proof.Machine.execLds x s
  | .sts x => Sys2Proof.Machine.execSts x s
  | .fpsh x => Sys2Proof.Machine.execFpsh x s
  | .fpop x => Sys2Proof.Machine.execFpop x s
  | .fifoRequestServed core bank => Sys2Proof.Machine.execFifoRequestServed core bank s
  | .prf g l2 addr => Sys2Proof.Machine.execPrf g l2 addr s
  | .cctl g op addr => Sys2Proof.Machine.execCctl g op addr s
  | .bankset g bank mode => Sys2Proof.Machine.execBankset g bank mode s
  | .probe g dst addr => Sys2Proof.Machine.execProbe g dst addr s
  | .pageTableWalk core asid va write => Sys2Proof.Machine.execPageTableWalk core asid va write s
  | .velhamLineRequest r => Sys2Proof.Machine.execVelhamLineRequest r s
  | .resultReturn task out lane => Sys2Proof.Machine.execResultReturn task out lane s
  | .storeGloballyPerformed req => Sys2Proof.Machine.execStoreGloballyPerformed req s
  | .atomicApplication req => Sys2Proof.Machine.execAtomicApplication req s
  | .deferredFault req => Sys2Proof.Machine.execDeferredFault req s
  | .atom x => Sys2Proof.Machine.execAtom x s
  | .cas x => Sys2Proof.Machine.execCas x s
  | .atomd x => Sys2Proof.Machine.execAtomd x s
  | .aflush g => Sys2Proof.Machine.execAflush g s
  | .batchApplication task => Sys2Proof.Machine.execBatchApplication task s
  | .fence g kind scope => Sys2Proof.Machine.execFence g kind scope s
  | .lda x => Sys2Proof.Machine.execLda x s
  | .stl x => Sys2Proof.Machine.execStl x s
  | .atoms x => Sys2Proof.Machine.execAtoms x s
  | .tcLoad x => Sys2Proof.Machine.execTcLoad x s
  | .tcStore x => Sys2Proof.Machine.execTcStore x s
  | .tcQnt2 x => Sys2Proof.Machine.execTcQnt2 x s
  | .tcCopy x => Sys2Proof.Machine.execTcCopy x s
  | .tcFill x => Sys2Proof.Machine.execTcFill x s
  | .tcLyset g scr ly addr => Sys2Proof.Machine.execTcLyset g scr ly addr s
  | .arrive g set word amt => Sys2Proof.Machine.execArrive g set word amt s
  | .await g dst word gen timeout => Sys2Proof.Machine.execAwait g dst word gen timeout s
  | .awaitTimeout task lane => Sys2Proof.Machine.execAwaitTimeout task lane s
  | .awtest g dst word => Sys2Proof.Machine.execAwtest g dst word s
  | .tcStat g dst => Sys2Proof.Machine.execTcStat g dst s
  | .engineOperationStart core op => Sys2Proof.Machine.execEngineOperationStart core op s
  | .engineOperationComplete core op => Sys2Proof.Machine.execEngineOperationComplete core op s
  | .engineOperationFault core op => Sys2Proof.Machine.execEngineOperationFault core op s
  | .capEnter x => Sys2Proof.Machine.execCapEnter x s
  | .capExit x => Sys2Proof.Machine.execCapExit x s
  | .capAbort x => Sys2Proof.Machine.execCapAbort x s
  | .capProbe x => Sys2Proof.Machine.execCapProbe x s
  | .cellGrant cell => Sys2Proof.Machine.execCellGrant cell s
  | .leaseExpiry cell => Sys2Proof.Machine.execLeaseExpiry cell s
  | .cxGet cd n => Sys2Proof.Machine.execCxGet cd n s
  | .cxPut n ca => Sys2Proof.Machine.execCxPut n ca s
  | .cxLd cd ca d => Sys2Proof.Machine.execCxLd cd ca d s
  | .cxAlu op cd ca cb imm => Sys2Proof.Machine.execCxAlu op cd ca cb imm s
  | .cxMovi cd imm sh => Sys2Proof.Machine.execCxMovi cd imm sh s
  | .cxBr cond ca cb off => Sys2Proof.Machine.execCxBr cond ca cb off s
  | .cxRes cd sel => Sys2Proof.Machine.execCxRes cd sel s
  | .capExitStep => Sys2Proof.Machine.execCapExitStep s
  | .capAbortStep => Sys2Proof.Machine.execCapAbortStep s
  | .epochClosed task lane => Sys2Proof.Machine.execEpochClosed task lane s
  | .mxArm x => Sys2Proof.Machine.execMxArm x s
  | .mxSign g cv => Sys2Proof.Machine.execMxSign g cv s
  | .mxFence g => Sys2Proof.Machine.execMxFence g s
  | .mxWait g dst cv => Sys2Proof.Machine.execMxWait g dst cv s
  | .mxZero g tiles => Sys2Proof.Machine.execMxZero g tiles s
  | .mxDrain x => Sys2Proof.Machine.execMxDrain x s
  | .mxFill x => Sys2Proof.Machine.execMxFill x s
  | .mxStep g dst cv => Sys2Proof.Machine.execMxStep g dst cv s
  | .mxAbort g cv => Sys2Proof.Machine.execMxAbort g cv s
  | .mxOperationStart core => Sys2Proof.Machine.execMxOperationStart core s
  | .matrixStep core => Sys2Proof.Machine.execMatrixStep core s
  | .mxOperationComplete core => Sys2Proof.Machine.execMxOperationComplete core s
  | .pgLoad x => Sys2Proof.Machine.execPgLoad x s
  | .pgRun x => Sys2Proof.Machine.execPgRun x s
  | .pgSave x free => Sys2Proof.Machine.execPgSave x free s
  | .pgRest x => Sys2Proof.Machine.execPgRest x s
  | .pgStat g dst ctx => Sys2Proof.Machine.execPgStat g dst ctx s
  | .trap g num => Sys2Proof.Machine.execTrap g num s
  | .sysrd g dst num => Sys2Proof.Machine.execSysrd g dst num s
  | .syswr g src num => Sys2Proof.Machine.execSyswr g src num s
  | .bkpt g tag => Sys2Proof.Machine.execBkpt g tag s
  | .susp g us => Sys2Proof.Machine.execSusp g us s
  | .suspDelayExpiry task => Sys2Proof.Machine.execSuspDelayExpiry task s
  | .taskPlacement q pbase => Sys2Proof.Machine.execTaskPlacement q pbase s
  | .stealRequest die kernel => Sys2Proof.Machine.execStealRequest die kernel s
  | .topupCredit n => Sys2Proof.Machine.execTopupCredit n s
  | .taskRetirement task => Sys2Proof.Machine.execTaskRetirement task s
  | .starvationSelect core spindle => Sys2Proof.Machine.execStarvationSelect core spindle s
  | .vfSliceExpiry core slots binds => Sys2Proof.Machine.execVfSliceExpiry core slots binds s
  | .preempt core slots => Sys2Proof.Machine.execPreempt core slots s
  | .loadWithdrawal task out => Sys2Proof.Machine.execLoadWithdrawal task out s
  | .contextResume task core slot => Sys2Proof.Machine.execContextResume task core slot s
  | .fqheadWrite core value => Sys2Proof.Machine.execFqheadWrite core value s
  | .controlSpaceWrite core off value => Sys2Proof.Machine.execControlSpaceWrite core off value s
  | .replay core slot => Sys2Proof.Machine.execReplay core slot s
  | .skip core slot => Sys2Proof.Machine.execSkip core slot s
  | .terminate core slot => Sys2Proof.Machine.execTerminate core slot s
  | .escalate core slot => Sys2Proof.Machine.execEscalate core slot s
  | .halt core slot => Sys2Proof.Machine.execHalt core slot s
  | .release core slot => Sys2Proof.Machine.execRelease core slot s
  | .pagerFaultGroup asid page edits serve => Sys2Proof.Machine.execPagerFaultGroup asid page edits serve s
  | .handlerSpawn task => Sys2Proof.Machine.execHandlerSpawn task s
  | .tlbInvalidation asid lo len => Sys2Proof.Machine.execTlbInvalidation asid lo len s
  | .sealCacheShootdown asid => Sys2Proof.Machine.execSealCacheShootdown asid s
  | .mxrst core => Sys2Proof.Machine.execMxrst core s
  | .mxIdleExpiry core => Sys2Proof.Machine.execMxIdleExpiry core s
  | .launchRecord vf queue sender rec => Sys2Proof.Machine.execLaunchRecord vf queue sender rec s
  | .tornWrite vf queue => Sys2Proof.Machine.execTornWrite vf queue s
  | .launchAdmission vf queue => Sys2Proof.Machine.execLaunchAdmission vf queue s
  | .nodeStart vf queue => Sys2Proof.Machine.execNodeStart vf queue s
  | .nodeCompletion launch node => Sys2Proof.Machine.execNodeCompletion launch node s
  | .launchCompletion launch => Sys2Proof.Machine.execLaunchCompletion launch s
  | .apertureRead vf off len => Sys2Proof.Machine.execApertureRead vf off len s
  | .apertureWrite vf off data => Sys2Proof.Machine.execApertureWrite vf off data s
  | .spawnxRequest r => Sys2Proof.Machine.execSpawnxRequest r s
  | .queueSettings vf queue asid prin base size sealId own => Sys2Proof.Machine.execQueueSettings vf queue asid prin base size sealId own s
  | .accessControlTable vf queue idx entry => Sys2Proof.Machine.execAccessControlTable vf queue idx entry s
  | .bindRecord b => Sys2Proof.Machine.execBindRecord b s
  | .load x => Sys2Proof.Machine.execLoad x s
  | .upstreamHotReset => Sys2Proof.Machine.execUpstreamHotReset s
  | .verifiedBoot => Sys2Proof.Machine.execVerifiedBoot s
  | .attestationRequest vf nonce => Sys2Proof.Machine.execAttestationRequest vf nonce s
  | .frzN => Sys2Proof.Machine.execFrzN s
  | .freeze => Sys2Proof.Machine.execFreeze s
  | .checkpoint => Sys2Proof.Machine.execCheckpoint s
  | .restore => Sys2Proof.Machine.execRestore s
  | .counterMirror vf => Sys2Proof.Machine.execCounterMirror vf s
  | .issueGating core spindle on => Sys2Proof.Machine.execIssueGating core spindle on s
  | .addressSpaceDescriptor x => Sys2Proof.Machine.execAddressSpaceDescriptor x s
  | .teardown asid => Sys2Proof.Machine.execTeardown asid s

end Sys2Proof.Machine
end

