-- ==== Sys2Proof/Machine/Turn.lean ====
section
/-! DEFINITION. Turns: what a spindle's issue, a body step and an event do in a step, which turns there are, and the state in which a
given word is the next one fetched (spec/04_control.md R71; spec/13_capsules.md R263, R268; spec/21_bringup.md R371, R373). run gives
an instruction its meaning. -/

namespace Sys2Proof.Machine

/-! ### Turns -/

/-- Pass the next state of an outcome on. -/
def onNext (o : Host.Outcome State Fault Refusal) (f : State → State) : Host.Outcome State Fault Refusal :=
  match o with
  | .next s => .next (f s)
  | .fault r => .fault r
  | .refused r => .refused r

/-- The instruction that issues through the second port beside the head group's (R73): its group and state. -/
def State.coIssue (s : State) (t : Task) (h : Mask) (i : Instr) : Option (Mask × Instr) :=
  let j := t.secondGroup
  match i.aluSets with
  | none => none
  | some x => if j = 0 || !t.windowsOpen j then none else match s.issueOf t j with
    | .fetchFault _ _ _ _ => none
    | .instr k => match k.aluSets with
      | none => none
      | some y =>
        if mayCoIssue h j x y && t.sFree j k && decide (i.aluCost + k.aluCost ≤ t.alw.toNat) then some (j, k) else none

/-- The issue of a ready task: its head group, then a co-issued group (R71, R74). -/
def State.issueReady (run : Instr → State → Host.Outcome State Fault Refusal) (s : State) (r : Ready) : Host.Outcome State Fault Refusal :=
  match r.what with
  | .fetchFault c d v n => .next ((s.updTask r.t.id fun _ => r.t).takeFetchFault r.t r.group c d v n)
  | .instr i =>
    let first := run i (s.issuing r.t r.group)
    match s.coIssue r.t r.group i with
    | none => first
    | some (j, k) => match first with
      | .next s1 =>
        if ((s1.task? r.t.id).map Task.canIssue).getD false then
          run k { s1.fetchTouch r.t (r.t.pcOf j) with cur := .group r.t.id j }
        else .next s1
      | o => o

/-- A spindle's cycle. -/
def State.issueTurn (run : Instr → State → Host.Outcome State Fault Refusal) (s : State) (core sp : Nat) :
    Host.Outcome State Fault Refusal :=
  match s.choose run core sp with
  | none => .next s
  | some r =>
    let s1 := s.noteSelect core sp r.t
    s1.issueReady run { r with t := { r.t with lastSelect := s.clock } }

/-- One step of a capsule body, where it is the body's turn: its word is fetched, decoded and executed, and it is the last of its core's
bodies to come again (R263, R268). -/
def State.capTurn (run : Instr → State → Host.Outcome State Fault Refusal) (s0 : State) (task lane : Nat) :
    Host.Outcome State Fault Refusal :=
  if (s0.sequence ((s0.task? task).map Task.core |>.getD 0)).head? ≠ some (task, lane) then .next s0
  else
  let s := s0.rotateBody task lane
  match s.bodyFetch task lane with
  | .idle => .next s
  | .ended s1 => .next s1
  | .word w => match decodeBody (BitVec.ofNat 64 w) with
    | none => .next (s.bodyMalformed task lane)
    | some i => run i { s with cur := .body task lane }

def State.runTurn (run : Instr → State → Host.Outcome State Fault Refusal) (s : State) : Turn → Host.Outcome State Fault Refusal
  | .issue core sp => s.issueTurn run core sp
  | .capStep task lane => s.capTurn run task lane
  | .redo task => .next (s.goOn task)
  | .event i => run i s

/-! ### The turns that can come next (log 3) -/

/-- Events of a core's units. -/
def State.coreEvents (s : State) (c : Core) : List Instr :=
  List.flatten
    [(List.range 16).flatMap fun q => (List.range (s.sfQueue c.id q).length).map fun i => Instr.sfDelivery c.id q i,
     (distinct (c.fifoReqs.map (·.bank))).map fun b => Instr.fifoRequestServed c.id b,
     c.copies.flatMap fun o =>
       [Instr.engineOperationStart c.id o.id, Instr.engineOperationComplete c.id o.id, Instr.engineOperationFault c.id o.id],
     [Instr.mxOperationStart c.id, Instr.matrixStep c.id, Instr.mxOperationComplete c.id, Instr.mxIdleExpiry c.id],
     if c.mxrst then [Instr.mxrst c.id] else [],
     (List.range 4).map fun p => Instr.starvationSelect c.id p,
     (s.supervise c.id).toList,
     c.binds.flatMap fun b => (s.tasks.filter fun t => t.place == .saved && t.kernel == b.kernel && t.asid == b.asid).map fun t =>
       Instr.contextResume t.id c.id b.slot,
     c.binds.map fun b => Instr.stealRequest (dieOf c.id) b.kernel]

/-- Placements that a waiting task may get; the base of a private region is root firmware's choice (R396). -/
def State.placements (s : State) (t : Task) : List Instr :=
  let pbase : BitVec 64 := (Config.freeReg s.tick 40000).setWidth 64 + ((Config.freeReg s.tick 40001).setWidth 64 <<< 32)
  let both (q : PlaceQueue) : List Instr := [Instr.taskPlacement q pbase, Instr.taskPlacement q 0]
  match t.place with
  | .localQ c => both (.localQ c)
  | .distQ d => both (.dist d)
  | .dispatch => both .dispatcher
  | _ => []

/-- Events that happen to a task. -/
def State.taskEvents (s : State) (t : Task) : List Instr :=
  List.flatten
    [t.outs.flatMap fun o => (lanesOf o.open_).map fun l => Instr.resultReturn t.id o.id l,
     t.outs.map fun o => Instr.loadWithdrawal t.id o.id,
     [Instr.batchApplication t.id, Instr.taskRetirement t.id, Instr.suspDelayExpiry t.id, Instr.handlerSpawn t.id],
     t.waits.map fun w => Instr.awaitTimeout t.id ((lowest? w.lanes).getD 0),
     t.capLanes.flatMap fun l => [Instr.cellGrant l.cell, Instr.leaseExpiry l.cell, Instr.epochClosed t.id l.lane],
     s.placements t]

/-- Events of the memory system, the account units, the fabric and the launch firmware. -/
def State.deviceEvents (s : State) : List Instr :=
  List.flatten
    [s.reqs.flatMap fun r => [Instr.storeGloballyPerformed r.id, Instr.atomicApplication r.id, Instr.deferredFault r.id],
     (List.range s.credits.length).map fun i => Instr.topupCredit i,
     s.inbound.map fun r => Instr.spawnxRequest r,
     (List.range Config.numVfs).flatMap fun v => (List.range Config.queuesPerVf).flatMap fun q =>
       [Instr.launchAdmission v q, Instr.nodeStart v q],
     s.launches.flatMap fun l => Instr.launchCompletion l.id :: l.nodes.map fun n => Instr.nodeCompletion l.id n.idx,
     if s.tierPending then [Instr.checkpoint] else [],
     if s.power = .open_ then [] else [Instr.verifiedBoot]]

/-- Every turn of the device's own units, of each core's bodies the one whose turn it is (R263); one that is not due changes nothing. What the
host, the management port, peers and the owner's firmware requests do comes by the agenda only. -/
def State.turns (s : State) : List Turn :=
  List.flatten
    [s.cores.flatMap fun c => (List.range 4).map fun p => Turn.issue c.id p,
     s.cores.flatMap fun c => ((s.sequence c.id).take 1).map fun x => Turn.capStep x.1 x.2,
     (s.tasks.filter fun t => t.isPlaced && !(t.pendingReplays.isEmpty && t.deferred.isEmpty && t.deferredCopies.isEmpty)).map fun t => Turn.redo t.id,
     (s.cores.flatMap fun c => s.coreEvents c).map fun i => Turn.event i,
     (s.tasks.flatMap fun t => s.taskEvents t).map fun i => Turn.event i,
     s.deviceEvents.map fun i => Turn.event i]

/-- The turn that comes next: the head of the agenda, or one of the device's own, as Config.pick says. -/
def State.nextTurn (s : State) : Option Turn × State :=
  match s.agenda with
  | t :: r => (some t, { s with agenda := r })
  | [] => let ts := s.turns; (ts[Config.pick s.tick % ts.length]?, s)

/-- Before step 4 of the start (R371) no task runs: only what needs no running firmware acts; windows read zero and discard writes. -/
def Turn.beforeOpen : Turn → Bool
  | .event .verifiedBoot | .event .frzN | .event .freeze | .event .upstreamHotReset | .event (.apertureRead _ _ _) => true
  | _ => false

/-- A cycle has passed (log 13). -/
def State.pass (s : State) : State :=
  { s with tick := s.tick + 1, clock := s.clock + 1 + BitVec.ofNat 64 (Config.idle s.tick), cur := .idle }

/-- One step: every clock of a frozen device stands (R373). -/
def stepWith (run : Instr → State → Host.Outcome State Fault Refusal) (s : State) : Host.Outcome State Fault Refusal :=
  if s.power = .frozen then .next s
  else
    let (turn, s1) := s.nextTurn
    match turn with
    | none => .next s1.pass
    | some t => if s.power = .open_ || t.beforeOpen then onNext (s1.runTurn run t) State.pass else .next s1.pass

/-! ### A word placed where the next fetch finds it -/

/-- Bytes that map the 256 MiB at virtual 0 to the low physical addresses of a device, readable, writable and executable, through
tables at 0x10000, 0x11000 and 0x12000. -/
def fetchTables (dev : Nat) (m : Store 8) : Store 8 :=
  let d := dev * 2 ^ 42
  let m1 := (m.writeLE (d + 0x10000) 16 (d + 0x11003)).writeLE (d + 0x11000) 16 (d + 0x12003)
  m1.writeLE (d + 0x12000) 16 (d + 0x19D)

def fetchKernel : Kernel := { kid := 1, asid := 1, cbase := 0x40000, w := 32, n := 192, priv := 0, scr := 0, entry := 0 }

/-- The device open, with one task of address space 1 in slot 0 of core 0 whose code is the word; a word of a capsule body stands
as the next step of a cell at 0x50000 that the task's lane 0 holds (log 14). -/
def State.placeWord (s : State) (nbits w : Nat) (body : Bool) : State :=
  let id := s.nextTask
  let d := s.deviceNo.toNat * 2 ^ 42
  let cap : Wait :=
    { lanes := 1, pc := 0x100, len := 16
      kind := .capEnter 0 0 [{ lane := 0, cellVa := 0x50000, cell := d + 0x50000, slotVa := 0x60000, code := none, args := [], seq := 0,
                               stage := .own 1, mark := none, next := 0x40000 }] }
  let t0 : Task := { Task.fresh id 0 1 0 1 0 32 (BitVec.ofNat 64 (2 ^ 40)) 0 0 (.placed 0 0) 0 with everPlaced := true, lastSelect := s.clock }
  let t : Task := if body then t0.hold cap .capsule else t0
  let m1 := (fetchTables s.deviceNo.toNat s.mem).writeLE (d + 0x40000) 16 (w % 2 ^ min nbits 128)
  let m := if body then (m1.writeLE (d + 0x50000) 8 (ownerWord id 1 0)).writeLE (d + 0x50008) 24 (1 + 0x40000 * 2 ^ 64 + 0x60000 * 2 ^ 128)
    else m1
  let s1 : State := { s with
    power := .open_, agenda := [if body then .capStep id 0 else .issue 0 0], mem := m, l2 := [], tlb := [], dieTlb := [], reqs := [], nextTask := id + 1
    ueLines := s.ueLines.filter fun l => l ≠ d + 0x40000
    kernels := fetchKernel :: s.kernels, asds := { Asd.reset 1 with rootFrame := BitVec.ofNat 40 ((d + 0x10000) / 4096) } :: s.asds
    tasks := t :: s.tasks.filter fun u => !(u.isPlaced && u.core = 0) }
  s1.updCore 0 fun c => { c with
    spindles := List.replicate 4 Spindle.reset, fqHead := c.fqTail, fifoReqs := [], copies := []
    binds := [{ slot := 0, kernel := 1, vf := 0, asid := 1, held := true, since := s.clock }] }

/-- Whether a word is one of a capsule body. -/
def isBodyWord (nbits w : Nat) : Bool :=
  match decode? 192 32 0 (w % 2 ^ min nbits 128) with
  | .error (6, _) => true
  | _ => false

end Sys2Proof.Machine
end

