-- ==== Sys2Proof/Machine/Step.lean ====
section
/-! DEFINITION. One step of the device. -/

namespace Sys2Proof.Machine

/-- One step: the next turn, in which exec gives each instruction its meaning. -/
def step (s : State) : Host.Outcome State Fault Refusal := stepWith exec s

/-- The state with a word stored where step fetches its next instruction. -/
def State.withFetchWord (s : State) (nbits w : Nat) : State := s.placeWord nbits w (isBodyWord nbits w)

end Sys2Proof.Machine
end

