-- ==== Sys2Proof/Safety.lean ====
section
/-! DEFINITION. The terms in which claims speak: who issues, what an instruction changed and what it left alone, which turns are a
device's own, and the invariant of the memories. -/

namespace Sys2Proof.Machine

/-- A group of lanes of task t, whose number is tid, is issuing. -/
def Issues (s : State) (tid : Nat) (t : Task) (group : Mask) : Prop := s.cur = .group tid group ∧ s.task? tid = some t

/-- The state s' is s but for the one task, which is t' in it: memory, cores, other tasks and every other unit are unchanged. -/
def OnlyTask (s s' : State) (tid : Nat) (t' : Task) : Prop :=
  s' = { s with tasks := s'.tasks } ∧ s'.task? tid = some t' ∧ ∀ j, j ≠ tid → s'.task? j = s.task? j

/-- A lane that runs and stands at its own meeting, at the meeting's depth (R78). -/
def Lane.Arrives (x : Lane) : Prop :=
  x.meetValid = true ∧ x.exited = false ∧ x.park = .none ∧ x.depth = x.meetDepth ∧ x.pc = x.meetAddr

/-- Lane l, where the instruction of the group left the lanes as `lane` says, is at its meeting: parked there before, or a lane of the
group that arrives (R78). -/
def AtMeeting (group : Mask) (lane : Nat → Lane) (l : Nat) : Prop :=
  (lane l).park = .meeting ∨ (group.getLsbD l = true ∧ (lane l).Arrives)

/-- Some lane of the task's n that is not at its meeting, and has not exited, holds the meeting value of lane l (R79). -/
def MeetingHeld (n : Nat) (group : Mask) (lane : Nat → Lane) (l : Nat) : Prop :=
  ∃ k < n, ¬ AtMeeting group lane k ∧ (lane k).exited = false ∧ (lane k).meetValid = true ∧ (lane k).meetDepth = (lane l).meetDepth ∧
    (lane k).meetAddr = (lane l).meetAddr

/-- Lane l after the end of the group's instruction (R78-R80): a lane at its meeting is parked there while another lane holds the meeting
back; else it is released, which ends its meeting; every other lane stands as the instruction left it. -/
def Settled (n : Nat) (group : Mask) (lane : Nat → Lane) (l : Nat) (y : Lane) : Prop :=
  (¬ AtMeeting group lane l → y = lane l) ∧
  (AtMeeting group lane l → MeetingHeld n group lane l → y = { lane l with park := .meeting }) ∧
  (AtMeeting group lane l → ¬ MeetingHeld n group lane l → y = { lane l with park := .none, meetValid := false })

/-- Lane l runs on: it has not exited and is neither parked nor arriving (R76). -/
def RunsOn (n : Nat) (group : Mask) (lane : Nat → Lane) (l : Nat) : Prop :=
  l < n ∧ (lane l).exited = false ∧ (lane l).park = .none ∧ ¬ (group.getLsbD l = true ∧ (lane l).Arrives)

/-- A lane stays in O after the group's instruction: one that neither issued, nor is parked, nor has exited (R76). -/
def StaysInO (n : Nat) (group : Mask) (o : Mask) (lane : Nat → Lane) (l : Nat) : Prop :=
  o.getLsbD l = true ∧ RunsOn n group lane l ∧ group.getLsbD l = false

/-- What becomes of the sets D and O, d and o before, at the end of the group's instruction (R76): when no lane stays in O, or every
lane that runs on is in D, both are empty; else O keeps the lanes that stay and D its unexited lanes. -/
def SetsEnd (n : Nat) (group d o : Mask) (lane : Nat → Lane) (d' o' : Mask) : Prop :=
  let done : Prop := (∀ l < 64, ¬ StaysInO n group o lane l) ∨ ∀ l < 64, RunsOn n group lane l → d.getLsbD l = true
  (done → d' = 0 ∧ o' = 0) ∧
  (¬ done → ∀ l < 64, (o'.getLsbD l = true ↔ StaysInO n group o lane l) ∧
    (d'.getLsbD l = true ↔ d.getLsbD l = true ∧ l < n ∧ (lane l).exited = false))

/-- The lanes of a task, and its sets D and O, after an instruction of the group that left lane l as `lane l` (R71 steps 5 to 7). -/
structure LanesEnd (t t' : Task) (group : Mask) (lane : Nat → Lane) : Prop where
  length : t'.lanes.length = t.lanes.length
  lanes : ∀ l, l < t.lanes.length → Settled t.lanes.length group lane l (t'.lane l)
  sets : SetsEnd t.lanes.length group t.dset t.oset lane t'.dset t'.oset

/-- A lane that goes on by len bytes if it is in the group. -/
def Task.moved (t : Task) (group : Mask) (len l : Nat) : Lane :=
  if group.getLsbD l then { t.lane l with pc := (t.lane l).pc + BitVec.ofNat 32 len } else t.lane l

/-- The lanes of the group went on by len bytes, every other lane stands; call state, exits and tokens are unchanged. -/
def LanesMoved (t t' : Task) (group : Mask) (len : Nat) : Prop := LanesEnd t t' group (t.moved group len)

/-- Whether v register r of lane l belongs to a destination written in the lanes of act. -/
def Writes (dst : Reg) (wide : Bool) (act : Mask) (r l : Nat) : Prop :=
  match dst with
  | .v n => act.getLsbD l = true ∧ (n.val = r ∨ (wide = true ∧ n.val + 1 = r))
  | .s _ => False

/-- Whether an instruction with this destination, performed in the lanes of act, writes a register that the result o is on its way to;
k is the key of the register. -/
def Overwrites (dst : Reg) (wide : Bool) (act : Mask) (o : Out) (k : Nat) : Prop :=
  match dst with
  | .v _ => ∃ r l, l < 64 ∧ Writes dst wide act r l ∧ o.coversV r l = true ∧ k = vkey r l
  | .s n => act ≠ 0 ∧ o.coversS n.val = true ∧ k = skey n.val

/-- The same of a special-function result. -/
def OverwritesSf (dst : Reg) (wide : Bool) (act : Mask) (o : SfOp) (k : Nat) : Prop :=
  ∃ r l, l < 64 ∧ Writes dst wide act r l ∧ o.covers r l = true ∧ k = vkey r l

/-- The notes c' are the notes c with the registers that w names. -/
def Noted (c c' : Store 1) (w : Nat → Prop) : Prop := ∀ k, (w k → c'.get k = 1) ∧ (¬ w k → c'.get k = c.get k)

/-- The results on their way to the task t' are those of t, with the group's instruction counted in their windows, and with notes that
the registers which w and v name were written (R37, R157). -/
structure ResultsNoted (t t' : Task) (group : Mask) (w : Out → Nat → Prop) (v : SfOp → Nat → Prop) : Prop where
  outs : ∃ c : Out → Store 1, t'.outs = (t.countWindows group).outs.map (fun o => { o with clob := c o }) ∧ ∀ o, Noted o.clob (c o) (w o)
  sfOps : ∃ c : SfOp → Store 1, t'.sfOps = t.sfOps.map (fun o => { o with clob := c o }) ∧ ∀ o, Noted o.clob (c o) (v o)

/-- Register x after an instruction: the value in a v register or an even pair of lane l, in an s register extended as R127 says;
s63 stays zero (R33). -/
def Holds (t : Task) (ty : Ty) (dst : Reg) (l x : Nat) : Prop :=
  match dst with
  | .v n => if ty.wide then t.vreg n.val l = BitVec.ofNat 32 x ∧ t.vreg (n.val + 1) l = BitVec.ofNat 32 (x / 2 ^ 32)
            else t.vreg n.val l = BitVec.ofNat 32 x
  | .s n => t.sreg n = if n = 63 then 0 else sExtend ty x

/-- The frame of an instruction of the group whose destination is a register: all of the task but the destination, the flags of FPCTL,
the account, the lanes' places and D and O is unchanged; a result on its way is unchanged but for its windows, in which the instruction
counts, and the note that its register was written (R37, R157). -/
structure ResultFrame (t t' : Task) (group act : Mask) (dst : Reg) (wide : Bool) (cost : Nat) (lane : Nat → Lane) : Prop where
  rest : t' = { t with alw := t'.alw, fpctl := t'.fpctl, vregs := t'.vregs, sregs := t'.sregs, lanes := t'.lanes, outs := t'.outs
                       sfOps := t'.sfOps, dset := t'.dset, oset := t'.oset }
  account : t'.alw = t.alw - BitVec.ofNat 64 cost
  lanes : LanesEnd t t' group lane
  notes : ResultsNoted t t' group (Overwrites dst wide act) (OverwritesSf dst wide act)
  vregs : ∀ r l, l < 64 → ¬ Writes dst wide act r l → t'.vreg r l = t.vreg r l
  sregs : ∀ r, dst ≠ .s r → t'.sreg r = t.sreg r

/-- The flags that the lanes of a list raise into FPCTL. -/
def raised (w : BitVec 64) (ls : List Nat) (f : Nat → FFlags) : BitVec 64 := ls.foldl (fun w l => w ||| ((f l).setWidth 64 <<< 4)) w

/-- An ALU instruction has completed: one AU for each slot, the results in the destination, flags ORed into FPCTL, and nothing else. -/
def AluDone (s s' : State) (tid : Nat) (t : Task) (group act : Mask) (len cost : Nat) (ty : Ty) (dst : Reg)
    (f : Nat → Nat × FFlags) : Prop :=
  ∃ t', OnlyTask s s' tid t' ∧ ResultFrame t t' group act dst ty.wide cost (t.moved group len) ∧
    (∀ l ∈ performLanes dst act, Holds t' ty dst l (f l).1) ∧
    t'.fpctl = raised t.fpctl (performLanes dst act) fun l => (f l).2

/-- A task after an instruction of the group whose own effect on the task's other state is what u shows, and which left lane l as
`lane l`, and D and O as u has them: the account has paid, and a counted instruction has passed in every open window (R37, R95). -/
def Task.Ends (t u t' : Task) (group : Mask) (cost : Nat) (lane : Nat → Lane) : Prop :=
  t' = { u with alw := t.alw - BitVec.ofNat 64 cost, lanes := t'.lanes, outs := (t.countWindows group).outs, dset := t'.dset
                oset := t'.oset } ∧ LanesEnd u t' group lane

/-- The same where the group has gone on behind the instruction. -/
def Task.After (t u t' : Task) (group : Mask) (len cost : Nat) : Prop := t.Ends u t' group cost (t.moved group len)

/-- An instruction has completed that changes the task to u and nothing else. -/
def TaskDone (s s' : State) (tid : Nat) (t u : Task) (group : Mask) (len cost : Nat) : Prop :=
  ∃ t', OnlyTask s s' tid t' ∧ t.After u t' group len cost

/-- Predicate q of lane l after results for the lanes of act went to predicate p; p0 stays true (R33, R126). -/
def PredHolds (t t' : Task) (p : Fin 8) (act : Mask) (f : Nat → Bool) : Prop :=
  ∀ q l, l < 64 → (t'.pred q).getLsbD l = if q = p ∧ p ≠ 0 ∧ act.getLsbD l = true then f l else (t.pred q).getLsbD l

/-- A comparison has completed: the predicate and the flags of FPCTL, and nothing else. -/
def PredDone (s s' : State) (tid : Nat) (t : Task) (group act : Mask) (len cost : Nat) (dst : Fin 8) (f : Nat → Bool × FFlags) : Prop :=
  ∃ u, TaskDone s s' tid t u group len cost ∧ u = { t with preds := u.preds, fpctl := raised t.fpctl (lanesOf act) fun l => (f l).2 } ∧
    PredHolds t u dst act fun l => (f l).1

/-- An instruction has completed that changes the task to u, left lane l as `lane l`, and changes nothing else. -/
def TaskEnds (s s' : State) (tid : Nat) (t u : Task) (group : Mask) (cost : Nat) (lane : Nat → Lane) : Prop :=
  ∃ t', OnlyTask s s' tid t' ∧ t.Ends u t' group cost lane

/-- A lane of the group after an instruction that f describes for its guard-true lanes; the others go on behind it (R45, R71). -/
def Task.sent (t : Task) (group act : Mask) (len : Nat) (f : Nat → Lane → Lane) (l : Nat) : Lane :=
  if act.getLsbD l then f l (t.lane l) else t.moved group len l

/-- The PC of the issuing group (R69). -/
def Task.groupPc (t : Task) (group : Mask) : BitVec 32 := (t.lane ((lowest? group).getD 0)).pc

/-! ### The states that an issue goes through (R71, R95, R97) -/

/-- The state once an instruction of the group has been charged: its fixed part and its reservation have left ALW, the reservation
has entered HELD, and a counted instruction has passed in every open window. -/
def State.paid (s : State) (tid : Nat) (group : Mask) (cost reserve : Nat) : State :=
  s.updTask tid fun t => (t.charge cost reserve).countWindows group

/-- The group goes on behind the instruction. -/
def State.goneOn (s : State) (tid : Nat) (group : Mask) (len : Nat) : State := s.updTask tid fun t => t.advance group len

/-- The group parks on a wait. -/
def State.parked (s : State) (tid : Nat) (t : Task) (group : Mask) (len : Nat) (k : WaitKind) (p : Park) : State :=
  s.updTask tid fun u => u.hold { lanes := group, pc := t.groupPc group, len := BitVec.ofNat 32 len, kind := k } p

/-- The end of an issue: lanes park at their meetings, groups are deferred, meetings release (R71 steps 5 to 7). -/
def State.ended (s : State) (tid : Nat) (group : Mask) : State := s.updTask tid fun t => t.settleLanes group

/-- An instruction whose cost the account does not cover takes trap 0x0A (R95, R98-R100): its record names the cost and is kept with the
task, which unwinds, or pauses with everything as before. -/
def Exhausts (s : State) (tid : Nat) (t : Task) (group : Mask) (i : Instr) (cost : Nat) : Prop :=
  ∃ s' t' r, exec i s = .next s' ∧ s'.task? tid = some t' ∧ t'.trapRec = some r ∧ r.code = 0x0A ∧ r.pc = t.groupPc group ∧
    r.gmask = group ∧ r.alw = t.alw ∧ r.detail = BitVec.ofNat 128 (cost % 2 ^ 64) ∧
    (t.ownExm = .unwind → t.stop = none → t.isRetired = false → t'.stop = some .exhausted) ∧
    (t.ownExm = .pause → t.parent ≠ some tid → t.capLanes = [] → t'.paused = true ∧ t'.alw = t.alw ∧ t'.held = t.held ∧ t'.sregs = t.sregs ∧
      t'.vregs = t.vregs ∧ t'.preds = t.preds ∧ t'.lanes = t.lanes ∧ t'.canIssue = false ∧ t'.fault = t.fault)

/-- The cost of an instruction that is the same whatever its operands and guards, and that no check precedes (R95). -/
def flatCost : Instr → Option Nat
  | .nop _ | .bra _ _ | .brx _ _ _ | .meet _ _ | .meetclr _ | .yield _ | .exit _ | .elect _ _ _ | .quant _ _ | .alwrd _ _ _ => some 1
  | .iadd _ | .isub _ | .iadds _ _ | .imul _ | .imulh _ | .imad _ | .imin _ | .imax _ | .iabs _ _ | .and _ | .or _ | .xor _ | .andn _
  | .shl _ | .shr _ | .sar _ | .clz _ | .popc _ | .brev _ | .bfx _ | .bfi _ | .icmp _ | .sel _ | .mov _ | .movi _ | .movw _ | .lea _
  | .plog _ | .movsp _ | .dot4 _ _ => some 1
  | .fadd _ | .fsub _ | .fmul _ | .ffma _ | .fmin _ | .fmax _ | .fneg _ | .fabs _ | .fcmp _ | .fclass _ | .frnd _ _ | .cvt _ | .pack _
  | .unpk _ | .fdot2 _ => some 1
  | .shfl _ | .shflx _ | .shflup _ | .shfldn _ | .vote _ | .prfx _ | .redv _ | .confl _ | .cpack _ => some 1
  | .sfWait _ _ | .awtest _ _ _ | .tcStat _ _ | .mxFence _ | .mxWait _ _ _ | .mxStep _ _ _ | .pgStat _ _ _ | .bkpt _ _ => some 1
  | .pair _ _ | .prf _ _ _ | .probe _ _ _ | .fence _ _ _ => some 2
  | .join _ _ _ | .joinany _ _ | .resume _ _ _ | .cancel _ _ _ | .setpri _ _ _ | .cctl _ _ _ | .aflush _ | .susp _ _ => some 4
  | .trap _ _ => some 8
  | _ => none

/-- The lanes of a group run: none is parked (R69). -/
def Task.Unparked (t : Task) (group : Mask) : Prop := ∀ l, l < t.lanes.length → group.getLsbD l = true → (t.lane l).park = .none

/-- Lane l of a task whose group has gone on behind a SUSP: a lane that runs on parks with it, one that arrives at its meeting does not
(R78, R224). -/
def Task.suspends (t : Task) (group : Mask) (l : Nat) : Lane :=
  let x := t.moved group 8 l
  let arrives := x.meetValid && !x.exited && x.depth == x.meetDepth && x.pc == x.meetAddr
  if group.getLsbD l && x.park == .none && !arrives then { x with park := .susp } else x

/-- A wait of the task t is over in t': its lanes go on behind the instruction, and arrive at their meetings there (R71, R78, R79). -/
def Woken (t t' : Task) (w : Wait) : Prop :=
  t'.lanes.length = t.lanes.length ∧ ∀ l, l < t.lanes.length → Settled t.lanes.length w.lanes (fun k =>
    if w.lanes.getLsbD k then { t.lane k with pc := (t.lane k).pc + BitVec.ofNat 32 w.len.toNat, park := .none } else t.lane k) l (t'.lane l)

/-- A wait for the release of a ply's barrier. -/
def Wait.forPly (w : Wait) (id : BitVec 32) : Bool := match w.kind with | .plywait i => i == id | _ => false

/-- The barrier of a ply has been released (R116): the ply stands with its members, no arrival and the next generation, and in every task
other than tid the group that waited for it goes on. -/
def PlyReleased (s s' : State) (tid : Nat) (p : Ply) (members : List Nat) : Prop :=
  s'.ply? p.id = some { p with members := members, arrived := [], barrier := p.barrier + 1 } ∧
  ∀ j u w, j ≠ tid → s.task? j = some u → u.waits.filter (·.forPly p.id) = [w] →
    ∃ u', s'.task? j = some u' ∧ u'.waits = u.waits.filter (fun x => !x.forPly p.id) ∧ Woken u u' w

/-! ### Instructions that compute (R126-R153) -/

/-- An instruction of the issuing group completes as a vector-ALU instruction with a result for each slot (R126-R128). -/
def Computes (s : State) (tid : Nat) (t : Task) (group : Mask) (g : Guard) (i : Instr) (len : Nat) (ty : Ty) (dst : Reg)
    (f : Nat → Nat × FFlags) : Prop :=
  ∃ s', exec i s = .next s' ∧ AluDone s s' tid t group (t.guarded g group) len 1 ty dst f

/-- An instruction completes with a result in a predicate of each lane. -/
def Decides (s : State) (tid : Nat) (t : Task) (group : Mask) (g : Guard) (i : Instr) (len : Nat) (dst : Fin 8)
    (f : Nat → Bool × FFlags) : Prop :=
  ∃ s', exec i s = .next s' ∧ PredDone s s' tid t group (t.guarded g group) len 1 dst f

/-- An element-wise operation on a register and a second operand, in lane l. -/
def lanewise2 (s : State) (t : Task) (x : Alu2) (f : Nat → Nat → Nat) (l : Nat) : Nat :=
  packElems x.ty fun e => f (elemAt x.ty (t.reg s.tick x.ty.wide x.a l) e) (elemAt x.ty (t.opnd s.tick x.ty x.b l) e)

/-- An element-wise operation on a register, in lane l. -/
def lanewise1 (s : State) (t : Task) (x : Alu1) (f : Nat → Nat) (l : Nat) : Nat :=
  packElems x.ty fun e => f (elemAt x.ty (t.reg s.tick x.ty.wide x.a l) e)

/-- The same with exception flags, under the task's rounding mode. -/
def floatwise2 (s : State) (t : Task) (x : Alu2) (f : Bool → RMode → Ty → Nat → Nat → Nat × FFlags) (l : Nat) : Nat × FFlags :=
  packF x.ty fun e => f t.ftz (fpctlMode t.fpctl) x.ty (elemAt x.ty (t.reg s.tick x.ty.wide x.a l) e)
    (elemAt x.ty (t.opnd s.tick x.ty x.b l) e)

/-! ### Instructions that use memory (R165-R197, R227-R257) -/

/-- What a memory instruction leaves of its task: it has paid, and its registers, predicates, FPCTL, children, plies and every special
register are unchanged; results on their way, denials counted, the notes on private and scratch bytes, and the lanes may change. -/
structure MemIssued (s' : State) (tid : Nat) (t t' : Task) (group : Mask) (len cost : Nat) : Prop where
  task : s'.task? tid = some t'
  rest : t' = { t with alw := t.alw - BitVec.ofNat 64 cost, lanes := t'.lanes, outs := t'.outs, sealcnt := t'.sealcnt
                       privWritten := t'.privWritten, unfenced := t'.unfenced, dset := t'.dset, oset := t'.oset }
  lanes : LanesMoved t t' group len

/-- Every other task is unchanged. -/
def OthersStand (s s' : State) (tid : Nat) : Prop := ∀ j, j ≠ tid → s'.task? j = s.task? j

/-- The task awaits a result in a register: the window is open for the lanes of its group and la more counted instructions of each
(R36, R37). -/
def Awaits (o : Out) (group : Mask) (id : Nat) (dst : Reg) (ty : Ty) (la : Nat) (ls : List Nat) : Prop :=
  o.id = id ∧ o.group = group ∧ o.dst = dst ∧ o.ty = ty ∧ o.open_ = group ∧ o.clob = [] ∧
  (∀ l ∈ lanesOf group, o.window.get l = BitVec.ofNat 5 la) ∧ ∀ l, l ∈ ls ↔ ∃ a ∈ o.lanes, a.lane = l

/-- No placed task waits for stores to be performed. -/
def State.NobodyWaits (s : State) : Prop :=
  ∀ t ∈ s.tasks, t.isPlaced = true → ∀ w ∈ t.waits, match w.kind with
    | .fence _ _ _ | .stl _ _ _ | .arrive _ _ _ _ | .capAbort _ _ _ | .plybar _ _ => False
    | _ => True

/-- An address of memory in the form in which a cache tags it. -/
def State.Canonical (s : State) (vf pa : Nat) : Prop := s.canon vf pa = pa

/-- Every other task is unchanged, but for the notes on which bytes of its private region it has written (R225). -/
def OthersMark (s s' : State) (tid : Nat) : Prop :=
  ∀ j, j ≠ tid → ∃ f : Task → Store 1, s'.task? j = (s.task? j).map fun u => { u with privWritten := f u }

/-- The accesses that a memory instruction names, with its cost, pass every check and are covered by the account and by the requests that
a task may have outstanding (R187, R191, R212). -/
def Ctx.Passes (c : Ctx) (as : List LaneAcc) (n : Need) (ty : Ty) (cost : Nat) (gs : List GAcc) : Prop :=
  c.gcheck as n ty.bytes = .ok gs ∧ cost ≤ c.t.alw.toNat ∧ c.s.replayable c.t < Config.maxRequests

/-- A global load (R165-R191): it pays, its group goes on, no register changes yet and a result is awaited. The accesses of a denied line
hold zeros; each other one is served by a line of the core's L1 or asked for. Where nothing is denied, every byte of memory reads as after
the walker's marks. -/
def LoadIssues (s : State) (tid : Nat) (t : Task) (group : Mask) (i : Instr) (g : Guard) (uniform : Bool) (ty : Ty) (addr : MemAddr)
    (data : Reg) (la : Fin 16) : Prop :=
  let c := Ctx.of s t group g 8
  let as := c.loads uniform ty addr
  let cost := memCost 2 as.length ty.bytes
  (∀ gs, c.gcheck as .load ty.bytes = .ok gs → s.replayable t < Config.maxRequests → t.alw.toNat < cost → Exhausts s tid t group i cost) ∧
  ∀ gs, c.Passes as .load ty cost gs →
    ∃ s' t' o, exec i s = .next s' ∧ MemIssued s' tid t t' group 8 cost ∧ OthersStand s s' tid ∧
      t'.outs = (t.countWindows group).outs ++ [o] ∧ Awaits o group s.nextReq data ty la.val (c.globalLanes uniform) ∧
      t'.privWritten = t.privWritten ∧ t'.unfenced = t.unfenced ∧
      (∀ a ∈ c.shut .load gs, ∃ b ∈ o.lanes, b.lane = a.acc.lane ∧ b.val = some 0) ∧
      (c.shut .load gs = [] →
        t'.sealcnt = t.sealcnt ∧ (∀ vf pa, s'.homeByte vf pa = (c.touch gs false s).homeByte vf pa) ∧
        ∀ a ∈ gs, (∃ l ∈ (s.core t.core).l1, l.line = a.line ∧
            ∃ b ∈ o.lanes, b.lane = a.acc.lane ∧ b.val = some (BitVec.ofNat 64 (lineRead l.data (a.acc.pa % 128) ty.bytes))) ∨
          ∃ r ∈ s'.reqs, r.kind = .load ∧ r.task = tid ∧ r.out = some s.nextReq ∧ r.line = a.line ∧ a.acc ∈ r.lanes)

/-- A global store (R165-R191): it pays, its group goes on, no register changes. Outside capsule pages each access is sent as a request for
its line and every byte of memory reads as after the walker's marks. On a core with no request in flight, where those of other cores have
lower numbers, by a task that awaits no LDA, a store into one line of a capsule page that is marked already and cached, which nothing denies,
writes its bytes and no other, while L2 has room for the line (R261). -/
def StoreIssues (s : State) (tid : Nat) (t : Task) (group : Mask) (i : Instr) (g : Guard) (uniform : Bool) (ty : Ty) (addr : MemAddr)
    (data : Reg) : Prop :=
  let c := Ctx.of s t group g 8
  let as := c.stores uniform ty addr data
  let cost := memCost 2 as.length ty.bytes
  let vf := (s.asd t.asid).vf
  (∀ gs, c.gcheck as .store ty.bytes = .ok gs → (c.capsStore gs).isNone = true → c.capsHeld gs = false →
    s.replayable t < Config.maxRequests → t.alw.toNat < cost → Exhausts s tid t group i cost) ∧
  ∀ gs, c.Passes as .store ty cost gs → (c.capsStore gs).isNone = true → c.capsHeld gs = false →
    ∃ s' t', exec i s = .next s' ∧ MemIssued s' tid t t' group 8 cost ∧ t'.unfenced = t.unfenced ∧
      ((∀ a ∈ gs, a.leaf.caps = false) →
        OthersMark s s' tid ∧ t'.outs = (t.countWindows group).outs ∧ t'.sealcnt = t.sealcnt ∧
        (∀ a ∈ gs, ∃ r ∈ s'.reqs, r.kind = .store ∧ r.task = tid ∧ r.inst = s.nextReq ∧ r.line = a.line ∧
          r.deny = ((c.shut .store gs).map GAcc.line).contains a.line ∧ a.acc ∈ r.lanes) ∧
        ∀ vf pa, s'.homeByte vf pa = (c.touch gs true s).homeByte vf pa) ∧
      ((∀ a ∈ gs, a.leaf.caps = true ∧ a.leaf.bypass = false ∧ s.isUe a.line = false) → (∀ r ∈ s.reqs, r.core ≠ t.core ∧ r.id < s.nextReq) →
        t.acquiring = false → (∀ a ∈ gs, ∀ b ∈ gs, a.line = b.line) → c.shut Need.store.now gs = [] → c.touch gs true s = s → s.l2.length + gs.length ≤ Config.l2Lines →
        ((gs.map (·.acc.pa)).Nodup → ∀ a ∈ gs, s'.homeRead vf a.acc.pa ty.bytes = a.acc.data.toNat) ∧
        ∀ pa, s.Canonical vf pa → (∀ a ∈ gs, ∀ i < ty.bytes, pa ≠ s.canon vf (a.acc.pa + i)) → s'.homeByte vf pa = s.homeByte vf pa)

/-- What a core reads at an access's address: the bytes of its L1's copy, or else those at the home (R182, R183). -/
def State.coreRead (s : State) (core vf : Nat) (a : GAcc) (n : Nat) : Nat :=
  match (if a.leaf.noL1 then none else (s.core core).l1? a.line) with
  | some l => lineRead l.data (a.acc.pa % 128) n
  | none => s.serveRead vf a.leaf.bypass a.acc.pa n

/-- The state in which an instruction that accesses memory at once makes its checks: behind the core's requests to the same homes (R240). -/
def Ctx.cleared (c : Ctx) (priv : Bool) (as : List LaneAcc) : Ctx := { c with s := c.s.clear c.t.core (c.homeward priv as) }

/-- No request of the core comes before some accesses at their homes. -/
def Ctx.Foremost (c : Ctx) (priv : Bool) (as : List LaneAcc) : Prop := ∀ r ∈ c.s.reqs, c.s.before c.t.core (c.homeward priv as) r = false

/-- Whether some request of the core that comes before these accesses may not perform yet, even behind those that may. -/
def Ctx.Held (c : Ctx) (priv : Bool) (as : List LaneAcc) : Prop :=
  (c.cleared priv as).s.blocked c.t.core (c.homeward priv as) = true

/-- An engine operation whose checks pass (R285, R291-R293, R297): it waits for one of the core's 32 entries, and a bulk copy for the task's
earlier writes; then it pays 8, reserves B into HELD, stands in flight as its instruction describes it, and the group goes on; no register
and no byte of memory or scratch changes yet. A gate that its word has reached already is passed with the word's acquire. -/
def CopyIssues (s : State) (tid : Nat) (t : Task) (group : Mask) (i : Instr) (tail : Tail) (kind : CopyKind) (ly b : Nat) : Prop :=
  let k := s.core t.core
  let m := k.scratchOf t.kkey
  let gate := tail.gate.map fun w => (16 * w.toNat, (t.rdS s.tick tail.gateGen).setWidth 32)
  let passed := match gate with | none => false | some (w, n) => reached m w n
  (s.copyHeld t kind = true → exec i s = .next s) ∧
  (s.copyHeld t kind = false → t.alw.toNat < 8 + b → Exhausts s tid t group i (8 + b)) ∧
  (s.copyHeld t kind = false → 8 + b ≤ t.alw.toNat → ∃ s' t' o, exec i s = .next s' ∧ s'.task? tid = some t' ∧ OthersStand s s' tid ∧
    t' = { t with alw := t.alw - BitVec.ofNat 64 (8 + b), held := t.held + BitVec.ofNat 64 b, lanes := t'.lanes
                  outs := (t.countWindows group).outs, dset := t'.dset, oset := t'.oset } ∧
    LanesMoved t t' group 16 ∧ s' = { s with tasks := s'.tasks, cores := s'.cores, nextSeq := s.nextSeq + 1 } ∧
    (s'.core t.core).copies = k.copies ++ [o] ∧ (s'.core t.core).scratch = k.scratch ∧
    o.id = s.nextSeq ∧ o.task = tid ∧ o.core = t.core ∧ o.kernel = t.kkey ∧ o.pc = t.groupPc group ∧ o.group = group ∧ o.kind = kind ∧
    o.lyNum = ly ∧ o.scope = tail.scope ∧ (o.arrive = tail.arrive.map fun w => 16 * w.toNat) ∧ o.started = false ∧
    o.reserved = BitVec.ofNat 64 b ∧ o.gate0 = gate ∧ (o.gate = if passed then none else gate) ∧
    (∀ l ∈ (s'.core t.core).l1, l ∈ k.l1) ∧
    (∀ w n, gate = some (w, n) → passed = true → wordScope m w ≠ .core → ∀ l ∈ (s'.core t.core).l1, l.priv = true))

/-! ### Event rings (R377) -/

/-- The 64 bytes of an event record without DETAIL, PC and LMASK, as a number. -/
def eventWord (kind asid task clock addr prin sealId : Nat) : Nat :=
  kind + asid * 2 ^ 16 + task % 2 ^ 32 * 2 ^ 32 + clock * 2 ^ 64 + addr * 2 ^ 128 + prin * 2 ^ 192 + sealId * 2 ^ 224

/-- Where the next record of a function's ring begins, behind the ring's base. -/
def State.nextRecord (s : State) (vf : Nat) : Nat := 128 + 64 * ((s.vf vf).wptr.toNat % 2 ^ (s.vf vf).ringK)

/-- WPTR, RPTR and LOST of a function's ring, and the eight words of its next record: offsets in the ring. -/
def State.ringWords (s : State) (vf : Nat) : List Nat := [0, 8, 16] ++ (List.range 8).map fun i => s.nextRecord vf + 8 * i

/-- The words of a ring's header that the device writes when the ring is set: WPTR, LOST, and the 104 bytes behind LOST. -/
def ringHeaderWords : List Nat := [0, 16] ++ (List.range 13).map fun i => 24 + 8 * i

/-- These words of a function's ring, by their offsets, are mapped: the one at offset o lies at `m o` in memory that exists, apart from each
other and from the entries of the page tables that map them. -/
structure RingMapped (s : State) (vf : Nat) (words : List Nat) (m : Nat → Nat) : Prop where
  home : ∀ o ∈ words, ∃ l, walk s (s.queue vf 0).asid ((s.vf vf).ringBase.toNat + o) = .ok l ∧
    l.pa ((s.vf vf).ringBase.toNat + o) = m o ∧ m o % 8 = 0 ∧ s.Canonical (s.asd (s.queue vf 0).asid).vf (m o) ∧ s.zone (m o) ≠ .reserved
  apart : ∀ o ∈ words, ∀ p ∈ words, o ≠ p → m o ≠ m p
  tables : ∀ o ∈ words, ∀ p ∈ words,
    ∀ ea ∈ walkEntries s (s.asd (s.queue vf 0).asid).vf ((s.vf vf).ringBase.toNat + o) [1, 2, 3, 4, 5]
      ((s.asd (s.queue vf 0).asid).rootFrame.toNat * 4096), m p ≠ s.canon (s.asd (s.queue vf 0).asid).vf ea ∧
      m p ≠ s.canon (s.asd (s.queue vf 0).asid).vf (ea + 8)

/-- A record has been appended to a function's ring, or, where the ring was full, lost (R377): its words stand at index WPTR, and WPTR is one
higher there and in the device; or LOST is; no other byte of memory has changed. A dirty host line in L2 would be written as well. -/
def EventNoted (s s' : State) (vf : Nat) (w : Nat) : Prop :=
  ∀ m, RingMapped s vf (s.ringWords vf) m → (∀ l ∈ s.l2, l.dirty = true → s.zone l.line ≠ .host) →
    let f := s.vf vf
    let v := (s.asd (s.queue vf 0).asid).vf
    let full := f.wptr - BitVec.ofNat 64 (s.homeRead v (m 8) 8) = BitVec.ofNat 64 (2 ^ f.ringK)
    (full → (s'.vf vf).wptr = f.wptr ∧ (s'.vf vf).lost = f.lost + 1 ∧ s'.homeRead v (m 16) 8 = (f.lost + 1).toNat ∧
      ∀ pa, s.Canonical v pa → (pa < m 16 ∨ m 16 + 8 ≤ pa) → s'.homeByte v pa = s.homeByte v pa) ∧
    (¬ full → (s'.vf vf).wptr = f.wptr + 1 ∧ (s'.vf vf).lost = f.lost ∧ s'.homeRead v (m 0) 8 = (f.wptr + 1).toNat ∧
      (∀ i < 8, s'.homeRead v (m (s.nextRecord vf + 8 * i)) 8 = w / 2 ^ (64 * i) % 2 ^ 64) ∧
      ∀ pa, s.Canonical v pa → (pa < m 0 ∨ m 0 + 8 ≤ pa) →
        (∀ i < 8, pa < m (s.nextRecord vf + 8 * i) ∨ m (s.nextRecord vf + 8 * i) + 8 ≤ pa) → s'.homeByte v pa = s.homeByte v pa)

/-! ### Capsules (R258-R279) -/

/-- A cell stands at an address: 256 bytes of memory that exist, under the address that a cache tags them with. -/
def State.CellAt (s : State) (vf cell : Nat) : Prop := cell % 256 = 0 ∧ s.Canonical vf cell ∧ s.zone cell ≠ .reserved

/-- A body step of a lane that still holds its cell commits: it pays 2, writes these 64-bit words of the cell (by offset) and the cell's
step index, and changes no other byte of memory and no register of its task (R263, R271, R278). -/
def StepCommits (s : State) (tid lane : Nat) (b : Body) (i : Instr) (words : List (Nat × Nat)) (step : Nat) : Prop :=
  s.cur = .body tid lane → s.body? tid lane = some b → b.live = true → s.CellAt b.vf b.l.cell → 2 ≤ b.c.t.alw.toNat →
    ∃ s' t', exec i s = .next s' ∧ s'.task? tid = some t' ∧ OthersStand s s' tid ∧ t' = { b.c.t with alw := b.c.t.alw - 2, waits := t'.waits } ∧
      (s'.cell b.vf b.l.cell = { b.cell with step := step % 256 }) ∧ (∀ x ∈ words, s'.homeRead b.vf (b.l.cell + x.1) 8 = x.2 % 2 ^ 64) ∧
      ∀ pa, s.Canonical b.vf pa → (pa < b.l.cell ∨ b.l.cell + 8 ≤ pa) →
        (∀ x ∈ words, pa < b.l.cell + x.1 ∨ b.l.cell + x.1 + 8 ≤ pa) → s'.homeByte b.vf pa = s.homeByte b.vf pa

/-! ### Comparisons and pairs (R38, R39, R135, R139, R144) -/

/-- What ICMP decides in lane l. -/
def icmpAt (s : State) (t : Task) (x : Icmp) (l : Nat) : Bool :=
  let r (q : Reg) : Nat := t.reg s.tick x.ty.wide q l
  let b := match x.b with
    | .reg q => r q
    | .imm i => packElems x.ty fun _ => if x.ty.signed then wrap x.ty.elem.1 (sext 12 i.toNat) else i.toNat % 2 ^ x.ty.elem.1
  let one (i : Nat) : Bool := icmpE x.cond x.ty (elemAt x.ty (r x.a) i) (elemAt x.ty b i)
  if x.any then (List.range x.ty.elem.2).any one else (List.range x.ty.elem.2).all one

/-- What FCMP decides in lane l, with its flags. -/
def fcmpAt (s : State) (t : Task) (x : Fcmp) (l : Nat) : Bool × FFlags :=
  let r (q : Reg) : Nat := t.reg s.tick x.ty.wide q l
  let rs := (List.range x.ty.elem.2).map fun i => fcmpE t.ftz x.cond x.ty (elemAt x.ty (r x.a) i) (elemAt x.ty (r x.b) i)
  (if x.any then rs.any (·.1) else rs.all (·.1), rs.foldl (fun a q => a ||| q.2) 0)

/-- What PLOG decides in lane l. -/
def plogAt (t : Task) (x : Plog) (l : Nat) : Bool :=
  let v (p : Fin 8) : Nat := if (t.pred p).getLsbD l then 1 else 0
  x.table.getLsbD (2 * v x.a + v x.b)

/-- The result of a two-operand slot of a pair in lane l. -/
def pairAt (s : State) (t : Task) (op : PairAlu2) (x : Alu2) (l : Nat) : Nat × FFlags :=
  let i (f : Nat → Nat → Nat) : Nat × FFlags := (lanewise2 s t x f l, 0)
  let fl (f : Bool → RMode → Ty → Nat → Nat → Nat × FFlags) : Nat × FFlags := floatwise2 s t x f l
  match op with
  | .iadd => i (iaddE x.ty)
  | .isub => i (isubE x.ty)
  | .imul => i (imulE x.ty)
  | .imin => i (iminE x.ty)
  | .imax => i (imaxE x.ty)
  | .and => i (· &&& ·)
  | .or => i (· ||| ·)
  | .xor => i (· ^^^ ·)
  | .shl => i (shlE x.ty)
  | .shr => i (shrE x.ty)
  | .sar => i (sarE x.ty)
  | .fadd => fl faddE
  | .fsub => fl fsubE
  | .fmul => fl fmulE
  | .fmin => fl fun z _ => fminE z false
  | .fmax => fl fun z _ => fminE z true

/-- The flags that a slot raises. -/
def slotRaised (s : State) (t : Task) (group : Mask) (w : BitVec 64) : Slot → BitVec 64
  | .alu2 op x => raised w (performLanes x.dst (t.guarded x.g group)) fun l => (pairAt s t op x l).2
  | .fcmp x => raised w (lanesOf (t.guarded x.g group)) fun l => (fcmpAt s t x l).2
  | .alu1 _ _ | .movi _ | .icmp _ | .plog _ => w

/-- The results of a slot stand in its destination in the task t'. -/
def SlotHolds (s : State) (t t' : Task) (group : Mask) : Slot → Prop
  | .alu2 op x => ∀ l ∈ performLanes x.dst (t.guarded x.g group), Holds t' x.ty x.dst l (pairAt s t op x l).1
  | .alu1 op x => ∀ l ∈ performLanes x.dst (t.guarded x.g group), Holds t' x.ty x.dst l (match op with
      | .mov => t.reg s.tick x.ty.wide x.a l
      | .fneg => lanewise1 s t x (fnegE t.ftz x.ty) l
      | .fabs => lanewise1 s t x (fabsE t.ftz x.ty) l)
  | .movi x => ∀ l ∈ performLanes x.dst (t.guarded x.g group), Holds t' x.ty x.dst l (expand x.ty x.imm)
  | .icmp x => PredHolds t t' x.dst (t.guarded x.g group) fun l => icmpAt s t x l
  | .fcmp x => PredHolds t t' x.dst (t.guarded x.g group) fun l => (fcmpAt s t x l).1
  | .plog x => PredHolds t t' x.dst (t.guarded x.g group) fun l => plogAt t x l

/-- Whether a slot writes v register r of lane l, an s register, or a predicate. -/
def slotWrites (t : Task) (group : Mask) (r l : Nat) : Slot → Prop
  | .alu2 _ x => Writes x.dst x.ty.wide (t.guarded x.g group) r l
  | .alu1 _ x => Writes x.dst x.ty.wide (t.guarded x.g group) r l
  | .movi x => Writes x.dst x.ty.wide (t.guarded x.g group) r l
  | .icmp _ | .fcmp _ | .plog _ => False

/-- The registers with results on their way that a slot overwrites. -/
def slotNotes (t : Task) (group : Mask) (o : Out) (k : Nat) : Slot → Prop
  | .alu2 _ x => Overwrites x.dst x.ty.wide (t.guarded x.g group) o k
  | .alu1 _ x => Overwrites x.dst x.ty.wide (t.guarded x.g group) o k
  | .movi x => Overwrites x.dst x.ty.wide (t.guarded x.g group) o k
  | .icmp _ | .fcmp _ | .plog _ => False

def slotNotesSf (t : Task) (group : Mask) (o : SfOp) (k : Nat) : Slot → Prop
  | .alu2 _ x => OverwritesSf x.dst x.ty.wide (t.guarded x.g group) o k
  | .alu1 _ x => OverwritesSf x.dst x.ty.wide (t.guarded x.g group) o k
  | .movi x => OverwritesSf x.dst x.ty.wide (t.guarded x.g group) o k
  | .icmp _ | .fcmp _ | .plog _ => False

/-! ### Invariants of the whole machine -/

/-- Every memory stands in its canonical form, the image in the safe tier as well (log 2). -/
def State.MemOk (s : State) : Prop :=
  Memory.wf s.mem = true ∧ Memory.wf s.hostMem = true ∧ ∀ x, s.tier = some x → Memory.wf x.mem = true

/-- A core has the units that the spec gives it (R12, R188, R201, R283, R309, R311, R344). -/
structure Core.Shaped (c : Core) : Prop where
  banks : c.banks.length = 16
  tiles : c.tiles.length = 16
  tileOwner : c.tileOwner.length = 16
  cvs : c.cvs.length = 16
  gens : c.gens.length = 8
  ring : c.ring.length = 128
  spindles : c.spindles.length = 4
  lysets : ∀ x ∈ c.lysets, x.regs.length = 8

/-- What an image in the safe tier keeps of contexts and cores. -/
structure TierImage.Shaped (x : TierImage) : Prop where
  ids : (x.tasks.map (·.id)).Nodup
  lanes : ∀ t ∈ x.tasks, t.lanes.length ≤ 64
  idle : x.complete = true → ∀ t ∈ x.tasks, t.isPlaced = false
  cores : ∀ c ∈ x.cores, c.cvs.length = 16 ∧ ∀ l ∈ c.lysets, l.regs.length = 8

/-- The device has the units that the spec gives it; tasks have numbers of their own, and no two stand in one slot (R13, R14, R21). -/
structure State.Shaped (s : State) : Prop where
  ids : (s.tasks.map (·.id)).Nodup
  fresh : ∀ t ∈ s.tasks, t.id < s.nextTask
  lanes : ∀ t ∈ s.tasks, t.lanes.length ≤ 64
  slots : ∀ t ∈ s.tasks, ∀ u ∈ s.tasks, t.isPlaced = true → u.place = t.place → u.id = t.id
  widths : ∀ k ∈ s.kernels, k.w ≤ 64
  cores : (s.cores.map (·.id)).Nodup
  core : ∀ c ∈ s.cores, c.Shaped
  queues : s.queues.length = 256
  vfs : s.vfs.length = 16
  tier : ∀ x, s.tier = some x → x.Shaped

end Sys2Proof.Machine
end

