-- ==== Sys2Proof/Certificates/Slice0/Obligations.lean ====
section
/-! DEFINITION. The statements for the provers: each says in its docstring which rules of spec/ it formalises. -/

open Sys2Proof Sys2Proof.Machine

/-! ### Vector-ALU instructions (spec/06_vector.md) -/

/-- R126-R131: a two-operand integer instruction charges one AU, writes for each guard-true lane, or for the uniform path, the element-wise
result of its operation, and changes nothing else. R132-R141: the other integer, move and address instructions: one AU, the result of the
instruction in its destination, nothing else. -/
def Obligations.IntegerResults : Prop :=
  (∀ (s : State) (tid : Nat) (t : Task) (group : Mask) (x : Alu2), Issues s tid t group → 1 ≤ t.alw.toNat →
     let done (i : Instr) (f : Nat → Nat → Nat) : Prop :=
       Computes s tid t group x.g i 8 x.ty x.dst fun l => (lanewise2 s t x f l, 0)
     done (.iadd x) (iaddE x.ty) ∧ done (.isub x) (isubE x.ty) ∧ done (.iadds false x) (iaddsE x.ty false) ∧
     done (.iadds true x) (iaddsE x.ty true) ∧ done (.imul x) (imulE x.ty) ∧ done (.imulh x) (imulhE x.ty) ∧
     done (.imin x) (iminE x.ty) ∧ done (.imax x) (imaxE x.ty) ∧ done (.and x) (· &&& ·) ∧ done (.or x) (· ||| ·) ∧
     done (.xor x) (· ^^^ ·) ∧ done (.andn x) (andnE x.ty) ∧ done (.shl x) (shlE x.ty) ∧ done (.shr x) (shrE x.ty) ∧
     done (.sar x) (sarE x.ty)) ∧
  (∀ (s : State) (tid : Nat) (t : Task) (group : Mask), Issues s tid t group → 1 ≤ t.alw.toNat →
     let r (wide : Bool) (a : Reg) (l : Nat) : Nat := t.reg s.tick wide a l
     (∀ x : Alu1,
       (∀ sat, Computes s tid t group x.g (.iabs sat x) 8 x.ty x.dst fun l => (lanewise1 s t x (iabsE x.ty sat) l, 0)) ∧
       (Computes s tid t group x.g (.clz x) 8 x.ty x.dst fun l => (lanewise1 s t x (clzE x.ty) l, 0)) ∧
       (Computes s tid t group x.g (.popc x) 8 x.ty x.dst fun l => (lanewise1 s t x (popcE x.ty) l, 0)) ∧
       (Computes s tid t group x.g (.brev x) 8 x.ty x.dst fun l => (lanewise1 s t x (brevE x.ty) l, 0)) ∧
       (Computes s tid t group x.g (.mov x) 8 x.ty x.dst fun l => (r x.ty.wide x.a l, 0))) ∧
     (∀ x : BitField,
       (Computes s tid t group x.g (.bfx x) 12 x.ty x.dst fun l => (bfxE x.ty x.pos.val x.len.val (r x.ty.wide x.a l), 0)) ∧
       (Computes s tid t group x.g (.bfi x) 12 x.ty x.dst fun l =>
         (bfiE x.ty x.pos.val x.len.val (r x.ty.wide x.a l) (r x.ty.wide x.b l), 0))) ∧
     (∀ x : Alu3, Computes s tid t group x.g (.imad x) 12 x.ty x.dst fun l =>
       (packElems x.ty fun e => elemAt x.ty (r x.ty.wide x.a l) e * elemAt x.ty (t.opnd s.tick x.ty x.b l) e +
         elemAt x.ty (r x.ty.wide x.c l) e, 0)) ∧
     (∀ x : Sel, Computes s tid t group x.g (.sel x) 12 x.ty x.dst fun l =>
       (if (t.pred x.p).getLsbD l then r x.ty.wide x.a l else t.opnd s.tick x.ty x.b l, 0)) ∧
     (∀ x : Movi, Computes s tid t group x.g (.movi x) 8 x.ty x.dst fun _ => (expand x.ty x.imm, 0)) ∧
     (∀ x : Movw, Computes s tid t group x.g (.movw x) 16 x.ty x.dst fun _ =>
       (if x.ty.wide then x.imm.toNat else x.imm.toNat % 2 ^ 32, 0)) ∧
     (∀ x : Lea, Computes s tid t group x.g (.lea x) 12 .n64 x.dst fun l =>
       let idx : Int := match x.ty with
         | .i32 => sext 32 (r false x.index l)
         | .n32 => r false x.index l
         | _ => r true x.index l
       (wrap 64 ((r true x.base l : Int) + idx * 2 ^ x.scale.val + sext 24 x.disp.toNat), 0)) ∧
     (∀ x : Movsp, Computes s tid t group x.g (.movsp x) 8 (if x.wide then .n64 else .n32) x.dst fun l =>
       let v := (Ctx.of s t group x.g 8).special x.num l
       (if x.wide then v else v % 2 ^ 32, 0)))

/-- R131, R134: on elements of the type's width the integer operations are those of bit vectors: the sum, difference and product wrap, the
high product is the upper half of the exact one, minimum and maximum follow the type's sign, a shift by the width or more gives zero or the
sign, and ANDN clears the bits of its second operand. R131: IADDS and ISUBS clamp the exact sum or difference to the range of the type. -/
def Obligations.IntegerElementsAreBitVectors : Prop :=
  (∀ (ty : Ty) (x y : Nat), ty.isInt = true → x < 2 ^ ty.elem.1 → y < 2 ^ ty.elem.1 →
     let w := ty.elem.1
     let a := BitVec.ofNat w x
     let b := BitVec.ofNat w y
     iaddE ty x y = (a + b).toNat ∧ isubE ty x y = (a - b).toNat ∧ imulE ty x y = (a * b).toNat ∧
     andnE ty x y = (a &&& ~~~b).toNat ∧ shlE ty x y = (a <<< y).toNat ∧ shrE ty x y = (a >>> y).toNat ∧
     sarE ty x y = (a.sshiftRight y).toNat ∧
     ty.toI x = (if ty.signed then a.toInt else (a.toNat : Int)) ∧
     imulhE ty x y = (BitVec.ofInt w (ty.toI x * ty.toI y / (2 ^ w : Int))).toNat ∧
     iminE ty x y = (if ty.toI x ≤ ty.toI y then x else y) ∧ imaxE ty x y = (if ty.toI x ≤ ty.toI y then y else x)) ∧
  (∀ (ty : Ty) (sub : Bool) (x y : Nat), ty.isInt = true → x < 2 ^ ty.elem.1 → y < 2 ^ ty.elem.1 →
     let exact : Int := if sub then ty.toI x - ty.toI y else ty.toI x + ty.toI y
     let r := iaddsE ty sub x y
     r < 2 ^ ty.elem.1 ∧
     ty.toI r = (if exact < ty.range.1 then ty.range.1 else if ty.range.2 < exact then ty.range.2 else exact))

/-- R142-R148: floating-point instructions: one AU, results rounded under FPCTL in the destination, exception flags ORed into FPCTL, nothing
else. R143-R148: the other floating-point instructions. R141, R143: the dot products, whose 32-bit sum goes into an s register as R127 says
for the type field: an i8 sum is zero-extended there (log 85). R60, R61: conversions. An FDOT2 that sums +∞ and −∞ sets invalid beside a
quiet NaN too (log 84); a conversion into l6 flushes no subnormal source (log 83). -/
def Obligations.FloatResults : Prop :=
  (∀ (s : State) (tid : Nat) (t : Task) (group : Mask) (x : Alu2), Issues s tid t group → 1 ≤ t.alw.toNat →
     let done (i : Instr) (f : Bool → RMode → Ty → Nat → Nat → Nat × FFlags) : Prop :=
       Computes s tid t group x.g i 8 x.ty x.dst (floatwise2 s t x f)
     done (.fadd x) faddE ∧ done (.fsub x) fsubE ∧ done (.fmul x) fmulE ∧ done (.fmin x) (fun z _ => fminE z false) ∧
     done (.fmax x) (fun z _ => fminE z true)) ∧
  (∀ (s : State) (tid : Nat) (t : Task) (group : Mask), Issues s tid t group → 1 ≤ t.alw.toNat →
     let r (wide : Bool) (a : Reg) (l : Nat) : Nat := t.reg s.tick wide a l
     let m := fpctlMode t.fpctl
     (∀ x : Alu1,
       (Computes s tid t group x.g (.fneg x) 8 x.ty x.dst fun l => (lanewise1 s t x (fnegE t.ftz x.ty) l, 0)) ∧
       (Computes s tid t group x.g (.fabs x) 8 x.ty x.dst fun l => (lanewise1 s t x (fabsE t.ftz x.ty) l, 0)) ∧
       (Computes s tid t group x.g (.fclass x) 8 .n32 x.dst fun l =>
         ((List.range x.ty.elem.2).foldl (fun n i => n + fclassE t.ftz x.ty (elemAt x.ty (r false x.a l) i) * 2 ^ (16 * i)) 0, 0)) ∧
       (∀ mode, Computes s tid t group x.g (.frnd mode x) 8 x.ty x.dst fun l =>
         packF x.ty fun i => frndE t.ftz (t.mode mode) x.ty (elemAt x.ty (r x.ty.wide x.a l) i))) ∧
     (∀ x : Alu3,
       (Computes s tid t group x.g (.ffma x) 12 x.ty x.dst fun l => packF x.ty fun i =>
         ffmaE t.ftz m x.ty (elemAt x.ty (r x.ty.wide x.a l) i) (elemAt x.ty (t.opnd s.tick x.ty x.b l) i)
           (elemAt x.ty (r x.ty.wide x.c l) i)) ∧
       (Computes s tid t group x.g (.fdot2 x) 12 .f32 x.dst fun l =>
         let p (i : Nat) : FVal × FFlags :=
           (fval t.ftz x.ty (elemAt x.ty (r false x.a l) i)).mul (fval t.ftz x.ty (elemAt x.ty (t.opnd s.tick x.ty x.b l) i))
         fsum t.ftz .f32 m [(p 0).1, (p 1).1, fval t.ftz .f32 (r false x.c l)] ((p 0).2 ||| (p 1).2)) ∧
       (∀ sat, x.ty.isInt = true → Computes s tid t group x.g (.dot4 sat x) 12 .n32 x.dst fun l =>
         let acc : Ty := if x.ty.signed then .i32 else .n32
         let v := (List.range 4).foldl (fun (n : Int) i => n + x.ty.toI (elemAt x.ty (r false x.a l) i) *
           x.ty.toI (elemAt x.ty (t.opnd s.tick x.ty x.b l) i)) (acc.toI (r false x.c l))
         (wrap 32 (if sat then clampTo acc.range v else v), 0)) ∧
       (∀ sat, x.ty.isInt = false → Computes s tid t group x.g (.dot4 sat x) 12 .n32 x.dst fun l =>
         let ps := (List.range 4).map fun i =>
           (tyVal x.ty (elemAt x.ty (r false x.a l) i)).mul (tyVal x.ty (elemAt x.ty (t.opnd s.tick x.ty x.b l) i))
         sumRound .f32 m (Fmt.f32.decode (r false x.c l) :: ps.map (·.1)) (ps.foldl (fun f p => f ||| p.2) 0))) ∧
     (∀ x : Cvt, Computes s tid t group x.g (.cvt x) 8 x.ty x.dst fun l =>
       cvtReg t.ftz (t.mode x.mode) x.sat x.src x.ty (r x.src.wide x.a l)) ∧
     (∀ x : Pack, Computes s tid t group x.g (.pack x) 12 x.ty x.dst fun l =>
       let a := convert t.ftz (t.mode x.mode) x.sat x.src x.ty (r false x.a l)
       let b := convert t.ftz (t.mode x.mode) x.sat x.src x.ty (r false x.b l)
       let lo := if x.ty.elem.2 = 4 && x.half then 2 else 0
       (packElems x.ty fun i => if i = lo then a.1 else if i = lo + 1 then b.1 else keptElem x.ty (r false x.c l) i, a.2 ||| b.2)) ∧
     (∀ x : Unpk, Computes s tid t group x.g (.unpk x) 8 x.ty x.dst fun l =>
       convert t.ftz m false x.src x.ty (elemAt x.src (r false x.a l) x.idx.val)))

/-- R126, R135, R139, R144: comparisons and PLOG write their predicate in the guard-true lanes, leave it in every other lane, never change
p0, and change no register; only FCMP raises flags. ICMP's immediate is zero-extended for b32 (log 37), and an 8-bit element takes its low
8 bits (log 86). -/
def Obligations.PredicateResults : Prop :=
  ∀ (s : State) (tid : Nat) (t : Task) (group : Mask), Issues s tid t group → 1 ≤ t.alw.toNat →
    (∀ x : Icmp, Decides s tid t group x.g (.icmp x) 8 x.dst fun l => (icmpAt s t x l, 0)) ∧
    (∀ x : Fcmp, Decides s tid t group x.g (.fcmp x) 8 x.dst (fcmpAt s t x)) ∧
    ∀ x : Plog, Decides s tid t group x.g (.plog x) 8 x.dst fun l => (plogAt t x l, 0)

/-- R38, R39: a pair whose slots go together pays 2 once; each slot acts under its own guard on the registers as they stood before the pair,
and nothing but the two destinations, their flags, the notes on results that they overwrite and the lanes' places changes. -/
def Obligations.PairsDoBoth : Prop :=
  ∀ (s : State) (tid : Nat) (t : Task) (group : Mask) (a b : Slot), Issues s tid t group → 2 ≤ t.alw.toNat → pairOk a b = true →
    ∃ s' t', exec (.pair a b) s = .next s' ∧ OnlyTask s s' tid t' ∧
      t' = { t with alw := t.alw - 2, fpctl := t'.fpctl, vregs := t'.vregs, sregs := t'.sregs, preds := t'.preds, lanes := t'.lanes
                    outs := t'.outs, sfOps := t'.sfOps, dset := t'.dset, oset := t'.oset } ∧
      LanesMoved t t' group 16 ∧
      ResultsNoted t t' group (fun o k => slotNotes t group o k a ∨ slotNotes t group o k b)
        (fun o k => slotNotesSf t group o k a ∨ slotNotesSf t group o k b) ∧
      t'.fpctl = slotRaised s t group (slotRaised s t group t.fpctl a) b ∧
      SlotHolds s t t' group a ∧ SlotHolds s t t' group b ∧
      (a.sets.pdst = none → b.sets.pdst = none → t'.preds = t.preds) ∧
      (∀ r l, l < 64 → ¬ slotWrites t group r l a → ¬ slotWrites t group r l b → t'.vreg r l = t.vreg r l) ∧
      ∀ r : Fin 64, .s r ∉ a.sets.dst → .s r ∉ b.sets.dst → t'.sreg r = t.sreg r

/-- R149, R151, R152: shuffles, folds and CONFL read every lane's value as it stood before the instruction, write one result for each slot,
and change nothing else. -/
def Obligations.CrossLaneResults : Prop :=
  ∀ (s : State) (tid : Nat) (t : Task) (group : Mask), Issues s tid t group → 1 ≤ t.alw.toNat →
    (∀ x : Alu2,
      let k (l : Nat) : Nat := match x.b with | .reg q => t.reg s.tick x.ty.wide q l | .imm i => i.toNat
      let done (i : Instr) (j : Nat → Int) : Prop := Computes s tid t group x.g i 8 x.ty x.dst fun l =>
        (t.reg s.tick x.ty.wide x.a (if 0 ≤ j l ∧ j l < t.lanes.length then (j l).toNat else l), 0)
      done (.shfl x) (fun l => k l) ∧ done (.shflx x) (fun l => ((l ^^^ k l : Nat) : Int)) ∧
      done (.shflup x) (fun l => (l : Int) - k l) ∧ done (.shfldn x) (fun l => (l : Int) + k l)) ∧
    (∀ x : Prfx, Computes s tid t group x.g (.prfx x) 8 x.ty x.dst fun l =>
      (foldVals x.op x.ty (((lanesOf (t.guarded x.g group)).filter fun j => if x.excl then j < l else j ≤ l).map
        (t.reg s.tick x.ty.wide x.a)), 0)) ∧
    (∀ x : Redv, Computes s tid t group x.g (.redv x) 8 x.ty (.s x.dst) fun _ =>
      (foldVals x.op x.ty ((lanesOf (t.guarded x.g group)).map (t.reg s.tick x.ty.wide x.a)), 0)) ∧
    (∀ x : Alu1, Computes s tid t group x.g (.confl x) 8 (if (s.kernelOf t).w = 64 then .n64 else .n32) x.dst fun l =>
      ((maskOf ((lanesOf (t.guarded x.g group)).filter fun j =>
        j < l && t.reg s.tick x.ty.wide x.a j == t.reg s.tick x.ty.wide x.a l)).toNat, 0))

/-- R150: VOTE with a guard-true lane writes its one result into an s register, or into the predicate of every lane of the group. R153:
CPACK sends the values of the guard-true lanes to the lowest lanes of the group in order and their count to an s register; group lanes from
that count upward keep the destination. With no guard-true lane both write nothing. -/
def Obligations.VotesAndPacks : Prop :=
  (∀ (s : State) (tid : Nat) (t : Task) (group : Mask) (x : Vote), Issues s tid t group → 1 ≤ t.alw.toNat →
     let act := t.guarded x.g group
     (act = 0 → ∃ s', exec (.vote x) s = .next s' ∧ TaskDone s s' tid t t group 8 1) ∧
     (act ≠ 0 →
     let v := t.reg s.tick x.ty.wide x.a
     let one : Prop := match x.mode with
       | .any | .ballot => ∃ l ∈ lanesOf act, v l ≠ 0
       | .all => ∀ l ∈ lanesOf act, v l ≠ 0
       | .eq => ∀ l ∈ lanesOf act, ∀ m ∈ lanesOf act, v l = v m
     match x.dst with
     | .s n => ∃ y : Nat, (x.mode = .ballot → ∀ l < 64, y.testBit l = (act.getLsbD l && v l != 0)) ∧ y < 2 ^ 64 ∧
         (x.mode ≠ .ballot → (y = 1 ∧ one) ∨ (y = 0 ∧ ¬ one)) ∧ Computes s tid t group x.g (.vote x) 8 .n64 (.s n) fun _ => (y, 0)
     | .p n => ∃ y : Bool, (y = true ↔ one) ∧
         ∃ s', exec (.vote x) s = .next s' ∧ PredDone s s' tid t group group 8 1 n fun _ => (y, 0))) ∧
  (∀ (s : State) (tid : Nat) (t : Task) (group : Mask) (x : Cpack) (n : Fin 192), Issues s tid t group → 1 ≤ t.alw.toNat →
     x.dst = .v n → let act := t.guarded x.g group
     (act = 0 → ∃ s', exec (.cpack x) s = .next s' ∧ TaskDone s s' tid t t group 12 1) ∧
     (act ≠ 0 →
     let c := (lanesOf act).length
     ∃ s' t', exec (.cpack x) s = .next s' ∧ OnlyTask s s' tid t' ∧
       t' = { t with alw := t.alw - 1, vregs := t'.vregs, sregs := t'.sregs, lanes := t'.lanes, outs := t'.outs, sfOps := t'.sfOps
                     dset := t'.dset, oset := t'.oset } ∧
       LanesMoved t t' group 12 ∧
       (let last := maskOf ((lanesOf group).take c)
        ResultsNoted t t' group (fun o k => Overwrites x.dst x.ty.wide last o k ∨ Overwrites (.s x.cnt) false act o k)
          (OverwritesSf x.dst x.ty.wide last)) ∧
       (∀ (i l m : Nat), (lanesOf act)[i]? = some l → (lanesOf group)[i]? = some m → Holds t' x.ty x.dst m (t.reg s.tick x.ty.wide x.a l)) ∧
       (∀ r m, m < 64 → ¬ Writes x.dst x.ty.wide (maskOf ((lanesOf group).take c)) r m → t'.vreg r m = t.vreg r m) ∧
       ∀ q, t'.sreg q = if q = x.cnt ∧ q ≠ 63 then BitVec.ofNat 64 c else t.sreg q))

/-! ### Control (spec/02_encoding.md, spec/04_control.md) -/

/-- R78, R79, R80: whatever an instruction leaves a lane with, it ends so: a lane of the group that stands at its meeting address at its
meeting's depth parks; the lanes parked at a meeting are released, with their meetings ended, once no unexited lane that is not at its meeting
holds the same meeting value, be it that the last one has come, has exited or has given its meeting up; every other lane stands. R83, R88-R91:
NOP only goes on; MEET gives each guard-true lane its meeting value at its own depth, MEETCLR takes it away; QUANT sets the quantum and clears
the count of backward branches; ELECT names the lowest candidate lane. R77: after YIELD with a guard-true lane the whole group is deferred and
the count of backward branches starts again (R76): the group goes into D, and O becomes the lanes that run on outside D; so the group runs
only after the other runnable lanes, where there are such. R89, R106: EXIT ends its guard-true lanes, and their meetings; the others go on.
While an unexited lane is left, or no child is paused, it changes nothing else but the mark of the stores that a retirement will wait for. -/
def Obligations.ControlEffects : Prop :=
  (∀ (s : State) (tid : Nat) (t : Task) (group : Mask) (g : Guard), Issues s tid t group → 1 ≤ t.alw.toNat →
     let act := t.guarded g group
     (∃ s', exec (.nop g) s = .next s' ∧ TaskDone s s' tid t t group 8 1) ∧
     (∀ tgt, ∃ s', exec (.meet g tgt) s = .next s' ∧ TaskEnds s s' tid t t group 1 (t.sent group act 8 fun l x =>
       { x with pc := x.pc + 8, meetValid := true, meetDepth := x.depth
                meetAddr := match tgt with
                  | .reg r => BitVec.ofNat 32 (t.reg s.tick false r l)
                  | .rel off => t.groupPc group + 4 * off.signExtend 32 })) ∧
     (∃ s', exec (.meetclr g) s = .next s' ∧ TaskEnds s s' tid t t group 1 (t.sent group act 8 fun _ x =>
       { x with pc := x.pc + 8, meetValid := false })) ∧
     (∀ q, act ≠ 0 → ∃ s', exec (.quant g q) s = .next s' ∧ TaskDone s s' tid t { t with quant := q, bbc := 0 } group 8 1) ∧
     (∀ (dst : ElectDst) (src : Option (Fin 192)), act ≠ 0 →
       let e := (lanesOf act).find? fun l => match src with | none => true | some r => t.rdV s.tick r.val l != 0
       match dst with
       | .s n => Computes s tid t group g (.elect g dst src) 8 .n64 (.s n) fun _ => (match e with | some l => l | none => 2 ^ 64 - 1, 0)
       | .p n => ∃ s', exec (.elect g dst src) s = .next s' ∧ PredDone s s' tid t group group 8 1 n fun l => (e = some l, 0))) ∧
  (∀ (s : State) (tid : Nat) (t : Task) (group : Mask) (g : Guard), Issues s tid t group → 1 ≤ t.alw.toNat →
     let act := t.guarded g group
     ∃ s' t', exec (.yield g) s = .next s' ∧ OnlyTask s s' tid t' ∧
       (act = 0 → t.Ends t t' group 1 (t.moved group 8)) ∧
       (act ≠ 0 → ∃ o, (∀ l < 64, o.getLsbD l = true ↔ RunsOn t.lanes.length group (t.moved group 8) l ∧ (t.dset ||| group).getLsbD l = false) ∧
         t.Ends { t with bbc := 0, dset := t.dset ||| group, oset := o } t' group 1 (t.moved group 8)) ∧
       (act ≠ 0 → ∀ l, l < t.lanes.length → l < 64 → t.dset.getLsbD l = false → group.getLsbD l = false → (t.lane l).exited = false →
         (t.lane l).park = .none → t'.eligible &&& group = 0)) ∧
  (∀ (s : State) (tid : Nat) (t : Task) (group : Mask) (g : Guard), Issues s tid t group → 1 ≤ t.alw.toNat →
     let act := t.guarded g group
     let left := ∃ l, l < t.lanes.length ∧ l < 64 ∧ (t.lane l).exited = false ∧ act.getLsbD l = false
     t.lanes.length ≤ 64 →
     (left ∨ ∀ c ∈ t.children, c.final ≠ none ∨ c.paused = false) →
     ∃ s' mark, exec (.exit g) s = .next s' ∧
       TaskEnds s s' tid t { t with relMark := mark } group 1 (t.sent group act 8 fun _ x => { x with exited := true, meetValid := false }) ∧
       (left → mark = t.relMark) ∧ (¬ left → mark = s.nextReq)) ∧
  (∀ (s : State) (tid : Nat) (t : Task) (group : Mask) (g : Guard), Issues s tid t group → 1 ≤ t.alw.toNat →
     let act := t.guarded g group
     let ends (i : Instr) (x : Nat → Lane) : Prop :=
       let come (l : Nat) : Prop := (x l).park = .meeting ∨ (group.getLsbD l = true ∧ (x l).meetValid = true ∧ (x l).exited = false ∧
         (x l).park = .none ∧ (x l).depth = (x l).meetDepth ∧ (x l).pc = (x l).meetAddr)
       let missing (l : Nat) : Prop := ∃ k < t.lanes.length, ¬ come k ∧ (x k).exited = false ∧ (x k).meetValid = true ∧
         (x k).meetDepth = (x l).meetDepth ∧ (x k).meetAddr = (x l).meetAddr
       ∃ s' t', exec i s = .next s' ∧ s'.task? tid = some t' ∧ ∀ l < t.lanes.length,
         (come l → missing l → t'.lane l = { x l with park := .meeting }) ∧
         (come l → ¬ missing l → t'.lane l = { x l with park := .none, meetValid := false }) ∧ (¬ come l → t'.lane l = x l)
     ends (.nop g) (t.moved group 8) ∧
     (∀ off, ends (.bra g off) (t.sent group act 8 fun _ x => { x with pc := t.groupPc group + 4 * off.signExtend 32 })) ∧
     ends (.meetclr g) (t.sent group act 8 fun _ x => { x with pc := x.pc + 8, meetValid := false }) ∧
     ((∃ l, l < t.lanes.length ∧ l < 64 ∧ (t.lane l).exited = false ∧ act.getLsbD l = false) →
       ends (.exit g) (t.sent group act 8 fun _ x => { x with exited := true, meetValid := false })))

/-- R83: NOP advances the PC of each issuing lane by 8 and changes nothing else but the account that pays for it; the zero word is NOP. -/
def Obligations.NopOnlyAdvances : Prop :=
  (∀ (s : State) (tid : Nat) (t : Task) (group : Mask) (g : Guard), Issues s tid t group → 1 ≤ t.alw.toNat →
     ∃ s' t', exec (.nop g) s = .next s' ∧ OnlyTask s s' tid t' ∧ LanesMoved t t' group 8 ∧ t'.alw = t.alw - 1 ∧ t'.sregs = t.sregs ∧
       t'.vregs = t.vregs ∧ t'.preds = t.preds ∧ t'.fpctl = t.fpctl ∧
       t' = { t with alw := t'.alw, lanes := t'.lanes, outs := t'.outs, dset := t'.dset, oset := t'.oset }) ∧
  ∀ (n w : Nat) (pc : BitVec 32) (raw : Nat), pc.toNat % 4 = 0 → pc.toNat % 32 ≤ 24 → raw % 2 ^ 64 = 0 →
    decode n w pc raw = .nop { neg := false, p := 0 }

/-- R75, R84, R85: a branch sends its guard-true lanes to their targets and the others behind it; where some lane goes to an address not
above the branch, the count of backward branches rises by one, and at QUANT it starts again (R76): the issuing group goes into D, and O
becomes the lanes that run on outside D, whatever it was before. R81, R84, R86, R87: a call raises the depth of
its guard-true lanes and saves the address behind it, in LINK or in a v register; a return lowers the depth and goes to LINK or to a
register's address. R81: a call at depth 255 and a return at depth 0 take fault 0x03, which names the guard-true lanes. -/
def Obligations.BranchesCallsAndReturns : Prop :=
  (∀ (s : State) (tid : Nat) (t : Task) (group : Mask) (g : Guard), Issues s tid t group → 1 ≤ t.alw.toNat →
     let act := t.guarded g group
     let pc := t.groupPc group
     let done (i : Instr) (f : Nat → BitVec 32) : Prop :=
       let back := ∃ l ∈ lanesOf act, (f l).toNat ≤ pc.toNat
       let lane := t.sent group act 8 fun l x => { x with pc := f l }
       ∃ s' n d o, exec i s = .next s' ∧ TaskEnds s s' tid t { t with bbc := n, dset := d, oset := o } group 1 lane ∧
         (¬ back → n = t.bbc ∧ d = t.dset ∧ o = t.oset) ∧
         (back → t.bbc.toNat + 1 < t.quant.toNat → n = t.bbc + 1 ∧ d = t.dset ∧ o = t.oset) ∧
         (back → t.quant.toNat ≤ t.bbc.toNat + 1 → n = 0 ∧ d = t.dset ||| group ∧
           ∀ l < 64, o.getLsbD l = true ↔ RunsOn t.lanes.length group lane l ∧ d.getLsbD l = false)
     (∀ off, done (.bra g off) fun _ => pc + 4 * off.signExtend 32) ∧
     (∀ src disp, done (.brx g src disp) fun l =>
       BitVec.ofNat 32 (t.reg s.tick false src l) + (match disp with | none => 0 | some d => d.signExtend 32))) ∧
  (∀ (s : State) (tid : Nat) (t : Task) (group : Mask) (g : Guard), Issues s tid t group → 1 ≤ t.alw.toNat →
     let act := t.guarded g group
     let pc := t.groupPc group
     let depth := (t.lane ((lowest? act).getD 0)).depth
     (∀ off, act = 0 ∨ depth ≠ 255 → ∃ s', exec (.call g off) s = .next s' ∧
       TaskEnds s s' tid t t group 1 (t.sent group act 8 fun _ x =>
         { x with pc := pc + 4 * off.signExtend 32, link := pc + 8, depth := x.depth + 1 })) ∧
     (∀ dst tgt, act = 0 ∨ depth ≠ 255 → ∃ s' t', exec (.callx g dst tgt) s = .next s' ∧ OnlyTask s s' tid t' ∧
       ResultFrame t t' group act (.v dst) false 1 (t.sent group act 8 fun l x =>
         { x with depth := x.depth + 1
                  pc := match tgt with
                    | .reg r => BitVec.ofNat 32 (t.reg s.tick false r l)
                    | .rel off => pc + 4 * off.signExtend 32 }) ∧
       t'.fpctl = t.fpctl ∧ ∀ l, l < 64 → act.getLsbD l = true → t'.vreg dst.val l = pc + 8) ∧
     (∀ src, act = 0 ∨ depth ≠ 0 → ∃ s', exec (.ret g src) s = .next s' ∧
       TaskEnds s s' tid t t group 1 (t.sent group act 8 fun l x =>
         { x with depth := x.depth - 1
                  pc := match src with | none => x.link | some r => BitVec.ofNat 32 (t.reg s.tick false r l) }))) ∧
  (∀ (s : State) (tid : Nat) (t : Task) (group : Mask) (g : Guard), Issues s tid t group →
     let act := t.guarded g group
     let depth := (t.lane ((lowest? act).getD 0)).depth
     let bad : State := s.takeFault tid (t.record 0x03 (t.groupPc group) group act 0 0 false false)
     act ≠ 0 →
     (depth = 255 → (∀ off, exec (.call g off) s = .next bad) ∧ ∀ dst tgt, exec (.callx g dst tgt) s = .next bad) ∧
     (depth = 0 → ∀ src, exec (.ret g src) s = .next bad))

/-- R43, R44: a word that is no instruction is fault 0x01 for the whole group whatever the guards, with its reason, its slot and the word in
DETAIL. R113, R116, R117, R119: the faults of the task instructions come before their charge: the limits of a deterministic launch (0x1B,
reasons 1, for a child at level 9 or of an index of 255 or more, be it one child of a fan, and 2), a device outside the load-store domain
(0x1A), and the reasons of 0x19, which names the whole group. -/
def Obligations.FaultsOfInstructions : Prop :=
  (∀ (s : State) (tid : Nat) (t : Task) (group : Mask) (reason slot : BitVec 8) (word : BitVec 64), Issues s tid t group →
     ∃ r : FaultRec, exec (.illegalInstruction reason slot word) s = .next (s.takeFault tid r) ∧ r.code = 0x01 ∧ r.gmask = group ∧
       r.lmask = group ∧ r.pc = t.groupPc group ∧ r.alw = t.alw ∧ r.detail.toNat % 2 ^ 8 = reason.toNat ∧
       r.detail.toNat / 2 ^ 8 % 2 ^ 8 = slot.toNat ∧ r.detail.toNat / 2 ^ 64 = word.toNat) ∧
  (∀ (s : State) (tid : Nat) (t : Task) (group : Mask) (g : Guard), Issues s tid t group → t.guarded g group ≠ 0 →
     let fault (code : BitVec 8) (lanes : Mask) (reason : Nat) : Host.Outcome State Fault Refusal :=
       .next (s.takeFault tid (t.record code (t.groupPc group) group lanes 0 (BitVec.ofNat 128 reason) false false))
     (∀ x : SpawnF, x.g = g → ∀ d, t.det = true → exec (.spawnx x d) s = fault 0x1B (t.guarded g group) 2) ∧
     (∀ x : SpawnF, x.g = g → t.det = true → 8 ≤ levelOf t.ordinal ∨ 255 ≤ t.childCtr.toNat →
       exec (.spawn x) s = fault 0x1B (t.guarded g group) 1) ∧
     (∀ (x : SpawnF) (n : Fin 4097), x.g = g → t.det = true → 1 ≤ n.val →
       8 ≤ levelOf t.ordinal ∨ 255 < (if t.childCtr.toNat + n.val ≤ 65536 then t.childCtr.toNat else 0) + n.val →
       exec (.spawnf x n) s = fault 0x1B (t.guarded g group) 1) ∧
     (∀ x : SpawnF, x.g = g → ∀ d, t.det = false → (s.asd t.asid).devices.contains d.toNat = false →
       exec (.spawnx x d) s = fault 0x1A (t.guarded g group) 0) ∧
     (∀ dst cap, 4 ≤ t.plies.length → exec (.plynew g dst cap) s = fault 0x19 group 5) ∧
     (∀ dst cap, t.plies.length < 4 → (∀ i, i < 256 → ∃ p ∈ s.plies, p.die = t.die ∧ p.idx = i) →
       exec (.plynew g dst cap) s = fault 0x19 group 7) ∧
     (∀ src r, (Ctx.of s t group g 8).plyOf src = .error r → exec (.plyjoin g src) s = fault 0x19 group r ∧
       exec (.plyleave g src) s = fault 0x19 group r ∧ exec (.plybar g src) s = fault 0x19 group r) ∧
     (∀ src p, (Ctx.of s t group g 8).plyOf src = .ok p →
       (p.cap ≤ p.members.length → exec (.plyjoin g src) s = fault 0x19 group 4) ∧
       (p.members.length < p.cap → 4 ≤ t.plies.length → exec (.plyjoin g src) s = fault 0x19 group 5) ∧
       (p.members.length < p.cap → t.plies.length < 4 → p.members.contains tid = true → exec (.plyjoin g src) s = fault 0x19 group 6) ∧
       (p.members.contains tid = false → exec (.plyleave g src) s = fault 0x19 group 8 ∧ exec (.plybar g src) s = fault 0x19 group 8)))

/-- R45, R118, R221, R276, R291, R310: a uniform instruction none of whose lanes has a true guard is charged its fixed part and goes on;
where the account does not cover that part it takes trap 0x0A (R98). -/
def Obligations.UnguardedUniformInstructions : Prop :=
  ∀ (s : State) (tid : Nat) (t : Task) (group : Mask) (g : Guard), Issues s tid t group → t.guarded g group = 0 →
    let idle (i : Instr) (len cost : Nat) : Prop := (cost ≤ t.alw.toNat → ∃ s', exec i s = .next s' ∧ TaskDone s s' tid t t group len cost) ∧
      (t.alw.toNat < cost → Exhausts s tid t group i cost)
    (∀ d r, idle (.elect g d r) 8 1) ∧ (∀ q, idle (.quant g q) 8 1) ∧
    (∀ x : SpawnF, x.g = g → idle (.spawn x) 16 32 ∧ (∀ n, idle (.spawnf x n) 16 32) ∧ ∀ d, idle (.spawnx x d) 16 64) ∧
    (∀ d h, idle (.join g d h) 8 4) ∧ (∀ d, idle (.joinany g d) 8 4) ∧ (∀ r d h a, idle (.topup g r d h a) 8 4) ∧
    (∀ d h, idle (.resume g d h) 8 4 ∧ idle (.cancel g d h) 8 4) ∧ (∀ h d, idle (.alwrd g h d) 8 1) ∧
    (∀ d n, idle (.plynew g d n) 8 4) ∧ (∀ r, idle (.plyjoin g r) 8 4 ∧ idle (.plyleave g r) 8 4 ∧ idle (.plybar g r) 8 4) ∧
    (∀ c p, idle (.setpri g c p) 8 4) ∧ (∀ x : Vote, x.g = g → idle (.vote x) 8 1) ∧ (∀ x : Cpack, x.g = g → idle (.cpack x) 12 1) ∧
    (∀ m, idle (.sfWait g m) 8 1) ∧ (∀ o a, idle (.cctl g o a) 8 4) ∧ (∀ n m, idle (.bankset g n m) 8 16) ∧
    (∀ d a, idle (.probe g d a) 8 2) ∧ idle (.aflush g) 8 4 ∧ (∀ k sc, idle (.fence g k sc) 8 2) ∧
    (∀ x : TcTile, x.g = g → idle (.tcLoad x) 16 8 ∧ idle (.tcStore x) 16 8) ∧ (∀ x : TcQnt2, x.g = g → idle (.tcQnt2 x) 16 8) ∧
    (∀ x : TcCopy, x.g = g → idle (.tcCopy x) 16 8) ∧ (∀ x : TcFill, x.g = g → idle (.tcFill x) 16 8) ∧
    (∀ c l a, idle (.tcLyset g c l a) 8 8) ∧ (∀ c w a, idle (.arrive g c w a) 8 2) ∧ (∀ d w e o, idle (.await g d w e o) 8 1) ∧
    (∀ d w, idle (.awtest g d w) 8 1) ∧ (∀ d, idle (.tcStat g d) 8 1) ∧
    (∀ x : CapWord, x.g = g → idle (.capAbort x) 8 4 ∧ idle (.capProbe x) 8 2) ∧
    (∀ x : MxArm, x.g = g → idle (.mxArm x) 16 16) ∧ (∀ v, idle (.mxSign g v) 8 2) ∧ idle (.mxFence g) 8 1 ∧
    (∀ d v, idle (.mxWait g d v) 8 1 ∧ idle (.mxStep g d v) 8 1) ∧ (∀ m, idle (.mxZero g m) 8 4) ∧ (∀ v, idle (.mxAbort g v) 8 4) ∧
    (∀ x : MxDrain, x.g = g → idle (.mxDrain x) 16 8) ∧ (∀ x : MxFill, x.g = g → idle (.mxFill x) 16 8) ∧
    (∀ x : PgMem, x.g = g → idle (.pgLoad x) 8 4 ∧ (∀ f, idle (.pgSave x f) 8 4) ∧ idle (.pgRest x) 8 4) ∧
    (∀ x : PgRun, x.g = g → idle (.pgRun x) 16 8) ∧ (∀ d c, idle (.pgStat g d c) 8 1) ∧
    (∀ n, idle (.trap g n) 8 8) ∧ (∀ d n, idle (.sysrd g d n) 8 2) ∧ (∀ r n, idle (.syswr g r n) 8 4) ∧
    (∀ n, idle (.bkpt g n) 8 1) ∧ ∀ n, idle (.susp g n) 8 4

/-- R22, R76, R95, R98-R100, R199, R202, R203: taking a fault writes its record at FQTAIL and advances FQTAIL, parks the unparked lanes of
its group, which leave O, and stops the task; the account, the registers and the PCs stand. Every instruction of a cost that hangs on no operand takes
trap 0x0A where the account does not cover its cost: the task unwinds, or pauses with everything as before; a call or return that takes no
fault does so at cost 1. (The statements of the other instructions say the same of theirs.) -/
def Obligations.FaultsAndExhaustion : Prop :=
  (∀ (s : State) (tid : Nat) (t : Task) (r : FaultRec), s.task? tid = some t → t.capLanes = [] → (s.core t.core).ring.length = 128 →
    ∃ t', (s.takeFault tid r).task? tid = some t' ∧ OthersStand s (s.takeFault tid r) tid ∧
      s.takeFault tid r = { s with tasks := (s.takeFault tid r).tasks, cores := (s.takeFault tid r).cores } ∧
      t' = { t with fault := some r, lanes := t'.lanes, dset := t'.dset, oset := t'.oset } ∧ t'.canIssue = false ∧ t'.oset &&& r.gmask = 0 ∧ t'.lanes.length = t.lanes.length ∧
      (∀ l, l < t.lanes.length → t'.lane l =
        if r.gmask.getLsbD l = true ∧ (t.lane l).park = .none then { t.lane l with park := .fault } else t.lane l) ∧
      let c := s.core t.core
      let c' := (s.takeFault tid r).core t.core
      c'.fqTail = c.fqTail + 1 ∧ c'.fqHead = c.fqHead ∧
      ∀ i, i < 128 → c'.ring[i]? = if i = c.fqTail.toNat % 128 then some r else c.ring[i]?) ∧
  (∀ (s : State) (tid : Nat) (t : Task) (group : Mask) (i : Instr) (n : Nat), Issues s tid t group → flatCost i = some n → t.alw.toNat < n →
    Exhausts s tid t group i n) ∧
  ∀ (s : State) (tid : Nat) (t : Task) (group : Mask) (g : Guard), Issues s tid t group → t.alw = 0 →
    let act := t.guarded g group
    let depth := (t.lane ((lowest? act).getD 0)).depth
    (act = 0 ∨ depth ≠ 255 → (∀ off, Exhausts s tid t group (.call g off) 1) ∧ ∀ dst tgt, Exhausts s tid t group (.callx g dst tgt) 1) ∧
    (act = 0 ∨ depth ≠ 0 → ∀ src, Exhausts s tid t group (.ret g src) 1)

/-! ### Tasks (spec/05_tasks.md) -/

/-- R107, R119: the SPAWN family with a guard-true lane charges its fixed part and the allowance of each child, issues consecutive handles
and writes the first; each child gets a completion record, and where no group of the task waits in JOIN or JOINANY for such a record the
device's memory and every other task are unchanged. Each child of the fan, within the limit of R104, and of R369 where it goes to this device
itself, is a new task with its allowance, the entry as the PC of each of its W lanes, the parent's kernel, principal and address space, a
priority under the ceiling, the arguments in s0 upward, its number within a fan in s8, and a place of R108 or its target device; a child
beyond the limit of R104 is refused, and so is one that its target refuses, which counts toward that limit until it is joined. -/
def Obligations.SpawnCreatesChildren : Prop :=
  ∀ (s : State) (tid : Nat) (t : Task) (group : Mask) (x : SpawnF), Issues s tid t group → t.guarded x.g group ≠ 0 →
    let a := t.rdS s.tick x.alw
    let done (i : Instr) (n fixed : Nat) (dev : Option (BitVec 10)) (fan : Bool) : Prop :=
      let hs := (nextHandles t.childCtr t.childGen n).1
      (t.det = true → dev = none ∧ beyondOrdinals t.ordinal (hs.map fun h => h.toNat % 65536) = false) →
      (∀ d, dev = some d → (s.asd t.asid).devices.contains d.toNat = true) →
      (t.alw.toNat < fixed + n * a.toNat → Exhausts s tid t group i (fixed + n * a.toNat)) ∧
      (fixed + n * a.toNat ≤ t.alw.toNat →
      let dropped := dev = some s.deviceNo ∧ s.inboundRefuses t.asid t.kernel = true
      ∃ s' t', exec i s = .next s' ∧ s'.task? tid = some t' ∧
        ((∀ w ∈ t.waits, match w.kind with | .join _ _ | .joinAny _ => False | _ => True) →
        s' = { s with tasks := s'.tasks, nextTask := s'.nextTask, nextSeq := s'.nextSeq, inbound := s'.inbound, vfs := s'.vfs } ∧
        (∀ j u, j ≠ tid → s.task? j = some u → s'.task? j = some u) ∧
        t'.alw = t.alw - BitVec.ofNat 64 (fixed + n * a.toNat) ∧ LanesMoved t t' group 16 ∧ t'.vregs = t.vregs ∧ t'.preds = t.preds ∧
        (∀ r, t'.sreg r = if r = x.dst ∧ r ≠ 63 then (hs.headD 0).setWidth 64 else t.sreg r) ∧
        t'.children.map (·.handle) = t.children.map (·.handle) ++ hs ∧
        ∀ j < n, let m := (t.children.filter (·.counted)).length + j
        (Config.maxChildren ≤ m ∨ dropped → ∃ c, t'.children[t.children.length + j]? = some c ∧ c.final = some .refused ∧ c.remainder = a ∧
          c.counted = decide (m < Config.maxChildren)) ∧
        (m < Config.maxChildren → ¬ dropped → tid < s.nextTask →
          ∃ k c, s'.tasks[s.tasks.length + j]? = some k ∧ t'.children[t.children.length + j]? = some c ∧ c.final = none ∧ c.task = k.id ∧
            c.counted = true ∧ c.remote = dev.isSome ∧ k.id = s.nextTask + j ∧ k.parent = some tid ∧ k.root = t.root ∧ k.kernel = t.kernel ∧
            k.prin = t.prin ∧ k.asid = t.asid ∧ k.vf = t.vf ∧ k.alw = a ∧ k.held = 0 ∧
            k.lanes = List.replicate (s.kernelOf t).w (Lane.start x.entry) ∧ k.prio = capPrio (x.prio.getD t.prio) t.ceil ∧
            k.ceil = t.ceil ∧ k.vregs = [] ∧ k.preds = [] ∧ k.fpctl = t.fpctl &&& 0xF ∧ hs[j]? = some k.handle ∧
            (fan = true → Store.get k.sregs 8 = BitVec.ofNat 64 j) ∧
            (∀ i, i < x.argc.val → fan = false ∨ i ≠ 8 → ∀ h : x.arg0.val + i < 64, Store.get k.sregs i = t.rdS s.tick ⟨x.arg0.val + i, h⟩) ∧
            (∀ d, dev = some d → k.place = .remote d) ∧
            (dev = none → k.place = .distQ (dieOf t.core) ∨ ∃ c, k.place = .localQ c))))
    done (.spawn x) 1 32 none false ∧ (∀ n : Fin 4097, done (.spawnf x n) n.val 32 none true) ∧
    ∀ d, done (.spawnx x d) 1 64 (some d) false

/-- R120: JOIN and JOINANY with a guard-true lane are charged 4, park their group and are served at once where a child is reportable.
Whatever else the task waits for, as long as no earlier JOIN or JOINANY of it can be served: JOIN of a handle that names no child writes
INVALID and goes on; JOIN of a child with a final status writes handle and status and the remainder, credits the remainder and releases the
record; JOIN of a child that is paused writes PAUSED at once, and the child keeps its record; JOIN of a child that runs waits. JOINANY
writes INVALID with the handle 0xFFFFFFFF where no child is outstanding, reports the child whose retirement was received first where the
launch is not deterministic, and waits where children are outstanding and none is reportable. -/
def Obligations.JoinsReportChildren : Prop :=
  ∀ (s : State) (tid : Nat) (t : Task) (group : Mask) (g : Guard) (dst h : Fin 64), Issues s tid t group → 4 ≤ t.alw.toNat →
    t.guarded g group ≠ 0 →
    let handle : BitVec 32 := (t.rdS s.tick h).setWidth 32
    exec (.join g dst h) s =
      .next ((((s.paid tid group 4 0).parked tid t group 8 (.join handle dst) .join).serveJoins tid).ended tid group) ∧
    exec (.joinany g dst) s =
      .next ((((s.paid tid group 4 0).parked tid t group 8 (.joinAny dst) .join).serveJoins tid).ended tid group) ∧
    let writes (t' : Task) (hi st rest : BitVec 64) : Prop := ∀ r : Fin 64, t'.sreg r =
      if r = 63 then (0 : BitVec 64) else if r.val = dst.val + 1 then rest else if r = dst then hi <<< 32 ||| st else t.sreg r
    let goes (t' : Task) (more : BitVec 64) : Prop := t'.waits = t.waits ∧ t'.alw = t.alw - 4 + more ∧ LanesMoved t t' group 8
    let stays (t' : Task) (k : WaitKind) : Prop := t'.alw = t.alw - 4 ∧ t'.sregs = t.sregs ∧ t'.children = t.children ∧
      ∃ w, t'.waits = t.waits ++ [w] ∧ w.lanes = group ∧ w.pc = t.groupPc group ∧ w.kind = k
    t.Unparked group →
    ((∀ w ∈ t.waits, match w.kind with
        | .join h' _ => h' ≠ handle ∧ ∃ c, t.child? h' = some c ∧ c.ready false = false
        | .joinAny _ => False
        | _ => True) →
      ∃ s' t', exec (.join g dst h) s = .next s' ∧ s'.task? tid = some t' ∧
      (t.child? handle = none → goes t' 0 ∧ t'.children = t.children ∧ writes t' (handle.setWidth 64) 0xFF 0) ∧
      (∀ c f, t.child? handle = some c → c.final = some f → c.entries = [] → goes t' c.remainder ∧
        t'.children = t.children.filter (fun d => d.handle ≠ handle) ∧ writes t' (handle.setWidth 64) f.code c.remainder) ∧
      (∀ c, t.child? handle = some c → c.final = none → c.paused = true → goes t' 0 ∧
        t'.children = t.children.map (fun d => if d.handle = handle then { d with reported := true } else d) ∧
        writes t' (handle.setWidth 64) 2 0) ∧
      (∀ c, t.child? handle = some c → c.final = none → c.paused = false → stays t' (.join handle dst))) ∧
    ((∀ w ∈ t.waits, match w.kind with | .join _ _ | .joinAny _ => False | _ => True) →
      ∃ s' t', exec (.joinany g dst) s = .next s' ∧ s'.task? tid = some t' ∧
      (t.children = [] → goes t' 0 ∧ t'.children = [] ∧ writes t' 0xFFFFFFFF 0xFF 0) ∧
      (∀ c f, t.det = false → c ∈ t.children → c.final = some f → c.entries = [] →
        (∀ d ∈ t.children, d ≠ c → d.ready true = true → c.seq < d.seq) → goes t' c.remainder ∧
        t'.children = t.children.filter (fun d => d.handle ≠ c.handle) ∧ writes t' (c.handle.setWidth 64) f.code c.remainder) ∧
      (t.children ≠ [] → (∀ c ∈ t.children, c.ready false = false) → stays t' (.joinAny dst)))

/-- R121, R122: TOPUP charges 4 and the amount, sends it to the child's account and parks its group; RESUME and CANCEL charge 4, act on the
child and write the status: 0xFF where the handle names no child, 2 where the child has its final status, 1 where it is not paused, or
already stopping, 0 where it was resumed or cancelled. -/
def Obligations.ChildCommands : Prop :=
  ∀ (s : State) (tid : Nat) (t : Task) (group : Mask) (g : Guard) (dst h : Fin 64), Issues s tid t group → t.guarded g group ≠ 0 →
    let handle : BitVec 32 := (t.rdS s.tick h).setWidth 32
    let paid := s.paid tid group 4 0
    let ends (s1 : State) (st : BitVec 64) : State :=
      (((s1.updTask tid fun u => u.wrS dst st).goneOn tid group 8).ended tid group)
    (∀ res amt, t.alw.toNat < 4 + (t.rdS s.tick amt).toNat →
      Exhausts s tid t group (.topup g res dst h amt) (4 + (t.rdS s.tick amt).toNat)) ∧
    (∀ res amt, 4 + (t.rdS s.tick amt).toNat ≤ t.alw.toNat →
      ∃ s' t', exec (.topup g res dst h amt) s = .next s' ∧ s'.task? tid = some t' ∧
        t'.alw = t.alw - BitVec.ofNat 64 (4 + (t.rdS s.tick amt).toNat) ∧ t'.sregs = t.sregs ∧
        s' = { s with tasks := s'.tasks, credits := s.credits ++
          [{ parent := tid, child := handle, amount := t.rdS s.tick amt, res := res, lanes := group }] } ∧
        ∃ w, t'.waits = t.waits ++ [w] ∧ w.lanes = group ∧ w.pc = t.groupPc group ∧ w.kind = .topup dst) ∧
    (4 ≤ t.alw.toNat →
      (t.child? handle = none → exec (.resume g dst h) s = .next (ends paid 0xFF) ∧ exec (.cancel g dst h) s = .next (ends paid 0xFF)) ∧
      ∀ c, t.child? handle = some c →
        (c.final ≠ none ∨ s.task? c.task = none → exec (.resume g dst h) s = .next (ends paid 2) ∧
          exec (.cancel g dst h) s = .next (ends paid 2)) ∧
        ∀ k, c.final = none → s.task? c.task = some k → c.task ≠ tid →
          exec (.resume g dst h) s = .next (if k.paused = true ∧ k.stop = none then ends (paid.unpause c.task) 0 else ends paid 1) ∧
          exec (.cancel g dst h) s = .next (if k.stop = none then ends (paid.stopTask c.task .cancelled) 0 else ends paid 1))

/-- R110, R123, R125: ALWRD writes ALW as it stands behind its own charge, or HELD; SETPRI sets the task's own priority, or that of a child
it names, and never above the ceiling; a handle that names no child changes nothing. R114-R117, R124: PLYNEW makes a ply with the task as
its only member, in the lowest-numbered free entry of its die's table (log 115), and writes its id; PLYJOIN adds the task; PLYLEAVE takes it
out: the last member's leave dissolves the ply and raises its entry's generation; another's withdraws its arrival, and where every member
left has arrived it releases the barrier, else the ply stands in its generation. PLYBAR parks the group on the barrier; where the task's
writes are performed it arrives: as the last member it releases the barrier, its own group and those of the other members going on, else
it waits. A release opens the next generation. A later group of a task that has arrived joins its wait. -/
def Obligations.AccountPriorityAndPlies : Prop :=
  (∀ (s : State) (tid : Nat) (t : Task) (group : Mask) (g : Guard), Issues s tid t group → t.guarded g group ≠ 0 →
     (1 ≤ t.alw.toNat → ∀ held dst, Computes s tid t group g (.alwrd g held dst) 8 .n64 (.s dst) fun _ =>
       ((if held then t.held else t.alw - 1).toNat, 0)) ∧
     (4 ≤ t.alw.toNat →
       (∀ p, ∃ s', exec (.setpri g none p) s = .next s' ∧
         TaskDone s s' tid t { t with prio := if t.ceil.toNat < p.toNat then t.ceil else p } group 8 4) ∧
       (∀ h p, (t.child? ((t.rdS s.tick h).setWidth 32) = none ∨
           ∃ c, t.child? ((t.rdS s.tick h).setWidth 32) = some c ∧ c.final ≠ none) →
         ∃ s', exec (.setpri g (some h) p) s = .next s' ∧ TaskDone s s' tid t t group 8 4) ∧
       ∀ h p c k, t.child? ((t.rdS s.tick h).setWidth 32) = some c → c.final = none → s.task? c.task = some k → c.task ≠ tid →
         ∃ s' t', exec (.setpri g (some h) p) s = .next s' ∧ s'.task? tid = some t' ∧ t.After t t' group 8 4 ∧
           s'.task? c.task = some { k with prio := if k.ceil.toNat < p.toNat then k.ceil else p } ∧
           (∀ j, j ≠ tid → j ≠ c.task → s'.task? j = s.task? j) ∧ s' = { s with tasks := s'.tasks })) ∧
  (∀ (s : State) (tid : Nat) (t : Task) (group : Mask) (g : Guard), Issues s tid t group → t.guarded g group ≠ 0 →
     (∀ dst cap i, 4 ≤ t.alw.toNat → t.plies.length < 4 → ((List.range 256).find? fun i => !s.plies.any fun p => p.die == t.die && p.idx == i) = some i →
       ∃ s' t' p, exec (.plynew g dst cap) s = .next s' ∧ s'.task? tid = some t' ∧ s' = { s with tasks := s'.tasks, plies := s.plies ++ [p] } ∧
         p.die = t.die ∧ p.idx = i ∧ p.asid = t.asid ∧ p.cap = cap.val ∧ p.members = [tid] ∧ p.arrived = [] ∧
         t'.alw = t.alw - 4 ∧ LanesMoved t t' group 8 ∧ t'.plies = t.plies ++ [p.id] ∧
         ∀ r, t'.sreg r = if r = dst ∧ r ≠ 63 then p.id.setWidth 64 else t.sreg r) ∧
     (t.alw.toNat < 4 → (∀ dst cap, t.plies.length < 4 → ((List.range 256).any fun i => !s.plies.any fun p => p.die == t.die && p.idx == i) →
         Exhausts s tid t group (.plynew g dst cap) 4) ∧ ∀ src p, (Ctx.of s t group g 8).plyOf src = .ok p →
       (p.members.length < p.cap → t.plies.length < 4 → p.members.contains tid = false → Exhausts s tid t group (.plyjoin g src) 4) ∧
       (p.members.contains tid = true → Exhausts s tid t group (.plyleave g src) 4 ∧ Exhausts s tid t group (.plybar g src) 4)) ∧
     (4 ≤ t.alw.toNat → ∀ src p, (Ctx.of s t group g 8).plyOf src = .ok p →
       (p.members.length < p.cap → t.plies.length < 4 → p.members.contains tid = false →
         ∃ s' t', exec (.plyjoin g src) s = .next s' ∧ s'.task? tid = some t' ∧ t.After { t with plies := t.plies ++ [p.id] } t' group 8 4 ∧
           s' = { s with tasks := s'.tasks, plies := s.plies.map fun q =>
             if q.id = p.id then { q with members := q.members ++ [tid] } else q }) ∧
       (p.members.contains tid = true →
         exec (.plyleave g src) s = .next ((((s.paid tid group 4 0).plyLeave tid p.id).goneOn tid group 8).ended tid group) ∧
         (p.arrived.contains tid = false → exec (.plybar g src) s = .next ((((s.paid tid group 4 0).parked tid t group 8
           (.plybar p.id ((s.paid tid group 4 0).releaseSet t.core tid .ply)) .barrier).serveOrder).ended tid group)) ∧
         (p.arrived.contains tid = true → exec (.plybar g src) s = .next (((s.paid tid group 4 0).parked tid t group 8
           (.plywait p.id) .barrier).ended tid group))))) ∧
  (∀ (s : State) (tid : Nat) (t : Task) (group : Mask) (g : Guard) (src : Fin 64) (p : Ply), Issues s tid t group → 4 ≤ t.alw.toNat →
     t.guarded g group ≠ 0 → (s.tasks.map (·.id)).Nodup → (s.plies.map (·.id)).Nodup → (Ctx.of s t group g 8).plyOf src = .ok p →
     tid ∈ p.members → (∀ w ∈ t.waits, w.forPly p.id = false ∧ w.atBar p.id = false) →
     (let left := p.members.filter (· ≠ tid)
      ∃ s' t', exec (.plyleave g src) s = .next s' ∧ s'.task? tid = some t' ∧ t.After { t with plies := t.plies.filter (· ≠ p.id) } t' group 8 4 ∧
        (left = [] → s'.ply? p.id = none ∧ OthersStand s s' tid ∧
          Store.get s'.plyGens (256 * p.die + p.idx) = Store.get s.plyGens (256 * p.die + p.idx) + 1) ∧
        (left ≠ [] → (∃ m ∈ left, m ∉ p.arrived) → OthersStand s s' tid ∧
          s'.ply? p.id = some { p with members := left, arrived := p.arrived.filter (· ≠ tid) }) ∧
        (left ≠ [] → (∀ m ∈ left, m ∈ p.arrived) → PlyReleased s s' tid p left)) ∧
     (tid ∉ p.arrived → t.isPlaced = true → t.dentries = [] → s.NobodyWaits → t.Unparked group →
      (s.paid tid group 4 0).unperformed ((s.paid tid group 4 0).releaseSet t.core tid .ply) = false →
      ∃ s' t', exec (.plybar g src) s = .next s' ∧ s'.task? tid = some t' ∧ t'.alw = t.alw - 4 ∧ t'.sregs = t.sregs ∧ t'.vregs = t.vregs ∧
        ((∃ m ∈ p.members, m ≠ tid ∧ m ∉ p.arrived) → s'.ply? p.id = some { p with arrived := p.arrived ++ [tid] } ∧ OthersStand s s' tid ∧
          ∃ w, t'.waits = t.waits ++ [w] ∧ w.lanes = group ∧ w.pc = t.groupPc group ∧ w.kind = .plywait p.id) ∧
        ((∀ m ∈ p.members, m = tid ∨ m ∈ p.arrived) → PlyReleased s s' tid p p.members ∧ t'.waits = t.waits ∧ LanesMoved t t' group 8)))

/-! ### Special functions (spec/07_special.md) -/

/-- R154-R156, R158, R159: a special-function operation with no guard-true lane is charged 2 and complete at issue, even where its queue holds
16 operations or a counter of an issuing lane stands at 63 (log 88); another does not issue then; else it is charged 2, its token counter
rises in every issuing lane, its results are computed from the sources as they stand, and no register changes before its delivery. -/
def Obligations.SpecialFunctionsIssue : Prop :=
  ∀ (s : State) (tid : Nat) (t : Task) (group : Mask), Issues s tid t group →
    let r (wide : Bool) (a : Reg) (l : Nat) : Nat := t.reg s.tick wide a l
    let m := fpctlMode t.fpctl
    let done (i : Instr) (g : Guard) (len : Nat) (ty : Ty) (tok : Fin 8) (dst : Fin 192) (rem : Option (Fin 192))
        (f : Nat → (Nat × FFlags) × Nat) : Prop :=
      let act := t.guarded g group
      let free := (s.sfQueue t.core (t.slot / 4)).length < 16 ∧ ∀ l ∈ lanesOf group, (t.lane l).tok.get tok.val ≠ 63
      (act = 0 ∨ free → t.alw.toNat < 2 → Exhausts s tid t group i 2) ∧
      (act ≠ 0 → ¬ free → exec i s = .next s) ∧
      (2 ≤ t.alw.toNat → act = 0 → ∃ s', exec i s = .next s' ∧ TaskDone s s' tid t t group len 2) ∧
      (2 ≤ t.alw.toNat → act ≠ 0 → free → ∃ s' t' o, exec i s = .next s' ∧ s' = { s with tasks := s'.tasks, nextSeq := s.nextSeq + 1 } ∧
        s'.task? tid = some t' ∧ OthersStand s s' tid ∧
        t.Ends { t with sfOps := t.sfOps ++ [o] } t' group 2 (fun l => if group.getLsbD l then
          { t.moved group len l with tok := (t.lane l).tok.set tok.val ((t.lane l).tok.get tok.val + 1) } else t.lane l) ∧
        o.id = s.nextSeq ∧ o.queue = t.slot / 4 ∧ o.tok = tok ∧ o.lanes = act ∧ o.group = group ∧ o.clob = [] ∧ o.dst = dst ∧
        o.rem = rem ∧ o.ty = ty ∧ (o.vals = (lanesOf act).map fun l => (l, BitVec.ofNat 64 (f l).1.1)) ∧
        (o.rems = (lanesOf act).map fun l => (l, BitVec.ofNat 64 (f l).2)) ∧
        o.flags = (lanesOf act).foldl (fun e l => e ||| (f l).1.2) 0)
    (∀ x : Sf1,
      let one (i : Instr) (fn : SfFn) : Prop := done i x.g 8 x.ty x.tok x.dst none fun l =>
        (packF x.ty fun e => fn.elem t.ftz m x.ty (elemAt x.ty (r false x.a l) e), 0)
      one (.sfRcp x) .rcp ∧ one (.sfRsq x) .rsq ∧ one (.sfSqrt x) .sqrt ∧ one (.sfExp2 x) .exp2 ∧ one (.sfLog2 x) .log2 ∧
      one (.sfSin x) .sin ∧ one (.sfCos x) .cos ∧ one (.sfTanh x) .tanh ∧ one (.sfSigm x) .sigm ∧ one (.sfGelu x) .gelu) ∧
    (∀ x : SfDiv, done (.sfDiv x) x.g 12 x.ty x.tok x.dst none fun l =>
      (packF x.ty fun e => sfDivE t.ftz (t.mode x.mode) x.ty (elemAt x.ty (r false x.a l) e) (elemAt x.ty (r false x.b l) e), 0)) ∧
    ∀ x : SfIdiv, done (.sfIdiv x) x.g 12 x.ty x.tok x.dst x.rem fun l =>
      let q := idivE x.ty (r x.ty.wide x.a l) (r x.ty.wide x.b l)
      ((q.1, 0), q.2)

/-- R163: SF.IDIV truncates its quotient toward zero and its remainder carries the sign of x; a divisor of zero gives all ones and x; the
type's minimum divided by -1 gives the minimum and 0. The operation that SF.IDIV issues carries these for each guard-true lane, whatever
FPCTL holds, and no flag. -/
def Obligations.IntegerDivisionTruncates : Prop :=
  (∀ (ty : Ty) (x y : Nat), (ty = .i32 ∨ ty = .n32 ∨ ty = .i64 ∨ ty = .n64) → x < 2 ^ ty.elem.1 → y < 2 ^ ty.elem.1 →
    let w := ty.elem.1
    let a := ty.toI x
    let b := ty.toI y
    let q := (idivE ty x y).1
    let r := (idivE ty x y).2
    (y = 0 → q = 2 ^ w - 1 ∧ r = x) ∧
    (y ≠ 0 → ty.signed = true → x = 2 ^ (w - 1) → y = 2 ^ w - 1 → q = x ∧ r = 0) ∧
    (y ≠ 0 → ¬ (ty.signed = true ∧ x = 2 ^ (w - 1) ∧ y = 2 ^ w - 1) → ty.toI q = a.tdiv b ∧ ty.toI r = a - a.tdiv b * b)) ∧
  ∀ (s s' : State) (tid : Nat) (t t' : Task) (group : Mask) (x : SfIdiv), Issues s tid t group → 2 ≤ t.alw.toNat → exec (.sfIdiv x) s = .next s' →
    s'.task? tid = some t' → ∀ o ∈ t'.sfOps, o ∉ t.sfOps →
      let r (a : Reg) (l : Nat) : Nat := t.reg s.tick x.ty.wide a l
      o.flags = 0 ∧ o.dst = x.dst ∧ o.rem = x.rem ∧ o.ty = x.ty ∧
      (o.vals = (lanesOf (t.guarded x.g group)).map fun l => (l, BitVec.ofNat 64 (idivE x.ty (r x.a l) (r x.b l)).1)) ∧
      o.rems = (lanesOf (t.guarded x.g group)).map fun l => (l, BitVec.ofNat 64 (idivE x.ty (r x.a l) (r x.b l)).2)

/-- R164: SF.WAIT goes on where no lane has a true guard or every counter of the mask is zero in every lane of the group, and parks the whole
group else. R156-R158, R164: a delivery writes the results into the destination of each lane of the operation, but into no register that the
lane has written meanwhile, ORs the flags into FPCTL, lowers the token counter of every lane that issued it, ends the waits that this
satisfies, and changes nothing else of the device; an SF.IDIV with a remainder delivers quotient and remainder, the remainder last where the
two share a register; an operation behind an earlier one of its task to the same register does not deliver yet. -/
def Obligations.SpecialFunctionsDeliver : Prop :=
  (∀ (s : State) (tid : Nat) (t : Task) (group : Mask) (g : Guard) (mask : BitVec 8), Issues s tid t group → 1 ≤ t.alw.toNat →
     let clear := ∀ l ∈ lanesOf group, ∀ k < 8, mask.getLsbD k = true → (t.lane l).tok.get k = 0
     ((t.guarded g group = 0 ∨ clear) → ∃ s', exec (.sfWait g mask) s = .next s' ∧ TaskDone s s' tid t t group 8 1) ∧
     (t.guarded g group ≠ 0 → ¬ clear → ∃ s' t', exec (.sfWait g mask) s = .next s' ∧ OnlyTask s s' tid t' ∧
       t'.alw = t.alw - 1 ∧ t'.sregs = t.sregs ∧ t'.vregs = t.vregs ∧ t'.preds = t.preds ∧
       t'.waits = t.waits ++ [{ lanes := group, pc := t.groupPc group, len := 8, kind := .sfWait mask }] ∧
       ∀ l, l < t.lanes.length → group.getLsbD l = true → (t'.lane l).park = .sfWait ∧ (t'.lane l).pc = (t.lane l).pc)) ∧
  (∀ (s : State) (core queue idx tid : Nat) (t : Task) (o : SfOp), (s.sfQueue core queue)[idx]? = some (tid, o) → s.task? tid = some t →
     let regs (p : SfOp) : List Nat :=
       let one (d : Fin 192) : List Nat := if p.ty.wide then [d.val, d.val + 1] else [d.val]
       one p.dst ++ (match p.rem with | some d => one d | none => [])
     let rest : List Nat := match o.rem with
       | some d => if o.ty.wide then [d.val, d.val + 1] else [d.val]
       | none => []
     let behind := ∃ p ∈ t.sfOps, p.id < o.id ∧ ∃ r ∈ regs p, r ∈ regs o
     (behind → exec (.sfDelivery core queue idx) s = .next s) ∧
     (¬ behind → t.saving = none → (o.vals.map (·.1)).Nodup → (∀ v ∈ o.vals, v.1 < 64) → (∀ v ∈ o.rems, v.1 < 64) →
       ∃ s' t', exec (.sfDelivery core queue idx) s = .next s' ∧ OnlyTask s s' tid t' ∧
         (o.dst.val ∉ rest → ∀ v ∈ o.vals, o.clob.get (vkey o.dst.val v.1) = 0 → t'.vreg o.dst.val v.1 = v.2.setWidth 32) ∧
         (o.dst.val + 1 ∉ rest → o.ty.wide = true → ∀ v ∈ o.vals, o.clob.get (vkey (o.dst.val + 1) v.1) = 0 →
           t'.vreg (o.dst.val + 1) v.1 = BitVec.ofNat 32 (v.2.toNat / 2 ^ 32)) ∧
         (∀ d, o.rem = some d → (o.rems.map (·.1)).Nodup → ∀ v ∈ o.rems,
           (o.clob.get (vkey d.val v.1) = 0 → t'.vreg d.val v.1 = v.2.setWidth 32) ∧
           (o.ty.wide = true → o.clob.get (vkey (d.val + 1) v.1) = 0 → t'.vreg (d.val + 1) v.1 = BitVec.ofNat 32 (v.2.toNat / 2 ^ 32))) ∧
         (∀ q m, m < 64 → (q ∉ regs o ∨ (m ∉ o.vals.map (·.1) ∧ m ∉ o.rems.map (·.1))) → t'.vreg q m = t.vreg q m) ∧
         t'.fpctl = t.fpctl ||| (o.flags.setWidth 64 <<< 4) ∧ t'.sregs = t.sregs ∧ t'.preds = t.preds ∧ t'.alw = t.alw ∧
         (t'.sfOps = t.sfOps.filter fun p => p.id ≠ o.id) ∧
         (∀ l, l < t.lanes.length → (t'.lane l).tok = if o.group.getLsbD l then
           (t.lane l).tok.set o.tok.val ((t.lane l).tok.get o.tok.val - 1) else (t.lane l).tok) ∧
         ∀ w ∈ t.waits, (match w.kind with | .sfWait mask => t'.tokensClear w.lanes mask = true | _ => False) → w ∉ t'.waits))

/-! ### Memory (spec/08_memory.md, spec/10_program_private.md) -/

/-- R165-R168, R181, R187, R191, R225: LD and LDU issue. R165-R168, R181, R187, R191, R261: ST and STU issue. R165-R168, R181, R187, R230,
R254: LDA issues as a load that no line of the core's L1 serves: it pays, its group goes on, no register changes and a result is awaited whose
return acquires; the accesses of a denied line hold zeros, the others are asked for; where nothing is denied and no line that it drops is
dirty, every byte of memory reads as after the walker's marks. -/
def Obligations.GlobalAccessesIssue : Prop :=
  (∀ (s : State) (tid : Nat) (t : Task) (group : Mask) (x : Mem), Issues s tid t group →
     LoadIssues s tid t group (.ld x) x.g false x.ty x.addr x.data x.la ∧ LoadIssues s tid t group (.ldu x) x.g true x.ty x.addr x.data x.la ∧
     StoreIssues s tid t group (.st x) x.g false x.ty x.addr x.data ∧ StoreIssues s tid t group (.stu x) x.g true x.ty x.addr x.data) ∧
  ∀ (s : State) (tid : Nat) (t : Task) (group : Mask) (x : ScopedMem), Issues s tid t group →
    let c := Ctx.of s t group x.g 8
    let u := regUniform x.data
    let as := c.loads u x.ty x.addr
    let cost := memCost 4 as.length x.ty.bytes
    (∀ gs, c.gcheck as .acquire x.ty.bytes = .ok gs → s.replayable t < Config.maxRequests → t.alw.toNat < cost →
      Exhausts s tid t group (.lda x) cost) ∧
    ∀ gs, c.Passes as .acquire x.ty cost gs →
      let shut := (c.shut .acquire gs).map GAcc.line
      ∃ s' t' o, exec (.lda x) s = .next s' ∧ MemIssued s' tid t t' group 8 cost ∧ OthersStand s s' tid ∧
        t'.outs = (t.countWindows group).outs ++ [o] ∧ Awaits o group s.nextReq x.data x.ty x.la.val (c.globalLanes u) ∧
        o.acq = some x.scope ∧ t'.privWritten = t.privWritten ∧ t'.unfenced = t.unfenced ∧
        (∀ a ∈ gs, a.line ∈ shut → ∃ b ∈ o.lanes, b.lane = a.acc.lane ∧ b.val = some 0) ∧
        (∀ a ∈ gs, a.line ∉ shut → ∃ r ∈ s'.reqs, r.kind = .load ∧ r.task = tid ∧ r.out = some s.nextReq ∧ r.line = a.line ∧ a.acc ∈ r.lanes) ∧
        (shut = [] → (∀ l ∈ (s.core t.core).l1, (∃ a ∈ gs, a.line = l.line) → l.dirty = 0) →
          t'.sealcnt = t.sealcnt ∧ ∀ vf pa, s'.homeByte vf pa = (c.touch gs false s).homeByte vf pa)

/-- R166: the effective address of a lane is the base plus the sign-extended index times the scale plus the sign-extended displacement,
exactly; s63 as index means none; an index in an s register is the same for every lane. Global accesses take the sum modulo 2^64; private
and scratch accesses take it as it is, and a negative one is the range fault of its region behind an alignment fault. -/
def Obligations.EffectiveAddresses : Prop :=
  ∀ (c : Ctx) (a : MemAddr) (l : Nat),
    let base (wide : Bool) : Int := if a.base = .s 63 then 0 else c.reg wide a.base l
    let index : BitVec 32 := if a.index = .s 63 then 0 else BitVec.ofNat 32 (c.reg false a.index l)
    let sum (wide : Bool) : Int := base wide + index.toInt * 2 ^ a.scale.val + a.disp.toInt
    BitVec.ofNat 64 (c.globalAddr a l) = BitVec.ofInt 64 (sum true) ∧ c.effAddr false a l = sum false ∧
    (∀ n m, a.index = .s n → c.reg false a.index m = c.reg false a.index l) ∧
    ∀ ty : Ty, (∀ m ∈ lanesOf c.act, c.effAddr false a m % ty.bytes = 0) → l ∈ lanesOf c.act →
      (∀ ls, c.scheck ty a (lanesOf c.act) = .ok ls → ∀ x, (l, x) ∈ ls → (x : Int) = sum false) ∧
      (sum false < 0 → (∃ f, c.scheck ty a (lanesOf c.act) = .error f ∧ f.code = 0x08 ∧ f.lanes.getLsbD l = true) ∧
        ∀ n, ∃ f, c.pcheck ty a n = .error f ∧ f.code = 0x04 ∧ f.lanes.getLsbD l = true)

/-- R187, R168, R172-R174, R180: the checks of a global access come in order, each naming its lanes: a misaligned address (0x07), a
translation that fails (0x05), a permission that lacks (0x06), and under STRICT a denial that is known at issue (0x17), for every lane on
the denied line, and behind it an uncorrectable line (0x18) where the check looks for one; without STRICT neither is a fault. R187,
R191: the checks precede the charge: a memory instruction whose check fails takes that fault whatever its account holds; that a uniform one
names its guard-true lanes is the model's reading (log 22). LDP and STP make their checks behind the core's requests to the same homes
(R240), and wait while one of those may not perform. -/
def Obligations.MemoryChecksAndFaults : Prop :=
  (∀ (c : Ctx) (as : List LaneAcc) (n : Need) (align : Nat), (as.map (·.lane)).Nodup → (∀ a ∈ as, a.lane < 64) →
     let tr (a : LaneAcc) := c.s.xlate c.t.core c.t.asid a.va.toNat
     let mis (a : LaneAcc) := a.va.toNat % align ≠ 0
     let unmapped (a : LaneAcc) := ∃ e, tr a = .error e
     let lacks (a : LaneAcc) := ∃ l, tr a = .ok l ∧ ((n.r = true ∧ l.r = false) ∨ (n.w = true ∧ l.w = false) ∨ (n.atomic = true ∧ l.caps = true))
     let names (f : MFault) (p : LaneAcc → Prop) : Prop := ∀ l, l < 64 → (f.lanes.getLsbD l = true ↔ ∃ a ∈ as, a.lane = l ∧ p a)
     ((∃ a ∈ as, mis a) → ∃ f, c.gcheck as n align = .error f ∧ f.code = 0x07 ∧ names f mis) ∧
     ((∀ a ∈ as, ¬ mis a) → (∃ a ∈ as, unmapped a) → ∃ f, c.gcheck as n align = .error f ∧ f.code = 0x05 ∧ names f unmapped) ∧
     ((∀ a ∈ as, ¬ mis a) → (∀ a ∈ as, ¬ unmapped a) → (∃ a ∈ as, lacks a) →
       ∃ f, c.gcheck as n align = .error f ∧ f.code = 0x06 ∧ names f lacks) ∧
     ((∀ a ∈ as, ¬ mis a) → (∀ a ∈ as, ¬ unmapped a) → (∀ a ∈ as, ¬ lacks a) → (c.s.asd c.t.asid).strict = false →
       ∃ gs, c.gcheck as n align = .ok gs ∧ gs.map (fun g => { g.acc with pa := 0 }) = as.map (fun a => { a with pa := 0 }) ∧
         ∀ g ∈ gs, tr g.acc = .ok g.leaf ∧ g.acc.pa = g.leaf.pa g.acc.va.toNat) ∧
     ((∀ a ∈ as, ¬ mis a) → (∀ a ∈ as, ¬ unmapped a) → (∀ a ∈ as, ¬ lacks a) → (c.s.asd c.t.asid).strict = true →
       let gs : List GAcc := as.filterMap fun a => match tr a with
         | .ok l => some { acc := { a with pa := l.pa a.va.toNat }, leaf := l }
         | .error _ => none
       let shut (g : GAcc) : Prop := ∃ h ∈ gs, h.line = g.line ∧ c.denied n h = true
       ((∃ g ∈ gs, shut g) → ∃ f, c.gcheck as n align = .error f ∧ f.code = 0x17 ∧
         ∀ l, l < 64 → (f.lanes.getLsbD l = true ↔ ∃ g ∈ gs, g.acc.lane = l ∧ shut g)) ∧
       ((∀ g ∈ gs, ¬ shut g) → n.ue = true → (∃ g ∈ gs, c.s.isUe g.line = true) → ∃ f, c.gcheck as n align = .error f ∧ f.code = 0x18 ∧
         ∀ l, l < 64 → (f.lanes.getLsbD l = true ↔ ∃ g ∈ gs, g.acc.lane = l ∧ c.s.isUe g.line = true)) ∧
       ((∀ g ∈ gs, ¬ shut g) → (n.ue = true → ∀ g ∈ gs, c.s.isUe g.line = false) → c.gcheck as n align = .ok gs)) ∧
     ∀ f, c.gcheck as n align = .error f → (f.code = 0x17 ∨ f.code = 0x18) → (c.s.asd c.t.asid).strict = true) ∧
  (∀ (s : State) (tid : Nat) (t : Task) (group : Mask) (x : Mem), Issues s tid t group →
     let c := Ctx.of s t group x.g 8
     let taken (i : Instr) (f : MFault) (lanes : Mask) : Prop :=
       exec i s = .next ((f.note s).takeFault tid (t.record f.code (t.groupPc group) group lanes f.addr f.detail false false))
     (∀ f, c.gcheck (c.loads false x.ty x.addr) .load x.ty.bytes = .error f → taken (.ld x) f f.lanes) ∧
     (∀ f, c.gcheck (c.loads true x.ty x.addr) .load x.ty.bytes = .error f → taken (.ldu x) f (t.guarded x.g group)) ∧
     (∀ f, c.gcheck (c.stores false x.ty x.addr x.data) .store x.ty.bytes = .error f → taken (.st x) f f.lanes) ∧
     (∀ f, c.gcheck (c.stores true x.ty x.addr x.data) .store x.ty.bytes = .error f → taken (.stu x) f (t.guarded x.g group)) ∧
     (let c' := c.cleared true (c.privAccs x.ty x.addr)
      let behind (i : Instr) (f : MFault) : Prop :=
        exec i s = .next ((f.note c'.s).takeFault tid (t.record f.code (t.groupPc group) group f.lanes f.addr f.detail false false))
      (c.Held true (c.privAccs x.ty x.addr) → exec (.ldp x) s = .next s ∧ exec (.stp x) s = .next s) ∧
      (¬ c.Held true (c.privAccs x.ty x.addr) →
        (∀ f, c'.pcheck x.ty x.addr Need.load.now = .error f → behind (.ldp x) f) ∧
        ∀ f, c'.pcheck x.ty x.addr Need.store.now = .error f → behind (.stp x) f)) ∧
     ∀ f, c.scheck x.ty x.addr (lanesOf c.act) = .error f → taken (.lds x) f f.lanes ∧ taken (.sts x) f f.lanes)

/-- R185, R225, R226: LDP and STP issue, behind the core's requests to the same homes (R240): they pay, the group goes on and no register
changes yet. Word w of lane l is the 4 bytes at the private base plus (w × W + l) × 4, and an 8-byte access is words w and w + 1. The
accesses perform at issue and their result is in the awaited entry at once (log 23): a lane of LDP whose words the task has not written gets
zero; STP notes the words it has written. Other tasks may only receive what requests of theirs to the same lines give. Where no request
stands before them and the accesses lie in one line that nothing denies: LDP gives for words that the task has written the bytes that its
core reads there, STP leaves each lane's words there for the core to read, and where the line stands private in the core's L1 already it
changes no other byte of that line, no other line of L1 and no byte of memory. -/
def Obligations.PrivateAccesses : Prop :=
  ∀ (s : State) (tid : Nat) (t : Task) (group : Mask) (x : Mem), Issues s tid t group →
    let c := Ctx.of s t group x.g 8
    let cost := memCost 2 (lanesOf c.act).length x.ty.bytes
    let others (s' : State) : Prop := ∀ j u, j ≠ tid → s.task? j = some u →
      ∃ u', s'.task? j = some u' ∧ u' = { u with outs := u'.outs, sealcnt := u'.sealcnt, privWritten := u'.privWritten }
    let pieces := c.privAccs x.ty x.addr
    let c' := c.cleared true pieces
    let vf := (s.asd t.asid).vf
    let one (ls : List (Nat × List GAcc)) (n : Need) (write : Bool) : Prop :=
      c.Foremost true pieces ∧ c.touch (ls.flatMap (·.2)) write s = s ∧ c.shut n (ls.flatMap (·.2)) = [] ∧
      (∀ l ∈ ls, ∀ a ∈ l.2, s.isUe a.line = false) ∧ ∀ l ∈ ls, ∀ a ∈ l.2, ∀ m ∈ ls, ∀ b ∈ m.2, a.line = b.line
    ¬ c.Held true pieces → c'.s.replayable t < Config.maxRequests →
    (∀ n ls, c'.pcheck x.ty x.addr n = .ok ls → (ls.map (·.1)) = lanesOf c.act ∧ ∀ l ∈ ls, l.2.length = x.ty.bytes / 4 ∧
      ∀ i a, l.2[i]? = some a → a.acc.lane = l.1 ∧
        a.acc.va = t.pbase + BitVec.ofNat 64 ((((c.effAddr false x.addr l.1).toNat / 4 + i) * c.k.w + l.1) * 4)) ∧
    (t.alw.toNat < cost → (∀ ls, c'.pcheck x.ty x.addr Need.load.now = .ok ls → Exhausts s tid t group (.ldp x) cost) ∧
      ∀ ls, c'.pcheck x.ty x.addr Need.store.now = .ok ls → Exhausts s tid t group (.stp x) cost) ∧
    (cost ≤ t.alw.toNat → (∀ ls, c'.pcheck x.ty x.addr Need.load.now = .ok ls →
      ∃ s' t' o, exec (.ldp x) s = .next s' ∧ MemIssued s' tid t t' group 8 cost ∧ others s' ∧ o ∈ t'.outs ∧
        Awaits o group s.nextReq x.data x.ty x.la.val (lanesOf c.act) ∧
        (∀ l ∈ ls, (∀ a ∈ l.2, ∃ off, t.privOff c.k a.acc.va.toNat = some off ∧ ∀ i < 4, t.privWritten.get (off + i) = 0) →
          ∀ a ∈ o.lanes, a.lane = l.1 → a.val = some 0) ∧
        (one ls Need.load.now false → ∀ l ∈ ls,
          (∀ a ∈ l.2, ∀ off, t.privOff c.k a.acc.va.toNat = some off → ∀ i < 4, t.privWritten.get (off + i) = 1) →
          ∀ b ∈ o.lanes, b.lane = l.1 → b.val = some (BitVec.ofNat 64
            (((l.2.zipIdx).map fun a => s.coreRead t.core vf a.1 4 * 2 ^ (32 * a.2)).sum)))) ∧
    ∀ ls, c'.pcheck x.ty x.addr Need.store.now = .ok ls →
      ∃ s' t', exec (.stp x) s = .next s' ∧ MemIssued s' tid t t' group 8 cost ∧ others s' ∧
        (∀ l ∈ ls, ∀ a ∈ l.2, a.line ∉ (c'.shut Need.store.now (ls.flatMap (·.2))).map GAcc.line → c'.s.isUe a.line = false →
          ∀ off, t.privOff c.k a.acc.va.toNat = some off → ∀ i < 4, t'.privWritten.get (off + i) = 1) ∧
        (one ls Need.store.now true → ((ls.flatMap (·.2)).map (·.acc.pa)).Nodup →
          (∀ l ∈ ls, ∀ i a, l.2[i]? = some a → s'.coreRead t.core vf a 4 = bits (c.reg x.ty.wide x.data l.1) (32 * i) 32) ∧
          ∀ k, (∀ l ∈ ls, ∀ a ∈ l.2, a.leaf.noL1 = false ∧ (s.core t.core).l1? a.line = some k) → k.priv = true →
            (∀ v pa, s'.homeByte v pa = s.homeByte v pa) ∧ (∀ l1 ∈ (s.core t.core).l1, l1.line ≠ k.line → l1 ∈ (s'.core t.core).l1) ∧
            (ls.flatMap (·.2) ≠ [] → ∃ k', (s'.core t.core).l1? k.line = some k' ∧ ∀ b < 128,
              (∀ l ∈ ls, ∀ a ∈ l.2, b < a.acc.pa % 128 ∨ a.acc.pa % 128 + 4 ≤ b) → k'.data.byte b = k.data.byte b)))

/-- R188, R189, R245, R293: LDS awaits the bytes of its kernel's scratch; STS writes its lanes' bytes there, a later lane over an earlier
one, and leaves every other byte of scratch and all of memory. R189, R229, R255: ATOMS works on its kernel's scratch at once: with one lane
it leaves the operation's value of what it found, and awaits what it found where it returns; every byte outside its lanes' and all of memory
stand. -/
def Obligations.ScratchAccesses : Prop :=
  (∀ (s : State) (tid : Nat) (t : Task) (group : Mask) (x : Mem), Issues s tid t group →
     let c := Ctx.of s t group x.g 8
     let cost := memCost 2 (lanesOf c.act).length x.ty.bytes
     ∀ ls, c.scheck x.ty x.addr (lanesOf c.act) = .ok ls → s.replayable t < Config.maxRequests →
     (t.alw.toNat < cost → Exhausts s tid t group (.lds x) cost ∧ Exhausts s tid t group (.sts x) cost) ∧
     (cost ≤ t.alw.toNat → (∃ s' t' o, exec (.lds x) s = .next s' ∧ MemIssued s' tid t t' group 8 cost ∧
       OthersStand s s' tid ∧ s' = { s with tasks := s'.tasks, nextReq := s.nextReq + 1 } ∧ t'.outs = (t.countWindows group).outs ++ [o] ∧
       Awaits o group s.nextReq x.data x.ty x.la.val (lanesOf c.act) ∧
       ∀ l ∈ ls, ∀ a ∈ o.lanes, a.lane = l.1 → a.val = some (BitVec.ofNat 64 (s.scrRead t.core tid t.kkey l.2 x.ty.bytes))) ∧
     ∃ s', exec (.sts x) s = .next s' ∧ (∀ vf pa, s'.homeByte vf pa = s.homeByte vf pa) ∧
       (∀ k a, ((s'.core t.core).scratchOf k).get a = if k ≠ t.kkey then ((s.core t.core).scratchOf k).get a
         else match ls.reverse.find? fun l => l.2 ≤ a && a < l.2 + x.ty.bytes with
           | some l => BitVec.ofNat 8 (c.reg x.ty.wide x.data l.1 / 256 ^ (a - l.2))
           | none => ((s.core t.core).scratchOf t.kkey).get a) ∧
       ((∀ u ∈ s.tasks, ∀ w ∈ u.waits, ∀ a b d e f, w.kind ≠ .await a b d e f) →
         ∃ t', MemIssued s' tid t t' group 8 cost ∧ OthersStand s s' tid ∧ t'.outs = (t.countWindows group).outs))) ∧
  (∀ (s : State) (tid : Nat) (t : Task) (group : Mask) (x : Atom), Issues s tid t group →
     let c := Ctx.of s t group x.g 8
     let on := if regUniform x.data then (lowest? c.act).toList else lanesOf c.act
     let cost := memCost 4 on.length x.ty.bytes
     (∀ f, c.scheck x.ty x.addr on = .error f → exec (.atoms x) s = .next ((f.note s).takeFault tid (t.record f.code (t.groupPc group) group
       (if regUniform x.data then t.guarded x.g group else f.lanes) f.addr f.detail false false))) ∧
     (∀ ls, c.scheck x.ty x.addr on = .ok ls → s.replayable t < Config.maxRequests → t.alw.toNat < cost →
       Exhausts s tid t group (.atoms x) cost) ∧
     ∀ ls, c.scheck x.ty x.addr on = .ok ls → cost ≤ t.alw.toNat → s.replayable t < Config.maxRequests →
       ∃ s', exec (.atoms x) s = .next s' ∧ (∀ vf pa, s'.homeByte vf pa = s.homeByte vf pa) ∧
         (∀ k a, (k ≠ t.kkey ∨ ∀ l ∈ ls, ¬ (l.2 ≤ a ∧ a < l.2 + x.ty.bytes)) →
           ((s'.core t.core).scratchOf k).get a = ((s.core t.core).scratchOf k).get a) ∧
         (∀ l, ls = [l] → ((s'.core t.core).scratchOf t.kkey).readLE l.2 x.ty.bytes =
           atomApply x.op x.ty (s.scrRead t.core tid t.kkey l.2 x.ty.bytes) (memBits x.ty (c.reg x.ty.wide x.data l.1)) % 256 ^ x.ty.bytes) ∧
         ((∀ u ∈ s.tasks, ∀ w ∈ u.waits, ∀ a b d e f, w.kind ≠ .await a b d e f) → ∃ t', MemIssued s' tid t t' group 8 cost ∧
           OthersStand s s' tid ∧ (x.ret = false → t'.outs = (t.countWindows group).outs) ∧
           (x.ret = true → ∃ o, t'.outs = (t.countWindows group).outs ++ [o] ∧ Awaits o group s.nextReq x.data x.ty x.la.val on ∧
             ∀ l, ls = [l] → ∀ a ∈ o.lanes, a.val = some (BitVec.ofNat 64 (s.scrRead t.core tid t.kkey l.2 x.ty.bytes)))))

/-- R190, R192, R193: FPSH and FPOP with no guard-true lane are complete at issue; on a bank that is no FIFO of the kernel they take fault
0x09; else FPSH parks its group behind its values and FPOP awaits its values; the bank serves a push while it has room, and a pop while it
holds enough, oldest value first. A push that its bank has left in leaving FIFO mode takes fault 0x09, its charge returned, whatever the bank
has become since. -/
def Obligations.FifoAccesses : Prop :=
  (∀ (s : State) (tid : Nat) (t : Task) (group : Mask) (x : Fifo), Issues s tid t group →
    let act := t.guarded x.g group
    let b := (s.core t.core).banks.getD x.bank.val Bank.reset
    let mine := b.mode = .fifo ∧ b.owner = some t.kkey
    let reqs (s : State) := (s.core t.core).fifoReqs
    (act = 0 → 2 ≤ t.alw.toNat → (∃ s', exec (.fpsh x) s = .next s' ∧ TaskDone s s' tid t t group 8 2) ∧
      ∃ s', exec (.fpop x) s = .next s' ∧ TaskDone s s' tid t t group 8 2) ∧
    (act = 0 → t.alw.toNat < 2 → Exhausts s tid t group (.fpsh x) 2 ∧ Exhausts s tid t group (.fpop x) 2) ∧
    (act ≠ 0 → mine → s.replayable t < Config.maxRequests → t.alw.toNat < fifoCost act →
      Exhausts s tid t group (.fpsh x) (fifoCost act) ∧ Exhausts s tid t group (.fpop x) (fifoCost act)) ∧
    (act ≠ 0 → ¬ mine →
      let bad : State := s.takeFault tid (t.record 0x09 (t.groupPc group) group act 0 0 false false)
      exec (.fpsh x) s = .next bad ∧ exec (.fpop x) s = .next bad) ∧
    (act ≠ 0 → mine → fifoCost act ≤ t.alw.toNat → s.replayable t < Config.maxRequests →
      ∃ s' t' q w, exec (.fpsh x) s = .next s' ∧ s'.task? tid = some t' ∧ OthersStand s s' tid ∧ t'.alw = t.alw - BitVec.ofNat 64 (fifoCost act) ∧
        t'.sregs = t.sregs ∧ t'.vregs = t.vregs ∧ t'.preds = t.preds ∧ t'.waits = t.waits ++ [w] ∧ w.lanes = group ∧
        w.pc = t.groupPc group ∧ w.kind = .fpsh x.bank.val q.id ∧ reqs s' = reqs s ++ [q] ∧ q.task = tid ∧ q.bank = x.bank.val ∧ q.push = true ∧
        (q.vals = (lanesOf act).map fun l => BitVec.ofNat 32 (t.reg s.tick false x.data l)) ∧
        (∀ l, l < t.lanes.length → group.getLsbD l = true → (t'.lane l).park = .fifo ∧ (t'.lane l).pc = (t.lane l).pc) ∧
        ∀ vf pa, s'.homeByte vf pa = s.homeByte vf pa) ∧
    (act ≠ 0 → mine → fifoCost act ≤ t.alw.toNat → s.replayable t < Config.maxRequests →
      ∃ s' t' o, exec (.fpop x) s = .next s' ∧ MemIssued s' tid t t' group 8 (fifoCost act) ∧ OthersStand s s' tid ∧
        t'.outs = (t.countWindows group).outs ++ [o] ∧ Awaits o group s.nextReq x.data x.ty x.la.val (lanesOf act) ∧
        (∃ q, reqs s' = reqs s ++ [q] ∧ q.task = tid ∧ q.bank = x.bank.val ∧ q.push = false ∧ q.lanes = act ∧ q.out = s.nextReq) ∧
        ∀ vf pa, s'.homeByte vf pa = s.homeByte vf pa)) ∧
  ∀ (s : State) (core bank : Nat) (q : FifoReq) (b : Bank), (s.core core).banks[bank]? = some b → b.mode = .fifo →
    ((s.core core).fifoReqs.filter fun r => r.bank == bank) = [q] →
    (q.dead = true → q.push = true → ∀ t w, s.task? q.task = some t → t.fault = none → t.isPlaced = true → t.core = core →
      (t.waits.find? fun (v : Wait) => match v.kind with | .fpsh _ i => i == q.id | _ => false) = some w →
      ∃ s' t' r, exec (.fifoRequestServed core bank) s = .next s' ∧ s'.task? q.task = some t' ∧ t'.fault = some r ∧ r.code = 0x09 ∧
        r.pc = w.pc ∧ r.gmask = w.lanes ∧ r.lmask = q.lanes ∧ t'.alw = t.alw + BitVec.ofNat 64 (fifoCost q.lanes) ∧
        q ∉ (s'.core core).fifoReqs ∧ w ∉ t'.waits) ∧
    q.dead = false →
    let n := (lanesOf q.lanes).length
    let now (s' : State) := (s'.core core).banks[bank]?.map (·.fifo)
    (q.push = true → b.fifo.length + n ≤ 16384 → ∃ s', exec (.fifoRequestServed core bank) s = .next s' ∧
      now s' = some (b.fifo ++ q.vals) ∧ ((s'.core core).fifoReqs.filter fun r => r.bank == bank) = [] ∧
      ∀ t w, s.task? q.task = some t →
        (t.waits.find? fun (v : Wait) => match v.kind with | .fpsh _ i => i == q.id | _ => false) = some w →
        ∃ t', s'.task? q.task = some t' ∧ w ∉ t'.waits) ∧
    (q.push = false → n ≤ b.fifo.length → ∃ s', exec (.fifoRequestServed core bank) s = .next s' ∧
      now s' = some (b.fifo.drop n) ∧ ((s'.core core).fifoReqs.filter fun r => r.bank == bank) = [] ∧
      ∀ t o, s.task? q.task = some t → o ∈ t.outs → o.id = q.out →
        ∃ t' o', s'.task? q.task = some t' ∧ o' ∈ t'.outs ∧ o'.id = q.out ∧
          ∀ (i l : Nat) (v : BitVec 32), (lanesOf q.lanes)[i]? = some l → b.fifo[i]? = some v → ∀ a ∈ o'.lanes, a.lane = l → a.val = some (v.setWidth 64)) ∧
    ((q.push = true → 16384 < b.fifo.length + n) → (q.push = false → b.fifo.length < n) →
      exec (.fifoRequestServed core bank) s = .next s)

/-- R194: PRF changes no register, faults on nothing, marks no page and changes no byte of memory: it asks for each line that a guard-true
lane names in a cached page that it may read. R195: CCTL with a guard-true lane acts on one line
where its address is mapped, readable and granted (log 108), and does nothing else; while L2 has room it changes what no byte of memory
outside that line reads, and leaves every other line of L1; nor does it change what a byte of the line reads but by the write-back of a dirty
private line's bytes. R196: BANKSET of a bank that its kernel does not own, or that would leave the kernel too few
scratch banks, is fault 0x09; else it parks while an earlier copy or issued matrix operation of the kernel is in flight and the switch enters
or leaves SCRATCH (log 20), and sets the mode; a bank leaving CACHE keeps no line of L1, one entering FIFO is empty. An account that does not
cover the 16 is trap 0x0A. -/
def Obligations.CachesAndBanks : Prop :=
  (∀ (s : State) (tid : Nat) (t : Task) (group : Mask) (g : Guard) (l2 : Bool) (addr : MemAddr), Issues s tid t group → 2 ≤ t.alw.toNat →
     let c := Ctx.of s t group g 8
     ∃ s', exec (.prf g l2 addr) s = .next s' ∧ (∃ t', s'.task? tid = some t' ∧ t.After t t' group 8 2) ∧ OthersStand s s' tid ∧
       s' = { s with tasks := s'.tasks, reqs := s'.reqs, nextReq := s'.nextReq } ∧ (∀ r ∈ s.reqs, r ∈ s'.reqs) ∧
       (∀ vf pa, s'.homeByte vf pa = s.homeByte vf pa) ∧
       ∀ l ∈ lanesOf (t.guarded g group), ∀ a, c.quiet l (c.globalAddr addr l) .load = some a → a.leaf.bypass = false →
         ∃ r ∈ s'.reqs, r.kind = .prefetch ∧ r.task = tid ∧ r.line = a.line ∧ a.acc ∈ r.lanes) ∧
  (∀ (s : State) (tid : Nat) (t : Task) (group : Mask) (g : Guard) (addr : MemAddr), Issues s tid t group → 4 ≤ t.alw.toNat →
     let c := Ctx.of s t group g 8
     let k := s.core t.core
     let vf := (s.asd t.asid).vf
     let place := c.quiet c.low (c.globalAddr addr c.low) Need.load.now
     ∀ op : CctlOp, ∃ s' t', exec (.cctl g op addr) s = .next s' ∧ s'.task? tid = some t' ∧ t.After t t' group 8 4 ∧ OthersStand s s' tid ∧
       let same := ∀ vf pa, s'.homeByte vf pa = s.homeByte vf pa
       (t.guarded g group = 0 → s' = { s with tasks := s'.tasks }) ∧
       (t.guarded g group ≠ 0 →
         (op = .l1all → (s'.core t.core).l1 = k.l1.filter (·.priv) ∧ same) ∧
         (op ≠ .l1all → place.isNone = true → s' = { s with tasks := s'.tasks }) ∧
         ∀ a, place = some a →
           let clean := ∀ l, k.l1? a.line = some l → l.priv = true → s.zone a.line ≠ .reserved →
             (∀ m ∈ (s'.core t.core).l1, m.line = a.line → m.dirty = 0) ∧
             ∀ i < 128, l.dirty.getLsbD i = true → s'.homeByte (s.asd l.asid).vf (a.line + i) = l.data.byte i
           let l1Stands := ∀ l, l.line ≠ a.line → (l ∈ (s'.core t.core).l1 ↔ l ∈ k.l1)
           let beside := match k.l1? a.line with
             | some l => (l.priv = false → same) ∧ (s.l2.length < Config.l2Lines → ∀ v pa,
                 lineAddr (s.canon v pa) ≠ lineAddr (s.canon (s.asd l.asid).vf a.line) → s'.homeByte v pa = s.homeByte v pa)
             | none => same
           (op ≠ .l1all → l1Stands ∧ ∀ j, j ≠ t.core → s'.core j = s.core j) ∧
           (op = .clean → clean ∧ beside) ∧
           (op = .inval → (∀ l ∈ (s'.core t.core).l1, l.line = a.line → l.priv = true) ∧
             (∀ l ∈ k.l1, l.priv = true → l ∈ (s'.core t.core).l1) ∧ same) ∧
           (op = .flush → clean ∧ beside ∧ ∀ l ∈ (s'.core t.core).l1, l.line ≠ a.line) ∧
           (op = .evict → (s'.l2? a.line).isNone = true ∧ (s'.core t.core).l1 = k.l1 ∧
             (∀ pa, s.Canonical vf pa → lineAddr pa ≠ a.line → s'.homeByte vf pa = s.homeByte vf pa) ∧
             ∀ l, s.l2? a.line = some l → l.dirty = true → s.Canonical vf a.line → s.zone a.line ≠ .reserved →
               ∀ i < 128, s'.homeByte vf (a.line + i) = s.homeByte vf (a.line + i)))) ∧
  (∀ (s : State) (tid : Nat) (t : Task) (group : Mask) (g : Guard) (bank : Fin 16) (mode : BankMode) (b : Bank), Issues s tid t group →
     let k := s.core t.core
     k.banks[bank.val]? = some b → (s.kernel? t.asid t.kernel).isSome = true →
     let act := t.guarded g group
     let allowed := b.owner = some t.kkey ∧
       (s.kernelOf t).scr ≤ 65536 * (((k.banksOf t.kkey .scratch).filter (· ≠ bank.val)).length + if mode = .scratch then 1 else 0)
     let inFlight := b.mode ≠ mode ∧ (b.mode = .scratch ∨ mode = .scratch) ∧ ((∃ o ∈ k.copies, o.kernel = t.kkey) ∨
       ∃ i, i < 16 ∧ (k.cv i).state ≠ .idle ∧ (k.cv i).need ≤ (k.cv i).signers.length ∧
         ((s.task? (k.cv i).armer).map (·.kkey)) = some t.kkey)
     (act = 0 → 16 ≤ t.alw.toNat → ∃ s', exec (.bankset g bank mode) s = .next s' ∧ TaskDone s s' tid t t group 8 16) ∧
     (act ≠ 0 → ¬ allowed →
       exec (.bankset g bank mode) s = .next (s.takeFault tid (t.record 0x09 (t.groupPc group) group act 0 0 false false))) ∧
     (act ≠ 0 → allowed → t.alw.toNat < 16 → Exhausts s tid t group (.bankset g bank mode) 16) ∧
     (act ≠ 0 → allowed → 16 ≤ t.alw.toNat → inFlight → ∃ s' t' w, exec (.bankset g bank mode) s = .next s' ∧ OnlyTask s s' tid t' ∧
       t'.alw = t.alw - 16 ∧ t'.sregs = t.sregs ∧ t'.vregs = t.vregs ∧ t'.preds = t.preds ∧ t'.waits = t.waits ++ [w] ∧ w.lanes = group ∧
       w.pc = t.groupPc group ∧ ∀ l, l < t.lanes.length → group.getLsbD l = true → (t'.lane l).park = .ordering) ∧
     (act ≠ 0 → allowed → 16 ≤ t.alw.toNat → ¬ inFlight → ∃ s' b', exec (.bankset g bank mode) s = .next s' ∧
       (s'.core t.core).banks[bank.val]? = some b' ∧ b'.mode = mode ∧ b'.owner = b.owner ∧
       (∀ i, i ≠ bank.val → (s'.core t.core).banks[i]? = k.banks[i]?) ∧
       (b.mode ≠ mode → b'.fifo = [] ∧ (b.mode = .cache → ∀ l ∈ (s'.core t.core).l1, l.way ≠ bank.val)) ∧
       (b.mode = mode → b' = b ∧ ∀ vf pa, s'.homeByte vf pa = s.homeByte vf pa) ∧
       (b.mode ≠ .fifo → ∃ t', s'.task? tid = some t' ∧ t.After t t' group 8 16 ∧ OthersStand s s' tid)))

/-- R197: PROBE writes what the task's translation of the address and the grant of its seal give, and zero where there is no translation; it
marks nothing, counts nothing and faults on nothing. R172, R173, R175: a walk that ends in a page sets A in its entry, and D for a write,
keeps the translation in both TLBs, and changes no other byte of memory; a walk that fails changes nothing. R178, R179, R186, R227: a peer's
line request is checked here against the grant of its seal and of the line's resident seal, RD and WR for an atomic; granted, while L2 has
room, a write puts its bytes at the line's home, a read changes no byte and an atomic none outside the line; denied, it counts one denial and
changes no byte but those of the event ring, to which it appends a record, or LOST where the ring is full (R377). -/
def Obligations.TranslationAndPeers : Prop :=
  (∀ (s : State) (tid : Nat) (t : Task) (group : Mask) (g : Guard) (dst : Fin 64) (addr : MemAddr), Issues s tid t group → 2 ≤ t.alw.toNat →
     t.guarded g group ≠ 0 →
     let c := Ctx.of s t group g 8
     let tr := s.xlate t.core t.asid (c.globalAddr addr c.low)
     ∃ y : BitVec 64, (∃ s', exec (.probe g dst addr) s = .next s' ∧
         AluDone s s' tid t group (t.guarded g group) 8 2 .n64 (.s dst) fun _ => (y.toNat, 0)) ∧
       (∀ e, tr = .error e → y = 0) ∧
       ∀ l, tr = .ok l → l.size < 2 ^ 42 →
         let grant := s.grant t.core t.asid t.prin l.sealId
         y.getLsbD 0 = true ∧ y.getLsbD 1 = l.r ∧ y.getLsbD 2 = l.w ∧ y.getLsbD 3 = l.x ∧ y.getLsbD 4 = grant.1 ∧ y.getLsbD 5 = grant.2 ∧
         y.getLsbD 6 = l.caps ∧ y.getLsbD 7 = l.ms ∧ y.toNat / 2 ^ 8 % 2 ^ 24 = (Nat.log2 l.size - 12) / 2 ∧ y.toNat / 2 ^ 32 = l.sealId.toNat) ∧
  (∀ (s : State) (core : Nat) (asid : BitVec 16) (va : BitVec 64) (write : Bool),
     let vf := (s.asd asid).vf
     (∀ e, walk s asid va.toNat = .error e → exec (.pageTableWalk core asid va write) s = .next s) ∧
     ∀ l, walk s asid va.toNat = .ok l → ∃ s', exec (.pageTableWalk core asid va write) s = .next s' ∧
       s' = { s with mem := s'.mem, hostMem := s'.hostMem, l2 := s'.l2, tlb := s'.tlb, dieTlb := s'.dieTlb } ∧
       s'.homeRead vf l.pte 8 = l.w0 ||| 0x80 ||| (if write then 0x100 else 0) ∧
       (∀ pa, s.Canonical vf pa → (∀ i < 8, pa ≠ s.canon vf (l.pte + i)) → s'.homeByte vf pa = s.homeByte vf pa) ∧
       (tlbFind s'.tlb core asid va.toNat).isSome = true ∧ (tlbFind s'.dieTlb (dieOf core) asid va.toNat).isSome = true) ∧
  (∀ (s : State) (r : PeerLine), s.tierPending = false →
     let vf := (s.asd r.asid).vf
     let line := s.canon vf (lineAddr (s.deviceNo.toNat * 2 ^ 42 + r.off.toNat))
     let rd := match r.op with | .write _ _ => False | _ => True
     let wr := match r.op with | .read => False | _ => True
     let atomic := rd ∧ wr
     let ok (x : BitVec 20) : Prop :=
       x = 0 ∨ ((rd → (grantTable s r.asid r.prin x).1 = true) ∧ (wr → (grantTable s r.asid r.prin x).2 = true))
     let granted := ok r.sealId ∧ (r.ms = true ∨ (r.cpol = 3 ∧ ¬ atomic) ∨ ∀ l, s.l2? line = some l → ok l.sealId)
     (granted → s.isUe line = false → r.ms = false → r.cpol ≠ 3 → (atomic → s.zone line ≠ .host) → s.l2.length < Config.l2Lines →
       ∃ s', exec (.velhamLineRequest r) s = .next s' ∧ s'.tasks = s.tasks ∧ (s.ceLines.contains line = false → s'.vfs = s.vfs) ∧
       ∀ pa, s.Canonical vf pa → match r.op with
         | .read => s'.homeByte vf pa = s.homeByte vf pa
         | .write bs d => s'.homeByte vf pa = if lineAddr pa = line ∧ bs.getLsbD (pa % 128) = true then d.byte (pa % 128) else s.homeByte vf pa
         | .atomic _ _ _ | .cas _ _ => lineAddr pa ≠ line → s'.homeByte vf pa = s.homeByte vf pa) ∧
     (¬ granted → vf < s.vfs.length → ∃ s', exec (.velhamLineRequest r) s = .next s' ∧ s'.tasks = s.tasks ∧ s'.cores = s.cores ∧
       ((s'.vf vf).counters = listUpd (s.vf vf).counters 0 fun x => if x = BitVec.allOnes 64 then x else x + 1) ∧
       ((s.vf vf).ringOn = false → ∀ v pa, s'.homeByte v pa = s.homeByte v pa) ∧
       ((s.vf vf).ringOn = true → EventNoted s s' vf
         (eventWord 1 r.asid.toNat 0 s.clock.toNat (r.va.toNat / 128 * 128) r.prin.toNat r.sealId.toNat))))

/-- R36, R37, R167, R237, R254: a result whose value is there goes into its destination, for one lane or for the whole group where that is
an s register, but not into a register that an instruction wrote meanwhile; every other register stands; the last lane ends the window, and
for LDA acquires. A result without a value waits. R99, R355: a result that comes back to a stopping task is discarded and acquires nothing. -/
def Obligations.ResultsReturn : Prop :=
  ∀ (s : State) (tid out lane : Nat) (t : Task) (o : Out), s.task? tid = some t → t.isPlaced = true → t.saving = none → s.NobodyWaits →
    (t.outs.find? fun p => p.id == out) = some o → o.open_.getLsbD lane = true →
    let uniform := match o.dst with | .s _ => true | .v _ => false
    let mine (a : LaneAcc) : Prop := uniform = true ∨ a.lane = lane
    let last := uniform = true ∨ o.open_ &&& ~~~laneBit lane = 0
    (∀ r ∈ s.reqs, r.task = tid → r.out = some out → (s.asd t.asid).strict = false ∧ ∀ a ∈ r.lanes, ¬ mine a) →
    ((∃ a ∈ o.lanes, mine a ∧ a.val = none) → exec (.resultReturn tid out lane) s = .next s) ∧
    ((∀ a ∈ o.lanes, mine a → a.val ≠ none) →
      ∃ s' t', exec (.resultReturn tid out lane) s = .next s' ∧ s'.task? tid = some t' ∧ OthersStand s s' tid ∧
        t' = { t with vregs := t'.vregs, sregs := t'.sregs, outs := t'.outs } ∧
        (t.stop ≠ none → t' = { t with outs := t'.outs } ∧ s' = { s with tasks := s'.tasks }) ∧
        (t.stop = none → ∀ a v, (∀ b ∈ o.lanes, mine b ↔ b = a) → a ∈ o.lanes → o.lanes.Nodup → a.val = some v →
          let x := (v &&& a.mask).toNat
          let kept (k : Nat) := o.clob.get k = 0
          match o.dst with
          | .v n => (kept (vkey n.val lane) → t'.vreg n.val lane = (memImage o.ty false x).setWidth 32) ∧
              (o.ty.wide = true → kept (vkey (n.val + 1) lane) → t'.vreg (n.val + 1) lane = (memImage o.ty false x >>> 32).setWidth 32)
          | .s n => kept (skey n.val) → t'.sreg n = if n = 63 then 0 else memImage o.ty true x) ∧
        (∀ q m, m < 64 → ¬ Writes o.dst o.ty.wide (laneBit lane) q m → t'.vreg q m = t.vreg q m) ∧
        (∀ q, o.dst ≠ .s q → t'.sreg q = t.sreg q) ∧
        (last → t'.outs = t.outs.filter fun p => p.id ≠ out) ∧
        (¬ last → t'.outs = t.outs.map fun p => if p.id = out then { p with open_ := o.open_ &&& ~~~laneBit lane } else p) ∧
        (∀ vf pa, s'.homeByte vf pa = s.homeByte vf pa) ∧
        (last → t.stop = none → ∀ sc, o.acq = some sc → sc ≠ .task → sc ≠ .core → ∀ l ∈ (s'.core t.core).l1, l.priv = true) ∧
        ((¬ last ∨ o.acq = none) → s' = { s with tasks := s'.tasks }))

/-- R227-R231, R239, R250: a request that its home serves writes nothing but its lanes' bytes: a store its data, an atomic the operation's
value of what it found, CAS its data where it found what it compares with; an atomic's result is what it found. R179, R186: a request that is
denied or meets an uncorrectable error writes nothing and gives zeros; where its function has an event ring its record is appended there, but
for the denial of a peer, which that device logs (R377). R229, R237, R240: the events that perform a store and an atomic: the
request, with those that must perform before it, is performed, but not where the far end would fault one of them; an event without its
request does nothing. -/
def Obligations.RequestsPerformAtTheirHome : Prop :=
  (∀ (s : State) (r : Req),
     let vf := (s.asd r.asid).vf
     let n := r.ty.bytes
     let s' := s.performReq r
     let gives (a : LaneAcc) (v : BitVec 64) : Prop := ∀ t o, s.task? r.task = some t → r.out = some o → ∃ t', s'.task? r.task = some t' ∧
       ∀ p' ∈ t'.outs, p'.id = o → ∀ b ∈ p'.lanes, b.lane = a.lane → b.val = some v
     let refused := r.deny = true ∨ s.reqDenied r = true ∨ s.isUe r.line = true
     (refused → r.kind ≠ .prefetch → (s.vf vf).ringOn = false →
       (∀ v pa, s'.homeByte v pa = s.homeByte v pa) ∧ ∀ a ∈ r.lanes, gives a 0) ∧
     (refused → r.kind ≠ .prefetch → (s.vf vf).ringOn = true → vf < s.vfs.length →
       let denied := r.deny = true ∨ s.reqDenied r = true
       let va := ((r.lanes.head?.map fun (a : LaneAcc) => a.va).getD 0).toNat
       (denied → r.peer = true → r.deny = false → ∀ v pa, s'.homeByte v pa = s.homeByte v pa) ∧
       (¬ (denied ∧ r.peer = true ∧ r.deny = false) → EventNoted s s' vf
         (eventWord (if denied then 1 else 2) r.asid.toNat r.task s.clock.toNat (va / 128 * 128) r.prin.toNat r.sealId.toNat))) ∧
     (¬ refused → r.ms = false → (r.cpol = 3 → r.kind ≠ .store) → (s.zone r.line = .host → r.kind.pcie r.ty = false) → r.kind ≠ .load →
       r.kind ≠ .prefetch → s.l2.length < Config.l2Lines → s.Canonical vf r.line →
       (∀ a ∈ r.lanes, a.mask = BitVec.allOnes 64 ∧ lineAddr a.pa = r.line ∧ a.pa % 128 + n ≤ 128) →
       (∀ pa, s.Canonical vf pa → (∀ a ∈ r.lanes, ¬ (a.pa ≤ pa ∧ pa < a.pa + n)) → s'.homeByte vf pa = s.homeByte vf pa) ∧
       ∀ a, r.lanes = [a] →
         let old := s.homeRead vf a.pa n
         gives a (BitVec.ofNat 64 old) ∧ match r.kind with
           | .store => s'.homeRead vf a.pa n = a.data.toNat % 256 ^ n
           | .atomic op => s'.homeRead vf a.pa n = atomApply op r.ty old a.data.toNat % 256 ^ n
           | .cas => s'.homeRead vf a.pa n = if old = a.cmp.toNat % 2 ^ (8 * n) then a.data.toNat % 256 ^ n else old
           | .load | .prefetch => True)) ∧
  (∀ (s : State) (req : Nat), s.NobodyWaits →
     ((∀ r ∈ s.reqs, r.id ≠ req) → exec (.storeGloballyPerformed req) s = .next s ∧ exec (.atomicApplication req) s = .next s) ∧
     ∀ r, (s.reqs.find? fun q => q.id == req) = some r →
       (r.kind = .store → exec (.storeGloballyPerformed req) s = .next (s.performThrough req)) ∧
       (r.kind ≠ .store → r.kind ≠ .load → r.kind ≠ .prefetch → exec (.atomicApplication req) s = .next (s.performThrough req)) ∧
       ((s.reqs.filter fun q => q.id == req) = [r] → (∀ q ∈ s.reqs, q.id ≠ req → s.withReq q r = false) →
         s.performThrough req = if s.instBad r = true ∨ s.behindLda r = true then s else s.performReq r))

/-- R211, R261: a request that the far end refuses stops its placed task with a deferred record, whose code is 0x0B where some line is of a
cell that is no longer FREE, else 0x17 where some line was denied; the instruction's requests are withdrawn and kept for its REPLAY, its charge
is returned, and no register changes. A request behind an LDA whose value has not returned waits (R254). That the code is found when the
request is served is log 19, and that R95's return of the charge holds of a deferred fault, log 29. -/
def Obligations.DeferredFaultsStop : Prop :=
  ∀ (s : State) (req : Nat) (r : Req) (t : Task), (s.reqs.find? fun q => q.id == req) = some r → s.task? r.task = some t →
    (s.reqBad r = none ∨ (∃ o ∈ t.outs, o.acq ≠ none ∧ o.id < r.inst) → exec (.deferredFault req) s = .next s) ∧
    (s.reqBad r ≠ none → (∀ o ∈ t.outs, o.acq ≠ none → r.inst ≤ o.id) → t.isPlaced = true → t.stop = none → t.fault = none → t.saving = none →
      let rs := s.reqs.filter fun q => q.task == r.task && q.inst == r.inst
      ∃ s' t' f, exec (.deferredFault req) s = .next s' ∧ s'.task? r.task = some t' ∧ t'.fault = some f ∧ f.deferred = true ∧
        f.code = (if rs.any (fun q => s.reqBad q == some 0x0B) then 0x0B else if rs.any (fun q => s.reqBad q == some 0x17) then 0x17 else 0x18) ∧
        (rs.any (fun q => s.reqBad q == some 0x0B) = true → f.detail = 5) ∧ f.pc = r.pc ∧ f.depth = r.depth ∧ f.gmask = r.group ∧
        t'.deferred = rs ++ t.deferred ∧ t'.alw = t.alw + BitVec.ofNat 64 (t.reqCost rs) ∧ t'.sregs = t.sregs ∧ t'.vregs = t.vregs ∧ t'.preds = t.preds ∧
        t'.lanes = t.lanes ∧ s'.reqs = s.reqs.filter fun q => !(q.task == r.task && q.inst == r.inst))

/-! ### Atomics and ordering (spec/11_atomics_ordering.md) -/

/-- R229-R232, R248-R251: ATOM, CAS, and ATOMD outside a deterministic launch, issue: they pay 4 and their bytes, their lines leave the core's
L1, each access that is not denied is asked for at its home, no byte of memory but the walker's marks changes yet unless a line that leaves L1
is dirty, and a result is awaited where the instruction returns one. A failing check is the fault instead, under STRICT a line with an
uncorrectable error among them; an account that does not cover the cost is trap 0x0A. R231: the atomic operations on values of the type's
width: addition wraps, minimum and maximum follow the type's sign, AND, OR, XOR and exchange act on bits. -/
def Obligations.Atomics : Prop :=
  (∀ (s : State) (tid : Nat) (t : Task) (group : Mask), Issues s tid t group →
     let done (i : Instr) (g : Guard) (len : Nat) (ty : Ty) (data : Reg) (la : Fin 16) (kind : ReqKind) (ret : Bool)
         (accs : Ctx → List LaneAcc) : Prop :=
       let c := Ctx.of s t group g len
       let as := accs c
       let cost := memCost 4 as.length ty.bytes
       (∀ f, c.gcheck as .atom ty.bytes = .error f → exec i s = .next ((f.note s).takeFault tid
         (t.record f.code (t.groupPc group) group (if regUniform data then t.guarded g group else f.lanes) f.addr f.detail false false))) ∧
       (∀ gs, c.gcheck as .atom ty.bytes = .ok gs → s.replayable t < Config.maxRequests → t.alw.toNat < cost →
         Exhausts s tid t group i cost) ∧
       ∀ gs, c.Passes as .atom ty cost gs →
         let shut := (c.shut .atom gs).map GAcc.line
         ((s.asd t.asid).strict = true → shut = [] ∧ ∀ a ∈ gs, s.isUe a.line = false) ∧
         ∃ s' t', exec i s = .next s' ∧ MemIssued s' tid t t' group len cost ∧ OthersMark s s' tid ∧
           (ret = false → t'.outs = (t.countWindows group).outs) ∧
           (ret = true → ∃ o, t'.outs = (t.countWindows group).outs ++ [o] ∧
             Awaits o group s.nextReq data ty la.val (c.globalLanes (regUniform data)) ∧
             ∀ a ∈ gs, a.line ∈ shut → ∃ b ∈ o.lanes, b.lane = a.acc.lane ∧ b.val = some 0) ∧
           (∀ a ∈ gs, ∀ l ∈ (s'.core t.core).l1, l.line ≠ a.line) ∧
           (∀ a ∈ gs, a.line ∉ shut → ∃ r ∈ s'.reqs, r.kind = kind ∧ r.task = tid ∧ r.out = (if ret then some s.nextReq else none) ∧
             r.line = a.line ∧ a.acc ∈ r.lanes) ∧
           (shut = [] → (∀ l ∈ (s.core t.core).l1, (∃ a ∈ gs, a.line = l.line) → l.dirty = 0) →
             t'.sealcnt = t.sealcnt ∧ ∀ vf pa, s'.homeByte vf pa = (c.touch gs true s).homeByte vf pa)
     (∀ x : Atom, done (.atom x) x.g 8 x.ty x.data x.la (.atomic x.op) x.ret fun c => c.stores (regUniform x.data) x.ty x.addr x.data) ∧
     (∀ x : Atom, t.det = false →
       done (.atomd x) x.g 8 x.ty x.data x.la (.atomic x.op) x.ret fun c => c.stores (regUniform x.data) x.ty x.addr x.data) ∧
     ∀ x : Cas, done (.cas x) x.g 12 x.ty x.data x.la .cas true fun c => (c.stores (regUniform x.data) x.ty x.addr x.data).map fun a =>
       { a with cmp := BitVec.ofNat 64 (memBits x.ty (c.reg x.ty.wide x.cmp a.lane)) }) ∧
  (∀ (ty : Ty) (x y : Nat), (ty = .i32 ∨ ty = .n32 ∨ ty = .i64 ∨ ty = .n64) → x < 2 ^ ty.elem.1 → y < 2 ^ ty.elem.1 →
     let w := ty.elem.1
     let a := BitVec.ofNat w x
     let b := BitVec.ofNat w y
     atomApply .add ty x y = (a + b).toNat ∧ atomApply .and ty x y = (a &&& b).toNat ∧ atomApply .or ty x y = (a ||| b).toNat ∧
     atomApply .xor ty x y = (a ^^^ b).toNat ∧ atomApply .xchg ty x y = y ∧
     atomApply .min ty x y = (if (if ty.signed then a.sle b else a.ule b) then x else y) ∧
     atomApply .max ty x y = (if (if ty.signed then a.sle b else a.ule b) then y else x))

/-- R233, R251, R257: in a deterministic launch ATOMD writes no memory: it faults with 0x1B where it would return a value (reason 5), where
the sequence number is spent (3) and where its entries find no room (4), and with the fault of a check that fails; else it places one entry
for each lane that is not denied, with the task's ordinal and sequence number (log 109), and the sequence number rises; without a guard-true
lane it only pays, and a form with a result opens its window (R45). R225, R235, R236, R252: AFLUSH with entries in a deterministic launch parks its
group, else it only goes on; the batch is put in the order of ordinal, sequence number and lane, its entries are applied at their homes as
atomics, and the group runs on. -/
def Obligations.DeterministicAtomics : Prop :=
  (∀ (s : State) (tid : Nat) (t : Task) (group : Mask) (x : Atom), Issues s tid t group → t.det = true →
     let c := Ctx.of s t group x.g 8
     let act := t.guarded x.g group
     let as := c.stores (regUniform x.data) x.ty x.addr x.data
     let cost := memCost 4 as.length x.ty.bytes
     let fault (reason : Nat) : Prop :=
       exec (.atomd x) s = .next (s.takeFault tid (t.record 0x1B (t.groupPc group) group act 0 (BitVec.ofNat 128 reason) false false))
     (act = 0 → 4 ≤ t.alw.toNat → s.replayable t < Config.maxRequests →
       (x.ret = false → ∃ s', exec (.atomd x) s = .next s' ∧ TaskDone s s' tid t t group 8 4) ∧
       (x.ret = true → ∃ s' t' o, exec (.atomd x) s = .next s' ∧ MemIssued s' tid t t' group 8 4 ∧ OthersStand s s' tid ∧
         s' = { s with tasks := s'.tasks, nextReq := s.nextReq + 1 } ∧ t'.outs = (t.countWindows group).outs ++ [o] ∧
         Awaits o group s.nextReq x.data x.ty x.la.val [])) ∧
     (act ≠ 0 → x.ret = true → fault 5) ∧
     (act ≠ 0 → x.ret = false → t.dseq = BitVec.allOnes 32 → fault 3) ∧
     (act ≠ 0 → x.ret = false → t.dseq ≠ BitVec.allOnes 32 →
       (∀ f, c.gcheck as Need.atom.now x.ty.bytes = .error f → exec (.atomd x) s = .next ((f.note s).takeFault tid
         (t.record f.code (t.groupPc group) group (if regUniform x.data then act else f.lanes) f.addr f.detail false false))) ∧
       ∀ gs, c.gcheck as Need.atom.now x.ty.bytes = .ok gs →
         let live := gs.filter fun a => !((c.shut Need.atom.now gs).map GAcc.line).contains a.line
         let room := s.freeOnChip t.core + s.freeSpill t
         (room < live.length → fault 4) ∧
         (live.length ≤ room → s.replayable t < Config.maxRequests → t.alw.toNat < cost → Exhausts s tid t group (.atomd x) cost) ∧
         (live.length ≤ room → s.replayable t < Config.maxRequests → cost ≤ t.alw.toNat → ∃ s' t' es, exec (.atomd x) s = .next s' ∧ s'.task? tid = some t' ∧ OthersStand s s' tid ∧
           t'.dentries = t.dentries ++ es ∧ es.length = live.length ∧ t'.dseq = t.dseq + 1 ∧ s'.reqs = s.reqs ∧
           t' = { t with alw := t.alw - BitVec.ofNat 64 cost, lanes := t'.lanes, outs := (t.countWindows group).outs, sealcnt := t'.sealcnt
                         dentries := t'.dentries, dseq := t'.dseq, dset := t'.dset, oset := t'.oset } ∧
           LanesMoved t t' group 8 ∧
           (∀ i a e, live[i]? = some a → es[i]? = some e → e.ordinal = t.ordinal ∧ e.seq = t.dseq ∧ e.lane = a.acc.lane ∧ e.va = a.acc.va ∧
             e.pa = a.acc.pa ∧ e.op = x.op ∧ e.ty = x.ty ∧ e.data = a.acc.data ∧ e.spilled = decide (s.freeOnChip t.core ≤ i)) ∧
           (live = gs → ∀ vf pa, s'.homeByte vf pa = (c.touch gs true s).homeByte vf pa)))) ∧
  ((∀ (s : State) (tid : Nat) (t : Task) (group : Mask) (g : Guard), Issues s tid t group → 4 ≤ t.alw.toNat →
     ((t.guarded g group = 0 ∨ t.det = false ∨ t.dentries = []) → ∃ s', exec (.aflush g) s = .next s' ∧ TaskDone s s' tid t t group 8 4) ∧
     (t.guarded g group ≠ 0 → t.det = true → t.dentries ≠ [] → ∃ s' t' w, exec (.aflush g) s = .next s' ∧ OnlyTask s s' tid t' ∧
       t'.alw = t.alw - 4 ∧ t'.sregs = t.sregs ∧ t'.vregs = t.vregs ∧ t'.dentries = t.dentries ∧ t'.waits = t.waits ++ [w] ∧
       w.lanes = group ∧ w.kind = .aflush)) ∧
   (∀ es : List DEntry, (sortEntries es).Perm es ∧ (sortEntries es).Pairwise fun a b => b.before a = false) ∧
   (∀ (s : State) (t : Task) (e : DEntry), let vf := (s.asd t.asid).vf
     let line := lineAddr e.pa
     (if s.zone line = .peer then s.peerOk (line >>> 42) t.asid t.prin e.sealId true true = true
       else ∀ l, s.l2? line = some l → s.sealOk e.core t.asid t.prin true true l.sealId = true) →
     (s.zone line = .host → ReqKind.pcie (.atomic e.op) e.ty = false) → s.l2.length < Config.l2Lines →
     (s.privMask t.asid e.va.toNat e.ty.bytes).toNat % 256 ^ e.ty.bytes = 256 ^ e.ty.bytes - 1 →
     s.isUe line = false → e.ms = false → s.Canonical vf e.pa → e.pa % 128 + e.ty.bytes ≤ 128 →
     let s' := s.applyEntry t e
     s'.homeRead vf e.pa e.ty.bytes = atomApply e.op e.ty (s.homeRead vf e.pa e.ty.bytes) e.data.toNat % 256 ^ e.ty.bytes ∧
     ∀ pa, s.Canonical vf pa → ¬ (e.pa ≤ pa ∧ pa < e.pa + e.ty.bytes) → s'.homeByte vf pa = s.homeByte vf pa) ∧
   ∀ (s : State) (task : Nat) (t : Task) (w : Wait), s.task? task = some t → t.waits = [w] → w.kind = .aflush → s.NobodyWaits →
     (∀ r ∈ s.reqs, r.core ≠ t.core) →
     ∃ s' t', exec (.batchApplication task) s = .next s' ∧ s'.task? task = some t' ∧ OthersMark s s' task ∧ t'.dentries = [] ∧ t'.waits = [] ∧
       t'.alw = t.alw ∧ t'.sregs = t.sregs ∧ t'.vregs = t.vregs ∧
       (∀ vf pa, s'.homeByte vf pa = ((sortEntries t.dentries).foldl (fun u e => u.applyEntry t e) s).homeByte vf pa) ∧
       ∀ l, l < t.lanes.length → w.lanes.getLsbD l = true → (t'.lane l).pc = (t.lane l).pc + w.len)

/-- R237, R241, R253: what a release waits for: the loads and atomics of its task in flight; what is held back from the core, in a parked
STL of the task, a deferred fault or a pending replay; and the stores of its scope that the core has sent, or a core that the task ran on
before: none at task and core scope; those to homes on this device at ply, die and device scope; those to peers as well at domain scope; all
at system scope. An acquire at ply scope, or die scope and above, drops every global line of the
core's L1 and no other line. R241, R253: FENCE parks its group while what it orders is in flight, for an acquire the task's loads and
atomics; else it goes on, after an acquire for `.aq` and `.ar`, and at system scope a release leaves no host line dirty in L2. R230, R243,
R254: STL pays 4 and its bytes and drops its lines from the core's L1; while what its release waits for is in flight it parks its group and
sends nothing, else its stores go out and the group goes on; no register changes, and no byte but the walker's marks unless a line that
leaves L1 is dirty, the line is of a capsule page, or host lines are written back at system scope. -/
def Obligations.ReleasesAndAcquires : Prop :=
  (∀ (s : State) (core tid : Nat) (sc : Scope),
     let counts (r : Req) : Prop := r.kind = .store ∧ match sc with
       | .task | .core => False
       | .ply | .die | .device => s.zone r.line = .hbm ∨ s.zone r.line = .reserved
       | .domain => s.zone r.line ≠ .host
       | .system => True
     (∀ i, i ∈ s.releaseSet core tid sc ↔ ∃ r, r.id = i ∧
       ((r ∈ s.reqs ∧ ((r.core = core ∧ counts r) ∨ (r.task = tid ∧ r.kind ≠ .store ∧ r.kind ≠ .prefetch))) ∨
         ∃ t, s.task? tid = some t ∧ (r ∈ t.parkedStores ∨ r ∈ t.deferred ∨ (∃ p ∈ t.pendingReplays, r ∈ p.stores) ∨
           (r ∈ s.reqs ∧ r.id ∈ t.carried ∧ counts r)))) ∧
     ((s.acquire core sc).core core).l1 =
       (if sc = .task ∨ sc = .core then (s.core core).l1 else (s.core core).l1.filter (·.priv))) ∧
  (∀ (s : State) (tid : Nat) (t : Task) (group : Mask) (g : Guard) (kind : FenceKind) (sc : Scope), Issues s tid t group → 2 ≤ t.alw.toNat →
     let act := t.guarded g group
     let ids := if kind = .acq then (s.reqs.filter fun r => r.own tid).map (·.id) else s.releaseSet t.core tid sc
     (act = 0 → ∃ s', exec (.fence g kind sc) s = .next s' ∧ TaskDone s s' tid t t group 8 2) ∧
     (act ≠ 0 → ids ≠ [] → ∃ s' t', exec (.fence g kind sc) s = .next s' ∧ OnlyTask s s' tid t' ∧ t'.alw = t.alw - 2 ∧
       t'.sregs = t.sregs ∧ t'.vregs = t.vregs ∧ t'.preds = t.preds ∧
       t'.waits = t.waits ++ [{ lanes := group, pc := t.groupPc group, len := 8
                                kind := .fence ids (if kind = .acq then none else some sc) (if kind = .rel then none else some sc) }] ∧
       ∀ l, l < t.lanes.length → group.getLsbD l = true → (t'.lane l).park = .ordering ∧ (t'.lane l).pc = (t.lane l).pc) ∧
     (act ≠ 0 → ids = [] → ∃ s' t', exec (.fence g kind sc) s = .next s' ∧ s'.task? tid = some t' ∧ t.After t t' group 8 2 ∧
       OthersStand s s' tid ∧ s' = { s with tasks := s'.tasks, cores := s'.cores, l2 := s'.l2, mem := s'.mem, hostMem := s'.hostMem } ∧
       (kind = .rel → s'.cores = s.cores) ∧
       ((kind = .acq ∨ sc ≠ .system) → s' = { s with tasks := s'.tasks, cores := s'.cores }) ∧
       (kind ≠ .acq → sc = .system → ∀ line l, s'.l2? line = some l → l.dirty = true → s.zone line ≠ .host) ∧
       (kind ≠ .rel → sc ≠ .task → sc ≠ .core → (s'.core t.core).l1 = (s.core t.core).l1.filter (·.priv)))) ∧
  (∀ (s : State) (tid : Nat) (t : Task) (group : Mask) (x : ScopedMem), Issues s tid t group →
     let c := Ctx.of s t group x.g 8
     let as := c.stores (regUniform x.data) x.ty x.addr x.data
     let cost := memCost 4 as.length x.ty.bytes
     let ids := if c.act = 0 then [] else s.releaseSet t.core tid x.scope
     (∀ gs, c.gcheck as .store x.ty.bytes = .ok gs → (c.capsStore gs).isNone = true → c.capsHeld gs = false →
       s.replayable t < Config.maxRequests → t.alw.toNat < cost → Exhausts s tid t group (.stl x) cost) ∧
     ∀ gs, c.Passes as .store x.ty cost gs → (c.capsStore gs).isNone = true → c.capsHeld gs = false →
       ∃ s' t', exec (.stl x) s = .next s' ∧ s'.task? tid = some t' ∧ t'.alw = t.alw - BitVec.ofNat 64 cost ∧
         t'.sregs = t.sregs ∧ t'.vregs = t.vregs ∧ t'.preds = t.preds ∧
         (ids ≠ [] → s'.reqs.map (·.id) = s.reqs.map (·.id) ∧ ∃ w send, t'.waits = t.waits ++ [w] ∧
           w.lanes = group ∧ w.kind = .stl ids x.scope send ∧ ∀ a ∈ gs, ∃ r ∈ send, r.kind = .store ∧ r.line = a.line ∧ a.acc ∈ r.lanes) ∧
         (ids = [] → t'.waits = t.waits ∧ LanesMoved t t' group 8) ∧
         ((ids ≠ [] ∨ ∀ a ∈ gs, a.leaf.caps = false) →
           OthersMark s s' tid ∧ t'.outs = (t.countWindows group).outs ∧ (∀ a ∈ gs, ∀ l ∈ (s'.core t.core).l1, l.line ≠ a.line) ∧
           (ids = [] → ∀ a ∈ gs, ∃ r ∈ s'.reqs, r.kind = .store ∧ r.task = tid ∧ r.line = a.line ∧ a.acc ∈ r.lanes) ∧
           ((∀ l ∈ (s.core t.core).l1, (∃ a ∈ gs, a.line = l.line) → l.dirty = 0) → (ids ≠ [] ∨ x.scope ≠ .system) →
             ∀ vf pa, s'.homeByte vf pa = (c.touch gs true s).homeByte vf pa)))

/-! ### Tile copies and arrival words (spec/15_tile_copy.md) -/

/-- R285, R291-R293, R297-R302: the copy instructions issue where their checks pass. R288, R301, R302, R308: a copy instruction whose layout
register holds no layout is fault 0x11 with reason 1, behind the alignment (0x07) and the range (0x08) of its tile; a failing check is its
fault; a length of 0 or beyond 2^40 is fault 0x11 with reason 8; a fill outside scratch is fault 0x08, a tile of it that is not aligned 0x07;
an arrival or gate word outside scratch is fault 0x12 with reason 2 (R289). -/
def Obligations.Copies : Prop :=
  (∀ (s : State) (tid : Nat) (t : Task) (group : Mask), Issues s tid t group →
     let v (r : Fin 64) : BitVec 64 := t.rdS s.tick r
     (∀ (x : TcTile) (l : Layout), t.guarded x.g group ≠ 0 → (s.core t.core).layout? tid x.ly.val = some l →
       let c := Ctx.of s t group x.g 16
       c.tileChecks x (v x.tile).toNat (v x.base) l = none →
       CopyIssues s tid t group (.tcLoad x) x.tail (.load x.ty x.kind (v x.tile).toNat (v x.base) (c.origin x.origin) l (v x.scale))
         x.ly.val 1056 ∧
       CopyIssues s tid t group (.tcStore x) x.tail (.store x.ty x.kind (v x.tile).toNat (v x.base) (c.origin x.origin) l (v x.scale))
         x.ly.val (8 * x.ty.qx * l.ty.tileBytes + (if l.scl then 8 else 0))) ∧
     (∀ (x : TcQnt2) (l : Layout), t.guarded x.g group ≠ 0 → (s.core t.core).layout? tid x.ly.val = some l →
       let c := Ctx.of s t group x.g 16
       c.qntChecks x (v x.tile).toNat (v x.base) l = none →
       CopyIssues s tid t group (.tcQnt2 x) x.tail (.qnt2 x.ty (v x.tile).toNat (v x.base) (c.origin x.origin) l) x.ly.val 2112) ∧
     (∀ x : TcCopy, t.guarded x.g group ≠ 0 → 0 < (v x.len).toNat → (v x.len).toNat ≤ 2 ^ 40 →
       (Ctx.of s t group x.g 16).tailFault x.tail = none →
       CopyIssues s tid t group (.tcCopy x) x.tail (.copy (v x.dst) (v x.src) (v x.len).toNat) 0 (ceilDiv (v x.len).toNat 8)) ∧
     ∀ x : TcFill, t.guarded x.g group ≠ 0 → (Ctx.of s t group x.g 16).tailFault x.tail = none →
       let scr := (s.kernelOf t).scr
       let d := (v x.dst).toNat
       let n := (v x.len).toNat
       (x.mode = .global → 0 < n → n ≤ 2 ^ 40 →
         CopyIssues s tid t group (.tcFill x) x.tail (.fillGlobal (v x.dst) (v x.const) n) 0 (ceilDiv n 8)) ∧
       (x.mode = .scratch → 0 < n → n ≤ 2 ^ 40 → d + n ≤ scr →
         CopyIssues s tid t group (.tcFill x) x.tail (.fillScratch d (v x.const) n) 0 (ceilDiv n 8)) ∧
       ∀ ty, x.mode = .tile ty → d % 128 = 0 → d + 8448 ≤ scr →
         CopyIssues s tid t group (.tcFill x) x.tail (.fillTile ty d (v x.const)) 0 1056) ∧
  (∀ (s : State) (tid : Nat) (t : Task) (group : Mask), Issues s tid t group →
     let v (r : Fin 64) : BitVec 64 := t.rdS s.tick r
     let scr := (s.kernelOf t).scr
     let fault (act : Mask) (code : BitVec 8) (addr : BitVec 64) (detail : BitVec 128) : Host.Outcome State Fault Refusal :=
       .next (s.takeFault tid (t.record code (t.groupPc group) group act addr detail false false))
     (∀ x : TcTile, t.guarded x.g group ≠ 0 → (s.core t.core).layout? tid x.ly.val = none →
       let act := t.guarded x.g group
       let r := if (v x.tile).toNat % 128 ≠ 0 then fault act 0x07 (v x.tile) 0
         else if scr < (v x.tile).toNat + 8448 then fault act 0x08 (v x.tile) 0
         else fault act 0x11 0 (BitVec.ofNat 128 (1 + 256 * x.ly.val))
       exec (.tcLoad x) s = r ∧ exec (.tcStore x) s = r) ∧
     (∀ (x : TcTile) (l : Layout) (f : EFault), t.guarded x.g group ≠ 0 → (s.core t.core).layout? tid x.ly.val = some l →
       (Ctx.of s t group x.g 16).tileChecks x (v x.tile).toNat (v x.base) l = some f →
       exec (.tcLoad x) s = fault (t.guarded x.g group) f.code f.addr f.detail ∧
       exec (.tcStore x) s = fault (t.guarded x.g group) f.code f.addr f.detail) ∧
     (∀ x : TcQnt2, t.guarded x.g group ≠ 0 →
       let act := t.guarded x.g group
       ((s.core t.core).layout? tid x.ly.val = none → exec (.tcQnt2 x) s =
         if (v x.tile).toNat % 128 ≠ 0 then fault act 0x07 (v x.tile) 0
         else if scr < (v x.tile).toNat + 16896 then fault act 0x08 (v x.tile) 0
         else fault act 0x11 0 (BitVec.ofNat 128 (1 + 256 * x.ly.val))) ∧
       ∀ l f, (s.core t.core).layout? tid x.ly.val = some l →
         (Ctx.of s t group x.g 16).qntChecks x (v x.tile).toNat (v x.base) l = some f → exec (.tcQnt2 x) s = fault act f.code f.addr f.detail) ∧
     (∀ x : TcFill, t.guarded x.g group ≠ 0 →
       let act := t.guarded x.g group
       let n := (v x.len).toNat
       let d := (v x.dst).toNat
       let badLength := n = 0 ∨ 2 ^ 40 < n
       (x.mode = .global → badLength → exec (.tcFill x) s = fault act 0x11 0 8) ∧
       (x.mode = .scratch → scr < d + n → exec (.tcFill x) s = fault act 0x08 (v x.dst) 0) ∧
       (x.mode = .scratch → d + n ≤ scr → badLength → exec (.tcFill x) s = fault act 0x11 0 8) ∧
       ∀ ty, x.mode = .tile ty → (d % 128 ≠ 0 → exec (.tcFill x) s = fault act 0x07 (v x.dst) 0) ∧
         (d % 128 = 0 → scr < d + 8448 → exec (.tcFill x) s = fault act 0x08 (v x.dst) 0)) ∧
     (∀ w f, wordFault (16 * w) scr = some f ↔ scr < 16 * w + 16 ∧ f = { code := 0x12, detail := 2, addr := BitVec.ofNat 64 (16 * w) }) ∧
     (∀ (x : TcCopy) (f : EFault), t.guarded x.g group ≠ 0 → 0 < (v x.len).toNat → (v x.len).toNat ≤ 2 ^ 40 →
       (Ctx.of s t group x.g 16).tailFault x.tail = some f → exec (.tcCopy x) s = fault (t.guarded x.g group) f.code f.addr f.detail) ∧
     ∀ x : TcCopy, t.guarded x.g group ≠ 0 → ((v x.len).toNat = 0 ∨ 2 ^ 40 < (v x.len).toNat) →
       exec (.tcCopy x) s = fault (t.guarded x.g group) 0x11 0 8)

/-- R283, R288, R303, R296, R307: TC.LYSET of a sound record loads the layout register, from scratch, or from memory behind the core's
requests to the same homes (R240), and changes no register of the task; an address that is not a multiple of 16, a range outside scratch and
an unsound record are its faults; TC.STAT reads the kernel's conflict counter and clears it. -/
def Obligations.LayoutsAndConflicts : Prop :=
  ∀ (s : State) (tid : Nat) (t : Task) (group : Mask) (g : Guard), Issues s tid t group → t.guarded g group ≠ 0 →
    let c := Ctx.of s t group g 8
    (∀ (ly : Fin 8) (addr : Fin 64), 8 ≤ t.alw.toNat → (∀ x ∈ (s.core t.core).lysets, x.regs.length = 8) →
      let a := (t.rdS s.tick addr).toNat
      let w := s.scrRead t.core tid t.kkey a 48
      let fault (code : BitVec 8) (addr : BitVec 64) (detail : BitVec 128) : Host.Outcome State Fault Refusal :=
        .next (s.takeFault tid (t.record code (t.groupPc group) group (t.guarded g group) addr detail false false))
      let pieces := (List.range 6).map fun i => laneAcc c.low (BitVec.ofNat 64 (a + 8 * i)) 0
      (a % 16 ≠ 0 → exec (.tcLyset g true ly addr) s = fault 0x07 (t.rdS s.tick addr) 0 ∧
        (c.Foremost false pieces → exec (.tcLyset g false ly addr) s = fault 0x07 (t.rdS s.tick addr) 0)) ∧
      (a % 16 = 0 → (s.kernelOf t).scr < a + 48 → exec (.tcLyset g true ly addr) s = fault 0x08 (t.rdS s.tick addr) 0) ∧
      (a % 16 = 0 → a + 48 ≤ (s.kernelOf t).scr → ∀ f, (Layout.ofNat w).fault ly.val = some f →
        exec (.tcLyset g true ly addr) s = fault f.code f.addr f.detail) ∧
      (a % 16 = 0 →
      (a + 48 ≤ (s.kernelOf t).scr → (Layout.ofNat w).fault ly.val = none → ∃ s' t', exec (.tcLyset g true ly addr) s = .next s' ∧
        s'.task? tid = some t' ∧ t.After t t' group 8 8 ∧ OthersStand s s' tid ∧ s' = { s with tasks := s'.tasks, cores := s'.cores } ∧
        (s'.core t.core).layout? tid ly.val = some (Layout.ofNat w) ∧
        ∀ n, n ≠ ly.val → (∃ x ∈ (s.core t.core).lysets, x.task = tid) →
          (s'.core t.core).layout? tid n = (s.core t.core).layout? tid n) ∧
      (c.Held false pieces → exec (.tcLyset g false ly addr) s = .next s) ∧
      (c.Foremost false pieces → ∀ gs, c.gcheck pieces Need.load.now 8 = .ok gs →
        (Layout.ofNat (c.greadAll gs s).1).fault ly.val = none → ∃ s' t', exec (.tcLyset g false ly addr) s = .next s' ∧
          MemIssued s' tid t t' group 8 8 ∧ (s'.core t.core).layout? tid ly.val = some (Layout.ofNat (c.greadAll gs s).1)))) ∧
    ∀ dst : Fin 64, 1 ≤ t.alw.toNat → ∃ s' t', exec (.tcStat g dst) s = .next s' ∧ s'.task? tid = some t' ∧ OthersStand s s' tid ∧
      ResultFrame t t' group (t.guarded g group) (.s dst) true 1 (t.moved group 8) ∧ t'.fpctl = t.fpctl ∧
      (dst ≠ 63 → t'.sreg dst =
        ((((s.core t.core).conflicts.find? fun (e : KKey × BitVec 32) => e.1 == t.kkey).map Prod.snd).getD 0).setWidth 64) ∧
      s' = { s with tasks := s'.tasks, cores := s'.cores } ∧
      (s'.core t.core).conflicts = (s.core t.core).conflicts.filter fun (e : KKey × BitVec 32) => e.1 != t.kkey

/-- R290: an arrival adds its amount to COUNT, saturating; while TARGET is not zero, every TARGET bytes counted advance GEN by one and leave
the arrival's scope in SCOPE; TARGET stands. R289, R304-R306: a word that is not aligned or lies outside the kernel's scratch is fault 0x12;
ARRIVE in its set form writes TARGET and clears COUNT, in the other it arrives once its release waits for nothing and parks else; AWAIT of a
generation that is reached writes 0 and goes on, and parks else; AWTEST writes the generation, a free value where scratch is undefined (R293,
R245). R305: once the timeout of an AWAIT has passed, its group goes on with 1 in its destination; before, and with timeout 0, nothing
happens. -/
def Obligations.ArrivalWords : Prop :=
  (∀ (w amount : Nat) (sc : Scope), w < 2 ^ 128 →
     let count (w : Nat) := bits w 0 44
     let target (w : Nat) := bits w 44 44
     let w' := arrivalWord w amount sc
     let total := min (count w + amount) (2 ^ 44 - 1)
     w' < 2 ^ 128 ∧ target w' = target w ∧
     (target w = 0 → count w' = total ∧ bits w' 96 32 = bits w 96 32 ∧ bits w' 88 3 = bits w 88 3) ∧
     (target w ≠ 0 → count w' = total % target w ∧ bits w' 96 32 = (bits w 96 32 + total / target w) % 2 ^ 32 ∧
       bits w' 88 3 = if total < target w then bits w 88 3 else sc.code)) ∧
  (∀ (s : State) (tid : Nat) (t : Task) (group : Mask) (g : Guard) (word : Fin 64), Issues s tid t group → t.guarded g group ≠ 0 →
     2 ≤ t.alw.toNat →
     let v (r : Fin 64) : BitVec 64 := t.rdS s.tick r
     let w := (v word).toNat
     let scr := (s.kernelOf t).scr
     let mem (s : State) := (s.core t.core).scratchOf t.kkey
     let fault (reason : Nat) : Host.Outcome State Fault Refusal := .next (s.takeFault tid
       (t.record 0x12 (t.groupPc group) group (t.guarded g group) (v word) (BitVec.ofNat 128 reason) false false))
     (w % 16 ≠ 0 ∨ scr < w + 16 → let r := fault (if w % 16 ≠ 0 then 1 else 2)
       (∀ set amt, exec (.arrive g set word amt) s = r) ∧ (∀ dst gen timeout, exec (.await g dst word gen timeout) s = r) ∧
       ∀ dst, exec (.awtest g dst word) s = r) ∧
     (w % 16 = 0 → w + 16 ≤ scr →
       (∀ set amt, 2 ^ 44 ≤ (v amt).toNat → exec (.arrive g set word amt) s = fault 3) ∧
       (∀ amt, (v amt).toNat < 2 ^ 44 → ∃ s', exec (.arrive g none word amt) s = .next s' ∧
         (mem s').readLE w 11 = (v amt).toNat * 2 ^ 44 ∧ (∀ a, (a < w ∨ w + 11 ≤ a) → (mem s').get a = (mem s).get a) ∧
         ∀ vf pa, s'.homeByte vf pa = s.homeByte vf pa) ∧
       (∀ amt sc, (v amt).toNat < 2 ^ 44 → s.releaseSet t.core tid sc = [] → ∃ s', exec (.arrive g (some sc) word amt) s = .next s' ∧
         (mem s').readLE w 16 = arrivalWord ((mem s).readLE w 16) (v amt).toNat sc % 2 ^ 128 ∧
         (∀ a, (a < w ∨ w + 16 ≤ a) → (mem s').get a = (mem s).get a) ∧
         (sc ≠ .system → ∀ vf pa, s'.homeByte vf pa = s.homeByte vf pa)) ∧
       (∀ amt sc, (v amt).toNat < 2 ^ 44 → s.releaseSet t.core tid sc ≠ [] → ∃ s' t' x, exec (.arrive g (some sc) word amt) s = .next s' ∧
         OnlyTask s s' tid t' ∧ t'.alw = t.alw - 2 ∧ t'.sregs = t.sregs ∧ t'.vregs = t.vregs ∧ t'.waits = t.waits ++ [x] ∧ x.lanes = group ∧
         x.kind = .arrive w (v amt).toNat sc (s.releaseSet t.core tid sc)) ∧
       (∀ dst gen timeout, reached (mem s) w ((v gen).setWidth 32) = true → ∃ s' t', exec (.await g dst word gen timeout) s = .next s' ∧
         s'.task? tid = some t' ∧ OthersStand s s' tid ∧ ResultFrame t t' group (t.guarded g group) (.s dst) true 1 (t.moved group 8) ∧
         t'.fpctl = t.fpctl ∧ t'.sreg dst = 0 ∧ s' = { s with tasks := s'.tasks, cores := s'.cores }) ∧
       (∀ dst gen timeout, reached (mem s) w ((v gen).setWidth 32) = false → s.replayable t < Config.maxRequests →
         ∃ s' t' x, exec (.await g dst word gen timeout) s = .next s' ∧ OnlyTask s s' tid t' ∧ t'.alw = t.alw - 1 ∧ t'.sregs = t.sregs ∧
           t'.vregs = t.vregs ∧ t'.waits = t.waits ++ [x] ∧ x.lanes = group ∧ x.pc = t.groupPc group ∧
           x.kind = .await w ((v gen).setWidth 32) dst timeout s.clock ∧
           ∀ l, l < t.lanes.length → group.getLsbD l = true → (t'.lane l).park = .await) ∧
       ∀ dst, ∃ s' t', exec (.awtest g dst word) s = .next s' ∧ s'.task? tid = some t' ∧ OthersStand s s' tid ∧
         ResultFrame t t' group (t.guarded g group) (.s dst) true 1 (t.moved group 8) ∧ t'.fpctl = t.fpctl ∧
         (dst ≠ 63 → t'.sreg dst = BitVec.ofNat 64 (s.scrRead t.core tid t.kkey (w + 12) 4)) ∧
         ((∀ i < 4, s.scrUndef t.core tid t.kkey (w + 12 + i) = false) → s.scrRead t.core tid t.kkey (w + 12) 4 = (mem s).readLE (w + 12) 4) ∧
         s' = { s with tasks := s'.tasks, cores := s'.cores })) ∧
  (∀ (s : State) (task lane : Nat) (t : Task) (w : Wait) (word : Nat) (gen : BitVec 32) (dst : Fin 64) (timeout : BitVec 16) (since : BitVec 64),
     s.task? task = some t → t.isPlaced = true → t.waits = [w] → w.kind = .await word gen dst timeout since → w.lanes.getLsbD lane = true →
     let late := timeout ≠ 0 ∧ 64 * timeout.toNat ≤ (s.clock - since).toNat
     (¬ late → exec (.awaitTimeout task lane) s = .next s) ∧
     (late → ∃ s' t', exec (.awaitTimeout task lane) s = .next s' ∧ OnlyTask s s' task t' ∧ t'.waits = [] ∧ t'.alw = t.alw ∧
       t'.vregs = t.vregs ∧ (∀ r, t'.sreg r = if r = dst ∧ r ≠ 63 then 1 else t.sreg r) ∧ Woken t t' w ∧
       ∀ l, l < t.lanes.length → w.lanes.getLsbD l = true → (t'.lane l).pc = (t.lane l).pc + w.len))

/-- R292, R293, R295, R299: an operation whose gate is open and which has not started starts, or meets the fault of its check; one that has
started completes where it meets no fault: it leaves the core, its reservation is settled at the granules written, and a fill of scratch has
written its constant over its range and nothing else; one that meets a fault stops and becomes a deferred fault of its placed task. -/
def Obligations.EngineOperations : Prop :=
  ∀ (s : State) (core op : Nat) (o : CopyOp), s.copy? core op = some o → o.core = core →
    (o.gate.isSome = true ∨ o.started = true → exec (.engineOperationStart core op) s = .next s) ∧
    (o.started = false → exec (.engineOperationComplete core op) s = .next s ∧ exec (.engineOperationFault core op) s = .next s) ∧
    (o.gate = none → o.started = false → o.startFault s = none → ∃ s' o', exec (.engineOperationStart core op) s = .next s' ∧
      s'.copy? core op = some o' ∧ o' = { o with started := true } ∧ s' = { s with cores := s'.cores }) ∧
    (o.gate = none → o.started = false → ∀ f, o.startFault s = some f → exec (.engineOperationStart core op) s = .next (s.engineFault o f)) ∧
    (o.started = true → (∀ e, o.effect false s = .ok e → exec (.engineOperationFault core op) s = .next s) ∧
      ∀ f, o.effect false s = .error f → exec (.engineOperationFault core op) s = .next (s.engineFault o f)) ∧
    (∀ t f, o.started = true → s.task? o.task = some t → t.isPlaced = true → t.stop = none → t.fault = none → t.saving = none →
      o.effect false s = .error f → ∃ s' t' r, exec (.engineOperationFault core op) s = .next s' ∧ s'.task? o.task = some t' ∧
        t'.fault = some r ∧ r.code = f.code ∧ r.deferred = true ∧ r.pc = o.pc ∧ r.lmask = o.group ∧ r.addr = f.addr ∧
        t'.deferredCopies = o :: t.deferredCopies ∧ s'.copy? core op = none) ∧
    ∀ (t : Task) (d : Nat) (x : BitVec 64) (n : Nat), o.started = true → o.kind = .fillScratch d x n → o.arrive = none →
      s.task? o.task = some t → s.NobodyWaits → (∀ r ∈ s.reqs, r.core ≠ core) → (∀ p ∈ (s.core core).copies, p.id = op → p = o) →
      (∀ u ∈ s.tasks, ∀ w ∈ u.waits, match w.kind with | .await _ _ _ _ _ | .bankset _ _ _ _ => False | _ => True) →
      ∃ s' t', exec (.engineOperationComplete core op) s = .next s' ∧ s'.task? o.task = some t' ∧ s'.copy? core op = none ∧
        t' = { t with held := t.held - o.reserved, alw := t.alw + BitVec.ofNat 64 (o.reserved.toNat - ceilDiv n 8) } ∧
        (∀ a, ((s'.core core).scratchOf o.kernel).get a =
          if d ≤ a ∧ a < d + n then BitVec.ofNat 8 (x.toNat / 256 ^ ((a - d) % 8)) else ((s.core core).scratchOf o.kernel).get a) ∧
        ∀ vf pa, s'.homeByte vf pa = s.homeByte vf pa

/-! ### Capsules (spec/13_capsules.md) -/

/-- R258, R272, R275: CAP.ENTER pays 8 and parks its whole group, each guard-true lane as a contender for its cell; a check that fails is its
fault instead, and an account that does not cover the 8 is trap 0x0A. No register and no byte of memory but the walker's marks changes. R267:
a displaced lane waits while its epoch is open; once it is closed, it reads its return slot, behind the core's requests to the same homes
(R240): a status word of its epoch gives it c0, c1 and its status predicate (log 110), any other is fault 0x0B with reason 4; a check that
fails is its fault. -/
def Obligations.CapsuleEntry : Prop :=
  (∀ (s : State) (tid : Nat) (t : Task) (group : Mask) (x : CapEnter), Issues s tid t group → t.alw.toNat < 8 →
     s.replayable t < Config.maxRequests → Exhausts s tid t group (.capEnter x) 8) ∧
  (∀ (s : State) (tid : Nat) (t : Task) (group : Mask) (x : CapEnter), Issues s tid t group → 8 ≤ t.alw.toNat → t.replayCap = [] →
     (∀ w ∈ t.waits, w.kind.isCap = false) →
     let c := Ctx.of s t group x.g 16
     let as := (lanesOf c.act).map (c.capArgs x)
     (c.act = 0 → ∃ s', exec (.capEnter x) s = .next s' ∧ TaskDone s s' tid t t group 16 8) ∧
     (c.act ≠ 0 → (∀ f, c.capChecks as = .error f → exec (.capEnter x) s = .next ((f.note s).takeFault tid
         (t.record f.code (t.groupPc group) group f.lanes f.addr f.detail false false))) ∧
       ∀ gs, c.capChecks as = .ok gs → (∀ a ∈ gs, c.cellBad a.2 = false) → s.replayable t < Config.maxRequests →
         ∃ s' t' w ls, exec (.capEnter x) s = .next s' ∧ s'.task? tid = some t' ∧ OthersStand s s' tid ∧ t'.alw = t.alw - 8 ∧
           t'.sregs = t.sregs ∧ t'.vregs = t.vregs ∧ t'.preds = t.preds ∧ t'.waits = t.waits ++ [w] ∧ w.lanes = group ∧
           w.pc = t.groupPc group ∧ w.kind = .capEnter x.dst x.status ls ∧ ls.map (·.lane) = lanesOf c.act ∧
           (∀ (i : Nat) (a : CapArgs × GAcc) (l : CapLane), gs[i]? = some a → ls[i]? = some l → l.cell = a.2.acc.pa ∧ l.cellVa = a.1.cell ∧
             l.slotVa = a.1.slot ∧ l.code = a.1.code ∧ l.args = a.1.args ∧ l.stage = .waiting) ∧
           (∀ l, l < t.lanes.length → group.getLsbD l = true → (t'.lane l).park = .capsule ∧ (t'.lane l).pc = (t.lane l).pc) ∧
           ∀ vf pa, s'.homeByte vf pa = (c.touch (gs.map (·.2)) true s).homeByte vf pa)) ∧
  (∀ (s : State) (task lane : Nat) (t : Task) (w : Wait) (l : CapLane) (e : BitVec 40), s.task? task = some t → t.canIssue = true →
     t.capOf lane = some (w, l) → l.stage = .displaced e →
     let k := s.cell (s.asd t.asid).vf l.cell
     let is_open := k.count = e.toNat ∧ (k.state = 1 ∨ k.state = 2)
     let s1 := s.acquire t.core .device
     let c : Ctx := { s := s1, tid := task, t := t, k := s.kernelOf t, group := w.lanes, act := laneBit lane, pc := w.pc, len := 16 }
     let as := (List.range 3).map fun i => laneAcc lane (l.slotVa + BitVec.ofNat 64 (8 * i)) 0
     (is_open ∨ c.Held false as → exec (.epochClosed task lane) s = .next s) ∧
     (¬ is_open → c.Foremost false as → ∀ f, c.gcheck as Need.load.now 8 = .error f →
       exec (.epochClosed task lane) s = .next ((f.note s1).capFault task lane f.code f.addr f.detail)) ∧
     (¬ is_open → c.Foremost false as → ∀ gs, c.gcheck as Need.load.now 8 = .ok gs →
       let v := (c.greadAll gs s1).1
       (v / 2 ^ 128 % 2 ^ 40 ≠ e.toNat → exec (.epochClosed task lane) s =
         .next ((c.greadAll gs s1).2.capFault task lane 0x0B l.cellVa (detail0B 4 0))) ∧
       (v / 2 ^ 128 % 2 ^ 40 = e.toNat → lane < 64 → ∀ dst st ls, w.kind = .capEnter dst st ls →
         ∃ s' t', exec (.epochClosed task lane) s = .next s' ∧ s'.task? task = some t' ∧ t'.alw = t.alw ∧ t'.sregs = t.sregs ∧
           t'.vreg dst.val lane = BitVec.ofNat 32 v ∧ t'.vreg (dst.val + 1) lane = BitVec.ofNat 32 (v / 2 ^ 32) ∧
           t'.vreg (dst.val + 2) lane = BitVec.ofNat 32 (v / 2 ^ 64) ∧ t'.vreg (dst.val + 3) lane = BitVec.ofNat 32 (v / 2 ^ 96) ∧
           (st ≠ 0 → (t'.pred st).getLsbD lane = decide (v / 2 ^ 168 % 4 = 1)))))

/-- R259, R262, R265, R266: the home serves the contender that came first: a FREE cell becomes HELD by its task at step 0, with the next epoch
number, the task's principal, the code, the return slot and the arguments; a HELD cell is left alone until its lease has run out; an ORPHAN
cell, and a HELD one whose lease has, its owner's gated cycles not counted (R379), is adopted at its step; a BROKEN one is fault 0x0B with
reason 3. -/
def Obligations.CellsAreGranted : Prop :=
  ∀ (s : State) (cell : Nat), (s.contender cell = none → exec (.cellGrant cell) s = .next s ∧ exec (.leaseExpiry cell) s = .next s) ∧
    ∀ (tid : Nat) (l : CapLane) (t : Task), s.contender cell = some (tid, l) → s.task? tid = some t → tid < 2 ^ 32 →
      let vf := (s.asd t.asid).vf
      let k := s.cell vf cell
      s.CellAt vf cell →
      let adopted (i : Instr) : Prop := ∃ s' t', exec i s = .next s' ∧ s'.task? tid = some t' ∧ OthersStand s s' tid ∧
        s'.cell vf cell = { k with owner := tid, state := 1 } ∧ t' = { t with waits := t'.waits } ∧
        (∃ e, s'.leases.find? (fun x => x.1 == cell) = some (cell, e)) ∧
        ∀ w m, t'.capOf l.lane = some (w, m) → m.stage = .adopt (BitVec.ofNat 40 k.count)
      (k.state = 0 → ∃ s' t', exec (.cellGrant cell) s = .next s' ∧ s'.task? tid = some t' ∧ OthersStand s s' tid ∧
        t' = { t with waits := t'.waits } ∧
        s'.cell vf cell = { owner := tid, state := 1, step := 0, count := if k.count + 1 < 2 ^ 40 then k.count + 1 else 1
                            prin := t.prin.toNat, code := (l.code.map (·.toNat)).getD k.code, slot := l.slotVa.toNat } ∧
        (∀ i, i < 8 → s'.homeRead vf (cell + 0x20 + 8 * i) 8 = (l.args.getD i 0).toNat) ∧
        (∀ pa, s.Canonical vf pa → (pa < cell ∨ cell + 0x60 ≤ pa) → s'.homeByte vf pa = s.homeByte vf pa) ∧
        ∀ w m, t'.capOf l.lane = some (w, m) → m.stage = .own (BitVec.ofNat 40 (if k.count + 1 < 2 ^ 40 then k.count + 1 else 1))) ∧
      (k.state = 1 → exec (.cellGrant cell) s = .next s) ∧
      (k.state = 2 → adopted (.cellGrant cell)) ∧
      (k.state = 3 → exec (.cellGrant cell) s = .next (s.capFault tid l.lane 0x0B l.cellVa (detail0B 3 0))) ∧
      (k.state ≠ 1 → exec (.leaseExpiry cell) s = .next s) ∧
      (∀ e, s.leases.find? (fun x => x.1 == cell) = some (cell, e) →
        let ends := e.toNat + s.gatedFor k.owner (e - BitVec.ofNat 64 Config.leaseCycles)
        (s.clock.toNat < ends → exec (.leaseExpiry cell) s = .next s) ∧
        (ends ≤ s.clock.toNat → k.state = 1 → adopted (.leaseExpiry cell)))

/-- R263, R268, R271, R278: what the steps of a body commit: CX.GET and CX.PUT move a word between payload and checkpoint registers, CX.ALU,
CX.MOVI and CX.RES write a register, CX.BR only the step; every other step goes to the next index. R266-R269, R271: CX.LD commits the 8
bytes it reads, with the permission of the executor and of the cell's principal, behind the core's requests to the same home (R240), and
zero where it is denied. Every step, the two ends of a body among them: where the account lacks its cost, 2 or 4, trap 0x0A is taken at the
CAP.ENTER; a step of a lane that no longer holds its cell pays and writes nothing, and the lane is displaced, or contends again where it was
adopting. -/
def Obligations.BodySteps : Prop :=
  (∀ (s : State) (tid lane : Nat) (b : Body),
     let reg (r : Fin 8) : BitVec 64 := BitVec.ofNat 64 (b.reg r)
     let second (cb : Option (Fin 8)) (imm : BitVec 18) : BitVec 64 := match cb with | some r => reg r | none => imm.signExtend 64
     let next := b.cell.step + 1
     (∀ cd n, StepCommits s tid lane b (.cxGet cd n) [(0x20 + 8 * cd.val, s.homeRead b.vf (b.l.cell + 0x60 + 8 * n.val) 8)] next) ∧
     (∀ n ca, StepCommits s tid lane b (.cxPut n ca) [(0x60 + 8 * n.val, b.reg ca)] next) ∧
     (∀ op cd ca cb imm, StepCommits s tid lane b (.cxAlu op cd ca cb imm) [(0x20 + 8 * cd.val,
       (let x := reg ca
        let y := second cb imm
        match op with
         | .add => x + y
         | .sub => x - y
         | .and => x &&& y
         | .or => x ||| y
         | .xor => x ^^^ y
         | .shl => x <<< y.toNat
         | .shr => x >>> y.toNat
         | .sar => x.sshiftRight y.toNat
         | .minu => if x ≤ y then x else y
         | .maxu => if x ≤ y then y else x
         | .mins => if x.sle y then x else y
         | .maxs => if x.sle y then y else x
         | .mul => x * y : BitVec 64).toNat)] next) ∧
     (∀ (cd : Fin 8) (imm : BitVec 18) (sh : Fin 4),
       StepCommits s tid lane b (.cxMovi cd imm sh) [(0x20 + 8 * cd.val, ((imm.signExtend 64 : BitVec 64) <<< (16 * sh.val)).toNat)] next) ∧
     (∀ cd (sel : Fin 3), StepCommits s tid lane b (.cxRes cd sel) [(0x20 + 8 * cd.val,
       if sel = 0 then b.cell.count else if sel = 1 then b.cell.prin else b.cell.step)] next) ∧
     ∀ (cond : CxCond) ca cb (off : BitVec 18), StepCommits s tid lane b (.cxBr cond ca cb off) []
       (let x := reg ca
        let y := second cb off
        let taken : Bool := match cond with
         | .always => true
         | .eq => x == y
         | .ne => x != y
         | .ltu => x.ult y
         | .geu => y.ule x
         | .lt => x.slt y
         | .ge => y.sle x
        if taken then min (b.cell.step + off.toNat) 255 else next)) ∧
  (∀ (s : State) (tid lane : Nat) (b : Body), s.cur = .body tid lane → s.body? tid lane = some b →
     let t := b.c.t
     (∀ (cd ca : Fin 8) (d : BitVec 18),
       let va : BitVec 64 := BitVec.ofNat 64 (b.reg ca) + d.signExtend 64
       let need := Need.load.now
       let c2 : Ctx := { b.c with t := { t with prin := BitVec.ofNat 24 b.cell.prin } }
       2 ≤ t.alw.toNat → b.live = true → s.CellAt b.vf b.l.cell → b.c.Foremost false [laneAcc lane va 0] →
       (∀ f, b.l.lane = lane → b.c.gcheck [laneAcc lane va 0] need 8 = .error f →
         exec (.cxLd cd ca d) s = .next ((f.note s).capFault tid lane f.code f.addr f.detail)) ∧
       ∀ gs, b.l.lane = lane → b.c.gcheck [laneAcc lane va 0] need 8 = .ok gs →
         (c2.gcheck [laneAcc lane va 0] need 8).toOption.isSome = true →
         ∃ s', exec (.cxLd cd ca d) s = .next s' ∧
           s'.homeRead b.vf (b.l.cell + 0x20 + 8 * cd.val) 8 =
             (if gs.any (b.c.denied need) || gs.any (c2.denied need) then 0 else (b.c.greadAll gs s).1 % 2 ^ 64) ∧
           (s'.cell b.vf b.l.cell).step = (b.cell.step + 1) % 256 ∧ (s'.cell b.vf b.l.cell).state = 1) ∧
     let cost (i : Instr) : Nat → Prop := fun n => match i with
       | .cxGet _ _ | .cxPut _ _ | .cxAlu _ _ _ _ _ | .cxMovi _ _ _ | .cxRes _ _ | .cxBr _ _ _ _ => n = 2
       | .cxLd _ ca d => n = 2 ∧ b.c.Foremost false [laneAcc lane (BitVec.ofNat 64 (b.reg ca) + d.signExtend 64) 0]
       | .capExitStep | .capAbortStep => n = 4 ∧ b.l.mark = none
       | _ => False
     (∀ i n, cost i n → t.alw.toNat < n → exec i s = .next (s.capTrap tid lane n) ∧
       ∃ t' r, (s.capTrap tid lane n).task? tid = some t' ∧ t'.trapRec = some r ∧ r.code = 0x0A ∧ r.pc = b.w.pc ∧ r.gmask = b.w.lanes ∧
         r.detail = BitVec.ofNat 128 n ∧ (t.ownExm = .unwind → t.stop = none → t.isRetired = false → t'.stop = some .exhausted) ∧
         (t.ownExm = .pause → t.parent ≠ some tid → t'.paused = true ∧ t'.alw = t.alw ∧ t'.waits = t.waits)) ∧
     (∀ i n, cost i n → n ≤ t.alw.toNat → b.live = false → b.l.lane = lane → ∃ s' t', exec i s = .next s' ∧ OnlyTask s s' tid t' ∧
       t' = { t with alw := t.alw - BitVec.ofNat 64 n, waits := t'.waits } ∧
       ∀ w l, t'.capOf lane = some (w, l) → l.stage = match b.l.stage with | .adopt _ => .waiting | _ => .displaced b.epoch))

/-- R244, R266, R271, R275, R279: the ends of a body, CAP.EXIT and CAP.ABORT as steps, pay 4 once, wait for the executor's earlier stores,
loads and atomics, write the return slot, c0, c1 and the status word with the epoch and END, each word by the core's store of it, and free the
cell; a lane that held it has c0 and c1 in its destination and the predicate that says whether the body exited; a lane that adopted it then
enters the cell itself, at step 0 of the next epoch. Under STRICT a word of the slot that cannot be written is the fault and the charge is
returned. -/
def Obligations.BodiesEnd : Prop :=
  ∀ (s : State) (tid lane : Nat) (b : Body), s.cur = .body tid lane → s.body? tid lane = some b → b.live = true →
    s.CellAt b.vf b.l.cell → b.l.mark = none →
    let t := b.c.t
    let ends (i : Instr) (exit : Bool) : Prop :=
      (t.alw.toNat < 4 → exec i s = .next (s.capTrap tid lane 4)) ∧
      (4 ≤ t.alw.toNat → (∃ i ∈ s.releaseSet t.core tid .device, i < s.nextReq) → ∃ s' t', exec i s = .next s' ∧ OnlyTask s s' tid t' ∧
        t' = { t with alw := t.alw - 4, waits := t'.waits }) ∧
      (4 ≤ t.alw.toNat → s.releaseSet t.core tid .device = [] → (s.asd t.asid).strict = false → lane < 64 →
        ∀ dst st ls e, b.w.kind = .capEnter dst st ls → b.l.stage = .own e →
          ∃ s' t', exec i s = .next s' ∧ s'.task? tid = some t' ∧ t'.alw = t.alw - 4 ∧ t'.sregs = t.sregs ∧
            (s'.cell b.vf b.l.cell).state = 0 ∧ (s'.cell b.vf b.l.cell).owner = 0 ∧ (s'.cell b.vf b.l.cell).step = 0 ∧
            (s'.leases.find? fun x => x.1 == b.l.cell) = none ∧
            t'.vreg dst.val lane = BitVec.ofNat 32 (b.reg 0) ∧ t'.vreg (dst.val + 1) lane = BitVec.ofNat 32 (b.reg 0 / 2 ^ 32) ∧
            t'.vreg (dst.val + 2) lane = BitVec.ofNat 32 (b.reg 1) ∧ t'.vreg (dst.val + 3) lane = BitVec.ofNat 32 (b.reg 1 / 2 ^ 32) ∧
            (st ≠ 0 → (t'.pred st).getLsbD lane = exit) ∧
            ∀ q m, m < 64 → (m ≠ lane ∨ q < dst.val ∨ dst.val + 4 ≤ q) → t'.vreg q m = t.vreg q m) ∧
      let slot := b.cell.slot
      let status := b.cell.count + (if exit then 1 else 2) * 2 ^ 40
      let u := b.slotWord (slot + 16) status (b.slotWord (slot + 8) (b.reg 1) (b.slotWord slot (b.reg 0) s))
      (4 ≤ t.alw.toNat → s.releaseSet t.core tid .device = [] → (∀ r ∈ s.reqs, r.core ≠ t.core) →
        (∀ i < 3, b.slotBad (slot + 8 * i) = none) →
        (∀ e, b.l.stage = .own e → ∃ s', exec i s = .next s' ∧
          ∀ v pa, s'.homeByte v pa = (u.setOwner b.vf b.l.cell 0 0 0).homeByte v pa) ∧
        ∀ e, b.l.stage = .adopt e → tid < 2 ^ 32 →
          let k := u.cell b.vf b.l.cell
          let epoch := if k.count + 1 < 2 ^ 40 then k.count + 1 else 1
          ∃ s' t', exec i s = .next s' ∧ s'.task? tid = some t' ∧ t'.alw = t.alw - 4 ∧ t'.sregs = t.sregs ∧ t'.vregs = t.vregs ∧
            s'.cell b.vf b.l.cell = { owner := tid, state := 1, step := 0, count := epoch, prin := t.prin.toNat
                                      code := (b.l.code.map (·.toNat)).getD k.code, slot := b.l.slotVa.toNat } ∧
            (∀ i, i < 8 → s'.homeRead b.vf (b.l.cell + 0x20 + 8 * i) 8 = (b.l.args.getD i 0).toNat) ∧
            ∀ w m, t'.capOf b.l.lane = some (w, m) → m.stage = .own (BitVec.ofNat 40 epoch)) ∧
      (4 ≤ t.alw.toNat → s.releaseSet t.core tid .device = [] → (s.asd t.asid).strict = true → ∀ code note, b.slotBad slot = some (code, note) →
        (∀ i < 3, ∀ c n, b.slotBad (slot + 8 * i) = some (c, n) → c = code) → ∃ s' t' f, exec i s = .next s' ∧ s'.task? tid = some t' ∧
          (t.stop = none → t.fault = none → t'.fault = some f ∧ f.code = code ∧ f.pc = b.w.pc ∧ f.addr = BitVec.ofNat 64 slot) ∧
          t'.alw = t.alw ∧ ((∀ v, (s.vf v).ringOn = false) → ∀ v pa, s'.homeByte v pa = s.homeByte v pa))
    (∀ (u : State) (va v : Nat) (l : Leaf), s.xlate t.core t.asid va = .ok l → l.bypass = false → (∀ r ∈ u.reqs, r.core ≠ t.core) →
      u.touch t.core t.asid va true = u → u.Canonical b.vf (l.pa va) → u.zone (l.pa va) ≠ .reserved → l.pa va % 128 + 8 ≤ 128 →
      u.l2.length < Config.l2Lines →
      (b.slotWord va v u).homeRead b.vf (l.pa va) 8 = v % 2 ^ 64 ∧
      ∀ pa, u.Canonical b.vf pa → (pa < l.pa va ∨ l.pa va + 8 ≤ pa) → (b.slotWord va v u).homeByte b.vf pa = u.homeByte b.vf pa) ∧
    ends .capExitStep true ∧ ends .capAbortStep false

/-- R261, R264, R270, R276, R277: in a task's own stream CAP.EXIT is fault 0x0B with reason 6 whatever the guards; CAP.ABORT waits for the
task's stores, loads and atomics, clears a BROKEN cell into FREE with the next epoch number and writes the state it found, and outside capsule
memory is fault 0x06; CAP.PROBE writes the two words, behind the core's requests to their homes (R240), and at an address that is not a
multiple of 16 is fault 0x07. -/
def Obligations.CapsuleWords : Prop :=
  ∀ (s : State) (tid : Nat) (t : Task) (group : Mask) (x : CapWord), Issues s tid t group →
    let c := Ctx.of s t group x.g 8
    let va : BitVec 64 := t.rdS s.tick x.base + x.disp.signExtend 64
    exec (.capExit x) s = .next (s.takeFault tid (t.record 0x0B (t.groupPc group) group group va 6 false false)) ∧
    (t.alw.toNat < 4 → Exhausts s tid t group (.capAbort x) 4) ∧
    (∀ a l, c.act ≠ 0 → 4 ≤ t.alw.toNat → s.xlate t.core t.asid va.toNat = .ok l → l.caps = true →
      c.gcheck [laneAcc c.low va 0] .cell 256 = .ok [a] → c.cellBad a = false →
      let vf := (s.asd t.asid).vf
      let k := (c.touch [a] true s).cell vf a.acc.pa
      (s.releaseSet t.core tid .device ≠ [] → ∃ s' t' w, exec (.capAbort x) s = .next s' ∧ s'.task? tid = some t' ∧ t'.alw = t.alw - 4 ∧
        t'.sregs = t.sregs ∧ t'.vregs = t.vregs ∧ t'.waits = t.waits ++ [w] ∧ w.lanes = group ∧
        w.kind = .capAbort x.dst a.acc.pa (s.releaseSet t.core tid .device)) ∧
      (s.releaseSet t.core tid .device = [] → s.CellAt vf a.acc.pa →
        ∃ s' t', exec (.capAbort x) s = .next s' ∧ s'.task? tid = some t' ∧ t'.alw = t.alw - 4 ∧ t'.vregs = t.vregs ∧
          (t.Unparked group → LanesMoved t t' group 8) ∧ (∀ r, t'.sreg r = if r = x.dst ∧ r ≠ 63 then BitVec.ofNat 64 k.state else t.sreg r) ∧
          s'.cell vf a.acc.pa = if k.state = 3 then { k with owner := 0, state := 0, step := 0
                                                             count := if k.count + 1 < 2 ^ 40 then k.count + 1 else 1 } else k)) ∧
    (∀ l, c.act ≠ 0 → 4 ≤ t.alw.toNat → s.xlate t.core t.asid va.toNat = .ok l → l.caps = false → va.toNat % 256 = 0 →
      exec (.capAbort x) s = .next (s.takeFault tid (t.record 0x06 (t.groupPc group) group c.act va 0 false false))) ∧
    let two := [laneAcc c.low va 0, laneAcc c.low (va + 8) 0]
    (c.act ≠ 0 → c.Held false two → exec (.capProbe x) s = .next s) ∧
    (c.act ≠ 0 → c.Foremost false two → va.toNat % 16 ≠ 0 →
      exec (.capProbe x) s = .next (s.takeFault tid (t.record 0x07 (t.groupPc group) group c.act va 0 false false))) ∧
    ∀ gs, c.act ≠ 0 → c.Foremost false two → va.toNat % 16 = 0 → c.gcheck two Need.load.now 8 = .ok gs →
      (t.alw.toNat < 2 → Exhausts s tid t group (.capProbe x) 2) ∧ (2 ≤ t.alw.toNat →
      ∃ s' t', exec (.capProbe x) s = .next s' ∧ s'.task? tid = some t' ∧ t'.alw = t.alw - 2 ∧ t'.vregs = t.vregs ∧ LanesMoved t t' group 8 ∧
        ∀ r : Fin 64, t'.sreg r = if r = 63 then 0 else if r = x.dst then BitVec.ofNat 64 (c.greadAll gs s).1
          else if r.val = x.dst.val + 1 then BitVec.ofNat 64 ((c.greadAll gs s).1 / 2 ^ 64) else t.sreg r)

/-! ### Matrix, patterns, system (spec/16_matrix.md, spec/17_patterns.md, spec/09_system.md) -/

/-- R309-R311, R325-R328, R332, R333: MX.ARM with its checks passed pays 16 and reserves the bound of its steps, claims its accumulators and
leaves its register armed with the next epoch, its gate untested; MX.SIGN adds its task to the signers, and the last signature issues the
operation in the armer's kernel (R320), or leaves it paused while its armer is being saved or is; an account that does not cover the cost is
trap 0x0A; MX.FENCE only notes that the task's scratch writes are fenced; MX.WAIT writes 3 where the task has no epoch there, waits while it
has not ended, and else gives its status; MX.ZERO clears its tiles; MX.STEP reads the register; MX.ABORT ends the task's own operation. -/
def Obligations.MatrixOperationsAreArmedAndSigned : Prop :=
  ∀ (s : State) (tid : Nat) (t : Task) (group : Mask), Issues s tid t group →
    let k := s.core t.core
    let nobody := (s.tasks.map (·.id)).Nodup ∧
      ∀ u ∈ s.tasks, ∀ w ∈ u.waits, match w.kind with | .mxWait _ _ | .bankset _ _ _ _ => False | _ => True
    let fault (g : Guard) (reason n : Nat) : Host.Outcome State Fault Refusal := .next (s.takeFault tid
      (t.record 0x0C (t.groupPc group) group (t.guarded g group) 0 (BitVec.ofNat 128 (reason + 256 * n)) false false))
    (∀ x : MxArm, t.guarded x.g group ≠ 0 → k.tileOwner.length = 16 → x.cv.val < k.cvs.length →
      let c := Ctx.of s t group x.g 16
      let a := (t.rdS s.tick x.desc).toNat
      let w : BitVec 512 := BitVec.ofNat 512 (s.scrRead t.core tid t.kkey a 64)
      let d := Desc.of w
      let v := k.cv x.cv.val
      a % 64 = 0 → a + 64 ≤ (s.kernelOf t).scr → d.malformed = false → d.beyond t.core = false →
      (v.state ≠ .idle → exec (.mxArm x) s = fault x.g 2 x.cv.val) ∧
      (∀ i, v.state = .idle → c.foreignTile d.tileMask = some i → exec (.mxArm x) s = fault x.g 4 i) ∧
      (v.state = .idle → c.foreignTile d.tileMask = none → c.armPattern d x.cv.val = none → c.armPly x = none →
        (∀ o, x.gate = some o → wordFault (wordOffset o) (s.kernelOf t).scr = none) →
        (t.alw.toNat < 16 + d.bound → Exhausts s tid t group (.mxArm x) (16 + d.bound)) ∧ (16 + d.bound ≤ t.alw.toNat → ∃ s' t', exec (.mxArm x) s = .next s' ∧ s'.task? tid = some t' ∧ OthersStand s s' tid ∧
          s' = { s with tasks := s'.tasks, cores := s'.cores } ∧ LanesMoved t t' group 16 ∧
          t' = { t with alw := t.alw - BitVec.ofNat 64 (16 + d.bound), held := t.held + BitVec.ofNat 64 d.bound, lanes := t'.lanes
                        outs := (t.countWindows group).outs, mxRecs := t'.mxRecs, dset := t'.dset, oset := t'.oset } ∧
          (t'.mxRecs.filter fun r => r.cv == x.cv.val) =
            [{ core := t.core, cv := x.cv.val, epoch := v.epoch + 1, tiles := d.tileMask, armer := true, ops := [], waited := false
               fin := none }] ∧
          (s'.core t.core).cv x.cv.val =
            { Cv.reset with
              state := .armed, epoch := v.epoch + 1, armer := tid, desc := w, descVa := t.rdS s.tick x.desc, need := x.count.val
              reserved := BitVec.ofNat 64 d.bound
              ply := if x.ply = 63 then none else some ((t.rdS s.tick x.ply).setWidth 32)
              gate := x.gate.map fun o => (wordOffset o, (t.rdS s.tick x.gateGen).setWidth 32) } ∧
          (∀ i, i < 16 → (s'.core t.core).tileOwner.getD i none =
            if d.tileMask.getLsbD i then some tid else k.tileOwner.getD i none) ∧
          (s'.core t.core).tiles = k.tiles ∧ (s'.core t.core).unwaited = k.unwaited))) ∧
    (∀ (g : Guard) (cv : Fin 16), t.guarded g group ≠ 0 → cv.val < k.cvs.length →
      let v := k.cv cv.val
      let mine := (∃ u, s.task? v.armer = some u ∧ u.asid = t.asid) ∧ (∀ id, v.ply = some id → ∃ p, s.ply? id = some p ∧ tid ∈ p.members) ∧
        tid ∉ v.signers ∧ v.signers.length < v.need
      let unissued := v.state = .armed ∨ (v.state = .paused ∧ v.signers.length < v.need)
      let last := v.signers.length + 1 = v.need
      (group ≠ t.unexited → exec (.mxSign g cv) s = fault g 1 cv.val) ∧
      (group = t.unexited → ¬ unissued → exec (.mxSign g cv) s = fault g 2 cv.val) ∧
      (group = t.unexited → unissued → ¬ mine → exec (.mxSign g cv) s = fault g 3 cv.val) ∧
      (group = t.unexited → unissued → mine → t.alw.toNat < 2 → Exhausts s tid t group (.mxSign g cv) 2) ∧
      (group = t.unexited → unissued → mine → 2 ≤ t.alw.toNat →
        (last → ∀ u ∈ s.tasks, ∀ w ∈ u.waits, ∀ a b d e f, w.kind ≠ .await a b d e f) →
        ∃ s' t' v', exec (.mxSign g cv) s = .next s' ∧ s'.task? tid = some t' ∧ OthersStand s s' tid ∧ LanesMoved t t' group 8 ∧
          t' = { t with alw := t.alw - 2, lanes := t'.lanes, outs := (t.countWindows group).outs, mxRecs := t'.mxRecs, dset := t'.dset
                        oset := t'.oset } ∧
          (v.armer = tid → t'.mxRecs = t.mxRecs) ∧
          (v.armer ≠ tid → (t'.mxRecs.filter fun r => r.cv == cv.val) =
            [{ core := t.core, cv := cv.val, epoch := v.epoch, tiles := 0, armer := false, ops := [], waited := false, fin := none }]) ∧
          v' = (s'.core t.core).cv cv.val ∧ v'.signers = v.signers ++ [tid] ∧ v'.epoch = v.epoch ∧ v'.desc = v.desc ∧ v'.armer = v.armer ∧
          (s'.core t.core).unwaited = k.unwaited ∧ (¬ last → v'.state = v.state) ∧
          (last → v'.issued = s.nextSeq ∧
            (v'.state = if v.state = .paused ∨ (∃ u, s.task? v.armer = some u ∧ u.saving ≠ none) then .paused else .issued) ∧
            ∀ i, i < 16 → (Desc.of v.desc).tileMask.getLsbD i = true → k.tileOwner.getD i none = some v.armer →
              (s'.core t.core).pending i = true))) ∧
    (∀ g, t.guarded g group ≠ 0 → 1 ≤ t.alw.toNat →
      ∃ s', exec (.mxFence g) s = .next s' ∧ TaskDone s s' tid t { t with unfenced := [] } group 8 1) ∧
    (∀ (g : Guard) (dst : Fin 64) (cv : Fin 16), t.guarded g group ≠ 0 → 1 ≤ t.alw.toNat → nobody →
      let rec_ := t.mxRecs.find? fun r => r.cv == cv.val
      (rec_ = none → Computes s tid t group g (.mxWait g dst cv) 8 .n64 (.s dst) fun _ => (3, 0)) ∧
      (∀ r, rec_ = some r → r.fin = none → ∃ s' t' w, exec (.mxWait g dst cv) s = .next s' ∧ OnlyTask s s' tid t' ∧ t'.alw = t.alw - 1 ∧
        t'.sregs = t.sregs ∧ t'.vregs = t.vregs ∧ t'.preds = t.preds ∧ t'.waits = t.waits ++ [w] ∧ w.lanes = group ∧
        w.pc = t.groupPc group ∧ w.kind = .mxWait cv.val dst ∧
        ∀ l, l < t.lanes.length → group.getLsbD l = true → (t'.lane l).park = .mxWait ∧ (t'.lane l).pc = (t.lane l).pc) ∧
      (∀ (r : MxRec) (e : MxEnd) (code : BitVec 64), rec_ = some r → r.fin = some e → t.isPlaced = true →
        (match e with | .done => code = 0 | .aborted => code = 1 | .cancelled => code = 2 | .fault _ _ => False) →
        ∃ s' t', exec (.mxWait g dst cv) s = .next s' ∧ s'.task? tid = some t' ∧ OthersStand s s' tid ∧
          (t.Unparked group → LanesMoved t t' group 8) ∧ t'.alw = t.alw - 1 ∧ t'.waits = t.waits ∧ t'.vregs = t.vregs ∧ t'.preds = t.preds ∧
          (∀ q, t'.sreg q = if q = dst ∧ q ≠ 63 then code else t.sreg q) ∧ (s'.core t.core).unwaited = k.unwaited &&& ~~~r.tiles) ∧
      ∀ (r : MxRec) (code : BitVec 8) (detail : BitVec 128), rec_ = some r → r.fin = some (.fault code detail) → t.isPlaced = true →
        t.fault = none → ∃ s' t' f, exec (.mxWait g dst cv) s = .next s' ∧ s'.task? tid = some t' ∧ t'.fault = some f ∧ f.code = code ∧
          f.detail = detail ∧ f.gmask = group ∧ f.lmask = group ∧ f.pc = t.groupPc group ∧ t'.alw = t.alw ∧ t'.sregs = t.sregs ∧
          ∀ w ∈ t'.waits, ∀ c d, w.kind ≠ .mxWait c d) ∧
    (∀ (g : Guard) (tiles : BitVec 16), t.guarded g group ≠ 0 → k.tileOwner.length = 16 → k.tiles.length = 16 →
      let c := Ctx.of s t group g 8
      (∀ i, c.foreignTile tiles = some i → exec (.mxZero g tiles) s = fault g 4 i) ∧
      (c.foreignTile tiles = none → t.alw.toNat < 4 → Exhausts s tid t group (.mxZero g tiles) 4) ∧
      (c.foreignTile tiles = none → 4 ≤ t.alw.toNat → ∃ s' t', exec (.mxZero g tiles) s = .next s' ∧ s'.task? tid = some t' ∧
        t.After t t' group 8 4 ∧ OthersStand s s' tid ∧ s' = { s with tasks := s'.tasks, cores := s'.cores } ∧
        ∀ i, i < 16 → (s'.core t.core).tileOwner.getD i none = (if tiles.getLsbD i then some tid else k.tileOwner.getD i none) ∧
          (s'.core t.core).tile i = if tiles.getLsbD i then (if (k.claimTile i tid).pending i then undefTile s.tick i else []) else k.tile i)) ∧
    (∀ (g : Guard) (dst : Fin 64) (cv : Fin 16), t.guarded g group ≠ 0 → 1 ≤ t.alw.toNat →
      Computes s tid t group g (.mxStep g dst cv) 8 .n64 (.s dst) fun _ =>
        let v := k.cv cv.val
        let state := match v.state with | .idle => 0 | .armed => 1 | .issued => 2 | .paused => 3
        (v.epoch.toNat * 2 ^ 48 + state * 2 ^ 32 + v.pos.toNat, 0)) ∧
    ∀ (g : Guard) (cv : Fin 16), t.guarded g group ≠ 0 →
      let v := k.cv cv.val
      (v.state ≠ .idle → v.armer ≠ tid → exec (.mxAbort g cv) s = fault g 8 cv.val) ∧
      ((v.state = .idle ∨ v.armer = tid) → t.alw.toNat < 4 → Exhausts s tid t group (.mxAbort g cv) 4) ∧
      (v.state = .idle → 4 ≤ t.alw.toNat → nobody → ∃ s', exec (.mxAbort g cv) s = .next s' ∧ TaskDone s s' tid t t group 8 4) ∧
      (v.state ≠ .idle → v.armer = tid → v.started = false → 4 ≤ t.alw.toNat → nobody → ∃ s' t', exec (.mxAbort g cv) s = .next s' ∧
        s'.task? tid = some t' ∧ LanesMoved t t' group 8 ∧ t'.sregs = t.sregs ∧ t'.vregs = t.vregs ∧ t'.held = t.held - v.reserved ∧
        t'.alw = t.alw - 4 + BitVec.ofNat 64 (v.reserved.toNat - v.executed) ∧ ((s'.core t.core).cv cv.val).state = .idle ∧
        (s'.core t.core).tiles = k.tiles ∧ ∀ u ∈ s'.tasks, ∀ r ∈ u.mxRecs, r.core = t.core → r.cv = cv.val → r.epoch = v.epoch → r.fin ≠ none)

/-- R310, R315, R318-R320, R329-R331: MX.DRAIN writes its tile, which only its owner may drain, as a canonical tile or an image of its
entries, MX.FILL gives a tile the entries of one, read from memory behind the core's requests to the same homes (R240); a tile to be waited
for first has undefined entries. The engine starts the operation issued earliest whose gate is open, or ends it with fault 0x0C and reason 7
where a header is wrong; a step adds its products into the block sum, or nothing where it is skipped, and closes its scale block where the
next step has another, into the tile while its armer owns it; after the last step the operation ends DONE and its reservation is settled at
the steps that it executed. -/
def Obligations.MatrixTilesAndSteps : Prop :=
  (∀ (s : State) (tid : Nat) (t : Task) (group : Mask), Issues s tid t group →
    let k := s.core t.core
    let mem (s : State) := (s.core t.core).scratchOf t.kkey
    let fault (g : Guard) (n : Nat) : Host.Outcome State Fault Refusal := .next (s.takeFault tid
      (t.record 0x0C (t.groupPc group) group (t.guarded g group) 0 (BitVec.ofNat 128 (4 + 256 * n)) false false))
    k.tileOwner.length = 16 → k.tiles.length = 16 →
    (∀ x : MxDrain, t.guarded x.g group ≠ 0 → x.ty.isTile = true →
      let i := x.tile.val
      let a := (t.rdS s.tick x.dst).toNat
      let entry (e : Nat) : A40 := k.entry s.tick i e
      let c := Ctx.of s t group x.g 16
      let done (s' : State) (t' : Task) (cost : Nat) : Prop :=
        exec (.mxDrain x) s = .next s' ∧ s'.task? tid = some t' ∧ t'.alw = t.alw - BitVec.ofNat 64 cost ∧ t'.vregs = t.vregs ∧
        (s'.core t.core).tile i = (if x.zero = true ∨ x.free = true then [] else k.tile i) ∧
        (s'.core t.core).tileOwner.getD i none = if x.free = true then none else some tid
      (k.tileOwner.getD i none ≠ some tid → exec (.mxDrain x) s = fault x.g i) ∧
      (k.tileOwner.getD i none = some tid →
        (x.mode = .tile → a % 128 = 0 → a + 8448 ≤ (s.kernelOf t).scr → 1064 ≤ t.alw.toNat → ∃ s' t', done s' t' 1064 ∧
          mem s' = (drainTile (mem s) a x.ty entry).foldl (fun m b => Store.set m b.1 b.2) (mem s) ∧
          (∀ b, (b < a ∨ a + 8448 ≤ b) → (mem s').get b = (mem s).get b) ∧ ∀ vf pa, s'.homeByte vf pa = s.homeByte vf pa) ∧
        (x.mode = .rawScr → a % 8 = 0 → a + 32768 ≤ (s.kernelOf t).scr → 4104 ≤ t.alw.toNat → ∃ s' t', done s' t' 4104 ∧
          (∀ e, e < 4096 → (mem s').readLE (a + 8 * e) 8 = (entry e).toNat) ∧
          (∀ b, (b < a ∨ a + 32768 ≤ b) → (mem s').get b = (mem s).get b) ∧ ∀ vf pa, s'.homeByte vf pa = s.homeByte vf pa) ∧
        ∀ gs, x.mode = .raw → c.gcheck (c.imageAccs a 4096 fun e => (entry e).setWidth 64)
            Need.store.now 8 = .ok gs → (c.capsStore gs).isNone = true → 4104 ≤ t.alw.toNat →
          s.NobodyWaits → ∃ s' t', done s' t' 4104 ∧ t'.sregs = t.sregs)) ∧
    ∀ x : MxFill, t.guarded x.g group ≠ 0 →
      let i := x.tile.val
      let a := (t.rdS s.tick x.src).toNat
      let c := Ctx.of s t group x.g 16
      let read (o n : Nat) : Nat := s.scrRead t.core tid t.kkey o n
      let held := (s.core t.core).tileOwner.getD i none
      let filled (s' : State) (m : Store 40) : Prop := (s'.core t.core).tileOwner.getD i none = some tid ∧
        (s'.core t.core).tile i = if (k.claimTile i tid).pending i then undefTile s.tick i else m
      (∀ u, held = some u → u ≠ tid → exec (.mxFill x) s = fault x.g i) ∧
      ((held = none ∨ held = some tid) →
        (∀ ty : Ty, x.mode = .tile → a % 128 = 0 → a + 8448 ≤ (s.kernelOf t).scr → Ty.ofCode (read (a + 8192) 1) = some ty → ty.isTile = true →
          read (a + 8193) 1 < 3 → 1064 ≤ t.alw.toNat → ∃ s' t', exec (.mxFill x) s = .next s' ∧ s'.task? tid = some t' ∧
          t.After t t' group 16 1064 ∧ OthersStand s s' tid ∧ s' = { s with tasks := s'.tasks, cores := s'.cores } ∧
          filled s' (fillEntries read a ty)) ∧
        (x.mode = .rawScr → a % 8 = 0 → a + 32768 ≤ (s.kernelOf t).scr → 4104 ≤ t.alw.toNat → ∃ s' t', exec (.mxFill x) s = .next s' ∧
          s'.task? tid = some t' ∧ t.After t t' group 16 4104 ∧ OthersStand s s' tid ∧
          s' = { s with tasks := s'.tasks, cores := s'.cores } ∧ filled s' (imageEntries (read a 32768))) ∧
        (x.mode = .raw → c.Held false (c.imageAccs a 4096 fun _ => 0) → exec (.mxFill x) s = .next s) ∧
        ∀ gs, x.mode = .raw → c.Foremost false (c.imageAccs a 4096 fun _ => 0) →
          c.gcheck (c.imageAccs a 4096 fun _ => 0) Need.load.now 8 = .ok gs →
          4104 ≤ t.alw.toNat → ∃ s' t', exec (.mxFill x) s = .next s' ∧ MemIssued s' tid t t' group 16 4104 ∧
            filled s' (imageEntries (c.greadAll gs s).1))) ∧
  ∀ (s : State) (core : Nat),
    let c := s.core core
    let ready (i : Nat) : Prop := i < 16 ∧ (c.cv i).state = .issued ∧ (c.cv i).gate = none
    (c.running ≠ none ∨ (∀ i, ¬ ready i) → exec (.mxOperationStart core) s = .next s) ∧
    (c.running = none → exec (.matrixStep core) s = .next s ∧ exec (.mxOperationComplete core) s = .next s) ∧
    ∀ i, i < c.cvs.length →
      let v := c.cv i
      let d := Desc.of v.desc
      let prog := c.progOf d
      (c.running = none → ready i → (∀ j, ready j → j ≠ i → v.issued < (c.cv j).issued) →
        let m := (s.operand core i).view
        let ok := v.started = true ∨ d.headersOk m prog = true
        (¬ ok → exec (.mxOperationStart core) s = .next (s.mxFinish core i (.fault 0x0C (BitVec.ofNat 128 (7 + 256 * i))))) ∧
        (ok → ∃ s' v', exec (.mxOperationStart core) s = .next s' ∧ (s'.core core).running = some i ∧ v' = (s'.core core).cv i ∧
          v'.started = true ∧ v'.pos = v.pos ∧ v'.executed = v.executed ∧ v'.state = .issued ∧ v'.reserved = v.reserved ∧
          (∀ vf pa, s'.homeByte vf pa = s.homeByte vf pa) ∧
          (v.started = false → ∀ t, s.task? v.armer = some t → v'.skip = d.skipList m prog (t.zerochk.getLsbD 0)))) ∧
      (∀ st, c.running = some i → d.stepAt prog v.pos.toNat = some st → (∀ p, st.kind = .pat p → p.bad d.trans = none) →
        let o := s.operand core i
        let skip := v.skip.getD v.pos.toNat false
        let p := if skip then v.block else d.stepSum o st v.block
        let next := match d.stepAt prog (v.pos.toNat + 1) with | some u => u.block | none => d.tiles * d.nb
        ∃ s' v', exec (.matrixStep core) s = .next s' ∧ s' = { s with cores := s'.cores } ∧ v' = (s'.core core).cv i ∧
          v'.pos = v.pos + 1 ∧ v'.executed = v.executed + (if skip then 0 else 1) ∧
          (next ≤ st.block → v'.block = p ∧ (s'.core core).tiles = c.tiles) ∧
          (next = st.block + 1 → v'.block = [] ∧
            let i := d.acc + st.block / d.nb
            (s'.core core).tiles = if c.tileOwner.getD i none = some v.armer then listUpd c.tiles i fun _ => d.closeBlock o st.block p (c.tile i)
              else c.tiles)) ∧
      (c.running = some i → v.pos.toNat < d.stepCount prog → exec (.mxOperationComplete core) s = .next s) ∧
      (c.running = some i → d.stepCount prog ≤ v.pos.toNat →
        (∀ u ∈ s.tasks, ∀ w ∈ u.waits, match w.kind with | .mxWait _ _ | .bankset _ _ _ _ => False | _ => True) →
        ∃ s', exec (.mxOperationComplete core) s = .next s' ∧ ((s'.core core).cv i).state = .idle ∧ (s'.core core).running = none ∧
          (s'.core core).tiles = c.tiles ∧ (∀ t, s.task? v.armer = some t → ∃ t', s'.task? v.armer = some t' ∧
            t'.held = t.held - v.reserved ∧ t'.alw = t.alw + BitVec.ofNat 64 (v.reserved.toNat - v.executed) ∧ t'.sregs = t.sregs) ∧
          ∀ u ∈ s'.tasks, ∀ r ∈ u.mxRecs, r.core = core → r.cv = i → r.epoch = v.epoch → r.fin ≠ none)

/-- R344-R351: on a context that another task owns, or that a matrix operation holds, the pattern instructions that need it are fault 0x10
with reason 7 or 8. PG.LOAD puts a well-formed program at its start into the context; PG.RUN pays 8 and one for each block delivered, writes
their records to scratch, their number to its register, and moves the cursor; PG.SAVE writes the 96 bytes of the context, PG.REST reads them
back; a read from memory comes behind the core's requests to the same homes (R240); an account that does not cover the cost is trap 0x0A;
PG.STAT reads the context. -/
def Obligations.PatternInstructions : Prop :=
  ∀ (s : State) (tid : Nat) (t : Task) (group : Mask), Issues s tid t group →
    let k := s.core t.core
    let scr := (s.kernelOf t).scr
    let mem (s : State) := (s.core t.core).scratchOf t.kkey
    let foreign (i : Nat) : Prop := ∃ u, (k.gen i).owner = some u ∧ u ≠ tid
    let fault (g : Guard) (reason n : Nat) : Host.Outcome State Fault Refusal := .next (s.takeFault tid
      (t.record 0x10 (t.groupPc group) group (t.guarded g group) 0 (BitVec.ofNat 128 (reason + 256 * n)) false false))
    let noAwait := ∀ u ∈ s.tasks, ∀ w ∈ u.waits, ∀ a b d e f, w.kind ≠ .await a b d e f
    (∀ x : PgMem, t.guarded x.g group ≠ 0 → x.ctx.val < k.gens.length →
      let c := Ctx.of s t group x.g 8
      let i := x.ctx.val
      let a := (t.rdS s.tick x.addr).toNat
      let w (n : Nat) : Nat := s.scrRead t.core tid t.kkey a n
      let put (s' : State) (g : GCtx) : Prop := (s'.core t.core).gen i = g ∧ ∀ j, j ≠ i → (s'.core t.core).gen j = k.gen j
      let done (s' : State) (cost : Nat) : Prop := ∃ t', s'.task? tid = some t' ∧ t.After t t' group 8 cost ∧ OthersStand s s' tid ∧
        s' = { s with tasks := s'.tasks, cores := s'.cores }
      let fresh (w : Nat) : GCtx := { GCtx.reset with owner := some tid, words := wordsOf w, state := 1 }
      (x.scr = true → a % 64 = 0 → a + 64 ≤ scr →
        (foreign i → exec (.pgLoad x) s = fault x.g 7 0xFF) ∧
        (¬ foreign i → (k.gen i).busy = true → exec (.pgLoad x) s = fault x.g 8 0xFF) ∧
        (¬ foreign i → (k.gen i).busy = false →
          (∀ e, parseProgram (wordsOf (w 64)) = .error e → exec (.pgLoad x) s = fault x.g e.1 e.2) ∧
          ∀ p, parseProgram (wordsOf (w 64)) = .ok p → (t.alw.toNat < 4 → Exhausts s tid t group (.pgLoad x) 4) ∧ (4 ≤ t.alw.toNat →
            ∃ s', exec (.pgLoad x) s = .next s' ∧ done s' 4 ∧ put s' (fresh (w 64))))) ∧
      (x.scr = false → c.Held false (c.imageAccs a 8 fun _ => 0) → exec (.pgLoad x) s = .next s) ∧
      (x.scr = false → c.Held false (c.imageAccs a 12 fun _ => 0) → exec (.pgRest x) s = .next s) ∧
      (x.scr = false → a % 64 = 0 → ¬ foreign i → (k.gen i).busy = false → 4 ≤ t.alw.toNat →
        c.Foremost false (c.imageAccs a 8 fun _ => 0) → ∀ gs, c.gcheck (c.imageAccs a 8 fun _ => 0) Need.load.now 8 = .ok gs →
        ∀ p, parseProgram (wordsOf (c.greadAll gs s).1) = .ok p → ∃ s' t', exec (.pgLoad x) s = .next s' ∧ MemIssued s' tid t t' group 8 4 ∧
          put s' (fresh (c.greadAll gs s).1)) ∧
      (x.scr = true → a % 32 = 0 → a + 96 ≤ scr → t.alw.toNat < 16 →
        (∀ free, ¬ foreign i → (free = true → (k.gen i).busy = false) → Exhausts s tid t group (.pgSave x free) 16) ∧
        ∀ p g, ¬ foreign i → (k.gen i).busy = false → parseProgram (wordsOf (w 96)) = .ok p → GCtx.ofImage tid (w 96) p = some g →
          Exhausts s tid t group (.pgRest x) 16) ∧
      (x.scr = true → a % 32 = 0 → a + 96 ≤ scr → 16 ≤ t.alw.toNat →
        (∀ free, ¬ foreign i → (free = true → (k.gen i).busy = false) → ∃ s' t', exec (.pgSave x free) s = .next s' ∧ s'.task? tid = some t' ∧
          t'.alw = t.alw - 16 ∧ t'.vregs = t.vregs ∧ (∀ b, (mem s').get b = if a ≤ b ∧ b < a + 96 then
            BitVec.ofNat 8 (ofBytesLE (k.gen i).image / 256 ^ (b - a)) else (mem s).get b) ∧
          put s' (if free then GCtx.reset else k.gen i) ∧ ∀ vf pa, s'.homeByte vf pa = s.homeByte vf pa) ∧
        ∀ p g, ¬ foreign i → (k.gen i).busy = false → parseProgram (wordsOf (w 96)) = .ok p → GCtx.ofImage tid (w 96) p = some g →
          ∃ s', exec (.pgRest x) s = .next s' ∧ done s' 16 ∧ put s' g) ∧
      (x.scr = false → a % 32 = 0 → 16 ≤ t.alw.toNat → ¬ foreign i → (k.gen i).busy = false →
        (∀ free gs, c.gcheck (c.imageAccs a 12 fun j => BitVec.ofNat 64 (bits (ofBytesLE (k.gen i).image) (64 * j) 64))
            Need.store.now 8 = .ok gs → (c.capsStore gs).isNone = true → s.NobodyWaits →
          ∃ s' t', exec (.pgSave x free) s = .next s' ∧ s'.task? tid = some t' ∧ t'.alw = t.alw - 16 ∧ t'.sregs = t.sregs ∧ t'.vregs = t.vregs ∧
            put s' (if free then GCtx.reset else k.gen i)) ∧
        ∀ gs, c.Foremost false (c.imageAccs a 12 fun _ => 0) → c.gcheck (c.imageAccs a 12 fun _ => 0) Need.load.now 8 = .ok gs →
          ∀ p g, parseProgram (wordsOf (c.greadAll gs s).1) = .ok p → GCtx.ofImage tid (c.greadAll gs s).1 p = some g →
            ∃ s' t', exec (.pgRest x) s = .next s' ∧ MemIssued s' tid t t' group 8 16 ∧ put s' g)) ∧
    (∀ x : PgRun, t.guarded x.g group ≠ 0 → x.ctx.val < k.gens.length →
      let i := x.ctx.val
      let g := k.gen i
      let a := (t.rdS s.tick x.dst).toNat
      let n := min (t.rdS s.tick x.limit).toNat 4096
      (foreign i → exec (.pgRun x) s = fault x.g 7 0xFF) ∧
      (¬ foreign i → g.busy = true → exec (.pgRun x) s = fault x.g 8 0xFF) ∧
      (¬ foreign i → g.busy = false → g.state = 0 → exec (.pgRun x) s = fault x.g 6 0xFF) ∧
      ∀ p, ¬ foreign i → g.busy = false → g.state ≠ 0 → g.program = .ok p →
        let g1 := g.runFrom x.trans
        let bs := (g1.remaining p).take n
        (x.trans = true → g1.state ≠ 3 → p.wide = none) → a % 8 = 0 → a + 8 * n ≤ scr →
        (∀ (j : Nat) (b : Blk), bs[j]? = some b → undeliverable (g1.count.toNat + j) b = false) →
        (t.alw.toNat < 8 + n → Exhausts s tid t group (.pgRun x) (8 + n)) ∧ (8 + n ≤ t.alw.toNat → noAwait →
        ∃ s' t', exec (.pgRun x) s = .next s' ∧ s'.task? tid = some t' ∧ OthersStand s s' tid ∧ LanesMoved t t' group 16 ∧
          t'.alw = t.alw - BitVec.ofNat 64 (8 + bs.length) ∧ t'.held = t.held ∧ t'.vregs = t.vregs ∧ t'.preds = t.preds ∧
          (∀ q, t'.sreg q = if q = x.cnt ∧ q ≠ 63 then BitVec.ofNat 64 bs.length else t.sreg q) ∧
          (∀ (j : Nat) (b : Blk), bs[j]? = some b → (mem s').readLE (a + 8 * j) 8 = b.record) ∧
          (∀ b, (b < a ∨ a + 8 * bs.length ≤ b) → (mem s').get b = (mem s).get b) ∧ (s'.core t.core).gen i = g1.deliver p bs.length ∧
          (∀ j, j ≠ i → (s'.core t.core).gen j = k.gen j) ∧ ∀ vf pa, s'.homeByte vf pa = s.homeByte vf pa)) ∧
    ∀ (g : Guard) (dst : Fin 64) (ctx : Fin 8), t.guarded g group ≠ 0 → 1 ≤ t.alw.toNat →
      Computes s tid t group g (.pgStat g dst ctx) 8 .n64 (.s dst) fun _ => ((k.gen ctx.val).stat tid, 0)

/-- R200-R202, R219-R224: TRAP and BKPT keep their charge, put a record with their immediate into the core's fault queue and stop the task
with its lanes where they were; SYSRD reads a task-level system register, SEALCNT behind the task's earlier loads and atomics, SYSWR writes it;
a privileged number, 0x40 to 0xFF, is fault 0x02, and a word with a number 0x07 to 0x3F is no instruction, reason 0x0C of fault 0x01 (R44).
SUSP goes on behind itself and is saved, at once where nothing is outstanding (log 18), and stays suspended until its delay has passed. -/
def Obligations.SystemInstructions : Prop :=
  (∀ (s : State) (tid : Nat) (t : Task) (group : Mask) (g : Guard), Issues s tid t group → t.guarded g group ≠ 0 →
    let act := t.guarded g group
    let k := s.core t.core
    let trapped (s' : State) (cost : Nat) (code : BitVec 8) (imm : BitVec 16) : Prop :=
      ∃ t' r, s'.task? tid = some t' ∧ OthersStand s s' tid ∧ t'.alw = t.alw - BitVec.ofNat 64 cost ∧
        t'.sregs = t.sregs ∧ t'.vregs = t.vregs ∧ t'.preds = t.preds ∧ t'.fault = some r ∧ r.code = code ∧ r.detail = imm.setWidth 128 ∧
        r.deferred = false ∧ r.replayed = false ∧ r.pc = t.groupPc group ∧ r.gmask = group ∧ r.lmask = act ∧ r.alw = t'.alw ∧ r.addr = 0 ∧
        (s'.core t.core).fqTail = k.fqTail + 1 ∧ (s'.core t.core).ring.getD (k.fqTail.toNat % 128) FaultRec.zero = r ∧
        (∀ l, l < t.lanes.length → (t'.lane l).pc = (t.lane l).pc ∧ (t'.lane l).exited = (t.lane l).exited) ∧ t'.canIssue = false ∧
        (t.capLanes = [] → ∀ vf pa, s'.homeByte vf pa = s.homeByte vf pa)
    (∀ imm, 8 ≤ t.alw.toNat → k.ring.length = 128 → ∃ s', exec (.trap g imm) s = .next s' ∧ trapped s' 8 0x13 imm) ∧
    (∀ imm, 1 ≤ t.alw.toNat → k.ring.length = 128 → ∃ s', exec (.bkpt g imm) s = .next s' ∧ trapped s' 1 0x14 imm) ∧
    (∀ (dst : Fin 64) (num : BitVec 8), 2 ≤ t.alw.toNat →
      (num.toNat < 7 → (num = 4 → ∀ r ∈ s.reqs, r.task = tid → r.kind = .store) → ∃ s', exec (.sysrd g dst num) s = .next s' ∧
        AluDone s s' tid t group act 8 2 .n64 (.s dst) fun _ => (match num.toNat with
          | 0 => t.fpctl.toNat
          | 1 => t.quant.toNat
          | 2 => if t.exmode = .pause then 1 else 0
          | 3 => if t.det then 1 else 0
          | 4 => t.sealcnt.toNat
          | 5 => (s.kernelOf t).priv % 2 ^ 64
          | _ => t.zerochk.toNat, 0)) ∧
      (num = 4 → ((s.performAll fun r => r.task == tid && r.kind ≠ .store).reqs.any fun r => r.task == tid && r.kind ≠ .store) = true →
        exec (.sysrd g dst num) s = .next s) ∧
      (64 ≤ num.toNat → exec (.sysrd g dst num) s =
        .next (s.takeFault tid (t.record 0x02 (t.groupPc group) group act 0 0 false false)))) ∧
    (∀ (dst : Fin 64) (num : BitVec 8), t.alw.toNat < 2 → num ≠ 4 → Exhausts s tid t group (.sysrd g dst num) 2) ∧
    (∀ (src : Fin 64) (num : BitVec 8), t.alw.toNat < 4 → Exhausts s tid t group (.syswr g src num) 4) ∧
    (∀ (src : Fin 64) (num : BitVec 8), 4 ≤ t.alw.toNat →
      (num.toNat < 7 → ∃ s', exec (.syswr g src num) s = .next s' ∧
        let x := t.rdS s.tick src
        TaskDone s s' tid t (match num.toNat with
          | 0 => { t with fpctl := (x &&& 0x1F8) ||| (if (x &&& 7).toNat ≤ 4 then x &&& 7 else t.fpctl &&& 7) }
          | 1 => { t with quant := if x.toNat % 65536 = 0 then t.quant else x.setWidth 16, bbc := 0 }
          | 2 => { t with exmode := if x.getLsbD 0 then .pause else .unwind }
          | 6 => { t with zerochk := x &&& 0xFFFFFFFF00000001 }
          | _ => t) group 8 4) ∧
      (64 ≤ num.toNat → exec (.syswr g src num) s =
        .next (s.takeFault tid (t.record 0x02 (t.groupPc group) group act 0 0 false false)))) ∧
    (∀ us, 4 ≤ t.alw.toNat → t.isPlaced = true → t.saving = none → t.stop = none →
      ((t.sfOps ≠ [] ∨ (t.outs ≠ [] ∧ t.deferred = [] ∧ ∀ q ∈ k.fifoReqs, q.task ≠ tid)) → ∃ s' t', exec (.susp g us) s = .next s' ∧
        s'.task? tid = some t' ∧ t'.place = t.place ∧ t'.saving = some s.clock ∧ t'.suspended = true ∧ t'.canIssue = false ∧
        t'.alw = t.alw - 4 ∧ t'.sregs = t.sregs ∧ t'.vregs = t.vregs) ∧
      (t.outs = [] → t.sfOps = [] → t.waits = [] → (∀ r ∈ s.reqs, r.task ≠ tid) → s.NobodyWaits → ∃ s' t' sv,
        exec (.susp g us) s = .next s' ∧ s'.task? tid = some t' ∧ t'.place = .saved ∧ t'.saved = some sv ∧ sv.core = t.core ∧
        sv.delay = us.toNat * 1750 ∧ t'.suspended = false ∧ t'.saving = none ∧ t'.alw = t.alw - 4 ∧ t'.sregs = t.sregs ∧
        t'.vregs = t.vregs ∧ t'.preds = t.preds ∧ LanesEnd t t' group (t.suspends group)))) ∧
  (∀ (n w : Nat) (pc : BitVec 32) (num : Nat), pc.toNat % 32 = 0 → 7 ≤ num → num < 64 →
    let sysrd := 0x40000000003103C4 + num * 2 ^ 46
    let syswr := 0x40000000314003C8 + num * 2 ^ 46
    decode n w pc sysrd = .illegalInstruction 0x0C 0xFF (BitVec.ofNat 64 sysrd) ∧
    decode n w pc syswr = .illegalInstruction 0x0C 0xFF (BitVec.ofNat 64 syswr)) ∧
  (∀ (n w : Nat) (pc : BitVec 32) (raw : Nat) (num : BitVec 8), 7 ≤ num.toNat → num.toNat < 64 →
    (∀ g dst, decode n w pc raw ≠ .sysrd g dst num) ∧ ∀ g src, decode n w pc raw ≠ .syswr g src num) ∧
  ∀ (s : State) (task : Nat), (s.task? task = none → exec (.suspDelayExpiry task) s = .next s) ∧
    ∀ (t : Task) (sv : Saved), s.task? task = some t →
      (t.saved = none → exec (.suspDelayExpiry task) s = .next s) ∧
      (t.saved = some sv → (s.clock - sv.clock).toNat < sv.delay → exec (.suspDelayExpiry task) s = .next s) ∧
      (t.saved = some sv → sv.delay ≤ (s.clock - sv.clock).toNat → ∃ s', exec (.suspDelayExpiry task) s = .next s' ∧
        OnlyTask s s' task { t with saved := some { sv with delay := 0 } })

/-! ### Firmware and supervisor, host and power (spec/05_tasks.md, spec/09_system.md, spec/20_host_fabric.md, spec/21_bringup.md) -/

/-- R13, R21, R102, R108, R109, R367, R375, R396, R397: a placement takes, of the records that wait in its queue and find a free slot and room
in their arena, the one of highest priority that arrived first, and puts it into a free slot of its kernel with its private region; a
checkpoint that is pending places nothing; a steal moves a record of another die's distributor; a credit reaches the child's account or goes
back to its sender, which finds the outcome; a TOPUP.res resumes its paused child whatever its amount, 0 too (log 79); a starved task is
selected next. -/
def Obligations.PlacementAndCredits : Prop :=
  (∀ (s : State) (q : PlaceQueue) (pbase : BitVec 64),
    (s.placeable q = none → exec (.taskPlacement q pbase) s = .next s) ∧
    ∀ t core slot, s.placeable q = some (t, core, slot) → s.task? t.id = some t →
      let free (u : Task) : Prop := u ∈ s.tasks ∧ u.waitsIn q = true ∧ u.stop = none ∧ s.heldByOrdinal u = false ∧
        s.hasRoom u = true ∧ ∃ c ∈ coresFor q u, s.freeSlots c u.kernel u.vf u.asid ≠ []
      free t ∧ (∀ u, free u → u.prio.toNat ≤ t.prio.toNat ∧ (u.prio = t.prio → t.arrival ≤ u.arrival)) ∧
      core ∈ coresFor q t ∧ slot ∈ s.freeSlots core t.kernel t.vf t.asid ∧
      (s.pbaseOk t pbase = false ∨ s.tierPending = true → exec (.taskPlacement q pbase) s = .next s) ∧
      (s.pbaseOk t pbase = true → s.tierPending = false → ∃ s', exec (.taskPlacement q pbase) s = .next s' ∧ OthersStand s s' t.id ∧
        s'.task? t.id = some { t with place := .placed core slot, everPlaced := true, lastSelect := s.clock, pbase := pbase } ∧
        s' = { s with tasks := s'.tasks, cores := s'.cores, launches := s'.launches } ∧ (∀ c, c ≠ core → s'.core c = s.core c) ∧
        s'.core core = { s.core core with binds := (s.core core).binds.map fun b =>
          if b.slot = slot ∧ b.held = false then { b with held := true, since := s.clock } else b })) ∧
  (∀ (s : State) (die : Nat) (kernel : BitVec 32), die < 4 →
    let moved (t : Task) : State := s.updTask t.id fun u => { u with place := .distQ die }
    (∃ s', exec (.stealRequest die kernel) s = .next s' ∧ (s' = s ∨ ∃ t ∈ s.tasks, ∃ d, t.place = .distQ d ∧ d ≠ die ∧ t.kernel = kernel ∧
      t.det = false ∧ s' = moved t)) ∧
    ∀ i b t, i < 40 → (∀ j < i, (s.core (40 * die + j)).binds = []) → (s.core (40 * die + i)).binds = [b] → b.kernel = kernel →
      b.slot ∈ s.freeSlots (40 * die + i) kernel b.vf b.asid → s.oldest die b = none → s.oldest ((die + 1) % 4) b = some t →
      exec (.stealRequest die kernel) s = .next (moved t)) ∧
  (∀ (s : State) (n : Nat), (s.credits[n]? = none → exec (.topupCredit n) s = .next s) ∧
    ∀ (cr : Credit) (p : Task) (w : Wait) (dst : Fin 64), s.credits[n]? = some cr → s.task? cr.parent = some p →
      (p.waits.find? fun w => w.lanes == cr.lanes && (match w.kind with | .topup _ => true | _ => false)) = some w → w.kind = .topup dst →
      let ends (st : BitVec 64) (alw : BitVec 64) (more : State → Prop) : Prop := ∃ s' p', exec (.topupCredit n) s = .next s' ∧
        s'.task? cr.parent = some p' ∧ s'.credits = s.credits.eraseIdx n ∧ p'.alw = alw ∧ w ∉ p'.waits ∧ p'.vregs = p.vregs ∧
        (∀ q, p'.sreg q = if q = dst ∧ q ≠ 63 then st else p.sreg q) ∧ more s'
      (p.child? cr.child = none → ends 0xFF (p.alw + cr.amount) fun s' => OthersStand s s' cr.parent) ∧
      ∀ c, p.child? cr.child = some c →
        ((c.final ≠ none ∨ s.task? c.task = none) → ends 2 (p.alw + cr.amount) fun s' => OthersStand s s' cr.parent) ∧
        ∀ k, c.final = none → s.task? c.task = some k → c.task ≠ cr.parent →
          (k.isRetired = true → ends 2 (p.alw + cr.amount) fun s' => OthersStand s s' cr.parent) ∧
          (k.isRetired = false → k.stop ≠ none → ends 1 (p.alw + cr.amount) fun s' => OthersStand s s' cr.parent) ∧
          (k.isRetired = false → k.stop = none →
            (k.paused = false → ends 0 p.alw fun s' => s'.task? c.task = some { k with alw := k.alw + cr.amount }) ∧
            (k.paused = true → cr.res = false → ends 3 p.alw fun s' => s'.task? c.task = some { k with alw := k.alw + cr.amount }) ∧
            (k.paused = true → cr.res = true → k.pendingReplays = [] → k.deferred = [] → k.deferredCopies = [] →
              (∀ u ∈ s.tasks, ∀ v ∈ u.waits, match v.kind with | .mxWait _ _ => False | _ => True) → ends 3 p.alw fun s' => ∃ k', s'.task? c.task = some k' ∧ k'.paused = false ∧ k'.alw = k.alw + cr.amount))) ∧
  ∀ (s : State) (core spindle : Nat),
    ((s.spindle core spindle).gated ≠ none ∨ s.starved core spindle = [] → exec (.starvationSelect core spindle) s = .next s) ∧
    ((s.spindle core spindle).gated = none → s.starved core spindle ≠ [] → spindle < (s.core core).spindles.length →
      ∃ s' t, t ∈ s.starved core spindle ∧ exec (.starvationSelect core spindle) s = .next s' ∧
        (∀ u ∈ s.starved core spindle, (s.clock - u.lastSelect).toNat ≤ (s.clock - t.lastSelect).toNat) ∧
        (s'.spindle core spindle).forced = some (t.slot % 16) ∧ s' = { s with cores := s'.cores })

/-- R20, R22, R103, R106, R213-R216, R224, R367, R369: a task that may retire retires with its final status, which its parent's record takes
with what is left in its account; a pre-empted task with nothing outstanding is saved with its registers and its account as they were, any
other stops issuing until its results are back (log 18); a child on another device retires with a status and a remainder of that device's (log
15); a slice ends only when tasks have held the slot for it, gated cycles not counted (R379), and a task or a saved context of another
function waits for the slot; a load that stays out 3,500 cycles becomes a pending replay; a saved context is of VERSION 1, with its record and
its control block behind the header; a context resumes in a free slot of its kernel, but not while a checkpoint is pending (R375), and an
outstanding record returns to the core's fault queue (the generators of a context with GENMASK alone must be free too, log 111). -/
def Obligations.RetirementAndSaving : Prop :=
  (∀ (s : State) (task : Nat), (s.task? task = none → exec (.taskRetirement task) s = .next s) ∧
    ∀ (t : Task), s.task? task = some t → t.handlerFor = none →
      ((∀ d, t.place ≠ .remote d) → s.mayRetire t = false → exec (.taskRetirement task) s = .next s) ∧
      ((∀ d, t.place ≠ .remote d) → s.mayRetire t = true → ∃ s' t', exec (.taskRetirement task) s = .next s' ∧ s'.task? task = some t' ∧
        t'.place = .retired ∧ t'.stop = some (t.stop.getD .done) ∧
        ∀ p u, t.parent = some p → p ≠ task → s.task? p = some u → u.waits = [] → ∃ u', s'.task? p = some u' ∧
          u'.children.map (·.handle) = u.children.map (·.handle) ∧
          ∀ c ∈ u'.children, c.handle = t.handle → c.final = some (t.stop.getD .done) ∧ c.remainder = t'.alw ∧ c.paused = false) ∧
      (t.place = .remote s.deviceNo → exec (.taskRetirement task) s = .next s) ∧
      ∀ d, t.place = .remote d → d ≠ s.deviceNo → t.parent = none → ∃ s' t', exec (.taskRetirement task) s = .next s' ∧
        OnlyTask s s' task t' ∧ t'.place = .retired ∧ t'.stop ≠ none ∧ t'.alw.toNat ≤ t.alw.toNat) ∧
  (∀ (s : State) (core k : Nat) (t : Task), k < 64 → s.at_ core k = some t → s.task? t.id = some t → t.stop = none → t.saving = none →
    ((t.sfOps ≠ [] ∨ (t.outs ≠ [] ∧ t.deferred = [] ∧ ∀ q ∈ (s.core core).fifoReqs, q.task ≠ t.id)) → ∃ s' t', exec (.preempt core (laneBit k)) s = .next s' ∧
      s'.task? t.id = some t' ∧ t'.place = t.place ∧ t'.saving = some s.clock ∧ t'.canIssue = false ∧ t'.alw = t.alw ∧ t'.sregs = t.sregs ∧
      t'.vregs = t.vregs ∧ t'.lanes = t.lanes) ∧
    (t.outs = [] → t.sfOps = [] → t.waits = [] → (∀ r ∈ s.reqs, r.task ≠ t.id) → s.NobodyWaits → ∃ s' t' sv,
      exec (.preempt core (laneBit k)) s = .next s' ∧ s'.task? t.id = some t' ∧ t'.place = .saved ∧ t'.saved = some sv ∧ sv.core = core ∧
      (t.suspended = false → sv.delay = 0) ∧ t'.saving = none ∧ t'.alw = t.alw ∧ t'.sregs = t.sregs ∧ t'.vregs = t.vregs ∧
      t'.preds = t.preds ∧ t'.lanes = t.lanes)) ∧
  (∀ (s : State) (core : Nat) (slots : Mask) (binds : List BindRec),
    let due (k : Nat) : Prop := ∃ b, ((s.core core).binds.find? fun b => b.slot == k) = some b ∧ b.held = true ∧
      (s.vf b.vf).slice + s.gatedSpan core k b.since ≤ (s.clock - b.since).toNat ∧
      ∃ x ∈ binds, x.core = core ∧ x.slot = k ∧ x.vf ≠ b.vf ∧ ∃ t ∈ s.tasks, (t.isWaiting = true ∨ t.place = .saved) ∧ t.vf = x.vf ∧
        t.asid = x.asid ∧ t.kernel = x.kernel
    exec (.preempt core slots) s = .next (s.saveSlots core slots) ∧
    ((∃ k ∈ lanesOf slots, ¬ due k) → exec (.vfSliceExpiry core slots binds) s = .next s) ∧
    ((∀ k ∈ lanesOf slots, due k) → exec (.vfSliceExpiry core slots binds) s = .next
      (binds.foldl (fun s b => if slots.getLsbD b.slot = true ∧ b.core = core ∧ s.bindOk b = true then s.bind b else s) (s.saveSlots core slots)))) ∧
  (∀ (s : State) (task out : Nat) (t : Task), s.task? task = some t →
    let o? := t.outs.find? fun o => o.id == out && o.isLoad && !t.isDeferred o && o.lanes.any (fun a => a.val.isNone)
    let waits := t.sfOps ≠ [] ∨ ∃ x ∈ t.outs, x.id ≠ out ∧ t.isDeferred x = false
    (t.saving = none ∨ o? = none → exec (.loadWithdrawal task out) s = .next s) ∧
    ∀ since o, t.saving = some since → o? = some o →
      ((s.clock - since).toNat < 3500 → exec (.loadWithdrawal task out) s = .next s) ∧
      (3500 ≤ (s.clock - since).toNat → ∃ s' t' p, exec (.loadWithdrawal task out) s = .next s' ∧ s'.task? task = some t' ∧
        p ∈ t'.pendingReplays ∧ p.out = some o ∧ p.pc = o.pc ∧ p.group = o.group ∧ (∀ x ∈ t'.outs, x.id ≠ out) ∧ t'.vregs = t.vregs ∧
        (waits →
          t' = { t with outs := t.outs.filter fun x => x.id ≠ out, pendingReplays := t.pendingReplays ++ [p] } ∧
          s'.reqs = s.reqs.filter fun r => !(r.task == task && r.out == some out)) ∧
        (¬ waits → t'.place = .saved))) ∧
  (∀ (s : State) (t : Task) (sv : Saved), (s.contextImage t sv).getD 0 0 = 1 ∧
    ((s.contextImage t sv).drop 64).take 64 = (t.fault.getD FaultRec.zero).bytes ∧
    ((s.contextImage t sv).drop 128).take 128 = t.block (s.kernelOf t)) ∧
  ∀ (s : State) (task core slot : Nat) (t : Task), s.task? task = some t →
    ((t.place ≠ .saved ∨ t.saved = none) → exec (.contextResume task core slot) s = .next s) ∧
    ∀ sv, t.place = .saved → t.saved = some sv →
      (s.mayResume t sv core slot = false ∨ s.tierPending = true → exec (.contextResume task core slot) s = .next s) ∧
      (s.mayResume t sv core slot = true → s.tierPending = false → t.waits = [] →
        (∀ u ∈ s.tasks, ∀ w ∈ u.waits, match w.kind with | .mxWait _ _ | .bankset _ _ _ _ | .stl _ _ _ => False | _ => True) →
        let lanes := t.lanes.map fun x => if x.park = .susp then { x with park := .none } else x
        slot ∈ s.freeSlots core t.kernel t.vf t.asid ∧
        (t.fault = none → t.pendingReplays = [] → t.deferred = [] → t.deferredCopies = [] → ∃ s', exec (.contextResume task core slot) s = .next s' ∧
          s'.task? task = some { t with place := .placed core slot, everPlaced := true, lastSelect := s.clock, saved := none, lanes := lanes }) ∧
        ∀ r, t.fault = some r → (s.core core).ring.length = 128 → ∃ s', exec (.contextResume task core slot) s = .next s' ∧
          s'.task? task = some { t with place := .placed core slot, everPlaced := true, lastSelect := s.clock, saved := none, lanes := lanes
                                        fault := some { r with slot := BitVec.ofNat 6 slot } } ∧
          (s'.core core).ring.getD ((s.core core).fqTail.toNat % 128) FaultRec.zero = { r with slot := BitVec.ofNat 6 slot } ∧
          (s'.core core).fqTail = (s.core core).fqTail + 1)

/-- R201-R206, R211, R217: a write of FQHEAD never passes FQTAIL; windows are written only while their task is stopped for the supervisor, and
WCMD gives its commands; the fault queue's registers and records, a window's status, record (that of a trap 0x0A where no other is
outstanding, R98) and s registers read as they stand, WCMD reads zero (log 98); a command that does not apply sets WERR and does nothing; any
command ends a task cancelled over its record; REPLAY withdraws the record with every lane where it was, SKIP moves the lanes of GMASK past
their instruction, where a lane may arrive at its meeting (log 80), TERMINATE stops the task as FAULTED, HALT stops it at this boundary and
RELEASE lets it go on, ESCALATE hands a page or permission fault to the pager or handler and terminates any other in the same step (log 46);
the record at FQHEAD is acted on as the policy of its address space says (log 47), a handler's own by TERMINATE. -/
def Obligations.SupervisorCommands : Prop :=
  ∀ (s : State) (core slot : Nat),
    let k := s.core core
    let head (x : BitVec 8) : Prop := ∀ i, (i = Instr.fqheadWrite core x ∨ i = .controlSpaceWrite core 0 (x.setWidth 64)) → ∃ s', exec i s = .next s' ∧
      s' = { s with cores := s'.cores } ∧
      s'.core core = { k with fqHead := if (x - k.fqHead).toNat ≤ (k.fqTail - k.fqHead).toNat then x else k.fqHead }
    let set (off : Nat) (value : BitVec 64) : Instr := .controlSpaceWrite core (BitVec.ofNat 24 off) value
    let window (w : Nat) : Nat := 0x400000 + 0x10000 * slot + w
    let commands : List Instr := [.replay core slot, .skip core slot, .terminate core slot, .escalate core slot, .halt core slot,
      .release core slot]
    (∀ x, head x) ∧
    let reads (off : Nat) (x : BitVec 64) : Prop := s.controlRead core (BitVec.ofNat 24 off) = x
    (reads 0 (k.fqHead.setWidth 64) ∧ reads 8 (k.fqTail.setWidth 64) ∧ reads 0x10 (if k.fqIe then 1 else 0) ∧
      reads 0x20008 (if k.mxrst then 1 else 0) ∧
      ∀ i j, i < 128 → j < 8 → reads (0x10000 + 64 * i + 8 * j) ((k.ring.getD i FaultRec.zero).words.getD j 0)) ∧
    (∀ value, exec (set 0x10 value) s = .next (s.updCore core fun c => { c with fqIe := value.getLsbD 0 }) ∧
      exec (set 0x20008 value) s = .next (if value.getLsbD 0 then s.updCore core fun c => { c with mxrst := true } else s)) ∧
    (s.at_ core slot = none → slot < 64 → (∀ i ∈ commands, exec i s = .next s) ∧
      ∀ w value, w < 0x10000 → exec (set (window w) value) s = .next s) ∧
    ∀ (t : Task), s.at_ core slot = some t → s.task? t.id = some t → slot < 64 →
      let becomes (i : Instr) (u : Task) : Prop := ∃ s', exec i s = .next s' ∧ OnlyTask s s' t.id u
      let werr (i : Instr) : Prop := becomes i { t with werr := true }
      let cleared : Task := { t with fault := none, fetchFault := false, escalated := false, werr := false
                                     lanes := t.lanes.map fun x => if x.park = .fault then { x with park := .none } else x }
      let stops (i : Instr) : Prop := ∃ s' t', exec i s = .next s' ∧ s'.task? t.id = some t' ∧ t'.stop = some .faulted ∧ t'.fault = none ∧
        t'.waits = [] ∧ t'.canIssue = false ∧ t'.sregs = t.sregs ∧ t'.vregs = t.vregs
      (reads (window 8) 0 ∧ (∀ j, j < 8 → reads (window (0x40 + 8 * j)) (((t.fault.orElse fun _ => t.trapRec).getD FaultRec.zero).words.getD j 0)) ∧
        (∀ r : Fin 64, reads (window (0x200 + 8 * r.val)) (t.sreg r)) ∧ ∃ x : BitVec 64, reads (window 0) x ∧
          x.getLsbD 0 = t.fault.isSome ∧ x.getLsbD 1 = t.halted ∧ x.getLsbD 2 = t.suspended ∧ x.getLsbD 8 = t.insp ∧ x.getLsbD 9 = t.werr ∧
          x.toNat / 2 ^ 32 = t.id % 2 ^ 32) ∧
      (∀ value, (value = 1 → exec (set (window 8) value) s = exec (.replay core slot) s) ∧
        (value = 2 → exec (set (window 8) value) s = exec (.skip core slot) s) ∧
        (value = 3 → exec (set (window 8) value) s = exec (.terminate core slot) s) ∧
        (value = 4 → exec (set (window 8) value) s = exec (.escalate core slot) s) ∧
        (value = 5 → exec (set (window 8) value) s = exec (.halt core slot) s) ∧
        (value = 6 → exec (set (window 8) value) s = exec (.release core slot) s) ∧
        (value = 0 ∨ 6 < value.toNat → werr (set (window 8) value))) ∧
      (t.insp = false → ∀ w value, w % 8 = 0 → 0x80 ≤ w → w < 0x10000 → werr (set (window w) value)) ∧
      (t.insp = true →
        (∀ (r : Fin 64) value, becomes (set (window (0x200 + 8 * r.val)) value) (t.setS r value)) ∧
        (∀ (p : Fin 8) value, p ≠ 0 → becomes (set (window (0xF8 + 8 * p.val)) value) { t with preds := t.preds.set p.val value }) ∧
        (∀ value, becomes (set (window 0xB0) value) { t with dset := value } ∧ becomes (set (window 0xB8) value) { t with oset := value }) ∧
        (∀ l value, l < t.lanes.length → l < 64 → ∃ s' t', exec (set (window (0x400 + 16 * l)) value) s = .next s' ∧ OnlyTask s s' t.id t' ∧
          t' = { t with lanes := t'.lanes } ∧ t'.lanes.length = t.lanes.length ∧
          ∀ m, m < t.lanes.length → t'.lane m = if m = l then { t.lane m with pc := value.setWidth 32, link := (value >>> 32).setWidth 32 }
            else t.lane m) ∧
        (∀ r l value, r < (s.kernelOf t).n → l + 1 < (s.kernelOf t).w → l % 2 = 0 → (s.kernelOf t).w ∈ [16, 32, 64] →
          4 * (r * (s.kernelOf t).w + l) < 0xF000 → becomes (set (window (0x1000 + 4 * (r * (s.kernelOf t).w + l))) value)
            ((t.setV r l (value.setWidth 32)).setV r (l + 1) ((value >>> 32).setWidth 32)))) ∧
      (t.fault = none → werr (.replay core slot) ∧ werr (.skip core slot) ∧ werr (.escalate core slot) ∧
        (t.halted = false → werr (.terminate core slot) ∧ werr (.release core slot))) ∧
      (t.insp = true → (t.stop = none ∨ t.fault = none) → werr (.halt core slot)) ∧
      (t.insp = false → t.capLanes = [] → becomes (.halt core slot) { t with halted := true, werr := false }) ∧
      (t.halted = true → t.fault ≠ none → t.stop = none → werr (.release core slot)) ∧
      (t.halted = true → t.fault = none → t.capLanes = [] → becomes (.release core slot) { t with halted := false, werr := false }) ∧
      (t.stop ≠ none → t.fault ≠ none → ∀ i ∈ commands, becomes i { cleared with notice := none }) ∧
      (t.stop = none → (t.fault ≠ none ∨ t.halted = true) → stops (.terminate core slot)) ∧
      ∀ r, t.stop = none → t.fault = some r →
        (t.handlerFor = none → r.code = 0x05 ∨ r.code = 0x06 → becomes (.escalate core slot) { t with escalated := true, werr := false }) ∧
        ((t.handlerFor ≠ none ∨ (r.code ≠ 0x05 ∧ r.code ≠ 0x06)) → stops (.escalate core slot)) ∧
        (t.fetchFault = true → werr (.skip core slot)) ∧
        (t.deferred = [] → t.deferredCopies = [] → t.pendingReplays = [] → t.waits = [] → t.replayCap = [] →
          (∀ u ∈ s.tasks, ∀ w ∈ u.waits, match w.kind with | .mxWait _ _ => False | _ => True) →
          becomes (.replay core slot) cleared ∧
          (t.fetchFault = false → r.deferred = false → r.replayed = false → s.NobodyWaits → ∃ s' t', exec (.skip core slot) s = .next s' ∧
            s'.task? t.id = some t' ∧ OthersStand s s' t.id ∧ s' = { s with tasks := s'.tasks, vfs := s'.vfs } ∧
            t' = { cleared with lanes := t'.lanes, dset := t'.dset, oset := t'.oset } ∧ t'.lanes.length = t.lanes.length ∧
            (t.oset = 0 → t'.dset = 0 ∧ t'.oset = 0) ∧
            (∀ l, l < t.lanes.length → Settled t.lanes.length r.gmask (fun l => if r.gmask.getLsbD l then
              { cleared.lane l with
                pc := (t.lane l).pc + BitVec.ofNat 32 (match s.fetch t (t.lane l).pc with
                  | .bytes w => if w % 4 = 0 then 8 else if w % 4 = 1 then 12 else 16
                  | .bad _ _ _ _ => 8) }
              else cleared.lane l) l (t'.lane l)) ∧
            s'.vfs = if r.code = 0x14 ∧ (((s.asd t.asid).policy.getD 0x14 0) = 0 ∨ 4 < ((s.asd t.asid).policy.getD 0x14 0).toNat) ∧
              (s.vf t.vf).debugger = false then (s.count t.vf 3).vfs else s.vfs)) ∧
        (k.fqHead ≠ k.fqTail → k.ring.getD (k.fqHead.toNat % 128) FaultRec.zero = r → r.slot.toNat = slot → r.code ≠ 0x16 → r.code ≠ 0x0A →
          t.escalated = false → (t.handlerFor ≠ none → s.supervise core = some (.terminate core slot)) ∧
          (t.handlerFor = none →
          let act := ((s.asd t.asid).policy.getD r.code.toNat 0).toNat
          (act = 1 → s.supervise core = some (.terminate core slot)) ∧ (act = 2 → s.supervise core = some (.escalate core slot)) ∧
          (act = 3 → s.supervise core = some (if t.fetchFault then .terminate core slot else .skip core slot)) ∧
          ((act = 0 ∨ 4 < act) → s.supervise core = some (
            if r.code = 0x05 ∨ r.code = 0x06 ∨ r.code = 0x13 then .escalate core slot
            else if r.code = 0x14 then (if (s.vf t.vf).debugger then .escalate core slot else .skip core slot)
            else .terminate core slot))))

/-- R207-R210, R217, R218: the pager edits its page tables, with no members and in handler mode too (log 54), and answers every member of a
fault group; edits that would let the translations of a PAGER address space reach a 65th device are refused; a registered handler runs for an
escalated page fault at the faulting task's cost, with the record in its arguments; an invalidation leaves no entry of its range in any TLB,
a shootdown no result of its ASID in any seal cache; the reset of a matrix engine ends its operations for their participants and clears its
tiles, registers and contexts, each to the model's choice of an empty tile and a register of epoch 0 (log 53). -/
def Obligations.PagerHandlersAndInvalidations : Prop :=
  (∀ (s : State) (asid : BitVec 16) (page : BitVec 64) (edits : List (Nat × BitVec 64)) (serve : Bool),
    let a := s.asd asid
    let edited := edits.foldl (fun s e => s.homeWrite a.vf e.1 8 e.2.toNat) s
    (a.fmode = false → 64 < (edited.reached a).length → exec (.pagerFaultGroup asid page edits serve) s = .next s) ∧
    ((s.reached a).Nodup ∧ ∀ d, d ∈ s.reached a ↔ ∃ va l, walk s asid va = .ok l ∧ (l.base % 2 ^ 52) >>> 42 = d) ∧
    ((a.fmode = true ∨ (edited.reached a).length ≤ 64) →
      ((a.fmode = true ∨ ∀ t ∈ s.tasks, t.inGroup asid page = false) → ∀ pa x, edits = [(pa, x)] → (∀ i < 8, s.Canonical a.vf (pa + i)) →
        (∀ i < 8, s.zone (pa + i) ≠ .reserved) → ∃ s', exec (.pagerFaultGroup asid page edits serve) s = .next s' ∧ s'.tasks = s.tasks ∧
          s'.homeRead a.vf pa 8 = x.toNat ∧ s'.asds = s.asds ∧ ∀ b, s.Canonical a.vf b → (b < pa ∨ pa + 8 ≤ b) → s'.homeByte a.vf b = s.homeByte a.vf b) ∧
      ∀ t, a.fmode = false → edits = [] → s.tasks.filter (fun t => t.inGroup asid page) = [t] → s.task? t.id = some t → t.stop = none →
        (serve = true → t.deferred = [] → t.deferredCopies = [] → t.pendingReplays = [] → t.waits = [] → t.replayCap = [] →
          (∀ u ∈ s.tasks, ∀ w ∈ u.waits, match w.kind with | .mxWait _ _ => False | _ => True) →
          ∃ s' t', exec (.pagerFaultGroup asid page edits serve) s = .next s' ∧ OnlyTask s s' t.id t' ∧ t'.fault = none ∧
            t' = { t with fault := none, fetchFault := false, escalated := false, werr := false, lanes := t'.lanes }) ∧
        (serve = false → t.isPlaced = true → ∃ s' t', exec (.pagerFaultGroup asid page edits serve) s = .next s' ∧ s'.task? t.id = some t' ∧
          t'.stop = some .faulted ∧ t'.fault = none))) ∧
  (∀ (s : State) (task : Nat) (t : Task) (r : FaultRec) (k : Kernel), s.task? task = some t → t.fault = some r → t.stop = none →
    let a := s.asd t.asid
    let cost := 32 + a.handlerAlw.toNat
    (a.handlerKernel.bind fun k => s.kernel? t.asid k) = some k →
    (a.fmode = false ∨ t.escalated = false ∨ (∃ u ∈ s.tasks, u.handlerFor = some task ∧ u.isRetired = false) ∨
      (r.code ≠ 0x05 ∧ r.code ≠ 0x06) → exec (.handlerSpawn task) s = .next s) ∧
    (a.fmode = true → t.escalated = true → (∀ u ∈ s.tasks, u.handlerFor = some task → u.isRetired = true) → (r.code = 0x05 ∨ r.code = 0x06) →
      (t.alw.toNat < cost → exec (.handlerSpawn task) s =
        .next ((s.updTask task Task.clearFault).exhaust task (t.trapRecord r.pc r.gmask cost))) ∧
      (cost ≤ t.alw.toNat → s.nextTask ≠ task → ∃ s' h, exec (.handlerSpawn task) s = .next s' ∧ s'.tasks.getLast? = some h ∧
        s'.task? task = some { t with alw := t.alw - BitVec.ofNat 64 cost } ∧ h.id = s.nextTask ∧ h.handlerFor = some task ∧
        h.alw = a.handlerAlw ∧ h.kernel = k.kid ∧ h.asid = t.asid ∧ h.prin = t.prin ∧ h.place = .distQ t.die ∧
        h.lanes = List.replicate k.w (Lane.start a.handlerEntry) ∧
        h.sreg 1 = r.lmask ∧ h.sreg 2 = r.addr ∧ h.sreg 3 = r.alw ∧ h.sreg 4 = r.held ∧ h.sreg 5 = r.gmask ∧
        (h.sreg 0).toNat % 2 ^ 8 = r.code.toNat ∧ (h.sreg 0).toNat / 2 ^ 32 = r.pc.toNat ∧
        (h.sreg 7).toNat * 2 ^ 64 + (h.sreg 6).toNat = r.detail.toNat))) ∧
  (∀ (s : State) (asid : BitVec 16) (lo : BitVec 64) (len : Nat), ∃ s', exec (.tlbInvalidation asid lo len) s = .next s' ∧
    s' = { s with tlb := s'.tlb, dieTlb := s'.dieTlb } ∧
    let hit (e : TlbEntry) : Prop := e.asid = asid ∧ e.va < lo.toNat + len ∧ lo.toNat < e.va + e.leaf.size
    (∀ e, e ∈ s'.tlb ↔ e ∈ s.tlb ∧ ¬ hit e) ∧ ∀ e, e ∈ s'.dieTlb ↔ e ∈ s.dieTlb ∧ ¬ hit e) ∧
  (∀ (s : State) (asid : BitVec 16), ∃ s', exec (.sealCacheShootdown asid) s = .next s' ∧ s' = { s with seals := s'.seals } ∧
    ∀ e, e ∈ s'.seals ↔ e ∈ s.seals ∧ e.asid ≠ asid) ∧
  ∀ (s : State) (core : Nat),
    let k := s.core core
    let late := 2 ^ 20 < (s.clock - k.mxStepAt).toNat
    ((k.running = none ∨ ¬ late) → exec (.mxIdleExpiry core) s = .next s) ∧
    (k.running ≠ none → late → exec (.mxIdleExpiry core) s = exec (.mxrst core) s) ∧
    ((∀ u ∈ s.tasks, ∀ w ∈ u.waits, match w.kind with | .mxWait _ _ | .bankset _ _ _ _ => False | _ => True) →
      ∃ s', exec (.mxrst core) s = .next s' ∧ s' = { s with tasks := s'.tasks, cores := s'.cores } ∧
        s'.core core = { k with tiles := List.replicate 16 [], tileOwner := List.replicate 16 none, unwaited := 0
                                cvs := List.replicate 16 Cv.reset, gens := List.replicate 8 GCtx.reset, running := none, mxrst := false
                                mxStepAt := s.clock } ∧
        ∀ i, i < 16 → (k.cv i).state ≠ .idle → ∀ u ∈ s'.tasks, ∀ r ∈ u.mxRecs, r.core = core → r.cv = i → r.epoch = (k.cv i).epoch →
          r.fin ≠ none)

/-- R357, R358, R360-R364, R368, R370: a whole record enters its queue's ring, is counted as denied where the access-control table does not
name its sender, and completes with LSTAT 2 where the ring is full; admission takes the oldest, rejects it with the first case that fails, or
makes a launch whose pool is ALLOW; that the queues of all functions are served in one circle is log 101; the next ready node starts as a root
task with its allowance from the pool; a root's end gives its node a result and the pool what is left; a launch whose nodes all have one
writes its result block and advances its counter. -/
def Obligations.LaunchesRun : Prop :=
  (∀ (s : State) (vf queue : Nat) (sender : Sender) (w : BitVec 512), s.power = .open_ → 16 * vf + queue < s.queues.length →
    let q := s.queue vf queue
    let r := LaunchRec.of sender w
    let counted (x : BitVec 16) : BitVec 16 := if x = BitVec.allOnes 16 then x else x + 1
    let allowed := match sender with
      | .host | .resident => True
      | .peer dev asid => ∃ e ∈ q.acl, e.getLsbD 63 = true ∧ e.toNat % 2 ^ 10 = dev.toNat ∧ e.toNat / 2 ^ 16 % 2 ^ 16 = asid.toNat
    (¬ allowed → exec (.launchRecord vf queue sender w) s = .next (s.updQueue vf queue fun q => { q with denied := counted q.denied })) ∧
    (allowed → q.ring.length < 256 → ∃ s', exec (.launchRecord vf queue sender w) s = .next s' ∧ s' = { s with queues := s'.queues } ∧
      s'.queue vf queue = { q with ring := q.ring ++ [r] } ∧ ∀ i, i ≠ 16 * vf + queue → s'.queues[i]? = s.queues[i]?) ∧
    (sender = .host → 256 ≤ q.ring.length → s.hostBad vf r.rblk.toNat 16 = false → s.hostBad vf r.cctr.toNat 8 = false → r.rblk ≠ 0 →
      r.cctr.toNat % 8 = 0 →
      (r.cctr.toNat + 8 ≤ r.rblk.toNat ∨ r.rblk.toNat + 16 ≤ r.cctr.toNat) → ∃ s', exec (.launchRecord vf queue sender w) s = .next s' ∧
      (s'.queue vf queue).full = counted q.full ∧ (s'.queue vf queue).ring = q.ring ∧ s'.tasks = s.tasks ∧
      Store.readLE s'.hostMem r.rblk.toNat 16 = 2 + r.seq.toNat * 2 ^ 16 + r.allow.toNat * 2 ^ 64 ∧
      Store.readLE s'.hostMem r.cctr.toNat 8 = (Store.readLE s.hostMem r.cctr.toNat 8 + r.cadd.toNat) % 2 ^ 64 ∧
      ∀ a, (a < r.rblk.toNat ∨ r.rblk.toNat + 16 ≤ a) → (a < r.cctr.toNat ∨ r.cctr.toNat + 8 ≤ a) → Store.get s'.hostMem a = Store.get s.hostMem a) ∧
    exec (.tornWrite vf queue) s = .next (s.updQueue vf queue fun q => { q with torn := counted q.torn }) ∧
    (q.ring.length < 512 → s.launchWindowRead vf queue 0x40 = q.ring.length + q.full.toNat * 2 ^ 16 + q.denied.toNat * 2 ^ 32 + q.torn.toNat * 2 ^ 48) ∧
    ∀ off, off ≠ 0x40 → s.launchWindowRead vf queue off = 0) ∧
  (∀ (s : State) (vf queue : Nat), 16 * vf + queue < s.queues.length →
    let q := s.queue vf queue
    let turn (i : Nat) : Nat := (s.lastQueue + 1 + i) % 256
    ((q.ring = [] ∨ s.stopAdmission = true ∨ s.power ≠ .open_) → exec (.launchAdmission vf queue) s = .next s) ∧
    (∀ i j, i < j → j < 256 → turn j = 16 * vf + queue → (s.queue (turn i / 16) (turn i % 16)).ring ≠ [] →
      exec (.launchAdmission vf queue) s = .next s) ∧
    ∀ r rest, q.ring = r :: rest → s.stopAdmission = false → s.power = .open_ → vf < 16 → queue < 16 →
      (∃ j < 256, turn j = 16 * vf + queue ∧ ∀ i < j, (s.queue (turn i / 16) (turn i % 16)).ring = []) →
      let s0 : State := { s.updQueue vf queue fun q => { q with ring := rest } with lastQueue := 16 * vf + queue }
      let s1 := (s0.validate q r).1
      (∀ c, (s0.validate q r).2 = .error c →
        exec (.launchAdmission vf queue) s = .next (s1.completeRecord vf r r.allow.toNat 0 c 1)) ∧
      ∀ ns, (s0.validate q r).2 = .ok ns → ∃ s' l, exec (.launchAdmission vf queue) s = .next s' ∧ s'.launches = s.launches ++ [l] ∧
        s'.lastQueue = 16 * vf + queue ∧ l.pool = r.allow ∧ l.record = r ∧ l.vf = vf ∧ l.queue = queue ∧ l.done = false ∧ l.halted = false ∧
        l.nodes = ns.map (fun n => { n with readyAt := s.nextSeq }) ∧ s'.tasks = s.tasks ∧ (s'.queue vf queue).ring = rest) ∧
  (∀ (s : State) (vf queue : Nat), (s.nextNode vf queue = none → exec (.nodeStart vf queue) s = .next s) ∧
    ∀ l n, s.nextNode vf queue = some (l, n) →
      let q := s.queue vf queue
      let r := l.record
      let lcores := if r.det then s.boundCores n.kernel vf q.asid else []
      let take := if n.nalw = 0 then l.pool else n.nalw
      let s1 := if r.phase = q.lastPhase then s else s.phaseChange vf q r
      let s2 := s1.updQueue vf queue fun q => { q with lastPhase := r.phase }
      (((r.det = true ∧ lcores = []) ∨ s.stopAdmission = true) → exec (.nodeStart vf queue) s = .next s) ∧
      (¬ (r.det = true ∧ lcores = []) → s.stopAdmission = false →
        ((l.pool.toNat < take.toNat ∨ take = 0) → exec (.nodeStart vf queue) s = .next (s2.endNode l.id n.idx 5 0)) ∧
        (take.toNat ≤ l.pool.toNat → take ≠ 0 → ∃ s' t, exec (.nodeStart vf queue) s = .next s' ∧ s'.tasks = s.tasks ++ [t] ∧
          t.id = s.nextTask ∧ t.root = t.id ∧ t.place = .dispatch ∧ t.alw = take ∧ t.held = 0 ∧ t.kernel = n.kernel ∧ t.asid = q.asid ∧
          t.prin = q.prin ∧ t.vf = vf ∧ t.prio = r.prio ∧ t.ceil = r.prio ∧ t.det = r.det ∧ t.handle = BitVec.allOnes 32 ∧ t.lcores = lcores ∧
          t.launch = some (l.id, n.idx) ∧ (∃ w, t.lanes = List.replicate w (Lane.start n.entry) ∧
            ∀ k, s.kernel? q.asid n.kernel = some k → w = k.w) ∧
          (∀ i : Fin 64, t.sreg i = if i = 63 then (0 : BitVec 64) else n.args.getD i.val 0) ∧
          ∀ l0, s.launch? l.id = some l0 → ∃ l', s'.launch? l.id = some l' ∧ l'.pool = l0.pool - take ∧
            l'.nodes = l0.nodes.map fun m => if m.idx = n.idx then { m with started := true, task := some t.id } else m))) ∧
  (∀ (s : State) (launch node : Nat),
    let n? := (s.launch? launch).bind fun l => l.nodes.find? fun n => n.idx == node
    (n? = none → exec (.nodeCompletion launch node) s = .next s) ∧
    ∀ n, n? = some n →
      ((n.result ≠ none ∨ (∀ t, n.task.bind s.task? = some t → t.isRetired = false)) → exec (.nodeCompletion launch node) s = .next s) ∧
      ∀ t l, s.launch? launch = some l → n.result = none → n.task.bind s.task? = some t → t.isRetired = true → n.started = true →
        ∃ s' l', exec (.nodeCompletion launch node) s = .next s' ∧ s'.launch? launch = some l' ∧ l'.pool = l.pool + t.alw ∧ s'.tasks = s.tasks ∧
          ∀ m ∈ l'.nodes, m.idx = node → m.result = some (BitVec.ofNat 8 (t.stop.getD .done).code.toNat)) ∧
  ∀ (s : State) (launch : Nat) (l : Launch), s.launch? launch = some l →
    ((l.done = true ∨ ∃ n ∈ l.nodes, n.result = none) → exec (.launchCompletion launch) s = .next s) ∧
    (l.done = false → (∀ n ∈ l.nodes, n.result ≠ none) → s.reqs = [] →
      let r := l.record
      let nrun := (l.nodes.filter (·.placed)).length
      let s1 := s.released .system
      ∃ s' l', exec (.launchCompletion launch) s = .next s' ∧ s'.launch? launch = some l' ∧ l'.done = true ∧ l'.pool = l.pool ∧
        s'.tasks = s.tasks ∧ (l.hostReset = true → (s.vf l.vf).ringOn = false → s'.hostMem = s1.hostMem ∧ s'.mem = s1.mem) ∧
        (l.hostReset = true → (s.vf l.vf).ringOn = true → l.vf < s.vfs.length →
          EventNoted s1 s' l.vf (eventWord 4 (s.queue l.vf l.queue).asid.toNat 0 s.clock.toNat 0 0 0)) ∧
        (l.hostReset = false → r.sender = .host → r.rblk ≠ 0 → r.cctr.toNat % 8 = 0 → nrun < 2 ^ 16 →
          s.hostBad l.vf r.rblk.toNat 16 = false → s.hostBad l.vf r.cctr.toNat 8 = false →
          (r.cctr.toNat + 8 ≤ r.rblk.toNat ∨ r.rblk.toNat + 16 ≤ r.cctr.toNat) →
          Store.readLE s'.hostMem r.rblk.toNat 16 = r.seq.toNat * 2 ^ 16 + nrun * 2 ^ 32 + l.pool.toNat * 2 ^ 64 ∧
          Store.readLE s'.hostMem r.cctr.toNat 8 = (Store.readLE s1.hostMem r.cctr.toNat 8 + r.cadd.toNat) % 2 ^ 64))

/-- R13, R21, R171, R207, R357, R366, R367, R369, R376, R377, R393-R395: what the owner sets for queues, access control, address spaces,
slots and mirrors; the header of an event ring that it sets or moves holds the write index, the losses, the six counters and zeros; a remote
spawn request that finds its context bound becomes a task, one that does not waits, and one that is refused is counted; a context torn down
refuses what waits for it; the loader registers an image's kernels all or none, with its result. That QUEUE_SETTINGS carries the function's
settings is log 55; that the bind record carries SLIM, the descriptor whether the context is suspended, and the settings the image's ranges,
log 100; what the header holds when a ring is set, log 104; an event without an effect where the loader is given too few frames, log 33; which
devices count against the limit, log 54. -/
def Obligations.OwnersSettings : Prop :=
  (∀ (s : State) (vf queue idx : Nat) (entry : BitVec 64), 16 * vf + queue < s.queues.length →
    (∃ s', exec (.accessControlTable vf queue idx entry) s = .next s' ∧ s' = { s with queues := s'.queues } ∧
      s'.queue vf queue = { s.queue vf queue with acl := listUpd (s.queue vf queue).acl idx fun _ => entry } ∧
      ∀ i, i ≠ 16 * vf + queue → s'.queues[i]? = s.queues[i]?) ∧
    ∀ (asid : BitVec 16) (prin : BitVec 24) (base : BitVec 64) (size : Nat) (sealId : BitVec 20),
      (∃ s', exec (.queueSettings vf queue asid prin base size sealId none) s = .next s' ∧ s' = { s with queues := s'.queues } ∧
        s'.queue vf queue =
          { s.queue vf queue with asid := asid, prin := prin, arenaBase := base, arenaSize := size, arenaSeal := sealId } ∧
        ∀ i, i ≠ 16 * vf + queue → s'.queues[i]? = s.queues[i]?) ∧
      ∀ own : VfSettings, vf < s.vfs.length → ∃ s' f, exec (.queueSettings vf queue asid prin base size sealId (some own)) s = .next s' ∧
        f = s'.vf vf ∧ f.ringBase = own.ringBase ∧ f.ringK = own.ringK ∧ f.hostBase = own.hostBase ∧ f.slice = own.slice ∧
        f.spillLimit = own.spillLimit ∧ f.debugger = own.debugger ∧ (f.ringOn = true → 6 ≤ f.ringK ∧ f.ringK ≤ 20) ∧
        f.counters = (s.vf vf).counters ∧ s'.selfHosted = own.selfHosted ∧ s'.coupled = own.coupled ∧
        s'.tierRanges = own.tierRanges ∧ s'.tasks = s.tasks ∧ ((s.vf vf).ringOn = false → own.ringOn = true → f.wptr = 0 ∧ f.lost = 0) ∧
        let s2 : State := { s with queues := s'.queues, vfs := s'.vfs }
        let v := (s.asd (s2.queue vf 0).asid).vf
        let setOrMoved := f.ringOn = true ∧ ¬ ((s.vf vf).ringOn = true ∧ (s.vf vf).ringBase = own.ringBase)
        (¬ setOrMoved → s'.mem = s.mem ∧ s'.l2 = s.l2 ∧ s'.hostMem = s.hostMem) ∧
        ∀ m, setOrMoved → RingMapped s2 vf ringHeaderWords m → s'.homeRead v (m 0) 8 = f.wptr.toNat ∧ s'.homeRead v (m 16) 8 = f.lost.toNat ∧
          (∀ i < 13, s'.homeRead v (m (24 + 8 * i)) 8 = (f.counters.getD i 0).toNat) ∧
          (∀ i < 13, f.counters.length ≤ i → s'.homeRead v (m (24 + 8 * i)) 8 = 0) ∧
          ∀ pa, s2.Canonical v pa → (∀ o ∈ ringHeaderWords, pa < m o ∨ m o + 8 ≤ pa) → s'.homeByte v pa = s.homeByte v pa) ∧
  (∀ (s : State) (x : AsdArgs),
    let pager := x.desc.toNat.testBit 53 = false
    let devices := distinct (tableDevices s x.vf [1, 2, 3, 4, 5] ((x.desc.extractLsb' 12 40).toNat * 4096))
    (pager → 64 < devices.length → exec (.addressSpaceDescriptor x) s = .next s) ∧
    (¬ pager ∨ devices.length ≤ 64 → ∃ s', exec (.addressSpaceDescriptor x) s = .next s' ∧ s' = { s with asds := s'.asds } ∧
      (∀ a, a ≠ x.asid → s'.asd a = s.asd a) ∧
      let a := s'.asd x.asid
      a.vf = x.vf ∧ a.strict = x.desc.toNat.testBit 52 ∧ a.fmode = x.desc.toNat.testBit 53 ∧ a.rootFrame = x.desc.extractLsb' 12 40 ∧
      a.gtab = x.desc.extractLsb' 64 51 ∧ a.gk = x.desc.extractLsb' 115 5 ∧ a.policy = x.policy ∧ a.handlerKernel = x.handlerKernel ∧
      a.handlerEntry = x.handlerEntry ∧ a.handlerAlw = x.handlerAlw ∧ a.devices = x.devices ∧ a.suspended = x.suspended ∧
      a.torn = false)) ∧
  (∀ (s : State) (b : BindRec), (s.bindOk b = false → exec (.bindRecord b) s = .next s) ∧
    (s.bindOk b = true → ∃ s', exec (.bindRecord b) s = .next s' ∧ s'.tasks = s.tasks ∧
      (s'.core b.core).binds = (s.core b.core).binds.filter (fun x => x.slot ≠ b.slot) ++
        [{ slot := b.slot, kernel := b.kernel, vf := b.vf, asid := b.asid, held := false, since := s.clock }] ∧
      (s'.core b.core).slim = b.slim.getD (s.core b.core).slim ∧
      ∀ i, i < 16 → (s.core b.core).banks.length = 16 → b.cacheBanks.getLsbD i = true →
        ∃ x, (s'.core b.core).banks[i]? = some x ∧ x.mode = .cache ∧ x.owner = some (kkey b.asid b.kernel))) ∧
  (∀ (s : State) (vf : Nat), ((s.vf vf).ringOn = false → exec (.counterMirror vf) s = .next s) ∧
    ((s.vf vf).ringOn = true → exec (.counterMirror vf) s = .next ((List.range 6).foldl (fun s' i =>
      s'.vWrite8 (s.queue vf 0).asid ((s.vf vf).ringBase.toNat + 24 + 8 * i) ((s.vf vf).counters.getD i 0).toNat) s))) ∧
  (∀ (s : State) (r : SpawnxReq), s.tierPending = true → s.inbound.contains r = false →
    exec (.spawnxRequest r) s = .next { s with heldHost := s.heldHost ++ [.spawnxRequest r] }) ∧
  (∀ (s : State) (r : SpawnxReq), r.dev ≠ s.deviceNo → s.inbound.contains r = false → s.tierPending = false →
    let refused := 4096 ≤ (s.inbound.filter fun x => x.asid == r.asid).length ∨ s.kernel? r.asid r.kernel = none ∨ (s.asd r.asid).torn = true
    let bound := (s.asd r.asid).suspended = false ∧ ∃ c ∈ s.cores, ∃ b ∈ c.binds, b.asid = r.asid
    let waits := ∃ x ∈ s.inbound, x.asid = r.asid
    (refused → exec (.spawnxRequest r) s = .next (s.count (s.asd r.asid).vf 4)) ∧
    (¬ refused → (¬ bound ∨ waits) → exec (.spawnxRequest r) s = .next { s with inbound := s.inbound ++ [r] }) ∧
    (¬ refused → bound → ¬ waits → ∃ s' t d, exec (.spawnxRequest r) s = .next s' ∧ s'.tasks = s.tasks ++ [t] ∧ t.id = s.nextTask ∧
      t.place = .distQ d ∧ d < 4 ∧ t.alw = r.alw ∧ t.kernel = r.kernel ∧ t.asid = r.asid ∧ t.prin = r.prin ∧ t.prio = r.prio ∧
      t.ceil = r.ceil ∧ t.handle = r.handle ∧ t.fpctl = r.fpctl ∧ t.viaSpawnx = true ∧
      (∀ k, s.kernel? r.asid r.kernel = some k → t.lanes = List.replicate k.w (Lane.start r.entry)) ∧
      ∀ i : Fin 64, i.val < r.argc → i ≠ 63 → t.sreg i = r.args.getD i.val 0)) ∧
  (∀ (s : State) (asid : BitVec 16), ∃ s', exec (.teardown asid) s = .next s' ∧ (s'.asd asid).torn = true ∧
    (∀ r ∈ s'.inbound, r.asid ≠ asid) ∧ (∀ r ∈ s.inbound, r.asid ≠ asid → r ∈ s'.inbound) ∧ ∀ a, a ≠ asid → s'.asd a = s.asd a) ∧
  ∀ (s : State) (x : LoadArgs), s.power = .open_ →
    let t := Tables.of x.image
    let place := t.place x.base.toNat
    let answers (r : List (BitVec 8)) : Prop := exec (.load x) s = .next { s with loadResults := s.loadResults ++ [r] }
    let badKernels := (∃ k ∈ t.kernels, k.ok = false) ∨ 2 ^ 32 < x.kid.toNat + t.kernels.length ∨
      ∃ i < t.kernels.length, s.kernel? x.asid (x.kid + BitVec.ofNat 32 i) ≠ none
    let fine (r : Reloc) : Prop := r.rejected t (t.fix place r) = none
    (headerOk x.image = false → answers (loadFailed 1)) ∧
    (headerOk x.image = true → badKernels → answers (loadFailed 7)) ∧
    (headerOk x.image = true → ¬ badKernels →
      (s.noSpace x t = true → answers (loadFailed 6)) ∧
      (s.noSpace x t = false →
        (∀ n r c, t.relocs[n]? = some r → (∀ (m : Nat) (q : Reloc), m < n → t.relocs[m]? = some q → fine q) →
          r.rejected t (t.fix place r) = some c → answers (relocFailed s.tick c x.image t n r (t.fix place r))) ∧
        ((∀ r ∈ t.relocs, fine r) →
          let pages := pagesOf t place (t.contents x.image place)
          (s.framesOk x pages = false → exec (.load x) s = .next s) ∧
          (s.framesOk x pages = true → ∃ s', exec (.load x) s = .next s' ∧ s'.tasks = s.tasks ∧ s'.kernels = s.kernels ++ t.register x ∧
            s'.loadResults = s.loadResults ++ [loadRecord 0 0 0 0xFFFFFFFF 0 0 [] x.kid.toNat x.base.toNat]))))

/-- R366, R370-R375, R379: the aperture reads and writes the memory of its address space a byte for a byte, and counts an access without
translation; a hot reset clears the whole device, or the host's part of a self-hosted one; boot opens the windows over cleared memory, or
reports the first step that failed; an attestation report carries its nonce; freeze stops every clock; a checkpoint of an idle device leaves
a complete image in the host's ranges with its trailer, and a restore brings memory and contexts back from one whose digest matches, with
numbers for later launches above the image's; a gated spindle issues nothing. The aperture's cut at 2^36 and the marks that it leaves are
log 61; what a hot reset keeps, log 60; that admission stays stopped after a checkpoint, and what an image holds besides memory, log 58; the
order of an image's bytes, log 116. -/
def Obligations.HostAndPower : Prop :=
  (∀ (s : State) (vf : Nat) (off : BitVec 36) (len : Nat) (data : List (BitVec 8)),
    (s.power ≠ .open_ → exec (.apertureRead vf off len) s = .next { s with hostReads := s.hostReads ++ [List.replicate len 0] } ∧
      exec (.apertureWrite vf off data) s = .next s) ∧
    (s.power = .open_ → s.tierPending = true →
      exec (.apertureWrite vf off data) s = .next { s with heldHost := s.heldHost ++ [.apertureWrite vf off data] }) ∧
    ∀ l, s.power = .open_ → walk s (s.queue vf 0).asid off.toNat = .ok l →
      let q := s.queue vf 0
      let v := (s.asd q.asid).vf
      let pa := l.pa off.toNat
      s.isUe (lineAddr pa) = false → l.bypass = false → s.Canonical v pa → pa % 128 = off.toNat % 128 → s.l2.length < Config.l2Lines →
      (0 < len → off.toNat % 128 + len ≤ 128 → off.toNat + len ≤ 2 ^ 36 → l.r = true → s.fwGranted q.asid q.prin l pa false = true →
        ∃ s', exec (.apertureRead vf off len) s = .next s' ∧ s'.tasks = s.tasks ∧
          s'.hostReads = s.hostReads ++ [(List.range len).map fun i => s'.homeByte v (pa + i)] ∧
          ∀ b, s.Canonical v b → (∀ i < 8, b ≠ s.canon v (l.pte + i)) → s'.homeByte v b = s.homeByte v b) ∧
      (s.tierPending = false → data ≠ [] → off.toNat % 128 + data.length ≤ 128 → off.toNat + data.length ≤ 2 ^ 36 → l.w = true →
        s.zone pa ≠ .reserved → s.fwGranted q.asid q.prin l pa true = true →
        ∃ s', exec (.apertureWrite vf off data) s = .next s' ∧ s'.tasks = s.tasks ∧
          (∀ (i : Nat) (b : BitVec 8), data[i]? = some b → s'.homeByte v (pa + i) = b) ∧
          ∀ b, s.Canonical v b → (∀ i < 8, b ≠ s.canon v (l.pte + i)) → (b < pa ∨ pa + data.length ≤ b) → s'.homeByte v b = s.homeByte v b)) ∧
  (∀ s : State,
    (s.power = .frozen → exec .upstreamHotReset s = .next s) ∧
    (s.power ≠ .frozen → (s.selfHosted = false ∨ s.coupled = true) → ∃ s', exec .upstreamHotReset s = .next s' ∧ s'.power = .off ∧
      s'.tasks = [] ∧ s'.cores = [] ∧ s'.launches = [] ∧ s'.kernels = [] ∧ s'.reqs = [] ∧ s'.queues = State.reset.queues ∧ s'.mem = s.mem ∧
      s'.tier = s.tier ∧ s'.flash = s.flash ∧ s'.deviceNo = s.deviceNo) ∧
    (s.power ≠ .frozen → s.selfHosted = true → s.coupled = false → ∃ s', exec .upstreamHotReset s = .next s' ∧ s'.power = s.power ∧
      s'.kernels = s.kernels ∧ s'.asds = s.asds ∧ ∀ q ∈ s'.queues, ∀ r ∈ q.ring, r.sender ≠ .host) ∧
    (s.power ≠ .off → exec .verifiedBoot s = .next s) ∧
    (s.power = .off →
      (∀ n, s.bootFails = some n → exec .verifiedBoot s = .next { s with power := .recovery, reports := s.reports ++ [[n]] }) ∧
      (s.bootFails = none → ∃ s', exec .verifiedBoot s = .next s' ∧ s'.power = .open_ ∧ s'.running = s.flash ∧
        ∀ vf pa, s.zone pa = .hbm → s'.homeByte vf pa = 0)) ∧
    (∀ vf nonce, (s.power ≠ .open_ ∨ 16 ≤ vf → exec (.attestationRequest vf nonce) s = .next s) ∧
      (s.power = .open_ → vf < 16 → ∃ s' r, exec (.attestationRequest vf nonce) s = .next s' ∧ s' = { s with reports := s.reports ++ [r] } ∧
        r.length = 4907 ∧ ofBytesLE ((r.drop 8).take 64) = nonce.toNat ∧ ofBytesLE ((r.drop 272).take 8) = s.clock.toNat)) ∧
    (∀ i, (i = .frzN ∨ i = .freeze) → ∃ s', exec i s = .next s' ∧ s' = { s with power := .frozen, tierPending := false, tier := s'.tier } ∧
      (s.tierPending = false → s'.tier = s.tier) ∧ (s.tierPending = true → ∃ x, s'.tier = some x ∧ x.complete = false)) ∧
    (s.power ≠ .open_ → exec .checkpoint s = .next s) ∧
    (s.power = .open_ → (∀ t ∈ s.tasks, t.isPlaced = false) → (∀ c ∈ s.cores, c.copies = []) → (∀ l ∈ s.l2, l.dirty = false) →
      ∃ s' x, exec .checkpoint s = .next s' ∧ s'.tier = some x ∧ x.complete = true ∧ s'.stopAdmission = true ∧ s'.tierPending = false ∧
        s'.tasks = s.tasks ∧ s'.heldHost = [] ∧ s'.agenda = s.heldHost.map Turn.event ++ s.agenda ∧ x.vfs = s.vfs ∧ x.plies = s.plies ∧
        x.plyGens = s.plyGens ∧ x.credits = s.credits ∧ x.inbound = s.inbound ∧ x.ranges = s.tierRanges ∧
        x.mem = s.mem.filter (fun c => s.zone c.1 = .hbm) ∧ x.tasks = s.tasks.filter (fun t => !t.isRetired) ∧
        x.digest = Config.sha3 (s'.imageBytes x.mem x.tasks) ∧
        ((∀ o p h, tierAt s.tierRanges o = some h → tierAt s.tierRanges p = some h → o = p) →
          (∀ pa h, pa < 2 ^ 52 → s.zone pa = .hbm → tierAt s.tierRanges (pa % 2 ^ 42) = some h → Store.get s'.hostMem h = Store.get s.mem pa) ∧
          (∀ (k : Nat) (b : BitVec 8) h, (tierTrailer x.digest)[k]? = some b → tierAt s.tierRanges (Config.hbmBytes + k) = some h →
            Store.get s'.hostMem h = b) ∧
          ∀ h, (∀ o, o < Config.hbmBytes + 72 → tierAt s.tierRanges o ≠ some h) → Store.get s'.hostMem h = Store.get s.hostMem h)) ∧
    (s.tier = none → exec .restore s = .next s) ∧
    (∀ x, s.tier = some x →
      let digest := Config.sha3 ((s.withImage x).imageBytes (s.tierMem x.ranges) x.tasks)
      let trailer := ∀ k < 72, (tierTrailer digest)[k]? = some (s.tierByte x.ranges (Config.hbmBytes + k))
      (s.power ≠ .open_ ∨ x.complete = false ∨ ¬ trailer ∨ (∃ t ∈ s.tasks, t.isPlaced = true) → exec .restore s = .next s) ∧
      (s.power = .open_ → x.complete = true → trailer → (∀ t ∈ s.tasks, t.isPlaced = false) → Memory.wf s.hostMem = true →
      ∃ s', exec .restore s = .next s' ∧ s'.tasks = x.tasks ∧ s'.launches = x.launches ∧ s'.vfs = x.vfs ∧ s'.plies = x.plies ∧
        s'.plyGens = x.plyGens ∧ s'.credits = x.credits ∧ s'.inbound = x.inbound ∧ s'.stopAdmission = false ∧
        (∀ vf pa, pa < 2 ^ 52 → s.zone pa = .hbm → (∀ o p h, tierAt x.ranges o = some h → tierAt x.ranges p = some h → o = p) →
          s'.homeByte vf pa = s.tierByte x.ranges (pa % 2 ^ 42)) ∧ (∀ t ∈ x.tasks, t.id < s'.nextTask) ∧
        s.nextSeq ≤ s'.nextSeq ∧ (∀ l ∈ x.launches, l.id < s'.nextSeq) ∧ ∀ t ∈ x.tasks, t.arrival < s'.nextSeq))) ∧
  ∀ (s : State) (core spindle : Nat), spindle < (s.core core).spindles.length →
    let was := (s.spindle core spindle).gated
    (was = none → exec (.issueGating core spindle false) s = .next s ∧ ∃ s', exec (.issueGating core spindle true) s = .next s' ∧
      s' = { s with cores := s'.cores } ∧ (s'.spindle core spindle).gated = some s.clock ∧ ∀ run, s'.choose run core spindle = none) ∧
    ∀ g, was = some g → exec (.issueGating core spindle true) s = .next s ∧ ∃ s', exec (.issueGating core spindle false) s = .next s' ∧
      (s'.spindle core spindle).gated = none ∧ s'.mem = s.mem

/-! ### The machine as a whole -/

/-- R24-R27, R43, R70, R71, R110, R268, R373: a step is one turn. A frozen device stands. A spindle's turn whose only task is ready runs the
instruction that decodes from the bytes at the PC of its head group, behind any FILL4, and a second one where two may issue together; a
body's turn runs the step that its word decodes to; an event's turn runs the event; then a cycle passes and nobody issues. That a step is one
turn of an agenda is log 3, the cycles that pass besides, log 13, and what waits behind an LDA, log 94. -/
def Obligations.StepRunsTheDecodedInstruction : Prop :=
  (∀ s : State, s.power = .frozen → step s = .next s) ∧
  (∀ s : State, s.pass.tick = s.tick + 1 ∧ s.pass.cur = .idle ∧ s.pass.clock = s.clock + 1 + BitVec.ofNat 64 (Config.idle s.tick) ∧
    s.pass = { s with tick := s.pass.tick, clock := s.pass.clock, cur := s.pass.cur }) ∧
  ∀ (s : State) (rest : List Turn), s.power = .open_ →
    let s0 : State := { s with agenda := rest }
    let ends (o : Host.Outcome State Fault Refusal) : Prop := step s = onNext o State.pass
    (∀ i, s.agenda = .event i :: rest → ends (exec i s0)) ∧
    (∀ task lane w i, s.agenda = .capStep task lane :: rest → (s0.rotateBody task lane).bodyFetch task lane = .word w →
      decodeBody (BitVec.ofNat 64 w) = some i → ends (exec i { s0.rotateBody task lane with cur := .body task lane })) ∧
    (∀ task, s.agenda = .redo task :: rest → step s = .next (s0.goOn task).pass) ∧
    ∀ (core sp k : Nat) (t : Task) (w : Nat), s.agenda = .issue core sp :: rest → sp < 4 → k < 16 → s.task? t.id = some t →
      t.place = .placed core (16 * sp + k) → (∀ u ∈ s.tasks, ∀ j < 16, u.place = .placed core (16 * sp + j) → u = t) →
      (s.spindle core sp).gated = none → (s.spindle core sp).forced = none → t.canIssue = true →
      let u := s0.skipFill t
      let group := u.headGroup
      let pc := u.pcOf group
      let kernel := s.kernelOf t
      let i := decode kernel.n kernel.w pc w
      let s1 := s0.noteSelect core sp u
      let s2 := s1.issuing { u with lastSelect := s.clock } group
      group ≠ 0 → u.windowsOpen group = true → u.sFree group i = true → (u.acquiring && i.accessesNow) = false → t.after = none → s0.fetch u pc = .bytes w →
      waits u (exec i { s0.updTask t.id (fun _ => u) with cur := .group t.id group }) = false →
      Issues s2 t.id { u with lastSelect := s.clock } group ∧ OthersStand s s2 t.id ∧ s2.tick = s.tick ∧ s2.clock = s.clock ∧
      (∃ l, s0.xlate core t.asid (fetchVa kernel pc) = .ok l ∧ l.x = true ∧
        w = s0.serveRead (s.asd t.asid).vf l.bypass (l.pa (fetchVa kernel pc)) (32 - pc.toNat % 32)) ∧
      (s1.coIssue { u with lastSelect := s.clock } group i = none → ends (exec i s2)) ∧
      ∀ j i2 s3, s1.coIssue { u with lastSelect := s.clock } group i = some (j, i2) → exec i s2 = .next s3 →
        ((s3.task? t.id).map Task.canIssue).getD false = true →
        ends (exec i2 { s3.fetchTouch { u with lastSelect := s.clock } (u.pcOf j) with cur := .group t.id j })

/-- The words that the spec writes out for these instructions (R28-R32, R38, R84, R119, R159, R165, R224, R248, R276, R278, R305, R326,
R348) decode to them, in a kernel with 192 registers and width 16. -/
def Obligations.SpecWordsDecode : Prop :=
  let p0 : Guard := { neg := false, p := 0 }
  let is (w : Nat) (i : Instr) : Prop := decode 192 16 0 w = i
  is 0 (.nop p0) ∧ is 0x0000003FFFFF4004 (.bra p0 0xFFFFFD) ∧
  is 0x0000000240C14100 (.iadd { g := p0, ty := .i32, dst := .v 5, a := .v 3, b := .reg (.v 9) }) ∧
  is 0x4FF012C002020180 (.fadd { g := { neg := true, p := 3 }, ty := .f32, dst := .v 8, a := .v 8, b := .imm 0x3FC0 }) ∧
  is 0x0000000D0000100302C2818D
    (.ffma { g := p0, ty := .f32, dst := .v 10, a := .v 11, b := .reg (.v 12), c := .v 13 }) ∧
  is 0x00000040080307880000000002010403
    (.pair (.alu2 .iadd { g := p0, ty := .i32, dst := .v 4, a := .v 1, b := .reg (.v 2) })
      (.alu2 .fmul { g := p0, ty := .f32, dst := .v 7, a := .v 3, b := .reg (.v 8) })) ∧
  is 0x00000400031900000000003230B10082
    (.spawn { g := p0, dst := 4, alw := 2, arg0 := 8, argc := 3, entry := 0x400, hint := 0, prio := some 2, exm := 1 }) ∧
  is 0x000010000101820C (.sfExp2 { g := p0, ty := .f32, tok := 0, dst := 6, a := .v 4 }) ∧
  is 0x8004000070810240
    (.ld { g := p0, ty := .i32, la := 0, addr := { base := .s 2, index := .v 1, scale := 2, disp := 16 }, data := .v 4 }) ∧
  is 0x8044040070810280 (.atom { g := p0, ty := .n32, op := .add, ret := true, la := 0, data := .v 4
                                 addr := { base := .s 2, index := .v 1, scale := 2, disp := 8 } }) ∧
  is 0x0000003231B242DC (.await p0 9 6 8 0) ∧ is 0x0000003FF0B1830C (.capProbe { g := p0, dst := 6, base := 2, disp := 0 }) ∧
  is 0x0000C00000000344 (.mxSign p0 3) ∧
  is 0x00000000000000018000003332F28386 (.pgRun { g := p0, trans := true, ctx := 1, dst := 10, limit := 11, cnt := 12 }) ∧
  is 0x400C8000000003D0 (.susp p0 50) ∧ decodeBody 0x0001500141000324 = some (.cxBr .geu 4 (some 5) 5)

/-- R24, R28-R32, R43, R278: every well-formed instruction of a task's stream decodes from its word, wherever the word fits into a window
and whatever follows it there, and every well-formed step of a capsule body from its own; a word that decodes gives a well-formed
instruction that has a word. -/
def Obligations.DecodingUndoesEncoding : Prop :=
  (∀ (n w : Nat) (i : Instr) (x : BitVec 128), i.wellFormed n w = true → encode i = some x →
    (i.isBody = false → ∀ (pc : BitVec 32) (raw : Nat), pc.toNat % 4 = 0 → pc.toNat % 32 + wordLen x ≤ 32 →
      raw % 2 ^ (8 * wordLen x) = x.toNat → decode n w pc raw = i) ∧
    (i.isBody = true → x.toNat < 2 ^ 64 ∧ decodeBody (x.setWidth 64) = some i)) ∧
  (∀ (n w : Nat) (pc : BitVec 32) (raw : Nat) (i : Instr), decode? n w pc raw = .ok i →
    i.wellFormed n w = true ∧ i.isBody = false ∧ (encode i).isSome = true) ∧
  ∀ (x : BitVec 64) (i : Instr), decodeBody x = some i → i.isBody = true ∧ (encode i).isSome = true

/-- Log 2: whatever a step does, the device's memory, the host's and the image in the safe tier keep their canonical form. -/
def Obligations.MemoriesStayCanonical : Prop :=
  ∀ s s' : State, s.MemOk → step s = .next s' → s'.MemOk

/-- R13, R14, R21, R188, R201, R309, R344, R357: whatever a step does, the units of every core and the queues keep their number, tasks have
numbers of their own, no task has more than 64 lanes and no two tasks stand in one slot. -/
def Obligations.UnitsKeepTheirShape : Prop :=
  ∀ s s' : State, s.Shaped → step s = .next s' → s'.Shaped

/-- R110, R188, R201, R344, R345, R357, R370: after reset the memories and the shape of the device are as every step keeps them; nothing
runs, no window is open, every core's banks are CACHE banks of nobody, its convergence registers are IDLE, its generator contexts EMPTY and
its fault queue empty. The values that the spec does not give for reset, such as the mode and the owner of a bank, are log 1. -/
def Obligations.ResetMeetsTheInvariants : Prop :=
  State.reset.MemOk ∧ State.reset.Shaped ∧ State.reset.power = .off ∧ State.reset.tasks = [] ∧ State.reset.launches = [] ∧
  State.reset.reqs = [] ∧ ∀ i, let c := State.reset.core i
    c.fqHead = 0 ∧ c.fqTail = 0 ∧ c.fqIe = false ∧ c.running = none ∧ (∀ b ∈ c.banks, b.mode = .cache ∧ b.owner = none) ∧
    (∀ v ∈ c.cvs, v.state = .idle) ∧ (∀ g ∈ c.gens, g.state = 0 ∧ g.owner = none) ∧ ∀ p ∈ c.spindles, p.last = [15, 15, 15, 15]
end

