-- ==== Sys2Proof/Laws/State.lean ====
section
/-! SUPPORT. What an update of the state or of a task leaves alone: one lemma per field per update. -/

namespace Sys2Proof.Machine

/-! ### State -/

@[simp] theorem State.updTask_tick (x : State) (i : Nat) (f : Task → Task) : (x.updTask i f).tick = x.tick := rfl
@[simp] theorem State.updTask_clock (x : State) (i : Nat) (f : Task → Task) : (x.updTask i f).clock = x.clock := rfl
@[simp] theorem State.updTask_power (x : State) (i : Nat) (f : Task → Task) : (x.updTask i f).power = x.power := rfl
@[simp] theorem State.updTask_agenda (x : State) (i : Nat) (f : Task → Task) : (x.updTask i f).agenda = x.agenda := rfl
@[simp] theorem State.updTask_cur (x : State) (i : Nat) (f : Task → Task) : (x.updTask i f).cur = x.cur := rfl
@[simp] theorem State.updTask_deviceNo (x : State) (i : Nat) (f : Task → Task) : (x.updTask i f).deviceNo = x.deviceNo := rfl
@[simp] theorem State.updTask_mem (x : State) (i : Nat) (f : Task → Task) : (x.updTask i f).mem = x.mem := rfl
@[simp] theorem State.updTask_hostMem (x : State) (i : Nat) (f : Task → Task) : (x.updTask i f).hostMem = x.hostMem := rfl
@[simp] theorem State.updTask_ueLines (x : State) (i : Nat) (f : Task → Task) : (x.updTask i f).ueLines = x.ueLines := rfl
@[simp] theorem State.updTask_ceLines (x : State) (i : Nat) (f : Task → Task) : (x.updTask i f).ceLines = x.ceLines := rfl
@[simp] theorem State.updTask_l2 (x : State) (i : Nat) (f : Task → Task) : (x.updTask i f).l2 = x.l2 := rfl
@[simp] theorem State.updTask_tlb (x : State) (i : Nat) (f : Task → Task) : (x.updTask i f).tlb = x.tlb := rfl
@[simp] theorem State.updTask_dieTlb (x : State) (i : Nat) (f : Task → Task) : (x.updTask i f).dieTlb = x.dieTlb := rfl
@[simp] theorem State.updTask_seals (x : State) (i : Nat) (f : Task → Task) : (x.updTask i f).seals = x.seals := rfl
@[simp] theorem State.updTask_reqs (x : State) (i : Nat) (f : Task → Task) : (x.updTask i f).reqs = x.reqs := rfl
@[simp] theorem State.updTask_nextReq (x : State) (i : Nat) (f : Task → Task) : (x.updTask i f).nextReq = x.nextReq := rfl
@[simp] theorem State.updTask_nextTask (x : State) (i : Nat) (f : Task → Task) : (x.updTask i f).nextTask = x.nextTask := rfl
@[simp] theorem State.updTask_nextSeq (x : State) (i : Nat) (f : Task → Task) : (x.updTask i f).nextSeq = x.nextSeq := rfl
@[simp] theorem State.updTask_cores (x : State) (i : Nat) (f : Task → Task) : (x.updTask i f).cores = x.cores := rfl
@[simp] theorem State.updTask_kernels (x : State) (i : Nat) (f : Task → Task) : (x.updTask i f).kernels = x.kernels := rfl
@[simp] theorem State.updTask_asds (x : State) (i : Nat) (f : Task → Task) : (x.updTask i f).asds = x.asds := rfl
@[simp] theorem State.updTask_queues (x : State) (i : Nat) (f : Task → Task) : (x.updTask i f).queues = x.queues := rfl
@[simp] theorem State.updTask_lastQueue (x : State) (i : Nat) (f : Task → Task) : (x.updTask i f).lastQueue = x.lastQueue := rfl
@[simp] theorem State.updTask_launches (x : State) (i : Nat) (f : Task → Task) : (x.updTask i f).launches = x.launches := rfl
@[simp] theorem State.updTask_vfs (x : State) (i : Nat) (f : Task → Task) : (x.updTask i f).vfs = x.vfs := rfl
@[simp] theorem State.updTask_plies (x : State) (i : Nat) (f : Task → Task) : (x.updTask i f).plies = x.plies := rfl
@[simp] theorem State.updTask_plyGens (x : State) (i : Nat) (f : Task → Task) : (x.updTask i f).plyGens = x.plyGens := rfl
@[simp] theorem State.updTask_credits (x : State) (i : Nat) (f : Task → Task) : (x.updTask i f).credits = x.credits := rfl
@[simp] theorem State.updTask_leases (x : State) (i : Nat) (f : Task → Task) : (x.updTask i f).leases = x.leases := rfl
@[simp] theorem State.updTask_inbound (x : State) (i : Nat) (f : Task → Task) : (x.updTask i f).inbound = x.inbound := rfl
@[simp] theorem State.updTask_peerGrants (x : State) (i : Nat) (f : Task → Task) : (x.updTask i f).peerGrants = x.peerGrants := rfl
@[simp] theorem State.updTask_stopAdmission (x : State) (i : Nat) (f : Task → Task) : (x.updTask i f).stopAdmission = x.stopAdmission := rfl
@[simp] theorem State.updTask_heldHost (x : State) (i : Nat) (f : Task → Task) : (x.updTask i f).heldHost = x.heldHost := rfl
@[simp] theorem State.updTask_selfHosted (x : State) (i : Nat) (f : Task → Task) : (x.updTask i f).selfHosted = x.selfHosted := rfl
@[simp] theorem State.updTask_coupled (x : State) (i : Nat) (f : Task → Task) : (x.updTask i f).coupled = x.coupled := rfl
@[simp] theorem State.updTask_flash (x : State) (i : Nat) (f : Task → Task) : (x.updTask i f).flash = x.flash := rfl
@[simp] theorem State.updTask_fuseDigest (x : State) (i : Nat) (f : Task → Task) : (x.updTask i f).fuseDigest = x.fuseDigest := rfl
@[simp] theorem State.updTask_fuseSvn (x : State) (i : Nat) (f : Task → Task) : (x.updTask i f).fuseSvn = x.fuseSvn := rfl
@[simp] theorem State.updTask_running (x : State) (i : Nat) (f : Task → Task) : (x.updTask i f).running = x.running := rfl
@[simp] theorem State.updTask_fwSram (x : State) (i : Nat) (f : Task → Task) : (x.updTask i f).fwSram = x.fwSram := rfl
@[simp] theorem State.updTask_harts (x : State) (i : Nat) (f : Task → Task) : (x.updTask i f).harts = x.harts := rfl
@[simp] theorem State.updTask_tier (x : State) (i : Nat) (f : Task → Task) : (x.updTask i f).tier = x.tier := rfl
@[simp] theorem State.updTask_tierRanges (x : State) (i : Nat) (f : Task → Task) : (x.updTask i f).tierRanges = x.tierRanges := rfl
@[simp] theorem State.updTask_tierPending (x : State) (i : Nat) (f : Task → Task) : (x.updTask i f).tierPending = x.tierPending := rfl
@[simp] theorem State.updTask_reports (x : State) (i : Nat) (f : Task → Task) : (x.updTask i f).reports = x.reports := rfl
@[simp] theorem State.updTask_hostReads (x : State) (i : Nat) (f : Task → Task) : (x.updTask i f).hostReads = x.hostReads := rfl
@[simp] theorem State.updTask_loadResults (x : State) (i : Nat) (f : Task → Task) : (x.updTask i f).loadResults = x.loadResults := rfl
@[simp] theorem State.updCore_tick (x : State) (i : Nat) (f : Core → Core) : (x.updCore i f).tick = x.tick := by unfold State.updCore; split <;> rfl
@[simp] theorem State.updCore_clock (x : State) (i : Nat) (f : Core → Core) : (x.updCore i f).clock = x.clock := by unfold State.updCore; split <;> rfl
@[simp] theorem State.updCore_power (x : State) (i : Nat) (f : Core → Core) : (x.updCore i f).power = x.power := by unfold State.updCore; split <;> rfl
@[simp] theorem State.updCore_agenda (x : State) (i : Nat) (f : Core → Core) : (x.updCore i f).agenda = x.agenda := by unfold State.updCore; split <;> rfl
@[simp] theorem State.updCore_cur (x : State) (i : Nat) (f : Core → Core) : (x.updCore i f).cur = x.cur := by unfold State.updCore; split <;> rfl
@[simp] theorem State.updCore_deviceNo (x : State) (i : Nat) (f : Core → Core) : (x.updCore i f).deviceNo = x.deviceNo := by unfold State.updCore; split <;> rfl
@[simp] theorem State.updCore_mem (x : State) (i : Nat) (f : Core → Core) : (x.updCore i f).mem = x.mem := by unfold State.updCore; split <;> rfl
@[simp] theorem State.updCore_hostMem (x : State) (i : Nat) (f : Core → Core) : (x.updCore i f).hostMem = x.hostMem := by unfold State.updCore; split <;> rfl
@[simp] theorem State.updCore_ueLines (x : State) (i : Nat) (f : Core → Core) : (x.updCore i f).ueLines = x.ueLines := by unfold State.updCore; split <;> rfl
@[simp] theorem State.updCore_ceLines (x : State) (i : Nat) (f : Core → Core) : (x.updCore i f).ceLines = x.ceLines := by unfold State.updCore; split <;> rfl
@[simp] theorem State.updCore_l2 (x : State) (i : Nat) (f : Core → Core) : (x.updCore i f).l2 = x.l2 := by unfold State.updCore; split <;> rfl
@[simp] theorem State.updCore_tlb (x : State) (i : Nat) (f : Core → Core) : (x.updCore i f).tlb = x.tlb := by unfold State.updCore; split <;> rfl
@[simp] theorem State.updCore_dieTlb (x : State) (i : Nat) (f : Core → Core) : (x.updCore i f).dieTlb = x.dieTlb := by unfold State.updCore; split <;> rfl
@[simp] theorem State.updCore_seals (x : State) (i : Nat) (f : Core → Core) : (x.updCore i f).seals = x.seals := by unfold State.updCore; split <;> rfl
@[simp] theorem State.updCore_reqs (x : State) (i : Nat) (f : Core → Core) : (x.updCore i f).reqs = x.reqs := by unfold State.updCore; split <;> rfl
@[simp] theorem State.updCore_nextReq (x : State) (i : Nat) (f : Core → Core) : (x.updCore i f).nextReq = x.nextReq := by unfold State.updCore; split <;> rfl
@[simp] theorem State.updCore_nextTask (x : State) (i : Nat) (f : Core → Core) : (x.updCore i f).nextTask = x.nextTask := by unfold State.updCore; split <;> rfl
@[simp] theorem State.updCore_nextSeq (x : State) (i : Nat) (f : Core → Core) : (x.updCore i f).nextSeq = x.nextSeq := by unfold State.updCore; split <;> rfl
@[simp] theorem State.updCore_tasks (x : State) (i : Nat) (f : Core → Core) : (x.updCore i f).tasks = x.tasks := by unfold State.updCore; split <;> rfl
@[simp] theorem State.updCore_kernels (x : State) (i : Nat) (f : Core → Core) : (x.updCore i f).kernels = x.kernels := by unfold State.updCore; split <;> rfl
@[simp] theorem State.updCore_asds (x : State) (i : Nat) (f : Core → Core) : (x.updCore i f).asds = x.asds := by unfold State.updCore; split <;> rfl
@[simp] theorem State.updCore_queues (x : State) (i : Nat) (f : Core → Core) : (x.updCore i f).queues = x.queues := by unfold State.updCore; split <;> rfl
@[simp] theorem State.updCore_lastQueue (x : State) (i : Nat) (f : Core → Core) : (x.updCore i f).lastQueue = x.lastQueue := by unfold State.updCore; split <;> rfl
@[simp] theorem State.updCore_launches (x : State) (i : Nat) (f : Core → Core) : (x.updCore i f).launches = x.launches := by unfold State.updCore; split <;> rfl
@[simp] theorem State.updCore_vfs (x : State) (i : Nat) (f : Core → Core) : (x.updCore i f).vfs = x.vfs := by unfold State.updCore; split <;> rfl
@[simp] theorem State.updCore_plies (x : State) (i : Nat) (f : Core → Core) : (x.updCore i f).plies = x.plies := by unfold State.updCore; split <;> rfl
@[simp] theorem State.updCore_plyGens (x : State) (i : Nat) (f : Core → Core) : (x.updCore i f).plyGens = x.plyGens := by unfold State.updCore; split <;> rfl
@[simp] theorem State.updCore_credits (x : State) (i : Nat) (f : Core → Core) : (x.updCore i f).credits = x.credits := by unfold State.updCore; split <;> rfl
@[simp] theorem State.updCore_leases (x : State) (i : Nat) (f : Core → Core) : (x.updCore i f).leases = x.leases := by unfold State.updCore; split <;> rfl
@[simp] theorem State.updCore_inbound (x : State) (i : Nat) (f : Core → Core) : (x.updCore i f).inbound = x.inbound := by unfold State.updCore; split <;> rfl
@[simp] theorem State.updCore_peerGrants (x : State) (i : Nat) (f : Core → Core) : (x.updCore i f).peerGrants = x.peerGrants := by unfold State.updCore; split <;> rfl
@[simp] theorem State.updCore_stopAdmission (x : State) (i : Nat) (f : Core → Core) : (x.updCore i f).stopAdmission = x.stopAdmission := by unfold State.updCore; split <;> rfl
@[simp] theorem State.updCore_heldHost (x : State) (i : Nat) (f : Core → Core) : (x.updCore i f).heldHost = x.heldHost := by unfold State.updCore; split <;> rfl
@[simp] theorem State.updCore_selfHosted (x : State) (i : Nat) (f : Core → Core) : (x.updCore i f).selfHosted = x.selfHosted := by unfold State.updCore; split <;> rfl
@[simp] theorem State.updCore_coupled (x : State) (i : Nat) (f : Core → Core) : (x.updCore i f).coupled = x.coupled := by unfold State.updCore; split <;> rfl
@[simp] theorem State.updCore_flash (x : State) (i : Nat) (f : Core → Core) : (x.updCore i f).flash = x.flash := by unfold State.updCore; split <;> rfl
@[simp] theorem State.updCore_fuseDigest (x : State) (i : Nat) (f : Core → Core) : (x.updCore i f).fuseDigest = x.fuseDigest := by unfold State.updCore; split <;> rfl
@[simp] theorem State.updCore_fuseSvn (x : State) (i : Nat) (f : Core → Core) : (x.updCore i f).fuseSvn = x.fuseSvn := by unfold State.updCore; split <;> rfl
@[simp] theorem State.updCore_running (x : State) (i : Nat) (f : Core → Core) : (x.updCore i f).running = x.running := by unfold State.updCore; split <;> rfl
@[simp] theorem State.updCore_fwSram (x : State) (i : Nat) (f : Core → Core) : (x.updCore i f).fwSram = x.fwSram := by unfold State.updCore; split <;> rfl
@[simp] theorem State.updCore_harts (x : State) (i : Nat) (f : Core → Core) : (x.updCore i f).harts = x.harts := by unfold State.updCore; split <;> rfl
@[simp] theorem State.updCore_tier (x : State) (i : Nat) (f : Core → Core) : (x.updCore i f).tier = x.tier := by unfold State.updCore; split <;> rfl
@[simp] theorem State.updCore_tierRanges (x : State) (i : Nat) (f : Core → Core) : (x.updCore i f).tierRanges = x.tierRanges := by unfold State.updCore; split <;> rfl
@[simp] theorem State.updCore_tierPending (x : State) (i : Nat) (f : Core → Core) : (x.updCore i f).tierPending = x.tierPending := by unfold State.updCore; split <;> rfl
@[simp] theorem State.updCore_reports (x : State) (i : Nat) (f : Core → Core) : (x.updCore i f).reports = x.reports := by unfold State.updCore; split <;> rfl
@[simp] theorem State.updCore_hostReads (x : State) (i : Nat) (f : Core → Core) : (x.updCore i f).hostReads = x.hostReads := by unfold State.updCore; split <;> rfl
@[simp] theorem State.updCore_loadResults (x : State) (i : Nat) (f : Core → Core) : (x.updCore i f).loadResults = x.loadResults := by unfold State.updCore; split <;> rfl
@[simp] theorem State.updVf_tick (x : State) (i : Nat) (f : Vf → Vf) : (x.updVf i f).tick = x.tick := rfl
@[simp] theorem State.updVf_clock (x : State) (i : Nat) (f : Vf → Vf) : (x.updVf i f).clock = x.clock := rfl
@[simp] theorem State.updVf_power (x : State) (i : Nat) (f : Vf → Vf) : (x.updVf i f).power = x.power := rfl
@[simp] theorem State.updVf_agenda (x : State) (i : Nat) (f : Vf → Vf) : (x.updVf i f).agenda = x.agenda := rfl
@[simp] theorem State.updVf_cur (x : State) (i : Nat) (f : Vf → Vf) : (x.updVf i f).cur = x.cur := rfl
@[simp] theorem State.updVf_deviceNo (x : State) (i : Nat) (f : Vf → Vf) : (x.updVf i f).deviceNo = x.deviceNo := rfl
@[simp] theorem State.updVf_mem (x : State) (i : Nat) (f : Vf → Vf) : (x.updVf i f).mem = x.mem := rfl
@[simp] theorem State.updVf_hostMem (x : State) (i : Nat) (f : Vf → Vf) : (x.updVf i f).hostMem = x.hostMem := rfl
@[simp] theorem State.updVf_ueLines (x : State) (i : Nat) (f : Vf → Vf) : (x.updVf i f).ueLines = x.ueLines := rfl
@[simp] theorem State.updVf_ceLines (x : State) (i : Nat) (f : Vf → Vf) : (x.updVf i f).ceLines = x.ceLines := rfl
@[simp] theorem State.updVf_l2 (x : State) (i : Nat) (f : Vf → Vf) : (x.updVf i f).l2 = x.l2 := rfl
@[simp] theorem State.updVf_tlb (x : State) (i : Nat) (f : Vf → Vf) : (x.updVf i f).tlb = x.tlb := rfl
@[simp] theorem State.updVf_dieTlb (x : State) (i : Nat) (f : Vf → Vf) : (x.updVf i f).dieTlb = x.dieTlb := rfl
@[simp] theorem State.updVf_seals (x : State) (i : Nat) (f : Vf → Vf) : (x.updVf i f).seals = x.seals := rfl
@[simp] theorem State.updVf_reqs (x : State) (i : Nat) (f : Vf → Vf) : (x.updVf i f).reqs = x.reqs := rfl
@[simp] theorem State.updVf_nextReq (x : State) (i : Nat) (f : Vf → Vf) : (x.updVf i f).nextReq = x.nextReq := rfl
@[simp] theorem State.updVf_nextTask (x : State) (i : Nat) (f : Vf → Vf) : (x.updVf i f).nextTask = x.nextTask := rfl
@[simp] theorem State.updVf_nextSeq (x : State) (i : Nat) (f : Vf → Vf) : (x.updVf i f).nextSeq = x.nextSeq := rfl
@[simp] theorem State.updVf_tasks (x : State) (i : Nat) (f : Vf → Vf) : (x.updVf i f).tasks = x.tasks := rfl
@[simp] theorem State.updVf_cores (x : State) (i : Nat) (f : Vf → Vf) : (x.updVf i f).cores = x.cores := rfl
@[simp] theorem State.updVf_kernels (x : State) (i : Nat) (f : Vf → Vf) : (x.updVf i f).kernels = x.kernels := rfl
@[simp] theorem State.updVf_asds (x : State) (i : Nat) (f : Vf → Vf) : (x.updVf i f).asds = x.asds := rfl
@[simp] theorem State.updVf_queues (x : State) (i : Nat) (f : Vf → Vf) : (x.updVf i f).queues = x.queues := rfl
@[simp] theorem State.updVf_lastQueue (x : State) (i : Nat) (f : Vf → Vf) : (x.updVf i f).lastQueue = x.lastQueue := rfl
@[simp] theorem State.updVf_launches (x : State) (i : Nat) (f : Vf → Vf) : (x.updVf i f).launches = x.launches := rfl
@[simp] theorem State.updVf_plies (x : State) (i : Nat) (f : Vf → Vf) : (x.updVf i f).plies = x.plies := rfl
@[simp] theorem State.updVf_plyGens (x : State) (i : Nat) (f : Vf → Vf) : (x.updVf i f).plyGens = x.plyGens := rfl
@[simp] theorem State.updVf_credits (x : State) (i : Nat) (f : Vf → Vf) : (x.updVf i f).credits = x.credits := rfl
@[simp] theorem State.updVf_leases (x : State) (i : Nat) (f : Vf → Vf) : (x.updVf i f).leases = x.leases := rfl
@[simp] theorem State.updVf_inbound (x : State) (i : Nat) (f : Vf → Vf) : (x.updVf i f).inbound = x.inbound := rfl
@[simp] theorem State.updVf_peerGrants (x : State) (i : Nat) (f : Vf → Vf) : (x.updVf i f).peerGrants = x.peerGrants := rfl
@[simp] theorem State.updVf_stopAdmission (x : State) (i : Nat) (f : Vf → Vf) : (x.updVf i f).stopAdmission = x.stopAdmission := rfl
@[simp] theorem State.updVf_heldHost (x : State) (i : Nat) (f : Vf → Vf) : (x.updVf i f).heldHost = x.heldHost := rfl
@[simp] theorem State.updVf_selfHosted (x : State) (i : Nat) (f : Vf → Vf) : (x.updVf i f).selfHosted = x.selfHosted := rfl
@[simp] theorem State.updVf_coupled (x : State) (i : Nat) (f : Vf → Vf) : (x.updVf i f).coupled = x.coupled := rfl
@[simp] theorem State.updVf_flash (x : State) (i : Nat) (f : Vf → Vf) : (x.updVf i f).flash = x.flash := rfl
@[simp] theorem State.updVf_fuseDigest (x : State) (i : Nat) (f : Vf → Vf) : (x.updVf i f).fuseDigest = x.fuseDigest := rfl
@[simp] theorem State.updVf_fuseSvn (x : State) (i : Nat) (f : Vf → Vf) : (x.updVf i f).fuseSvn = x.fuseSvn := rfl
@[simp] theorem State.updVf_running (x : State) (i : Nat) (f : Vf → Vf) : (x.updVf i f).running = x.running := rfl
@[simp] theorem State.updVf_fwSram (x : State) (i : Nat) (f : Vf → Vf) : (x.updVf i f).fwSram = x.fwSram := rfl
@[simp] theorem State.updVf_harts (x : State) (i : Nat) (f : Vf → Vf) : (x.updVf i f).harts = x.harts := rfl
@[simp] theorem State.updVf_tier (x : State) (i : Nat) (f : Vf → Vf) : (x.updVf i f).tier = x.tier := rfl
@[simp] theorem State.updVf_tierRanges (x : State) (i : Nat) (f : Vf → Vf) : (x.updVf i f).tierRanges = x.tierRanges := rfl
@[simp] theorem State.updVf_tierPending (x : State) (i : Nat) (f : Vf → Vf) : (x.updVf i f).tierPending = x.tierPending := rfl
@[simp] theorem State.updVf_reports (x : State) (i : Nat) (f : Vf → Vf) : (x.updVf i f).reports = x.reports := rfl
@[simp] theorem State.updVf_hostReads (x : State) (i : Nat) (f : Vf → Vf) : (x.updVf i f).hostReads = x.hostReads := rfl
@[simp] theorem State.updVf_loadResults (x : State) (i : Nat) (f : Vf → Vf) : (x.updVf i f).loadResults = x.loadResults := rfl
@[simp] theorem State.updQueue_tick (x : State) (v q : Nat) (f : Queue → Queue) : (x.updQueue v q f).tick = x.tick := rfl
@[simp] theorem State.updQueue_clock (x : State) (v q : Nat) (f : Queue → Queue) : (x.updQueue v q f).clock = x.clock := rfl
@[simp] theorem State.updQueue_power (x : State) (v q : Nat) (f : Queue → Queue) : (x.updQueue v q f).power = x.power := rfl
@[simp] theorem State.updQueue_agenda (x : State) (v q : Nat) (f : Queue → Queue) : (x.updQueue v q f).agenda = x.agenda := rfl
@[simp] theorem State.updQueue_cur (x : State) (v q : Nat) (f : Queue → Queue) : (x.updQueue v q f).cur = x.cur := rfl
@[simp] theorem State.updQueue_deviceNo (x : State) (v q : Nat) (f : Queue → Queue) : (x.updQueue v q f).deviceNo = x.deviceNo := rfl
@[simp] theorem State.updQueue_mem (x : State) (v q : Nat) (f : Queue → Queue) : (x.updQueue v q f).mem = x.mem := rfl
@[simp] theorem State.updQueue_hostMem (x : State) (v q : Nat) (f : Queue → Queue) : (x.updQueue v q f).hostMem = x.hostMem := rfl
@[simp] theorem State.updQueue_ueLines (x : State) (v q : Nat) (f : Queue → Queue) : (x.updQueue v q f).ueLines = x.ueLines := rfl
@[simp] theorem State.updQueue_ceLines (x : State) (v q : Nat) (f : Queue → Queue) : (x.updQueue v q f).ceLines = x.ceLines := rfl
@[simp] theorem State.updQueue_l2 (x : State) (v q : Nat) (f : Queue → Queue) : (x.updQueue v q f).l2 = x.l2 := rfl
@[simp] theorem State.updQueue_tlb (x : State) (v q : Nat) (f : Queue → Queue) : (x.updQueue v q f).tlb = x.tlb := rfl
@[simp] theorem State.updQueue_dieTlb (x : State) (v q : Nat) (f : Queue → Queue) : (x.updQueue v q f).dieTlb = x.dieTlb := rfl
@[simp] theorem State.updQueue_seals (x : State) (v q : Nat) (f : Queue → Queue) : (x.updQueue v q f).seals = x.seals := rfl
@[simp] theorem State.updQueue_reqs (x : State) (v q : Nat) (f : Queue → Queue) : (x.updQueue v q f).reqs = x.reqs := rfl
@[simp] theorem State.updQueue_nextReq (x : State) (v q : Nat) (f : Queue → Queue) : (x.updQueue v q f).nextReq = x.nextReq := rfl
@[simp] theorem State.updQueue_nextTask (x : State) (v q : Nat) (f : Queue → Queue) : (x.updQueue v q f).nextTask = x.nextTask := rfl
@[simp] theorem State.updQueue_nextSeq (x : State) (v q : Nat) (f : Queue → Queue) : (x.updQueue v q f).nextSeq = x.nextSeq := rfl
@[simp] theorem State.updQueue_tasks (x : State) (v q : Nat) (f : Queue → Queue) : (x.updQueue v q f).tasks = x.tasks := rfl
@[simp] theorem State.updQueue_cores (x : State) (v q : Nat) (f : Queue → Queue) : (x.updQueue v q f).cores = x.cores := rfl
@[simp] theorem State.updQueue_kernels (x : State) (v q : Nat) (f : Queue → Queue) : (x.updQueue v q f).kernels = x.kernels := rfl
@[simp] theorem State.updQueue_asds (x : State) (v q : Nat) (f : Queue → Queue) : (x.updQueue v q f).asds = x.asds := rfl
@[simp] theorem State.updQueue_lastQueue (x : State) (v q : Nat) (f : Queue → Queue) : (x.updQueue v q f).lastQueue = x.lastQueue := rfl
@[simp] theorem State.updQueue_launches (x : State) (v q : Nat) (f : Queue → Queue) : (x.updQueue v q f).launches = x.launches := rfl
@[simp] theorem State.updQueue_vfs (x : State) (v q : Nat) (f : Queue → Queue) : (x.updQueue v q f).vfs = x.vfs := rfl
@[simp] theorem State.updQueue_plies (x : State) (v q : Nat) (f : Queue → Queue) : (x.updQueue v q f).plies = x.plies := rfl
@[simp] theorem State.updQueue_plyGens (x : State) (v q : Nat) (f : Queue → Queue) : (x.updQueue v q f).plyGens = x.plyGens := rfl
@[simp] theorem State.updQueue_credits (x : State) (v q : Nat) (f : Queue → Queue) : (x.updQueue v q f).credits = x.credits := rfl
@[simp] theorem State.updQueue_leases (x : State) (v q : Nat) (f : Queue → Queue) : (x.updQueue v q f).leases = x.leases := rfl
@[simp] theorem State.updQueue_inbound (x : State) (v q : Nat) (f : Queue → Queue) : (x.updQueue v q f).inbound = x.inbound := rfl
@[simp] theorem State.updQueue_peerGrants (x : State) (v q : Nat) (f : Queue → Queue) : (x.updQueue v q f).peerGrants = x.peerGrants := rfl
@[simp] theorem State.updQueue_stopAdmission (x : State) (v q : Nat) (f : Queue → Queue) : (x.updQueue v q f).stopAdmission = x.stopAdmission := rfl
@[simp] theorem State.updQueue_heldHost (x : State) (v q : Nat) (f : Queue → Queue) : (x.updQueue v q f).heldHost = x.heldHost := rfl
@[simp] theorem State.updQueue_selfHosted (x : State) (v q : Nat) (f : Queue → Queue) : (x.updQueue v q f).selfHosted = x.selfHosted := rfl
@[simp] theorem State.updQueue_coupled (x : State) (v q : Nat) (f : Queue → Queue) : (x.updQueue v q f).coupled = x.coupled := rfl
@[simp] theorem State.updQueue_flash (x : State) (v q : Nat) (f : Queue → Queue) : (x.updQueue v q f).flash = x.flash := rfl
@[simp] theorem State.updQueue_fuseDigest (x : State) (v q : Nat) (f : Queue → Queue) : (x.updQueue v q f).fuseDigest = x.fuseDigest := rfl
@[simp] theorem State.updQueue_fuseSvn (x : State) (v q : Nat) (f : Queue → Queue) : (x.updQueue v q f).fuseSvn = x.fuseSvn := rfl
@[simp] theorem State.updQueue_running (x : State) (v q : Nat) (f : Queue → Queue) : (x.updQueue v q f).running = x.running := rfl
@[simp] theorem State.updQueue_fwSram (x : State) (v q : Nat) (f : Queue → Queue) : (x.updQueue v q f).fwSram = x.fwSram := rfl
@[simp] theorem State.updQueue_harts (x : State) (v q : Nat) (f : Queue → Queue) : (x.updQueue v q f).harts = x.harts := rfl
@[simp] theorem State.updQueue_tier (x : State) (v q : Nat) (f : Queue → Queue) : (x.updQueue v q f).tier = x.tier := rfl
@[simp] theorem State.updQueue_tierRanges (x : State) (v q : Nat) (f : Queue → Queue) : (x.updQueue v q f).tierRanges = x.tierRanges := rfl
@[simp] theorem State.updQueue_tierPending (x : State) (v q : Nat) (f : Queue → Queue) : (x.updQueue v q f).tierPending = x.tierPending := rfl
@[simp] theorem State.updQueue_reports (x : State) (v q : Nat) (f : Queue → Queue) : (x.updQueue v q f).reports = x.reports := rfl
@[simp] theorem State.updQueue_hostReads (x : State) (v q : Nat) (f : Queue → Queue) : (x.updQueue v q f).hostReads = x.hostReads := rfl
@[simp] theorem State.updQueue_loadResults (x : State) (v q : Nat) (f : Queue → Queue) : (x.updQueue v q f).loadResults = x.loadResults := rfl
@[simp] theorem State.updLaunch_tick (x : State) (i : Nat) (f : Launch → Launch) : (x.updLaunch i f).tick = x.tick := rfl
@[simp] theorem State.updLaunch_clock (x : State) (i : Nat) (f : Launch → Launch) : (x.updLaunch i f).clock = x.clock := rfl
@[simp] theorem State.updLaunch_power (x : State) (i : Nat) (f : Launch → Launch) : (x.updLaunch i f).power = x.power := rfl
@[simp] theorem State.updLaunch_agenda (x : State) (i : Nat) (f : Launch → Launch) : (x.updLaunch i f).agenda = x.agenda := rfl
@[simp] theorem State.updLaunch_cur (x : State) (i : Nat) (f : Launch → Launch) : (x.updLaunch i f).cur = x.cur := rfl
@[simp] theorem State.updLaunch_deviceNo (x : State) (i : Nat) (f : Launch → Launch) : (x.updLaunch i f).deviceNo = x.deviceNo := rfl
@[simp] theorem State.updLaunch_mem (x : State) (i : Nat) (f : Launch → Launch) : (x.updLaunch i f).mem = x.mem := rfl
@[simp] theorem State.updLaunch_hostMem (x : State) (i : Nat) (f : Launch → Launch) : (x.updLaunch i f).hostMem = x.hostMem := rfl
@[simp] theorem State.updLaunch_ueLines (x : State) (i : Nat) (f : Launch → Launch) : (x.updLaunch i f).ueLines = x.ueLines := rfl
@[simp] theorem State.updLaunch_ceLines (x : State) (i : Nat) (f : Launch → Launch) : (x.updLaunch i f).ceLines = x.ceLines := rfl
@[simp] theorem State.updLaunch_l2 (x : State) (i : Nat) (f : Launch → Launch) : (x.updLaunch i f).l2 = x.l2 := rfl
@[simp] theorem State.updLaunch_tlb (x : State) (i : Nat) (f : Launch → Launch) : (x.updLaunch i f).tlb = x.tlb := rfl
@[simp] theorem State.updLaunch_dieTlb (x : State) (i : Nat) (f : Launch → Launch) : (x.updLaunch i f).dieTlb = x.dieTlb := rfl
@[simp] theorem State.updLaunch_seals (x : State) (i : Nat) (f : Launch → Launch) : (x.updLaunch i f).seals = x.seals := rfl
@[simp] theorem State.updLaunch_reqs (x : State) (i : Nat) (f : Launch → Launch) : (x.updLaunch i f).reqs = x.reqs := rfl
@[simp] theorem State.updLaunch_nextReq (x : State) (i : Nat) (f : Launch → Launch) : (x.updLaunch i f).nextReq = x.nextReq := rfl
@[simp] theorem State.updLaunch_nextTask (x : State) (i : Nat) (f : Launch → Launch) : (x.updLaunch i f).nextTask = x.nextTask := rfl
@[simp] theorem State.updLaunch_nextSeq (x : State) (i : Nat) (f : Launch → Launch) : (x.updLaunch i f).nextSeq = x.nextSeq := rfl
@[simp] theorem State.updLaunch_tasks (x : State) (i : Nat) (f : Launch → Launch) : (x.updLaunch i f).tasks = x.tasks := rfl
@[simp] theorem State.updLaunch_cores (x : State) (i : Nat) (f : Launch → Launch) : (x.updLaunch i f).cores = x.cores := rfl
@[simp] theorem State.updLaunch_kernels (x : State) (i : Nat) (f : Launch → Launch) : (x.updLaunch i f).kernels = x.kernels := rfl
@[simp] theorem State.updLaunch_asds (x : State) (i : Nat) (f : Launch → Launch) : (x.updLaunch i f).asds = x.asds := rfl
@[simp] theorem State.updLaunch_queues (x : State) (i : Nat) (f : Launch → Launch) : (x.updLaunch i f).queues = x.queues := rfl
@[simp] theorem State.updLaunch_lastQueue (x : State) (i : Nat) (f : Launch → Launch) : (x.updLaunch i f).lastQueue = x.lastQueue := rfl
@[simp] theorem State.updLaunch_vfs (x : State) (i : Nat) (f : Launch → Launch) : (x.updLaunch i f).vfs = x.vfs := rfl
@[simp] theorem State.updLaunch_plies (x : State) (i : Nat) (f : Launch → Launch) : (x.updLaunch i f).plies = x.plies := rfl
@[simp] theorem State.updLaunch_plyGens (x : State) (i : Nat) (f : Launch → Launch) : (x.updLaunch i f).plyGens = x.plyGens := rfl
@[simp] theorem State.updLaunch_credits (x : State) (i : Nat) (f : Launch → Launch) : (x.updLaunch i f).credits = x.credits := rfl
@[simp] theorem State.updLaunch_leases (x : State) (i : Nat) (f : Launch → Launch) : (x.updLaunch i f).leases = x.leases := rfl
@[simp] theorem State.updLaunch_inbound (x : State) (i : Nat) (f : Launch → Launch) : (x.updLaunch i f).inbound = x.inbound := rfl
@[simp] theorem State.updLaunch_peerGrants (x : State) (i : Nat) (f : Launch → Launch) : (x.updLaunch i f).peerGrants = x.peerGrants := rfl
@[simp] theorem State.updLaunch_stopAdmission (x : State) (i : Nat) (f : Launch → Launch) : (x.updLaunch i f).stopAdmission = x.stopAdmission := rfl
@[simp] theorem State.updLaunch_heldHost (x : State) (i : Nat) (f : Launch → Launch) : (x.updLaunch i f).heldHost = x.heldHost := rfl
@[simp] theorem State.updLaunch_selfHosted (x : State) (i : Nat) (f : Launch → Launch) : (x.updLaunch i f).selfHosted = x.selfHosted := rfl
@[simp] theorem State.updLaunch_coupled (x : State) (i : Nat) (f : Launch → Launch) : (x.updLaunch i f).coupled = x.coupled := rfl
@[simp] theorem State.updLaunch_flash (x : State) (i : Nat) (f : Launch → Launch) : (x.updLaunch i f).flash = x.flash := rfl
@[simp] theorem State.updLaunch_fuseDigest (x : State) (i : Nat) (f : Launch → Launch) : (x.updLaunch i f).fuseDigest = x.fuseDigest := rfl
@[simp] theorem State.updLaunch_fuseSvn (x : State) (i : Nat) (f : Launch → Launch) : (x.updLaunch i f).fuseSvn = x.fuseSvn := rfl
@[simp] theorem State.updLaunch_running (x : State) (i : Nat) (f : Launch → Launch) : (x.updLaunch i f).running = x.running := rfl
@[simp] theorem State.updLaunch_fwSram (x : State) (i : Nat) (f : Launch → Launch) : (x.updLaunch i f).fwSram = x.fwSram := rfl
@[simp] theorem State.updLaunch_harts (x : State) (i : Nat) (f : Launch → Launch) : (x.updLaunch i f).harts = x.harts := rfl
@[simp] theorem State.updLaunch_tier (x : State) (i : Nat) (f : Launch → Launch) : (x.updLaunch i f).tier = x.tier := rfl
@[simp] theorem State.updLaunch_tierRanges (x : State) (i : Nat) (f : Launch → Launch) : (x.updLaunch i f).tierRanges = x.tierRanges := rfl
@[simp] theorem State.updLaunch_tierPending (x : State) (i : Nat) (f : Launch → Launch) : (x.updLaunch i f).tierPending = x.tierPending := rfl
@[simp] theorem State.updLaunch_reports (x : State) (i : Nat) (f : Launch → Launch) : (x.updLaunch i f).reports = x.reports := rfl
@[simp] theorem State.updLaunch_hostReads (x : State) (i : Nat) (f : Launch → Launch) : (x.updLaunch i f).hostReads = x.hostReads := rfl
@[simp] theorem State.updLaunch_loadResults (x : State) (i : Nat) (f : Launch → Launch) : (x.updLaunch i f).loadResults = x.loadResults := rfl
@[simp] theorem State.updPly_tick (x : State) (i : BitVec 32) (f : Ply → Ply) : (x.updPly i f).tick = x.tick := rfl
@[simp] theorem State.updPly_clock (x : State) (i : BitVec 32) (f : Ply → Ply) : (x.updPly i f).clock = x.clock := rfl
@[simp] theorem State.updPly_power (x : State) (i : BitVec 32) (f : Ply → Ply) : (x.updPly i f).power = x.power := rfl
@[simp] theorem State.updPly_agenda (x : State) (i : BitVec 32) (f : Ply → Ply) : (x.updPly i f).agenda = x.agenda := rfl
@[simp] theorem State.updPly_cur (x : State) (i : BitVec 32) (f : Ply → Ply) : (x.updPly i f).cur = x.cur := rfl
@[simp] theorem State.updPly_deviceNo (x : State) (i : BitVec 32) (f : Ply → Ply) : (x.updPly i f).deviceNo = x.deviceNo := rfl
@[simp] theorem State.updPly_mem (x : State) (i : BitVec 32) (f : Ply → Ply) : (x.updPly i f).mem = x.mem := rfl
@[simp] theorem State.updPly_hostMem (x : State) (i : BitVec 32) (f : Ply → Ply) : (x.updPly i f).hostMem = x.hostMem := rfl
@[simp] theorem State.updPly_ueLines (x : State) (i : BitVec 32) (f : Ply → Ply) : (x.updPly i f).ueLines = x.ueLines := rfl
@[simp] theorem State.updPly_ceLines (x : State) (i : BitVec 32) (f : Ply → Ply) : (x.updPly i f).ceLines = x.ceLines := rfl
@[simp] theorem State.updPly_l2 (x : State) (i : BitVec 32) (f : Ply → Ply) : (x.updPly i f).l2 = x.l2 := rfl
@[simp] theorem State.updPly_tlb (x : State) (i : BitVec 32) (f : Ply → Ply) : (x.updPly i f).tlb = x.tlb := rfl
@[simp] theorem State.updPly_dieTlb (x : State) (i : BitVec 32) (f : Ply → Ply) : (x.updPly i f).dieTlb = x.dieTlb := rfl
@[simp] theorem State.updPly_seals (x : State) (i : BitVec 32) (f : Ply → Ply) : (x.updPly i f).seals = x.seals := rfl
@[simp] theorem State.updPly_reqs (x : State) (i : BitVec 32) (f : Ply → Ply) : (x.updPly i f).reqs = x.reqs := rfl
@[simp] theorem State.updPly_nextReq (x : State) (i : BitVec 32) (f : Ply → Ply) : (x.updPly i f).nextReq = x.nextReq := rfl
@[simp] theorem State.updPly_nextTask (x : State) (i : BitVec 32) (f : Ply → Ply) : (x.updPly i f).nextTask = x.nextTask := rfl
@[simp] theorem State.updPly_nextSeq (x : State) (i : BitVec 32) (f : Ply → Ply) : (x.updPly i f).nextSeq = x.nextSeq := rfl
@[simp] theorem State.updPly_tasks (x : State) (i : BitVec 32) (f : Ply → Ply) : (x.updPly i f).tasks = x.tasks := rfl
@[simp] theorem State.updPly_cores (x : State) (i : BitVec 32) (f : Ply → Ply) : (x.updPly i f).cores = x.cores := rfl
@[simp] theorem State.updPly_kernels (x : State) (i : BitVec 32) (f : Ply → Ply) : (x.updPly i f).kernels = x.kernels := rfl
@[simp] theorem State.updPly_asds (x : State) (i : BitVec 32) (f : Ply → Ply) : (x.updPly i f).asds = x.asds := rfl
@[simp] theorem State.updPly_queues (x : State) (i : BitVec 32) (f : Ply → Ply) : (x.updPly i f).queues = x.queues := rfl
@[simp] theorem State.updPly_lastQueue (x : State) (i : BitVec 32) (f : Ply → Ply) : (x.updPly i f).lastQueue = x.lastQueue := rfl
@[simp] theorem State.updPly_launches (x : State) (i : BitVec 32) (f : Ply → Ply) : (x.updPly i f).launches = x.launches := rfl
@[simp] theorem State.updPly_vfs (x : State) (i : BitVec 32) (f : Ply → Ply) : (x.updPly i f).vfs = x.vfs := rfl
@[simp] theorem State.updPly_plyGens (x : State) (i : BitVec 32) (f : Ply → Ply) : (x.updPly i f).plyGens = x.plyGens := rfl
@[simp] theorem State.updPly_credits (x : State) (i : BitVec 32) (f : Ply → Ply) : (x.updPly i f).credits = x.credits := rfl
@[simp] theorem State.updPly_leases (x : State) (i : BitVec 32) (f : Ply → Ply) : (x.updPly i f).leases = x.leases := rfl
@[simp] theorem State.updPly_inbound (x : State) (i : BitVec 32) (f : Ply → Ply) : (x.updPly i f).inbound = x.inbound := rfl
@[simp] theorem State.updPly_peerGrants (x : State) (i : BitVec 32) (f : Ply → Ply) : (x.updPly i f).peerGrants = x.peerGrants := rfl
@[simp] theorem State.updPly_stopAdmission (x : State) (i : BitVec 32) (f : Ply → Ply) : (x.updPly i f).stopAdmission = x.stopAdmission := rfl
@[simp] theorem State.updPly_heldHost (x : State) (i : BitVec 32) (f : Ply → Ply) : (x.updPly i f).heldHost = x.heldHost := rfl
@[simp] theorem State.updPly_selfHosted (x : State) (i : BitVec 32) (f : Ply → Ply) : (x.updPly i f).selfHosted = x.selfHosted := rfl
@[simp] theorem State.updPly_coupled (x : State) (i : BitVec 32) (f : Ply → Ply) : (x.updPly i f).coupled = x.coupled := rfl
@[simp] theorem State.updPly_flash (x : State) (i : BitVec 32) (f : Ply → Ply) : (x.updPly i f).flash = x.flash := rfl
@[simp] theorem State.updPly_fuseDigest (x : State) (i : BitVec 32) (f : Ply → Ply) : (x.updPly i f).fuseDigest = x.fuseDigest := rfl
@[simp] theorem State.updPly_fuseSvn (x : State) (i : BitVec 32) (f : Ply → Ply) : (x.updPly i f).fuseSvn = x.fuseSvn := rfl
@[simp] theorem State.updPly_running (x : State) (i : BitVec 32) (f : Ply → Ply) : (x.updPly i f).running = x.running := rfl
@[simp] theorem State.updPly_fwSram (x : State) (i : BitVec 32) (f : Ply → Ply) : (x.updPly i f).fwSram = x.fwSram := rfl
@[simp] theorem State.updPly_harts (x : State) (i : BitVec 32) (f : Ply → Ply) : (x.updPly i f).harts = x.harts := rfl
@[simp] theorem State.updPly_tier (x : State) (i : BitVec 32) (f : Ply → Ply) : (x.updPly i f).tier = x.tier := rfl
@[simp] theorem State.updPly_tierRanges (x : State) (i : BitVec 32) (f : Ply → Ply) : (x.updPly i f).tierRanges = x.tierRanges := rfl
@[simp] theorem State.updPly_tierPending (x : State) (i : BitVec 32) (f : Ply → Ply) : (x.updPly i f).tierPending = x.tierPending := rfl
@[simp] theorem State.updPly_reports (x : State) (i : BitVec 32) (f : Ply → Ply) : (x.updPly i f).reports = x.reports := rfl
@[simp] theorem State.updPly_hostReads (x : State) (i : BitVec 32) (f : Ply → Ply) : (x.updPly i f).hostReads = x.hostReads := rfl
@[simp] theorem State.updPly_loadResults (x : State) (i : BitVec 32) (f : Ply → Ply) : (x.updPly i f).loadResults = x.loadResults := rfl

/-! ### Task -/

@[simp] theorem Task.onLanes_id (x : Task) (m : Mask) (f : Nat → Lane → Lane) : (x.onLanes m f).id = x.id := rfl
@[simp] theorem Task.onLanes_vf (x : Task) (m : Mask) (f : Nat → Lane → Lane) : (x.onLanes m f).vf = x.vf := rfl
@[simp] theorem Task.onLanes_asid (x : Task) (m : Mask) (f : Nat → Lane → Lane) : (x.onLanes m f).asid = x.asid := rfl
@[simp] theorem Task.onLanes_prin (x : Task) (m : Mask) (f : Nat → Lane → Lane) : (x.onLanes m f).prin = x.prin := rfl
@[simp] theorem Task.onLanes_kernel (x : Task) (m : Mask) (f : Nat → Lane → Lane) : (x.onLanes m f).kernel = x.kernel := rfl
@[simp] theorem Task.onLanes_parent (x : Task) (m : Mask) (f : Nat → Lane → Lane) : (x.onLanes m f).parent = x.parent := rfl
@[simp] theorem Task.onLanes_root (x : Task) (m : Mask) (f : Nat → Lane → Lane) : (x.onLanes m f).root = x.root := rfl
@[simp] theorem Task.onLanes_handle (x : Task) (m : Mask) (f : Nat → Lane → Lane) : (x.onLanes m f).handle = x.handle := rfl
@[simp] theorem Task.onLanes_ordinal (x : Task) (m : Mask) (f : Nat → Lane → Lane) : (x.onLanes m f).ordinal = x.ordinal := rfl
@[simp] theorem Task.onLanes_det (x : Task) (m : Mask) (f : Nat → Lane → Lane) : (x.onLanes m f).det = x.det := rfl
@[simp] theorem Task.onLanes_launch (x : Task) (m : Mask) (f : Nat → Lane → Lane) : (x.onLanes m f).launch = x.launch := rfl
@[simp] theorem Task.onLanes_handlerFor (x : Task) (m : Mask) (f : Nat → Lane → Lane) : (x.onLanes m f).handlerFor = x.handlerFor := rfl
@[simp] theorem Task.onLanes_viaSpawnx (x : Task) (m : Mask) (f : Nat → Lane → Lane) : (x.onLanes m f).viaSpawnx = x.viaSpawnx := rfl
@[simp] theorem Task.onLanes_place (x : Task) (m : Mask) (f : Nat → Lane → Lane) : (x.onLanes m f).place = x.place := rfl
@[simp] theorem Task.onLanes_arrival (x : Task) (m : Mask) (f : Nat → Lane → Lane) : (x.onLanes m f).arrival = x.arrival := rfl
@[simp] theorem Task.onLanes_everPlaced (x : Task) (m : Mask) (f : Nat → Lane → Lane) : (x.onLanes m f).everPlaced = x.everPlaced := rfl
@[simp] theorem Task.onLanes_lcores (x : Task) (m : Mask) (f : Nat → Lane → Lane) : (x.onLanes m f).lcores = x.lcores := rfl
@[simp] theorem Task.onLanes_alw (x : Task) (m : Mask) (f : Nat → Lane → Lane) : (x.onLanes m f).alw = x.alw := rfl
@[simp] theorem Task.onLanes_held (x : Task) (m : Mask) (f : Nat → Lane → Lane) : (x.onLanes m f).held = x.held := rfl
@[simp] theorem Task.onLanes_fpctl (x : Task) (m : Mask) (f : Nat → Lane → Lane) : (x.onLanes m f).fpctl = x.fpctl := rfl
@[simp] theorem Task.onLanes_sealcnt (x : Task) (m : Mask) (f : Nat → Lane → Lane) : (x.onLanes m f).sealcnt = x.sealcnt := rfl
@[simp] theorem Task.onLanes_zerochk (x : Task) (m : Mask) (f : Nat → Lane → Lane) : (x.onLanes m f).zerochk = x.zerochk := rfl
@[simp] theorem Task.onLanes_exmode (x : Task) (m : Mask) (f : Nat → Lane → Lane) : (x.onLanes m f).exmode = x.exmode := rfl
@[simp] theorem Task.onLanes_ownExm (x : Task) (m : Mask) (f : Nat → Lane → Lane) : (x.onLanes m f).ownExm = x.ownExm := rfl
@[simp] theorem Task.onLanes_dset (x : Task) (m : Mask) (f : Nat → Lane → Lane) : (x.onLanes m f).dset = x.dset := rfl
@[simp] theorem Task.onLanes_oset (x : Task) (m : Mask) (f : Nat → Lane → Lane) : (x.onLanes m f).oset = x.oset := rfl
@[simp] theorem Task.onLanes_quant (x : Task) (m : Mask) (f : Nat → Lane → Lane) : (x.onLanes m f).quant = x.quant := rfl
@[simp] theorem Task.onLanes_bbc (x : Task) (m : Mask) (f : Nat → Lane → Lane) : (x.onLanes m f).bbc = x.bbc := rfl
@[simp] theorem Task.onLanes_childCtr (x : Task) (m : Mask) (f : Nat → Lane → Lane) : (x.onLanes m f).childCtr = x.childCtr := rfl
@[simp] theorem Task.onLanes_childGen (x : Task) (m : Mask) (f : Nat → Lane → Lane) : (x.onLanes m f).childGen = x.childGen := rfl
@[simp] theorem Task.onLanes_prio (x : Task) (m : Mask) (f : Nat → Lane → Lane) : (x.onLanes m f).prio = x.prio := rfl
@[simp] theorem Task.onLanes_ceil (x : Task) (m : Mask) (f : Nat → Lane → Lane) : (x.onLanes m f).ceil = x.ceil := rfl
@[simp] theorem Task.onLanes_plies (x : Task) (m : Mask) (f : Nat → Lane → Lane) : (x.onLanes m f).plies = x.plies := rfl
@[simp] theorem Task.onLanes_pbase (x : Task) (m : Mask) (f : Nat → Lane → Lane) : (x.onLanes m f).pbase = x.pbase := rfl
@[simp] theorem Task.onLanes_privWritten (x : Task) (m : Mask) (f : Nat → Lane → Lane) : (x.onLanes m f).privWritten = x.privWritten := rfl
@[simp] theorem Task.onLanes_unfenced (x : Task) (m : Mask) (f : Nat → Lane → Lane) : (x.onLanes m f).unfenced = x.unfenced := rfl
@[simp] theorem Task.onLanes_after (x : Task) (m : Mask) (f : Nat → Lane → Lane) : (x.onLanes m f).after = x.after := rfl
@[simp] theorem Task.onLanes_relMark (x : Task) (m : Mask) (f : Nat → Lane → Lane) : (x.onLanes m f).relMark = x.relMark := rfl
@[simp] theorem Task.onLanes_carried (x : Task) (m : Mask) (f : Nat → Lane → Lane) : (x.onLanes m f).carried = x.carried := rfl
@[simp] theorem Task.onLanes_sregs (x : Task) (m : Mask) (f : Nat → Lane → Lane) : (x.onLanes m f).sregs = x.sregs := rfl
@[simp] theorem Task.onLanes_vregs (x : Task) (m : Mask) (f : Nat → Lane → Lane) : (x.onLanes m f).vregs = x.vregs := rfl
@[simp] theorem Task.onLanes_preds (x : Task) (m : Mask) (f : Nat → Lane → Lane) : (x.onLanes m f).preds = x.preds := rfl
@[simp] theorem Task.onLanes_outs (x : Task) (m : Mask) (f : Nat → Lane → Lane) : (x.onLanes m f).outs = x.outs := rfl
@[simp] theorem Task.onLanes_sfOps (x : Task) (m : Mask) (f : Nat → Lane → Lane) : (x.onLanes m f).sfOps = x.sfOps := rfl
@[simp] theorem Task.onLanes_waits (x : Task) (m : Mask) (f : Nat → Lane → Lane) : (x.onLanes m f).waits = x.waits := rfl
@[simp] theorem Task.onLanes_children (x : Task) (m : Mask) (f : Nat → Lane → Lane) : (x.onLanes m f).children = x.children := rfl
@[simp] theorem Task.onLanes_dseq (x : Task) (m : Mask) (f : Nat → Lane → Lane) : (x.onLanes m f).dseq = x.dseq := rfl
@[simp] theorem Task.onLanes_dentries (x : Task) (m : Mask) (f : Nat → Lane → Lane) : (x.onLanes m f).dentries = x.dentries := rfl
@[simp] theorem Task.onLanes_mxRecs (x : Task) (m : Mask) (f : Nat → Lane → Lane) : (x.onLanes m f).mxRecs = x.mxRecs := rfl
@[simp] theorem Task.onLanes_fault (x : Task) (m : Mask) (f : Nat → Lane → Lane) : (x.onLanes m f).fault = x.fault := rfl
@[simp] theorem Task.onLanes_fetchFault (x : Task) (m : Mask) (f : Nat → Lane → Lane) : (x.onLanes m f).fetchFault = x.fetchFault := rfl
@[simp] theorem Task.onLanes_notice (x : Task) (m : Mask) (f : Nat → Lane → Lane) : (x.onLanes m f).notice = x.notice := rfl
@[simp] theorem Task.onLanes_trapRec (x : Task) (m : Mask) (f : Nat → Lane → Lane) : (x.onLanes m f).trapRec = x.trapRec := rfl
@[simp] theorem Task.onLanes_deferred (x : Task) (m : Mask) (f : Nat → Lane → Lane) : (x.onLanes m f).deferred = x.deferred := rfl
@[simp] theorem Task.onLanes_deferredCopies (x : Task) (m : Mask) (f : Nat → Lane → Lane) : (x.onLanes m f).deferredCopies = x.deferredCopies := rfl
@[simp] theorem Task.onLanes_replayCap (x : Task) (m : Mask) (f : Nat → Lane → Lane) : (x.onLanes m f).replayCap = x.replayCap := rfl
@[simp] theorem Task.onLanes_halted (x : Task) (m : Mask) (f : Nat → Lane → Lane) : (x.onLanes m f).halted = x.halted := rfl
@[simp] theorem Task.onLanes_suspended (x : Task) (m : Mask) (f : Nat → Lane → Lane) : (x.onLanes m f).suspended = x.suspended := rfl
@[simp] theorem Task.onLanes_escalated (x : Task) (m : Mask) (f : Nat → Lane → Lane) : (x.onLanes m f).escalated = x.escalated := rfl
@[simp] theorem Task.onLanes_werr (x : Task) (m : Mask) (f : Nat → Lane → Lane) : (x.onLanes m f).werr = x.werr := rfl
@[simp] theorem Task.onLanes_saving (x : Task) (m : Mask) (f : Nat → Lane → Lane) : (x.onLanes m f).saving = x.saving := rfl
@[simp] theorem Task.onLanes_suspUs (x : Task) (m : Mask) (f : Nat → Lane → Lane) : (x.onLanes m f).suspUs = x.suspUs := rfl
@[simp] theorem Task.onLanes_paused (x : Task) (m : Mask) (f : Nat → Lane → Lane) : (x.onLanes m f).paused = x.paused := rfl
@[simp] theorem Task.onLanes_stop (x : Task) (m : Mask) (f : Nat → Lane → Lane) : (x.onLanes m f).stop = x.stop := rfl
@[simp] theorem Task.onLanes_pendingReplays (x : Task) (m : Mask) (f : Nat → Lane → Lane) : (x.onLanes m f).pendingReplays = x.pendingReplays := rfl
@[simp] theorem Task.onLanes_saved (x : Task) (m : Mask) (f : Nat → Lane → Lane) : (x.onLanes m f).saved = x.saved := rfl
@[simp] theorem Task.onLanes_lastSelect (x : Task) (m : Mask) (f : Nat → Lane → Lane) : (x.onLanes m f).lastSelect = x.lastSelect := rfl
@[simp] theorem Task.setV_id (x : Task) (r l : Nat) (v : BitVec 32) : (x.setV r l v).id = x.id := rfl
@[simp] theorem Task.setV_vf (x : Task) (r l : Nat) (v : BitVec 32) : (x.setV r l v).vf = x.vf := rfl
@[simp] theorem Task.setV_asid (x : Task) (r l : Nat) (v : BitVec 32) : (x.setV r l v).asid = x.asid := rfl
@[simp] theorem Task.setV_prin (x : Task) (r l : Nat) (v : BitVec 32) : (x.setV r l v).prin = x.prin := rfl
@[simp] theorem Task.setV_kernel (x : Task) (r l : Nat) (v : BitVec 32) : (x.setV r l v).kernel = x.kernel := rfl
@[simp] theorem Task.setV_parent (x : Task) (r l : Nat) (v : BitVec 32) : (x.setV r l v).parent = x.parent := rfl
@[simp] theorem Task.setV_root (x : Task) (r l : Nat) (v : BitVec 32) : (x.setV r l v).root = x.root := rfl
@[simp] theorem Task.setV_handle (x : Task) (r l : Nat) (v : BitVec 32) : (x.setV r l v).handle = x.handle := rfl
@[simp] theorem Task.setV_ordinal (x : Task) (r l : Nat) (v : BitVec 32) : (x.setV r l v).ordinal = x.ordinal := rfl
@[simp] theorem Task.setV_det (x : Task) (r l : Nat) (v : BitVec 32) : (x.setV r l v).det = x.det := rfl
@[simp] theorem Task.setV_launch (x : Task) (r l : Nat) (v : BitVec 32) : (x.setV r l v).launch = x.launch := rfl
@[simp] theorem Task.setV_handlerFor (x : Task) (r l : Nat) (v : BitVec 32) : (x.setV r l v).handlerFor = x.handlerFor := rfl
@[simp] theorem Task.setV_viaSpawnx (x : Task) (r l : Nat) (v : BitVec 32) : (x.setV r l v).viaSpawnx = x.viaSpawnx := rfl
@[simp] theorem Task.setV_place (x : Task) (r l : Nat) (v : BitVec 32) : (x.setV r l v).place = x.place := rfl
@[simp] theorem Task.setV_arrival (x : Task) (r l : Nat) (v : BitVec 32) : (x.setV r l v).arrival = x.arrival := rfl
@[simp] theorem Task.setV_everPlaced (x : Task) (r l : Nat) (v : BitVec 32) : (x.setV r l v).everPlaced = x.everPlaced := rfl
@[simp] theorem Task.setV_lcores (x : Task) (r l : Nat) (v : BitVec 32) : (x.setV r l v).lcores = x.lcores := rfl
@[simp] theorem Task.setV_alw (x : Task) (r l : Nat) (v : BitVec 32) : (x.setV r l v).alw = x.alw := rfl
@[simp] theorem Task.setV_held (x : Task) (r l : Nat) (v : BitVec 32) : (x.setV r l v).held = x.held := rfl
@[simp] theorem Task.setV_fpctl (x : Task) (r l : Nat) (v : BitVec 32) : (x.setV r l v).fpctl = x.fpctl := rfl
@[simp] theorem Task.setV_sealcnt (x : Task) (r l : Nat) (v : BitVec 32) : (x.setV r l v).sealcnt = x.sealcnt := rfl
@[simp] theorem Task.setV_zerochk (x : Task) (r l : Nat) (v : BitVec 32) : (x.setV r l v).zerochk = x.zerochk := rfl
@[simp] theorem Task.setV_exmode (x : Task) (r l : Nat) (v : BitVec 32) : (x.setV r l v).exmode = x.exmode := rfl
@[simp] theorem Task.setV_ownExm (x : Task) (r l : Nat) (v : BitVec 32) : (x.setV r l v).ownExm = x.ownExm := rfl
@[simp] theorem Task.setV_dset (x : Task) (r l : Nat) (v : BitVec 32) : (x.setV r l v).dset = x.dset := rfl
@[simp] theorem Task.setV_oset (x : Task) (r l : Nat) (v : BitVec 32) : (x.setV r l v).oset = x.oset := rfl
@[simp] theorem Task.setV_quant (x : Task) (r l : Nat) (v : BitVec 32) : (x.setV r l v).quant = x.quant := rfl
@[simp] theorem Task.setV_bbc (x : Task) (r l : Nat) (v : BitVec 32) : (x.setV r l v).bbc = x.bbc := rfl
@[simp] theorem Task.setV_childCtr (x : Task) (r l : Nat) (v : BitVec 32) : (x.setV r l v).childCtr = x.childCtr := rfl
@[simp] theorem Task.setV_childGen (x : Task) (r l : Nat) (v : BitVec 32) : (x.setV r l v).childGen = x.childGen := rfl
@[simp] theorem Task.setV_prio (x : Task) (r l : Nat) (v : BitVec 32) : (x.setV r l v).prio = x.prio := rfl
@[simp] theorem Task.setV_ceil (x : Task) (r l : Nat) (v : BitVec 32) : (x.setV r l v).ceil = x.ceil := rfl
@[simp] theorem Task.setV_plies (x : Task) (r l : Nat) (v : BitVec 32) : (x.setV r l v).plies = x.plies := rfl
@[simp] theorem Task.setV_pbase (x : Task) (r l : Nat) (v : BitVec 32) : (x.setV r l v).pbase = x.pbase := rfl
@[simp] theorem Task.setV_privWritten (x : Task) (r l : Nat) (v : BitVec 32) : (x.setV r l v).privWritten = x.privWritten := rfl
@[simp] theorem Task.setV_unfenced (x : Task) (r l : Nat) (v : BitVec 32) : (x.setV r l v).unfenced = x.unfenced := rfl
@[simp] theorem Task.setV_after (x : Task) (r l : Nat) (v : BitVec 32) : (x.setV r l v).after = x.after := rfl
@[simp] theorem Task.setV_relMark (x : Task) (r l : Nat) (v : BitVec 32) : (x.setV r l v).relMark = x.relMark := rfl
@[simp] theorem Task.setV_carried (x : Task) (r l : Nat) (v : BitVec 32) : (x.setV r l v).carried = x.carried := rfl
@[simp] theorem Task.setV_lanes (x : Task) (r l : Nat) (v : BitVec 32) : (x.setV r l v).lanes = x.lanes := rfl
@[simp] theorem Task.setV_sregs (x : Task) (r l : Nat) (v : BitVec 32) : (x.setV r l v).sregs = x.sregs := rfl
@[simp] theorem Task.setV_preds (x : Task) (r l : Nat) (v : BitVec 32) : (x.setV r l v).preds = x.preds := rfl
@[simp] theorem Task.setV_outs (x : Task) (r l : Nat) (v : BitVec 32) : (x.setV r l v).outs = x.outs := rfl
@[simp] theorem Task.setV_sfOps (x : Task) (r l : Nat) (v : BitVec 32) : (x.setV r l v).sfOps = x.sfOps := rfl
@[simp] theorem Task.setV_waits (x : Task) (r l : Nat) (v : BitVec 32) : (x.setV r l v).waits = x.waits := rfl
@[simp] theorem Task.setV_children (x : Task) (r l : Nat) (v : BitVec 32) : (x.setV r l v).children = x.children := rfl
@[simp] theorem Task.setV_dseq (x : Task) (r l : Nat) (v : BitVec 32) : (x.setV r l v).dseq = x.dseq := rfl
@[simp] theorem Task.setV_dentries (x : Task) (r l : Nat) (v : BitVec 32) : (x.setV r l v).dentries = x.dentries := rfl
@[simp] theorem Task.setV_mxRecs (x : Task) (r l : Nat) (v : BitVec 32) : (x.setV r l v).mxRecs = x.mxRecs := rfl
@[simp] theorem Task.setV_fault (x : Task) (r l : Nat) (v : BitVec 32) : (x.setV r l v).fault = x.fault := rfl
@[simp] theorem Task.setV_fetchFault (x : Task) (r l : Nat) (v : BitVec 32) : (x.setV r l v).fetchFault = x.fetchFault := rfl
@[simp] theorem Task.setV_notice (x : Task) (r l : Nat) (v : BitVec 32) : (x.setV r l v).notice = x.notice := rfl
@[simp] theorem Task.setV_trapRec (x : Task) (r l : Nat) (v : BitVec 32) : (x.setV r l v).trapRec = x.trapRec := rfl
@[simp] theorem Task.setV_deferred (x : Task) (r l : Nat) (v : BitVec 32) : (x.setV r l v).deferred = x.deferred := rfl
@[simp] theorem Task.setV_deferredCopies (x : Task) (r l : Nat) (v : BitVec 32) : (x.setV r l v).deferredCopies = x.deferredCopies := rfl
@[simp] theorem Task.setV_replayCap (x : Task) (r l : Nat) (v : BitVec 32) : (x.setV r l v).replayCap = x.replayCap := rfl
@[simp] theorem Task.setV_halted (x : Task) (r l : Nat) (v : BitVec 32) : (x.setV r l v).halted = x.halted := rfl
@[simp] theorem Task.setV_suspended (x : Task) (r l : Nat) (v : BitVec 32) : (x.setV r l v).suspended = x.suspended := rfl
@[simp] theorem Task.setV_escalated (x : Task) (r l : Nat) (v : BitVec 32) : (x.setV r l v).escalated = x.escalated := rfl
@[simp] theorem Task.setV_werr (x : Task) (r l : Nat) (v : BitVec 32) : (x.setV r l v).werr = x.werr := rfl
@[simp] theorem Task.setV_saving (x : Task) (r l : Nat) (v : BitVec 32) : (x.setV r l v).saving = x.saving := rfl
@[simp] theorem Task.setV_suspUs (x : Task) (r l : Nat) (v : BitVec 32) : (x.setV r l v).suspUs = x.suspUs := rfl
@[simp] theorem Task.setV_paused (x : Task) (r l : Nat) (v : BitVec 32) : (x.setV r l v).paused = x.paused := rfl
@[simp] theorem Task.setV_stop (x : Task) (r l : Nat) (v : BitVec 32) : (x.setV r l v).stop = x.stop := rfl
@[simp] theorem Task.setV_pendingReplays (x : Task) (r l : Nat) (v : BitVec 32) : (x.setV r l v).pendingReplays = x.pendingReplays := rfl
@[simp] theorem Task.setV_saved (x : Task) (r l : Nat) (v : BitVec 32) : (x.setV r l v).saved = x.saved := rfl
@[simp] theorem Task.setV_lastSelect (x : Task) (r l : Nat) (v : BitVec 32) : (x.setV r l v).lastSelect = x.lastSelect := rfl
@[simp] theorem Task.setS_id (x : Task) (r : Fin 64) (v : BitVec 64) : (x.setS r v).id = x.id := by unfold Task.setS; split <;> rfl
@[simp] theorem Task.setS_vf (x : Task) (r : Fin 64) (v : BitVec 64) : (x.setS r v).vf = x.vf := by unfold Task.setS; split <;> rfl
@[simp] theorem Task.setS_asid (x : Task) (r : Fin 64) (v : BitVec 64) : (x.setS r v).asid = x.asid := by unfold Task.setS; split <;> rfl
@[simp] theorem Task.setS_prin (x : Task) (r : Fin 64) (v : BitVec 64) : (x.setS r v).prin = x.prin := by unfold Task.setS; split <;> rfl
@[simp] theorem Task.setS_kernel (x : Task) (r : Fin 64) (v : BitVec 64) : (x.setS r v).kernel = x.kernel := by unfold Task.setS; split <;> rfl
@[simp] theorem Task.setS_parent (x : Task) (r : Fin 64) (v : BitVec 64) : (x.setS r v).parent = x.parent := by unfold Task.setS; split <;> rfl
@[simp] theorem Task.setS_root (x : Task) (r : Fin 64) (v : BitVec 64) : (x.setS r v).root = x.root := by unfold Task.setS; split <;> rfl
@[simp] theorem Task.setS_handle (x : Task) (r : Fin 64) (v : BitVec 64) : (x.setS r v).handle = x.handle := by unfold Task.setS; split <;> rfl
@[simp] theorem Task.setS_ordinal (x : Task) (r : Fin 64) (v : BitVec 64) : (x.setS r v).ordinal = x.ordinal := by unfold Task.setS; split <;> rfl
@[simp] theorem Task.setS_det (x : Task) (r : Fin 64) (v : BitVec 64) : (x.setS r v).det = x.det := by unfold Task.setS; split <;> rfl
@[simp] theorem Task.setS_launch (x : Task) (r : Fin 64) (v : BitVec 64) : (x.setS r v).launch = x.launch := by unfold Task.setS; split <;> rfl
@[simp] theorem Task.setS_handlerFor (x : Task) (r : Fin 64) (v : BitVec 64) : (x.setS r v).handlerFor = x.handlerFor := by unfold Task.setS; split <;> rfl
@[simp] theorem Task.setS_viaSpawnx (x : Task) (r : Fin 64) (v : BitVec 64) : (x.setS r v).viaSpawnx = x.viaSpawnx := by unfold Task.setS; split <;> rfl
@[simp] theorem Task.setS_place (x : Task) (r : Fin 64) (v : BitVec 64) : (x.setS r v).place = x.place := by unfold Task.setS; split <;> rfl
@[simp] theorem Task.setS_arrival (x : Task) (r : Fin 64) (v : BitVec 64) : (x.setS r v).arrival = x.arrival := by unfold Task.setS; split <;> rfl
@[simp] theorem Task.setS_everPlaced (x : Task) (r : Fin 64) (v : BitVec 64) : (x.setS r v).everPlaced = x.everPlaced := by unfold Task.setS; split <;> rfl
@[simp] theorem Task.setS_lcores (x : Task) (r : Fin 64) (v : BitVec 64) : (x.setS r v).lcores = x.lcores := by unfold Task.setS; split <;> rfl
@[simp] theorem Task.setS_alw (x : Task) (r : Fin 64) (v : BitVec 64) : (x.setS r v).alw = x.alw := by unfold Task.setS; split <;> rfl
@[simp] theorem Task.setS_held (x : Task) (r : Fin 64) (v : BitVec 64) : (x.setS r v).held = x.held := by unfold Task.setS; split <;> rfl
@[simp] theorem Task.setS_fpctl (x : Task) (r : Fin 64) (v : BitVec 64) : (x.setS r v).fpctl = x.fpctl := by unfold Task.setS; split <;> rfl
@[simp] theorem Task.setS_sealcnt (x : Task) (r : Fin 64) (v : BitVec 64) : (x.setS r v).sealcnt = x.sealcnt := by unfold Task.setS; split <;> rfl
@[simp] theorem Task.setS_zerochk (x : Task) (r : Fin 64) (v : BitVec 64) : (x.setS r v).zerochk = x.zerochk := by unfold Task.setS; split <;> rfl
@[simp] theorem Task.setS_exmode (x : Task) (r : Fin 64) (v : BitVec 64) : (x.setS r v).exmode = x.exmode := by unfold Task.setS; split <;> rfl
@[simp] theorem Task.setS_ownExm (x : Task) (r : Fin 64) (v : BitVec 64) : (x.setS r v).ownExm = x.ownExm := by unfold Task.setS; split <;> rfl
@[simp] theorem Task.setS_dset (x : Task) (r : Fin 64) (v : BitVec 64) : (x.setS r v).dset = x.dset := by unfold Task.setS; split <;> rfl
@[simp] theorem Task.setS_oset (x : Task) (r : Fin 64) (v : BitVec 64) : (x.setS r v).oset = x.oset := by unfold Task.setS; split <;> rfl
@[simp] theorem Task.setS_quant (x : Task) (r : Fin 64) (v : BitVec 64) : (x.setS r v).quant = x.quant := by unfold Task.setS; split <;> rfl
@[simp] theorem Task.setS_bbc (x : Task) (r : Fin 64) (v : BitVec 64) : (x.setS r v).bbc = x.bbc := by unfold Task.setS; split <;> rfl
@[simp] theorem Task.setS_childCtr (x : Task) (r : Fin 64) (v : BitVec 64) : (x.setS r v).childCtr = x.childCtr := by unfold Task.setS; split <;> rfl
@[simp] theorem Task.setS_childGen (x : Task) (r : Fin 64) (v : BitVec 64) : (x.setS r v).childGen = x.childGen := by unfold Task.setS; split <;> rfl
@[simp] theorem Task.setS_prio (x : Task) (r : Fin 64) (v : BitVec 64) : (x.setS r v).prio = x.prio := by unfold Task.setS; split <;> rfl
@[simp] theorem Task.setS_ceil (x : Task) (r : Fin 64) (v : BitVec 64) : (x.setS r v).ceil = x.ceil := by unfold Task.setS; split <;> rfl
@[simp] theorem Task.setS_plies (x : Task) (r : Fin 64) (v : BitVec 64) : (x.setS r v).plies = x.plies := by unfold Task.setS; split <;> rfl
@[simp] theorem Task.setS_pbase (x : Task) (r : Fin 64) (v : BitVec 64) : (x.setS r v).pbase = x.pbase := by unfold Task.setS; split <;> rfl
@[simp] theorem Task.setS_privWritten (x : Task) (r : Fin 64) (v : BitVec 64) : (x.setS r v).privWritten = x.privWritten := by unfold Task.setS; split <;> rfl
@[simp] theorem Task.setS_unfenced (x : Task) (r : Fin 64) (v : BitVec 64) : (x.setS r v).unfenced = x.unfenced := by unfold Task.setS; split <;> rfl
@[simp] theorem Task.setS_after (x : Task) (r : Fin 64) (v : BitVec 64) : (x.setS r v).after = x.after := by unfold Task.setS; split <;> rfl
@[simp] theorem Task.setS_relMark (x : Task) (r : Fin 64) (v : BitVec 64) : (x.setS r v).relMark = x.relMark := by unfold Task.setS; split <;> rfl
@[simp] theorem Task.setS_carried (x : Task) (r : Fin 64) (v : BitVec 64) : (x.setS r v).carried = x.carried := by unfold Task.setS; split <;> rfl
@[simp] theorem Task.setS_lanes (x : Task) (r : Fin 64) (v : BitVec 64) : (x.setS r v).lanes = x.lanes := by unfold Task.setS; split <;> rfl
@[simp] theorem Task.setS_vregs (x : Task) (r : Fin 64) (v : BitVec 64) : (x.setS r v).vregs = x.vregs := by unfold Task.setS; split <;> rfl
@[simp] theorem Task.setS_preds (x : Task) (r : Fin 64) (v : BitVec 64) : (x.setS r v).preds = x.preds := by unfold Task.setS; split <;> rfl
@[simp] theorem Task.setS_outs (x : Task) (r : Fin 64) (v : BitVec 64) : (x.setS r v).outs = x.outs := by unfold Task.setS; split <;> rfl
@[simp] theorem Task.setS_sfOps (x : Task) (r : Fin 64) (v : BitVec 64) : (x.setS r v).sfOps = x.sfOps := by unfold Task.setS; split <;> rfl
@[simp] theorem Task.setS_waits (x : Task) (r : Fin 64) (v : BitVec 64) : (x.setS r v).waits = x.waits := by unfold Task.setS; split <;> rfl
@[simp] theorem Task.setS_children (x : Task) (r : Fin 64) (v : BitVec 64) : (x.setS r v).children = x.children := by unfold Task.setS; split <;> rfl
@[simp] theorem Task.setS_dseq (x : Task) (r : Fin 64) (v : BitVec 64) : (x.setS r v).dseq = x.dseq := by unfold Task.setS; split <;> rfl
@[simp] theorem Task.setS_dentries (x : Task) (r : Fin 64) (v : BitVec 64) : (x.setS r v).dentries = x.dentries := by unfold Task.setS; split <;> rfl
@[simp] theorem Task.setS_mxRecs (x : Task) (r : Fin 64) (v : BitVec 64) : (x.setS r v).mxRecs = x.mxRecs := by unfold Task.setS; split <;> rfl
@[simp] theorem Task.setS_fault (x : Task) (r : Fin 64) (v : BitVec 64) : (x.setS r v).fault = x.fault := by unfold Task.setS; split <;> rfl
@[simp] theorem Task.setS_fetchFault (x : Task) (r : Fin 64) (v : BitVec 64) : (x.setS r v).fetchFault = x.fetchFault := by unfold Task.setS; split <;> rfl
@[simp] theorem Task.setS_notice (x : Task) (r : Fin 64) (v : BitVec 64) : (x.setS r v).notice = x.notice := by unfold Task.setS; split <;> rfl
@[simp] theorem Task.setS_trapRec (x : Task) (r : Fin 64) (v : BitVec 64) : (x.setS r v).trapRec = x.trapRec := by unfold Task.setS; split <;> rfl
@[simp] theorem Task.setS_deferred (x : Task) (r : Fin 64) (v : BitVec 64) : (x.setS r v).deferred = x.deferred := by unfold Task.setS; split <;> rfl
@[simp] theorem Task.setS_deferredCopies (x : Task) (r : Fin 64) (v : BitVec 64) : (x.setS r v).deferredCopies = x.deferredCopies := by unfold Task.setS; split <;> rfl
@[simp] theorem Task.setS_replayCap (x : Task) (r : Fin 64) (v : BitVec 64) : (x.setS r v).replayCap = x.replayCap := by unfold Task.setS; split <;> rfl
@[simp] theorem Task.setS_halted (x : Task) (r : Fin 64) (v : BitVec 64) : (x.setS r v).halted = x.halted := by unfold Task.setS; split <;> rfl
@[simp] theorem Task.setS_suspended (x : Task) (r : Fin 64) (v : BitVec 64) : (x.setS r v).suspended = x.suspended := by unfold Task.setS; split <;> rfl
@[simp] theorem Task.setS_escalated (x : Task) (r : Fin 64) (v : BitVec 64) : (x.setS r v).escalated = x.escalated := by unfold Task.setS; split <;> rfl
@[simp] theorem Task.setS_werr (x : Task) (r : Fin 64) (v : BitVec 64) : (x.setS r v).werr = x.werr := by unfold Task.setS; split <;> rfl
@[simp] theorem Task.setS_saving (x : Task) (r : Fin 64) (v : BitVec 64) : (x.setS r v).saving = x.saving := by unfold Task.setS; split <;> rfl
@[simp] theorem Task.setS_suspUs (x : Task) (r : Fin 64) (v : BitVec 64) : (x.setS r v).suspUs = x.suspUs := by unfold Task.setS; split <;> rfl
@[simp] theorem Task.setS_paused (x : Task) (r : Fin 64) (v : BitVec 64) : (x.setS r v).paused = x.paused := by unfold Task.setS; split <;> rfl
@[simp] theorem Task.setS_stop (x : Task) (r : Fin 64) (v : BitVec 64) : (x.setS r v).stop = x.stop := by unfold Task.setS; split <;> rfl
@[simp] theorem Task.setS_pendingReplays (x : Task) (r : Fin 64) (v : BitVec 64) : (x.setS r v).pendingReplays = x.pendingReplays := by unfold Task.setS; split <;> rfl
@[simp] theorem Task.setS_saved (x : Task) (r : Fin 64) (v : BitVec 64) : (x.setS r v).saved = x.saved := by unfold Task.setS; split <;> rfl
@[simp] theorem Task.setS_lastSelect (x : Task) (r : Fin 64) (v : BitVec 64) : (x.setS r v).lastSelect = x.lastSelect := by unfold Task.setS; split <;> rfl
@[simp] theorem Task.setPred_id (x : Task) (p : Fin 8) (m v : Mask) : (x.setPred p m v).id = x.id := by unfold Task.setPred; split <;> rfl
@[simp] theorem Task.setPred_vf (x : Task) (p : Fin 8) (m v : Mask) : (x.setPred p m v).vf = x.vf := by unfold Task.setPred; split <;> rfl
@[simp] theorem Task.setPred_asid (x : Task) (p : Fin 8) (m v : Mask) : (x.setPred p m v).asid = x.asid := by unfold Task.setPred; split <;> rfl
@[simp] theorem Task.setPred_prin (x : Task) (p : Fin 8) (m v : Mask) : (x.setPred p m v).prin = x.prin := by unfold Task.setPred; split <;> rfl
@[simp] theorem Task.setPred_kernel (x : Task) (p : Fin 8) (m v : Mask) : (x.setPred p m v).kernel = x.kernel := by unfold Task.setPred; split <;> rfl
@[simp] theorem Task.setPred_parent (x : Task) (p : Fin 8) (m v : Mask) : (x.setPred p m v).parent = x.parent := by unfold Task.setPred; split <;> rfl
@[simp] theorem Task.setPred_root (x : Task) (p : Fin 8) (m v : Mask) : (x.setPred p m v).root = x.root := by unfold Task.setPred; split <;> rfl
@[simp] theorem Task.setPred_handle (x : Task) (p : Fin 8) (m v : Mask) : (x.setPred p m v).handle = x.handle := by unfold Task.setPred; split <;> rfl
@[simp] theorem Task.setPred_ordinal (x : Task) (p : Fin 8) (m v : Mask) : (x.setPred p m v).ordinal = x.ordinal := by unfold Task.setPred; split <;> rfl
@[simp] theorem Task.setPred_det (x : Task) (p : Fin 8) (m v : Mask) : (x.setPred p m v).det = x.det := by unfold Task.setPred; split <;> rfl
@[simp] theorem Task.setPred_launch (x : Task) (p : Fin 8) (m v : Mask) : (x.setPred p m v).launch = x.launch := by unfold Task.setPred; split <;> rfl
@[simp] theorem Task.setPred_handlerFor (x : Task) (p : Fin 8) (m v : Mask) : (x.setPred p m v).handlerFor = x.handlerFor := by unfold Task.setPred; split <;> rfl
@[simp] theorem Task.setPred_viaSpawnx (x : Task) (p : Fin 8) (m v : Mask) : (x.setPred p m v).viaSpawnx = x.viaSpawnx := by unfold Task.setPred; split <;> rfl
@[simp] theorem Task.setPred_place (x : Task) (p : Fin 8) (m v : Mask) : (x.setPred p m v).place = x.place := by unfold Task.setPred; split <;> rfl
@[simp] theorem Task.setPred_arrival (x : Task) (p : Fin 8) (m v : Mask) : (x.setPred p m v).arrival = x.arrival := by unfold Task.setPred; split <;> rfl
@[simp] theorem Task.setPred_everPlaced (x : Task) (p : Fin 8) (m v : Mask) : (x.setPred p m v).everPlaced = x.everPlaced := by unfold Task.setPred; split <;> rfl
@[simp] theorem Task.setPred_lcores (x : Task) (p : Fin 8) (m v : Mask) : (x.setPred p m v).lcores = x.lcores := by unfold Task.setPred; split <;> rfl
@[simp] theorem Task.setPred_alw (x : Task) (p : Fin 8) (m v : Mask) : (x.setPred p m v).alw = x.alw := by unfold Task.setPred; split <;> rfl
@[simp] theorem Task.setPred_held (x : Task) (p : Fin 8) (m v : Mask) : (x.setPred p m v).held = x.held := by unfold Task.setPred; split <;> rfl
@[simp] theorem Task.setPred_fpctl (x : Task) (p : Fin 8) (m v : Mask) : (x.setPred p m v).fpctl = x.fpctl := by unfold Task.setPred; split <;> rfl
@[simp] theorem Task.setPred_sealcnt (x : Task) (p : Fin 8) (m v : Mask) : (x.setPred p m v).sealcnt = x.sealcnt := by unfold Task.setPred; split <;> rfl
@[simp] theorem Task.setPred_zerochk (x : Task) (p : Fin 8) (m v : Mask) : (x.setPred p m v).zerochk = x.zerochk := by unfold Task.setPred; split <;> rfl
@[simp] theorem Task.setPred_exmode (x : Task) (p : Fin 8) (m v : Mask) : (x.setPred p m v).exmode = x.exmode := by unfold Task.setPred; split <;> rfl
@[simp] theorem Task.setPred_ownExm (x : Task) (p : Fin 8) (m v : Mask) : (x.setPred p m v).ownExm = x.ownExm := by unfold Task.setPred; split <;> rfl
@[simp] theorem Task.setPred_dset (x : Task) (p : Fin 8) (m v : Mask) : (x.setPred p m v).dset = x.dset := by unfold Task.setPred; split <;> rfl
@[simp] theorem Task.setPred_oset (x : Task) (p : Fin 8) (m v : Mask) : (x.setPred p m v).oset = x.oset := by unfold Task.setPred; split <;> rfl
@[simp] theorem Task.setPred_quant (x : Task) (p : Fin 8) (m v : Mask) : (x.setPred p m v).quant = x.quant := by unfold Task.setPred; split <;> rfl
@[simp] theorem Task.setPred_bbc (x : Task) (p : Fin 8) (m v : Mask) : (x.setPred p m v).bbc = x.bbc := by unfold Task.setPred; split <;> rfl
@[simp] theorem Task.setPred_childCtr (x : Task) (p : Fin 8) (m v : Mask) : (x.setPred p m v).childCtr = x.childCtr := by unfold Task.setPred; split <;> rfl
@[simp] theorem Task.setPred_childGen (x : Task) (p : Fin 8) (m v : Mask) : (x.setPred p m v).childGen = x.childGen := by unfold Task.setPred; split <;> rfl
@[simp] theorem Task.setPred_prio (x : Task) (p : Fin 8) (m v : Mask) : (x.setPred p m v).prio = x.prio := by unfold Task.setPred; split <;> rfl
@[simp] theorem Task.setPred_ceil (x : Task) (p : Fin 8) (m v : Mask) : (x.setPred p m v).ceil = x.ceil := by unfold Task.setPred; split <;> rfl
@[simp] theorem Task.setPred_plies (x : Task) (p : Fin 8) (m v : Mask) : (x.setPred p m v).plies = x.plies := by unfold Task.setPred; split <;> rfl
@[simp] theorem Task.setPred_pbase (x : Task) (p : Fin 8) (m v : Mask) : (x.setPred p m v).pbase = x.pbase := by unfold Task.setPred; split <;> rfl
@[simp] theorem Task.setPred_privWritten (x : Task) (p : Fin 8) (m v : Mask) : (x.setPred p m v).privWritten = x.privWritten := by unfold Task.setPred; split <;> rfl
@[simp] theorem Task.setPred_unfenced (x : Task) (p : Fin 8) (m v : Mask) : (x.setPred p m v).unfenced = x.unfenced := by unfold Task.setPred; split <;> rfl
@[simp] theorem Task.setPred_after (x : Task) (p : Fin 8) (m v : Mask) : (x.setPred p m v).after = x.after := by unfold Task.setPred; split <;> rfl
@[simp] theorem Task.setPred_relMark (x : Task) (p : Fin 8) (m v : Mask) : (x.setPred p m v).relMark = x.relMark := by unfold Task.setPred; split <;> rfl
@[simp] theorem Task.setPred_carried (x : Task) (p : Fin 8) (m v : Mask) : (x.setPred p m v).carried = x.carried := by unfold Task.setPred; split <;> rfl
@[simp] theorem Task.setPred_lanes (x : Task) (p : Fin 8) (m v : Mask) : (x.setPred p m v).lanes = x.lanes := by unfold Task.setPred; split <;> rfl
@[simp] theorem Task.setPred_sregs (x : Task) (p : Fin 8) (m v : Mask) : (x.setPred p m v).sregs = x.sregs := by unfold Task.setPred; split <;> rfl
@[simp] theorem Task.setPred_vregs (x : Task) (p : Fin 8) (m v : Mask) : (x.setPred p m v).vregs = x.vregs := by unfold Task.setPred; split <;> rfl
@[simp] theorem Task.setPred_outs (x : Task) (p : Fin 8) (m v : Mask) : (x.setPred p m v).outs = x.outs := by unfold Task.setPred; split <;> rfl
@[simp] theorem Task.setPred_sfOps (x : Task) (p : Fin 8) (m v : Mask) : (x.setPred p m v).sfOps = x.sfOps := by unfold Task.setPred; split <;> rfl
@[simp] theorem Task.setPred_waits (x : Task) (p : Fin 8) (m v : Mask) : (x.setPred p m v).waits = x.waits := by unfold Task.setPred; split <;> rfl
@[simp] theorem Task.setPred_children (x : Task) (p : Fin 8) (m v : Mask) : (x.setPred p m v).children = x.children := by unfold Task.setPred; split <;> rfl
@[simp] theorem Task.setPred_dseq (x : Task) (p : Fin 8) (m v : Mask) : (x.setPred p m v).dseq = x.dseq := by unfold Task.setPred; split <;> rfl
@[simp] theorem Task.setPred_dentries (x : Task) (p : Fin 8) (m v : Mask) : (x.setPred p m v).dentries = x.dentries := by unfold Task.setPred; split <;> rfl
@[simp] theorem Task.setPred_mxRecs (x : Task) (p : Fin 8) (m v : Mask) : (x.setPred p m v).mxRecs = x.mxRecs := by unfold Task.setPred; split <;> rfl
@[simp] theorem Task.setPred_fault (x : Task) (p : Fin 8) (m v : Mask) : (x.setPred p m v).fault = x.fault := by unfold Task.setPred; split <;> rfl
@[simp] theorem Task.setPred_fetchFault (x : Task) (p : Fin 8) (m v : Mask) : (x.setPred p m v).fetchFault = x.fetchFault := by unfold Task.setPred; split <;> rfl
@[simp] theorem Task.setPred_notice (x : Task) (p : Fin 8) (m v : Mask) : (x.setPred p m v).notice = x.notice := by unfold Task.setPred; split <;> rfl
@[simp] theorem Task.setPred_trapRec (x : Task) (p : Fin 8) (m v : Mask) : (x.setPred p m v).trapRec = x.trapRec := by unfold Task.setPred; split <;> rfl
@[simp] theorem Task.setPred_deferred (x : Task) (p : Fin 8) (m v : Mask) : (x.setPred p m v).deferred = x.deferred := by unfold Task.setPred; split <;> rfl
@[simp] theorem Task.setPred_deferredCopies (x : Task) (p : Fin 8) (m v : Mask) : (x.setPred p m v).deferredCopies = x.deferredCopies := by unfold Task.setPred; split <;> rfl
@[simp] theorem Task.setPred_replayCap (x : Task) (p : Fin 8) (m v : Mask) : (x.setPred p m v).replayCap = x.replayCap := by unfold Task.setPred; split <;> rfl
@[simp] theorem Task.setPred_halted (x : Task) (p : Fin 8) (m v : Mask) : (x.setPred p m v).halted = x.halted := by unfold Task.setPred; split <;> rfl
@[simp] theorem Task.setPred_suspended (x : Task) (p : Fin 8) (m v : Mask) : (x.setPred p m v).suspended = x.suspended := by unfold Task.setPred; split <;> rfl
@[simp] theorem Task.setPred_escalated (x : Task) (p : Fin 8) (m v : Mask) : (x.setPred p m v).escalated = x.escalated := by unfold Task.setPred; split <;> rfl
@[simp] theorem Task.setPred_werr (x : Task) (p : Fin 8) (m v : Mask) : (x.setPred p m v).werr = x.werr := by unfold Task.setPred; split <;> rfl
@[simp] theorem Task.setPred_saving (x : Task) (p : Fin 8) (m v : Mask) : (x.setPred p m v).saving = x.saving := by unfold Task.setPred; split <;> rfl
@[simp] theorem Task.setPred_suspUs (x : Task) (p : Fin 8) (m v : Mask) : (x.setPred p m v).suspUs = x.suspUs := by unfold Task.setPred; split <;> rfl
@[simp] theorem Task.setPred_paused (x : Task) (p : Fin 8) (m v : Mask) : (x.setPred p m v).paused = x.paused := by unfold Task.setPred; split <;> rfl
@[simp] theorem Task.setPred_stop (x : Task) (p : Fin 8) (m v : Mask) : (x.setPred p m v).stop = x.stop := by unfold Task.setPred; split <;> rfl
@[simp] theorem Task.setPred_pendingReplays (x : Task) (p : Fin 8) (m v : Mask) : (x.setPred p m v).pendingReplays = x.pendingReplays := by unfold Task.setPred; split <;> rfl
@[simp] theorem Task.setPred_saved (x : Task) (p : Fin 8) (m v : Mask) : (x.setPred p m v).saved = x.saved := by unfold Task.setPred; split <;> rfl
@[simp] theorem Task.setPred_lastSelect (x : Task) (p : Fin 8) (m v : Mask) : (x.setPred p m v).lastSelect = x.lastSelect := by unfold Task.setPred; split <;> rfl
@[simp] theorem Task.overwrite_id (x : Task) (r l : Nat) : (x.overwrite r l).id = x.id := rfl
@[simp] theorem Task.overwrite_vf (x : Task) (r l : Nat) : (x.overwrite r l).vf = x.vf := rfl
@[simp] theorem Task.overwrite_asid (x : Task) (r l : Nat) : (x.overwrite r l).asid = x.asid := rfl
@[simp] theorem Task.overwrite_prin (x : Task) (r l : Nat) : (x.overwrite r l).prin = x.prin := rfl
@[simp] theorem Task.overwrite_kernel (x : Task) (r l : Nat) : (x.overwrite r l).kernel = x.kernel := rfl
@[simp] theorem Task.overwrite_parent (x : Task) (r l : Nat) : (x.overwrite r l).parent = x.parent := rfl
@[simp] theorem Task.overwrite_root (x : Task) (r l : Nat) : (x.overwrite r l).root = x.root := rfl
@[simp] theorem Task.overwrite_handle (x : Task) (r l : Nat) : (x.overwrite r l).handle = x.handle := rfl
@[simp] theorem Task.overwrite_ordinal (x : Task) (r l : Nat) : (x.overwrite r l).ordinal = x.ordinal := rfl
@[simp] theorem Task.overwrite_det (x : Task) (r l : Nat) : (x.overwrite r l).det = x.det := rfl
@[simp] theorem Task.overwrite_launch (x : Task) (r l : Nat) : (x.overwrite r l).launch = x.launch := rfl
@[simp] theorem Task.overwrite_handlerFor (x : Task) (r l : Nat) : (x.overwrite r l).handlerFor = x.handlerFor := rfl
@[simp] theorem Task.overwrite_viaSpawnx (x : Task) (r l : Nat) : (x.overwrite r l).viaSpawnx = x.viaSpawnx := rfl
@[simp] theorem Task.overwrite_place (x : Task) (r l : Nat) : (x.overwrite r l).place = x.place := rfl
@[simp] theorem Task.overwrite_arrival (x : Task) (r l : Nat) : (x.overwrite r l).arrival = x.arrival := rfl
@[simp] theorem Task.overwrite_everPlaced (x : Task) (r l : Nat) : (x.overwrite r l).everPlaced = x.everPlaced := rfl
@[simp] theorem Task.overwrite_lcores (x : Task) (r l : Nat) : (x.overwrite r l).lcores = x.lcores := rfl
@[simp] theorem Task.overwrite_alw (x : Task) (r l : Nat) : (x.overwrite r l).alw = x.alw := rfl
@[simp] theorem Task.overwrite_held (x : Task) (r l : Nat) : (x.overwrite r l).held = x.held := rfl
@[simp] theorem Task.overwrite_fpctl (x : Task) (r l : Nat) : (x.overwrite r l).fpctl = x.fpctl := rfl
@[simp] theorem Task.overwrite_sealcnt (x : Task) (r l : Nat) : (x.overwrite r l).sealcnt = x.sealcnt := rfl
@[simp] theorem Task.overwrite_zerochk (x : Task) (r l : Nat) : (x.overwrite r l).zerochk = x.zerochk := rfl
@[simp] theorem Task.overwrite_exmode (x : Task) (r l : Nat) : (x.overwrite r l).exmode = x.exmode := rfl
@[simp] theorem Task.overwrite_ownExm (x : Task) (r l : Nat) : (x.overwrite r l).ownExm = x.ownExm := rfl
@[simp] theorem Task.overwrite_dset (x : Task) (r l : Nat) : (x.overwrite r l).dset = x.dset := rfl
@[simp] theorem Task.overwrite_oset (x : Task) (r l : Nat) : (x.overwrite r l).oset = x.oset := rfl
@[simp] theorem Task.overwrite_quant (x : Task) (r l : Nat) : (x.overwrite r l).quant = x.quant := rfl
@[simp] theorem Task.overwrite_bbc (x : Task) (r l : Nat) : (x.overwrite r l).bbc = x.bbc := rfl
@[simp] theorem Task.overwrite_childCtr (x : Task) (r l : Nat) : (x.overwrite r l).childCtr = x.childCtr := rfl
@[simp] theorem Task.overwrite_childGen (x : Task) (r l : Nat) : (x.overwrite r l).childGen = x.childGen := rfl
@[simp] theorem Task.overwrite_prio (x : Task) (r l : Nat) : (x.overwrite r l).prio = x.prio := rfl
@[simp] theorem Task.overwrite_ceil (x : Task) (r l : Nat) : (x.overwrite r l).ceil = x.ceil := rfl
@[simp] theorem Task.overwrite_plies (x : Task) (r l : Nat) : (x.overwrite r l).plies = x.plies := rfl
@[simp] theorem Task.overwrite_pbase (x : Task) (r l : Nat) : (x.overwrite r l).pbase = x.pbase := rfl
@[simp] theorem Task.overwrite_privWritten (x : Task) (r l : Nat) : (x.overwrite r l).privWritten = x.privWritten := rfl
@[simp] theorem Task.overwrite_unfenced (x : Task) (r l : Nat) : (x.overwrite r l).unfenced = x.unfenced := rfl
@[simp] theorem Task.overwrite_after (x : Task) (r l : Nat) : (x.overwrite r l).after = x.after := rfl
@[simp] theorem Task.overwrite_relMark (x : Task) (r l : Nat) : (x.overwrite r l).relMark = x.relMark := rfl
@[simp] theorem Task.overwrite_carried (x : Task) (r l : Nat) : (x.overwrite r l).carried = x.carried := rfl
@[simp] theorem Task.overwrite_lanes (x : Task) (r l : Nat) : (x.overwrite r l).lanes = x.lanes := rfl
@[simp] theorem Task.overwrite_sregs (x : Task) (r l : Nat) : (x.overwrite r l).sregs = x.sregs := rfl
@[simp] theorem Task.overwrite_vregs (x : Task) (r l : Nat) : (x.overwrite r l).vregs = x.vregs := rfl
@[simp] theorem Task.overwrite_preds (x : Task) (r l : Nat) : (x.overwrite r l).preds = x.preds := rfl
@[simp] theorem Task.overwrite_waits (x : Task) (r l : Nat) : (x.overwrite r l).waits = x.waits := rfl
@[simp] theorem Task.overwrite_children (x : Task) (r l : Nat) : (x.overwrite r l).children = x.children := rfl
@[simp] theorem Task.overwrite_dseq (x : Task) (r l : Nat) : (x.overwrite r l).dseq = x.dseq := rfl
@[simp] theorem Task.overwrite_dentries (x : Task) (r l : Nat) : (x.overwrite r l).dentries = x.dentries := rfl
@[simp] theorem Task.overwrite_mxRecs (x : Task) (r l : Nat) : (x.overwrite r l).mxRecs = x.mxRecs := rfl
@[simp] theorem Task.overwrite_fault (x : Task) (r l : Nat) : (x.overwrite r l).fault = x.fault := rfl
@[simp] theorem Task.overwrite_fetchFault (x : Task) (r l : Nat) : (x.overwrite r l).fetchFault = x.fetchFault := rfl
@[simp] theorem Task.overwrite_notice (x : Task) (r l : Nat) : (x.overwrite r l).notice = x.notice := rfl
@[simp] theorem Task.overwrite_trapRec (x : Task) (r l : Nat) : (x.overwrite r l).trapRec = x.trapRec := rfl
@[simp] theorem Task.overwrite_deferred (x : Task) (r l : Nat) : (x.overwrite r l).deferred = x.deferred := rfl
@[simp] theorem Task.overwrite_deferredCopies (x : Task) (r l : Nat) : (x.overwrite r l).deferredCopies = x.deferredCopies := rfl
@[simp] theorem Task.overwrite_replayCap (x : Task) (r l : Nat) : (x.overwrite r l).replayCap = x.replayCap := rfl
@[simp] theorem Task.overwrite_halted (x : Task) (r l : Nat) : (x.overwrite r l).halted = x.halted := rfl
@[simp] theorem Task.overwrite_suspended (x : Task) (r l : Nat) : (x.overwrite r l).suspended = x.suspended := rfl
@[simp] theorem Task.overwrite_escalated (x : Task) (r l : Nat) : (x.overwrite r l).escalated = x.escalated := rfl
@[simp] theorem Task.overwrite_werr (x : Task) (r l : Nat) : (x.overwrite r l).werr = x.werr := rfl
@[simp] theorem Task.overwrite_saving (x : Task) (r l : Nat) : (x.overwrite r l).saving = x.saving := rfl
@[simp] theorem Task.overwrite_suspUs (x : Task) (r l : Nat) : (x.overwrite r l).suspUs = x.suspUs := rfl
@[simp] theorem Task.overwrite_paused (x : Task) (r l : Nat) : (x.overwrite r l).paused = x.paused := rfl
@[simp] theorem Task.overwrite_stop (x : Task) (r l : Nat) : (x.overwrite r l).stop = x.stop := rfl
@[simp] theorem Task.overwrite_pendingReplays (x : Task) (r l : Nat) : (x.overwrite r l).pendingReplays = x.pendingReplays := rfl
@[simp] theorem Task.overwrite_saved (x : Task) (r l : Nat) : (x.overwrite r l).saved = x.saved := rfl
@[simp] theorem Task.overwrite_lastSelect (x : Task) (r l : Nat) : (x.overwrite r l).lastSelect = x.lastSelect := rfl
@[simp] theorem Task.overwriteS_id (x : Task) (r : Nat) : (x.overwriteS r).id = x.id := rfl
@[simp] theorem Task.overwriteS_vf (x : Task) (r : Nat) : (x.overwriteS r).vf = x.vf := rfl
@[simp] theorem Task.overwriteS_asid (x : Task) (r : Nat) : (x.overwriteS r).asid = x.asid := rfl
@[simp] theorem Task.overwriteS_prin (x : Task) (r : Nat) : (x.overwriteS r).prin = x.prin := rfl
@[simp] theorem Task.overwriteS_kernel (x : Task) (r : Nat) : (x.overwriteS r).kernel = x.kernel := rfl
@[simp] theorem Task.overwriteS_parent (x : Task) (r : Nat) : (x.overwriteS r).parent = x.parent := rfl
@[simp] theorem Task.overwriteS_root (x : Task) (r : Nat) : (x.overwriteS r).root = x.root := rfl
@[simp] theorem Task.overwriteS_handle (x : Task) (r : Nat) : (x.overwriteS r).handle = x.handle := rfl
@[simp] theorem Task.overwriteS_ordinal (x : Task) (r : Nat) : (x.overwriteS r).ordinal = x.ordinal := rfl
@[simp] theorem Task.overwriteS_det (x : Task) (r : Nat) : (x.overwriteS r).det = x.det := rfl
@[simp] theorem Task.overwriteS_launch (x : Task) (r : Nat) : (x.overwriteS r).launch = x.launch := rfl
@[simp] theorem Task.overwriteS_handlerFor (x : Task) (r : Nat) : (x.overwriteS r).handlerFor = x.handlerFor := rfl
@[simp] theorem Task.overwriteS_viaSpawnx (x : Task) (r : Nat) : (x.overwriteS r).viaSpawnx = x.viaSpawnx := rfl
@[simp] theorem Task.overwriteS_place (x : Task) (r : Nat) : (x.overwriteS r).place = x.place := rfl
@[simp] theorem Task.overwriteS_arrival (x : Task) (r : Nat) : (x.overwriteS r).arrival = x.arrival := rfl
@[simp] theorem Task.overwriteS_everPlaced (x : Task) (r : Nat) : (x.overwriteS r).everPlaced = x.everPlaced := rfl
@[simp] theorem Task.overwriteS_lcores (x : Task) (r : Nat) : (x.overwriteS r).lcores = x.lcores := rfl
@[simp] theorem Task.overwriteS_alw (x : Task) (r : Nat) : (x.overwriteS r).alw = x.alw := rfl
@[simp] theorem Task.overwriteS_held (x : Task) (r : Nat) : (x.overwriteS r).held = x.held := rfl
@[simp] theorem Task.overwriteS_fpctl (x : Task) (r : Nat) : (x.overwriteS r).fpctl = x.fpctl := rfl
@[simp] theorem Task.overwriteS_sealcnt (x : Task) (r : Nat) : (x.overwriteS r).sealcnt = x.sealcnt := rfl
@[simp] theorem Task.overwriteS_zerochk (x : Task) (r : Nat) : (x.overwriteS r).zerochk = x.zerochk := rfl
@[simp] theorem Task.overwriteS_exmode (x : Task) (r : Nat) : (x.overwriteS r).exmode = x.exmode := rfl
@[simp] theorem Task.overwriteS_ownExm (x : Task) (r : Nat) : (x.overwriteS r).ownExm = x.ownExm := rfl
@[simp] theorem Task.overwriteS_dset (x : Task) (r : Nat) : (x.overwriteS r).dset = x.dset := rfl
@[simp] theorem Task.overwriteS_oset (x : Task) (r : Nat) : (x.overwriteS r).oset = x.oset := rfl
@[simp] theorem Task.overwriteS_quant (x : Task) (r : Nat) : (x.overwriteS r).quant = x.quant := rfl
@[simp] theorem Task.overwriteS_bbc (x : Task) (r : Nat) : (x.overwriteS r).bbc = x.bbc := rfl
@[simp] theorem Task.overwriteS_childCtr (x : Task) (r : Nat) : (x.overwriteS r).childCtr = x.childCtr := rfl
@[simp] theorem Task.overwriteS_childGen (x : Task) (r : Nat) : (x.overwriteS r).childGen = x.childGen := rfl
@[simp] theorem Task.overwriteS_prio (x : Task) (r : Nat) : (x.overwriteS r).prio = x.prio := rfl
@[simp] theorem Task.overwriteS_ceil (x : Task) (r : Nat) : (x.overwriteS r).ceil = x.ceil := rfl
@[simp] theorem Task.overwriteS_plies (x : Task) (r : Nat) : (x.overwriteS r).plies = x.plies := rfl
@[simp] theorem Task.overwriteS_pbase (x : Task) (r : Nat) : (x.overwriteS r).pbase = x.pbase := rfl
@[simp] theorem Task.overwriteS_privWritten (x : Task) (r : Nat) : (x.overwriteS r).privWritten = x.privWritten := rfl
@[simp] theorem Task.overwriteS_unfenced (x : Task) (r : Nat) : (x.overwriteS r).unfenced = x.unfenced := rfl
@[simp] theorem Task.overwriteS_after (x : Task) (r : Nat) : (x.overwriteS r).after = x.after := rfl
@[simp] theorem Task.overwriteS_relMark (x : Task) (r : Nat) : (x.overwriteS r).relMark = x.relMark := rfl
@[simp] theorem Task.overwriteS_carried (x : Task) (r : Nat) : (x.overwriteS r).carried = x.carried := rfl
@[simp] theorem Task.overwriteS_lanes (x : Task) (r : Nat) : (x.overwriteS r).lanes = x.lanes := rfl
@[simp] theorem Task.overwriteS_sregs (x : Task) (r : Nat) : (x.overwriteS r).sregs = x.sregs := rfl
@[simp] theorem Task.overwriteS_vregs (x : Task) (r : Nat) : (x.overwriteS r).vregs = x.vregs := rfl
@[simp] theorem Task.overwriteS_preds (x : Task) (r : Nat) : (x.overwriteS r).preds = x.preds := rfl
@[simp] theorem Task.overwriteS_sfOps (x : Task) (r : Nat) : (x.overwriteS r).sfOps = x.sfOps := rfl
@[simp] theorem Task.overwriteS_waits (x : Task) (r : Nat) : (x.overwriteS r).waits = x.waits := rfl
@[simp] theorem Task.overwriteS_children (x : Task) (r : Nat) : (x.overwriteS r).children = x.children := rfl
@[simp] theorem Task.overwriteS_dseq (x : Task) (r : Nat) : (x.overwriteS r).dseq = x.dseq := rfl
@[simp] theorem Task.overwriteS_dentries (x : Task) (r : Nat) : (x.overwriteS r).dentries = x.dentries := rfl
@[simp] theorem Task.overwriteS_mxRecs (x : Task) (r : Nat) : (x.overwriteS r).mxRecs = x.mxRecs := rfl
@[simp] theorem Task.overwriteS_fault (x : Task) (r : Nat) : (x.overwriteS r).fault = x.fault := rfl
@[simp] theorem Task.overwriteS_fetchFault (x : Task) (r : Nat) : (x.overwriteS r).fetchFault = x.fetchFault := rfl
@[simp] theorem Task.overwriteS_notice (x : Task) (r : Nat) : (x.overwriteS r).notice = x.notice := rfl
@[simp] theorem Task.overwriteS_trapRec (x : Task) (r : Nat) : (x.overwriteS r).trapRec = x.trapRec := rfl
@[simp] theorem Task.overwriteS_deferred (x : Task) (r : Nat) : (x.overwriteS r).deferred = x.deferred := rfl
@[simp] theorem Task.overwriteS_deferredCopies (x : Task) (r : Nat) : (x.overwriteS r).deferredCopies = x.deferredCopies := rfl
@[simp] theorem Task.overwriteS_replayCap (x : Task) (r : Nat) : (x.overwriteS r).replayCap = x.replayCap := rfl
@[simp] theorem Task.overwriteS_halted (x : Task) (r : Nat) : (x.overwriteS r).halted = x.halted := rfl
@[simp] theorem Task.overwriteS_suspended (x : Task) (r : Nat) : (x.overwriteS r).suspended = x.suspended := rfl
@[simp] theorem Task.overwriteS_escalated (x : Task) (r : Nat) : (x.overwriteS r).escalated = x.escalated := rfl
@[simp] theorem Task.overwriteS_werr (x : Task) (r : Nat) : (x.overwriteS r).werr = x.werr := rfl
@[simp] theorem Task.overwriteS_saving (x : Task) (r : Nat) : (x.overwriteS r).saving = x.saving := rfl
@[simp] theorem Task.overwriteS_suspUs (x : Task) (r : Nat) : (x.overwriteS r).suspUs = x.suspUs := rfl
@[simp] theorem Task.overwriteS_paused (x : Task) (r : Nat) : (x.overwriteS r).paused = x.paused := rfl
@[simp] theorem Task.overwriteS_stop (x : Task) (r : Nat) : (x.overwriteS r).stop = x.stop := rfl
@[simp] theorem Task.overwriteS_pendingReplays (x : Task) (r : Nat) : (x.overwriteS r).pendingReplays = x.pendingReplays := rfl
@[simp] theorem Task.overwriteS_saved (x : Task) (r : Nat) : (x.overwriteS r).saved = x.saved := rfl
@[simp] theorem Task.overwriteS_lastSelect (x : Task) (r : Nat) : (x.overwriteS r).lastSelect = x.lastSelect := rfl
@[simp] theorem Task.wrV_id (x : Task) (r l : Nat) (v : BitVec 32) : (x.wrV r l v).id = x.id := rfl
@[simp] theorem Task.wrV_vf (x : Task) (r l : Nat) (v : BitVec 32) : (x.wrV r l v).vf = x.vf := rfl
@[simp] theorem Task.wrV_asid (x : Task) (r l : Nat) (v : BitVec 32) : (x.wrV r l v).asid = x.asid := rfl
@[simp] theorem Task.wrV_prin (x : Task) (r l : Nat) (v : BitVec 32) : (x.wrV r l v).prin = x.prin := rfl
@[simp] theorem Task.wrV_kernel (x : Task) (r l : Nat) (v : BitVec 32) : (x.wrV r l v).kernel = x.kernel := rfl
@[simp] theorem Task.wrV_parent (x : Task) (r l : Nat) (v : BitVec 32) : (x.wrV r l v).parent = x.parent := rfl
@[simp] theorem Task.wrV_root (x : Task) (r l : Nat) (v : BitVec 32) : (x.wrV r l v).root = x.root := rfl
@[simp] theorem Task.wrV_handle (x : Task) (r l : Nat) (v : BitVec 32) : (x.wrV r l v).handle = x.handle := rfl
@[simp] theorem Task.wrV_ordinal (x : Task) (r l : Nat) (v : BitVec 32) : (x.wrV r l v).ordinal = x.ordinal := rfl
@[simp] theorem Task.wrV_det (x : Task) (r l : Nat) (v : BitVec 32) : (x.wrV r l v).det = x.det := rfl
@[simp] theorem Task.wrV_launch (x : Task) (r l : Nat) (v : BitVec 32) : (x.wrV r l v).launch = x.launch := rfl
@[simp] theorem Task.wrV_handlerFor (x : Task) (r l : Nat) (v : BitVec 32) : (x.wrV r l v).handlerFor = x.handlerFor := rfl
@[simp] theorem Task.wrV_viaSpawnx (x : Task) (r l : Nat) (v : BitVec 32) : (x.wrV r l v).viaSpawnx = x.viaSpawnx := rfl
@[simp] theorem Task.wrV_place (x : Task) (r l : Nat) (v : BitVec 32) : (x.wrV r l v).place = x.place := rfl
@[simp] theorem Task.wrV_arrival (x : Task) (r l : Nat) (v : BitVec 32) : (x.wrV r l v).arrival = x.arrival := rfl
@[simp] theorem Task.wrV_everPlaced (x : Task) (r l : Nat) (v : BitVec 32) : (x.wrV r l v).everPlaced = x.everPlaced := rfl
@[simp] theorem Task.wrV_lcores (x : Task) (r l : Nat) (v : BitVec 32) : (x.wrV r l v).lcores = x.lcores := rfl
@[simp] theorem Task.wrV_alw (x : Task) (r l : Nat) (v : BitVec 32) : (x.wrV r l v).alw = x.alw := rfl
@[simp] theorem Task.wrV_held (x : Task) (r l : Nat) (v : BitVec 32) : (x.wrV r l v).held = x.held := rfl
@[simp] theorem Task.wrV_fpctl (x : Task) (r l : Nat) (v : BitVec 32) : (x.wrV r l v).fpctl = x.fpctl := rfl
@[simp] theorem Task.wrV_sealcnt (x : Task) (r l : Nat) (v : BitVec 32) : (x.wrV r l v).sealcnt = x.sealcnt := rfl
@[simp] theorem Task.wrV_zerochk (x : Task) (r l : Nat) (v : BitVec 32) : (x.wrV r l v).zerochk = x.zerochk := rfl
@[simp] theorem Task.wrV_exmode (x : Task) (r l : Nat) (v : BitVec 32) : (x.wrV r l v).exmode = x.exmode := rfl
@[simp] theorem Task.wrV_ownExm (x : Task) (r l : Nat) (v : BitVec 32) : (x.wrV r l v).ownExm = x.ownExm := rfl
@[simp] theorem Task.wrV_dset (x : Task) (r l : Nat) (v : BitVec 32) : (x.wrV r l v).dset = x.dset := rfl
@[simp] theorem Task.wrV_oset (x : Task) (r l : Nat) (v : BitVec 32) : (x.wrV r l v).oset = x.oset := rfl
@[simp] theorem Task.wrV_quant (x : Task) (r l : Nat) (v : BitVec 32) : (x.wrV r l v).quant = x.quant := rfl
@[simp] theorem Task.wrV_bbc (x : Task) (r l : Nat) (v : BitVec 32) : (x.wrV r l v).bbc = x.bbc := rfl
@[simp] theorem Task.wrV_childCtr (x : Task) (r l : Nat) (v : BitVec 32) : (x.wrV r l v).childCtr = x.childCtr := rfl
@[simp] theorem Task.wrV_childGen (x : Task) (r l : Nat) (v : BitVec 32) : (x.wrV r l v).childGen = x.childGen := rfl
@[simp] theorem Task.wrV_prio (x : Task) (r l : Nat) (v : BitVec 32) : (x.wrV r l v).prio = x.prio := rfl
@[simp] theorem Task.wrV_ceil (x : Task) (r l : Nat) (v : BitVec 32) : (x.wrV r l v).ceil = x.ceil := rfl
@[simp] theorem Task.wrV_plies (x : Task) (r l : Nat) (v : BitVec 32) : (x.wrV r l v).plies = x.plies := rfl
@[simp] theorem Task.wrV_pbase (x : Task) (r l : Nat) (v : BitVec 32) : (x.wrV r l v).pbase = x.pbase := rfl
@[simp] theorem Task.wrV_privWritten (x : Task) (r l : Nat) (v : BitVec 32) : (x.wrV r l v).privWritten = x.privWritten := rfl
@[simp] theorem Task.wrV_unfenced (x : Task) (r l : Nat) (v : BitVec 32) : (x.wrV r l v).unfenced = x.unfenced := rfl
@[simp] theorem Task.wrV_after (x : Task) (r l : Nat) (v : BitVec 32) : (x.wrV r l v).after = x.after := rfl
@[simp] theorem Task.wrV_relMark (x : Task) (r l : Nat) (v : BitVec 32) : (x.wrV r l v).relMark = x.relMark := rfl
@[simp] theorem Task.wrV_carried (x : Task) (r l : Nat) (v : BitVec 32) : (x.wrV r l v).carried = x.carried := rfl
@[simp] theorem Task.wrV_lanes (x : Task) (r l : Nat) (v : BitVec 32) : (x.wrV r l v).lanes = x.lanes := rfl
@[simp] theorem Task.wrV_sregs (x : Task) (r l : Nat) (v : BitVec 32) : (x.wrV r l v).sregs = x.sregs := rfl
@[simp] theorem Task.wrV_preds (x : Task) (r l : Nat) (v : BitVec 32) : (x.wrV r l v).preds = x.preds := rfl
@[simp] theorem Task.wrV_waits (x : Task) (r l : Nat) (v : BitVec 32) : (x.wrV r l v).waits = x.waits := rfl
@[simp] theorem Task.wrV_children (x : Task) (r l : Nat) (v : BitVec 32) : (x.wrV r l v).children = x.children := rfl
@[simp] theorem Task.wrV_dseq (x : Task) (r l : Nat) (v : BitVec 32) : (x.wrV r l v).dseq = x.dseq := rfl
@[simp] theorem Task.wrV_dentries (x : Task) (r l : Nat) (v : BitVec 32) : (x.wrV r l v).dentries = x.dentries := rfl
@[simp] theorem Task.wrV_mxRecs (x : Task) (r l : Nat) (v : BitVec 32) : (x.wrV r l v).mxRecs = x.mxRecs := rfl
@[simp] theorem Task.wrV_fault (x : Task) (r l : Nat) (v : BitVec 32) : (x.wrV r l v).fault = x.fault := rfl
@[simp] theorem Task.wrV_fetchFault (x : Task) (r l : Nat) (v : BitVec 32) : (x.wrV r l v).fetchFault = x.fetchFault := rfl
@[simp] theorem Task.wrV_notice (x : Task) (r l : Nat) (v : BitVec 32) : (x.wrV r l v).notice = x.notice := rfl
@[simp] theorem Task.wrV_trapRec (x : Task) (r l : Nat) (v : BitVec 32) : (x.wrV r l v).trapRec = x.trapRec := rfl
@[simp] theorem Task.wrV_deferred (x : Task) (r l : Nat) (v : BitVec 32) : (x.wrV r l v).deferred = x.deferred := rfl
@[simp] theorem Task.wrV_deferredCopies (x : Task) (r l : Nat) (v : BitVec 32) : (x.wrV r l v).deferredCopies = x.deferredCopies := rfl
@[simp] theorem Task.wrV_replayCap (x : Task) (r l : Nat) (v : BitVec 32) : (x.wrV r l v).replayCap = x.replayCap := rfl
@[simp] theorem Task.wrV_halted (x : Task) (r l : Nat) (v : BitVec 32) : (x.wrV r l v).halted = x.halted := rfl
@[simp] theorem Task.wrV_suspended (x : Task) (r l : Nat) (v : BitVec 32) : (x.wrV r l v).suspended = x.suspended := rfl
@[simp] theorem Task.wrV_escalated (x : Task) (r l : Nat) (v : BitVec 32) : (x.wrV r l v).escalated = x.escalated := rfl
@[simp] theorem Task.wrV_werr (x : Task) (r l : Nat) (v : BitVec 32) : (x.wrV r l v).werr = x.werr := rfl
@[simp] theorem Task.wrV_saving (x : Task) (r l : Nat) (v : BitVec 32) : (x.wrV r l v).saving = x.saving := rfl
@[simp] theorem Task.wrV_suspUs (x : Task) (r l : Nat) (v : BitVec 32) : (x.wrV r l v).suspUs = x.suspUs := rfl
@[simp] theorem Task.wrV_paused (x : Task) (r l : Nat) (v : BitVec 32) : (x.wrV r l v).paused = x.paused := rfl
@[simp] theorem Task.wrV_stop (x : Task) (r l : Nat) (v : BitVec 32) : (x.wrV r l v).stop = x.stop := rfl
@[simp] theorem Task.wrV_pendingReplays (x : Task) (r l : Nat) (v : BitVec 32) : (x.wrV r l v).pendingReplays = x.pendingReplays := rfl
@[simp] theorem Task.wrV_saved (x : Task) (r l : Nat) (v : BitVec 32) : (x.wrV r l v).saved = x.saved := rfl
@[simp] theorem Task.wrV_lastSelect (x : Task) (r l : Nat) (v : BitVec 32) : (x.wrV r l v).lastSelect = x.lastSelect := rfl
@[simp] theorem Task.wrS_id (x : Task) (r : Fin 64) (v : BitVec 64) : (x.wrS r v).id = x.id := by simp [Task.wrS]
@[simp] theorem Task.wrS_vf (x : Task) (r : Fin 64) (v : BitVec 64) : (x.wrS r v).vf = x.vf := by simp [Task.wrS]
@[simp] theorem Task.wrS_asid (x : Task) (r : Fin 64) (v : BitVec 64) : (x.wrS r v).asid = x.asid := by simp [Task.wrS]
@[simp] theorem Task.wrS_prin (x : Task) (r : Fin 64) (v : BitVec 64) : (x.wrS r v).prin = x.prin := by simp [Task.wrS]
@[simp] theorem Task.wrS_kernel (x : Task) (r : Fin 64) (v : BitVec 64) : (x.wrS r v).kernel = x.kernel := by simp [Task.wrS]
@[simp] theorem Task.wrS_parent (x : Task) (r : Fin 64) (v : BitVec 64) : (x.wrS r v).parent = x.parent := by simp [Task.wrS]
@[simp] theorem Task.wrS_root (x : Task) (r : Fin 64) (v : BitVec 64) : (x.wrS r v).root = x.root := by simp [Task.wrS]
@[simp] theorem Task.wrS_handle (x : Task) (r : Fin 64) (v : BitVec 64) : (x.wrS r v).handle = x.handle := by simp [Task.wrS]
@[simp] theorem Task.wrS_ordinal (x : Task) (r : Fin 64) (v : BitVec 64) : (x.wrS r v).ordinal = x.ordinal := by simp [Task.wrS]
@[simp] theorem Task.wrS_det (x : Task) (r : Fin 64) (v : BitVec 64) : (x.wrS r v).det = x.det := by simp [Task.wrS]
@[simp] theorem Task.wrS_launch (x : Task) (r : Fin 64) (v : BitVec 64) : (x.wrS r v).launch = x.launch := by simp [Task.wrS]
@[simp] theorem Task.wrS_handlerFor (x : Task) (r : Fin 64) (v : BitVec 64) : (x.wrS r v).handlerFor = x.handlerFor := by simp [Task.wrS]
@[simp] theorem Task.wrS_viaSpawnx (x : Task) (r : Fin 64) (v : BitVec 64) : (x.wrS r v).viaSpawnx = x.viaSpawnx := by simp [Task.wrS]
@[simp] theorem Task.wrS_place (x : Task) (r : Fin 64) (v : BitVec 64) : (x.wrS r v).place = x.place := by simp [Task.wrS]
@[simp] theorem Task.wrS_arrival (x : Task) (r : Fin 64) (v : BitVec 64) : (x.wrS r v).arrival = x.arrival := by simp [Task.wrS]
@[simp] theorem Task.wrS_everPlaced (x : Task) (r : Fin 64) (v : BitVec 64) : (x.wrS r v).everPlaced = x.everPlaced := by simp [Task.wrS]
@[simp] theorem Task.wrS_lcores (x : Task) (r : Fin 64) (v : BitVec 64) : (x.wrS r v).lcores = x.lcores := by simp [Task.wrS]
@[simp] theorem Task.wrS_alw (x : Task) (r : Fin 64) (v : BitVec 64) : (x.wrS r v).alw = x.alw := by simp [Task.wrS]
@[simp] theorem Task.wrS_held (x : Task) (r : Fin 64) (v : BitVec 64) : (x.wrS r v).held = x.held := by simp [Task.wrS]
@[simp] theorem Task.wrS_fpctl (x : Task) (r : Fin 64) (v : BitVec 64) : (x.wrS r v).fpctl = x.fpctl := by simp [Task.wrS]
@[simp] theorem Task.wrS_sealcnt (x : Task) (r : Fin 64) (v : BitVec 64) : (x.wrS r v).sealcnt = x.sealcnt := by simp [Task.wrS]
@[simp] theorem Task.wrS_zerochk (x : Task) (r : Fin 64) (v : BitVec 64) : (x.wrS r v).zerochk = x.zerochk := by simp [Task.wrS]
@[simp] theorem Task.wrS_exmode (x : Task) (r : Fin 64) (v : BitVec 64) : (x.wrS r v).exmode = x.exmode := by simp [Task.wrS]
@[simp] theorem Task.wrS_ownExm (x : Task) (r : Fin 64) (v : BitVec 64) : (x.wrS r v).ownExm = x.ownExm := by simp [Task.wrS]
@[simp] theorem Task.wrS_dset (x : Task) (r : Fin 64) (v : BitVec 64) : (x.wrS r v).dset = x.dset := by simp [Task.wrS]
@[simp] theorem Task.wrS_oset (x : Task) (r : Fin 64) (v : BitVec 64) : (x.wrS r v).oset = x.oset := by simp [Task.wrS]
@[simp] theorem Task.wrS_quant (x : Task) (r : Fin 64) (v : BitVec 64) : (x.wrS r v).quant = x.quant := by simp [Task.wrS]
@[simp] theorem Task.wrS_bbc (x : Task) (r : Fin 64) (v : BitVec 64) : (x.wrS r v).bbc = x.bbc := by simp [Task.wrS]
@[simp] theorem Task.wrS_childCtr (x : Task) (r : Fin 64) (v : BitVec 64) : (x.wrS r v).childCtr = x.childCtr := by simp [Task.wrS]
@[simp] theorem Task.wrS_childGen (x : Task) (r : Fin 64) (v : BitVec 64) : (x.wrS r v).childGen = x.childGen := by simp [Task.wrS]
@[simp] theorem Task.wrS_prio (x : Task) (r : Fin 64) (v : BitVec 64) : (x.wrS r v).prio = x.prio := by simp [Task.wrS]
@[simp] theorem Task.wrS_ceil (x : Task) (r : Fin 64) (v : BitVec 64) : (x.wrS r v).ceil = x.ceil := by simp [Task.wrS]
@[simp] theorem Task.wrS_plies (x : Task) (r : Fin 64) (v : BitVec 64) : (x.wrS r v).plies = x.plies := by simp [Task.wrS]
@[simp] theorem Task.wrS_pbase (x : Task) (r : Fin 64) (v : BitVec 64) : (x.wrS r v).pbase = x.pbase := by simp [Task.wrS]
@[simp] theorem Task.wrS_privWritten (x : Task) (r : Fin 64) (v : BitVec 64) : (x.wrS r v).privWritten = x.privWritten := by simp [Task.wrS]
@[simp] theorem Task.wrS_unfenced (x : Task) (r : Fin 64) (v : BitVec 64) : (x.wrS r v).unfenced = x.unfenced := by simp [Task.wrS]
@[simp] theorem Task.wrS_after (x : Task) (r : Fin 64) (v : BitVec 64) : (x.wrS r v).after = x.after := by simp [Task.wrS]
@[simp] theorem Task.wrS_relMark (x : Task) (r : Fin 64) (v : BitVec 64) : (x.wrS r v).relMark = x.relMark := by simp [Task.wrS]
@[simp] theorem Task.wrS_carried (x : Task) (r : Fin 64) (v : BitVec 64) : (x.wrS r v).carried = x.carried := by simp [Task.wrS]
@[simp] theorem Task.wrS_lanes (x : Task) (r : Fin 64) (v : BitVec 64) : (x.wrS r v).lanes = x.lanes := by simp [Task.wrS]
@[simp] theorem Task.wrS_vregs (x : Task) (r : Fin 64) (v : BitVec 64) : (x.wrS r v).vregs = x.vregs := by simp [Task.wrS]
@[simp] theorem Task.wrS_preds (x : Task) (r : Fin 64) (v : BitVec 64) : (x.wrS r v).preds = x.preds := by simp [Task.wrS]
@[simp] theorem Task.wrS_sfOps (x : Task) (r : Fin 64) (v : BitVec 64) : (x.wrS r v).sfOps = x.sfOps := by simp [Task.wrS]
@[simp] theorem Task.wrS_waits (x : Task) (r : Fin 64) (v : BitVec 64) : (x.wrS r v).waits = x.waits := by simp [Task.wrS]
@[simp] theorem Task.wrS_children (x : Task) (r : Fin 64) (v : BitVec 64) : (x.wrS r v).children = x.children := by simp [Task.wrS]
@[simp] theorem Task.wrS_dseq (x : Task) (r : Fin 64) (v : BitVec 64) : (x.wrS r v).dseq = x.dseq := by simp [Task.wrS]
@[simp] theorem Task.wrS_dentries (x : Task) (r : Fin 64) (v : BitVec 64) : (x.wrS r v).dentries = x.dentries := by simp [Task.wrS]
@[simp] theorem Task.wrS_mxRecs (x : Task) (r : Fin 64) (v : BitVec 64) : (x.wrS r v).mxRecs = x.mxRecs := by simp [Task.wrS]
@[simp] theorem Task.wrS_fault (x : Task) (r : Fin 64) (v : BitVec 64) : (x.wrS r v).fault = x.fault := by simp [Task.wrS]
@[simp] theorem Task.wrS_fetchFault (x : Task) (r : Fin 64) (v : BitVec 64) : (x.wrS r v).fetchFault = x.fetchFault := by simp [Task.wrS]
@[simp] theorem Task.wrS_notice (x : Task) (r : Fin 64) (v : BitVec 64) : (x.wrS r v).notice = x.notice := by simp [Task.wrS]
@[simp] theorem Task.wrS_trapRec (x : Task) (r : Fin 64) (v : BitVec 64) : (x.wrS r v).trapRec = x.trapRec := by simp [Task.wrS]
@[simp] theorem Task.wrS_deferred (x : Task) (r : Fin 64) (v : BitVec 64) : (x.wrS r v).deferred = x.deferred := by simp [Task.wrS]
@[simp] theorem Task.wrS_deferredCopies (x : Task) (r : Fin 64) (v : BitVec 64) : (x.wrS r v).deferredCopies = x.deferredCopies := by simp [Task.wrS]
@[simp] theorem Task.wrS_replayCap (x : Task) (r : Fin 64) (v : BitVec 64) : (x.wrS r v).replayCap = x.replayCap := by simp [Task.wrS]
@[simp] theorem Task.wrS_halted (x : Task) (r : Fin 64) (v : BitVec 64) : (x.wrS r v).halted = x.halted := by simp [Task.wrS]
@[simp] theorem Task.wrS_suspended (x : Task) (r : Fin 64) (v : BitVec 64) : (x.wrS r v).suspended = x.suspended := by simp [Task.wrS]
@[simp] theorem Task.wrS_escalated (x : Task) (r : Fin 64) (v : BitVec 64) : (x.wrS r v).escalated = x.escalated := by simp [Task.wrS]
@[simp] theorem Task.wrS_werr (x : Task) (r : Fin 64) (v : BitVec 64) : (x.wrS r v).werr = x.werr := by simp [Task.wrS]
@[simp] theorem Task.wrS_saving (x : Task) (r : Fin 64) (v : BitVec 64) : (x.wrS r v).saving = x.saving := by simp [Task.wrS]
@[simp] theorem Task.wrS_suspUs (x : Task) (r : Fin 64) (v : BitVec 64) : (x.wrS r v).suspUs = x.suspUs := by simp [Task.wrS]
@[simp] theorem Task.wrS_paused (x : Task) (r : Fin 64) (v : BitVec 64) : (x.wrS r v).paused = x.paused := by simp [Task.wrS]
@[simp] theorem Task.wrS_stop (x : Task) (r : Fin 64) (v : BitVec 64) : (x.wrS r v).stop = x.stop := by simp [Task.wrS]
@[simp] theorem Task.wrS_pendingReplays (x : Task) (r : Fin 64) (v : BitVec 64) : (x.wrS r v).pendingReplays = x.pendingReplays := by simp [Task.wrS]
@[simp] theorem Task.wrS_saved (x : Task) (r : Fin 64) (v : BitVec 64) : (x.wrS r v).saved = x.saved := by simp [Task.wrS]
@[simp] theorem Task.wrS_lastSelect (x : Task) (r : Fin 64) (v : BitVec 64) : (x.wrS r v).lastSelect = x.lastSelect := by simp [Task.wrS]
@[simp] theorem Task.raise_id (x : Task) (fl : FFlags) : (x.raise fl).id = x.id := rfl
@[simp] theorem Task.raise_vf (x : Task) (fl : FFlags) : (x.raise fl).vf = x.vf := rfl
@[simp] theorem Task.raise_asid (x : Task) (fl : FFlags) : (x.raise fl).asid = x.asid := rfl
@[simp] theorem Task.raise_prin (x : Task) (fl : FFlags) : (x.raise fl).prin = x.prin := rfl
@[simp] theorem Task.raise_kernel (x : Task) (fl : FFlags) : (x.raise fl).kernel = x.kernel := rfl
@[simp] theorem Task.raise_parent (x : Task) (fl : FFlags) : (x.raise fl).parent = x.parent := rfl
@[simp] theorem Task.raise_root (x : Task) (fl : FFlags) : (x.raise fl).root = x.root := rfl
@[simp] theorem Task.raise_handle (x : Task) (fl : FFlags) : (x.raise fl).handle = x.handle := rfl
@[simp] theorem Task.raise_ordinal (x : Task) (fl : FFlags) : (x.raise fl).ordinal = x.ordinal := rfl
@[simp] theorem Task.raise_det (x : Task) (fl : FFlags) : (x.raise fl).det = x.det := rfl
@[simp] theorem Task.raise_launch (x : Task) (fl : FFlags) : (x.raise fl).launch = x.launch := rfl
@[simp] theorem Task.raise_handlerFor (x : Task) (fl : FFlags) : (x.raise fl).handlerFor = x.handlerFor := rfl
@[simp] theorem Task.raise_viaSpawnx (x : Task) (fl : FFlags) : (x.raise fl).viaSpawnx = x.viaSpawnx := rfl
@[simp] theorem Task.raise_place (x : Task) (fl : FFlags) : (x.raise fl).place = x.place := rfl
@[simp] theorem Task.raise_arrival (x : Task) (fl : FFlags) : (x.raise fl).arrival = x.arrival := rfl
@[simp] theorem Task.raise_everPlaced (x : Task) (fl : FFlags) : (x.raise fl).everPlaced = x.everPlaced := rfl
@[simp] theorem Task.raise_lcores (x : Task) (fl : FFlags) : (x.raise fl).lcores = x.lcores := rfl
@[simp] theorem Task.raise_alw (x : Task) (fl : FFlags) : (x.raise fl).alw = x.alw := rfl
@[simp] theorem Task.raise_held (x : Task) (fl : FFlags) : (x.raise fl).held = x.held := rfl
@[simp] theorem Task.raise_sealcnt (x : Task) (fl : FFlags) : (x.raise fl).sealcnt = x.sealcnt := rfl
@[simp] theorem Task.raise_zerochk (x : Task) (fl : FFlags) : (x.raise fl).zerochk = x.zerochk := rfl
@[simp] theorem Task.raise_exmode (x : Task) (fl : FFlags) : (x.raise fl).exmode = x.exmode := rfl
@[simp] theorem Task.raise_ownExm (x : Task) (fl : FFlags) : (x.raise fl).ownExm = x.ownExm := rfl
@[simp] theorem Task.raise_dset (x : Task) (fl : FFlags) : (x.raise fl).dset = x.dset := rfl
@[simp] theorem Task.raise_oset (x : Task) (fl : FFlags) : (x.raise fl).oset = x.oset := rfl
@[simp] theorem Task.raise_quant (x : Task) (fl : FFlags) : (x.raise fl).quant = x.quant := rfl
@[simp] theorem Task.raise_bbc (x : Task) (fl : FFlags) : (x.raise fl).bbc = x.bbc := rfl
@[simp] theorem Task.raise_childCtr (x : Task) (fl : FFlags) : (x.raise fl).childCtr = x.childCtr := rfl
@[simp] theorem Task.raise_childGen (x : Task) (fl : FFlags) : (x.raise fl).childGen = x.childGen := rfl
@[simp] theorem Task.raise_prio (x : Task) (fl : FFlags) : (x.raise fl).prio = x.prio := rfl
@[simp] theorem Task.raise_ceil (x : Task) (fl : FFlags) : (x.raise fl).ceil = x.ceil := rfl
@[simp] theorem Task.raise_plies (x : Task) (fl : FFlags) : (x.raise fl).plies = x.plies := rfl
@[simp] theorem Task.raise_pbase (x : Task) (fl : FFlags) : (x.raise fl).pbase = x.pbase := rfl
@[simp] theorem Task.raise_privWritten (x : Task) (fl : FFlags) : (x.raise fl).privWritten = x.privWritten := rfl
@[simp] theorem Task.raise_unfenced (x : Task) (fl : FFlags) : (x.raise fl).unfenced = x.unfenced := rfl
@[simp] theorem Task.raise_after (x : Task) (fl : FFlags) : (x.raise fl).after = x.after := rfl
@[simp] theorem Task.raise_relMark (x : Task) (fl : FFlags) : (x.raise fl).relMark = x.relMark := rfl
@[simp] theorem Task.raise_carried (x : Task) (fl : FFlags) : (x.raise fl).carried = x.carried := rfl
@[simp] theorem Task.raise_lanes (x : Task) (fl : FFlags) : (x.raise fl).lanes = x.lanes := rfl
@[simp] theorem Task.raise_sregs (x : Task) (fl : FFlags) : (x.raise fl).sregs = x.sregs := rfl
@[simp] theorem Task.raise_vregs (x : Task) (fl : FFlags) : (x.raise fl).vregs = x.vregs := rfl
@[simp] theorem Task.raise_preds (x : Task) (fl : FFlags) : (x.raise fl).preds = x.preds := rfl
@[simp] theorem Task.raise_outs (x : Task) (fl : FFlags) : (x.raise fl).outs = x.outs := rfl
@[simp] theorem Task.raise_sfOps (x : Task) (fl : FFlags) : (x.raise fl).sfOps = x.sfOps := rfl
@[simp] theorem Task.raise_waits (x : Task) (fl : FFlags) : (x.raise fl).waits = x.waits := rfl
@[simp] theorem Task.raise_children (x : Task) (fl : FFlags) : (x.raise fl).children = x.children := rfl
@[simp] theorem Task.raise_dseq (x : Task) (fl : FFlags) : (x.raise fl).dseq = x.dseq := rfl
@[simp] theorem Task.raise_dentries (x : Task) (fl : FFlags) : (x.raise fl).dentries = x.dentries := rfl
@[simp] theorem Task.raise_mxRecs (x : Task) (fl : FFlags) : (x.raise fl).mxRecs = x.mxRecs := rfl
@[simp] theorem Task.raise_fault (x : Task) (fl : FFlags) : (x.raise fl).fault = x.fault := rfl
@[simp] theorem Task.raise_fetchFault (x : Task) (fl : FFlags) : (x.raise fl).fetchFault = x.fetchFault := rfl
@[simp] theorem Task.raise_notice (x : Task) (fl : FFlags) : (x.raise fl).notice = x.notice := rfl
@[simp] theorem Task.raise_trapRec (x : Task) (fl : FFlags) : (x.raise fl).trapRec = x.trapRec := rfl
@[simp] theorem Task.raise_deferred (x : Task) (fl : FFlags) : (x.raise fl).deferred = x.deferred := rfl
@[simp] theorem Task.raise_deferredCopies (x : Task) (fl : FFlags) : (x.raise fl).deferredCopies = x.deferredCopies := rfl
@[simp] theorem Task.raise_replayCap (x : Task) (fl : FFlags) : (x.raise fl).replayCap = x.replayCap := rfl
@[simp] theorem Task.raise_halted (x : Task) (fl : FFlags) : (x.raise fl).halted = x.halted := rfl
@[simp] theorem Task.raise_suspended (x : Task) (fl : FFlags) : (x.raise fl).suspended = x.suspended := rfl
@[simp] theorem Task.raise_escalated (x : Task) (fl : FFlags) : (x.raise fl).escalated = x.escalated := rfl
@[simp] theorem Task.raise_werr (x : Task) (fl : FFlags) : (x.raise fl).werr = x.werr := rfl
@[simp] theorem Task.raise_saving (x : Task) (fl : FFlags) : (x.raise fl).saving = x.saving := rfl
@[simp] theorem Task.raise_suspUs (x : Task) (fl : FFlags) : (x.raise fl).suspUs = x.suspUs := rfl
@[simp] theorem Task.raise_paused (x : Task) (fl : FFlags) : (x.raise fl).paused = x.paused := rfl
@[simp] theorem Task.raise_stop (x : Task) (fl : FFlags) : (x.raise fl).stop = x.stop := rfl
@[simp] theorem Task.raise_pendingReplays (x : Task) (fl : FFlags) : (x.raise fl).pendingReplays = x.pendingReplays := rfl
@[simp] theorem Task.raise_saved (x : Task) (fl : FFlags) : (x.raise fl).saved = x.saved := rfl
@[simp] theorem Task.raise_lastSelect (x : Task) (fl : FFlags) : (x.raise fl).lastSelect = x.lastSelect := rfl
@[simp] theorem Task.charge_id (x : Task) (a b : Nat) : (x.charge a b).id = x.id := rfl
@[simp] theorem Task.charge_vf (x : Task) (a b : Nat) : (x.charge a b).vf = x.vf := rfl
@[simp] theorem Task.charge_asid (x : Task) (a b : Nat) : (x.charge a b).asid = x.asid := rfl
@[simp] theorem Task.charge_prin (x : Task) (a b : Nat) : (x.charge a b).prin = x.prin := rfl
@[simp] theorem Task.charge_kernel (x : Task) (a b : Nat) : (x.charge a b).kernel = x.kernel := rfl
@[simp] theorem Task.charge_parent (x : Task) (a b : Nat) : (x.charge a b).parent = x.parent := rfl
@[simp] theorem Task.charge_root (x : Task) (a b : Nat) : (x.charge a b).root = x.root := rfl
@[simp] theorem Task.charge_handle (x : Task) (a b : Nat) : (x.charge a b).handle = x.handle := rfl
@[simp] theorem Task.charge_ordinal (x : Task) (a b : Nat) : (x.charge a b).ordinal = x.ordinal := rfl
@[simp] theorem Task.charge_det (x : Task) (a b : Nat) : (x.charge a b).det = x.det := rfl
@[simp] theorem Task.charge_launch (x : Task) (a b : Nat) : (x.charge a b).launch = x.launch := rfl
@[simp] theorem Task.charge_handlerFor (x : Task) (a b : Nat) : (x.charge a b).handlerFor = x.handlerFor := rfl
@[simp] theorem Task.charge_viaSpawnx (x : Task) (a b : Nat) : (x.charge a b).viaSpawnx = x.viaSpawnx := rfl
@[simp] theorem Task.charge_place (x : Task) (a b : Nat) : (x.charge a b).place = x.place := rfl
@[simp] theorem Task.charge_arrival (x : Task) (a b : Nat) : (x.charge a b).arrival = x.arrival := rfl
@[simp] theorem Task.charge_everPlaced (x : Task) (a b : Nat) : (x.charge a b).everPlaced = x.everPlaced := rfl
@[simp] theorem Task.charge_lcores (x : Task) (a b : Nat) : (x.charge a b).lcores = x.lcores := rfl
@[simp] theorem Task.charge_fpctl (x : Task) (a b : Nat) : (x.charge a b).fpctl = x.fpctl := rfl
@[simp] theorem Task.charge_sealcnt (x : Task) (a b : Nat) : (x.charge a b).sealcnt = x.sealcnt := rfl
@[simp] theorem Task.charge_zerochk (x : Task) (a b : Nat) : (x.charge a b).zerochk = x.zerochk := rfl
@[simp] theorem Task.charge_exmode (x : Task) (a b : Nat) : (x.charge a b).exmode = x.exmode := rfl
@[simp] theorem Task.charge_ownExm (x : Task) (a b : Nat) : (x.charge a b).ownExm = x.ownExm := rfl
@[simp] theorem Task.charge_dset (x : Task) (a b : Nat) : (x.charge a b).dset = x.dset := rfl
@[simp] theorem Task.charge_oset (x : Task) (a b : Nat) : (x.charge a b).oset = x.oset := rfl
@[simp] theorem Task.charge_quant (x : Task) (a b : Nat) : (x.charge a b).quant = x.quant := rfl
@[simp] theorem Task.charge_bbc (x : Task) (a b : Nat) : (x.charge a b).bbc = x.bbc := rfl
@[simp] theorem Task.charge_childCtr (x : Task) (a b : Nat) : (x.charge a b).childCtr = x.childCtr := rfl
@[simp] theorem Task.charge_childGen (x : Task) (a b : Nat) : (x.charge a b).childGen = x.childGen := rfl
@[simp] theorem Task.charge_prio (x : Task) (a b : Nat) : (x.charge a b).prio = x.prio := rfl
@[simp] theorem Task.charge_ceil (x : Task) (a b : Nat) : (x.charge a b).ceil = x.ceil := rfl
@[simp] theorem Task.charge_plies (x : Task) (a b : Nat) : (x.charge a b).plies = x.plies := rfl
@[simp] theorem Task.charge_pbase (x : Task) (a b : Nat) : (x.charge a b).pbase = x.pbase := rfl
@[simp] theorem Task.charge_privWritten (x : Task) (a b : Nat) : (x.charge a b).privWritten = x.privWritten := rfl
@[simp] theorem Task.charge_unfenced (x : Task) (a b : Nat) : (x.charge a b).unfenced = x.unfenced := rfl
@[simp] theorem Task.charge_after (x : Task) (a b : Nat) : (x.charge a b).after = x.after := rfl
@[simp] theorem Task.charge_relMark (x : Task) (a b : Nat) : (x.charge a b).relMark = x.relMark := rfl
@[simp] theorem Task.charge_carried (x : Task) (a b : Nat) : (x.charge a b).carried = x.carried := rfl
@[simp] theorem Task.charge_lanes (x : Task) (a b : Nat) : (x.charge a b).lanes = x.lanes := rfl
@[simp] theorem Task.charge_sregs (x : Task) (a b : Nat) : (x.charge a b).sregs = x.sregs := rfl
@[simp] theorem Task.charge_vregs (x : Task) (a b : Nat) : (x.charge a b).vregs = x.vregs := rfl
@[simp] theorem Task.charge_preds (x : Task) (a b : Nat) : (x.charge a b).preds = x.preds := rfl
@[simp] theorem Task.charge_outs (x : Task) (a b : Nat) : (x.charge a b).outs = x.outs := rfl
@[simp] theorem Task.charge_sfOps (x : Task) (a b : Nat) : (x.charge a b).sfOps = x.sfOps := rfl
@[simp] theorem Task.charge_waits (x : Task) (a b : Nat) : (x.charge a b).waits = x.waits := rfl
@[simp] theorem Task.charge_children (x : Task) (a b : Nat) : (x.charge a b).children = x.children := rfl
@[simp] theorem Task.charge_dseq (x : Task) (a b : Nat) : (x.charge a b).dseq = x.dseq := rfl
@[simp] theorem Task.charge_dentries (x : Task) (a b : Nat) : (x.charge a b).dentries = x.dentries := rfl
@[simp] theorem Task.charge_mxRecs (x : Task) (a b : Nat) : (x.charge a b).mxRecs = x.mxRecs := rfl
@[simp] theorem Task.charge_fault (x : Task) (a b : Nat) : (x.charge a b).fault = x.fault := rfl
@[simp] theorem Task.charge_fetchFault (x : Task) (a b : Nat) : (x.charge a b).fetchFault = x.fetchFault := rfl
@[simp] theorem Task.charge_notice (x : Task) (a b : Nat) : (x.charge a b).notice = x.notice := rfl
@[simp] theorem Task.charge_trapRec (x : Task) (a b : Nat) : (x.charge a b).trapRec = x.trapRec := rfl
@[simp] theorem Task.charge_deferred (x : Task) (a b : Nat) : (x.charge a b).deferred = x.deferred := rfl
@[simp] theorem Task.charge_deferredCopies (x : Task) (a b : Nat) : (x.charge a b).deferredCopies = x.deferredCopies := rfl
@[simp] theorem Task.charge_replayCap (x : Task) (a b : Nat) : (x.charge a b).replayCap = x.replayCap := rfl
@[simp] theorem Task.charge_halted (x : Task) (a b : Nat) : (x.charge a b).halted = x.halted := rfl
@[simp] theorem Task.charge_suspended (x : Task) (a b : Nat) : (x.charge a b).suspended = x.suspended := rfl
@[simp] theorem Task.charge_escalated (x : Task) (a b : Nat) : (x.charge a b).escalated = x.escalated := rfl
@[simp] theorem Task.charge_werr (x : Task) (a b : Nat) : (x.charge a b).werr = x.werr := rfl
@[simp] theorem Task.charge_saving (x : Task) (a b : Nat) : (x.charge a b).saving = x.saving := rfl
@[simp] theorem Task.charge_suspUs (x : Task) (a b : Nat) : (x.charge a b).suspUs = x.suspUs := rfl
@[simp] theorem Task.charge_paused (x : Task) (a b : Nat) : (x.charge a b).paused = x.paused := rfl
@[simp] theorem Task.charge_stop (x : Task) (a b : Nat) : (x.charge a b).stop = x.stop := rfl
@[simp] theorem Task.charge_pendingReplays (x : Task) (a b : Nat) : (x.charge a b).pendingReplays = x.pendingReplays := rfl
@[simp] theorem Task.charge_saved (x : Task) (a b : Nat) : (x.charge a b).saved = x.saved := rfl
@[simp] theorem Task.charge_lastSelect (x : Task) (a b : Nat) : (x.charge a b).lastSelect = x.lastSelect := rfl
@[simp] theorem Task.credit_id (x : Task) (a : BitVec 64) : (x.credit a).id = x.id := rfl
@[simp] theorem Task.credit_vf (x : Task) (a : BitVec 64) : (x.credit a).vf = x.vf := rfl
@[simp] theorem Task.credit_asid (x : Task) (a : BitVec 64) : (x.credit a).asid = x.asid := rfl
@[simp] theorem Task.credit_prin (x : Task) (a : BitVec 64) : (x.credit a).prin = x.prin := rfl
@[simp] theorem Task.credit_kernel (x : Task) (a : BitVec 64) : (x.credit a).kernel = x.kernel := rfl
@[simp] theorem Task.credit_parent (x : Task) (a : BitVec 64) : (x.credit a).parent = x.parent := rfl
@[simp] theorem Task.credit_root (x : Task) (a : BitVec 64) : (x.credit a).root = x.root := rfl
@[simp] theorem Task.credit_handle (x : Task) (a : BitVec 64) : (x.credit a).handle = x.handle := rfl
@[simp] theorem Task.credit_ordinal (x : Task) (a : BitVec 64) : (x.credit a).ordinal = x.ordinal := rfl
@[simp] theorem Task.credit_det (x : Task) (a : BitVec 64) : (x.credit a).det = x.det := rfl
@[simp] theorem Task.credit_launch (x : Task) (a : BitVec 64) : (x.credit a).launch = x.launch := rfl
@[simp] theorem Task.credit_handlerFor (x : Task) (a : BitVec 64) : (x.credit a).handlerFor = x.handlerFor := rfl
@[simp] theorem Task.credit_viaSpawnx (x : Task) (a : BitVec 64) : (x.credit a).viaSpawnx = x.viaSpawnx := rfl
@[simp] theorem Task.credit_place (x : Task) (a : BitVec 64) : (x.credit a).place = x.place := rfl
@[simp] theorem Task.credit_arrival (x : Task) (a : BitVec 64) : (x.credit a).arrival = x.arrival := rfl
@[simp] theorem Task.credit_everPlaced (x : Task) (a : BitVec 64) : (x.credit a).everPlaced = x.everPlaced := rfl
@[simp] theorem Task.credit_lcores (x : Task) (a : BitVec 64) : (x.credit a).lcores = x.lcores := rfl
@[simp] theorem Task.credit_held (x : Task) (a : BitVec 64) : (x.credit a).held = x.held := rfl
@[simp] theorem Task.credit_fpctl (x : Task) (a : BitVec 64) : (x.credit a).fpctl = x.fpctl := rfl
@[simp] theorem Task.credit_sealcnt (x : Task) (a : BitVec 64) : (x.credit a).sealcnt = x.sealcnt := rfl
@[simp] theorem Task.credit_zerochk (x : Task) (a : BitVec 64) : (x.credit a).zerochk = x.zerochk := rfl
@[simp] theorem Task.credit_exmode (x : Task) (a : BitVec 64) : (x.credit a).exmode = x.exmode := rfl
@[simp] theorem Task.credit_ownExm (x : Task) (a : BitVec 64) : (x.credit a).ownExm = x.ownExm := rfl
@[simp] theorem Task.credit_dset (x : Task) (a : BitVec 64) : (x.credit a).dset = x.dset := rfl
@[simp] theorem Task.credit_oset (x : Task) (a : BitVec 64) : (x.credit a).oset = x.oset := rfl
@[simp] theorem Task.credit_quant (x : Task) (a : BitVec 64) : (x.credit a).quant = x.quant := rfl
@[simp] theorem Task.credit_bbc (x : Task) (a : BitVec 64) : (x.credit a).bbc = x.bbc := rfl
@[simp] theorem Task.credit_childCtr (x : Task) (a : BitVec 64) : (x.credit a).childCtr = x.childCtr := rfl
@[simp] theorem Task.credit_childGen (x : Task) (a : BitVec 64) : (x.credit a).childGen = x.childGen := rfl
@[simp] theorem Task.credit_prio (x : Task) (a : BitVec 64) : (x.credit a).prio = x.prio := rfl
@[simp] theorem Task.credit_ceil (x : Task) (a : BitVec 64) : (x.credit a).ceil = x.ceil := rfl
@[simp] theorem Task.credit_plies (x : Task) (a : BitVec 64) : (x.credit a).plies = x.plies := rfl
@[simp] theorem Task.credit_pbase (x : Task) (a : BitVec 64) : (x.credit a).pbase = x.pbase := rfl
@[simp] theorem Task.credit_privWritten (x : Task) (a : BitVec 64) : (x.credit a).privWritten = x.privWritten := rfl
@[simp] theorem Task.credit_unfenced (x : Task) (a : BitVec 64) : (x.credit a).unfenced = x.unfenced := rfl
@[simp] theorem Task.credit_after (x : Task) (a : BitVec 64) : (x.credit a).after = x.after := rfl
@[simp] theorem Task.credit_relMark (x : Task) (a : BitVec 64) : (x.credit a).relMark = x.relMark := rfl
@[simp] theorem Task.credit_carried (x : Task) (a : BitVec 64) : (x.credit a).carried = x.carried := rfl
@[simp] theorem Task.credit_lanes (x : Task) (a : BitVec 64) : (x.credit a).lanes = x.lanes := rfl
@[simp] theorem Task.credit_sregs (x : Task) (a : BitVec 64) : (x.credit a).sregs = x.sregs := rfl
@[simp] theorem Task.credit_vregs (x : Task) (a : BitVec 64) : (x.credit a).vregs = x.vregs := rfl
@[simp] theorem Task.credit_preds (x : Task) (a : BitVec 64) : (x.credit a).preds = x.preds := rfl
@[simp] theorem Task.credit_outs (x : Task) (a : BitVec 64) : (x.credit a).outs = x.outs := rfl
@[simp] theorem Task.credit_sfOps (x : Task) (a : BitVec 64) : (x.credit a).sfOps = x.sfOps := rfl
@[simp] theorem Task.credit_waits (x : Task) (a : BitVec 64) : (x.credit a).waits = x.waits := rfl
@[simp] theorem Task.credit_children (x : Task) (a : BitVec 64) : (x.credit a).children = x.children := rfl
@[simp] theorem Task.credit_dseq (x : Task) (a : BitVec 64) : (x.credit a).dseq = x.dseq := rfl
@[simp] theorem Task.credit_dentries (x : Task) (a : BitVec 64) : (x.credit a).dentries = x.dentries := rfl
@[simp] theorem Task.credit_mxRecs (x : Task) (a : BitVec 64) : (x.credit a).mxRecs = x.mxRecs := rfl
@[simp] theorem Task.credit_fault (x : Task) (a : BitVec 64) : (x.credit a).fault = x.fault := rfl
@[simp] theorem Task.credit_fetchFault (x : Task) (a : BitVec 64) : (x.credit a).fetchFault = x.fetchFault := rfl
@[simp] theorem Task.credit_notice (x : Task) (a : BitVec 64) : (x.credit a).notice = x.notice := rfl
@[simp] theorem Task.credit_trapRec (x : Task) (a : BitVec 64) : (x.credit a).trapRec = x.trapRec := rfl
@[simp] theorem Task.credit_deferred (x : Task) (a : BitVec 64) : (x.credit a).deferred = x.deferred := rfl
@[simp] theorem Task.credit_deferredCopies (x : Task) (a : BitVec 64) : (x.credit a).deferredCopies = x.deferredCopies := rfl
@[simp] theorem Task.credit_replayCap (x : Task) (a : BitVec 64) : (x.credit a).replayCap = x.replayCap := rfl
@[simp] theorem Task.credit_halted (x : Task) (a : BitVec 64) : (x.credit a).halted = x.halted := rfl
@[simp] theorem Task.credit_suspended (x : Task) (a : BitVec 64) : (x.credit a).suspended = x.suspended := rfl
@[simp] theorem Task.credit_escalated (x : Task) (a : BitVec 64) : (x.credit a).escalated = x.escalated := rfl
@[simp] theorem Task.credit_werr (x : Task) (a : BitVec 64) : (x.credit a).werr = x.werr := rfl
@[simp] theorem Task.credit_saving (x : Task) (a : BitVec 64) : (x.credit a).saving = x.saving := rfl
@[simp] theorem Task.credit_suspUs (x : Task) (a : BitVec 64) : (x.credit a).suspUs = x.suspUs := rfl
@[simp] theorem Task.credit_paused (x : Task) (a : BitVec 64) : (x.credit a).paused = x.paused := rfl
@[simp] theorem Task.credit_stop (x : Task) (a : BitVec 64) : (x.credit a).stop = x.stop := rfl
@[simp] theorem Task.credit_pendingReplays (x : Task) (a : BitVec 64) : (x.credit a).pendingReplays = x.pendingReplays := rfl
@[simp] theorem Task.credit_saved (x : Task) (a : BitVec 64) : (x.credit a).saved = x.saved := rfl
@[simp] theorem Task.credit_lastSelect (x : Task) (a : BitVec 64) : (x.credit a).lastSelect = x.lastSelect := rfl
@[simp] theorem Task.countWindows_id (x : Task) (m : Mask) : (x.countWindows m).id = x.id := rfl
@[simp] theorem Task.countWindows_vf (x : Task) (m : Mask) : (x.countWindows m).vf = x.vf := rfl
@[simp] theorem Task.countWindows_asid (x : Task) (m : Mask) : (x.countWindows m).asid = x.asid := rfl
@[simp] theorem Task.countWindows_prin (x : Task) (m : Mask) : (x.countWindows m).prin = x.prin := rfl
@[simp] theorem Task.countWindows_kernel (x : Task) (m : Mask) : (x.countWindows m).kernel = x.kernel := rfl
@[simp] theorem Task.countWindows_parent (x : Task) (m : Mask) : (x.countWindows m).parent = x.parent := rfl
@[simp] theorem Task.countWindows_root (x : Task) (m : Mask) : (x.countWindows m).root = x.root := rfl
@[simp] theorem Task.countWindows_handle (x : Task) (m : Mask) : (x.countWindows m).handle = x.handle := rfl
@[simp] theorem Task.countWindows_ordinal (x : Task) (m : Mask) : (x.countWindows m).ordinal = x.ordinal := rfl
@[simp] theorem Task.countWindows_det (x : Task) (m : Mask) : (x.countWindows m).det = x.det := rfl
@[simp] theorem Task.countWindows_launch (x : Task) (m : Mask) : (x.countWindows m).launch = x.launch := rfl
@[simp] theorem Task.countWindows_handlerFor (x : Task) (m : Mask) : (x.countWindows m).handlerFor = x.handlerFor := rfl
@[simp] theorem Task.countWindows_viaSpawnx (x : Task) (m : Mask) : (x.countWindows m).viaSpawnx = x.viaSpawnx := rfl
@[simp] theorem Task.countWindows_place (x : Task) (m : Mask) : (x.countWindows m).place = x.place := rfl
@[simp] theorem Task.countWindows_arrival (x : Task) (m : Mask) : (x.countWindows m).arrival = x.arrival := rfl
@[simp] theorem Task.countWindows_everPlaced (x : Task) (m : Mask) : (x.countWindows m).everPlaced = x.everPlaced := rfl
@[simp] theorem Task.countWindows_lcores (x : Task) (m : Mask) : (x.countWindows m).lcores = x.lcores := rfl
@[simp] theorem Task.countWindows_alw (x : Task) (m : Mask) : (x.countWindows m).alw = x.alw := rfl
@[simp] theorem Task.countWindows_held (x : Task) (m : Mask) : (x.countWindows m).held = x.held := rfl
@[simp] theorem Task.countWindows_fpctl (x : Task) (m : Mask) : (x.countWindows m).fpctl = x.fpctl := rfl
@[simp] theorem Task.countWindows_sealcnt (x : Task) (m : Mask) : (x.countWindows m).sealcnt = x.sealcnt := rfl
@[simp] theorem Task.countWindows_zerochk (x : Task) (m : Mask) : (x.countWindows m).zerochk = x.zerochk := rfl
@[simp] theorem Task.countWindows_exmode (x : Task) (m : Mask) : (x.countWindows m).exmode = x.exmode := rfl
@[simp] theorem Task.countWindows_ownExm (x : Task) (m : Mask) : (x.countWindows m).ownExm = x.ownExm := rfl
@[simp] theorem Task.countWindows_dset (x : Task) (m : Mask) : (x.countWindows m).dset = x.dset := rfl
@[simp] theorem Task.countWindows_oset (x : Task) (m : Mask) : (x.countWindows m).oset = x.oset := rfl
@[simp] theorem Task.countWindows_quant (x : Task) (m : Mask) : (x.countWindows m).quant = x.quant := rfl
@[simp] theorem Task.countWindows_bbc (x : Task) (m : Mask) : (x.countWindows m).bbc = x.bbc := rfl
@[simp] theorem Task.countWindows_childCtr (x : Task) (m : Mask) : (x.countWindows m).childCtr = x.childCtr := rfl
@[simp] theorem Task.countWindows_childGen (x : Task) (m : Mask) : (x.countWindows m).childGen = x.childGen := rfl
@[simp] theorem Task.countWindows_prio (x : Task) (m : Mask) : (x.countWindows m).prio = x.prio := rfl
@[simp] theorem Task.countWindows_ceil (x : Task) (m : Mask) : (x.countWindows m).ceil = x.ceil := rfl
@[simp] theorem Task.countWindows_plies (x : Task) (m : Mask) : (x.countWindows m).plies = x.plies := rfl
@[simp] theorem Task.countWindows_pbase (x : Task) (m : Mask) : (x.countWindows m).pbase = x.pbase := rfl
@[simp] theorem Task.countWindows_privWritten (x : Task) (m : Mask) : (x.countWindows m).privWritten = x.privWritten := rfl
@[simp] theorem Task.countWindows_unfenced (x : Task) (m : Mask) : (x.countWindows m).unfenced = x.unfenced := rfl
@[simp] theorem Task.countWindows_after (x : Task) (m : Mask) : (x.countWindows m).after = x.after := rfl
@[simp] theorem Task.countWindows_relMark (x : Task) (m : Mask) : (x.countWindows m).relMark = x.relMark := rfl
@[simp] theorem Task.countWindows_carried (x : Task) (m : Mask) : (x.countWindows m).carried = x.carried := rfl
@[simp] theorem Task.countWindows_lanes (x : Task) (m : Mask) : (x.countWindows m).lanes = x.lanes := rfl
@[simp] theorem Task.countWindows_sregs (x : Task) (m : Mask) : (x.countWindows m).sregs = x.sregs := rfl
@[simp] theorem Task.countWindows_vregs (x : Task) (m : Mask) : (x.countWindows m).vregs = x.vregs := rfl
@[simp] theorem Task.countWindows_preds (x : Task) (m : Mask) : (x.countWindows m).preds = x.preds := rfl
@[simp] theorem Task.countWindows_sfOps (x : Task) (m : Mask) : (x.countWindows m).sfOps = x.sfOps := rfl
@[simp] theorem Task.countWindows_waits (x : Task) (m : Mask) : (x.countWindows m).waits = x.waits := rfl
@[simp] theorem Task.countWindows_children (x : Task) (m : Mask) : (x.countWindows m).children = x.children := rfl
@[simp] theorem Task.countWindows_dseq (x : Task) (m : Mask) : (x.countWindows m).dseq = x.dseq := rfl
@[simp] theorem Task.countWindows_dentries (x : Task) (m : Mask) : (x.countWindows m).dentries = x.dentries := rfl
@[simp] theorem Task.countWindows_mxRecs (x : Task) (m : Mask) : (x.countWindows m).mxRecs = x.mxRecs := rfl
@[simp] theorem Task.countWindows_fault (x : Task) (m : Mask) : (x.countWindows m).fault = x.fault := rfl
@[simp] theorem Task.countWindows_fetchFault (x : Task) (m : Mask) : (x.countWindows m).fetchFault = x.fetchFault := rfl
@[simp] theorem Task.countWindows_notice (x : Task) (m : Mask) : (x.countWindows m).notice = x.notice := rfl
@[simp] theorem Task.countWindows_trapRec (x : Task) (m : Mask) : (x.countWindows m).trapRec = x.trapRec := rfl
@[simp] theorem Task.countWindows_deferred (x : Task) (m : Mask) : (x.countWindows m).deferred = x.deferred := rfl
@[simp] theorem Task.countWindows_deferredCopies (x : Task) (m : Mask) : (x.countWindows m).deferredCopies = x.deferredCopies := rfl
@[simp] theorem Task.countWindows_replayCap (x : Task) (m : Mask) : (x.countWindows m).replayCap = x.replayCap := rfl
@[simp] theorem Task.countWindows_halted (x : Task) (m : Mask) : (x.countWindows m).halted = x.halted := rfl
@[simp] theorem Task.countWindows_suspended (x : Task) (m : Mask) : (x.countWindows m).suspended = x.suspended := rfl
@[simp] theorem Task.countWindows_escalated (x : Task) (m : Mask) : (x.countWindows m).escalated = x.escalated := rfl
@[simp] theorem Task.countWindows_werr (x : Task) (m : Mask) : (x.countWindows m).werr = x.werr := rfl
@[simp] theorem Task.countWindows_saving (x : Task) (m : Mask) : (x.countWindows m).saving = x.saving := rfl
@[simp] theorem Task.countWindows_suspUs (x : Task) (m : Mask) : (x.countWindows m).suspUs = x.suspUs := rfl
@[simp] theorem Task.countWindows_paused (x : Task) (m : Mask) : (x.countWindows m).paused = x.paused := rfl
@[simp] theorem Task.countWindows_stop (x : Task) (m : Mask) : (x.countWindows m).stop = x.stop := rfl
@[simp] theorem Task.countWindows_pendingReplays (x : Task) (m : Mask) : (x.countWindows m).pendingReplays = x.pendingReplays := rfl
@[simp] theorem Task.countWindows_saved (x : Task) (m : Mask) : (x.countWindows m).saved = x.saved := rfl
@[simp] theorem Task.countWindows_lastSelect (x : Task) (m : Mask) : (x.countWindows m).lastSelect = x.lastSelect := rfl
@[simp] theorem Task.arrive_id (x : Task) (m : Mask) : (x.arrive m).id = x.id := rfl
@[simp] theorem Task.arrive_vf (x : Task) (m : Mask) : (x.arrive m).vf = x.vf := rfl
@[simp] theorem Task.arrive_asid (x : Task) (m : Mask) : (x.arrive m).asid = x.asid := rfl
@[simp] theorem Task.arrive_prin (x : Task) (m : Mask) : (x.arrive m).prin = x.prin := rfl
@[simp] theorem Task.arrive_kernel (x : Task) (m : Mask) : (x.arrive m).kernel = x.kernel := rfl
@[simp] theorem Task.arrive_parent (x : Task) (m : Mask) : (x.arrive m).parent = x.parent := rfl
@[simp] theorem Task.arrive_root (x : Task) (m : Mask) : (x.arrive m).root = x.root := rfl
@[simp] theorem Task.arrive_handle (x : Task) (m : Mask) : (x.arrive m).handle = x.handle := rfl
@[simp] theorem Task.arrive_ordinal (x : Task) (m : Mask) : (x.arrive m).ordinal = x.ordinal := rfl
@[simp] theorem Task.arrive_det (x : Task) (m : Mask) : (x.arrive m).det = x.det := rfl
@[simp] theorem Task.arrive_launch (x : Task) (m : Mask) : (x.arrive m).launch = x.launch := rfl
@[simp] theorem Task.arrive_handlerFor (x : Task) (m : Mask) : (x.arrive m).handlerFor = x.handlerFor := rfl
@[simp] theorem Task.arrive_viaSpawnx (x : Task) (m : Mask) : (x.arrive m).viaSpawnx = x.viaSpawnx := rfl
@[simp] theorem Task.arrive_place (x : Task) (m : Mask) : (x.arrive m).place = x.place := rfl
@[simp] theorem Task.arrive_arrival (x : Task) (m : Mask) : (x.arrive m).arrival = x.arrival := rfl
@[simp] theorem Task.arrive_everPlaced (x : Task) (m : Mask) : (x.arrive m).everPlaced = x.everPlaced := rfl
@[simp] theorem Task.arrive_lcores (x : Task) (m : Mask) : (x.arrive m).lcores = x.lcores := rfl
@[simp] theorem Task.arrive_alw (x : Task) (m : Mask) : (x.arrive m).alw = x.alw := rfl
@[simp] theorem Task.arrive_held (x : Task) (m : Mask) : (x.arrive m).held = x.held := rfl
@[simp] theorem Task.arrive_fpctl (x : Task) (m : Mask) : (x.arrive m).fpctl = x.fpctl := rfl
@[simp] theorem Task.arrive_sealcnt (x : Task) (m : Mask) : (x.arrive m).sealcnt = x.sealcnt := rfl
@[simp] theorem Task.arrive_zerochk (x : Task) (m : Mask) : (x.arrive m).zerochk = x.zerochk := rfl
@[simp] theorem Task.arrive_exmode (x : Task) (m : Mask) : (x.arrive m).exmode = x.exmode := rfl
@[simp] theorem Task.arrive_ownExm (x : Task) (m : Mask) : (x.arrive m).ownExm = x.ownExm := rfl
@[simp] theorem Task.arrive_dset (x : Task) (m : Mask) : (x.arrive m).dset = x.dset := rfl
@[simp] theorem Task.arrive_oset (x : Task) (m : Mask) : (x.arrive m).oset = x.oset := rfl
@[simp] theorem Task.arrive_quant (x : Task) (m : Mask) : (x.arrive m).quant = x.quant := rfl
@[simp] theorem Task.arrive_bbc (x : Task) (m : Mask) : (x.arrive m).bbc = x.bbc := rfl
@[simp] theorem Task.arrive_childCtr (x : Task) (m : Mask) : (x.arrive m).childCtr = x.childCtr := rfl
@[simp] theorem Task.arrive_childGen (x : Task) (m : Mask) : (x.arrive m).childGen = x.childGen := rfl
@[simp] theorem Task.arrive_prio (x : Task) (m : Mask) : (x.arrive m).prio = x.prio := rfl
@[simp] theorem Task.arrive_ceil (x : Task) (m : Mask) : (x.arrive m).ceil = x.ceil := rfl
@[simp] theorem Task.arrive_plies (x : Task) (m : Mask) : (x.arrive m).plies = x.plies := rfl
@[simp] theorem Task.arrive_pbase (x : Task) (m : Mask) : (x.arrive m).pbase = x.pbase := rfl
@[simp] theorem Task.arrive_privWritten (x : Task) (m : Mask) : (x.arrive m).privWritten = x.privWritten := rfl
@[simp] theorem Task.arrive_unfenced (x : Task) (m : Mask) : (x.arrive m).unfenced = x.unfenced := rfl
@[simp] theorem Task.arrive_after (x : Task) (m : Mask) : (x.arrive m).after = x.after := rfl
@[simp] theorem Task.arrive_relMark (x : Task) (m : Mask) : (x.arrive m).relMark = x.relMark := rfl
@[simp] theorem Task.arrive_carried (x : Task) (m : Mask) : (x.arrive m).carried = x.carried := rfl
@[simp] theorem Task.arrive_sregs (x : Task) (m : Mask) : (x.arrive m).sregs = x.sregs := rfl
@[simp] theorem Task.arrive_vregs (x : Task) (m : Mask) : (x.arrive m).vregs = x.vregs := rfl
@[simp] theorem Task.arrive_preds (x : Task) (m : Mask) : (x.arrive m).preds = x.preds := rfl
@[simp] theorem Task.arrive_outs (x : Task) (m : Mask) : (x.arrive m).outs = x.outs := rfl
@[simp] theorem Task.arrive_sfOps (x : Task) (m : Mask) : (x.arrive m).sfOps = x.sfOps := rfl
@[simp] theorem Task.arrive_waits (x : Task) (m : Mask) : (x.arrive m).waits = x.waits := rfl
@[simp] theorem Task.arrive_children (x : Task) (m : Mask) : (x.arrive m).children = x.children := rfl
@[simp] theorem Task.arrive_dseq (x : Task) (m : Mask) : (x.arrive m).dseq = x.dseq := rfl
@[simp] theorem Task.arrive_dentries (x : Task) (m : Mask) : (x.arrive m).dentries = x.dentries := rfl
@[simp] theorem Task.arrive_mxRecs (x : Task) (m : Mask) : (x.arrive m).mxRecs = x.mxRecs := rfl
@[simp] theorem Task.arrive_fault (x : Task) (m : Mask) : (x.arrive m).fault = x.fault := rfl
@[simp] theorem Task.arrive_fetchFault (x : Task) (m : Mask) : (x.arrive m).fetchFault = x.fetchFault := rfl
@[simp] theorem Task.arrive_notice (x : Task) (m : Mask) : (x.arrive m).notice = x.notice := rfl
@[simp] theorem Task.arrive_trapRec (x : Task) (m : Mask) : (x.arrive m).trapRec = x.trapRec := rfl
@[simp] theorem Task.arrive_deferred (x : Task) (m : Mask) : (x.arrive m).deferred = x.deferred := rfl
@[simp] theorem Task.arrive_deferredCopies (x : Task) (m : Mask) : (x.arrive m).deferredCopies = x.deferredCopies := rfl
@[simp] theorem Task.arrive_replayCap (x : Task) (m : Mask) : (x.arrive m).replayCap = x.replayCap := rfl
@[simp] theorem Task.arrive_halted (x : Task) (m : Mask) : (x.arrive m).halted = x.halted := rfl
@[simp] theorem Task.arrive_suspended (x : Task) (m : Mask) : (x.arrive m).suspended = x.suspended := rfl
@[simp] theorem Task.arrive_escalated (x : Task) (m : Mask) : (x.arrive m).escalated = x.escalated := rfl
@[simp] theorem Task.arrive_werr (x : Task) (m : Mask) : (x.arrive m).werr = x.werr := rfl
@[simp] theorem Task.arrive_saving (x : Task) (m : Mask) : (x.arrive m).saving = x.saving := rfl
@[simp] theorem Task.arrive_suspUs (x : Task) (m : Mask) : (x.arrive m).suspUs = x.suspUs := rfl
@[simp] theorem Task.arrive_paused (x : Task) (m : Mask) : (x.arrive m).paused = x.paused := rfl
@[simp] theorem Task.arrive_stop (x : Task) (m : Mask) : (x.arrive m).stop = x.stop := rfl
@[simp] theorem Task.arrive_pendingReplays (x : Task) (m : Mask) : (x.arrive m).pendingReplays = x.pendingReplays := rfl
@[simp] theorem Task.arrive_saved (x : Task) (m : Mask) : (x.arrive m).saved = x.saved := rfl
@[simp] theorem Task.arrive_lastSelect (x : Task) (m : Mask) : (x.arrive m).lastSelect = x.lastSelect := rfl
@[simp] theorem Task.advance_id (x : Task) (m : Mask) (n : Nat) : (x.advance m n).id = x.id := rfl
@[simp] theorem Task.advance_vf (x : Task) (m : Mask) (n : Nat) : (x.advance m n).vf = x.vf := rfl
@[simp] theorem Task.advance_asid (x : Task) (m : Mask) (n : Nat) : (x.advance m n).asid = x.asid := rfl
@[simp] theorem Task.advance_prin (x : Task) (m : Mask) (n : Nat) : (x.advance m n).prin = x.prin := rfl
@[simp] theorem Task.advance_kernel (x : Task) (m : Mask) (n : Nat) : (x.advance m n).kernel = x.kernel := rfl
@[simp] theorem Task.advance_parent (x : Task) (m : Mask) (n : Nat) : (x.advance m n).parent = x.parent := rfl
@[simp] theorem Task.advance_root (x : Task) (m : Mask) (n : Nat) : (x.advance m n).root = x.root := rfl
@[simp] theorem Task.advance_handle (x : Task) (m : Mask) (n : Nat) : (x.advance m n).handle = x.handle := rfl
@[simp] theorem Task.advance_ordinal (x : Task) (m : Mask) (n : Nat) : (x.advance m n).ordinal = x.ordinal := rfl
@[simp] theorem Task.advance_det (x : Task) (m : Mask) (n : Nat) : (x.advance m n).det = x.det := rfl
@[simp] theorem Task.advance_launch (x : Task) (m : Mask) (n : Nat) : (x.advance m n).launch = x.launch := rfl
@[simp] theorem Task.advance_handlerFor (x : Task) (m : Mask) (n : Nat) : (x.advance m n).handlerFor = x.handlerFor := rfl
@[simp] theorem Task.advance_viaSpawnx (x : Task) (m : Mask) (n : Nat) : (x.advance m n).viaSpawnx = x.viaSpawnx := rfl
@[simp] theorem Task.advance_place (x : Task) (m : Mask) (n : Nat) : (x.advance m n).place = x.place := rfl
@[simp] theorem Task.advance_arrival (x : Task) (m : Mask) (n : Nat) : (x.advance m n).arrival = x.arrival := rfl
@[simp] theorem Task.advance_everPlaced (x : Task) (m : Mask) (n : Nat) : (x.advance m n).everPlaced = x.everPlaced := rfl
@[simp] theorem Task.advance_lcores (x : Task) (m : Mask) (n : Nat) : (x.advance m n).lcores = x.lcores := rfl
@[simp] theorem Task.advance_alw (x : Task) (m : Mask) (n : Nat) : (x.advance m n).alw = x.alw := rfl
@[simp] theorem Task.advance_held (x : Task) (m : Mask) (n : Nat) : (x.advance m n).held = x.held := rfl
@[simp] theorem Task.advance_fpctl (x : Task) (m : Mask) (n : Nat) : (x.advance m n).fpctl = x.fpctl := rfl
@[simp] theorem Task.advance_sealcnt (x : Task) (m : Mask) (n : Nat) : (x.advance m n).sealcnt = x.sealcnt := rfl
@[simp] theorem Task.advance_zerochk (x : Task) (m : Mask) (n : Nat) : (x.advance m n).zerochk = x.zerochk := rfl
@[simp] theorem Task.advance_exmode (x : Task) (m : Mask) (n : Nat) : (x.advance m n).exmode = x.exmode := rfl
@[simp] theorem Task.advance_ownExm (x : Task) (m : Mask) (n : Nat) : (x.advance m n).ownExm = x.ownExm := rfl
@[simp] theorem Task.advance_dset (x : Task) (m : Mask) (n : Nat) : (x.advance m n).dset = x.dset := rfl
@[simp] theorem Task.advance_oset (x : Task) (m : Mask) (n : Nat) : (x.advance m n).oset = x.oset := rfl
@[simp] theorem Task.advance_quant (x : Task) (m : Mask) (n : Nat) : (x.advance m n).quant = x.quant := rfl
@[simp] theorem Task.advance_bbc (x : Task) (m : Mask) (n : Nat) : (x.advance m n).bbc = x.bbc := rfl
@[simp] theorem Task.advance_childCtr (x : Task) (m : Mask) (n : Nat) : (x.advance m n).childCtr = x.childCtr := rfl
@[simp] theorem Task.advance_childGen (x : Task) (m : Mask) (n : Nat) : (x.advance m n).childGen = x.childGen := rfl
@[simp] theorem Task.advance_prio (x : Task) (m : Mask) (n : Nat) : (x.advance m n).prio = x.prio := rfl
@[simp] theorem Task.advance_ceil (x : Task) (m : Mask) (n : Nat) : (x.advance m n).ceil = x.ceil := rfl
@[simp] theorem Task.advance_plies (x : Task) (m : Mask) (n : Nat) : (x.advance m n).plies = x.plies := rfl
@[simp] theorem Task.advance_pbase (x : Task) (m : Mask) (n : Nat) : (x.advance m n).pbase = x.pbase := rfl
@[simp] theorem Task.advance_privWritten (x : Task) (m : Mask) (n : Nat) : (x.advance m n).privWritten = x.privWritten := rfl
@[simp] theorem Task.advance_unfenced (x : Task) (m : Mask) (n : Nat) : (x.advance m n).unfenced = x.unfenced := rfl
@[simp] theorem Task.advance_after (x : Task) (m : Mask) (n : Nat) : (x.advance m n).after = x.after := rfl
@[simp] theorem Task.advance_relMark (x : Task) (m : Mask) (n : Nat) : (x.advance m n).relMark = x.relMark := rfl
@[simp] theorem Task.advance_carried (x : Task) (m : Mask) (n : Nat) : (x.advance m n).carried = x.carried := rfl
@[simp] theorem Task.advance_sregs (x : Task) (m : Mask) (n : Nat) : (x.advance m n).sregs = x.sregs := rfl
@[simp] theorem Task.advance_vregs (x : Task) (m : Mask) (n : Nat) : (x.advance m n).vregs = x.vregs := rfl
@[simp] theorem Task.advance_preds (x : Task) (m : Mask) (n : Nat) : (x.advance m n).preds = x.preds := rfl
@[simp] theorem Task.advance_outs (x : Task) (m : Mask) (n : Nat) : (x.advance m n).outs = x.outs := rfl
@[simp] theorem Task.advance_sfOps (x : Task) (m : Mask) (n : Nat) : (x.advance m n).sfOps = x.sfOps := rfl
@[simp] theorem Task.advance_waits (x : Task) (m : Mask) (n : Nat) : (x.advance m n).waits = x.waits := rfl
@[simp] theorem Task.advance_children (x : Task) (m : Mask) (n : Nat) : (x.advance m n).children = x.children := rfl
@[simp] theorem Task.advance_dseq (x : Task) (m : Mask) (n : Nat) : (x.advance m n).dseq = x.dseq := rfl
@[simp] theorem Task.advance_dentries (x : Task) (m : Mask) (n : Nat) : (x.advance m n).dentries = x.dentries := rfl
@[simp] theorem Task.advance_mxRecs (x : Task) (m : Mask) (n : Nat) : (x.advance m n).mxRecs = x.mxRecs := rfl
@[simp] theorem Task.advance_fault (x : Task) (m : Mask) (n : Nat) : (x.advance m n).fault = x.fault := rfl
@[simp] theorem Task.advance_fetchFault (x : Task) (m : Mask) (n : Nat) : (x.advance m n).fetchFault = x.fetchFault := rfl
@[simp] theorem Task.advance_notice (x : Task) (m : Mask) (n : Nat) : (x.advance m n).notice = x.notice := rfl
@[simp] theorem Task.advance_trapRec (x : Task) (m : Mask) (n : Nat) : (x.advance m n).trapRec = x.trapRec := rfl
@[simp] theorem Task.advance_deferred (x : Task) (m : Mask) (n : Nat) : (x.advance m n).deferred = x.deferred := rfl
@[simp] theorem Task.advance_deferredCopies (x : Task) (m : Mask) (n : Nat) : (x.advance m n).deferredCopies = x.deferredCopies := rfl
@[simp] theorem Task.advance_replayCap (x : Task) (m : Mask) (n : Nat) : (x.advance m n).replayCap = x.replayCap := rfl
@[simp] theorem Task.advance_halted (x : Task) (m : Mask) (n : Nat) : (x.advance m n).halted = x.halted := rfl
@[simp] theorem Task.advance_suspended (x : Task) (m : Mask) (n : Nat) : (x.advance m n).suspended = x.suspended := rfl
@[simp] theorem Task.advance_escalated (x : Task) (m : Mask) (n : Nat) : (x.advance m n).escalated = x.escalated := rfl
@[simp] theorem Task.advance_werr (x : Task) (m : Mask) (n : Nat) : (x.advance m n).werr = x.werr := rfl
@[simp] theorem Task.advance_saving (x : Task) (m : Mask) (n : Nat) : (x.advance m n).saving = x.saving := rfl
@[simp] theorem Task.advance_suspUs (x : Task) (m : Mask) (n : Nat) : (x.advance m n).suspUs = x.suspUs := rfl
@[simp] theorem Task.advance_paused (x : Task) (m : Mask) (n : Nat) : (x.advance m n).paused = x.paused := rfl
@[simp] theorem Task.advance_stop (x : Task) (m : Mask) (n : Nat) : (x.advance m n).stop = x.stop := rfl
@[simp] theorem Task.advance_pendingReplays (x : Task) (m : Mask) (n : Nat) : (x.advance m n).pendingReplays = x.pendingReplays := rfl
@[simp] theorem Task.advance_saved (x : Task) (m : Mask) (n : Nat) : (x.advance m n).saved = x.saved := rfl
@[simp] theorem Task.advance_lastSelect (x : Task) (m : Mask) (n : Nat) : (x.advance m n).lastSelect = x.lastSelect := rfl
@[simp] theorem Task.parkLanes_id (x : Task) (m : Mask) (p : Park) : (x.parkLanes m p).id = x.id := rfl
@[simp] theorem Task.parkLanes_vf (x : Task) (m : Mask) (p : Park) : (x.parkLanes m p).vf = x.vf := rfl
@[simp] theorem Task.parkLanes_asid (x : Task) (m : Mask) (p : Park) : (x.parkLanes m p).asid = x.asid := rfl
@[simp] theorem Task.parkLanes_prin (x : Task) (m : Mask) (p : Park) : (x.parkLanes m p).prin = x.prin := rfl
@[simp] theorem Task.parkLanes_kernel (x : Task) (m : Mask) (p : Park) : (x.parkLanes m p).kernel = x.kernel := rfl
@[simp] theorem Task.parkLanes_parent (x : Task) (m : Mask) (p : Park) : (x.parkLanes m p).parent = x.parent := rfl
@[simp] theorem Task.parkLanes_root (x : Task) (m : Mask) (p : Park) : (x.parkLanes m p).root = x.root := rfl
@[simp] theorem Task.parkLanes_handle (x : Task) (m : Mask) (p : Park) : (x.parkLanes m p).handle = x.handle := rfl
@[simp] theorem Task.parkLanes_ordinal (x : Task) (m : Mask) (p : Park) : (x.parkLanes m p).ordinal = x.ordinal := rfl
@[simp] theorem Task.parkLanes_det (x : Task) (m : Mask) (p : Park) : (x.parkLanes m p).det = x.det := rfl
@[simp] theorem Task.parkLanes_launch (x : Task) (m : Mask) (p : Park) : (x.parkLanes m p).launch = x.launch := rfl
@[simp] theorem Task.parkLanes_handlerFor (x : Task) (m : Mask) (p : Park) : (x.parkLanes m p).handlerFor = x.handlerFor := rfl
@[simp] theorem Task.parkLanes_viaSpawnx (x : Task) (m : Mask) (p : Park) : (x.parkLanes m p).viaSpawnx = x.viaSpawnx := rfl
@[simp] theorem Task.parkLanes_place (x : Task) (m : Mask) (p : Park) : (x.parkLanes m p).place = x.place := rfl
@[simp] theorem Task.parkLanes_arrival (x : Task) (m : Mask) (p : Park) : (x.parkLanes m p).arrival = x.arrival := rfl
@[simp] theorem Task.parkLanes_everPlaced (x : Task) (m : Mask) (p : Park) : (x.parkLanes m p).everPlaced = x.everPlaced := rfl
@[simp] theorem Task.parkLanes_lcores (x : Task) (m : Mask) (p : Park) : (x.parkLanes m p).lcores = x.lcores := rfl
@[simp] theorem Task.parkLanes_alw (x : Task) (m : Mask) (p : Park) : (x.parkLanes m p).alw = x.alw := rfl
@[simp] theorem Task.parkLanes_held (x : Task) (m : Mask) (p : Park) : (x.parkLanes m p).held = x.held := rfl
@[simp] theorem Task.parkLanes_fpctl (x : Task) (m : Mask) (p : Park) : (x.parkLanes m p).fpctl = x.fpctl := rfl
@[simp] theorem Task.parkLanes_sealcnt (x : Task) (m : Mask) (p : Park) : (x.parkLanes m p).sealcnt = x.sealcnt := rfl
@[simp] theorem Task.parkLanes_zerochk (x : Task) (m : Mask) (p : Park) : (x.parkLanes m p).zerochk = x.zerochk := rfl
@[simp] theorem Task.parkLanes_exmode (x : Task) (m : Mask) (p : Park) : (x.parkLanes m p).exmode = x.exmode := rfl
@[simp] theorem Task.parkLanes_ownExm (x : Task) (m : Mask) (p : Park) : (x.parkLanes m p).ownExm = x.ownExm := rfl
@[simp] theorem Task.parkLanes_dset (x : Task) (m : Mask) (p : Park) : (x.parkLanes m p).dset = x.dset := rfl
@[simp] theorem Task.parkLanes_oset (x : Task) (m : Mask) (p : Park) : (x.parkLanes m p).oset = x.oset := rfl
@[simp] theorem Task.parkLanes_quant (x : Task) (m : Mask) (p : Park) : (x.parkLanes m p).quant = x.quant := rfl
@[simp] theorem Task.parkLanes_bbc (x : Task) (m : Mask) (p : Park) : (x.parkLanes m p).bbc = x.bbc := rfl
@[simp] theorem Task.parkLanes_childCtr (x : Task) (m : Mask) (p : Park) : (x.parkLanes m p).childCtr = x.childCtr := rfl
@[simp] theorem Task.parkLanes_childGen (x : Task) (m : Mask) (p : Park) : (x.parkLanes m p).childGen = x.childGen := rfl
@[simp] theorem Task.parkLanes_prio (x : Task) (m : Mask) (p : Park) : (x.parkLanes m p).prio = x.prio := rfl
@[simp] theorem Task.parkLanes_ceil (x : Task) (m : Mask) (p : Park) : (x.parkLanes m p).ceil = x.ceil := rfl
@[simp] theorem Task.parkLanes_plies (x : Task) (m : Mask) (p : Park) : (x.parkLanes m p).plies = x.plies := rfl
@[simp] theorem Task.parkLanes_pbase (x : Task) (m : Mask) (p : Park) : (x.parkLanes m p).pbase = x.pbase := rfl
@[simp] theorem Task.parkLanes_privWritten (x : Task) (m : Mask) (p : Park) : (x.parkLanes m p).privWritten = x.privWritten := rfl
@[simp] theorem Task.parkLanes_unfenced (x : Task) (m : Mask) (p : Park) : (x.parkLanes m p).unfenced = x.unfenced := rfl
@[simp] theorem Task.parkLanes_after (x : Task) (m : Mask) (p : Park) : (x.parkLanes m p).after = x.after := rfl
@[simp] theorem Task.parkLanes_relMark (x : Task) (m : Mask) (p : Park) : (x.parkLanes m p).relMark = x.relMark := rfl
@[simp] theorem Task.parkLanes_carried (x : Task) (m : Mask) (p : Park) : (x.parkLanes m p).carried = x.carried := rfl
@[simp] theorem Task.parkLanes_sregs (x : Task) (m : Mask) (p : Park) : (x.parkLanes m p).sregs = x.sregs := rfl
@[simp] theorem Task.parkLanes_vregs (x : Task) (m : Mask) (p : Park) : (x.parkLanes m p).vregs = x.vregs := rfl
@[simp] theorem Task.parkLanes_preds (x : Task) (m : Mask) (p : Park) : (x.parkLanes m p).preds = x.preds := rfl
@[simp] theorem Task.parkLanes_outs (x : Task) (m : Mask) (p : Park) : (x.parkLanes m p).outs = x.outs := rfl
@[simp] theorem Task.parkLanes_sfOps (x : Task) (m : Mask) (p : Park) : (x.parkLanes m p).sfOps = x.sfOps := rfl
@[simp] theorem Task.parkLanes_waits (x : Task) (m : Mask) (p : Park) : (x.parkLanes m p).waits = x.waits := rfl
@[simp] theorem Task.parkLanes_children (x : Task) (m : Mask) (p : Park) : (x.parkLanes m p).children = x.children := rfl
@[simp] theorem Task.parkLanes_dseq (x : Task) (m : Mask) (p : Park) : (x.parkLanes m p).dseq = x.dseq := rfl
@[simp] theorem Task.parkLanes_dentries (x : Task) (m : Mask) (p : Park) : (x.parkLanes m p).dentries = x.dentries := rfl
@[simp] theorem Task.parkLanes_mxRecs (x : Task) (m : Mask) (p : Park) : (x.parkLanes m p).mxRecs = x.mxRecs := rfl
@[simp] theorem Task.parkLanes_fault (x : Task) (m : Mask) (p : Park) : (x.parkLanes m p).fault = x.fault := rfl
@[simp] theorem Task.parkLanes_fetchFault (x : Task) (m : Mask) (p : Park) : (x.parkLanes m p).fetchFault = x.fetchFault := rfl
@[simp] theorem Task.parkLanes_notice (x : Task) (m : Mask) (p : Park) : (x.parkLanes m p).notice = x.notice := rfl
@[simp] theorem Task.parkLanes_trapRec (x : Task) (m : Mask) (p : Park) : (x.parkLanes m p).trapRec = x.trapRec := rfl
@[simp] theorem Task.parkLanes_deferred (x : Task) (m : Mask) (p : Park) : (x.parkLanes m p).deferred = x.deferred := rfl
@[simp] theorem Task.parkLanes_deferredCopies (x : Task) (m : Mask) (p : Park) : (x.parkLanes m p).deferredCopies = x.deferredCopies := rfl
@[simp] theorem Task.parkLanes_replayCap (x : Task) (m : Mask) (p : Park) : (x.parkLanes m p).replayCap = x.replayCap := rfl
@[simp] theorem Task.parkLanes_halted (x : Task) (m : Mask) (p : Park) : (x.parkLanes m p).halted = x.halted := rfl
@[simp] theorem Task.parkLanes_suspended (x : Task) (m : Mask) (p : Park) : (x.parkLanes m p).suspended = x.suspended := rfl
@[simp] theorem Task.parkLanes_escalated (x : Task) (m : Mask) (p : Park) : (x.parkLanes m p).escalated = x.escalated := rfl
@[simp] theorem Task.parkLanes_werr (x : Task) (m : Mask) (p : Park) : (x.parkLanes m p).werr = x.werr := rfl
@[simp] theorem Task.parkLanes_saving (x : Task) (m : Mask) (p : Park) : (x.parkLanes m p).saving = x.saving := rfl
@[simp] theorem Task.parkLanes_suspUs (x : Task) (m : Mask) (p : Park) : (x.parkLanes m p).suspUs = x.suspUs := rfl
@[simp] theorem Task.parkLanes_paused (x : Task) (m : Mask) (p : Park) : (x.parkLanes m p).paused = x.paused := rfl
@[simp] theorem Task.parkLanes_stop (x : Task) (m : Mask) (p : Park) : (x.parkLanes m p).stop = x.stop := rfl
@[simp] theorem Task.parkLanes_pendingReplays (x : Task) (m : Mask) (p : Park) : (x.parkLanes m p).pendingReplays = x.pendingReplays := rfl
@[simp] theorem Task.parkLanes_saved (x : Task) (m : Mask) (p : Park) : (x.parkLanes m p).saved = x.saved := rfl
@[simp] theorem Task.parkLanes_lastSelect (x : Task) (m : Mask) (p : Park) : (x.parkLanes m p).lastSelect = x.lastSelect := rfl
@[simp] theorem Task.releaseMeets_id (x : Task) : (x.releaseMeets).id = x.id := rfl
@[simp] theorem Task.releaseMeets_vf (x : Task) : (x.releaseMeets).vf = x.vf := rfl
@[simp] theorem Task.releaseMeets_asid (x : Task) : (x.releaseMeets).asid = x.asid := rfl
@[simp] theorem Task.releaseMeets_prin (x : Task) : (x.releaseMeets).prin = x.prin := rfl
@[simp] theorem Task.releaseMeets_kernel (x : Task) : (x.releaseMeets).kernel = x.kernel := rfl
@[simp] theorem Task.releaseMeets_parent (x : Task) : (x.releaseMeets).parent = x.parent := rfl
@[simp] theorem Task.releaseMeets_root (x : Task) : (x.releaseMeets).root = x.root := rfl
@[simp] theorem Task.releaseMeets_handle (x : Task) : (x.releaseMeets).handle = x.handle := rfl
@[simp] theorem Task.releaseMeets_ordinal (x : Task) : (x.releaseMeets).ordinal = x.ordinal := rfl
@[simp] theorem Task.releaseMeets_det (x : Task) : (x.releaseMeets).det = x.det := rfl
@[simp] theorem Task.releaseMeets_launch (x : Task) : (x.releaseMeets).launch = x.launch := rfl
@[simp] theorem Task.releaseMeets_handlerFor (x : Task) : (x.releaseMeets).handlerFor = x.handlerFor := rfl
@[simp] theorem Task.releaseMeets_viaSpawnx (x : Task) : (x.releaseMeets).viaSpawnx = x.viaSpawnx := rfl
@[simp] theorem Task.releaseMeets_place (x : Task) : (x.releaseMeets).place = x.place := rfl
@[simp] theorem Task.releaseMeets_arrival (x : Task) : (x.releaseMeets).arrival = x.arrival := rfl
@[simp] theorem Task.releaseMeets_everPlaced (x : Task) : (x.releaseMeets).everPlaced = x.everPlaced := rfl
@[simp] theorem Task.releaseMeets_lcores (x : Task) : (x.releaseMeets).lcores = x.lcores := rfl
@[simp] theorem Task.releaseMeets_alw (x : Task) : (x.releaseMeets).alw = x.alw := rfl
@[simp] theorem Task.releaseMeets_held (x : Task) : (x.releaseMeets).held = x.held := rfl
@[simp] theorem Task.releaseMeets_fpctl (x : Task) : (x.releaseMeets).fpctl = x.fpctl := rfl
@[simp] theorem Task.releaseMeets_sealcnt (x : Task) : (x.releaseMeets).sealcnt = x.sealcnt := rfl
@[simp] theorem Task.releaseMeets_zerochk (x : Task) : (x.releaseMeets).zerochk = x.zerochk := rfl
@[simp] theorem Task.releaseMeets_exmode (x : Task) : (x.releaseMeets).exmode = x.exmode := rfl
@[simp] theorem Task.releaseMeets_ownExm (x : Task) : (x.releaseMeets).ownExm = x.ownExm := rfl
@[simp] theorem Task.releaseMeets_dset (x : Task) : (x.releaseMeets).dset = x.dset := rfl
@[simp] theorem Task.releaseMeets_oset (x : Task) : (x.releaseMeets).oset = x.oset := rfl
@[simp] theorem Task.releaseMeets_quant (x : Task) : (x.releaseMeets).quant = x.quant := rfl
@[simp] theorem Task.releaseMeets_bbc (x : Task) : (x.releaseMeets).bbc = x.bbc := rfl
@[simp] theorem Task.releaseMeets_childCtr (x : Task) : (x.releaseMeets).childCtr = x.childCtr := rfl
@[simp] theorem Task.releaseMeets_childGen (x : Task) : (x.releaseMeets).childGen = x.childGen := rfl
@[simp] theorem Task.releaseMeets_prio (x : Task) : (x.releaseMeets).prio = x.prio := rfl
@[simp] theorem Task.releaseMeets_ceil (x : Task) : (x.releaseMeets).ceil = x.ceil := rfl
@[simp] theorem Task.releaseMeets_plies (x : Task) : (x.releaseMeets).plies = x.plies := rfl
@[simp] theorem Task.releaseMeets_pbase (x : Task) : (x.releaseMeets).pbase = x.pbase := rfl
@[simp] theorem Task.releaseMeets_privWritten (x : Task) : (x.releaseMeets).privWritten = x.privWritten := rfl
@[simp] theorem Task.releaseMeets_unfenced (x : Task) : (x.releaseMeets).unfenced = x.unfenced := rfl
@[simp] theorem Task.releaseMeets_after (x : Task) : (x.releaseMeets).after = x.after := rfl
@[simp] theorem Task.releaseMeets_relMark (x : Task) : (x.releaseMeets).relMark = x.relMark := rfl
@[simp] theorem Task.releaseMeets_carried (x : Task) : (x.releaseMeets).carried = x.carried := rfl
@[simp] theorem Task.releaseMeets_sregs (x : Task) : (x.releaseMeets).sregs = x.sregs := rfl
@[simp] theorem Task.releaseMeets_vregs (x : Task) : (x.releaseMeets).vregs = x.vregs := rfl
@[simp] theorem Task.releaseMeets_preds (x : Task) : (x.releaseMeets).preds = x.preds := rfl
@[simp] theorem Task.releaseMeets_outs (x : Task) : (x.releaseMeets).outs = x.outs := rfl
@[simp] theorem Task.releaseMeets_sfOps (x : Task) : (x.releaseMeets).sfOps = x.sfOps := rfl
@[simp] theorem Task.releaseMeets_waits (x : Task) : (x.releaseMeets).waits = x.waits := rfl
@[simp] theorem Task.releaseMeets_children (x : Task) : (x.releaseMeets).children = x.children := rfl
@[simp] theorem Task.releaseMeets_dseq (x : Task) : (x.releaseMeets).dseq = x.dseq := rfl
@[simp] theorem Task.releaseMeets_dentries (x : Task) : (x.releaseMeets).dentries = x.dentries := rfl
@[simp] theorem Task.releaseMeets_mxRecs (x : Task) : (x.releaseMeets).mxRecs = x.mxRecs := rfl
@[simp] theorem Task.releaseMeets_fault (x : Task) : (x.releaseMeets).fault = x.fault := rfl
@[simp] theorem Task.releaseMeets_fetchFault (x : Task) : (x.releaseMeets).fetchFault = x.fetchFault := rfl
@[simp] theorem Task.releaseMeets_notice (x : Task) : (x.releaseMeets).notice = x.notice := rfl
@[simp] theorem Task.releaseMeets_trapRec (x : Task) : (x.releaseMeets).trapRec = x.trapRec := rfl
@[simp] theorem Task.releaseMeets_deferred (x : Task) : (x.releaseMeets).deferred = x.deferred := rfl
@[simp] theorem Task.releaseMeets_deferredCopies (x : Task) : (x.releaseMeets).deferredCopies = x.deferredCopies := rfl
@[simp] theorem Task.releaseMeets_replayCap (x : Task) : (x.releaseMeets).replayCap = x.replayCap := rfl
@[simp] theorem Task.releaseMeets_halted (x : Task) : (x.releaseMeets).halted = x.halted := rfl
@[simp] theorem Task.releaseMeets_suspended (x : Task) : (x.releaseMeets).suspended = x.suspended := rfl
@[simp] theorem Task.releaseMeets_escalated (x : Task) : (x.releaseMeets).escalated = x.escalated := rfl
@[simp] theorem Task.releaseMeets_werr (x : Task) : (x.releaseMeets).werr = x.werr := rfl
@[simp] theorem Task.releaseMeets_saving (x : Task) : (x.releaseMeets).saving = x.saving := rfl
@[simp] theorem Task.releaseMeets_suspUs (x : Task) : (x.releaseMeets).suspUs = x.suspUs := rfl
@[simp] theorem Task.releaseMeets_paused (x : Task) : (x.releaseMeets).paused = x.paused := rfl
@[simp] theorem Task.releaseMeets_stop (x : Task) : (x.releaseMeets).stop = x.stop := rfl
@[simp] theorem Task.releaseMeets_pendingReplays (x : Task) : (x.releaseMeets).pendingReplays = x.pendingReplays := rfl
@[simp] theorem Task.releaseMeets_saved (x : Task) : (x.releaseMeets).saved = x.saved := rfl
@[simp] theorem Task.releaseMeets_lastSelect (x : Task) : (x.releaseMeets).lastSelect = x.lastSelect := rfl
@[simp] theorem Task.leaveSets_id (x : Task) (m : Mask) : (x.leaveSets m).id = x.id := by unfold Task.leaveSets; simp only []; split <;> rfl
@[simp] theorem Task.leaveSets_vf (x : Task) (m : Mask) : (x.leaveSets m).vf = x.vf := by unfold Task.leaveSets; simp only []; split <;> rfl
@[simp] theorem Task.leaveSets_asid (x : Task) (m : Mask) : (x.leaveSets m).asid = x.asid := by unfold Task.leaveSets; simp only []; split <;> rfl
@[simp] theorem Task.leaveSets_prin (x : Task) (m : Mask) : (x.leaveSets m).prin = x.prin := by unfold Task.leaveSets; simp only []; split <;> rfl
@[simp] theorem Task.leaveSets_kernel (x : Task) (m : Mask) : (x.leaveSets m).kernel = x.kernel := by unfold Task.leaveSets; simp only []; split <;> rfl
@[simp] theorem Task.leaveSets_parent (x : Task) (m : Mask) : (x.leaveSets m).parent = x.parent := by unfold Task.leaveSets; simp only []; split <;> rfl
@[simp] theorem Task.leaveSets_root (x : Task) (m : Mask) : (x.leaveSets m).root = x.root := by unfold Task.leaveSets; simp only []; split <;> rfl
@[simp] theorem Task.leaveSets_handle (x : Task) (m : Mask) : (x.leaveSets m).handle = x.handle := by unfold Task.leaveSets; simp only []; split <;> rfl
@[simp] theorem Task.leaveSets_ordinal (x : Task) (m : Mask) : (x.leaveSets m).ordinal = x.ordinal := by unfold Task.leaveSets; simp only []; split <;> rfl
@[simp] theorem Task.leaveSets_det (x : Task) (m : Mask) : (x.leaveSets m).det = x.det := by unfold Task.leaveSets; simp only []; split <;> rfl
@[simp] theorem Task.leaveSets_launch (x : Task) (m : Mask) : (x.leaveSets m).launch = x.launch := by unfold Task.leaveSets; simp only []; split <;> rfl
@[simp] theorem Task.leaveSets_handlerFor (x : Task) (m : Mask) : (x.leaveSets m).handlerFor = x.handlerFor := by unfold Task.leaveSets; simp only []; split <;> rfl
@[simp] theorem Task.leaveSets_viaSpawnx (x : Task) (m : Mask) : (x.leaveSets m).viaSpawnx = x.viaSpawnx := by unfold Task.leaveSets; simp only []; split <;> rfl
@[simp] theorem Task.leaveSets_place (x : Task) (m : Mask) : (x.leaveSets m).place = x.place := by unfold Task.leaveSets; simp only []; split <;> rfl
@[simp] theorem Task.leaveSets_arrival (x : Task) (m : Mask) : (x.leaveSets m).arrival = x.arrival := by unfold Task.leaveSets; simp only []; split <;> rfl
@[simp] theorem Task.leaveSets_everPlaced (x : Task) (m : Mask) : (x.leaveSets m).everPlaced = x.everPlaced := by unfold Task.leaveSets; simp only []; split <;> rfl
@[simp] theorem Task.leaveSets_lcores (x : Task) (m : Mask) : (x.leaveSets m).lcores = x.lcores := by unfold Task.leaveSets; simp only []; split <;> rfl
@[simp] theorem Task.leaveSets_alw (x : Task) (m : Mask) : (x.leaveSets m).alw = x.alw := by unfold Task.leaveSets; simp only []; split <;> rfl
@[simp] theorem Task.leaveSets_held (x : Task) (m : Mask) : (x.leaveSets m).held = x.held := by unfold Task.leaveSets; simp only []; split <;> rfl
@[simp] theorem Task.leaveSets_fpctl (x : Task) (m : Mask) : (x.leaveSets m).fpctl = x.fpctl := by unfold Task.leaveSets; simp only []; split <;> rfl
@[simp] theorem Task.leaveSets_sealcnt (x : Task) (m : Mask) : (x.leaveSets m).sealcnt = x.sealcnt := by unfold Task.leaveSets; simp only []; split <;> rfl
@[simp] theorem Task.leaveSets_zerochk (x : Task) (m : Mask) : (x.leaveSets m).zerochk = x.zerochk := by unfold Task.leaveSets; simp only []; split <;> rfl
@[simp] theorem Task.leaveSets_exmode (x : Task) (m : Mask) : (x.leaveSets m).exmode = x.exmode := by unfold Task.leaveSets; simp only []; split <;> rfl
@[simp] theorem Task.leaveSets_ownExm (x : Task) (m : Mask) : (x.leaveSets m).ownExm = x.ownExm := by unfold Task.leaveSets; simp only []; split <;> rfl
@[simp] theorem Task.leaveSets_quant (x : Task) (m : Mask) : (x.leaveSets m).quant = x.quant := by unfold Task.leaveSets; simp only []; split <;> rfl
@[simp] theorem Task.leaveSets_bbc (x : Task) (m : Mask) : (x.leaveSets m).bbc = x.bbc := by unfold Task.leaveSets; simp only []; split <;> rfl
@[simp] theorem Task.leaveSets_childCtr (x : Task) (m : Mask) : (x.leaveSets m).childCtr = x.childCtr := by unfold Task.leaveSets; simp only []; split <;> rfl
@[simp] theorem Task.leaveSets_childGen (x : Task) (m : Mask) : (x.leaveSets m).childGen = x.childGen := by unfold Task.leaveSets; simp only []; split <;> rfl
@[simp] theorem Task.leaveSets_prio (x : Task) (m : Mask) : (x.leaveSets m).prio = x.prio := by unfold Task.leaveSets; simp only []; split <;> rfl
@[simp] theorem Task.leaveSets_ceil (x : Task) (m : Mask) : (x.leaveSets m).ceil = x.ceil := by unfold Task.leaveSets; simp only []; split <;> rfl
@[simp] theorem Task.leaveSets_plies (x : Task) (m : Mask) : (x.leaveSets m).plies = x.plies := by unfold Task.leaveSets; simp only []; split <;> rfl
@[simp] theorem Task.leaveSets_pbase (x : Task) (m : Mask) : (x.leaveSets m).pbase = x.pbase := by unfold Task.leaveSets; simp only []; split <;> rfl
@[simp] theorem Task.leaveSets_privWritten (x : Task) (m : Mask) : (x.leaveSets m).privWritten = x.privWritten := by unfold Task.leaveSets; simp only []; split <;> rfl
@[simp] theorem Task.leaveSets_unfenced (x : Task) (m : Mask) : (x.leaveSets m).unfenced = x.unfenced := by unfold Task.leaveSets; simp only []; split <;> rfl
@[simp] theorem Task.leaveSets_after (x : Task) (m : Mask) : (x.leaveSets m).after = x.after := by unfold Task.leaveSets; simp only []; split <;> rfl
@[simp] theorem Task.leaveSets_relMark (x : Task) (m : Mask) : (x.leaveSets m).relMark = x.relMark := by unfold Task.leaveSets; simp only []; split <;> rfl
@[simp] theorem Task.leaveSets_carried (x : Task) (m : Mask) : (x.leaveSets m).carried = x.carried := by unfold Task.leaveSets; simp only []; split <;> rfl
@[simp] theorem Task.leaveSets_lanes (x : Task) (m : Mask) : (x.leaveSets m).lanes = x.lanes := by unfold Task.leaveSets; simp only []; split <;> rfl
@[simp] theorem Task.leaveSets_sregs (x : Task) (m : Mask) : (x.leaveSets m).sregs = x.sregs := by unfold Task.leaveSets; simp only []; split <;> rfl
@[simp] theorem Task.leaveSets_vregs (x : Task) (m : Mask) : (x.leaveSets m).vregs = x.vregs := by unfold Task.leaveSets; simp only []; split <;> rfl
@[simp] theorem Task.leaveSets_preds (x : Task) (m : Mask) : (x.leaveSets m).preds = x.preds := by unfold Task.leaveSets; simp only []; split <;> rfl
@[simp] theorem Task.leaveSets_outs (x : Task) (m : Mask) : (x.leaveSets m).outs = x.outs := by unfold Task.leaveSets; simp only []; split <;> rfl
@[simp] theorem Task.leaveSets_sfOps (x : Task) (m : Mask) : (x.leaveSets m).sfOps = x.sfOps := by unfold Task.leaveSets; simp only []; split <;> rfl
@[simp] theorem Task.leaveSets_waits (x : Task) (m : Mask) : (x.leaveSets m).waits = x.waits := by unfold Task.leaveSets; simp only []; split <;> rfl
@[simp] theorem Task.leaveSets_children (x : Task) (m : Mask) : (x.leaveSets m).children = x.children := by unfold Task.leaveSets; simp only []; split <;> rfl
@[simp] theorem Task.leaveSets_dseq (x : Task) (m : Mask) : (x.leaveSets m).dseq = x.dseq := by unfold Task.leaveSets; simp only []; split <;> rfl
@[simp] theorem Task.leaveSets_dentries (x : Task) (m : Mask) : (x.leaveSets m).dentries = x.dentries := by unfold Task.leaveSets; simp only []; split <;> rfl
@[simp] theorem Task.leaveSets_mxRecs (x : Task) (m : Mask) : (x.leaveSets m).mxRecs = x.mxRecs := by unfold Task.leaveSets; simp only []; split <;> rfl
@[simp] theorem Task.leaveSets_fault (x : Task) (m : Mask) : (x.leaveSets m).fault = x.fault := by unfold Task.leaveSets; simp only []; split <;> rfl
@[simp] theorem Task.leaveSets_fetchFault (x : Task) (m : Mask) : (x.leaveSets m).fetchFault = x.fetchFault := by unfold Task.leaveSets; simp only []; split <;> rfl
@[simp] theorem Task.leaveSets_notice (x : Task) (m : Mask) : (x.leaveSets m).notice = x.notice := by unfold Task.leaveSets; simp only []; split <;> rfl
@[simp] theorem Task.leaveSets_trapRec (x : Task) (m : Mask) : (x.leaveSets m).trapRec = x.trapRec := by unfold Task.leaveSets; simp only []; split <;> rfl
@[simp] theorem Task.leaveSets_deferred (x : Task) (m : Mask) : (x.leaveSets m).deferred = x.deferred := by unfold Task.leaveSets; simp only []; split <;> rfl
@[simp] theorem Task.leaveSets_deferredCopies (x : Task) (m : Mask) : (x.leaveSets m).deferredCopies = x.deferredCopies := by unfold Task.leaveSets; simp only []; split <;> rfl
@[simp] theorem Task.leaveSets_replayCap (x : Task) (m : Mask) : (x.leaveSets m).replayCap = x.replayCap := by unfold Task.leaveSets; simp only []; split <;> rfl
@[simp] theorem Task.leaveSets_halted (x : Task) (m : Mask) : (x.leaveSets m).halted = x.halted := by unfold Task.leaveSets; simp only []; split <;> rfl
@[simp] theorem Task.leaveSets_suspended (x : Task) (m : Mask) : (x.leaveSets m).suspended = x.suspended := by unfold Task.leaveSets; simp only []; split <;> rfl
@[simp] theorem Task.leaveSets_escalated (x : Task) (m : Mask) : (x.leaveSets m).escalated = x.escalated := by unfold Task.leaveSets; simp only []; split <;> rfl
@[simp] theorem Task.leaveSets_werr (x : Task) (m : Mask) : (x.leaveSets m).werr = x.werr := by unfold Task.leaveSets; simp only []; split <;> rfl
@[simp] theorem Task.leaveSets_saving (x : Task) (m : Mask) : (x.leaveSets m).saving = x.saving := by unfold Task.leaveSets; simp only []; split <;> rfl
@[simp] theorem Task.leaveSets_suspUs (x : Task) (m : Mask) : (x.leaveSets m).suspUs = x.suspUs := by unfold Task.leaveSets; simp only []; split <;> rfl
@[simp] theorem Task.leaveSets_paused (x : Task) (m : Mask) : (x.leaveSets m).paused = x.paused := by unfold Task.leaveSets; simp only []; split <;> rfl
@[simp] theorem Task.leaveSets_stop (x : Task) (m : Mask) : (x.leaveSets m).stop = x.stop := by unfold Task.leaveSets; simp only []; split <;> rfl
@[simp] theorem Task.leaveSets_pendingReplays (x : Task) (m : Mask) : (x.leaveSets m).pendingReplays = x.pendingReplays := by unfold Task.leaveSets; simp only []; split <;> rfl
@[simp] theorem Task.leaveSets_saved (x : Task) (m : Mask) : (x.leaveSets m).saved = x.saved := by unfold Task.leaveSets; simp only []; split <;> rfl
@[simp] theorem Task.leaveSets_lastSelect (x : Task) (m : Mask) : (x.leaveSets m).lastSelect = x.lastSelect := by unfold Task.leaveSets; simp only []; split <;> rfl
@[simp] theorem Task.settleLanes_id (x : Task) (m : Mask) : (x.settleLanes m).id = x.id := by simp [Task.settleLanes]
@[simp] theorem Task.settleLanes_vf (x : Task) (m : Mask) : (x.settleLanes m).vf = x.vf := by simp [Task.settleLanes]
@[simp] theorem Task.settleLanes_asid (x : Task) (m : Mask) : (x.settleLanes m).asid = x.asid := by simp [Task.settleLanes]
@[simp] theorem Task.settleLanes_prin (x : Task) (m : Mask) : (x.settleLanes m).prin = x.prin := by simp [Task.settleLanes]
@[simp] theorem Task.settleLanes_kernel (x : Task) (m : Mask) : (x.settleLanes m).kernel = x.kernel := by simp [Task.settleLanes]
@[simp] theorem Task.settleLanes_parent (x : Task) (m : Mask) : (x.settleLanes m).parent = x.parent := by simp [Task.settleLanes]
@[simp] theorem Task.settleLanes_root (x : Task) (m : Mask) : (x.settleLanes m).root = x.root := by simp [Task.settleLanes]
@[simp] theorem Task.settleLanes_handle (x : Task) (m : Mask) : (x.settleLanes m).handle = x.handle := by simp [Task.settleLanes]
@[simp] theorem Task.settleLanes_ordinal (x : Task) (m : Mask) : (x.settleLanes m).ordinal = x.ordinal := by simp [Task.settleLanes]
@[simp] theorem Task.settleLanes_det (x : Task) (m : Mask) : (x.settleLanes m).det = x.det := by simp [Task.settleLanes]
@[simp] theorem Task.settleLanes_launch (x : Task) (m : Mask) : (x.settleLanes m).launch = x.launch := by simp [Task.settleLanes]
@[simp] theorem Task.settleLanes_handlerFor (x : Task) (m : Mask) : (x.settleLanes m).handlerFor = x.handlerFor := by simp [Task.settleLanes]
@[simp] theorem Task.settleLanes_viaSpawnx (x : Task) (m : Mask) : (x.settleLanes m).viaSpawnx = x.viaSpawnx := by simp [Task.settleLanes]
@[simp] theorem Task.settleLanes_place (x : Task) (m : Mask) : (x.settleLanes m).place = x.place := by simp [Task.settleLanes]
@[simp] theorem Task.settleLanes_arrival (x : Task) (m : Mask) : (x.settleLanes m).arrival = x.arrival := by simp [Task.settleLanes]
@[simp] theorem Task.settleLanes_everPlaced (x : Task) (m : Mask) : (x.settleLanes m).everPlaced = x.everPlaced := by simp [Task.settleLanes]
@[simp] theorem Task.settleLanes_lcores (x : Task) (m : Mask) : (x.settleLanes m).lcores = x.lcores := by simp [Task.settleLanes]
@[simp] theorem Task.settleLanes_alw (x : Task) (m : Mask) : (x.settleLanes m).alw = x.alw := by simp [Task.settleLanes]
@[simp] theorem Task.settleLanes_held (x : Task) (m : Mask) : (x.settleLanes m).held = x.held := by simp [Task.settleLanes]
@[simp] theorem Task.settleLanes_fpctl (x : Task) (m : Mask) : (x.settleLanes m).fpctl = x.fpctl := by simp [Task.settleLanes]
@[simp] theorem Task.settleLanes_sealcnt (x : Task) (m : Mask) : (x.settleLanes m).sealcnt = x.sealcnt := by simp [Task.settleLanes]
@[simp] theorem Task.settleLanes_zerochk (x : Task) (m : Mask) : (x.settleLanes m).zerochk = x.zerochk := by simp [Task.settleLanes]
@[simp] theorem Task.settleLanes_exmode (x : Task) (m : Mask) : (x.settleLanes m).exmode = x.exmode := by simp [Task.settleLanes]
@[simp] theorem Task.settleLanes_ownExm (x : Task) (m : Mask) : (x.settleLanes m).ownExm = x.ownExm := by simp [Task.settleLanes]
@[simp] theorem Task.settleLanes_quant (x : Task) (m : Mask) : (x.settleLanes m).quant = x.quant := by simp [Task.settleLanes]
@[simp] theorem Task.settleLanes_bbc (x : Task) (m : Mask) : (x.settleLanes m).bbc = x.bbc := by simp [Task.settleLanes]
@[simp] theorem Task.settleLanes_childCtr (x : Task) (m : Mask) : (x.settleLanes m).childCtr = x.childCtr := by simp [Task.settleLanes]
@[simp] theorem Task.settleLanes_childGen (x : Task) (m : Mask) : (x.settleLanes m).childGen = x.childGen := by simp [Task.settleLanes]
@[simp] theorem Task.settleLanes_prio (x : Task) (m : Mask) : (x.settleLanes m).prio = x.prio := by simp [Task.settleLanes]
@[simp] theorem Task.settleLanes_ceil (x : Task) (m : Mask) : (x.settleLanes m).ceil = x.ceil := by simp [Task.settleLanes]
@[simp] theorem Task.settleLanes_plies (x : Task) (m : Mask) : (x.settleLanes m).plies = x.plies := by simp [Task.settleLanes]
@[simp] theorem Task.settleLanes_pbase (x : Task) (m : Mask) : (x.settleLanes m).pbase = x.pbase := by simp [Task.settleLanes]
@[simp] theorem Task.settleLanes_privWritten (x : Task) (m : Mask) : (x.settleLanes m).privWritten = x.privWritten := by simp [Task.settleLanes]
@[simp] theorem Task.settleLanes_unfenced (x : Task) (m : Mask) : (x.settleLanes m).unfenced = x.unfenced := by simp [Task.settleLanes]
@[simp] theorem Task.settleLanes_after (x : Task) (m : Mask) : (x.settleLanes m).after = x.after := by simp [Task.settleLanes]
@[simp] theorem Task.settleLanes_relMark (x : Task) (m : Mask) : (x.settleLanes m).relMark = x.relMark := by simp [Task.settleLanes]
@[simp] theorem Task.settleLanes_carried (x : Task) (m : Mask) : (x.settleLanes m).carried = x.carried := by simp [Task.settleLanes]
@[simp] theorem Task.settleLanes_sregs (x : Task) (m : Mask) : (x.settleLanes m).sregs = x.sregs := by simp [Task.settleLanes]
@[simp] theorem Task.settleLanes_vregs (x : Task) (m : Mask) : (x.settleLanes m).vregs = x.vregs := by simp [Task.settleLanes]
@[simp] theorem Task.settleLanes_preds (x : Task) (m : Mask) : (x.settleLanes m).preds = x.preds := by simp [Task.settleLanes]
@[simp] theorem Task.settleLanes_outs (x : Task) (m : Mask) : (x.settleLanes m).outs = x.outs := by simp [Task.settleLanes]
@[simp] theorem Task.settleLanes_sfOps (x : Task) (m : Mask) : (x.settleLanes m).sfOps = x.sfOps := by simp [Task.settleLanes]
@[simp] theorem Task.settleLanes_waits (x : Task) (m : Mask) : (x.settleLanes m).waits = x.waits := by simp [Task.settleLanes]
@[simp] theorem Task.settleLanes_children (x : Task) (m : Mask) : (x.settleLanes m).children = x.children := by simp [Task.settleLanes]
@[simp] theorem Task.settleLanes_dseq (x : Task) (m : Mask) : (x.settleLanes m).dseq = x.dseq := by simp [Task.settleLanes]
@[simp] theorem Task.settleLanes_dentries (x : Task) (m : Mask) : (x.settleLanes m).dentries = x.dentries := by simp [Task.settleLanes]
@[simp] theorem Task.settleLanes_mxRecs (x : Task) (m : Mask) : (x.settleLanes m).mxRecs = x.mxRecs := by simp [Task.settleLanes]
@[simp] theorem Task.settleLanes_fault (x : Task) (m : Mask) : (x.settleLanes m).fault = x.fault := by simp [Task.settleLanes]
@[simp] theorem Task.settleLanes_fetchFault (x : Task) (m : Mask) : (x.settleLanes m).fetchFault = x.fetchFault := by simp [Task.settleLanes]
@[simp] theorem Task.settleLanes_notice (x : Task) (m : Mask) : (x.settleLanes m).notice = x.notice := by simp [Task.settleLanes]
@[simp] theorem Task.settleLanes_trapRec (x : Task) (m : Mask) : (x.settleLanes m).trapRec = x.trapRec := by simp [Task.settleLanes]
@[simp] theorem Task.settleLanes_deferred (x : Task) (m : Mask) : (x.settleLanes m).deferred = x.deferred := by simp [Task.settleLanes]
@[simp] theorem Task.settleLanes_deferredCopies (x : Task) (m : Mask) : (x.settleLanes m).deferredCopies = x.deferredCopies := by simp [Task.settleLanes]
@[simp] theorem Task.settleLanes_replayCap (x : Task) (m : Mask) : (x.settleLanes m).replayCap = x.replayCap := by simp [Task.settleLanes]
@[simp] theorem Task.settleLanes_halted (x : Task) (m : Mask) : (x.settleLanes m).halted = x.halted := by simp [Task.settleLanes]
@[simp] theorem Task.settleLanes_suspended (x : Task) (m : Mask) : (x.settleLanes m).suspended = x.suspended := by simp [Task.settleLanes]
@[simp] theorem Task.settleLanes_escalated (x : Task) (m : Mask) : (x.settleLanes m).escalated = x.escalated := by simp [Task.settleLanes]
@[simp] theorem Task.settleLanes_werr (x : Task) (m : Mask) : (x.settleLanes m).werr = x.werr := by simp [Task.settleLanes]
@[simp] theorem Task.settleLanes_saving (x : Task) (m : Mask) : (x.settleLanes m).saving = x.saving := by simp [Task.settleLanes]
@[simp] theorem Task.settleLanes_suspUs (x : Task) (m : Mask) : (x.settleLanes m).suspUs = x.suspUs := by simp [Task.settleLanes]
@[simp] theorem Task.settleLanes_paused (x : Task) (m : Mask) : (x.settleLanes m).paused = x.paused := by simp [Task.settleLanes]
@[simp] theorem Task.settleLanes_stop (x : Task) (m : Mask) : (x.settleLanes m).stop = x.stop := by simp [Task.settleLanes]
@[simp] theorem Task.settleLanes_pendingReplays (x : Task) (m : Mask) : (x.settleLanes m).pendingReplays = x.pendingReplays := by simp [Task.settleLanes]
@[simp] theorem Task.settleLanes_saved (x : Task) (m : Mask) : (x.settleLanes m).saved = x.saved := by simp [Task.settleLanes]
@[simp] theorem Task.settleLanes_lastSelect (x : Task) (m : Mask) : (x.settleLanes m).lastSelect = x.lastSelect := by simp [Task.settleLanes]
@[simp] theorem Task.hold_id (x : Task) (w : Wait) (p : Park) : (x.hold w p).id = x.id := rfl
@[simp] theorem Task.hold_vf (x : Task) (w : Wait) (p : Park) : (x.hold w p).vf = x.vf := rfl
@[simp] theorem Task.hold_asid (x : Task) (w : Wait) (p : Park) : (x.hold w p).asid = x.asid := rfl
@[simp] theorem Task.hold_prin (x : Task) (w : Wait) (p : Park) : (x.hold w p).prin = x.prin := rfl
@[simp] theorem Task.hold_kernel (x : Task) (w : Wait) (p : Park) : (x.hold w p).kernel = x.kernel := rfl
@[simp] theorem Task.hold_parent (x : Task) (w : Wait) (p : Park) : (x.hold w p).parent = x.parent := rfl
@[simp] theorem Task.hold_root (x : Task) (w : Wait) (p : Park) : (x.hold w p).root = x.root := rfl
@[simp] theorem Task.hold_handle (x : Task) (w : Wait) (p : Park) : (x.hold w p).handle = x.handle := rfl
@[simp] theorem Task.hold_ordinal (x : Task) (w : Wait) (p : Park) : (x.hold w p).ordinal = x.ordinal := rfl
@[simp] theorem Task.hold_det (x : Task) (w : Wait) (p : Park) : (x.hold w p).det = x.det := rfl
@[simp] theorem Task.hold_launch (x : Task) (w : Wait) (p : Park) : (x.hold w p).launch = x.launch := rfl
@[simp] theorem Task.hold_handlerFor (x : Task) (w : Wait) (p : Park) : (x.hold w p).handlerFor = x.handlerFor := rfl
@[simp] theorem Task.hold_viaSpawnx (x : Task) (w : Wait) (p : Park) : (x.hold w p).viaSpawnx = x.viaSpawnx := rfl
@[simp] theorem Task.hold_place (x : Task) (w : Wait) (p : Park) : (x.hold w p).place = x.place := rfl
@[simp] theorem Task.hold_arrival (x : Task) (w : Wait) (p : Park) : (x.hold w p).arrival = x.arrival := rfl
@[simp] theorem Task.hold_everPlaced (x : Task) (w : Wait) (p : Park) : (x.hold w p).everPlaced = x.everPlaced := rfl
@[simp] theorem Task.hold_lcores (x : Task) (w : Wait) (p : Park) : (x.hold w p).lcores = x.lcores := rfl
@[simp] theorem Task.hold_alw (x : Task) (w : Wait) (p : Park) : (x.hold w p).alw = x.alw := rfl
@[simp] theorem Task.hold_held (x : Task) (w : Wait) (p : Park) : (x.hold w p).held = x.held := rfl
@[simp] theorem Task.hold_fpctl (x : Task) (w : Wait) (p : Park) : (x.hold w p).fpctl = x.fpctl := rfl
@[simp] theorem Task.hold_sealcnt (x : Task) (w : Wait) (p : Park) : (x.hold w p).sealcnt = x.sealcnt := rfl
@[simp] theorem Task.hold_zerochk (x : Task) (w : Wait) (p : Park) : (x.hold w p).zerochk = x.zerochk := rfl
@[simp] theorem Task.hold_exmode (x : Task) (w : Wait) (p : Park) : (x.hold w p).exmode = x.exmode := rfl
@[simp] theorem Task.hold_ownExm (x : Task) (w : Wait) (p : Park) : (x.hold w p).ownExm = x.ownExm := rfl
@[simp] theorem Task.hold_dset (x : Task) (w : Wait) (p : Park) : (x.hold w p).dset = x.dset := rfl
@[simp] theorem Task.hold_oset (x : Task) (w : Wait) (p : Park) : (x.hold w p).oset = x.oset := rfl
@[simp] theorem Task.hold_quant (x : Task) (w : Wait) (p : Park) : (x.hold w p).quant = x.quant := rfl
@[simp] theorem Task.hold_bbc (x : Task) (w : Wait) (p : Park) : (x.hold w p).bbc = x.bbc := rfl
@[simp] theorem Task.hold_childCtr (x : Task) (w : Wait) (p : Park) : (x.hold w p).childCtr = x.childCtr := rfl
@[simp] theorem Task.hold_childGen (x : Task) (w : Wait) (p : Park) : (x.hold w p).childGen = x.childGen := rfl
@[simp] theorem Task.hold_prio (x : Task) (w : Wait) (p : Park) : (x.hold w p).prio = x.prio := rfl
@[simp] theorem Task.hold_ceil (x : Task) (w : Wait) (p : Park) : (x.hold w p).ceil = x.ceil := rfl
@[simp] theorem Task.hold_plies (x : Task) (w : Wait) (p : Park) : (x.hold w p).plies = x.plies := rfl
@[simp] theorem Task.hold_pbase (x : Task) (w : Wait) (p : Park) : (x.hold w p).pbase = x.pbase := rfl
@[simp] theorem Task.hold_privWritten (x : Task) (w : Wait) (p : Park) : (x.hold w p).privWritten = x.privWritten := rfl
@[simp] theorem Task.hold_unfenced (x : Task) (w : Wait) (p : Park) : (x.hold w p).unfenced = x.unfenced := rfl
@[simp] theorem Task.hold_after (x : Task) (w : Wait) (p : Park) : (x.hold w p).after = x.after := rfl
@[simp] theorem Task.hold_relMark (x : Task) (w : Wait) (p : Park) : (x.hold w p).relMark = x.relMark := rfl
@[simp] theorem Task.hold_carried (x : Task) (w : Wait) (p : Park) : (x.hold w p).carried = x.carried := rfl
@[simp] theorem Task.hold_sregs (x : Task) (w : Wait) (p : Park) : (x.hold w p).sregs = x.sregs := rfl
@[simp] theorem Task.hold_vregs (x : Task) (w : Wait) (p : Park) : (x.hold w p).vregs = x.vregs := rfl
@[simp] theorem Task.hold_preds (x : Task) (w : Wait) (p : Park) : (x.hold w p).preds = x.preds := rfl
@[simp] theorem Task.hold_outs (x : Task) (w : Wait) (p : Park) : (x.hold w p).outs = x.outs := rfl
@[simp] theorem Task.hold_sfOps (x : Task) (w : Wait) (p : Park) : (x.hold w p).sfOps = x.sfOps := rfl
@[simp] theorem Task.hold_children (x : Task) (w : Wait) (p : Park) : (x.hold w p).children = x.children := rfl
@[simp] theorem Task.hold_dseq (x : Task) (w : Wait) (p : Park) : (x.hold w p).dseq = x.dseq := rfl
@[simp] theorem Task.hold_dentries (x : Task) (w : Wait) (p : Park) : (x.hold w p).dentries = x.dentries := rfl
@[simp] theorem Task.hold_mxRecs (x : Task) (w : Wait) (p : Park) : (x.hold w p).mxRecs = x.mxRecs := rfl
@[simp] theorem Task.hold_fault (x : Task) (w : Wait) (p : Park) : (x.hold w p).fault = x.fault := rfl
@[simp] theorem Task.hold_fetchFault (x : Task) (w : Wait) (p : Park) : (x.hold w p).fetchFault = x.fetchFault := rfl
@[simp] theorem Task.hold_notice (x : Task) (w : Wait) (p : Park) : (x.hold w p).notice = x.notice := rfl
@[simp] theorem Task.hold_trapRec (x : Task) (w : Wait) (p : Park) : (x.hold w p).trapRec = x.trapRec := rfl
@[simp] theorem Task.hold_deferred (x : Task) (w : Wait) (p : Park) : (x.hold w p).deferred = x.deferred := rfl
@[simp] theorem Task.hold_deferredCopies (x : Task) (w : Wait) (p : Park) : (x.hold w p).deferredCopies = x.deferredCopies := rfl
@[simp] theorem Task.hold_replayCap (x : Task) (w : Wait) (p : Park) : (x.hold w p).replayCap = x.replayCap := rfl
@[simp] theorem Task.hold_halted (x : Task) (w : Wait) (p : Park) : (x.hold w p).halted = x.halted := rfl
@[simp] theorem Task.hold_suspended (x : Task) (w : Wait) (p : Park) : (x.hold w p).suspended = x.suspended := rfl
@[simp] theorem Task.hold_escalated (x : Task) (w : Wait) (p : Park) : (x.hold w p).escalated = x.escalated := rfl
@[simp] theorem Task.hold_werr (x : Task) (w : Wait) (p : Park) : (x.hold w p).werr = x.werr := rfl
@[simp] theorem Task.hold_saving (x : Task) (w : Wait) (p : Park) : (x.hold w p).saving = x.saving := rfl
@[simp] theorem Task.hold_suspUs (x : Task) (w : Wait) (p : Park) : (x.hold w p).suspUs = x.suspUs := rfl
@[simp] theorem Task.hold_paused (x : Task) (w : Wait) (p : Park) : (x.hold w p).paused = x.paused := rfl
@[simp] theorem Task.hold_stop (x : Task) (w : Wait) (p : Park) : (x.hold w p).stop = x.stop := rfl
@[simp] theorem Task.hold_pendingReplays (x : Task) (w : Wait) (p : Park) : (x.hold w p).pendingReplays = x.pendingReplays := rfl
@[simp] theorem Task.hold_saved (x : Task) (w : Wait) (p : Park) : (x.hold w p).saved = x.saved := rfl
@[simp] theorem Task.hold_lastSelect (x : Task) (w : Wait) (p : Park) : (x.hold w p).lastSelect = x.lastSelect := rfl

end Sys2Proof.Machine
end

