-- ==== Sys2Proof/Laws/Store.lean ====
section
/-! SUPPORT. Tables: what a read gives after a write, and that every write keeps the canonical form. -/

namespace Sys2Proof.Machine

variable {n : Nat}

@[simp] theorem Store.get_nil (k : Nat) : Store.get ([] : Store n) k = 0 := rfl

theorem Store.get_insert (m : Store n) (k : Nat) (x : BitVec n) (j : Nat) (h : ∀ e ∈ m, e.1 ≠ k) :
    (m.insert k x).get j = if j = k then x else m.get j := by
  induction m with
  | nil => simp [Store.insert, Store.get]
  | cons e r ih =>
    obtain ⟨k', x'⟩ := e
    have hk : k' ≠ k := h (k', x') (by simp)
    have ih' := ih fun e he => h e (by simp [he])
    by_cases hlt : k < k'
    · simp [Store.insert, Store.get, hlt]
    · by_cases hj : j = k'
      · subst hj; simp [Store.insert, Store.get, hlt, hk]
      · simp [Store.insert, Store.get, hlt, hj, ih']

theorem Store.get_filter (m : Store n) (k j : Nat) :
    Store.get (m.filter fun e => e.1 != k) j = if j = k then 0 else m.get j := by
  induction m with
  | nil => simp [Store.get]
  | cons e r ih =>
    obtain ⟨k', x'⟩ := e
    by_cases hk : k' = k
    · subst hk
      by_cases hj : j = k' <;> simp_all [Store.get]
    · by_cases hj : j = k'
      · subst hj; simp [Store.get, hk]
      · simp_all [Store.get]

/-- A read after a write. -/
theorem Store.get_set (m : Store n) (k : Nat) (x : BitVec n) (j : Nat) :
    (m.set k x).get j = if j = k then x else m.get j := by
  unfold Store.set
  by_cases hx : x = 0
  · subst hx; simp [Store.get_filter]
  · rw [if_neg hx, Store.get_insert _ _ _ _ (by simp), Store.get_filter]
    by_cases hj : j = k <;> simp [hj]

@[simp] theorem Store.get_set_self (m : Store n) (k : Nat) (x : BitVec n) : (m.set k x).get k = x := by simp [Store.get_set]

theorem Store.get_set_ne (m : Store n) {k j : Nat} (x : BitVec n) (h : j ≠ k) : (m.set k x).get j = m.get j := by
  simp [Store.get_set, h]

/-! ### The canonical form -/

/-- The canonical form as two facts about the entries. -/
theorem Store.wf_iff (m : Store n) : m.wf = true ↔ (∀ e ∈ m, e.2 ≠ 0) ∧ m.Pairwise fun a b => a.1 < b.1 := by
  induction m with
  | nil => simp [Store.wf]
  | cons e r ih =>
    obtain ⟨k, x⟩ := e
    cases r with
    | nil => simp [Store.wf]
    | cons e' r' =>
      obtain ⟨k', x'⟩ := e'
      simp only [Store.wf, Bool.and_eq_true, bne_iff_ne, ih, List.mem_cons, List.pairwise_cons, Nat.blt_eq]
      constructor
      · rintro ⟨⟨hx, hk⟩, hne, hp, hq⟩
        refine ⟨?_, ?_, hp, hq⟩
        · rintro e (rfl | h)
          · exact hx
          · exact hne e h
        · rintro e (rfl | h)
          · exact hk
          · exact lt_trans hk (hp e h)
      · rintro ⟨hne, hlt, hp, hq⟩
        exact ⟨⟨hne (k, x) (.inl rfl), hlt (k', x') (.inl rfl)⟩, fun e h => hne e (.inr h), hp, hq⟩

theorem Store.mem_insert (m : Store n) (k : Nat) (x : BitVec n) (e : Nat × BitVec n) :
    e ∈ m.insert k x ↔ e = (k, x) ∨ e ∈ m := by
  induction m with
  | nil => simp [Store.insert]
  | cons f r ih =>
    by_cases h : k < f.1
    · simp [Store.insert, h]
    · simp only [Store.insert, h, if_false, List.mem_cons, ih]; tauto

theorem Store.pairwise_insert (m : Store n) (k : Nat) (x : BitVec n) (hk : ∀ e ∈ m, e.1 ≠ k)
    (h : m.Pairwise fun a b => a.1 < b.1) : (m.insert k x).Pairwise fun a b => a.1 < b.1 := by
  induction m with
  | nil => simp [Store.insert]
  | cons f r ih =>
    obtain ⟨h1, h2⟩ := List.pairwise_cons.1 h
    by_cases hf : k < f.1
    · simp only [Store.insert, hf, if_true]
      refine List.pairwise_cons.2 ⟨?_, h⟩
      rintro e he
      rcases List.mem_cons.1 he with rfl | he
      · exact hf
      · exact lt_trans hf (h1 e he)
    · simp only [Store.insert, hf, if_false]
      refine List.pairwise_cons.2 ⟨?_, ih (fun e he => hk e (by simp [he])) h2⟩
      intro e he
      rcases (Store.mem_insert r k x e).1 he with rfl | he
      · exact lt_of_le_of_ne (Nat.le_of_not_lt hf) (hk f (by simp))
      · exact h1 e he

/-- A write keeps the canonical form. -/
theorem Store.set_wf (m : Store n) (k : Nat) (x : BitVec n) (h : m.wf = true) : (m.set k x).wf = true := by
  rw [Store.wf_iff] at h ⊢
  unfold Store.set
  have hf : ∀ e ∈ m.filter (fun e => e.1 != k), e.2 ≠ 0 := fun e he => h.1 e (List.mem_of_mem_filter he)
  have hp := h.2.filter (fun e => e.1 != k)
  by_cases hx : x = 0
  · simpa [hx] using ⟨fun a b hab _ => h.1 (a, b) hab, hp⟩
  · simp only [hx, if_false]
    refine ⟨?_, Store.pairwise_insert _ _ _ (by simp) hp⟩
    intro e he
    rcases (Store.mem_insert _ k x e).1 he with rfl | he
    · exact hx
    · exact hf e he

/-! ### Bytes -/

theorem Store.writeLE_wf (m : Store 8) (a k v : Nat) (h : m.wf = true) : (m.writeLE a k v).wf = true := by
  induction k generalizing m a v with
  | zero => exact h
  | succ k ih => exact ih _ _ _ (Store.set_wf _ _ _ h)

/-- A byte outside the bytes written. -/
theorem Store.get_writeLE_ne (m : Store 8) (a k v j : Nat) (h : j < a ∨ a + k ≤ j) : (m.writeLE a k v).get j = m.get j := by
  induction k generalizing m a v with
  | zero => rfl
  | succ k ih => rw [Store.writeLE, ih _ _ _ (by omega), Store.get_set_ne _ _ (by omega)]

/-- A byte written: byte j of the value. -/
theorem Store.get_writeLE (m : Store 8) (a k v j : Nat) (h : j < k) :
    (m.writeLE a k v).get (a + j) = BitVec.ofNat 8 (v / 256 ^ j) := by
  induction k generalizing m a v j with
  | zero => omega
  | succ k ih =>
    cases j with
    | zero => rw [Store.writeLE, Store.get_writeLE_ne _ _ _ _ _ (by omega)]; simp
    | succ j =>
      rw [Store.writeLE, show a + (j + 1) = a + 1 + j by omega, ih _ _ _ _ (by omega), Nat.div_div_eq_div_mul, pow_succ', mul_comm]

/-- What was written is read back. -/
theorem Store.readLE_writeLE (m : Store 8) (a k v : Nat) : (m.writeLE a k v).readLE a k = v % 256 ^ k := by
  induction k generalizing m a v with
  | zero => simp [Store.readLE, Nat.mod_one]
  | succ k ih =>
    rw [Store.readLE, Store.writeLE, ih, Store.get_writeLE_ne _ _ _ _ _ (by omega), Store.get_set_self, BitVec.toNat_ofNat,
      pow_succ' 256 k, Nat.mod_mul]

end Sys2Proof.Machine
end

