-- ==== Sys2Proof/Laws/Objects.lean ====
section
/-! SUPPORT. The objects of the state by name: what a lookup gives after an update. -/

namespace Sys2Proof.Machine

theorem State.task?_id {s : State} {i : Nat} {t : Task} (h : s.task? i = some t) : t.id = i := by
  simpa using List.find?_some h

/-- A lookup after an update that keeps the task's number. -/
theorem State.task?_updTask (s : State) (i : Nat) (f : Task → Task) (j : Nat) (hf : ∀ t, (f t).id = t.id) :
    (s.updTask i f).task? j = (s.task? j).map fun t => if j = i then f t else t := by
  unfold State.task? State.updTask
  simp only
  induction s.tasks with
  | nil => rfl
  | cons t r ih =>
    have hid : (if t.id = i then f t else t).id = t.id := by split <;> simp [hf]
    simp only [List.map_cons, List.find?_cons, hid, ih]
    by_cases hj : t.id = j
    · subst hj; by_cases hi : t.id = i <;> simp [hi]
    · have : (t.id == j) = false := by simpa using hj
      simp only [this]

theorem State.task?_updTask_self {s : State} {i : Nat} {t : Task} (f : Task → Task) (hf : ∀ t, (f t).id = t.id)
    (h : s.task? i = some t) : (s.updTask i f).task? i = some (f t) := by
  simp [State.task?_updTask _ _ _ _ hf, h]

theorem State.task?_updTask_ne (s : State) (i : Nat) (f : Task → Task) (hf : ∀ t, (f t).id = t.id) {j : Nat} (h : j ≠ i) :
    (s.updTask i f).task? j = s.task? j := by
  simp only [State.task?_updTask _ _ _ _ hf, h, if_false]
  cases s.task? j <;> rfl

/-- Two updates of one task are one. -/
theorem State.updTask_updTask (s : State) (i : Nat) (f g : Task → Task) (hf : ∀ t, (f t).id = t.id) :
    (s.updTask i f).updTask i g = s.updTask i fun t => g (f t) := by
  unfold State.updTask
  simp only [List.map_map, State.mk.injEq, true_and, and_true]
  apply List.map_congr_left
  intro t _
  by_cases h : t.id = i
  · simp [h, hf t]
  · simp [h]

@[simp] theorem State.task?_updCore (s : State) (c : Nat) (f : Core → Core) (j : Nat) : (s.updCore c f).task? j = s.task? j := by
  simp [State.task?]

theorem Core.reset_id (c : Nat) : (Core.reset c).id = c := rfl

/-- A core after an update that keeps its number. -/
theorem State.core_updCore (s : State) (c : Nat) (f : Core → Core) (d : Nat) (hf : ∀ k, (f k).id = k.id) :
    (s.updCore c f).core d = if d = c then f (s.core c) else s.core d := by
  have look : ∀ cs : List Core, (cs.map fun k => if k.id = c then f k else k).find? (fun k => k.id == d) =
      (cs.find? fun k => k.id == d).map fun k => if d = c then f k else k := by
    intro cs
    induction cs with
    | nil => rfl
    | cons k r ih =>
      have hid : (if k.id = c then f k else k).id = k.id := by split <;> simp [hf]
      simp only [List.map_cons, List.find?_cons, hid, ih]
      by_cases hd : k.id = d
      · subst hd; by_cases hc : k.id = c <;> simp [hc]
      · have : (k.id == d) = false := by simpa using hd
        simp only [this]
  unfold State.updCore State.core
  by_cases h : s.cores.any (fun k => k.id == c) = true
  · rw [if_pos h]
    rw [look]
    by_cases hd : d = c
    · subst hd
      obtain ⟨k, hk, hkc⟩ := List.any_eq_true.1 h
      cases hfind : s.cores.find? (fun k => k.id == d) with
      | none => exact absurd hkc (by simpa using List.find?_eq_none.1 hfind k hk)
      | some k => simp
    · simp only [hd, if_false]
      cases s.cores.find? (fun k => k.id == d) <;> rfl
  · rw [if_neg h]
    have hno : s.cores.find? (fun k => k.id == c) = none := by
      rw [List.find?_eq_none]
      intro k hk hkc
      exact h (List.any_eq_true.2 ⟨k, hk, hkc⟩)
    simp only [List.find?_append]
    by_cases hd : d = c
    · subst hd; simp [hno, hf, Core.reset_id]
    · have : ((f (Core.reset c)).id == d) = false := by simp [hf, Core.reset_id]; omega
      simp [hd, this]

@[simp] theorem State.core_updTask (s : State) (i : Nat) (f : Task → Task) (c : Nat) : (s.updTask i f).core c = s.core c := rfl

/-! ### Lanes -/

@[simp] theorem Task.length_onLanes (t : Task) (m : Mask) (f : Nat → Lane → Lane) : (t.onLanes m f).lanes.length = t.lanes.length := by
  simp [Task.onLanes]

theorem Task.lane_onLanes (t : Task) (m : Mask) (f : Nat → Lane → Lane) {l : Nat} (h : l < t.lanes.length) :
    (t.onLanes m f).lane l = if m.getLsbD l then f l (t.lane l) else t.lane l := by
  have h' : l < (t.onLanes m f).lanes.length := by simpa using h
  simp only [Task.lane, List.getD_eq_getElem _ _ h, List.getD_eq_getElem _ _ h']
  simp [Task.onLanes]

/-! ### Registers -/

theorem Task.sreg_setS (t : Task) (r q : Fin 64) (x : BitVec 64) :
    (t.setS r x).sreg q = if q = r ∧ r ≠ 63 then x else t.sreg q := by
  unfold Task.setS Task.sreg
  by_cases hr : r = 63
  · subst hr; simp
  · by_cases hq : q = r
    · subst hq; simp [hr]
    · have : q.val ≠ r.val := fun h => hq (Fin.ext h)
      simp [hr, hq, Store.get_set_ne _ _ this]

theorem vkey_inj {r r' l l' : Nat} (h : l < 64) (h' : l' < 64) : vkey r l = vkey r' l' ↔ r = r' ∧ l = l' := by
  unfold vkey; omega

theorem Task.vreg_setV (t : Task) (r l : Nat) (x : BitVec 32) (q m : Nat) (hl : l < 64) (hm : m < 64) :
    (t.setV r l x).vreg q m = if q = r ∧ m = l then x else t.vreg q m := by
  unfold Task.setV Task.vreg
  simp only [Store.get_set, vkey_inj hm hl]

theorem Task.pred_setPred (t : Task) (p : Fin 8) (m v : Mask) (q : Fin 8) :
    (t.setPred p m v).pred q = if q = p ∧ p ≠ 0 then (t.pred p &&& ~~~m) ||| (v &&& m) else t.pred q := by
  unfold Task.setPred
  by_cases hp : p = 0
  · simp [hp]
  · by_cases hq : q = p
    · subst hq; simp [hp, Task.pred]
    · have : q.val ≠ p.val := fun h => hq (Fin.ext h)
      simp [hp, hq, Task.pred, Store.get_set_ne _ _ this]

theorem mem_lanesOf {m : Mask} {l : Nat} : l ∈ lanesOf m ↔ l < 64 ∧ m.getLsbD l = true := by
  simp [lanesOf]

theorem getLsbD_maskOf (ls : List Nat) {l : Nat} (hl : l < 64) : (maskOf ls).getLsbD l = decide (l ∈ ls) := by
  have key : ∀ m : Mask, (ls.foldl (fun m k => m ||| laneBit k) m).getLsbD l = (m.getLsbD l || decide (l ∈ ls)) := by
    induction ls with
    | nil => simp
    | cons k r ih =>
      intro m
      rw [List.foldl_cons, ih]
      have : (laneBit k).getLsbD l = decide (l = k) := by
        simp [laneBit, hl]
        by_cases h : l = k
        · simp [h]
        · have : ¬ (k ≤ l ∧ l - k = 0) := by omega
          simp [h]; omega
      simp [this, Bool.or_assoc]
  unfold maskOf
  rw [key]; simp

theorem getLsbD_laneMask (t : Task) (p : Lane → Bool) {l : Nat} (h : l < 64) :
    (t.laneMask p).getLsbD l = true ↔ l < t.lanes.length ∧ p (t.lane l) = true := by
  rw [Task.laneMask, maskWhere, getLsbD_maskOf _ h]; simp

theorem mask_eq_zero {m : Mask} : m = 0 ↔ ∀ l < 64, ¬ m.getLsbD l = true := by
  refine ⟨fun h l _ => by simp [h], fun h => BitVec.eq_of_getLsbD_eq fun l hl => ?_⟩
  simpa using h l hl

theorem any_lanes (t : Task) (p : Lane → Bool) : t.lanes.any p = true ↔ ∃ k < t.lanes.length, p (t.lane k) = true := by
  rw [List.any_eq_true]
  constructor
  · rintro ⟨x, hx, hp⟩
    obtain ⟨k, hk, rfl⟩ := List.mem_iff_getElem.1 hx
    exact ⟨k, hk, by rwa [Task.lane, List.getD_eq_getElem _ _ hk]⟩
  · rintro ⟨k, hk, hp⟩
    exact ⟨t.lanes[k], List.getElem_mem hk, by rwa [Task.lane, List.getD_eq_getElem _ _ hk] at hp⟩

end Sys2Proof.Machine
end

