-- ==== Sys2Proof/Laws/Issue.lean ====
section
/-! SUPPORT. What issuing an instruction can do, said once. -/

namespace Sys2Proof.Machine

variable {s : State} {tid : Nat} {t : Task} {group : Mask} {g : Guard} {len : Nat} {plan : Ctx → Plan}

/-- A plan with a cost that the account covers is charged and carried out. -/
theorem issue_go {cost reserve : Nat} {eff : State → State} (hc : s.cur = .group tid group) (ht : s.task? tid = some t)
    (hp : plan (Ctx.of s t group g len) = .go cost reserve eff) (ha : cost + reserve ≤ t.alw.toNat) :
    issue s len g plan = .next ((eff (s.updTask tid fun t => (t.charge cost reserve).countWindows group)).updTask tid
      fun t => t.settleLanes group) := by
  have : ¬ t.alw.toNat < cost + reserve := by omega
  simp [issue, hc, ht, hp, this]

/-- A cost beyond the account is trap 0x0A (R95, R97, R98). -/
theorem issue_exhaust {cost reserve : Nat} {eff : State → State} (hc : s.cur = .group tid group) (ht : s.task? tid = some t)
    (hp : plan (Ctx.of s t group g len) = .go cost reserve eff) (ha : t.alw.toNat < cost + reserve) :
    issue s len g plan = .next (s.exhaust tid (t.trapRecord (Ctx.of s t group g len).pc group (cost + reserve))) := by
  simp [issue, hc, ht, hp, ha]

/-- A fault before the charge is taken (R199). -/
theorem issue_fault {code : BitVec 8} {lmask : Mask} {addr : BitVec 64} {detail : BitVec 128} {note : State → State}
    (hc : s.cur = .group tid group) (ht : s.task? tid = some t)
    (hp : plan (Ctx.of s t group g len) = .fault code lmask addr detail note) :
    issue s len g plan =
      .next ((note s).takeFault tid (t.record code (Ctx.of s t group g len).pc group lmask addr detail false false)) := by
  simp [issue, hc, ht, hp]

/-- A fault after the charge is taken with the charge returned, where the account covers it (R95). -/
theorem issue_late {cost : Nat} {code : BitVec 8} {lmask : Mask} {addr : BitVec 64} {detail : BitVec 128} {note : State → State}
    (hc : s.cur = .group tid group) (ht : s.task? tid = some t)
    (hp : plan (Ctx.of s t group g len) = .late cost code lmask addr detail note) (ha : cost ≤ t.alw.toNat) :
    issue s len g plan =
      .next ((note s).takeFault tid (t.record code (Ctx.of s t group g len).pc group lmask addr detail false false)) := by
  have : ¬ t.alw.toNat < cost := by omega
  simp [issue, hc, ht, hp, this]

theorem issue_wait (hc : s.cur = .group tid group) (ht : s.task? tid = some t)
    (hp : plan (Ctx.of s t group g len) = .wait) : issue s len g plan = .next s := by
  simp [issue, hc, ht, hp]

/-- An instruction issued by a group of a task never stops the machine. -/
theorem issue_isNext (hc : s.cur = .group tid group) (ht : s.task? tid = some t) : ∃ s', issue s len g plan = .next s' := by
  unfold issue
  simp only [hc, ht]
  split
  · exact ⟨_, rfl⟩
  · split <;> exact ⟨_, rfl⟩
  · exact ⟨_, rfl⟩
  · split <;> exact ⟨_, rfl⟩

/-- What issuing does, as cases: an instruction acts as one of the five kinds of plan says. -/
theorem issue_cases {s' : State} (h : issue s len g plan = .next s') :
    ∃ tid group t, s.cur = .group tid group ∧ s.task? tid = some t ∧
      ((∃ (r : FaultRec) (note : State → State), s' = State.takeFault (note s) tid r) ∨ (∃ r, s' = s.exhaust tid r) ∨ s' = s ∨
        ∃ cost reserve eff, plan (Ctx.of s t group g len) = .go cost reserve eff ∧ cost + reserve ≤ t.alw.toNat ∧
          s' = (eff (s.updTask tid fun t => (t.charge cost reserve).countWindows group)).updTask tid fun t => t.settleLanes group) := by
  unfold issue at h
  split at h
  · rename_i tid group hcur
    split at h
    · cases h
    · rename_i t ht
      refine ⟨tid, group, t, hcur, ht, ?_⟩
      simp only at h
      split at h
      · cases h; exact .inl ⟨_, _, rfl⟩
      · split at h
        · cases h; exact .inr (.inl ⟨_, rfl⟩)
        · cases h; exact .inl ⟨_, _, rfl⟩
      · cases h; exact .inr (.inr (.inl rfl))
      · rename_i cost reserve eff hp
        split at h
        · cases h; exact .inr (.inl ⟨_, rfl⟩)
        · rename_i hlt
          cases h
          exact .inr (.inr (.inr ⟨cost, reserve, eff, hp, by omega, rfl⟩))
  · cases h

/-- The task after a simple instruction: charged, changed by f, moved on. -/
def Task.simply (cost : Nat) (group : Mask) (len : Nat) (f : Task → Task) (t : Task) : Task :=
  ((f ((t.charge cost 0).countWindows group)).advance group len).settleLanes group

/-- A simple instruction changes only its task. -/
theorem issue_simple {cost : Nat} {f : Task → Task} (hc : s.cur = .group tid group) (ht : s.task? tid = some t)
    (hp : plan (Ctx.of s t group g len) = (Ctx.of s t group g len).simple cost f) (hf : ∀ t, (f t).id = t.id)
    (ha : cost ≤ t.alw.toNat) :
    issue s len g plan = .next (s.updTask tid (Task.simply cost group len f)) := by
  have hid := State.task?_id ht
  rw [issue_go hc ht hp (by omega)]
  simp only [Ctx.of, hid]
  rw [State.updTask_updTask _ _ _ _ fun t => by simp [hf], State.updTask_updTask _ _ _ _ fun t => by simp]
  rfl

end Sys2Proof.Machine
end

