-- ==== Sys2Proof/Laws/Results.lean ====
section
/-! SUPPORT. What writing results into registers does, and the completion of an instruction that only computes. -/

namespace Sys2Proof.Machine

/-! ### Lanes that move on -/

theorem Task.lane_advance (t : Task) (m : Mask) (n : Nat) {l : Nat} (h : l < t.lanes.length) :
    (t.advance m n).lane l = if m.getLsbD l then { t.lane l with pc := (t.lane l).pc + BitVec.ofNat 32 n } else t.lane l := by
  rw [Task.advance, Task.lane_onLanes _ _ _ h]

theorem Task.lane_map (t : Task) (f : Lane → Lane) {l : Nat} (h : l < t.lanes.length) :
    ({ t with lanes := t.lanes.map f } : Task).lane l = f (t.lane l) := by
  have h' : l < (t.lanes.map f).length := by simpa using h
  simp only [Task.lane, List.getD_eq_getElem _ _ h, List.getD_eq_getElem _ _ h']
  simp

theorem Task.length_settleLanes (t : Task) (m : Mask) : (t.settleLanes m).lanes.length = t.lanes.length := by
  simp [Task.settleLanes, Task.releaseMeets, Task.arrive]

/-- A lane after arrivals (R78). -/
theorem Task.lane_arrive (t : Task) (m : Mask) {l : Nat} (h : l < t.lanes.length) :
    (m.getLsbD l = true ∧ (t.lane l).Arrives → (t.arrive m).lane l = { t.lane l with park := .meeting }) ∧
    (¬ (m.getLsbD l = true ∧ (t.lane l).Arrives) → (t.arrive m).lane l = t.lane l) := by
  rw [Task.arrive, Task.lane_onLanes _ _ _ h]
  have hb : ((t.lane l).meetValid && !(t.lane l).exited && decide ((t.lane l).park = .none) && decide ((t.lane l).depth = (t.lane l).meetDepth) &&
      decide ((t.lane l).pc = (t.lane l).meetAddr)) = true ↔ (t.lane l).Arrives := by
    simp [Lane.Arrives, and_assoc]
  constructor
  · rintro ⟨hm, ha⟩
    rw [if_pos hm, if_pos (hb.2 ha)]
  · intro hn
    split
    · rename_i hm
      rw [if_neg fun e => hn ⟨hm, hb.1 e⟩]
    · rfl

theorem Lane.park_self (x : Lane) {p : Park} (h : x.park = p) : ({ x with park := p } : Lane) = x := by subst h; rfl

/-- A lane of the task v, which an instruction of the group leaves as `lane` says, or with the group's arrivals made already. -/
def LeftAs (group : Mask) (lane : Nat → Lane) (v : Task) (l : Nat) : Prop :=
  v.lane l = lane l ∨ (group.getLsbD l = true ∧ (lane l).Arrives ∧ v.lane l = { lane l with park := .meeting })

theorem Task.lane_arrive_left {v : Task} {group : Mask} {lane : Nat → Lane} {l : Nat} (h : l < v.lanes.length)
    (hv : LeftAs group lane v l) :
    (AtMeeting group lane l → (v.arrive group).lane l = { lane l with park := .meeting }) ∧
    (¬ AtMeeting group lane l → (v.arrive group).lane l = lane l) := by
  obtain ⟨h1, h2⟩ := Task.lane_arrive v group h
  rcases hv with hv | ⟨hg, ha, hv⟩
  · rw [hv] at h1 h2
    constructor
    · rintro (hp | ha)
      · have hn : ¬ (group.getLsbD l = true ∧ (lane l).Arrives) := by
          rintro ⟨-, -, -, e, -⟩; rw [hp] at e; cases e
        rw [h2 hn, Lane.park_self _ hp]
      · exact h1 ha
    · exact fun hn => h2 fun e => hn (.inr e)
  · constructor
    · intro _
      rw [h2, hv]
      rw [hv]; rintro ⟨-, -, -, e, -⟩; cases e
    · exact fun hn => absurd (.inr ⟨hg, ha⟩) hn

theorem Task.runsOn_arrive {v : Task} {group : Mask} {lane : Nat → Lane} {l : Nat}
    (hv : ∀ l < v.lanes.length, LeftAs group lane v l) (hl : l < 64) :
    (v.arrive group).running.getLsbD l = true ↔ RunsOn v.lanes.length group lane l := by
  have hlen : (v.arrive group).lanes.length = v.lanes.length := by simp [Task.arrive]
  rw [Task.running, getLsbD_laneMask _ _ hl, hlen]
  unfold RunsOn
  constructor
  · rintro ⟨h, hr⟩
    obtain ⟨h1, h2⟩ := Task.lane_arrive_left h (hv l h)
    by_cases hm : AtMeeting group lane l
    · rw [h1 hm] at hr; simp at hr
    · rw [h2 hm] at hr
      rw [Bool.and_eq_true] at hr
      exact ⟨h, by simpa using hr.1, by simpa using hr.2, fun e => hm (.inr e)⟩
  · rintro ⟨h, he, hp, hn⟩
    obtain ⟨-, h2⟩ := Task.lane_arrive_left h (hv l h)
    have hm : ¬ AtMeeting group lane l := by
      rintro (e | e)
      · rw [hp] at e; cases e
      · exact hn e
    rw [h2 hm]
    exact ⟨h, by simp [he, hp]⟩

theorem Task.leaveSets_eq (t : Task) (m : Mask) :
    t.leaveSets m = if t.oset &&& t.running &&& ~~~m = 0 ∨ t.running &&& ~~~(t.dset &&& t.unexited) = 0 then { t with dset := 0, oset := 0 }
      else { t with dset := t.dset &&& t.unexited, oset := t.oset &&& t.running &&& ~~~m } := by
  unfold Task.leaveSets
  simp only [Bool.or_eq_true, decide_eq_true_eq]

theorem Task.setsEnd_settle {u v : Task} {group : Mask} {lane : Nat → Lane} (hlen : v.lanes.length = u.lanes.length)
    (hd : v.dset = u.dset) (ho : v.oset = u.oset) (hv : ∀ l < u.lanes.length, LeftAs group lane v l) :
    SetsEnd u.lanes.length group u.dset u.oset lane (v.settleLanes group).dset (v.settleLanes group).oset := by
  rw [← hlen, ← hd, ← ho]
  rw [← hlen] at hv
  have hrun := fun l (hl : l < 64) => Task.runsOn_arrive hv hl
  have hex : ∀ l < 64, ((v.arrive group).unexited.getLsbD l = true ↔ l < v.lanes.length ∧ (lane l).exited = false) := by
    intro l hl
    have hlen' : (v.arrive group).lanes.length = v.lanes.length := by simp [Task.arrive]
    rw [Task.unexited, getLsbD_laneMask _ _ hl, hlen']
    refine and_congr_right fun h => ?_
    obtain ⟨h1, h2⟩ := Task.lane_arrive_left h (hv l h)
    by_cases hm : AtMeeting group lane l
    · rw [h1 hm]; simp
    · rw [h2 hm]; simp
  have hst : ∀ l < 64, ((v.oset &&& (v.arrive group).running &&& ~~~group).getLsbD l = true ↔ StaysInO v.lanes.length group v.oset lane l) := by
    intro l hl
    unfold StaysInO
    rw [← hrun l hl]
    simp [hl, and_assoc]
  have h0 : (v.oset &&& (v.arrive group).running &&& ~~~group) = 0 ↔ ∀ l < 64, ¬ StaysInO v.lanes.length group v.oset lane l := by
    rw [mask_eq_zero]
    exact forall_congr' fun l => forall_congr' fun hl => not_congr (hst l hl)
  have hd0 : (v.arrive group).running &&& ~~~(v.dset &&& (v.arrive group).unexited) = 0 ↔
      ∀ l < 64, RunsOn v.lanes.length group lane l → v.dset.getLsbD l = true := by
    rw [mask_eq_zero]
    refine forall_congr' fun l => forall_congr' fun hl => ?_
    simp only [BitVec.getLsbD_and, BitVec.getLsbD_not, hl, decide_true, Bool.true_and, Bool.and_eq_true, Bool.not_eq_true', hrun l hl]
    have he := hex l hl
    constructor
    · intro h hr
      by_contra hc
      exact h ⟨hr, by simp [hc]⟩
    · rintro h ⟨hr, hb⟩
      rw [h hr, he.2 ⟨hr.1, hr.2.1⟩] at hb
      cases hb
  have hset : ((v.settleLanes group).dset, (v.settleLanes group).oset) =
      if (v.oset &&& (v.arrive group).running &&& ~~~group) = 0 ∨ (v.arrive group).running &&& ~~~(v.dset &&& (v.arrive group).unexited) = 0 then (0, 0)
      else (v.dset &&& (v.arrive group).unexited, v.oset &&& (v.arrive group).running &&& ~~~group) := by
    have h := Task.leaveSets_eq (v.arrive group) group
    rw [show (v.settleLanes group).dset = ((v.arrive group).leaveSets group).dset from rfl,
      show (v.settleLanes group).oset = ((v.arrive group).leaveSets group).oset from rfl, h]
    by_cases hc : v.oset &&& (v.arrive group).running &&& ~~~group = 0 ∨
        (v.arrive group).running &&& ~~~(v.dset &&& (v.arrive group).unexited) = 0
    · rw [if_pos hc, if_pos (by simpa using hc)]
    · rw [if_neg hc, if_neg (by simpa using hc)] <;> rfl
  have hset1 := congrArg Prod.fst hset
  have hset2 := congrArg Prod.snd hset
  simp only at hset1 hset2
  refine ⟨fun hover => ?_, fun hover l hl => ?_⟩
  · have hc := hover.imp h0.2 hd0.2
    rw [hset1, hset2, if_pos hc]
    exact ⟨rfl, rfl⟩
  · have hc := fun e => hover (Or.imp h0.1 hd0.1 e)
    rw [hset1, hset2, if_neg hc]
    refine ⟨hst l hl, ?_⟩
    rw [BitVec.getLsbD_and, Bool.and_eq_true, hex l hl]

/-- Settling the lanes is what R71 ends an instruction with: arrivals, the sets D and O, and the release of meetings (R76, R78, R79). -/
theorem Task.settle_ends {u v : Task} {group : Mask} {lane : Nat → Lane} (hlen : v.lanes.length = u.lanes.length)
    (hd : v.dset = u.dset) (ho : v.oset = u.oset) (hv : ∀ l < u.lanes.length, LeftAs group lane v l) :
    LanesEnd u (v.settleLanes group) group lane := by
  refine ⟨by rw [Task.length_settleLanes, hlen], fun l hl => ?_, Task.setsEnd_settle hlen hd ho hv⟩
  have ha : ((v.arrive group).leaveSets group).lanes.length = u.lanes.length := by simpa [Task.arrive] using hlen
  have hlane : ∀ k, ((v.arrive group).leaveSets group).lane k = (v.arrive group).lane k := fun k => by simp [Task.lane]
  have hleft := fun k (hk : k < u.lanes.length) => Task.lane_arrive_left (by omega) (hv k hk)
  have hheld : ∀ x : Lane, x = lane l ∨ x = { lane l with park := .meeting } →
      (((v.arrive group).leaveSets group).heldBack x.meetDepth x.meetAddr = true ↔ MeetingHeld u.lanes.length group lane l) := by
    intro x hx
    have e1 : x.meetDepth = (lane l).meetDepth := by rcases hx with rfl | rfl <;> rfl
    have e2 : x.meetAddr = (lane l).meetAddr := by rcases hx with rfl | rfl <;> rfl
    rw [Task.heldBack, any_lanes, ha, e1, e2]
    unfold MeetingHeld
    refine exists_congr fun k => and_congr_right fun hk => ?_
    rw [hlane]
    by_cases hm : AtMeeting group lane k
    · rw [(hleft k hk).1 hm]; simp [hm]
    · have hp : (lane k).park ≠ .meeting := fun e => hm (.inl e)
      rw [(hleft k hk).2 hm]; simp [hm, hp, and_assoc]
  rw [Task.settleLanes, Task.releaseMeets, Task.lane_map _ _ (by omega), hlane]
  by_cases hm : AtMeeting group lane l
  · rw [(hleft l hl).1 hm]
    have hh := hheld _ (.inr rfl)
    refine ⟨fun h => absurd hm h, fun _ h => ?_, fun _ h => ?_⟩
    · rw [if_neg (by simp [hh.2 h])]
    · have : ((v.arrive group).leaveSets group).heldBack (lane l).meetDepth (lane l).meetAddr = false := by
        rw [← Bool.not_eq_true]; exact fun e => h (hh.1 e)
      rw [if_pos (by simp [this])]
  · rw [(hleft l hl).2 hm]
    have hp : (lane l).park ≠ .meeting := fun e => hm (.inl e)
    rw [if_neg (by simp [hp])]
    exact ⟨fun _ => rfl, fun h => absurd h hm, fun h => absurd h hm⟩

/-- What the lanes come to in a simple instruction that leaves them and the sets D and O alone. -/
theorem Task.simply_lanesMoved (t : Task) (cost : Nat) (group : Mask) (len : Nat) (f : Task → Task) (hf : ∀ t, (f t).lanes = t.lanes)
    (hd : ∀ t, (f t).dset = t.dset) (ho : ∀ t, (f t).oset = t.oset) : LanesMoved t (t.simply cost group len f) group len := by
  unfold Task.simply
  refine Task.settle_ends (by simp [Task.advance, hf]) (by simp [hd]) (by simp [ho]) fun l hl => .inl ?_
  have hl2 : l < (f ((t.charge cost 0).countWindows group)).lanes.length := by simpa [hf] using hl
  have hlane : (f ((t.charge cost 0).countWindows group)).lane l = t.lane l := by simp [Task.lane, hf]
  rw [Task.lane_advance _ _ _ hl2, hlane]; rfl

/-! ### Results in registers -/

theorem Task.vreg_wrV (t : Task) (r l : Nat) (x : BitVec 32) (q m : Nat) (hl : l < 64) (hm : m < 64) :
    (t.wrV r l x).vreg q m = if q = r ∧ m = l then x else t.vreg q m := Task.vreg_setV t r l x q m hl hm

theorem Task.sreg_wrS (t : Task) (r q : Fin 64) (x : BitVec 64) : (t.wrS r x).sreg q = if q = r ∧ r ≠ 63 then x else t.sreg q :=
  Task.sreg_setS t r q x

theorem Task.put_narrow (t : Task) {ty : Ty} (h : ty.wide = false) (n : Fin 192) (l x : Nat) :
    t.put ty (.v n) l x = t.wrV n.val l (BitVec.ofNat 32 x) := by simp [Task.put, h]

theorem Task.put_wide (t : Task) {ty : Ty} (h : ty.wide = true) (n : Fin 192) (l x : Nat) :
    t.put ty (.v n) l x = (t.wrV n.val l (BitVec.ofNat 32 x)).wrV (n.val + 1) l (BitVec.ofNat 32 (x / 2 ^ 32)) := by
  simp [Task.put, h]

theorem Task.put_s (t : Task) (ty : Ty) (n : Fin 64) (l x : Nat) : t.put ty (.s n) l x = t.wrS n (sExtend ty x) := rfl

theorem Task.wrV_rest (t : Task) (r l : Nat) (x : BitVec 32) :
    t.wrV r l x = { t with vregs := (t.wrV r l x).vregs, outs := (t.wrV r l x).outs, sfOps := (t.wrV r l x).sfOps } := rfl

theorem Task.wrS_rest (t : Task) (r : Fin 64) (x : BitVec 64) :
    t.wrS r x = { t with sregs := (t.wrS r x).sregs, outs := (t.wrS r x).outs } := by
  by_cases h : r = 63
  · have : t.setS r x = t := by simp [Task.setS, h]
    rw [Task.wrS, this]; rfl
  · have : t.setS r x = { t with sregs := t.sregs.set r.val x } := by simp [Task.setS, h]
    rw [Task.wrS, this]; rfl

/-- The fields of a task that an instruction with a register destination may change, put into another task. -/
def Task.withResults (t u : Task) : Task :=
  { t with vregs := u.vregs, sregs := u.sregs, outs := u.outs, sfOps := u.sfOps, fpctl := u.fpctl }

theorem Task.withResults_withResults (t u v : Task) : (t.withResults u).withResults v = t.withResults v := rfl

theorem Task.wrV_results (t : Task) (r l : Nat) (x : BitVec 32) : t.wrV r l x = t.withResults (t.wrV r l x) := rfl

theorem Task.results_trans {t u v : Task} (h : u = t.withResults u) (h' : v = u.withResults v) : v = t.withResults v := by
  rw [h, Task.withResults_withResults] at h'; exact h'

/-- A result changes registers and the notes on results that are on their way only. -/
theorem Task.put_rest (t : Task) (ty : Ty) (dst : Reg) (l x : Nat) : t.put ty dst l x = t.withResults (t.put ty dst l x) := by
  cases dst with
  | v n =>
    cases h : ty.wide with
    | false => rw [Task.put_narrow t h]; exact Task.wrV_results ..
    | true => rw [Task.put_wide t h]; exact Task.results_trans (Task.wrV_results ..) (Task.wrV_results ..)
  | s n => rw [Task.put_s, Task.wrS_rest]; rfl

theorem Task.put_fpctl (t : Task) (ty : Ty) (dst : Reg) (l x : Nat) : (t.put ty dst l x).fpctl = t.fpctl := by
  cases dst with
  | v n =>
    cases h : ty.wide with
    | false => rw [Task.put_narrow t h, Task.wrV_fpctl]
    | true => rw [Task.put_wide t h, Task.wrV_fpctl, Task.wrV_fpctl]
  | s n => rw [Task.put_s, Task.wrS_fpctl]

theorem Task.put_lanes (t : Task) (ty : Ty) (dst : Reg) (l x : Nat) : (t.put ty dst l x).lanes = t.lanes := by
  rw [Task.put_rest]; rfl

/-- The fields that settling the lanes may change, put into another task. -/
def Task.withLanes (t u : Task) : Task := { t with lanes := u.lanes, dset := u.dset, oset := u.oset }

theorem Task.lanes_trans {t u v : Task} (h : u = t.withLanes u) (h' : v = u.withLanes v) : v = t.withLanes v := by
  rw [h] at h'; exact h'

theorem Task.leaveSets_rest (t : Task) (m : Mask) : t.leaveSets m = t.withLanes (t.leaveSets m) := by
  unfold Task.leaveSets; simp only; split <;> rfl

theorem Task.settleLanes_rest (t : Task) (m : Mask) : t.settleLanes m = t.withLanes (t.settleLanes m) :=
  Task.lanes_trans (Task.lanes_trans (u := t.arrive m) rfl (Task.leaveSets_rest _ m)) rfl

theorem Task.settle_rest (t : Task) (group : Mask) (n : Nat) :
    (t.advance group n).settleLanes group = t.withLanes ((t.advance group n).settleLanes group) :=
  Task.lanes_trans (u := t.advance group n) rfl (Task.settleLanes_rest _ _)

/-- What a simple instruction leaves alone: all that its change leaves alone, but the account, the lanes and the notes. -/
theorem Task.simply_rest {t : Task} {cost : Nat} {group : Mask} {len : Nat} {f : Task → Task}
    (hf : f ((t.charge cost 0).countWindows group) =
      ((t.charge cost 0).countWindows group).withResults (f ((t.charge cost 0).countWindows group))) :
    t.simply cost group len f = { ((t.withResults (f ((t.charge cost 0).countWindows group))).withLanes (t.simply cost group len f)) with
      alw := t.alw - BitVec.ofNat 64 cost, held := t.held + BitVec.ofNat 64 0 } := by
  have h := Task.settle_rest (f ((t.charge cost 0).countWindows group)) group len
  unfold Task.simply
  rw [h, hf]
  rfl

theorem Task.put_vreg (t : Task) (ty : Ty) (dst : Reg) (l x r m : Nat) (act : Mask) (hl : l < 64) (hm : m < 64) (ha : act.getLsbD l = true)
    (h : ¬ Writes dst ty.wide act r m) : (t.put ty dst l x).vreg r m = t.vreg r m := by
  cases dst with
  | v n =>
    simp only [Writes, not_and, not_or] at h
    have key : ∀ k, (k = n.val ∨ (ty.wide = true ∧ k = n.val + 1)) → ¬ (r = k ∧ m = l) := by
      rintro k hk ⟨rfl, rfl⟩
      obtain ⟨h1, h2⟩ := h ha
      rcases hk with hk | ⟨hw, hk⟩
      · exact h1 hk.symm
      · exact h2 hw hk.symm
    cases hw : ty.wide with
    | true =>
      rw [Task.put_wide t hw, Task.vreg_wrV _ _ _ _ _ _ hl hm, if_neg (key _ (.inr ⟨hw, rfl⟩)), Task.vreg_wrV _ _ _ _ _ _ hl hm,
        if_neg (key _ (.inl rfl))]
    | false => rw [Task.put_narrow t hw, Task.vreg_wrV _ _ _ _ _ _ hl hm, if_neg (key _ (.inl rfl))]
  | s n => simp [Task.put_s, Task.vreg]

theorem Task.put_sreg (t : Task) (ty : Ty) (dst : Reg) (l x : Nat) (r : Fin 64) (h : dst ≠ .s r) :
    (t.put ty dst l x).sreg r = t.sreg r := by
  cases dst with
  | v n =>
    cases hw : ty.wide with
    | true => rw [Task.put_wide t hw]; simp [Task.sreg]
    | false => rw [Task.put_narrow t hw]; simp [Task.sreg]
  | s n =>
    have : r ≠ n := fun e => h (by rw [e])
    simp [Task.put_s, Task.sreg_wrS, this]

theorem Task.put_holds (t : Task) (ty : Ty) (dst : Reg) (l x : Nat) (hl : l < 64) : Holds (t.put ty dst l x) ty dst l x := by
  cases dst with
  | v n =>
    cases hw : ty.wide with
    | true =>
      rw [Task.put_wide t hw]
      simp only [Holds, hw, if_true]
      refine ⟨?_, ?_⟩
      · rw [Task.vreg_wrV _ _ _ _ _ _ hl hl, if_neg (by omega), Task.vreg_wrV _ _ _ _ _ _ hl hl, if_pos ⟨rfl, rfl⟩]
      · rw [Task.vreg_wrV _ _ _ _ _ _ hl hl, if_pos ⟨rfl, rfl⟩]
    | false =>
      rw [Task.put_narrow t hw]
      simp only [Holds, hw]
      simp [Task.vreg_wrV _ _ _ _ _ _ hl hl]
  | s n =>
    simp only [Holds, Task.put_s, Task.sreg_wrS, true_and]
    by_cases h : n = 63
    · subst h; simp [Task.sreg]
    · simp [h]

/-- A result for another lane leaves what a v destination holds. -/
theorem Task.put_holds_ne (t : Task) (ty : Ty) (n : Fin 192) (l l' x y : Nat) (hl : l < 64) (hl' : l' < 64) (h : l' ≠ l)
    (hh : Holds t ty (.v n) l' y) : Holds (t.put ty (.v n) l x) ty (.v n) l' y := by
  have e : ∀ r, (t.put ty (.v n) l x).vreg r l' = t.vreg r l' := fun r => by
    cases hw : ty.wide with
    | true => rw [Task.put_wide t hw]; simp [Task.vreg_wrV _ _ _ _ _ _ hl hl', h]
    | false => rw [Task.put_narrow t hw]; simp [Task.vreg_wrV _ _ _ _ _ _ hl hl', h]
  unfold Holds at *
  simpa [e] using hh

theorem Task.raise_holds (t : Task) (fl : FFlags) (ty : Ty) (dst : Reg) (l x : Nat) (h : Holds t ty dst l x) :
    Holds (t.raise fl) ty dst l x := h

/-! ### Notes on results that are on their way -/

/-- The things of a list with the notes that w names, where get and put are a thing's notes. -/
def NotedList {α : Type} (get : α → Store 1) (put : α → Store 1 → α) (l l' : List α) (w : α → Nat → Prop) : Prop :=
  ∃ c : α → Store 1, l' = l.map (fun o => put o (c o)) ∧ ∀ o, Noted (get o) (c o) (w o)

section
variable {α : Type} {get : α → Store 1} {put : α → Store 1 → α} {l l' l'' : List α} {w w' : α → Nat → Prop}

theorem NotedList.refl (hp : ∀ o, put o (get o) = o) (hw : ∀ o k, ¬ w o k) : NotedList get put l l w :=
  ⟨get, by simp [hp], fun o k => ⟨fun h => absurd h (hw o k), fun _ => rfl⟩⟩

theorem NotedList.one (p : α → Bool) (key : Nat) (hp : ∀ o, put o (get o) = o) (hw : ∀ o k, w o k ↔ p o = true ∧ k = key) :
    NotedList get put l (l.map fun o => if p o then put o ((get o).set key 1) else o) w := by
  refine ⟨fun o => if p o then (get o).set key 1 else get o, ?_, fun o k => ?_⟩
  · congr 1; funext o; split <;> simp_all
  · rw [hw]
    by_cases h : p o = true
    · by_cases hk : k = key
      · subst hk; simp [h]
      · simp [h, hk, Store.get_set_ne _ _ hk]
    · simp [h]

theorem NotedList.trans (h : NotedList get put l l' w) (h' : NotedList get put l' l'' w') (hg : ∀ o x, get (put o x) = x)
    (hp : ∀ o x y, put (put o x) y = put o y) (hw : ∀ o x k, w' (put o x) k ↔ w' o k) :
    NotedList get put l l'' fun o k => w o k ∨ w' o k := by
  obtain ⟨c, rfl, hc⟩ := h
  obtain ⟨c', rfl, hc'⟩ := h'
  refine ⟨fun o => c' (put o (c o)), by simp [hp], fun o k => ?_⟩
  obtain ⟨h1, h2⟩ := hc o k
  obtain ⟨h3, h4⟩ := hc' (put o (c o)) k
  rw [hw, hg] at h4
  rw [hw] at h3
  by_cases hk : w' o k
  · exact ⟨fun _ => h3 hk, fun hn => absurd (.inr hk) hn⟩
  · rw [h4 hk]
    exact ⟨fun e => h1 (e.resolve_right hk), fun hn => h2 fun e => hn (.inl e)⟩

theorem NotedList.congr (h : NotedList get put l l' w) (hw : ∀ o k, w o k ↔ w' o k) : NotedList get put l l' w' := by
  obtain ⟨c, hl, hc⟩ := h
  refine ⟨c, hl, fun o k => ?_⟩
  have := hc o k
  rwa [hw] at this

end

/-- The task u is t with results in its registers, and the notes that w and v name on the results that are on their way. -/
def Task.Notes (t u : Task) (w : Out → Nat → Prop) (v : SfOp → Nat → Prop) : Prop :=
  NotedList Out.clob (fun o c => { o with clob := c }) t.outs u.outs w ∧ NotedList SfOp.clob (fun o c => { o with clob := c }) t.sfOps u.sfOps v

/-- Whether a result in lane l overwrites a register that is on its way. -/
def outAt (dst : Reg) (wide : Bool) (l : Nat) (o : Out) (k : Nat) : Prop :=
  match dst with
  | .v n => (o.coversV n.val l = true ∧ k = vkey n.val l) ∨ (wide = true ∧ o.coversV (n.val + 1) l = true ∧ k = vkey (n.val + 1) l)
  | .s n => o.coversS n.val = true ∧ k = skey n.val

def sfAt (dst : Reg) (wide : Bool) (l : Nat) (o : SfOp) (k : Nat) : Prop :=
  match dst with
  | .v n => (o.covers n.val l = true ∧ k = vkey n.val l) ∨ (wide = true ∧ o.covers (n.val + 1) l = true ∧ k = vkey (n.val + 1) l)
  | .s _ => False

theorem outAt_clob (dst : Reg) (wide : Bool) (l : Nat) (o : Out) (c : Store 1) (k : Nat) :
    outAt dst wide l { o with clob := c } k ↔ outAt dst wide l o k := by cases dst <;> exact Iff.rfl

theorem sfAt_clob (dst : Reg) (wide : Bool) (l : Nat) (o : SfOp) (c : Store 1) (k : Nat) :
    sfAt dst wide l { o with clob := c } k ↔ sfAt dst wide l o k := by cases dst <;> exact Iff.rfl

theorem Task.Notes.refl (t : Task) {w : Out → Nat → Prop} {v : SfOp → Nat → Prop} (hw : ∀ o k, ¬ w o k) (hv : ∀ o k, ¬ v o k) :
    t.Notes t w v := ⟨NotedList.refl (fun _ => rfl) hw, NotedList.refl (fun _ => rfl) hv⟩

theorem Task.Notes.trans {t u x : Task} {w w' : Out → Nat → Prop} {v v' : SfOp → Nat → Prop} (h : t.Notes u w v) (h' : u.Notes x w' v')
    (hw : ∀ o c k, w' { o with clob := c } k ↔ w' o k) (hv : ∀ o c k, v' { o with clob := c } k ↔ v' o k) :
    t.Notes x (fun o k => w o k ∨ w' o k) fun o k => v o k ∨ v' o k :=
  ⟨h.1.trans h'.1 (fun _ _ => rfl) (fun _ _ _ => rfl) hw, h.2.trans h'.2 (fun _ _ => rfl) (fun _ _ _ => rfl) hv⟩

theorem Task.wrV_notes (t : Task) (r l : Nat) (x : BitVec 32) :
    t.Notes (t.wrV r l x) (fun o k => o.coversV r l = true ∧ k = vkey r l) fun o k => o.covers r l = true ∧ k = vkey r l :=
  ⟨NotedList.one (fun o : Out => o.coversV r l) (vkey r l) (fun _ => rfl) fun _ _ => Iff.rfl,
    NotedList.one (fun o : SfOp => o.covers r l) (vkey r l) (fun _ => rfl) fun _ _ => Iff.rfl⟩

theorem Task.wrS_notes (t : Task) (r : Fin 64) (x : BitVec 64) :
    t.Notes (t.wrS r x) (fun o k => o.coversS r.val = true ∧ k = skey r.val) fun _ _ => False := by
  have h1 : (t.wrS r x).outs = t.outs.map fun o => if o.coversS r.val then { o with clob := o.clob.set (skey r.val) 1 } else o := by
    simp [Task.wrS, Task.overwriteS]
  have h2 : (t.wrS r x).sfOps = t.sfOps := by simp
  refine ⟨?_, ?_⟩
  · rw [h1]; exact NotedList.one (fun o : Out => o.coversS r.val) (skey r.val) (fun _ => rfl) fun _ _ => Iff.rfl
  · rw [h2]; exact NotedList.refl (fun _ => rfl) fun _ _ h => h

theorem Task.put_notes (t : Task) (ty : Ty) (dst : Reg) (l x : Nat) :
    t.Notes (t.put ty dst l x) (outAt dst ty.wide l) (sfAt dst ty.wide l) := by
  cases dst with
  | v n =>
    cases h : ty.wide with
    | false =>
      rw [Task.put_narrow t h]
      have := Task.wrV_notes t n.val l (BitVec.ofNat 32 x)
      exact ⟨this.1.congr fun o k => by simp [outAt], this.2.congr fun o k => by simp [sfAt]⟩
    | true =>
      rw [Task.put_wide t h]
      have := (Task.wrV_notes t n.val l (BitVec.ofNat 32 x)).trans
        (Task.wrV_notes (t.wrV n.val l (BitVec.ofNat 32 x)) (n.val + 1) l (BitVec.ofNat 32 (x / 2 ^ 32))) (fun _ _ _ => Iff.rfl) fun _ _ _ => Iff.rfl
      exact ⟨this.1.congr fun o k => by simp [outAt], this.2.congr fun o k => by simp [sfAt]⟩
  | s n => rw [Task.put_s]; exact Task.wrS_notes t n _

/-- The notes of an instruction that computes results in the lanes of a list. -/
theorem Task.computeList_notes (ty : Ty) (dst : Reg) (f : Nat → Nat × FFlags) (ls : List Nat) (t : Task) :
    t.Notes (ls.foldl (fun t' l => (t'.put ty dst l (f l).1).raise (f l).2) t) (fun o k => ∃ l ∈ ls, outAt dst ty.wide l o k)
      fun o k => ∃ l ∈ ls, sfAt dst ty.wide l o k := by
  induction ls using List.reverseRecOn with
  | nil => exact Task.Notes.refl t (by simp) (by simp)
  | append_singleton ls l ih =>
    rw [List.foldl_append, List.foldl_cons, List.foldl_nil]
    have h := ih.trans (Task.put_notes _ ty dst l (f l).1) (fun o c k => outAt_clob _ _ _ o c k) fun o c k => sfAt_clob _ _ _ o c k
    exact ⟨h.1.congr fun o k => by simp [or_and_right, exists_or], h.2.congr fun o k => by simp [or_and_right, exists_or]⟩

theorem exists_outAt (dst : Reg) (wide : Bool) (act : Mask) (o : Out) (k : Nat) :
    (∃ l ∈ performLanes dst act, outAt dst wide l o k) ↔ Overwrites dst wide act o k := by
  cases dst with
  | v n =>
    simp only [performLanes, mem_lanesOf, outAt, Overwrites, Writes]
    constructor
    · rintro ⟨l, ⟨hl, ha⟩, ⟨hc, hk⟩ | ⟨hw, hc, hk⟩⟩
      · exact ⟨_, l, hl, ⟨ha, .inl rfl⟩, hc, hk⟩
      · exact ⟨_, l, hl, ⟨ha, .inr ⟨hw, rfl⟩⟩, hc, hk⟩
    · rintro ⟨r, l, hl, ⟨ha, rfl | ⟨hw, rfl⟩⟩, hc, hk⟩
      · exact ⟨l, ⟨hl, ha⟩, .inl ⟨hc, hk⟩⟩
      · exact ⟨l, ⟨hl, ha⟩, .inr ⟨hw, hc, hk⟩⟩
  | s n =>
    simp only [performLanes, outAt, Overwrites]
    have h : (∃ l, l ∈ (lowest? act).toList) ↔ act ≠ 0 := by
      constructor
      · rintro ⟨l, hl⟩ rfl
        have := (mem_lanesOf.1 (List.mem_of_mem_head? (Option.mem_toList.1 hl))).2
        simp at this
      · intro ha
        cases hlo : lowest? act with
        | some l => exact ⟨l, by simp⟩
        | none =>
          refine absurd (mask_eq_zero.2 fun l hl hb => ?_) ha
          have : lanesOf act = [] := by simpa [lowest?] using hlo
          have hm := mem_lanesOf.2 ⟨hl, hb⟩
          rw [this] at hm; cases hm
    constructor
    · rintro ⟨l, hl, hc, hk⟩; exact ⟨h.1 ⟨l, hl⟩, hc, hk⟩
    · rintro ⟨ha, hc, hk⟩; obtain ⟨l, hl⟩ := h.2 ha; exact ⟨l, hl, hc, hk⟩

theorem exists_sfAt (dst : Reg) (wide : Bool) (act : Mask) (o : SfOp) (k : Nat) :
    (∃ l ∈ performLanes dst act, sfAt dst wide l o k) ↔ OverwritesSf dst wide act o k := by
  cases dst with
  | v n =>
    simp only [performLanes, mem_lanesOf, sfAt, OverwritesSf, Writes]
    constructor
    · rintro ⟨l, ⟨hl, ha⟩, ⟨hc, hk⟩ | ⟨hw, hc, hk⟩⟩
      · exact ⟨_, l, hl, ⟨ha, .inl rfl⟩, hc, hk⟩
      · exact ⟨_, l, hl, ⟨ha, .inr ⟨hw, rfl⟩⟩, hc, hk⟩
    · rintro ⟨r, l, hl, ⟨ha, rfl | ⟨hw, rfl⟩⟩, hc, hk⟩
      · exact ⟨l, ⟨hl, ha⟩, .inl ⟨hc, hk⟩⟩
      · exact ⟨l, ⟨hl, ha⟩, .inr ⟨hw, hc, hk⟩⟩
  | s n => simp [sfAt, OverwritesSf, Writes]

/-- Everything that computing results does, over any list of lanes without repetition. -/
theorem Task.computeList_spec (ty : Ty) (dst : Reg) (act : Mask) (f : Nat → Nat × FFlags) (ls : List Nat) (hn : ls.Nodup)
    (hact : ∀ l ∈ ls, l < 64 ∧ act.getLsbD l = true) (hs : ∀ n, dst = .s n → ls.length ≤ 1) (t : Task) :
    let t' := ls.foldl (fun t' l => (t'.put ty dst l (f l).1).raise (f l).2) t
    t' = t.withResults t' ∧
    (∀ r m, m < 64 → ¬ Writes dst ty.wide act r m → t'.vreg r m = t.vreg r m) ∧
    (∀ r, dst ≠ .s r → t'.sreg r = t.sreg r) ∧
    (∀ l ∈ ls, Holds t' ty dst l (f l).1) ∧
    t'.fpctl = ls.foldl (fun w l => w ||| ((f l).2.setWidth 64 <<< 4)) t.fpctl := by
  induction ls using List.reverseRecOn with
  | nil => exact ⟨rfl, fun _ _ _ _ => rfl, fun _ _ => rfl, by simp, rfl⟩
  | append_singleton ls l ih =>
    simp only [List.foldl_append, List.foldl_cons, List.foldl_nil]
    have hn' := List.nodup_append.1 hn
    obtain ⟨h1, h2, h3, h4, h5⟩ := ih hn'.1 (fun k hk => hact k (by simp [hk])) (fun n h => by have := hs n h; simp at this; simp [this])
    have hl := hact l (by simp)
    set u := ls.foldl (fun t' l => (t'.put ty dst l (f l).1).raise (f l).2) t with hu
    refine ⟨?_, ?_, ?_, ?_, ?_⟩
    · have hp := Task.put_rest u ty dst l (f l).1
      calc (u.put ty dst l (f l).1).raise (f l).2 = (u.withResults (u.put ty dst l (f l).1)).raise (f l).2 := by rw [← hp]
        _ = ((t.withResults u).withResults (u.put ty dst l (f l).1)).raise (f l).2 := by rw [← h1]
        _ = _ := rfl
    · intro r m hm hw
      have : ((u.put ty dst l (f l).1).raise (f l).2).vreg r m = (u.put ty dst l (f l).1).vreg r m := rfl
      rw [this, Task.put_vreg _ _ _ _ _ _ _ act hl.1 hm hl.2 hw, h2 r m hm hw]
    · intro r hr
      have : ((u.put ty dst l (f l).1).raise (f l).2).sreg r = (u.put ty dst l (f l).1).sreg r := rfl
      rw [this, Task.put_sreg _ _ _ _ _ _ hr, h3 r hr]
    · intro k hk
      apply Task.raise_holds
      rcases List.mem_append.1 hk with hk | hk
      · cases hd : dst with
        | v n =>
          have hne : k ≠ l := fun e => hn'.2.2 k hk l (by simp) e
          exact Task.put_holds_ne _ _ _ _ _ _ _ hl.1 (hact k (by simp [hk])).1 hne (hd ▸ h4 k hk)
        | s n => have := hs n hd; simp at this; simp [this] at hk
      · simp only [List.mem_singleton] at hk; subst hk; exact Task.put_holds _ _ _ _ _ hl.1
    · have : (u.put ty dst l (f l).1).fpctl = u.fpctl := Task.put_fpctl _ _ _ _ _
      simp [Task.raise, this, h5]

theorem performLanes_spec (dst : Reg) (act : Mask) :
    (performLanes dst act).Nodup ∧ (∀ l ∈ performLanes dst act, l < 64 ∧ act.getLsbD l = true) ∧
      ∀ n, dst = .s n → (performLanes dst act).length ≤ 1 := by
  have hn : (lanesOf act).Nodup := (List.nodup_range).filter _
  cases dst with
  | v n => exact ⟨hn, fun l hl => mem_lanesOf.1 hl, fun n h => by cases h⟩
  | s n =>
    refine ⟨?_, ?_, fun n _ => ?_⟩
    · unfold performLanes; cases lowest? act <;> simp
    · intro l hl
      unfold performLanes lowest? at hl
      exact mem_lanesOf.1 (List.mem_of_mem_head? (by simpa using hl))
    · unfold performLanes; cases lowest? act <;> simp

/-- An instruction that computes results from its operands completes wherever its task can pay for it. -/
theorem alu_done {s : State} {tid : Nat} {t : Task} {group : Mask} {g : Guard} {len cost : Nat} {plan : Ctx → Plan} (ty : Ty) (dst : Reg)
    (f : Nat → Nat × FFlags) (hi : Issues s tid t group)
    (hp : plan (Ctx.of s t group g len) = (Ctx.of s t group g len).simple cost fun u => u.compute ty dst (t.guarded g group) f)
    (ha : cost ≤ t.alw.toNat) :
    ∃ s', issue s len g plan = .next s' ∧ AluDone s s' tid t group (t.guarded g group) len cost ty dst f := by
  have hid : ∀ u : Task, (u.compute ty dst (t.guarded g group) f).id = u.id := fun u => by
    obtain ⟨h1, h2, h3⟩ := performLanes_spec dst (t.guarded g group)
    have := (Task.computeList_spec ty dst _ f _ h1 h2 h3 u).1
    unfold Task.compute
    rw [this]; rfl
  have hidu : ∀ u : Task, (u.simply cost group len fun u => u.compute ty dst (t.guarded g group) f).id = u.id := fun u => by
    simp [Task.simply, hid]
  refine ⟨_, issue_simple hi.1 hi.2 hp hid ha, ?_⟩
  set u := t.simply cost group len fun u => u.compute ty dst (t.guarded g group) f with hu
  obtain ⟨h1, h2, h3⟩ := performLanes_spec dst (t.guarded g group)
  obtain ⟨e1, e2, e3, e4, e5⟩ := Task.computeList_spec ty dst _ f _ h1 h2 h3 ((t.charge cost 0).countWindows group)
  refine ⟨u, ⟨rfl, ?_, ?_⟩, ?_, ?_, ?_⟩
  · exact State.task?_updTask_self _ hidu hi.2
  · intro j hj; exact State.task?_updTask_ne _ _ _ hidu hj
  · have hr : u = _ := Task.simply_rest (len := len) (f := fun u => u.compute ty dst (t.guarded g group) f) e1
    have hsame : ∀ v : Task, v.compute ty dst (t.guarded g group) f = v.withResults (v.compute ty dst (t.guarded g group) f) := fun v => by
      have := (Task.computeList_spec ty dst _ f _ h1 h2 h3 v).1
      exact this
    have hn := Task.computeList_notes ty dst f (performLanes dst (t.guarded g group)) ((t.charge cost 0).countWindows group)
    refine ⟨?_, ?_, ?_, ⟨?_, ?_⟩, ?_, ?_⟩
    · have h0 : t.held + BitVec.ofNat 64 0 = t.held := by simp
      rw [hr, h0]; rfl
    · exact congrArg Task.alw hr
    · apply Task.simply_lanesMoved t cost group len <;> intro v <;> rw [hsame v] <;> rfl
    · rw [show u.outs = (((t.charge cost 0).countWindows group).compute ty dst (t.guarded g group) f).outs by simp [hu, Task.simply]]
      exact hn.1.congr fun o k => exists_outAt dst ty.wide _ o k
    · rw [show u.sfOps = (((t.charge cost 0).countWindows group).compute ty dst (t.guarded g group) f).sfOps by simp [hu, Task.simply]]
      exact hn.2.congr fun o k => exists_sfAt dst ty.wide _ o k
    · intro r l hl hw
      have : u.vreg r l = (((t.charge cost 0).countWindows group).compute ty dst (t.guarded g group) f).vreg r l := by
        simp [hu, Task.simply, Task.vreg]
      rw [this]; exact e2 r l hl hw
    · intro r hr
      have : u.sreg r = (((t.charge cost 0).countWindows group).compute ty dst (t.guarded g group) f).sreg r := by
        simp [hu, Task.simply, Task.sreg]
      rw [this]; exact e3 r hr
  · intro l hl
    have hv : u.vregs = (((t.charge cost 0).countWindows group).compute ty dst (t.guarded g group) f).vregs := by
      simp [hu, Task.simply]
    have hs : u.sregs = (((t.charge cost 0).countWindows group).compute ty dst (t.guarded g group) f).sregs := by
      simp [hu, Task.simply]
    have := e4 l hl
    unfold Holds Task.vreg Task.sreg at *
    rw [hv, hs]
    exact this
  · have : u.fpctl = (((t.charge cost 0).countWindows group).compute ty dst (t.guarded g group) f).fpctl := by
      simp [hu, Task.simply]
    rw [this]; exact e5

end Sys2Proof.Machine
end

