-- ==== Sys2Proof/Laws/Done.lean ====
section
/-! SUPPORT. The completion of instructions that change only their task. -/

namespace Sys2Proof.Machine

variable {s : State} {tid : Nat} {t : Task} {group : Mask} {g : Guard} {len cost : Nat} {plan : Ctx → Plan}

/-- A task after a simple instruction, where its effect does not read the account or the notes on results. -/
theorem Task.simply_after {f : Task → Task}
    (hf : f ((t.charge cost 0).countWindows group) =
      { f t with alw := t.alw - BitVec.ofNat 64 cost, outs := (t.countWindows group).outs })
    (hl : ∀ t, (f t).lanes = t.lanes ∧ (f t).dset = t.dset ∧ (f t).oset = t.oset) :
    t.After (f t) (t.simply cost group len f) group len cost := by
  refine ⟨?_, ?_⟩
  rotate_left
  · obtain ⟨h1, h2, h3⟩ := Task.simply_lanesMoved t cost group len f (fun t => (hl t).1) (fun t => (hl t).2.1) fun t => (hl t).2.2
    exact ⟨by rw [h1, (hl t).1], by rw [(hl t).1]; exact h2, by rw [(hl t).1, (hl t).2.1, (hl t).2.2]; exact h3⟩
  have h := Task.settle_rest (f ((t.charge cost 0).countWindows group)) group len
  have hr : t.simply cost group len f = (f ((t.charge cost 0).countWindows group)).withLanes (t.simply cost group len f) := h
  rw [hf] at hr
  conv_lhs => rw [hr]
  rfl

/-- A simple instruction completes. -/
theorem simple_done {f : Task → Task} (hi : Issues s tid t group)
    (hp : plan (Ctx.of s t group g len) = (Ctx.of s t group g len).simple cost f) (ha : cost ≤ t.alw.toNat)
    (hid : ∀ t, (f t).id = t.id)
    (hf : f ((t.charge cost 0).countWindows group) =
      { f t with alw := t.alw - BitVec.ofNat 64 cost, outs := (t.countWindows group).outs })
    (hl : ∀ t, (f t).lanes = t.lanes ∧ (f t).dset = t.dset ∧ (f t).oset = t.oset) :
    ∃ s', issue s len g plan = .next s' ∧ TaskDone s s' tid t (f t) group len cost := by
  refine ⟨_, issue_simple hi.1 hi.2 hp hid ha, t.simply cost group len f, ⟨rfl, ?_, ?_⟩, Task.simply_after hf hl⟩
  · exact State.task?_updTask_self _ (fun u => by simp [Task.simply, hid]) hi.2
  · exact fun j hj => State.task?_updTask_ne _ _ _ (fun u => by simp [Task.simply, hid]) hj

theorem Task.charge_zero (t : Task) (cost : Nat) : t.charge cost 0 = { t with alw := t.alw - BitVec.ofNat 64 cost } := by
  simp [Task.charge]

/-- An instruction that only goes on: a NOP, or a uniform instruction with no guard-true lane (R45, R83). -/
theorem idle_done (hi : Issues s tid t group)
    (hp : plan (Ctx.of s t group g len) = .go cost 0 (Ctx.of s t group g len).next) (ha : cost ≤ t.alw.toNat) :
    ∃ s', issue s len g plan = .next s' ∧ TaskDone s s' tid t t group len cost :=
  simple_done (f := id) hi (by rw [hp]; rfl) ha (fun _ => rfl) (by rw [Task.charge_zero]; rfl) fun _ => ⟨rfl, rfl, rfl⟩

/-! ### Instructions that change their task and its lanes -/

/-- The task once an issue has been charged and counted. -/
def Task.paid (t : Task) (cost : Nat) (group : Mask) : Task := (t.charge cost 0).countWindows group

theorem Task.paid_lane (t : Task) (cost : Nat) (group : Mask) (l : Nat) : (t.paid cost group).lane l = t.lane l := by
  simp [Task.paid, Task.lane]

/-- An instruction whose effect changes only its task. -/
theorem go_task {F : Task → Task} (hi : Issues s tid t group)
    (hp : plan (Ctx.of s t group g len) = .go cost 0 fun s => s.updTask t.id F) (ha : cost ≤ t.alw.toNat) (hF : ∀ t, (F t).id = t.id) :
    ∃ s', issue s len g plan = .next s' ∧ OnlyTask s s' tid ((F (t.paid cost group)).settleLanes group) := by
  have hid := State.task?_id hi.2
  refine ⟨_, issue_go hi.1 hi.2 hp (by omega), ?_⟩
  rw [hid, State.updTask_updTask _ _ _ _ fun t => by simp [hF], State.updTask_updTask _ _ _ _ fun t => by simp]
  have hid' : ∀ u : Task, ((F ((u.charge cost 0).countWindows group)).settleLanes group).id = u.id := fun u => by simp [hF]
  exact ⟨rfl, State.task?_updTask_self _ hid' hi.2, fun j hj => State.task?_updTask_ne _ _ _ hid' hj⟩

/-- Where the effect leaves the rest of the task as u shows and its lanes as `lane` says, so does the instruction. -/
theorem Task.ends_of {u v : Task} {lane : Nat → Lane}
    (hv : v = { u with alw := t.alw - BitVec.ofNat 64 cost, lanes := v.lanes, outs := (t.countWindows group).outs })
    (hlen : v.lanes.length = u.lanes.length) (hl : ∀ l, l < u.lanes.length → LeftAs group lane v l) :
    t.Ends u (v.settleLanes group) group cost lane := by
  have hr := Task.settleLanes_rest v group
  refine ⟨?_, Task.settle_ends hlen (by rw [hv]) (by rw [hv]) hl⟩
  exact hr.trans (congrArg (fun x : Task => x.withLanes (v.settleLanes group)) hv)

/-! ### Predicates -/

/-- The task after results in a predicate. -/
def Task.predicate (t : Task) (dst : Fin 8) (act : Mask) (f : Nat → Bool × FFlags) : Task :=
  ((lanesOf act).foldl (fun t l => t.raise (f l).2) t).setPred dst act (maskOf ((lanesOf act).filter fun l => (f l).1))

theorem Task.raiseAll (t : Task) (ls : List Nat) (f : Nat → FFlags) :
    ls.foldl (fun t l => t.raise (f l)) t = { t with fpctl := raised t.fpctl ls f } := by
  induction ls generalizing t with
  | nil => rfl
  | cons l r ih => rw [List.foldl_cons, ih]; rfl

theorem Task.setPred_rest (t : Task) (p : Fin 8) (m v : Mask) : t.setPred p m v = { t with preds := (t.setPred p m v).preds } := by
  unfold Task.setPred; split <;> rfl

theorem Task.predicate_done (hi : Issues s tid t group) (dst : Fin 8) (f : Nat → Bool × FFlags)
    (hp : plan (Ctx.of s t group g len) = (Ctx.of s t group g len).simple cost fun u => u.predicate dst (t.guarded g group) f)
    (ha : cost ≤ t.alw.toNat) :
    ∃ s', issue s len g plan = .next s' ∧ PredDone s s' tid t group (t.guarded g group) len cost dst f := by
  have e : ∀ u : Task, u.predicate dst (t.guarded g group) f =
      { u with preds := (u.predicate dst (t.guarded g group) f).preds, fpctl := raised u.fpctl (lanesOf (t.guarded g group)) fun l => (f l).2 } := by
    intro u
    unfold Task.predicate
    rw [Task.raiseAll, Task.setPred_rest]
  have hpreds : (((t.charge cost 0).countWindows group).predicate dst (t.guarded g group) f).preds =
      (t.predicate dst (t.guarded g group) f).preds := by
    unfold Task.predicate
    rw [Task.raiseAll, Task.raiseAll]
    unfold Task.setPred; split <;> rfl
  obtain ⟨s', h1, h2⟩ := simple_done (f := fun u => u.predicate dst (t.guarded g group) f) hi hp ha (fun u => by rw [e u])
    (by rw [e ((t.charge cost 0).countWindows group), e t, hpreds, Task.charge_zero]; rfl) (fun u => by rw [e u]; exact ⟨rfl, rfl, rfl⟩)
  refine ⟨s', h1, _, h2, e t, ?_⟩
  intro q l hl
  have : ((t.predicate dst (t.guarded g group) f).pred q) =
      if q = dst ∧ dst ≠ 0 then (t.pred dst &&& ~~~(t.guarded g group)) |||
        (maskOf ((lanesOf (t.guarded g group)).filter fun l => (f l).1) &&& (t.guarded g group)) else t.pred q := by
    unfold Task.predicate
    rw [Task.raiseAll, Task.pred_setPred]
    rfl
  rw [this]
  by_cases hq : q = dst ∧ dst ≠ 0
  · obtain ⟨rfl, h0⟩ := hq
    simp only [h0, ne_eq, not_false_iff, and_self, if_true]
    simp only [BitVec.getLsbD_or, BitVec.getLsbD_and, BitVec.getLsbD_not, hl, getLsbD_maskOf _ hl, List.mem_filter, mem_lanesOf]
    cases hact : (t.guarded g group).getLsbD l <;> simp
  · rw [if_neg hq, if_neg (fun h => hq ⟨h.1, h.2.1⟩)]

/-! ### A result in an s register -/

theorem Task.raise_zero (t : Task) : t.raise 0 = t := by simp [Task.raise]

/-- A uniform instruction that writes one 64-bit result completes as an ALU instruction does. -/
theorem uniform_done (hi : Issues s tid t group) (dst : Fin 64) (x : BitVec 64)
    (hp : plan (Ctx.of s t group g len) = (Ctx.of s t group g len).simple cost fun u => u.wrS dst x)
    (hact : t.guarded g group ≠ 0) (ha : cost ≤ t.alw.toNat) :
    ∃ s', issue s len g plan = .next s' ∧
      AluDone s s' tid t group (t.guarded g group) len cost .n64 (.s dst) fun _ => (x.toNat, 0) := by
  apply alu_done _ _ _ hi _ ha
  rw [hp]
  congr 1
  funext u
  have : (performLanes (.s dst) (t.guarded g group)).length = 1 := by
    unfold performLanes
    cases h : lowest? (t.guarded g group) with
    | some l => rfl
    | none =>
      exfalso
      apply hact
      have : lanesOf (t.guarded g group) = [] := by simpa [lowest?] using h
      apply BitVec.eq_of_getLsbD_eq
      intro i hi
      have := (List.filter_eq_nil_iff.1 this) i (by simp [hi])
      simpa using this
  obtain ⟨l, hl⟩ := List.length_eq_one_iff.1 this
  unfold Task.compute
  rw [hl]
  rw [List.foldl_cons, List.foldl_nil, Task.raise_zero, Task.put_s]
  simp [sExtend, Ty.wide]

/-! ### By instruction -/

/-- What a vector-ALU instruction completes with is what its plan computes. -/
theorem computes {i : Instr} {ty : Ty} {dst : Reg} {f : Nat → Nat × FFlags} (hi : Issues s tid t group) (ha : 1 ≤ t.alw.toNat)
    (he : exec i s = issue s len g plan)
    (hp : plan (Ctx.of s t group g len) = (Ctx.of s t group g len).simple 1 fun u => u.compute ty dst (t.guarded g group) f) :
    Computes s tid t group g i len ty dst f := by
  unfold Computes; rw [he]; exact alu_done ty dst f hi hp ha

theorem decides {i : Instr} {dst : Fin 8} {f : Nat → Bool × FFlags} (hi : Issues s tid t group) (ha : 1 ≤ t.alw.toNat)
    (he : exec i s = issue s len g plan)
    (hp : plan (Ctx.of s t group g len) = (Ctx.of s t group g len).simple 1 fun u => u.predicate dst (t.guarded g group) f) :
    Decides s tid t group g i len dst f := by
  unfold Decides; rw [he]; exact Task.predicate_done hi dst f hp ha

end Sys2Proof.Machine
end

