-- ==== Sys2Proof/Laws/Memory.lean ====
section
/-! SUPPORT. Memory: every operation of the memory system keeps the memories canonical (log 2), and what a byte reads as after a write at
its home. -/

namespace Sys2Proof.Machine

variable {s s' : State}

/-! ### The canonical form -/

theorem State.MemOk.of_eq (h : s.MemOk) (h1 : s'.mem = s.mem) (h2 : s'.hostMem = s.hostMem) (h3 : s'.tier = s.tier) : s'.MemOk := by
  unfold State.MemOk; rw [h1, h2, h3]; exact h

theorem memOk_foldl {α : Type} (f : State → α → State) (hf : ∀ s a, s.MemOk → (f s a).MemOk) (l : List α) (h : s.MemOk) :
    (l.foldl f s).MemOk := by
  induction l generalizing s with
  | nil => exact h
  | cons a r ih => exact ih (hf s a h)

theorem State.updTask_memOk (h : s.MemOk) (i : Nat) (f : Task → Task) : (s.updTask i f).MemOk := h.of_eq rfl rfl rfl

theorem State.updCore_memOk (h : s.MemOk) (i : Nat) (f : Core → Core) : (s.updCore i f).MemOk :=
  h.of_eq (by simp) (by simp) (by simp)

theorem State.updVf_memOk (h : s.MemOk) (i : Nat) (f : Vf → Vf) : (s.updVf i f).MemOk := h.of_eq rfl rfl rfl

theorem State.updQueue_memOk (h : s.MemOk) (v q : Nat) (f : Queue → Queue) : (s.updQueue v q f).MemOk := h.of_eq rfl rfl rfl

theorem State.updLaunch_memOk (h : s.MemOk) (i : Nat) (f : Launch → Launch) : (s.updLaunch i f).MemOk := h.of_eq rfl rfl rfl

theorem State.updPly_memOk (h : s.MemOk) (i : BitVec 32) (f : Ply → Ply) : (s.updPly i f).MemOk := h.of_eq rfl rfl rfl

theorem State.count_memOk (h : s.MemOk) (v i : Nat) : (s.count v i).MemOk := State.updVf_memOk h _ _

theorem State.rawSet_memOk (h : s.MemOk) (vf pa : Nat) (b : BitVec 8) : (s.rawSet vf pa b).MemOk := by
  unfold State.rawSet
  split
  · exact ⟨Store.set_wf _ _ _ h.1, h.2.1, h.2.2⟩
  · exact ⟨Store.set_wf _ _ _ h.1, h.2.1, h.2.2⟩
  · exact ⟨h.1, Store.set_wf _ _ _ h.2.1, h.2.2⟩
  · exact h

theorem State.homeSet_memOk (h : s.MemOk) (vf pa : Nat) (b : BitVec 8) : (s.homeSet vf pa b).MemOk := by
  unfold State.homeSet
  split
  · exact h.of_eq rfl rfl rfl
  · exact State.rawSet_memOk h _ _ _

theorem State.homeWrite_memOk (h : s.MemOk) (vf pa n v : Nat) : (s.homeWrite vf pa n v).MemOk := by
  induction n generalizing s pa v with
  | zero => exact h
  | succ n ih => exact ih (State.homeSet_memOk h _ _ _) _ _

theorem State.l2Clean_memOk (h : s.MemOk) (vf line : Nat) : (s.l2Clean vf line).MemOk := by
  unfold State.l2Clean
  split
  · split
    · exact (memOk_foldl _ (fun s i hs => State.rawSet_memOk hs _ _ _) _ h).of_eq rfl rfl rfl
    · exact h
  · exact h

theorem State.l2Drop_memOk (h : s.MemOk) (line : Nat) : (s.l2Drop line).MemOk := h.of_eq rfl rfl rfl

theorem State.corrected_memOk (h : s.MemOk) (vf line : Nat) : (s.corrected vf line).MemOk := by
  unfold State.corrected
  split
  · exact (State.count_memOk h vf 1).of_eq rfl rfl rfl
  · exact h

theorem State.memRead_memOk (h : s.MemOk) (vf line : Nat) : (s.memRead vf line).MemOk := by
  unfold State.memRead
  split
  · exact h
  · exact State.corrected_memOk h _ _

theorem State.walked_memOk (h : s.MemOk) (asid : BitVec 16) (va : Nat) : (s.walked asid va).MemOk :=
  memOk_foldl _ (fun _ _ hs => State.memRead_memOk hs _ _) _ h

theorem State.grantRead_memOk (h : s.MemOk) (asid : BitVec 16) (prin : BitVec 24) (x : BitVec 20) : (s.grantRead asid prin x).MemOk :=
  memOk_foldl _ (fun _ _ hs => State.memRead_memOk hs _ _) _ h

theorem State.markBytes_memOk (h : s.MemOk) (asid : BitVec 16) (va n : Nat) : (s.markBytes asid va n).MemOk := by
  unfold State.markBytes
  split
  · exact h
  · exact State.updTask_memOk h _ _

theorem State.markStore_memOk (h : s.MemOk) (r : Req) : (s.markStore r).MemOk := by
  unfold State.markStore
  split
  · exact h
  · exact memOk_foldl _ (fun _ _ hs => State.markBytes_memOk hs _ _ _) _ h

theorem State.l2Room_memOk (h : s.MemOk) (slice : Nat) : (s.l2Room slice).MemOk := by
  unfold State.l2Room
  extract_lets held first of_
  split
  · exact h
  · split
    · exact State.l2Drop_memOk (State.l2Clean_memOk h _ _) _
    · exact h

theorem State.l2Fill_memOk (h : s.MemOk) (vf line : Nat) (x : BitVec 20) (stream : Bool) : (s.l2Fill vf line x stream).MemOk := by
  unfold State.l2Fill
  split
  · exact h
  · exact h
  · exact h
  · exact (State.l2Room_memOk (State.corrected_memOk h _ _) _).of_eq rfl rfl rfl

theorem State.l2Bypass_memOk (h : s.MemOk) (vf line : Nat) : (s.l2Bypass vf line).MemOk := by
  unfold State.l2Bypass
  extract_lets s1
  have h1 : s1.MemOk := State.corrected_memOk h _ _
  split
  · split
    · exact State.l2Clean_memOk h1 _ _
    · exact h1
  · exact h1

theorem State.hostFlush_memOk (h : s.MemOk) : s.hostFlush.MemOk := memOk_foldl _ (fun _ _ hs => State.l2Clean_memOk hs _ _) _ h

theorem State.released_memOk (h : s.MemOk) (sc : Scope) : (s.released sc).MemOk := by
  unfold State.released
  split
  · exact State.hostFlush_memOk h
  · exact h

theorem State.touch_memOk (h : s.MemOk) (core : Nat) (asid : BitVec 16) (va : Nat) (write : Bool) :
    (s.touch core asid va write).MemOk := by
  unfold State.touch
  split
  · exact h
  · rename_i l _
    extract_lets w0 s0 s1
    have h0 : s0.MemOk := by
      dsimp only [s0]
      split
      · exact h
      · exact State.walked_memOk h _ _
    have h1 : s1.MemOk := by
      by_cases hw : w0 = l.w0
      · simp only [s1, if_pos hw]; exact h0
      · simp only [s1, if_neg hw]; exact State.homeWrite_memOk h0 _ _ _ _
    exact h1.of_eq rfl rfl rfl

theorem State.noteSeal_memOk (h : s.MemOk) (core : Nat) (asid : BitVec 16) (prin : BitVec 24) (x : BitVec 20) :
    (s.noteSeal core asid prin x).MemOk := by
  unfold State.noteSeal
  split
  · exact h
  · exact (State.grantRead_memOk h _ _ _).of_eq rfl rfl rfl

theorem State.vWrite8_memOk (h : s.MemOk) (asid : BitVec 16) (va v : Nat) : (s.vWrite8 asid va v).MemOk := by
  unfold State.vWrite8
  split
  · exact State.homeWrite_memOk h _ _ _ _
  · exact h

theorem State.event_memOk (h : s.MemOk) (vf : Nat) (e : Event) : (s.event vf e).MemOk := by
  unfold State.event
  simp only []
  split
  · exact h
  · split
    · exact State.vWrite8_memOk (State.updVf_memOk h _ _) _ _ _
    · exact State.released_memOk (State.vWrite8_memOk (State.updVf_memOk
        (memOk_foldl _ (fun s i hs => State.vWrite8_memOk hs _ _ _) _ h) _ _) _ _ _) _

theorem State.deny_memOk (h : s.MemOk) (task : Nat) (asid : BitVec 16) (prin : BitVec 24) (va : Nat) (x : BitVec 20) :
    (s.deny task asid prin va x).MemOk :=
  State.event_memOk (State.updTask_memOk (State.count_memOk h _ _) _ _) _ _

theorem State.denied_memOk (h : s.MemOk) (task : Nat) (asid : BitVec 16) (prin : BitVec 24) (va : Nat) (x : BitVec 20) (here : Bool) :
    (s.denied task asid prin va x here).MemOk := by
  unfold State.denied
  split
  · exact State.deny_memOk h _ _ _ _ _
  · exact State.updTask_memOk h _ _

theorem State.ueError_memOk (h : s.MemOk) (task : Nat) (asid : BitVec 16) (prin : BitVec 24) (va : Nat) (x : BitVec 20) :
    (s.ueError task asid prin va x).MemOk :=
  State.event_memOk (State.count_memOk h _ _) _ _

theorem State.writeBack_memOk (h : s.MemOk) (l : L1Line) : (s.writeBack l).MemOk := by
  unfold State.writeBack
  simp only []
  split
  · exact h
  · refine memOk_foldl _ (fun s i hs => ?_) _ (State.l2Fill_memOk h _ _ _ _)
    split
    · exact State.homeSet_memOk hs _ _ _
    · exact hs

theorem State.l1Fill_memOk (h : s.MemOk) (core : Nat) (l : L1Line) (stream : Bool) : (s.l1Fill core l stream).MemOk := by
  unfold State.l1Fill
  simp only []
  split
  · split
    · exact h
    · exact State.updCore_memOk h _ _
  · exact h
  · split
    · exact State.updCore_memOk h _ _
    · apply State.updCore_memOk
      split
      · split
        · exact State.writeBack_memOk h _
        · exact h
      · exact h

theorem State.dropGlobal_memOk (h : s.MemOk) (core : Nat) : (s.dropGlobal core).MemOk := State.updCore_memOk h _ _

theorem State.dropLine_memOk (h : s.MemOk) (core line : Nat) : (s.dropLine core line).MemOk := by
  unfold State.dropLine
  extract_lets s1
  have h1 : s1.MemOk := by
    dsimp only [s1]
    split
    · split
      · exact State.writeBack_memOk h _
      · exact h
    · exact h
  refine State.updCore_memOk ?_ _ _
  exact h1.of_eq rfl rfl rfl

theorem State.dropCopy_memOk (h : s.MemOk) (core line : Nat) : (s.dropCopy core line).MemOk := State.updCore_memOk h _ _

theorem State.l1Store_memOk (h : s.MemOk) (core pa n v : Nat) (d : Bool) : (s.l1Store core pa n v d).MemOk := State.updCore_memOk h _ _

theorem State.serveWrite_memOk (h : s.MemOk) (vf : Nat) (bypass : Bool) (pa n v : Nat) : (s.serveWrite vf bypass pa n v).MemOk := by
  unfold State.serveWrite
  split
  · exact memOk_foldl _ (fun s i hs => State.rawSet_memOk hs _ _ _) _ h
  · exact State.homeWrite_memOk h _ _ _ _

theorem State.setVals_memOk (h : s.MemOk) (task : Nat) (out : Option Nat) (vals : List (Nat × BitVec 64)) :
    (s.setVals task out vals).MemOk := by
  unfold State.setVals
  split
  · exact h
  · exact State.updTask_memOk h _ _

theorem State.unitOf_memOk (h : s.MemOk) (vf line : Nat) (x : BitVec 20) (ms : Bool) (cpol : BitVec 4) (kind : ReqKind) (ty : Ty) :
    (s.unitOf vf line x ms cpol kind ty).1.MemOk := by
  unfold State.unitOf
  extract_lets atomic
  split
  · exact State.l2Drop_memOk (State.l2Clean_memOk h _ _) _
  · split
    · exact State.l2Bypass_memOk h _ _
    · split
      · exact State.memRead_memOk h _ _
      · exact State.l2Fill_memOk h _ _ _ _

theorem State.zeroUnwritten_memOk (h : s.MemOk) (vf : Nat) (bypass : Bool) (n : Nat) (ls : List LaneAcc) :
    (s.zeroUnwritten vf bypass n ls).MemOk :=
  memOk_foldl _ (fun s a hs => by
    split
    · exact hs
    · exact State.serveWrite_memOk hs _ _ _ _ _) _ h

theorem applyLanes_memOk (h : s.MemOk) (vf : Nat) (bypass : Bool) (kind : ReqKind) (ty : Ty) (ls : List LaneAcc) :
    (applyLanes vf bypass kind ty ls s).1.MemOk := by
  induction ls generalizing s with
  | nil => exact h
  | cons a r ih =>
    apply ih
    cases kind
    · exact h
    · exact h
    · exact State.serveWrite_memOk h _ _ _ _ _
    · exact State.serveWrite_memOk h _ _ _ _ _
    · dsimp only
      split
      · exact State.serveWrite_memOk h _ _ _ _ _
      · exact h

theorem State.unstore_memOk (h : s.MemOk) (r : Req) : (s.unstore r).MemOk := by
  unfold State.unstore
  split
  · extract_lets s1
    have h1 : s1.MemOk := memOk_foldl _ (fun _ _ hs => by
      split
      · exact hs
      · exact State.updTask_memOk hs _ _) _ h
    split
    · exact h1
    · exact State.dropCopy_memOk h1 _ _
  · exact h

theorem State.refuseReq_memOk (h : s.MemOk) (r : Req) : (s.refuseReq r).MemOk := State.unstore_memOk (State.setVals_memOk h _ _ _) _

theorem State.performReq_memOk (h : s.MemOk) (r : Req) : (s.performReq r).MemOk := by
  unfold State.performReq
  extract_lets vf va s0 denied
  have h0 : s0.MemOk := h.of_eq rfl rfl rfl
  split
  · exact h0
  · split
    · exact State.refuseReq_memOk (State.denied_memOk h0 _ _ _ _ _ _) _
    · split
      · exact State.refuseReq_memOk (State.ueError_memOk h0 _ _ _ _ _) _
      · have h1 := State.unitOf_memOk h0 vf r.line r.sealId r.ms r.cpol r.kind r.ty
        split
        rename_i s1 beneath heq
        rw [heq] at h1
        extract_lets s2
        have h2 : s2.MemOk := by
          dsimp only [s2]
          split
          · exact State.zeroUnwritten_memOk h1 _ _ _ _
          · exact State.zeroUnwritten_memOk h1 _ _ _ _
          · exact h1
        have h3 := applyLanes_memOk h2 vf beneath r.kind r.ty r.lanes
        split
        rename_i s3 vals heq3
        rw [heq3] at h3
        extract_lets s4
        have h4 : s4.MemOk := by
          apply State.setVals_memOk
          split
          · exact State.markStore_memOk h3 _
          · exact h3
        split
        · exact h4
        · split
          · exact State.l1Fill_memOk h4 _ _ _
          · exact State.l1Fill_memOk h4 _ _ _
          · exact memOk_foldl _ (fun _ _ hs => State.l1Store_memOk hs _ _ _ _ _) _ h4

theorem performPrefix_memOk (h : s.MemOk) (rs : List Req) : (performPrefix rs s).MemOk := by
  induction rs generalizing s with
  | nil => exact h
  | cons r rs ih =>
    unfold performPrefix
    split
    · exact h
    · exact ih (State.performReq_memOk h r)

theorem State.performThrough_memOk (h : s.MemOk) (id : Nat) : (s.performThrough id).MemOk := by
  unfold State.performThrough
  split
  · exact h
  · simp only []
    split
    · exact h
    · exact performPrefix_memOk h _

theorem State.performAll_memOk (h : s.MemOk) (p : Req → Bool) : (s.performAll p).MemOk :=
  memOk_foldl _ (fun _ r hs => State.performThrough_memOk hs r.id) _ h

theorem State.clear_memOk (h : s.MemOk) (core : Nat) (hs : List GAcc) : (s.clear core hs).MemOk := State.performAll_memOk h _

theorem State.ringHeader_memOk (h : s.MemOk) (vf : Nat) : (s.ringHeader vf).MemOk :=
  memOk_foldl _ (fun _ _ hs => State.vWrite8_memOk hs _ _ _) _ (State.vWrite8_memOk (State.vWrite8_memOk h _ _ _) _ _ _)

theorem State.cleanLine_memOk (h : s.MemOk) (core line : Nat) : (s.cleanLine core line).MemOk := by
  unfold State.cleanLine
  split
  · split
    · exact State.updCore_memOk (State.writeBack_memOk h _) _ _
    · exact h
  · exact h

theorem State.copyClean_memOk (h : s.MemOk) (t : Task) (kind : CopyKind) : (s.copyClean t kind).MemOk := by
  unfold State.copyClean
  split
  · exact memOk_foldl _ (fun _ _ hs => State.cleanLine_memOk hs _ _) _ h
  · exact h

/-- A fold of writes keeps the canonical form of a memory. -/
theorem memory_foldl {α : Type} (f : Memory → α → Memory) (hf : ∀ m a, Memory.wf m = true → Memory.wf (f m a) = true) (l : List α) :
    ∀ m, Memory.wf m = true → Memory.wf (l.foldl f m) = true := by
  induction l with
  | nil => exact fun _ h => h
  | cons a r ih => exact fun m h => ih _ (hf m a h)

theorem State.tierMem_wf (s : State) (ranges : List (Nat × Nat)) : Memory.wf (s.tierMem ranges) = true :=
  memory_foldl _ (fun _ _ h => memory_foldl _ (fun m _ hm => by split <;> [exact Store.set_wf _ _ _ hm; exact hm]) _ _ h) _ _ rfl

theorem State.streamImage_memOk (h : s.MemOk) (i : TierImage) : (s.streamImage i).MemOk := by
  have hput : ∀ (m : Memory) (o : Nat) (b : BitVec 8), Memory.wf m = true →
      Memory.wf (match tierAt i.ranges o with | some h => Store.set m h b | none => m) = true := by
    intro m o b hm
    split
    · exact Store.set_wf _ _ _ hm
    · exact hm
  refine ⟨h.1, memory_foldl _ (fun m a hm => hput m _ _ hm) _ _ (memory_foldl _ (fun m a hm => hput m _ _ hm) _ _ ?_), h.2.2⟩
  have hm := (Store.wf_iff (n := 8) s.hostMem).1 h.2.1
  exact (Store.wf_iff (n := 8) _).2 ⟨fun e he => hm.1 e (List.mem_of_mem_filter he), hm.2.filter _⟩

/-! ### What a byte reads as after a write at its home -/

theorem Line.getLsbD_byte (d : Line) (i j : Nat) : (d.byte i).getLsbD j = (decide (j < 8) && d.getLsbD (8 * i + j)) := by
  simp [Line.byte]

theorem Line.getLsbD_low (k : Nat) : (255 : BitVec 1024).getLsbD k = decide (k < 8) := by
  have h : (255 : Nat).testBit k = decide (k < 8) := Nat.testBit_two_pow_sub_one 8 k
  rw [show (255 : BitVec 1024) = BitVec.ofNat 1024 255 from rfl, BitVec.getLsbD_ofNat, h]
  by_cases hk : k < 8
  · simp [hk]; omega
  · simp [hk]

theorem Line.byte_setByte (d : Line) {i : Nat} (hi : i < 128) (b : BitVec 8) : (d.setByte i b).byte i = b := by
  apply BitVec.eq_of_getLsbD_eq
  intro j hj
  simp only [Line.getLsbD_byte, Line.setByte, Line.getLsbD_low, BitVec.getLsbD_or, BitVec.getLsbD_and, BitVec.getLsbD_not, BitVec.getLsbD_shiftLeft,
    BitVec.getLsbD_setWidth]
  have h1 : 8 * i + j < 1024 := by omega
  have h2 : ¬ 8 * i + j < 8 * i := by omega
  have h3 : 8 * i + j - 8 * i = j := by omega
  simp only [h1, h2, h3, hj, decide_true, decide_false]
  simp [show j < 1024 by omega]

theorem Line.byte_setByte_ne (d : Line) {i k : Nat} (b : BitVec 8) (h : k ≠ i) : (d.setByte i b).byte k = d.byte k := by
  apply BitVec.eq_of_getLsbD_eq
  intro j hj
  simp only [Line.getLsbD_byte, Line.setByte, Line.getLsbD_low, BitVec.getLsbD_or, BitVec.getLsbD_and, BitVec.getLsbD_not, BitVec.getLsbD_shiftLeft,
    BitVec.getLsbD_setWidth]
  by_cases h1 : 8 * k + j < 1024
  · by_cases h2 : 8 * k + j < 8 * i
    · simp [h1, h2]
    · have h3 : ¬ 8 * k + j - 8 * i < 8 := by omega
      have h4 := BitVec.getLsbD_of_ge b (8 * k + j - 8 * i) (by omega)
      simp [h1, h2, h3, h4]
  · have h5 := BitVec.getLsbD_of_ge d (8 * k + j) (by omega)
    simp [h1, h5]

theorem State.canon_mod (s : State) (vf pa : Nat) : s.canon vf pa % 128 = pa % 128 := by
  unfold State.canon; split <;> omega

theorem State.zone_homeSet (s : State) (vf pa : Nat) (b : BitVec 8) (qa : Nat) : (s.homeSet vf pa b).zone qa = s.zone qa := by
  unfold State.homeSet State.rawSet; repeat' split
  all_goals rfl

theorem State.canon_homeSet (s : State) (vf pa : Nat) (b : BitVec 8) (v qa : Nat) : (s.homeSet vf pa b).canon v qa = s.canon v qa := by
  unfold State.canon; rw [State.zone_homeSet]

theorem find?_map_line (ls : List L2Line) (f : L2Line → L2Line) (hf : ∀ l, (f l).line = l.line) (k : Nat) :
    (ls.map f).find? (fun l => l.line == k) = (ls.find? fun l => l.line == k).map f := by
  induction ls with
  | nil => rfl
  | cons l r ih => by_cases h : l.line = k <;> simp [hf, h, ih]

/-- The change homeSet makes to a line of L2. -/
def storeInto (line off : Nat) (b : BitVec 8) (l : L2Line) : L2Line :=
  if l.line = line then { l with data := l.data.setByte off b, dirty := true } else l

/-- A byte written at its home reads back there, and every other byte of its virtual function's addresses reads as before. -/
theorem State.homeByte_homeSet (s : State) (vf pa qa : Nat) (b : BitVec 8) (hz : s.zone pa ≠ .reserved) (hp : pa < 2 ^ 52)
    (hq : qa < 2 ^ 52) : (s.homeSet vf pa b).homeByte vf qa = if qa = pa then b else s.homeByte vf qa := by
  have hinj : qa ≠ pa → s.canon vf qa ≠ s.canon vf pa := by
    intro hne he
    unfold State.canon at he
    by_cases h1 : s.zone qa = .host <;> by_cases h2 : s.zone pa = .host <;> simp only [h1, h2, if_true, if_false] at he
    · omega
    · rcases Nat.eq_zero_or_pos vf with rfl | hv
      · omega
      · omega
    · rcases Nat.eq_zero_or_pos vf with rfl | hv
      · omega
      · omega
    · exact hne he
  unfold State.homeByte
  rw [State.canon_homeSet]
  cases hl : s.l2? (lineAddr (s.canon vf pa)) with
  | some l0 =>
    have hs : s.homeSet vf pa b = { s with l2 := s.l2.map (storeInto (lineAddr (s.canon vf pa)) (pa % 128) b) } := by
      simp only [State.homeSet, hl]; rfl
    have hfind : ∀ k, (s.homeSet vf pa b).l2? k = (s.l2? k).map (storeInto (lineAddr (s.canon vf pa)) (pa % 128) b) := by
      intro k
      rw [hs]
      exact find?_map_line _ _ (fun l => by unfold storeInto; split <;> rfl) k
    rw [hfind]
    by_cases hk : qa = pa
    · subst hk
      have hll : l0.line = lineAddr (s.canon vf qa) := by
        have := List.find?_some hl; simpa using this
      simp [storeInto, hl, hll, Line.byte_setByte _ (Nat.mod_lt qa (by decide : 0 < 128))]
    · cases hl' : s.l2? (lineAddr (s.canon vf qa)) with
      | none =>
        have : (s.homeSet vf pa b).rawByte vf qa = s.rawByte vf qa := by rw [hs]; rfl
        simp [this, hk]
      | some l1 =>
        have hll : l1.line = lineAddr (s.canon vf qa) := by
          have := List.find?_some hl'; simpa using this
        by_cases hsame : lineAddr (s.canon vf qa) = lineAddr (s.canon vf pa)
        · have hoff : qa % 128 ≠ pa % 128 := by
            intro ho
            have h1 := State.canon_mod s vf qa
            have h2 := State.canon_mod s vf pa
            have := hinj hk
            unfold lineAddr at hsame
            omega
          simp [storeInto, hll, hsame, hk, Line.byte_setByte_ne _ _ hoff]
        · simp [storeInto, hll, hsame, hk]
  | none =>
    have hs : s.homeSet vf pa b = s.rawSet vf pa b := by simp only [State.homeSet, hl]
    have hl2 : ∀ k, (s.homeSet vf pa b).l2? k = s.l2? k := by
      intro k; rw [hs]; unfold State.rawSet; split <;> rfl
    rw [hl2]
    have hraw : (s.homeSet vf pa b).rawByte vf qa = if qa = pa then b else s.rawByte vf qa := by
      have ha : ∀ x, (s.rawSet vf pa b).hostAddr vf x = s.hostAddr vf x := by
        intro x; unfold State.rawSet; split <;> rfl
      have hzq : (s.homeSet vf pa b).zone qa = s.zone qa := State.zone_homeSet _ _ _ _ _
      unfold State.rawByte
      rw [hzq, hs, ha]
      by_cases hk : qa = pa
      · subst hk
        cases hzz : s.zone qa <;> simp_all [State.rawSet]
      · cases hzz : s.zone qa <;> cases hzp : s.zone pa <;> simp only [State.rawSet, hzp, hk, if_false] <;> first
          | rfl
          | exact Store.get_set_ne _ _ hk
          | skip
        apply Store.get_set_ne
        intro he
        apply hk
        unfold State.zone at hzz hzp
        unfold State.hostAddr at he
        split at hzz <;> [cases hzz; skip]
        split at hzz <;> [cases hzz; skip]
        split at hzz <;> [cases hzz; skip]
        split at hzp <;> [cases hzp; skip]
        split at hzp <;> [cases hzp; skip]
        split at hzp <;> [cases hzp; skip]
        simp only [Nat.shiftRight_eq_div_pow, not_not] at *
        omega
    cases hl' : s.l2? (lineAddr (s.canon vf qa)) with
    | none => exact hraw
    | some l1 =>
      have hk : qa ≠ pa := by rintro rfl; rw [hl] at hl'; cases hl'
      simp [hk]

end Sys2Proof.Machine
end

