-- ==== Sys2Proof/Tests/Slice0.lean ====
section
/-! SUPPORT. Tests: each check of WellFormed refuses a term, words of the spec decode, one step of some instructions, and for each
statement states and operands that meet its hypotheses. -/

namespace Sys2Proof.Tests

set_option Elab.async false

open Sys2Proof Sys2Proof.Machine

def p0 : Guard := { neg := false, p := 0 }
def np0 : Guard := { neg := true, p := 0 }

/-! ### WellFormed: in a kernel with 64 registers and width 16 (R33-R45) -/

/-- The reason of the first check that an instruction fails. -/
def refusal (i : Instr) : Option Nat := ((i.checks 64 16).find? fun c => !c.1).map (·.2)

def a1 : Alu1 := { g := p0, ty := .i32, dst := .v 5, a := .v 3 }
def a2 : Alu2 := { g := p0, ty := .i32, dst := .v 5, a := .v 3, b := .reg (.v 9) }
def a3 : Alu3 := { g := p0, ty := .i32, dst := .v 5, a := .v 3, b := .reg (.v 9), c := .v 4 }
def bf : BitField := { g := p0, ty := .i32, dst := .v 5, a := .v 3, b := .v 0, pos := 4, len := 8 }
def ic : Icmp := { g := p0, ty := .i32, any := false, cond := .lt, dst := 2, a := .v 3, b := .reg (.v 9) }
def fc : Fcmp := { g := p0, ty := .f32, any := false, cond := .lt, dst := 2, a := .v 3, b := .v 9 }
def sl : Sel := { g := p0, ty := .i32, dst := .v 5, a := .v 3, b := .reg (.v 9), p := 1 }
def le : Lea := { g := p0, ty := .i32, dst := .v 6, base := .s 2, index := .v 1, scale := 2, disp := 16 }
def cv : Cvt := { g := p0, ty := .bf16, src := .f32, mode := none, sat := false, dst := .v 3, a := .v 4 }
def pk : Pack := { g := p0, ty := .f16, src := .f32, mode := none, sat := false, half := false, dst := .v 3, a := .v 4, b := .v 5, c := .v 0 }
def uk : Unpk := { g := p0, ty := .f32, src := .f16, idx := 1, dst := .v 3, a := .v 4 }
def vo : Vote := { g := p0, ty := .i32, mode := .any, dst := .s 4, a := .v 3 }
def px : Prfx := { g := p0, ty := .i32, op := .add, excl := false, dst := .v 3, a := .v 4 }
def rd : Redv := { g := p0, ty := .i32, op := .add, dst := 3, a := .v 4 }
def ck : Cpack := { g := p0, ty := .i32, dst := .v 3, a := .v 4, cnt := 7 }
def s1 : Sf1 := { g := p0, ty := .f32, tok := 0, dst := 6, a := .v 4 }
def sd : SfDiv := { g := p0, ty := .f32, tok := 0, mode := none, dst := 6, a := .v 4, b := .v 5 }
def si : SfIdiv := { g := p0, ty := .i32, tok := 0, dst := 6, rem := some 7, a := .v 4, b := .v 5 }
def ad : MemAddr := { base := .s 2, index := .v 1, scale := 2, disp := 16 }
def us : MemAddr := { base := .s 2, index := .s 63, scale := 0, disp := 16 }
def me : Mem := { g := p0, ty := .i32, la := 0, addr := ad, data := .v 4 }
def mu : Mem := { g := p0, ty := .i32, la := 0, addr := us, data := .s 4 }
def ff : Fifo := { g := p0, ty := .i32, la := 0, bank := 3, data := .v 4 }
def am : Atom := { g := p0, ty := .n32, op := .add, ret := true, la := 0, addr := ad, data := .v 4 }
def ca : Cas := { g := p0, ty := .n32, la := 0, addr := ad, data := .v 4, cmp := .v 5 }
def sm : ScopedMem := { g := p0, ty := .n32, scope := .device, la := 0, addr := ad, data := .v 4 }
def tl : Tail := { scope := .core, arrive := none, gate := none, gateGen := 63 }
def tt : TcTile := { g := p0, ty := .e4m3, tile := 10, base := 2, origin := 4, ly := 0, kind := .a, scale := 63, tail := tl }
def tq : TcQnt2 := { g := p0, ty := .e4m3, tile := 10, base := 2, origin := 4, ly := 0, tail := tl }
def tc : TcCopy := { g := p0, dst := 1, src := 0, len := 3, tail := tl }
def tf : TcFill := { g := p0, mode := .tile .f16, dst := 1, const := 0, len := 63, tail := tl }
def ce : CapEnter := { g := p0, dst := 8, cell := .s 2, args := some 16, status := 3, slot := .s 6, code := .s 63 }
def cw : CapWord := { g := p0, dst := 6, base := 2, disp := 0 }
def ma : MxArm := { g := p0, cv := 3, count := 1, desc := 12, ply := 63, gate := none, gateGen := 63 }
def md : MxDrain := { g := p0, ty := .bf16, mode := .tile, tile := 0, zero := false, free := false, dst := 14 }
def mf : MxFill := { g := p0, mode := .tile, tile := 0, src := 14 }
def pm : PgMem := { g := p0, scr := true, ctx := 2, addr := 4 }
def pr : PgRun := { g := p0, trans := false, ctx := 1, dst := 10, limit := 11, cnt := 12 }
def sp : SpawnF := { g := p0, dst := 4, alw := 2, arg0 := 8, argc := 3, entry := 0x400, hint := 0, prio := none, exm := 1 }

/-- The terms above are well formed, each in its instruction. -/
theorem test_wellFormed :
    [Instr.iabs false a1, .iadd a2, .imad a3, .bfx bf, .icmp ic, .fcmp fc, .sel sl, .lea le, .cvt cv, .pack pk, .unpk uk, .vote vo, .prfx px,
      .redv rd, .confl a1, .cpack ck, .sfRcp s1, .sfDiv sd, .sfIdiv si, .ld me, .ldu mu, .fpop ff, .atom am, .cas ca, .lda sm, .tcLoad tt,
      .tcQnt2 tq, .tcCopy tc, .tcFill tf, .capEnter ce, .capProbe cw, .mxArm ma, .mxDrain md, .mxFill mf, .pgLoad pm, .pgRun pr, .spawn sp,
      .dot4 true { a3 with ty := .i8 }, .shfl a2, .stl sm, .pair (.alu2 .iadd { a2 with b := .reg (.v 8) }) (.movi { g := p0, ty := .i32, dst := .v 7, imm := 1 })].all
      (·.wellFormed 64 16) = true := by decide +kernel

/-- Types that an entry does not list (reason 9). -/
theorem test_illformed_types :
    [Instr.iadd { a2 with ty := .f32 }, .imad { a3 with ty := .i8 }, .iabs false { a1 with ty := .n32 }, .and { a2 with ty := .f32 },
      .clz { a1 with ty := .f32 }, .bfx { bf with ty := .i16 }, .icmp { ic with ty := .f32 }, .fcmp { fc with ty := .i32 },
      .lea { le with ty := .n64 }, .dot4 false { a3 with ty := .f16 }, .fadd { a2 with ty := .e4m3 }, .ffma { a3 with ty := .i32 },
      .fneg { a1 with ty := .l6 }, .cvt { cv with ty := .b32 }, .pack { pk with ty := .i32 }, .unpk { uk with ty := .bf16 },
      .fdot2 { a3 with ty := .f32 }, .vote { vo with ty := .f32 }, .prfx { px with ty := .f16 }, .redv { rd with ty := .f16 },
      .confl { a1 with ty := .i8 }, .sfRcp { s1 with ty := .i32 }, .sfDiv { sd with ty := .e5m2 }, .sfIdiv { si with ty := .i8 },
      .ldp { me with ty := .i8, addr := { ad with base := .v 2 } }, .fpop { ff with ty := .i64 }, .atom { am with ty := .f16 },
      .atom { am with op := .min, ty := .f32 }, .cas { ca with ty := .i8 }, .lda { sm with ty := .i16 }, .tcLoad { tt with ty := .f32 },
      .tcQnt2 { tq with ty := .f16 }, .tcFill { tf with mode := .tile .i32 }, .mxDrain { md with ty := .f32 },
      .mxDrain { md with mode := .raw, ty := .bf16 }].all (refusal · == some 9) = true := by decide +kernel

/-- Registers out of range, odd pairs, and destinations of the wrong kind (reason 10). -/
theorem test_illformed_registers :
    [Instr.iadd { a2 with dst := .v 64 }, .iadd { a2 with a := .v 64 }, .iadd { a2 with b := .reg (.v 64) }, .iadd { a2 with ty := .i64 },
      .imad { a3 with c := .v 64 }, .iabs false { a1 with a := .v 70 }, .bfi { bf with b := .v 64 }, .bfx { bf with dst := .v 64 },
      .icmp { ic with a := .v 64 }, .icmp { ic with b := .reg (.v 64) }, .fcmp { fc with b := .v 64 }, .sel { sl with a := .v 64 },
      .sel { sl with b := .reg (.v 64) }, .movi { g := p0, ty := .i64, dst := .v 5, imm := 0 }, .movw { g := p0, ty := .i64, dst := .v 5, imm := 0 },
      .lea { le with dst := .v 5 }, .lea { le with base := .v 3 }, .lea { le with index := .v 64 }, .movsp { g := p0, wide := true, dst := .v 5, num := 0 },
      .cvt { cv with dst := .v 64 }, .cvt { cv with a := .v 64 }, .pack { pk with b := .v 64 }, .unpk { uk with a := .v 64 },
      .shfl { a2 with a := .v 64 }, .vote { vo with a := .v 64 }, .prfx { px with dst := .s 3 }, .prfx { px with a := .v 64 },
      .redv { rd with a := .v 64 }, .confl { a1 with dst := .s 3 }, .confl { a1 with dst := .v 64 }, .cpack { ck with dst := .s 3 },
      .cpack { ck with a := .v 64 }, .sfRcp { s1 with dst := 64 }, .sfDiv { sd with b := .v 64 }, .sfIdiv { si with rem := some 64 },
      .sfIdiv { si with a := .v 64 }, .ld { me with data := .s 4 }, .ld { me with data := .v 64 }, .ld { me with addr := { ad with base := .v 3 } },
      .ld { me with addr := { ad with index := .v 64 } }, .ldp { me with addr := { ad with base := .v 64 } },
      .ldu { mu with addr := { us with base := .v 64 } }, .fpop { ff with data := .s 4 }, .fpop { ff with data := .v 64 },
      .atom { am with data := .v 64 }, .atom { am with addr := { ad with base := .v 3 } }, .atoms { am with addr := { ad with base := .v 64 } },
      .cas { ca with cmp := .v 64 }, .lda { sm with data := .v 64 }, .tcLoad { tt with origin := 5 }, .tcQnt2 { tq with origin := 5 },
      .capEnter { ce with dst := 6 }, .capEnter { ce with cell := .v 3 }, .capEnter { ce with slot := .v 3 }, .capEnter { ce with code := .v 3 },
      .capEnter { ce with args := some 3 }, .capProbe { cw with dst := 7 }, .brx p0 (.v 64) none, .callx p0 64 (.rel 1),
      .callx p0 5 (.reg (.v 64)), .ret p0 (some (.v 64)), .meet p0 (.reg (.v 64)), .elect p0 (.s 3) (some 64), .join p0 5 2,
      .joinany p0 5].all (refusal · == some 10) = true := by decide +kernel

/-- An s destination with a v source, and v operands of uniform accesses (reason 11). -/
theorem test_illformed_uniform :
    [Instr.iadd { a2 with dst := .s 5 }, .imad { a3 with dst := .s 5 }, .iabs false { a1 with dst := .s 5 }, .bfx { bf with dst := .s 5 },
      .bfi { bf with dst := .s 5, a := .s 3 }, .sel { sl with dst := .s 5 }, .lea { le with dst := .s 5 }, .cvt { cv with dst := .s 5 },
      .pack { pk with dst := .s 5 }, .unpk { uk with dst := .s 5 }, .shfl { a2 with dst := .s 5 }, .ldu { mu with data := .v 4 },
      .ldu { mu with addr := { us with base := .v 2 } }, .stu { mu with addr := { us with index := .v 2 } },
      .cctl p0 .clean { us with base := .v 2 }, .probe p0 4 { us with index := .v 2 }, .atom { am with data := .s 4 },
      .cas { ca with data := .s 4, addr := us }].all (refusal · == some 11) = true := by decide +kernel

/-- Immediates and operand fields without a meaning (reason 12). -/
theorem test_illformed_immediates :
    [Instr.bfx { bf with pos := 32 }, .bfx { bf with len := 0 }, .bfx { bf with len := 33 }, .icmp { ic with ty := .b32 },
      .sel { sl with ty := .l6, b := .imm 0x0040 }, .movi { g := p0, ty := .l6, dst := .v 5, imm := 0x4000 },
      .dot4 true { a3 with ty := .e4m3 }, .dot4 false { a3 with ty := .i8, b := .imm 1 }, .fdot2 { a3 with ty := .f16, b := .imm 1 },
      .cvt { cv with src := .b32 }, .pack { pk with src := .i32 }, .pack { pk with half := true }, .pack { pk with c := .v 4 },
      .unpk { uk with src := .i16 }, .unpk { uk with idx := 2 }, .vote { vo with mode := .ballot, dst := .p 2 },
      .prfx { px with op := .add, ty := .b32 }, .redv { rd with op := .and, ty := .f32 }, .sfIdiv { si with rem := some 6 },
      .tcCopy { tc with tail := { tl with scope := .task } }, .tcFill { tf with len := 3 }, .mxArm { ma with count := 0 }, .mxZero p0 0,
      .quant p0 0, .spawn { sp with argc := 0 }, .spawn { sp with arg0 := 62 }, .spawn { sp with entry := 0x402 }, .spawnf sp 0,
      .plynew p0 9 0, .arrive p0 (some .ply) 11 12, .cxBr .always 0 none 0, .cxBr .always 0 none 0x20000, .sysrd p0 4 7].all
      (refusal · == some 12) = true := by decide +kernel

/-- Reserved fields (7), a load-ahead count where none is taken (8), and slots that do not go together (13). -/
theorem test_illformed_fields :
    [Instr.bfx { bf with b := .v 1 }, .movw { g := p0, ty := .i32, dst := .v 5, imm := 0x100000000 }, .cctl p0 .l1all us,
      .atom { am with addr := { ad with disp := 0x400 } }, .cas { ca with addr := { ad with disp := 0x400 } },
      .lda { sm with addr := { ad with disp := 0x400 } }, .tcCopy { tc with tail := { tl with arrive := some 0xFFFF } },
      .tcCopy { tc with tail := { tl with gate := some 0xFFFF } }, .mxArm { ma with gate := some 0xFFFF }, .cxAlu .add 0 1 (some 2) 1].all
      (refusal · == some 7) = true ∧
    [Instr.st { me with la := 1 }, .stu { mu with la := 1 }, .stp { me with la := 1 }, .sts { me with la := 1 }, .fpsh { ff with la := 1 },
      .atom { am with ret := false, la := 1 }, .stl { sm with la := 1 }].all (refusal · == some 8) = true ∧
    [Instr.pair (.alu2 .iadd a2) (.alu2 .isub { a2 with a := .v 6, b := .reg (.v 8) }),
      .pair (.alu2 .iadd a2) (.alu1 .mov { a1 with dst := .v 7, a := .v 5 }),
      .pair (.icmp ic) (.plog { g := p0, dst := 3, a := 2, b := 1, table := 8 }),
      .pair (.alu2 .imul a2) (.alu2 .fmul { a2 with ty := .f32, dst := .v 7, a := .v 4, b := .reg (.v 6) }),
      .pair (.icmp ic) (.fcmp { fc with dst := 3, a := .v 4, b := .v 6 }),
      .pair (.alu2 .iadd a2) (.alu1 .mov { a1 with dst := .v 7, a := .v 13 }),
      .pair (.alu2 .iadd a2) (.alu1 .mov { a1 with dst := .s 7, a := .s 8 })].all (refusal · == some 13) = true := by decide +kernel

/-! ### Words that the spec writes out (each with the instruction that its entry shows), in a kernel with 192 registers and width 16 -/

def dec (w : Nat) : Instr := decode 192 16 0 w

/-- Control (R26, R83-R91). -/
theorem test_decode_control :
    dec 0 = .nop p0 ∧ dec 0x0000003FFFFF4004 = .bra p0 0xFFFFFD ∧ dec 0x14 = .ret p0 none ∧ dec 0x4001800000000018 = .meet p0 (.rel 6) ∧
    dec 0x1C = .meetclr p0 ∧ dec 0x20 = .yield p0 ∧ dec 0x24 = .exit p0 ∧ dec 0x401000000000002C = .quant p0 64 ∧
    dec 0x800000003FC04028 = .elect p0 (.p 1) none := by decide +kernel

/-- Tasks (R119-R124). -/
theorem test_decode_tasks :
    dec 0x00000400031900000000003230B10082 =
      .spawn { g := p0, dst := 4, alw := 2, arg0 := 8, argc := 3, entry := 0x400, hint := 0, prio := some 2, exm := 1 } ∧
    dec 0x000000003532808C = .join p0 10 20 ∧ dec 0x00000031F2324094 = .topup p0 false 9 8 7 ∧ dec 0x00000000003340A0 = .alwrd p0 false 13 ∧
    dec 0x40004000003240A4 = .plynew p0 9 1 := by decide +kernel

/-- Vector-ALU instructions, a guarded immediate, a 12-byte word and a pair (R28-R31, R38, R131-R148). -/
theorem test_decode_alu :
    dec 0x0000000240C14100 = .iadd a2 ∧ dec 0x4001C00000C14100 = .iadd { a2 with b := .imm 7 } ∧
    dec 0x4FF012C002020180 = .fadd { g := { neg := true, p := 3 }, ty := .f32, dst := .v 8, a := .v 8, b := .imm 0x3FC0 } ∧
    dec 0x0000000D0000100302C2818D = .ffma { g := p0, ty := .f32, dst := .v 10, a := .v 11, b := .reg (.v 12), c := .v 13 } ∧
    dec 0x0800000240C08154 = .icmp { g := p0, ty := .i32, any := false, cond := .lt, dst := 2, a := .v 3, b := .reg (.v 9) } ∧
    dec 0x4000040001008154 = .icmp { g := p0, ty := .n32, any := false, cond := .eq, dst := 2, a := .v 4, b := .imm 0 } ∧
    dec 0x000518000100C1AC = .cvt { g := p0, ty := .bf16, src := .f32, mode := some .rtz, sat := false, dst := .v 3, a := .v 4 } ∧
    dec 0x00000040080307880000000002010403 =
      .pair (.alu2 .iadd { g := p0, ty := .i32, dst := .v 4, a := .v 1, b := .reg (.v 2) })
        (.alu2 .fmul { g := p0, ty := .f32, dst := .v 7, a := .v 3, b := .reg (.v 8) }) := by decide +kernel

/-- Cross-lane and special-function instructions (R149-R152, R159, R164). -/
theorem test_decode_crosslane_special :
    dec 0x00003800008101DC = .confl { g := p0, ty := .b32, dst := .v 4, a := .v 2 } ∧
    dec 0x00003831808281CC = .shfldn { g := p0, ty := .b32, dst := .v 10, a := .v 2, b := .reg (.s 6) } ∧
    dec 0x4000C00000000230 = .sfWait p0 3 ∧ dec 0x000010000101820C = .sfExp2 s1 ∧
    dec 0x000050000141C200 = .sfRcp { g := p0, ty := .f32, tok := 1, dst := 7, a := .v 5 } := by decide +kernel

/-- Memory (R165, R185, R189, R196). -/
theorem test_decode_memory :
    dec 0x8004000070810240 = .ld me ∧
    dec 0x8000000070010244 = .st { g := p0, ty := .i32, la := 0, addr := { base := .s 0, index := .v 1, scale := 2, disp := 0 }, data := .v 4 } ∧
    dec 0x00180C3FF03FC24C = .stu { g := p0, ty := .n64, la := 0, addr := { base := .s 0, index := .s 63, scale := 0, disp := 96 }, data := .s 63 } ∧
    dec 0x00000C3FF0314248 = .ldu { g := p0, ty := .n64, la := 0, addr := { base := .s 0, index := .s 63, scale := 0, disp := 0 }, data := .s 5 } ∧
    dec 0x80000000FFC14A50 = .ldp { g := p0, ty := .i32, la := 2, addr := { base := .s 63, index := .v 3, scale := 2, disp := 0 }, data := .v 5 } ∧
    dec 0x800000317FC08254 = .stp { g := p0, ty := .i32, la := 0, addr := { base := .s 63, index := .s 5, scale := 2, disp := 0 }, data := .v 2 } ∧
    dec 0x4005400000000270 = .bankset p0 5 .scratch := by decide +kernel

/-- Atomics and ordering (R248-R254). -/
theorem test_decode_atomics :
    dec 0x8044040070810280 = .atom { am with addr := { ad with disp := 8 } } ∧
    dec 0x80001080B0030288 = .atomd { g := { neg := false, p := 2 }, ty := .f32, op := .add, ret := false, la := 0, data := .v 12
                                      addr := { base := .s 0, index := .v 2, scale := 2, disp := 0 } } ∧
    dec 0x28C = .aflush p0 ∧ dec 0x4009000000000290 = .fence p0 .rel .device ∧
    dec 0x0001043FF0814298 = .stl { g := p0, ty := .n32, scope := .device, la := 0, addr := { base := .s 2, index := .s 63, scale := 0, disp := 0 }
                                    data := .v 5 } := by decide +kernel

/-- Tile copies and arrival words (R297-R307). -/
theorem test_decode_copies :
    dec 0xFFFFFF0210401FE000001C3130B282C2 =
      .tcLoad { tt with tail := { scope := .core, arrive := some 0x210, gate := none, gateGen := 63 } } ∧
    dec 0x00000000314002D4 = .tcLyset p0 false 0 5 ∧
    dec 0xFFFFFFFFFF80000000000030F03042CE =
      .tcCopy { g := p0, dst := 1, src := 0, len := 3, tail := { scope := .device, arrive := none, gate := none, gateGen := 63 } } ∧
    dec 0x0000003231B242DC = .await p0 9 6 8 0 ∧ dec 0x0000000032F342E0 = .awtest p0 13 11 ∧ dec 0x8000003332C002D8 = .arrive p0 none 11 12 := by
  decide +kernel

/-- Capsules: words of a task's stream and of a body (R274-R278). -/
theorem test_decode_capsules :
    dec 0xFFC60300000000000000000430820302 = .capEnter ce ∧ dec 0x0000003FF0B1830C = .capProbe cw ∧
    dec 0x10310 = .illegalInstruction 6 0xFF 0x10310 ∧
    decodeBody 0x10310 = some (.cxGet 4 0) ∧ decodeBody 0x0001500141000324 = some (.cxBr .geu 4 (some 5) 5) ∧
    decodeBody 0x0000403FC101031C = some (.cxAlu .add 4 4 none 1) ∧ decodeBody 0x0000000001000314 = some (.cxPut 0 4) ∧
    decodeBody 0x304 = some .capExitStep ∧ decodeBody 0x308 = some .capAbortStep := by decide +kernel

/-- The matrix engine, the pattern generators and system instructions (R325-R333, R347-R351, R219-R224). -/
theorem test_decode_engines_system :
    dec 0xFFFFFFFF000000000004C00033000342 = .mxArm ma ∧ dec 0x0000C00000000344 = .mxSign p0 3 ∧ dec 0x348 = .mxFence p0 ∧
    dec 0x0000C0000032434C = .mxWait p0 9 3 ∧ dec 0x0000C0000032835C = .mxStep p0 10 3 ∧ dec 0x00000000000000000000180000338356 = .mxDrain md ∧
    dec 0x0000400000000350 = .mxZero p0 1 ∧ dec 0x0000C00000000360 = .mxAbort p0 3 ∧
    dec 0x0000000031008380 = .pgLoad { pm with scr := false } ∧ dec 0x00000000000000018000003332F28386 = .pgRun { pr with trans := true } ∧
    dec 0x0000000031804388 = .pgSave { g := p0, scr := false, ctx := 1, addr := 6 } false ∧ dec 0x4000800000314390 = .pgStat p0 5 2 ∧
    dec 0x4048C000000003C0 = .trap p0 0x123 ∧ dec 0x40000000003103C4 = .sysrd p0 4 0 ∧ dec 0x40000000314003C8 = .syswr p0 5 0 ∧
    dec 0x40000000000003CC = .bkpt p0 0 ∧ dec 0x400C8000000003D0 = .susp p0 50 := by decide +kernel

/-- Words that are no instruction, each with its reason (R44): an unassigned opcode, the wrong form, a reserved bit, a LA count on an
instruction that takes none, an unlisted type, a register beyond N, an instruction across its window. -/
theorem test_decode_illegal :
    decode 64 16 0 0x0000000240C14101 = .illegalInstruction 5 0xFF 0x0000000240C14101 ∧
    decode 64 16 0 0x8000000240C14100 = .illegalInstruction 7 0xFF 0x8000000240C14100 ∧
    decode 64 16 0 0x0000000240C14500 = .illegalInstruction 8 0xFF 0x0000000240C14500 ∧
    decode 64 16 0 0x0000100240C14100 = .illegalInstruction 9 0xFF 0x0000100240C14100 ∧
    decode 8 16 0 0x0000000240C14100 = .illegalInstruction 10 0xFF 0x0000000240C14100 ∧
    decode 64 16 28 0x0000000240C14100 = .illegalInstruction 2 0xFF 0x0000000240C14100 ∧
    decode 64 16 2 0 = .illegalInstruction 1 0xFF 0 := by decide +kernel

/-! ### A small device: one task of 16 lanes in slot 0 of core 0 whose lanes 0 and 1 issue -/

def kn : Kernel := { fetchKernel with w := 16, priv := 64, scr := 131072 }
def key : KKey := kn.key
def bank (m : BankMode) : Bank := { mode := m, owner := some key, fifo := [] }

/-- Banks 0 and 1 are scratch, 2 and 3 FIFOs, the rest caches of the kernel. -/
def core0 : Core :=
  { Core.reset 0 with
    binds := [{ slot := 0, kernel := 1, vf := 0, asid := 1, held := false, since := 0 }]
    banks := [bank .scratch, bank .scratch, bank .fifo, bank .fifo] ++ List.replicate 12 (bank .cache) }

/-- Virtual memory: 256 MiB of plain pages at 0, of capsule pages at 0x10000000, nothing at 0x20000000, read-only pages at 0x30000000. -/
def mem0 : Memory :=
  ((fetchTables 0 []).writeLE 0x12010 16 0x100001AD).writeLE 0x12030 16 0x30000185

def lanesAt (pc : BitVec 32) : List Lane := List.replicate 16 { Lane.start 0 with pc := pc }

/-- The task: s0 = 5, s2 = 0x1000, s3 = 0x40, s4 = 3, s5 = 0x80, s6 = 0x10000000, s7 = 0x2000, s8 = 1, s11 = 0x200, s12 = 0x300;
v1 = lane, v3 = 0x7F, v4 = 2, v9 = 1 in lanes 0 and 1. -/
def t0 : Task :=
  { Task.fresh 1 0 1 5 1 0 16 0x10000000000 1 2 (.placed 0 0) 0 with
    pbase := 0x80000, everPlaced := true
    lanes := lanesAt 0x100
    sregs := [(0, 5), (2, 0x1000), (3, 0x40), (4, 3), (5, 0x80), (6, 0x10000000), (7, 0x2000), (8, 1), (11, 0x200), (12, 0x300)]
    vregs := [(65, 1), (192, 0x7F), (193, 0x7F), (256, 2), (257, 2), (576, 1), (577, 1)] }

/-- The device with a task, whose lanes 0 and 1 issue. -/
def st (t : Task) : State :=
  { State.reset with power := .open_, mem := mem0, kernels := [kn], asds := [{ Asd.reset 1 with rootFrame := 0x10 }], cores := [core0], nextTask := 2
                     tasks := [t], cur := .group t.id 3 }

def s0 : State := st t0

/-- The state that an instruction leads to. -/
def after (i : Instr) (s : State) : State := match exec i s with | .next s' => s' | _ => s

def task (s : State) : Task := (s.task? 1).getD t0

/-- Register v of lane l after an instruction of the small device. -/
def vOf (i : Instr) (r l : Nat) : BitVec 32 := (task (after i s0)).vreg r l
def sOf (i : Instr) (r : Fin 64) : BitVec 64 := (task (after i s0)).sreg r

/-- The fault that an instruction of the small device takes: code, lanes and DETAIL. -/
def faultOf (i : Instr) : Option (BitVec 8 × Mask × BitVec 128) := (task (after i s0)).fault.map fun r => (r.code, r.lmask, r.detail)

/-! ### One step (expected results: the spec's examples, or by hand from its rules) -/

/-- R131's examples, and a wrap. -/
theorem test_integer_elements :
    iaddsE .i8 false 0x7F 0x01 = 0x7F ∧ iaddsE .n8 true 0x02 0x05 = 0 ∧ imulhE .i32 0xFFFFFFFE 0x40000000 = 0xFFFFFFFF ∧
    shlE .i32 1 33 = 0 ∧ sarE .i8 0x80 9 = 0xFF ∧ iaddE .n8 0xFF 1 = 0 := by decide +kernel

/-- R134: BFX.i32 with pos 28 and len 8 on 0x80000000; R131: a shift amount goes into bytes 0 and 2 only. -/
theorem test_fields_and_immediates :
    bfxE .i32 28 8 0x80000000 = 0xFFFFFFF8 ∧ expand .i8 3 = 0x00030003 := by decide +kernel

/-- R142's example: a tie under RNE and RUP, both inexact. -/
theorem test_fadd_tie :
    faddE false .rne .bf16 0x3F80 0x3B80 = (0x3F80, 16) ∧ faddE false .rup .bf16 0x3F80 0x3B80 = (0x3F81, 16) := by decide +kernel

theorem test_iadd : vOf (.iadd a2) 5 0 = 0x80 ∧ vOf (.iadd a2) 5 2 = 0 ∧ (task (after (.iadd a2) s0)).alw = 0xFFFFFFFFFF := by decide +kernel

/-- An s destination runs once and a 32-bit signed result is sign-extended (R127). -/
theorem test_isub_uniform : sOf (.isub { a2 with dst := .s 9, a := .s 0, b := .imm 6 }) 9 = 0xFFFFFFFFFFFFFFFF := by decide +kernel

/-- s63 discards the write (R33). -/
theorem test_s63 : sOf (.mov { a1 with dst := .s 63, a := .s 0 }) 63 = 0 := by decide +kernel

/-- No guard-true lane: nothing but the charge and the PC (R45). -/
theorem test_guard_false :
    vOf (.iadd { a2 with g := np0 }) 5 0 = 0 ∧ ((task (after (.iadd { a2 with g := np0 }) s0)).lane 0).pc = 0x108 := by decide +kernel

theorem test_icmp : (task (after (.icmp { ic with cond := .gt }) s0)).pred 2 = 3 ∧ (task (after (.icmp { ic with dst := 0 }) s0)).preds = [] := by
  decide +kernel

theorem test_pair_reads_before :
    let s := after (.pair (.alu2 .iadd { a2 with dst := .v 3, a := .v 3, b := .reg (.v 9) }) (.movi { g := p0, ty := .i32, dst := .v 8, imm := 7 })) s0
    (task s).vreg 3 0 = 0x80 ∧ (task s).vreg 8 1 = 7 ∧ ((task s).lane 1).pc = 0x110 := by decide +kernel

/-- A branch sends its guard-true lanes alone; a call saves the address behind it (R84, R86). -/
theorem test_control :
    ((task (after (.bra p0 0xFFFFFD) s0)).lane 0).pc = 0xF4 ∧ ((task (after (.bra p0 0xFFFFFD) s0)).lane 2).pc = 0x100 ∧
    (task (after (.bra p0 0xFFFFFD) s0)).bbc = 1 ∧ ((task (after (.call p0 4) s0)).lane 1).link = 0x108 ∧
    faultOf (.ret p0 none) = some (3, 3, 0) := by decide +kernel

/-- MEET takes its target from the PC (R88). -/
theorem test_meet : ((task (after (.meet p0 (.rel 2)) s0)).lane 0).meetAddr = 0x108 := by decide +kernel

/-- A vote, a shuffle and a fold (R149-R151). -/
theorem test_crosslane :
    sOf (.vote { vo with mode := .ballot, a := .v 1 }) 4 = 2 ∧ vOf (.shflx { a2 with a := .v 1, b := .imm 1 }) 5 0 = 1 ∧
    sOf (.redv { rd with a := .v 3 }) 3 = 0xFE := by decide +kernel

/-- A misaligned load, one without a translation, a store to a read-only page (R172, R187). -/
theorem test_memory_faults :
    faultOf (.ld { me with addr := { us with disp := 2 } }) = some (7, 3, 0) ∧
    (faultOf (.ld { me with addr := { base := .s 6, index := .s 6, scale := 0, disp := 0 } })).map (·.1) = some 5 ∧
    (faultOf (.st { me with addr := { base := .s 6, index := .s 6, scale := 1, disp := 0 } })).map (·.1) = some 6 := by decide +kernel

/-- A store is asked for at its line, and lands once it is performed. -/
theorem test_store :
    let s := after (.st { me with addr := us }) s0
    s.reqs.map (·.line) = [0x1000] ∧ s.homeRead 0 0x1010 4 = 0 ∧ (s.performThrough 1).homeRead 0 0x1010 4 = 2 := by decide +kernel

/-- Scratch stores land at once; a range beyond the kernel's scratch is fault 0x08 (R189). -/
theorem test_scratch :
    (((after (.sts { me with addr := { base := .s 3, index := .v 1, scale := 2, disp := 0 } }) s0).core 0).scratchOf key).readLE 0x40 8 = 0x200000002 ∧
    (faultOf (.sts { me with addr := { base := .s 6, index := .s 63, scale := 0, disp := 0 } })).map (·.1) = some 8 := by decide +kernel

/-- A FIFO push waits at its bank; a bank that is no FIFO is fault 0x09 (R192). -/
theorem test_fifo :
    ((after (.fpsh { ff with bank := 2 }) s0).core 0).fifoReqs.map (·.vals) = [[2, 2]] ∧ faultOf (.fpop { ff with bank := 5 }) = some (9, 3, 0) := by
  decide +kernel

/-- An atomic is asked for at its home, and its result is what it found (R227, R250). -/
theorem test_atomic :
    let s := (after (.atom { am with data := .s 9, addr := us }) s0).performThrough 1
    (s.reqs = []) ∧ ((task s).outs.map fun o => o.lanes.map (·.val)) = [[some 0]] := by decide +kernel

/-- SPAWN charges 32 and the allowance and returns a handle; JOIN of no child is INVALID (R119, R120). -/
theorem test_tasks :
    ((after (.spawn sp) s0).tasks.map fun t => (t.id, t.alw)) = [(1, 0x10000000000 - 32 - 0x1000), (2, 0x1000)] ∧
    sOf (.join p0 14 8) 14 = 0x1000000FF := by decide +kernel

/-- TRAP stops the task with its immediate (R219); SYSWR of FPCTL drops the reserved bits (R221). -/
theorem test_system :
    faultOf (.trap p0 0x123) = some (0x13, 3, 0x123) ∧ (task (after (.syswr p0 2 0) s0)).fpctl = 0 ∧
    (task (after (.syswr p0 5 1) s0)).quant = 0x80 ∧ faultOf (.sysrd p0 4 0x40) = some (2, 3, 0) := by decide +kernel

/-- An arrival of 64 bytes at a word with target 64 turns its generation (R290). -/
theorem test_arrival : arrivalWord (64 * 2 ^ 44) 64 .core = 64 * 2 ^ 44 + 2 ^ 89 + 2 ^ 96 ∧ arrivalWord 5 7 .core = 12 := by decide +kernel

/-- A body step moves a payload word into a checkpoint register (R278). -/
theorem test_body_step :
    let b := State.reset.withFetchWord 64 0x0000403FC101031C
    (match step b with | .next s => s.homeRead 0 0x50040 8 | _ => 0) = 1 := by decide +kernel

/-- The first step behind a placed word runs it. -/
theorem test_step_runs :
    (match step (State.reset.withFetchWord 64 0x40000000000003CC) with | .next s => (task s).fault.map (·.code) | _ => none) = some 0x14 := by
  decide +kernel

/-! ### Witnesses: states and operands that meet the hypotheses of each statement -/

/-- The small device issues, with a guard-true lane under p0 and none under its negation. -/
theorem witness_issues : Issues s0 1 t0 3 ∧ 64 ≤ t0.alw.toNat ∧ t0.guarded p0 3 ≠ 0 ∧ t0.guarded np0 3 = 0 :=
  ⟨⟨rfl, by decide +kernel⟩, by decide +kernel, by decide +kernel, by decide +kernel⟩

/-- Any task of the small device with number 1 issues there. -/
theorem issues_st (t : Task) (h : t.id = 1) : Issues (st t) 1 t 3 := by
  refine ⟨by simp [st, h], ?_⟩
  simp [st, State.task?, h]

def quiet (s : State) : Bool := s.tasks.all fun t => t.waits.isEmpty

theorem quiet_nobody {s : State} (h : quiet s = true) : s.NobodyWaits := by
  intro t ht _ w hw
  have := List.all_eq_true.mp h t ht
  simp_all

/-- Nobody waits in the small device, in any of the ways that statements rule out. -/
theorem witness_nobodyWaits : s0.NobodyWaits ∧ (∀ u ∈ s0.tasks, ∀ w ∈ u.waits, False) :=
  ⟨quiet_nobody (by decide +kernel), by simp [s0, st, t0, Task.fresh]⟩

theorem witness_IntegerResults : Issues s0 1 t0 3 ∧ 1 ≤ t0.alw.toNat := ⟨witness_issues.1, by decide +kernel⟩

theorem witness_IntegerElementsAreBitVectors :
    Ty.isInt .i8 = true ∧ 0x80 < 2 ^ (Ty.elem .i8).1 ∧ 0xFF < 2 ^ (Ty.elem .i8).1 ∧ Ty.isInt .n64 = true ∧ 2 ^ 64 - 1 < 2 ^ (Ty.elem .n64).1 := by
  decide +kernel

theorem witness_FloatResults : Issues s0 1 t0 3 ∧ 1 ≤ t0.alw.toNat ∧ Ty.isInt .i8 = true ∧ Ty.isInt .e4m3 = false :=
  ⟨witness_issues.1, by decide +kernel⟩

theorem witness_PredicateResults : Issues s0 1 t0 3 ∧ 1 ≤ t0.alw.toNat := witness_IntegerResults

def sa : Slot := .alu2 .iadd { a2 with b := .reg (.v 8) }
def sb : Slot := .movi { g := p0, ty := .i32, dst := .v 7, imm := 1 }

theorem witness_PairsDoBoth : Issues s0 1 t0 3 ∧ 2 ≤ t0.alw.toNat ∧ pairOk sa sb = true ∧ sa.sets.pdst = none ∧ ¬ slotWrites t0 3 1 0 sa :=
  ⟨witness_issues.1, by decide +kernel, by decide +kernel, by decide +kernel, fun h => absurd h.2 (by decide)⟩

theorem witness_CrossLaneResults : Issues s0 1 t0 3 ∧ 1 ≤ t0.alw.toNat := witness_IntegerResults

theorem witness_VotesAndPacks :
    Issues s0 1 t0 3 ∧ 1 ≤ t0.alw.toNat ∧ t0.guarded np0 3 = 0 ∧ t0.guarded vo.g 3 ≠ 0 ∧ ck.dst = .v 3 ∧ t0.guarded ck.g 3 ≠ 0 :=
  ⟨witness_issues.1, by decide +kernel⟩

/-- For YIELD, lane 2 is runnable outside the group; EXIT leaves lane 2, or ends the last lanes of a task without children. -/
theorem witness_ControlEffects :
    Issues s0 1 t0 3 ∧ 1 ≤ t0.alw.toNat ∧ t0.guarded p0 3 ≠ 0 ∧
    (2 < t0.lanes.length ∧ t0.dset.getLsbD 2 = false ∧ (3 : Mask).getLsbD 2 = false ∧ (t0.lane 2).exited = false ∧ (t0.lane 2).park = .none) ∧
    t0.lanes.length ≤ 64 ∧ (t0.guarded p0 3).getLsbD 2 = false ∧ ∀ c ∈ t0.children, c.final ≠ none ∨ c.paused = false :=
  ⟨witness_issues.1, by decide +kernel⟩

theorem witness_NopOnlyAdvances : Issues s0 1 t0 3 ∧ 1 ≤ t0.alw.toNat ∧ (24 : BitVec 32).toNat % 32 ≤ 24 ∧ 2 ^ 64 % 2 ^ 64 = 0 :=
  ⟨witness_issues.1, by decide +kernel⟩

def tDeep : Task := { t0 with lanes := List.replicate 16 { Lane.start 0x100 with depth := 255 } }
def tCalled : Task := { t0 with lanes := List.replicate 16 { Lane.start 0x100 with depth := 1 } }

/-- Depth 0 for calls, 1 for returns, and both limits. -/
theorem witness_BranchesCallsAndReturns :
    Issues s0 1 t0 3 ∧ (t0.lane 0).depth ≠ 255 ∧ Issues (st tCalled) 1 tCalled 3 ∧ (tCalled.lane 0).depth ≠ 0 ∧
    Issues (st tDeep) 1 tDeep 3 ∧ tDeep.guarded p0 3 ≠ 0 ∧ (tDeep.lane 0).depth = 255 ∧ (t0.lane 0).depth = 0 :=
  ⟨witness_issues.1, by decide +kernel, issues_st _ rfl, by decide +kernel, issues_st _ rfl, by decide +kernel⟩

def tDet : Task := { t0 with det := true }
def tDetLeaf : Task := { tDet with ordinal := 0x0808080808080808 }
def ply0 : Ply := { die := 0, idx := 0, gen := 0, asid := 1, cap := 2, members := [], arrived := [], barrier := 0 }
def sPly (p : Ply) (t : Task) : State := { st t with plies := [p] }
def tPly : Task := { t0 with sregs := t0.sregs.set 10 (ply0.id.setWidth 64) }
def full4 : Task := { tPly with plies := [1, 2, 3, 4] }
def sPlies : State := { s0 with plies := (List.range 256).map fun i => { ply0 with idx := i } }

/-- The reasons of each fault: a deterministic task, one at the last level, a device outside the domain, no room for a ply, no ply number
left, a register that names no ply, a full ply, a task in four plies, a member, and one that is no member. -/
theorem witness_FaultsOfInstructions :
    Issues s0 1 t0 3 ∧ Issues (st tDet) 1 tDet 3 ∧ tDet.det = true ∧ tDet.guarded sp.g 3 ≠ 0 ∧ levelOf tDetLeaf.ordinal = 8 ∧
    t0.det = false ∧ (s0.asd t0.asid).devices.contains 7 = false ∧ 4 ≤ full4.plies.length ∧
    (∀ i, i < 256 → ∃ p ∈ sPlies.plies, p.die = t0.die ∧ p.idx = i) ∧
    (∃ r, (Ctx.of s0 t0 3 p0 8).plyOf 0 = .error r) ∧
    (∃ p, (Ctx.of (sPly { ply0 with cap := 1, members := [9] } tPly) tPly 3 p0 8).plyOf 10 = .ok p ∧ p.cap ≤ p.members.length ∧
      p.members.contains 1 = false) ∧
    (∃ p, (Ctx.of (sPly ply0 full4) full4 3 p0 8).plyOf 10 = .ok p ∧ p.members.length < p.cap ∧ 4 ≤ full4.plies.length) ∧
    ∃ p, (Ctx.of (sPly { ply0 with members := [1] } tPly) tPly 3 p0 8).plyOf 10 = .ok p ∧ p.members.length < p.cap ∧ tPly.plies.length < 4 ∧
      p.members.contains 1 = true :=
  ⟨witness_issues.1, issues_st _ rfl, by and_intros <;> first | decide +kernel | exact ⟨_, rfl⟩ | exact ⟨_, rfl, by decide +kernel⟩⟩

theorem witness_UnguardedUniformInstructions : Issues s0 1 t0 3 ∧ t0.guarded np0 3 = 0 ∧ 64 ≤ t0.alw.toNat :=
  ⟨witness_issues.1, by decide +kernel⟩

def tPoor : Task := { t0 with alw := 0 }
def tPoorPause : Task := { t0 with alw := 0, exmode := .pause, ownExm := .pause, parent := some 9 }

theorem witness_FaultsAndExhaustion :
    s0.task? 1 = some t0 ∧ t0.capLanes = [] ∧ (s0.core t0.core).ring.length = 128 ∧ Issues (st tPoor) 1 tPoor 3 ∧ tPoor.alw = 0 ∧
    tPoor.ownExm = .unwind ∧ tPoor.stop = none ∧ tPoor.isRetired = false ∧ Issues (st tPoorPause) 1 tPoorPause 3 ∧
    tPoorPause.ownExm = .pause ∧ tPoorPause.parent ≠ some 1 ∧ tPoorPause.capLanes = [] :=
  ⟨witness_issues.1.2, by decide +kernel, by decide +kernel, issues_st _ rfl, by decide +kernel, by decide +kernel, by decide +kernel,
    by decide +kernel, issues_st _ rfl, by decide +kernel⟩

def sDom : State := { s0 with asds := [{ Asd.reset 1 with rootFrame := 0x10, devices := [7] }] }

theorem witness_SpawnCreatesChildren :
    Issues s0 1 t0 3 ∧ t0.guarded sp.g 3 ≠ 0 ∧ beyondOrdinals tDet.ordinal ((nextHandles tDet.childCtr tDet.childGen 1).1.map fun h => h.toNat % 65536) = false ∧
    (sDom.asd t0.asid).devices.contains 7 = true ∧ 64 + 1 * (t0.rdS s0.tick sp.alw).toNat ≤ t0.alw.toNat ∧
    (t0.children.filter (·.counted)).length < Config.maxChildren ∧ s0.nextTask ≠ 1 ∧ t0.waits = [] ∧ s0.inboundRefuses 1 1 = false :=
  ⟨witness_issues.1, by decide +kernel⟩

/-- A task with as many counted children as R104 allows. -/
theorem witness_SpawnCreatesChildren_limit : ∃ t : Task, t.id = 1 ∧ Config.maxChildren ≤ (t.children.filter (·.counted)).length :=
  ⟨{ t0 with children := List.replicate 4096 { handle := 0, task := 9, final := none, remainder := 0, paused := false, reported := false, seq := 0
                                               counted := true, remote := false, entries := [] } }, rfl, by
    have h : ∀ n, ((List.replicate n ({ handle := 0, task := 9, final := none, remainder := 0, paused := false, reported := false, seq := 0
                                        counted := true, remote := false, entries := [] } : Child)).filter (·.counted)).length = n := by
      intro n; induction n with
      | zero => rfl
      | succ n ih => simp [List.replicate_succ]
    rw [h]; exact Nat.le_refl _⟩

/-- A child with handle 0 (the value of s1), by its end. -/
def kid (f : Option Final) : Child :=
  { handle := 0, task := 2, final := f, remainder := 7, paused := false, reported := false, seq := 0, counted := true, remote := false, entries := [] }
def tPar (f : Option Final) : Task := { t0 with children := [kid f] }
def tKid : Task := { Task.fresh 2 0 1 5 1 0 16 100 1 2 (.placed 0 1) 0 with parent := some 1, lanes := lanesAt 0 }
def sFam (f : Option Final) (k : Task) : State := { st (tPar f) with tasks := [tPar f, k], nextTask := 3 }

theorem witness_JoinsReportChildren :
    Issues s0 1 t0 3 ∧ 4 ≤ t0.alw.toNat ∧ t0.guarded p0 3 ≠ 0 ∧ t0.waits = [] ∧ t0.child? ((t0.rdS 0 1).setWidth 32) = none ∧
    Issues (sFam (some .done) tKid) 1 (tPar (some .done)) 3 ∧ (tPar (some .done)).child? (((tPar (some .done)).rdS 0 1).setWidth 32) = some (kid (some .done)) ∧
    (kid (some .done)).final = some .done ∧ (kid (some .done)).entries = [] ∧
    Issues (sFam none tKid) 1 (tPar none) 3 ∧ (tPar none).child? (((tPar none).rdS 0 1).setWidth 32) = some (kid none) ∧ (kid none).final = none ∧
    (kid none).paused = false :=
  ⟨witness_issues.1, by decide +kernel, by decide +kernel, by decide +kernel, by decide +kernel, ⟨rfl, by decide +kernel⟩, by decide +kernel,
    by decide +kernel, by decide +kernel, ⟨rfl, by decide +kernel⟩, by decide +kernel⟩

/-- A child that ended, one that runs, and one that is paused. -/
theorem witness_ChildCommands :
    4 + (t0.rdS s0.tick 2).toNat ≤ t0.alw.toNat ∧ t0.child? ((t0.rdS 0 1).setWidth 32) = none ∧
    (tPar (some .done)).child? (((tPar (some .done)).rdS 0 1).setWidth 32) = some (kid (some .done)) ∧ (kid (some .done)).final ≠ none ∧
    (sFam none tKid).task? 2 = some tKid ∧ tKid.paused = false ∧
    (sFam none { tKid with paused := true }).task? 2 = some { tKid with paused := true } ∧ tKid.stop = none ∧ tKid.id ≠ 1 := by decide +kernel

theorem witness_AccountPriorityAndPlies :
    Issues s0 1 t0 3 ∧ 4 ≤ t0.alw.toNat ∧ t0.child? ((t0.rdS s0.tick 1).setWidth 32) = none ∧
    (sFam none tKid).task? 2 = some tKid ∧ (tPar none).child? (((tPar none).rdS 0 1).setWidth 32) = some (kid none) ∧
    t0.plies.length < 4 ∧ ((List.range 256).find? fun i => !s0.plies.any fun p => p.die == t0.die && p.idx == i) = some 0 ∧
    (∃ p, (Ctx.of (sPly ply0 tPly) tPly 3 p0 8).plyOf 10 = .ok p ∧ p.members.length < p.cap ∧ tPly.plies.length < 4 ∧ p.members.contains 1 = false) ∧
    (∃ p, (Ctx.of (sPly { ply0 with members := [1] } tPly) tPly 3 p0 8).plyOf 10 = .ok p ∧ p.members.contains 1 = true ∧
      p.arrived.contains 1 = false) ∧
    ∃ p, (Ctx.of (sPly { ply0 with members := [1], arrived := [1] } tPly) tPly 3 p0 8).plyOf 10 = .ok p ∧ p.members.contains 1 = true ∧
      p.arrived.contains 1 = true :=
  ⟨witness_issues.1, by and_intros <;> first | decide +kernel | exact ⟨_, rfl, by decide +kernel⟩⟩

def okWith {ε α : Type} (r : Except ε α) (p : α → Bool) : Bool := match r with | .ok x => p x | .error _ => false
def errWith {ε α : Type} (r : Except ε α) (p : ε → Bool) : Bool := match r with | .ok _ => false | .error e => p e

theorem canonical {s : State} {vf pa : Nat} (h : s.canon vf pa = pa) : s.Canonical vf pa := h

theorem okWith_iff {ε α : Type} {r : Except ε α} {p : α → Bool} (h : okWith r p = true) : ∃ x, r = .ok x ∧ p x = true := by
  cases r with
  | ok x => exact ⟨x, rfl, h⟩
  | error e => cases h

theorem errWith_iff {ε α : Type} {r : Except ε α} {p : ε → Bool} (h : errWith r p = true) : ∃ e, r = .error e ∧ p e = true := by
  cases r with
  | ok x => cases h
  | error e => exact ⟨e, rfl, h⟩

def c0 : Ctx := Ctx.of s0 t0 3 p0 8

/-- An operation of the special-function unit, one behind it to the same register, and a task with both, or with sixteen. -/
def sfo (id : Nat) : SfOp :=
  { id := id, queue := 0, tok := 0, lanes := 3, group := 3, clob := [], dst := 6, rem := none, ty := .f32, vals := [(0, 1), (1, 2)], rems := [], flags := 0 }
def tSf (l : List SfOp) : Task := { t0 with sfOps := l }
def tTok : Task := { t0 with lanes := List.replicate 16 { Lane.start 0x100 with tok := [(0, 63)] } }

theorem witness_SpecialFunctionsIssue :
    Issues s0 1 t0 3 ∧ 2 ≤ t0.alw.toNat ∧ t0.guarded np0 3 = 0 ∧ t0.guarded p0 3 ≠ 0 ∧
    ((s0.sfQueue t0.core (t0.slot / 4)).length < 16 ∧ ∀ l ∈ lanesOf 3, (t0.lane l).tok.get 0 ≠ 63) ∧
    ¬ (((st (tSf ((List.range 16).map sfo))).sfQueue 0 0).length < 16) ∧ (tTok.lane 0).tok.get 0 = 63 :=
  ⟨witness_issues.1, by decide +kernel⟩

/-- Each case of the division: a zero divisor, the minimum by -1, and any other. -/
theorem witness_IntegerDivisionTruncates :
    (0x80000000 < 2 ^ (Ty.elem .i32).1 ∧ 0xFFFFFFFF < 2 ^ (Ty.elem .i32).1 ∧ Ty.signed .i32 = true ∧ 0x80000000 = 2 ^ ((Ty.elem .i32).1 - 1) ∧
      0xFFFFFFFF = 2 ^ (Ty.elem .i32).1 - 1) ∧
    Issues s0 1 t0 3 ∧ 2 ≤ t0.alw.toNat ∧ (∃ s', exec (.sfIdiv si) s0 = .next s') ∧ ((task (after (.sfIdiv si) s0)).sfOps.length = 1 ∧ t0.sfOps = []) :=
  ⟨by decide +kernel, witness_issues.1, by decide +kernel, ⟨_, rfl⟩, by decide +kernel⟩

theorem witness_SpecialFunctionsDeliver :
    Issues s0 1 t0 3 ∧ (∀ l ∈ lanesOf 3, ∀ k < 8, (1 : BitVec 8).getLsbD k = true → (t0.lane l).tok.get k = 0) ∧
    Issues (st tTok) 1 tTok 3 ∧ tTok.guarded p0 3 ≠ 0 ∧ ¬ (∀ l ∈ lanesOf 3, ∀ k < 8, (1 : BitVec 8).getLsbD k = true → (tTok.lane l).tok.get k = 0) ∧
    ((st (tSf [sfo 0, sfo 1])).sfQueue 0 0)[0]? = some (1, sfo 0) ∧ ((st (tSf [sfo 0, sfo 1])).sfQueue 0 0)[1]? = some (1, sfo 1) ∧
    (sfo 0).id < (sfo 1).id ∧ (tSf [sfo 0]).saving = none ∧ ((sfo 0).vals.map (·.1)).Nodup ∧ (sfo 0).clob = [] ∧
    (sfo 0).rems = [] ∧ ∀ v ∈ (sfo 0).vals, v.1 < 64 :=
  ⟨witness_issues.1, by decide +kernel, issues_st _ rfl, by decide +kernel⟩

/-- Global accesses whose checks pass: a plain load and store of both lanes and of the task, and a store into a capsule page. -/
theorem witness_GlobalAccessesIssue :
    Issues s0 1 t0 3 ∧ okWith (c0.gcheck (c0.loads false .i32 ad) Need.load 4) (fun gs => (c0.shut .load gs).isEmpty) = true ∧
    okWith (c0.gcheck (c0.loads true .i32 us) Need.load 4) (fun _ => true) = true ∧
    okWith (c0.gcheck (c0.stores false .i32 ad (.v 4)) Need.store 4) (fun gs => (c0.capsStore gs).isNone && !c0.capsHeld gs) = true ∧
    okWith (c0.gcheck (c0.stores true .i32 { base := .s 6, index := .s 63, scale := 0, disp := 32 } (.s 4)) Need.store 4)
      (fun gs => (c0.capsStore gs).isNone && !c0.capsHeld gs && (c0.shut Need.store.now gs).isEmpty &&
        gs.all fun a => a.leaf.caps && !a.leaf.bypass && !s0.isUe a.line) = true ∧
    s0.reqs = [] ∧ s0.l2.length + 1 ≤ Config.l2Lines ∧ 4 + ceilDiv ((c0.loads false .i32 ad).length * 4) 8 ≤ t0.alw.toNat ∧ s0.replayable t0 < Config.maxRequests ∧ s0.Canonical 0 0x1010 :=
  ⟨witness_issues.1, by and_intros <;> first | decide +kernel | exact canonical (by decide +kernel)⟩

/-- A lane of a private or scratch access at a negative offset (the base is s63), and one in range. -/
theorem witness_EffectiveAddresses :
    (∀ m ∈ lanesOf c0.act, c0.effAddr false { base := .s 63, index := .s 63, scale := 0, disp := 0xFFFC } m % (Ty.bytes .i32 : Int) = 0) ∧
    1 ∈ lanesOf c0.act ∧ c0.effAddr false { base := .s 63, index := .s 63, scale := 0, disp := 0xFFFC } 1 < 0 ∧
    okWith (c0.scheck .i32 { base := .s 3, index := .v 1, scale := 2, disp := 0 } (lanesOf c0.act)) (fun ls => ls.contains (1, 0x44)) = true := by
  decide +kernel

def sStrict : State := { s0 with asds := [{ Asd.reset 1 with rootFrame := 0x10, strict := true }] }
def la (va : BitVec 64) : List LaneAcc := [laneAcc 0 va 0]

/-- One lane for each fault in the order of R187 (a misaligned address, no translation, a read-only page, a capsule page for an atomic),
one that passes, under STRICT an uncorrectable line, and a failing check for each instruction. -/
theorem witness_MemoryChecksAndFaults :
    ((la 2).map (·.lane)).Nodup ∧ (∀ a ∈ la 2, a.lane < 64) ∧ (2 : BitVec 64).toNat % 4 ≠ 0 ∧
    errWith (s0.xlate 0 1 0x20000000) (fun _ => true) = true ∧ okWith (s0.xlate 0 1 0x30000000) (fun l => l.r && !l.w) = true ∧
    okWith (s0.xlate 0 1 0x10000000) (fun l => l.caps) = true ∧ okWith (s0.xlate 0 1 0x1000) (fun l => l.r && l.w && !l.caps) = true ∧
    (s0.asd 1).strict = false ∧
    errWith (({ c0 with s := { sStrict with ueLines := [0x1000] } } : Ctx).gcheck (la 0x1000) Need.load.now 4) (fun f => f.code == 0x18) = true ∧
    Issues s0 1 t0 3 ∧ errWith (c0.gcheck (c0.loads false .i32 { us with disp := 2 }) Need.load 4) (fun f => f.code == 7) = true ∧
    errWith (c0.gcheck (c0.loads true .i32 { us with disp := 2 }) Need.load 4) (fun f => f.code == 7) = true ∧
    errWith (c0.gcheck (c0.stores false .i32 { us with disp := 2 } (.v 4)) Need.store 4) (fun f => f.code == 7) = true ∧
    errWith (c0.gcheck (c0.stores true .i32 { us with disp := 2 } (.s 4)) Need.store 4) (fun f => f.code == 7) = true ∧
    errWith (c0.pcheck .i32 { us with base := .s 63, disp := 64 } Need.load.now) (fun f => f.code == 4) = true ∧
    errWith (c0.pcheck .i32 { us with base := .s 63, disp := 64 } Need.store.now) (fun f => f.code == 4) = true ∧
    errWith (c0.scheck .i32 { us with base := .s 6 } (lanesOf c0.act)) (fun f => f.code == 8) = true :=
  by and_intros <;> decide +kernel

def priv : MemAddr := { base := .s 63, index := .s 63, scale := 0, disp := 60 }

/-- The last word of the private region, not written yet. -/
theorem witness_PrivateAccesses :
    Issues s0 1 t0 3 ∧ 2 + ceilDiv ((lanesOf c0.act).length * 4) 8 ≤ t0.alw.toNat ∧
    okWith (c0.pcheck .i32 priv Need.load.now) (fun ls => ls.all fun l => l.2.all fun a => match t0.privOff c0.k a.acc.va.toNat with
      | some off => (List.range 4).all fun i => t0.privWritten.get (off + i) == 0 | none => false) = true ∧
    okWith (c0.pcheck .i32 priv Need.store.now) (fun ls => (c0.shut Need.store.now (ls.flatMap (·.2))).isEmpty && ls.all fun l => l.2.all fun a =>
      !s0.isUe a.line && (t0.privOff c0.k a.acc.va.toNat).isSome) = true ∧ s0.replayable t0 < Config.maxRequests :=
  ⟨witness_issues.1, by decide +kernel⟩

def scr4 : MemAddr := { base := .s 3, index := .v 1, scale := 2, disp := 0 }

/-- Two lanes of scratch, one lane of it, and one beyond it. -/
theorem witness_ScratchAccesses :
    Issues s0 1 t0 3 ∧ okWith (c0.scheck .i32 scr4 (lanesOf c0.act)) (fun ls => ls == [(0, 0x40), (1, 0x44)]) = true ∧
    okWith (c0.scheck .i32 scr4 (lowest? c0.act).toList) (fun ls => ls == [(0, 0x40)]) = true ∧
    errWith (c0.scheck .i32 { us with base := .s 6 } (lanesOf c0.act)) (fun f => f.code == 8) = true ∧
    4 + ceilDiv (2 * 4) 8 ≤ t0.alw.toNat ∧ s0.replayable t0 < Config.maxRequests ∧
    (∀ u ∈ s0.tasks, ∀ w ∈ u.waits, ∀ a b d e f, w.kind ≠ .await a b d e f) :=
  ⟨witness_issues.1, by and_intros <;> first | decide +kernel | exact fun u hu w hw => (witness_nobodyWaits.2 u hu w hw).elim⟩

def sFifo (q : FifoReq) (vals : List (BitVec 32)) : State :=
  { s0 with cores := [{ core0 with fifoReqs := [q], banks := listUpd core0.banks 2 fun b => { b with fifo := vals } }] }
def push : FifoReq := { id := 1, task := 1, bank := 2, push := true, vals := [8, 9], lanes := 3, out := 0, dead := false }

/-- A bank that is the kernel's FIFO and one that is not; a push that finds room, a pop that finds values, a pop that finds none. -/
theorem witness_FifoAccesses :
    Issues s0 1 t0 3 ∧ t0.guarded np0 3 = 0 ∧ t0.guarded p0 3 ≠ 0 ∧
    (core0.banks.getD 2 Bank.reset).mode = .fifo ∧ (core0.banks.getD 2 Bank.reset).owner = some t0.kkey ∧ (core0.banks.getD 5 Bank.reset).mode ≠ .fifo ∧
    fifoCost 3 ≤ t0.alw.toNat ∧ s0.replayable t0 < Config.maxRequests ∧
    (∃ b, ((sFifo push []).core 0).banks[2]? = some b ∧ b.mode = .fifo ∧ b.fifo.length + (lanesOf push.lanes).length ≤ 16384) ∧
    ((sFifo push []).core 0).fifoReqs.filter (fun r => r.bank == 2) = [push] ∧
    (∃ b, ((sFifo { push with push := false } [5, 6]).core 0).banks[2]? = some b ∧ (lanesOf push.lanes).length ≤ b.fifo.length) ∧
    ∃ b, ((sFifo { push with push := false } [5]).core 0).banks[2]? = some b ∧ b.fifo.length < (lanesOf push.lanes).length :=
  ⟨witness_issues.1, by and_intros <;> decide +kernel⟩

def line (a : Nat) (priv : Bool) (d : BitVec 128) : L1Line :=
  { way := 4, line := a, data := 0x77, sealId := 0, asid := 1, priv := priv, task := 1, dirty := d }
def sLines : State :=
  { s0 with cores := [{ core0 with l1 := [line 0x1000 true 1] }], l2 := [{ line := 0x1000, data := 3, sealId := 0, dirty := true, stream := false }] }
def sArmed : State := { s0 with cores := [{ core0 with cvs := listUpd core0.cvs 0 fun v => { v with state := .issued, armer := 1 } }] }

/-- PRF of a line that may be read; CCTL with and without a place, a dirty line of both caches; BANKSET of a bank that stays (5 to CACHE), one
that leaves the kernel too few (0 to CACHE), one of another owner, one that enters SCRATCH with a matrix operation in flight. -/
theorem witness_CachesAndBanks :
    Issues s0 1 t0 3 ∧ (∀ l ∈ (s0.core t0.core).l1, l.dirty = 0) ∧ t0.guarded np0 3 = 0 ∧ t0.guarded p0 3 ≠ 0 ∧
    (c0.quiet 0 0x20000000 Need.load.now).isNone = true ∧ ((c0.quiet 0 0x1000 Need.load.now).map GAcc.line) = some 0x1000 ∧
    ((c0.quiet 0 0x1000 .load).map fun a => a.leaf.bypass) = some false ∧ ((sLines.core 0).l1? 0x1000).map (·.priv) = some true ∧ (sLines.l2? 0x1000).map (·.dirty) = some true ∧ sLines.zone 0x1000 ≠ .reserved ∧
    (s0.core 0).banks[5]? = some (bank .cache) ∧ (s0.kernel? t0.asid t0.kernel).isSome = true ∧
    (bank .cache).owner = some t0.kkey ∧ (s0.kernelOf t0).scr ≤ 65536 * (((core0.banksOf t0.kkey .scratch).filter (· ≠ 5)).length + 0) ∧
    ¬ ((s0.kernelOf t0).scr ≤ 65536 * (((core0.banksOf t0.kkey .scratch).filter (· ≠ 0)).length + 0)) ∧
    (sArmed.core 0).copies = [] ∧ ((sArmed.core 0).cv 0).state = .issued ∧ ((sArmed.task? ((sArmed.core 0).cv 0).armer).map (·.kkey)) = some t0.kkey ∧
    16 ≤ t0.alw.toNat :=
  ⟨witness_issues.1, by decide +kernel⟩

def pl (x : BitVec 20) (op : PeerOp) : PeerLine :=
  { dev := 3, asid := 1, prin := 5, va := 0, off := 0x1000, sealId := x, ms := false, cpol := 0, op := op }

/-- An address that translates and one that does not; a peer's line without a seal, for each of its operations, and with one that no table
grants. -/
theorem witness_TranslationAndPeers :
    Issues s0 1 t0 3 ∧ t0.guarded p0 3 ≠ 0 ∧ okWith (s0.xlate 0 1 0x1000) (fun l => l.size < 2 ^ 42) = true ∧
    errWith (s0.xlate 0 1 0x20000000) (fun _ => true) = true ∧ errWith (walk s0 1 0x20000000) (fun _ => true) = true ∧
    okWith (walk s0 1 0x1000) (fun _ => true) = true ∧ s0.tierPending = false ∧ s0.isUe 0x1000 = false ∧ s0.l2? 0x1000 = none ∧
    s0.l2.length < Config.l2Lines ∧ s0.zone 0x1000 ≠ .host ∧
    (∀ op ∈ [.read, .write 1 7, .atomic .add .n32 [{ off := 16, data := 7, cmp := 0 }], .cas .n32 []], (pl 0 op).sealId = 0 ∧ (pl 0 op).ms = false ∧
      s0.canon 0 (lineAddr (s0.deviceNo.toNat * 2 ^ 42 + (pl 0 op).off.toNat)) = 0x1000) ∧
    s0.ceLines.contains 0x1000 = false ∧ (pl 9 .read).sealId ≠ 0 ∧ (grantTable s0 1 5 9).1 = false ∧ (grantTable s0 1 5 9).2 = false ∧ 0 < s0.vfs.length ∧ (s0.vf 0).ringOn = false :=
  ⟨witness_issues.1, by decide +kernel⟩

def out1 (dst : Reg) (open_ : Mask) (v : Option (BitVec 64)) : Out :=
  { id := 9, kind := .memory, pc := 0x100, depth := 0, group := 3, dst := dst, ty := .i32, window := [], open_ := open_, clob := []
    lanes := [{ laneAcc 0 0x1000 0 with val := v }], acq := some .device, isLoad := true }
def tOut (o : Out) : Task := { t0 with outs := [o] }

/-- A result whose value is there, for the last lane, for one lane of two, and one whose value is missing. -/
theorem witness_ResultsReturn :
    (st (tOut (out1 (.v 4) 1 (some 5)))).task? 1 = some (tOut (out1 (.v 4) 1 (some 5))) ∧ (tOut (out1 (.v 4) 1 (some 5))).isPlaced = true ∧
    (tOut (out1 (.v 4) 1 (some 5))).saving = none ∧ (st (tOut (out1 (.v 4) 1 (some 5)))).NobodyWaits ∧
    ((tOut (out1 (.v 4) 1 (some 5))).outs.find? fun p => p.id == 9) = some (out1 (.v 4) 1 (some 5)) ∧
    (out1 (.v 4) 1 (some 5)).open_ &&& ~~~laneBit 0 = 0 ∧ (out1 (.v 4) 3 (some 5)).open_ &&& ~~~laneBit 0 ≠ 0 ∧
    (∀ a ∈ (out1 (.v 4) 1 (some 5)).lanes, a.lane = 0 → a.val ≠ none) ∧ (∃ a ∈ (out1 (.s 4) 1 none).lanes, a.val = none) ∧
    (out1 (.v 4) 1 (some 5)).lanes.Nodup ∧ (st (tOut (out1 (.v 4) 1 (some 5)))).reqs = [] :=
  ⟨by decide +kernel, by decide +kernel, by decide +kernel, quiet_nobody (by decide +kernel), by decide +kernel⟩

def req (k : ReqKind) : Req :=
  { id := 5, inst := 5, core := 0, task := 1, out := some 9, kind := k, ty := .n32, line := 0x1000, cpol := 0, ms := false, bypass := false
    caps := false, stl := false, fill := false, deny := false, peer := false, sealId := 0, seals := [], asid := 1, prin := 5, pc := 0x100, depth := 0, group := 3
    lanes := [{ laneAcc 0 0x1010 7 with pa := 0x1010 }] }
def sReq (s : State) (r : Req) : State := { s with reqs := [r], nextReq := 6 }

/-- Each kind of request, alone at its home; one that would fault under STRICT. -/
theorem witness_RequestsPerformAtTheirHome :
    (∀ k ∈ [ReqKind.store, .atomic .add, .cas], (req k).deny = false ∧ s0.reqDenied (req k) = false ∧ s0.isUe (req k).line = false ∧
      (req k).kind ≠ .load ∧ (req k).kind ≠ .prefetch ∧ (req k).ms = false ∧ (req k).cpol = 0 ∧ s0.zone (req k).line = .hbm ∧
      ∀ a ∈ (req k).lanes, a.mask = BitVec.allOnes 64 ∧ lineAddr a.pa = (req k).line ∧ a.pa % 128 + (req k).ty.bytes ≤ 128) ∧
    s0.l2.length < Config.l2Lines ∧ (s0.vf 0).ringOn = false ∧ s0.Canonical 0 0x1000 ∧ (sReq s0 (req .store)).NobodyWaits ∧ ((sReq s0 (req .store)).reqs.filter fun q => q.id == 5) = [req .store] ∧
    ({ req .store with deny := true } : Req).kind ≠ .prefetch ∧ (sReq s0 (req .store)).instBad (req .store) = false ∧
    (sReq { sStrict with ueLines := [0x1000] } (req .store)).instBad (req .store) = true :=
  by and_intros <;> first | decide +kernel | exact canonical (by decide +kernel) | exact quiet_nobody (by decide +kernel)

theorem witness_DeferredFaultsStop :
    ((sReq s0 (req .load)).reqs.find? fun q => q.id == 5) = some (req .load) ∧ s0.task? 1 = some t0 ∧ (sReq s0 (req .load)).reqBad (req .load) = none ∧
    (sReq { sStrict with ueLines := [0x1000] } (req .load)).reqBad (req .load) ≠ none ∧ t0.isPlaced = true ∧ t0.stop = none ∧ t0.fault = none ∧
    t0.saving = none := by decide +kernel

/-- Both types of the operations on values, a check that fails (a capsule page), an uncorrectable line under STRICT, and one that passes. -/
theorem witness_Atomics :
    Issues s0 1 t0 3 ∧ t0.det = false ∧ 4 + ceilDiv ((c0.stores false .n32 ad (.v 4)).length * 4) 8 ≤ t0.alw.toNat ∧
    okWith (c0.gcheck (c0.stores false .n32 ad (.v 4)) Need.atom 4) (fun gs => (c0.shut .atom gs).isEmpty) = true ∧
    errWith (c0.gcheck (c0.stores false .n32 { ad with base := .s 6 } (.v 4)) Need.atom 4) (fun f => f.code == 6) = true ∧
    errWith (({ c0 with s := { sStrict with ueLines := [0x1000] } } : Ctx).gcheck (c0.stores false .n32 ad (.v 4)) Need.atom 4)
      (fun f => f.code == 0x18) = true ∧ (sStrict.asd 1).strict = true ∧ (s0.asd 1).strict = false ∧ s0.replayable t0 < Config.maxRequests ∧
    2 ^ 32 - 1 < 2 ^ (Ty.elem .i32).1 ∧ 2 ^ 64 - 1 < 2 ^ (Ty.elem .n64).1 :=
  ⟨witness_issues.1, by decide +kernel⟩

def cDet : Ctx := Ctx.of (st tDet) tDet 3 p0 8
def entry (l : Nat) : DEntry :=
  { ordinal := 0x0100000000000000, seq := 0, lane := l, va := 0x1010, pa := 0x1010, sealId := 0, op := .add, ty := .n32, data := 1, cpol := 0, ms := false, core := 0
    spilled := false }
def tFull : Task := { tDet with dentries := (List.range 2048).map entry }
def tBatch : Task := { tDet with dentries := [entry 0, entry 1], waits := [{ lanes := 3, pc := 0x100, len := 8, kind := .aflush }] }

/-- The sequence number spent, no room on chip or in the spill region (a task of no launch has none), and room for both lanes. -/
theorem witness_DeterministicAtomics :
    Issues (st tDet) 1 tDet 3 ∧ tDet.det = true ∧ tDet.guarded p0 3 ≠ 0 ∧ tDet.guarded np0 3 = 0 ∧ am.ret = true ∧ tDet.dseq ≠ BitVec.allOnes 32 ∧
    ({ tDet with dseq := BitVec.allOnes 32 } : Task).dseq = BitVec.allOnes 32 ∧
    okWith (cDet.gcheck (cDet.stores false .n32 ad (.v 4)) Need.atom.now 4) (fun gs =>
      let n := gs.length
      (cDet.shut Need.atom.now gs).isEmpty && Nat.ble n ((st tDet).freeOnChip 0 + (st tDet).freeSpill tDet) &&
      Nat.blt ((st tFull).freeOnChip 0 + (st tFull).freeSpill tFull) n) = true ∧
    (tBatch.det = true ∧ tBatch.dentries ≠ [] ∧ t0.dentries = []) ∧
    (s0.zone (lineAddr (entry 0).pa) = .hbm ∧ s0.l2? (lineAddr (entry 0).pa) = none ∧ s0.l2.length < Config.l2Lines ∧
      (s0.privMask 1 (entry 0).va.toNat 4).toNat % 256 ^ 4 = 256 ^ 4 - 1 ∧ s0.isUe (lineAddr (entry 0).pa) = false ∧ (entry 0).ms = false ∧ s0.canon 0 (entry 0).pa = (entry 0).pa ∧ (entry 0).pa % 128 + 4 ≤ 128) ∧
    (st tBatch).task? 1 = some tBatch ∧ (∃ w, tBatch.waits = [w] ∧ w.kind = .aflush) ∧ (st tBatch).NobodyWaits ∧ (st tBatch).reqs = [] :=
  have h : (st tBatch).NobodyWaits := by
    intro t ht _ w hw
    simp only [st, List.mem_singleton] at ht
    subst ht
    simp only [tBatch, List.mem_singleton] at hw
    subst hw
    trivial
  ⟨issues_st _ rfl, by and_intros <;> first | decide +kernel | exact ⟨_, rfl, rfl⟩ | exact h⟩

def sStores : State := sReq s0 { req .store with id := 4, inst := 4 }

/-- A store of the core in flight to this device, a load of the task in flight, and none. -/
theorem witness_ReleasesAndAcquires :
    Issues s0 1 t0 3 ∧ 4 + ceilDiv (2 * 4) 8 ≤ t0.alw.toNat ∧ t0.guarded p0 3 ≠ 0 ∧ t0.guarded np0 3 = 0 ∧ s0.releaseSet 0 1 .device = [] ∧
    sStores.releaseSet 0 1 .device = [4] ∧ sStores.releaseSet 0 1 .core = [] ∧ (sReq s0 (req .load)).releaseSet 0 1 .core = [5] ∧
    (sReq s0 (req .load)).reqs.any (·.own 1) = true ∧
    okWith (c0.gcheck (c0.stores false .n32 ad (.v 4)) Need.store 4) (fun gs => (c0.capsStore gs).isNone && !c0.capsHeld gs) = true ∧
    s0.replayable t0 < Config.maxRequests :=
  ⟨witness_issues.1, by decide +kernel⟩

/-- A layout of e4m3 elements over an empty space, and one of f32. -/
def ly (fmt : BitVec 8) : Layout :=
  { base := 0, stride := [4, 512, 0, 0], ext := [0, 0, 0, 0], clipq := 0, clipp := 0, fmt := fmt, flags := 0, sstr := 0 }
def sLy (fmt : BitVec 8) (copies : List CopyOp) : State :=
  { s0 with cores := [{ core0 with lysets := [{ task := 1, regs := some (ly fmt) :: List.replicate 7 none, savedAt := none }], copies := copies }] }
def c16 (s : State) : Ctx := Ctx.of s t0 3 p0 16
def copy (kind : CopyKind) : CopyOp :=
  { id := 0, task := 1, core := 0, kernel := key, asid := 1, prin := 5, pc := 0x100, depth := 0, group := 3, kind := kind, lyNum := 0, scope := .core, arrive := none
    gate := none, gate0 := none, started := true, reserved := 8 }

/-- The tile at s3 = 0x40 is misaligned, at s5 = 0x80 it passes, at s6 it lies beyond the kernel's scratch; bytes of each copy. -/
theorem witness_Copies :
    Issues s0 1 t0 3 ∧ t0.guarded p0 3 ≠ 0 ∧ ((sLy 7 []).core 0).layout? 1 0 = some (ly 7) ∧
    (c16 (sLy 7 [])).tileChecks { tt with tile := 5, base := 2, origin := 63 } 0x80 0x1000 (ly 7) = none ∧
    ((c16 (sLy 7 [])).tileChecks { tt with tile := 3, base := 2, origin := 63 } 0x40 0x1000 (ly 7)).isSome = true ∧
    (c16 (sLy 4 [])).qntChecks { tq with tile := 5, origin := 63 } 0x80 0x1000 (ly 4) = none ∧
    (0 < (t0.rdS 0 2).toNat ∧ (t0.rdS 0 2).toNat ≤ 2 ^ 40 ∧ (t0.rdS 0 63).toNat = 0 ∧ 2 ^ 40 < (0x10000000001 : BitVec 64).toNat) ∧
    (c16 s0).tailFault tl = none ∧ (t0.rdS 0 3).toNat + (t0.rdS 0 2).toNat ≤ (s0.kernelOf t0).scr ∧
    ((t0.rdS 0 5).toNat % 128 = 0 ∧ (t0.rdS 0 5).toNat + 8448 ≤ (s0.kernelOf t0).scr) ∧ (s0.core 0).layout? 1 0 = none ∧
    ((t0.rdS 0 3).toNat % 128 ≠ 0 ∧ (s0.kernelOf t0).scr < (t0.rdS 0 6).toNat + 8448) ∧
    32 ≤ ((sLy 7 (List.replicate 32 (copy (.fillScratch 0 0 8)))).core 0).copies.length ∧
    (∃ r ∈ sStores.reqs, r.task = 1 ∧ r.kind ≠ .load) ∧ 8 + 2112 ≤ t0.alw.toNat :=
  ⟨witness_issues.1, by decide +kernel⟩

def w48 : Nat := 7 * 2 ^ 336
def sRec : State :=
  { s0 with mem := Store.writeLE mem0 0x1000 48 w48, cores := [{ core0 with scratch := [(key, Store.writeLE [] 0x40 48 w48)] }] }

/-- A sound record at s3 = 0x40 in scratch and at s2 = 0x1000 in memory. -/
theorem witness_LayoutsAndConflicts :
    Issues sRec 1 t0 3 ∧ t0.guarded p0 3 ≠ 0 ∧ (∀ x ∈ (sRec.core 0).lysets, x.regs.length = 8) ∧ (t0.rdS 0 3).toNat % 16 = 0 ∧
    (t0.rdS 0 3).toNat + 48 ≤ (sRec.kernelOf t0).scr ∧ (Layout.ofNat (sRec.scrRead 0 1 key 0x40 48)).fault 0 = none ∧
    okWith ((Ctx.of sRec t0 3 p0 8).gcheck ((List.range 6).map fun i => laneAcc 0 (BitVec.ofNat 64 (0x1000 + 8 * i)) 0)
      Need.load.now 8) (fun gs => ((Layout.ofNat ((Ctx.of sRec t0 3 p0 8).greadAll gs sRec).1).fault 0).isNone) = true :=
  ⟨⟨rfl, by decide +kernel⟩, by decide +kernel⟩

def sWord (v : Nat) : State := { s0 with cores := [{ core0 with scratch := [(key, Store.writeLE [] 0x40 16 v)] }] }
def awaitWait : Wait := { lanes := 3, pc := 0x100, len := 8, kind := .await 0x40 8 9 2 0 }
def tAwait : Task := { t0 with waits := [awaitWait] }

/-- An arrival word that is aligned, one that is not, one beyond scratch (s6); a reached and an unreached generation (s8 = 1); an amount of
2^44 (none of the registers of the small device), and both sides of a timeout of 2 times 64 cycles. -/
theorem witness_ArrivalWords :
    (64 * 2 ^ 44 + 63 < 2 ^ 128 ∧ bits (64 * 2 ^ 44 + 63) 44 44 ≠ 0 ∧ bits 5 44 44 = 0) ∧ Issues s0 1 t0 3 ∧ t0.guarded p0 3 ≠ 0 ∧ 2 ≤ t0.alw.toNat ∧
    ((t0.rdS 0 3).toNat % 16 = 0 ∧ (t0.rdS 0 3).toNat + 16 ≤ (s0.kernelOf t0).scr ∧ (t0.rdS 0 0).toNat % 16 ≠ 0 ∧
      (s0.kernelOf t0).scr < (t0.rdS 0 6).toNat + 16) ∧
    (t0.rdS 0 2).toNat < 2 ^ 44 ∧ 2 ^ 44 ≤ (({ t0 with sregs := [(0, 0x100000000000)] } : Task).rdS 0 0).toNat ∧
    s0.releaseSet 0 1 .core = [] ∧ sStores.releaseSet 0 1 .system ≠ [] ∧
    reached (((sWord (2 ^ 96)).core 0).scratchOf key) 0x40 ((t0.rdS 0 8).setWidth 32) = true ∧
    reached ((s0.core 0).scratchOf key) 0x40 ((t0.rdS 0 8).setWidth 32) = false ∧ s0.replayable t0 < Config.maxRequests ∧
    (st tAwait).task? 1 = some tAwait ∧ tAwait.isPlaced = true ∧ tAwait.waits = [awaitWait] ∧ awaitWait.lanes.getLsbD 1 = true ∧
    ¬ (64 * 2 ≤ ((127 : BitVec 64) - 0).toNat) ∧ 64 * 2 ≤ ((128 : BitVec 64) - 0).toNat :=
  ⟨by decide +kernel, witness_issues.1, by decide +kernel⟩

def sCopy (o : CopyOp) : State := sLy 7 [o]
def fill (n : Nat) : CopyOp := copy (.fillScratch 0x80 5 n)

/-- A fill of 3 bytes that has not started, one that has, one behind its gate; a copy whose effect meets no translation. -/
theorem witness_EngineOperations :
    (sCopy (fill 3)).copy? 0 0 = some (fill 3) ∧ (fill 3).core = 0 ∧ (fill 3).started = true ∧ ({ fill 3 with started := false } : CopyOp).gate = none ∧
    ({ fill 3 with started := false } : CopyOp).startFault s0 = none ∧ (fill 3).arrive = none ∧ (sCopy (fill 3)).task? 1 = some t0 ∧
    ({ fill 3 with gate := some (0x40, 1) } : CopyOp).gate.isSome = true ∧
    (∃ f, (copy (.store .f16 .a 0x80 0 [0, 0, 0, 0] (ly 7) 0)).startFault s0 = some f) ∧
    okWith ((fill 3).effect false (sCopy (fill 3))) (fun _ => true) = true ∧
    errWith ((copy (.copy 0x20000000 0x1000 8)).effect false (sCopy (copy (.copy 0x20000000 0x1000 8)))) (fun _ => true) = true ∧
    t0.isPlaced = true ∧ t0.stop = none ∧ t0.fault = none ∧ t0.saving = none ∧ (sCopy (fill 3)).NobodyWaits ∧ (sCopy (fill 3)).reqs = [] ∧
    (∀ p ∈ ((sCopy (fill 3)).core 0).copies, p.id = 0 → p = fill 3) :=
  by and_intros <;> first | decide +kernel | exact ⟨_, rfl⟩ | exact quiet_nobody (by decide +kernel)

/-! ### Capsules -/

def capLane (stage : CapStage) : CapLane :=
  { lane := 0, cellVa := 0x10000000, cell := 0x10000000, slotVa := 0x2000, code := some 0x40000, args := [], seq := 0, stage := stage, mark := none
    next := 0x40000 }
def capWait (stage : CapStage) : Wait := { lanes := 1, pc := 0x100, len := 16, kind := .capEnter 8 3 [capLane stage] }
def tCap (stage : CapStage) : Task := { t0 with waits := [capWait stage] }

/-- The cell in a state, with an owner, an epoch and an executor whose lane 0 is at a stage; its body at 0x40000 is one word. -/
def sCap (stage : CapStage) (state owner epoch : Nat) : State :=
  { st (tCap stage) with
    mem := Store.writeLE (Store.writeLE (Store.writeLE mem0 0x10000000 8 (ownerWord owner state 0)) 0x10000008 8 (epoch + 5 * 2 ^ 40)) 0x40000 8 0x304
    cur := .body 1 0 }

theorem quiet_cap (stage : CapStage) (state owner epoch : Nat) : (sCap stage state owner epoch).NobodyWaits := by
  intro t ht _ w hw
  simp only [sCap, st, List.mem_singleton] at ht
  subst ht
  simp only [tCap, List.mem_singleton] at hw
  subst hw
  trivial

/-- Checks that pass (cell s6, slot s7) and that fail (cell s2 is no capsule page); an epoch that is open, one whose slot holds another
epoch, and one whose slot holds its own. -/
theorem witness_CapsuleEntry :
    Issues s0 1 t0 3 ∧ 8 ≤ t0.alw.toNat ∧ t0.replayCap = [] ∧ (∀ w ∈ t0.waits, w.kind.isCap = false) ∧
    (Ctx.of s0 t0 3 np0 16).act = 0 ∧ (c16 s0).act ≠ 0 ∧
    okWith ((c16 s0).capChecks ((lanesOf (c16 s0).act).map ((c16 s0).capArgs { ce with cell := .s 6, slot := .s 7 }))) (fun gs =>
      gs.all fun a => !(c16 s0).cellBad a.2) = true ∧
    errWith ((c16 s0).capChecks ((lanesOf (c16 s0).act).map ((c16 s0).capArgs { ce with cell := .s 2, slot := .s 7 }))) (fun f => f.code == 6) = true ∧
    s0.replayable t0 < Config.maxRequests ∧
    (sCap (.displaced 1) 1 9 1).task? 1 = some (tCap (.displaced 1)) ∧ (tCap (.displaced 1)).canIssue = true ∧
    (tCap (.displaced 1)).capOf 0 = some (capWait (.displaced 1), capLane (.displaced 1)) ∧
    ((sCap (.displaced 1) 1 9 1).cell 0 0x10000000).state = 1 ∧ ((sCap (.displaced 1) 1 9 1).cell 0 0x10000000).count = 1 ∧
    ((sCap (.displaced 1) 0 0 1).cell 0 0x10000000).state = 0 ∧
    okWith ((Ctx.of (sCap (.displaced 1) 0 0 1) (tCap (.displaced 1)) 1 p0 16).gcheck
      ((List.range 3).map fun i => laneAcc 0 (0x2000 + BitVec.ofNat 64 (8 * i)) 0) Need.load.now 8)
      (fun gs => ((Ctx.of (sCap (.displaced 1) 0 0 1) (tCap (.displaced 1)) 1 p0 16).greadAll gs (sCap (.displaced 1) 0 0 1)).1 / 2 ^ 128 % 2 ^ 40 == 0) = true :=
  ⟨witness_issues.1, by decide +kernel⟩

/-- A contender at a cell of each state, with a lease that runs and one that has run out. -/
theorem witness_CellsAreGranted :
    (∀ st ∈ [0, 1, 2, 3], (sCap .waiting st 9 1).contender 0x10000000 = some (1, capLane .waiting) ∧
      ((sCap .waiting st 9 1).cell 0 0x10000000).state = st) ∧
    s0.contender 0x10000000 = none ∧ (sCap .waiting 0 0 0).task? 1 = some (tCap .waiting) ∧
    (0x10000000 % 256 = 0 ∧ (sCap .waiting 0 0 0).canon 0 0x10000000 = 0x10000000 ∧ (sCap .waiting 0 0 0).zone 0x10000000 ≠ .reserved) ∧
    ({ sCap .waiting 1 9 1 with leases := [(0x10000000, 4096)] } : State).leases.find? (fun x => x.1 == 0x10000000) = some (0x10000000, 4096) ∧
    (sCap .waiting 1 9 1).clock.toNat < (4096 : BitVec 64).toNat + (sCap .waiting 1 9 1).gatedFor 9 (4096 - BitVec.ofNat 64 Config.leaseCycles) ∧
    (0 : BitVec 64).toNat + (sCap .waiting 1 9 1).gatedFor 9 (0 - BitVec.ofNat 64 Config.leaseCycles) ≤ (sCap .waiting 1 9 1).clock.toNat := by
  decide +kernel

theorem cellAt_small (s : State) (h1 : s.canon 0 0x10000000 = 0x10000000) (h2 : s.zone 0x10000000 ≠ .reserved) : s.CellAt 0 0x10000000 :=
  ⟨by decide, h1, h2⟩

def sBody : State := sCap (.own 1) 1 1 1
def bodyIs (s : State) (p : Body → Bool) : Bool := match s.body? 1 0 with | some b => p b | none => false

theorem bodyIs_iff {s : State} {p : Body → Bool} (h : bodyIs s p = true) : ∃ b, s.body? 1 0 = some b ∧ p b = true := by
  unfold bodyIs at h
  split at h
  · exact ⟨_, by assumption, h⟩
  · cases h

/-- A lane that holds its cell with an account that covers a step, one whose account does not, one whose cell is gone; a load that may be
read and one without a translation. -/
theorem witness_BodySteps :
    sBody.cur = .body 1 0 ∧ sBody.CellAt 0 0x10000000 ∧
    bodyIs sBody (fun b => b.live && b.vf == 0 && b.l.cell == 0x10000000 && b.l.lane == 0 && Nat.ble 2 b.c.t.alw.toNat && b.l.stage == .own 1) = true ∧
    bodyIs sBody (fun b => okWith (b.c.gcheck [laneAcc 0 0x1000 0] Need.load.now 8) fun gs =>
      gs.all fun a => !b.c.denied Need.load.now a && !({ b.c with t := { b.c.t with prin := BitVec.ofNat 24 b.cell.prin } } : Ctx).denied
        Need.load.now a) = true ∧
    bodyIs sBody (fun b => errWith (b.c.gcheck [laneAcc 0 0x20000000 0] Need.load.now 8) fun f => f.code == 5) = true ∧
    bodyIs { sBody with tasks := [{ tCap (.own 1) with alw := 1 }] } (fun b => Nat.blt b.c.t.alw.toNat 2) = true ∧
    bodyIs (sCap (.own 1) 1 9 2) (fun b => !b.live && Nat.ble 2 b.c.t.alw.toNat) = true :=
  ⟨by decide +kernel, cellAt_small _ (by decide +kernel) (by decide +kernel), by decide +kernel⟩

/-- An end with no store in flight and with one, and an account that does not cover it. -/
theorem witness_BodiesEnd :
    sBody.cur = .body 1 0 ∧ sBody.CellAt 0 0x10000000 ∧ bodyIs sBody (fun b => b.live && b.l.mark == none && Nat.ble 4 b.c.t.alw.toNat && b.l.stage == .own 1) = true ∧
    sBody.releaseSet 0 1 .device = [] ∧ (∃ i ∈ (sReq sBody { req .store with id := 4 }).releaseSet 0 1 .device, i < 6) ∧ (sBody.asd 1).strict = false ∧
    bodyIs { sBody with tasks := [{ tCap (.own 1) with alw := 3 }] } (fun b => Nat.blt b.c.t.alw.toNat 4) = true :=
  ⟨by decide +kernel, cellAt_small _ (by decide +kernel) (by decide +kernel), by decide +kernel⟩

def cw6 : CapWord := { cw with base := 6 }

/-- The cell at s6 BROKEN and FREE; its two words. -/
theorem witness_CapsuleWords :
    Issues s0 1 t0 3 ∧ c0.act ≠ 0 ∧ 4 ≤ t0.alw.toNat ∧ okWith (s0.xlate 0 1 0x10000000) (fun l => l.caps) = true ∧
    okWith (c0.gcheck [laneAcc 0 0x10000000 0] Need.cell 256) (fun gs =>
      match gs with | [a] => !c0.cellBad a && a.acc.pa == 0x10000000 | _ => false) = true ∧
    s0.releaseSet 0 1 .device = [] ∧ sStores.releaseSet 0 1 .device ≠ [] ∧ s0.CellAt 0 0x10000000 ∧
    ((sCap .waiting 3 0 1).cell 0 0x10000000).state = 3 ∧ (s0.cell 0 0x10000000).state = 0 ∧ (t0.rdS 0 6).toNat % 16 = 0 ∧
    okWith (c0.gcheck [laneAcc 0 0x10000000 0, laneAcc 0 0x10000008 0] Need.load.now 8) (fun _ => true) = true :=
  have h : s0.CellAt 0 0x10000000 := cellAt_small _ (by decide +kernel) (by decide +kernel)
  ⟨witness_issues.1, by and_intros <;> first | decide +kernel | exact h.1 | exact h.2.1⟩

/-! ### Engines and system -/

/-- A 64 × 64 × 128 product of e4m3 tiles at 0x4000 and 0x8000 into accumulator 0. -/
def desc0 : BitVec 512 :=
  BitVec.ofNat 512 (7 * 2 ^ 8 + 7 * 2 ^ 16 + 64 * 2 ^ 32 + 64 * 2 ^ 48 + 128 * 2 ^ 64 + 2 ^ 104 + 0x4000 * 2 ^ 192 + 0x8000 * 2 ^ 256)
def cv0 (state : CvState) : Cv := { Cv.reset with state := state, desc := desc0, armer := 1, need := 1, reserved := 16 }
def sMx (v : Cv) (running : Option Nat) (owners : List (Option Nat)) : State :=
  { s0 with cores := [{ core0 with
    scratch := [(key, ((Store.writeLE [] 0x40 64 desc0.toNat).writeLE 0x6000 2 7).writeLE 0xA000 2 0x107)]
    cvs := v :: List.replicate 15 Cv.reset, running := running, tileOwner := owners ++ List.replicate (16 - owners.length) none }] }
def tAll : Task := { t0 with lanes := (List.replicate 2 { Lane.start 0x100 with pc := 0x100 }) ++ List.replicate 14 { Lane.start 0 with exited := true } }
def mxr (fin : Option MxEnd) : MxRec := { core := 0, cv := 0, epoch := 0, tiles := 1, armer := true, ops := [], waited := false, fin := fin }
def tMx (fin : Option MxEnd) : Task := { t0 with mxRecs := [mxr fin] }

theorem witness_MatrixOperationsAreArmedAndSigned :
    (let s := sMx Cv.reset none []
     let d := Desc.of (BitVec.ofNat 512 (s.scrRead 0 1 key 0x40 64))
     Issues s 1 t0 3 ∧ t0.guarded p0 3 ≠ 0 ∧ (s.core 0).tileOwner.length = 16 ∧ 0 < (s.core 0).cvs.length ∧ (t0.rdS 0 3).toNat = 0x40 ∧
       0x40 + 64 ≤ (s.kernelOf t0).scr ∧ d.malformed = false ∧ d.beyond 0 = false ∧ ((s.core 0).cv 0).state = .idle ∧
       (Ctx.of s t0 3 p0 16).foreignTile d.tileMask = none ∧ (Ctx.of (sMx Cv.reset none [some 9]) t0 3 p0 16).foreignTile d.tileMask = some 0 ∧
       ((Ctx.of s t0 3 p0 16).armPattern d 0).isNone = true ∧ ((Ctx.of s t0 3 p0 16).armPly { ma with cv := 0, desc := 3 }).isNone = true ∧
       ma.gate = none ∧ 16 + d.bound ≤ t0.alw.toNat) ∧
    ((sMx (cv0 .armed) none []).core 0).cv 0 = cv0 .armed ∧ (3 : Mask) ≠ t0.unexited ∧ (3 : Mask) = tAll.unexited ∧
    (∃ u, (st tAll).task? (cv0 .armed).armer = some u ∧ u.asid = tAll.asid) ∧ (cv0 .armed).ply = none ∧ 1 ∉ (cv0 .armed).signers ∧
    (cv0 .armed).signers.length < (cv0 .armed).need ∧ 1 ∈ ({ cv0 .armed with signers := [1] } : Cv).signers ∧
    t0.mxRecs.find? (fun r => r.cv == 0) = none ∧ (∀ f ∈ [none, some MxEnd.done, some .aborted, some .cancelled, some (.fault 0x0C 7)],
      (tMx f).mxRecs.find? (fun r => r.cv == 0) = some (mxr f)) ∧ t0.isPlaced = true ∧ t0.fault = none ∧ (s0.tasks.map (·.id)).Nodup ∧
    (cv0 .armed).armer ≠ 2 ∧ (cv0 .armed).started = false ∧ (cv0 .armed).signers.length + 1 = (cv0 .armed).need ∧
    (cv0 .armed).signers.length + 1 ≠ ({ cv0 .armed with need := 2 } : Cv).need ∧ (cv0 .paused).state = .paused ∧
    (cv0 .paused).signers.length < (cv0 .paused).need ∧ ∀ u ∈ s0.tasks, u.waits = [] :=
  ⟨⟨⟨rfl, by decide +kernel⟩, by decide +kernel⟩, by decide +kernel, by decide +kernel, by decide +kernel, ⟨tAll, by decide +kernel, by decide +kernel⟩, by decide +kernel⟩

def iss : Cv := { cv0 .issued with issued := 3 }

/-- A tile of the task and one of another; each form of MX.DRAIN and MX.FILL; an operation ready to start with its headers right and wrong, one
in its first, a middle and its last step, one that is through. -/
theorem witness_MatrixTilesAndSteps :
    (let s := sMx Cv.reset none [some 1, some 9]
     Issues s 1 t0 3 ∧ t0.guarded p0 3 ≠ 0 ∧ (s.core 0).tileOwner.length = 16 ∧ (s.core 0).tiles.length = 16 ∧ md.ty.isTile = true ∧
       (s.core 0).tileOwner.getD 0 none = some 1 ∧ (s.core 0).tileOwner.getD 1 none ≠ some 1 ∧ (s.core 0).tileOwner.getD 2 none = none ∧
       (t0.rdS 0 5).toNat % 128 = 0 ∧ (t0.rdS 0 5).toNat + 32768 ≤ (s.kernelOf t0).scr ∧ 4104 ≤ t0.alw.toNat ∧
       okWith ((Ctx.of s t0 3 p0 16).gcheck ((Ctx.of s t0 3 p0 16).imageAccs 0x1000 2 fun _ => 0) Need.store.now 8)
         (fun gs => ((Ctx.of s t0 3 p0 16).capsStore gs).isNone) = true ∧
       Ty.ofCode (s.scrRead 0 1 key 0x6000 1) = some .e4m3 ∧ Ty.isTile .e4m3 = true ∧ s.scrRead 0 1 key 0x6001 1 < 3 ∧ 0x4000 % 128 = 0) ∧
    (let s := sMx iss none []
     (s.core 0).running = none ∧ ((s.core 0).cv 0).state = .issued ∧ ((s.core 0).cv 0).gate = none ∧ (∀ j < 16, j ≠ 0 → ((s.core 0).cv j).state ≠ .issued) ∧
       (Desc.of iss.desc).headersOk ((s.core 0).scratchOf key) none = true ∧ (Desc.of iss.desc).headersOk [] none = false ∧
       (s.armerKernel 0 0).key = key) ∧
    (Desc.of iss.desc).stepCount none = 16 ∧ ((Desc.of iss.desc).stepAt none 0).map (·.block) = some 0 ∧
    ((Desc.of iss.desc).stepAt none 1).map (·.block) = some 0 ∧ ((Desc.of iss.desc).stepAt none 15).map (·.block) = some 0 ∧
    (Desc.of iss.desc).stepAt none 16 = none ∧ (Desc.of iss.desc).tiles * (Desc.of iss.desc).nb = 1 ∧
    ((sMx { iss with started := true } (some 0) []).core 0).running = some 0 :=
  ⟨⟨⟨rfl, by decide +kernel⟩, by decide +kernel⟩, by decide +kernel⟩

/-- The banded pattern of spec/17_patterns.md, and a cursor after its first run of ten. -/
def band : Nat := 0x08010008 + 0x10002002 * 2 ^ 32 + 0x18000000 * 2 ^ 64 + 0x58000000 * 2 ^ 96
def gBand : GCtx := { GCtx.reset with owner := some 1, words := wordsOf band, state := 1 }
def sPg (m : Nat) (g : GCtx) : State :=
  { s0 with mem := Store.writeLE mem0 0x1000 96 m, cores := [{ core0 with scratch := [(key, Store.writeLE [] 0x40 96 m)], gens := List.replicate 8 g }] }
def t10 : Task := { t0 with sregs := t0.sregs.set 10 10 }

/-- spec/17_patterns.md, 'A band, forward and transposed': the first run of ten delivers rows 0 to 9, charges 18 and leaves OUTER at 10. -/
theorem test_pattern_run :
    let s := after (.pgRun { pr with ctx := 1, dst := 5, limit := 10, cnt := 12 }) { sPg band gBand with tasks := [t10] }
    ((s.core 0).scratchOf key).readLE (0x80 + 40) 8 = 0x0000000500020005 ∧ (task s).sreg 12 = 10 ∧ t0.alw - (task s).alw = 18 ∧
    ((s.core 0).gen 1).outer = 10 ∧ ((s.core 0).gen 1).count = 10 := by decide +kernel

theorem witness_PatternInstructions :
    Issues (sPg band GCtx.reset) 1 t0 3 ∧ t0.guarded p0 3 ≠ 0 ∧ 2 < ((sPg band GCtx.reset).core 0).gens.length ∧
    ((t0.rdS 0 3).toNat % 64 = 0 ∧ (t0.rdS 0 3).toNat + 96 ≤ (s0.kernelOf t0).scr ∧ (t0.rdS 0 2).toNat % 64 = 0) ∧
    ((((sPg band { gBand with owner := some 9 }).core 0).gen 2).owner = some 9) ∧ (((sPg band { gBand with busy := true }).core 0).gen 2).busy = true ∧
    (((sPg band GCtx.reset).core 0).gen 2).owner = none ∧ (((sPg band GCtx.reset).core 0).gen 2).state = 0 ∧
    okWith (parseProgram (wordsOf ((sPg band GCtx.reset).scrRead 0 1 key 0x40 64))) (fun _ => true) = true ∧
    errWith (parseProgram (wordsOf 0)) (fun e => e == (3, 0)) = true ∧
    okWith ((Ctx.of (sPg band GCtx.reset) t0 3 p0 8).gcheck ((Ctx.of (sPg band GCtx.reset) t0 3 p0 8).imageAccs 0x1000 12 fun _ => 0)
      Need.load.now 8) (fun gs =>
        okWith (parseProgram (wordsOf ((Ctx.of (sPg band GCtx.reset) t0 3 p0 8).greadAll gs (sPg band GCtx.reset)).1)) fun _ => true) = true ∧
    okWith ((Ctx.of s0 t0 3 p0 8).gcheck ((Ctx.of s0 t0 3 p0 8).imageAccs 0x1000 12 fun _ => 0)
      Need.store.now 8) (fun gs => ((Ctx.of s0 t0 3 p0 8).capsStore gs).isNone) = true ∧
    okWith (parseProgram (wordsOf (ofBytesLE gBand.image))) (fun p => (GCtx.ofImage 1 (ofBytesLE gBand.image) p).isSome) = true ∧
    gBand.state ≠ 0 ∧ okWith gBand.program (fun p => (p.wide.isNone && (((gBand.runFrom false).remaining p).take 10).length == 10 &&
      (List.range 10).all fun j => match ((gBand.runFrom false).remaining p)[j]? with
        | some b => !undeliverable ((gBand.runFrom false).count.toNat + j) b | none => false)) = true ∧
    (t0.rdS 0 5).toNat % 8 = 0 ∧ (t0.rdS 0 5).toNat + 8 * 10 ≤ (s0.kernelOf t0).scr ∧ 16 ≤ t0.alw.toNat :=
  ⟨⟨rfl, by decide +kernel⟩, by decide +kernel⟩

/-- Every number of SYSRD, its both ends included, and SEALCNT with a load that waits for its far end; SUSP with a special-function operation
outstanding, and with nothing. -/
theorem witness_SystemInstructions :
    Issues s0 1 t0 3 ∧ t0.guarded p0 3 ≠ 0 ∧ 8 ≤ t0.alw.toNat ∧ (s0.core 0).ring.length = 128 ∧ 7 ≤ (7 : BitVec 8).toNat ∧ 7 ≤ (255 : BitVec 8).toNat ∧
    t0.isPlaced = true ∧ t0.saving = none ∧ t0.stop = none ∧ (tSf [sfo 0]).sfOps ≠ [] ∧ t0.outs = [] ∧ t0.sfOps = [] ∧ t0.waits = [] ∧
    (∀ r ∈ s0.reqs, r.task ≠ 1) ∧ t0.capLanes = [] ∧ (∀ n ∈ [0, 1, 2, 3, 4, 5, 6], (n : BitVec 8).toNat < 7) ∧
    (let s := sReq { sStrict with ueLines := [0x1000] } (req .load)
     Issues s 1 t0 3 ∧ ((s.performAll fun r => r.task == 1 && r.kind ≠ .store).reqs.any fun r => r.task == 1 && r.kind ≠ .store) = true) :=
  by and_intros <;> decide +kernel

def sv (delay : Nat) : Saved := { clock := 0, core := 0, slot := 0, susp := false, delay := delay, gens := [], tiles := [], unwaited := 0 }
def tSaved (delay : Nat) : Task := { t0 with place := .saved, saved := some (sv delay) }

/-- No task, a task that is not saved, a delay that has not passed and one that has. -/
theorem witness_SystemInstructions_delay :
    s0.task? 9 = none ∧ s0.task? 1 = some t0 ∧ t0.saved = none ∧ (tSaved 1).saved = some (sv 1) ∧ (s0.clock - (sv 1).clock).toNat < (sv 1).delay ∧
    (sv 0).delay ≤ (s0.clock - (sv 0).clock).toNat := by decide +kernel

/-! ### Firmware, supervisor, host -/

/-- The small device without a private region, with tasks that wait; slot 0 of core 40 is bound too. -/
def sTasks (ts : List Task) : State :=
  { st t0 with tasks := ts, nextTask := 9, kernels := [{ kn with priv := 0 }]
               cores := [core0, { Core.reset 40 with binds := core0.binds }] }
def tAt (id : Nat) (p : Place) : Task := { t0 with id := id, place := p }
def credit : Credit := { parent := 1, child := 0, amount := 8, res := true, lanes := 3 }
def topWait : Wait := { lanes := 3, pc := 0x100, len := 8, kind := .topup 9 }
def sCredit (c : List Child) (k : List Task) : State :=
  { s0 with tasks := { t0 with children := c, waits := [topWait] } :: k, credits := [credit] }

/-- Two records of which one is placed; a record of another die; a credit for no child, for an ended one and for one that runs, has stopped
or pauses; a task that starves, and none. -/
theorem witness_PlacementAndCredits :
    (let s := sTasks [tAt 1 (.distQ 0), { tAt 2 (.distQ 0) with arrival := 5 }]
     s.placeable (.dist 0) = some (tAt 1 (.distQ 0), 0, 0) ∧ s.task? 1 = some (tAt 1 (.distQ 0)) ∧ s.pbaseOk (tAt 1 (.distQ 0)) 0 = true ∧
       s.pbaseOk (tAt 1 (.distQ 0)) 4096 = false ∧ s.placeable .dispatcher = none) ∧
    (let s := sTasks [tAt 1 (.distQ 1), tAt 3 (.placed 40 0)]
     let b : Bind := { slot := 0, kernel := 1, vf := 0, asid := 1, held := false, since := 0 }
     (s.core 0).binds = [b] ∧ b.slot ∈ s.freeSlots 0 1 b.vf b.asid ∧ s.oldest 0 b = none ∧ s.oldest 1 b = some (tAt 1 (.distQ 1))) ∧
    (let s := sCredit [] []
     s.credits[1]? = none ∧ s.credits[0]? = some credit ∧ ∃ p, s.task? 1 = some p ∧ p.child? 0 = none ∧
       (p.waits.find? fun w => w.lanes == credit.lanes && (match w.kind with | .topup _ => true | _ => false)) = some topWait) ∧
    (∀ f ∈ [some Final.done, none], ∃ p, (sCredit [kid f] [tKid]).task? 1 = some p ∧ p.child? 0 = some (kid f)) ∧
    (kid (some .done)).final ≠ none ∧ (kid none).final = none ∧ (sCredit [kid none] []).task? 2 = none ∧ (kid none).task ≠ credit.parent ∧
    (∀ k ∈ [{ tKid with place := .retired }, { tKid with stop := some .faulted }, tKid, { tKid with paused := true }],
      (sCredit [kid none] [k]).task? 2 = some k) ∧
    ({ tKid with place := .retired } : Task).isRetired = true ∧ tKid.isRetired = false ∧ tKid.stop = none ∧ tKid.paused = false ∧
    tKid.pendingReplays = [] ∧ tKid.deferred = [] ∧ tKid.deferredCopies = [] ∧
    ((sCredit [kid none] [tKid]).tasks.all fun u => u.waits.all fun w => match w.kind with | .mxWait _ _ => false | _ => true) = true ∧
    (let s : State := { s0 with clock := 2 ^ 40, cores := [{ core0 with slim := 64 }] }
     (s.spindle 0 0).gated = none ∧ s.starved 0 0 ≠ [] ∧ 0 < (s.core 0).spindles.length ∧ s.starved 0 1 = []) := by
  refine ⟨by decide +kernel, by decide +kernel, ⟨by decide +kernel, by decide +kernel, _, rfl, by decide +kernel⟩, ?_, by decide +kernel⟩
  intro f hf
  exact ⟨{ t0 with children := [kid f], waits := [topWait] }, by simp [sCredit, State.task?, t0, Task.fresh], by simp [Task.child?, kid]⟩

def tEnded : Task := { t0 with lanes := List.replicate 16 { Lane.start 0 with exited := true } }
def rec0 (code : BitVec 8) : FaultRec := { FaultRec.zero with code := code, pc := 0x100, lmask := 3, gmask := 3, addr := 0x5000 }
def tSave (o : Out) : Task := { tOut o with saving := some 0 }

/-- A task that may retire, one that may not, a remote child; a task with something outstanding and one without; a load that has been out
3,500 cycles, alone and beside another, and one that has not; a context that may resume, with a record and without. -/
theorem witness_RetirementAndSaving :
    s0.task? 9 = none ∧ (st tEnded).task? 1 = some tEnded ∧ tEnded.handlerFor = none ∧ (st tEnded).mayRetire tEnded = true ∧
    s0.mayRetire t0 = false ∧ (∀ d, t0.place ≠ .remote d) ∧
    (let p := { Task.fresh 7 0 1 5 1 0 16 100 1 2 (.placed 0 1) 0 with children := [{ kid none with task := 1 }] }
     let c := { tEnded with parent := some 7 }
     ({ st c with tasks := [c, p] } : State).task? 7 = some p ∧ p.waits = []) ∧
    s0.deviceNo = 0 ∧ (st (tAt 1 (.remote 7))).task? 1 = some (tAt 1 (.remote 7)) ∧ (7 : BitVec 10) ≠ s0.deviceNo ∧ t0.parent = none ∧
    s0.at_ 0 0 = some t0 ∧ t0.stop = none ∧ t0.saving = none ∧ (tSf [sfo 0]).sfOps ≠ [] ∧ (tOut (out1 (.v 4) 1 none)).outs ≠ [] ∧
    (∀ q ∈ (s0.core 0).fifoReqs, q.task ≠ 1) ∧ t0.outs = [] ∧ t0.sfOps = [] ∧ t0.waits = [] ∧ (∀ r ∈ s0.reqs, r.task ≠ 1) ∧ s0.NobodyWaits ∧
    t0.suspended = false ∧
    (let b : BindRec := { core := 0, slot := 0, kernel := 1, vf := 1, asid := 2, scratchBanks := 0, fifoBanks := 0, cacheBanks := 0 }
     let w := { tAt 2 (.distQ 0) with vf := 1, asid := 2 }
     let s : State := { s0 with tasks := [t0, w], clock := 2 ^ 40 }
     lanesOf 1 = [0] ∧ ((s.core 0).binds.find? fun b => b.slot == 0) = some { slot := 0, kernel := 1, vf := 0, asid := 1, held := false, since := 0 } ∧
       (s.vf 0).slice ≤ (s.clock - 0).toNat ∧ b.vf ≠ 0 ∧ w.isWaiting = true ∧ w.vf = b.vf ∧ w.asid = b.asid ∧ w.kernel = b.kernel) ∧
    (let t := tSave (out1 (.v 4) 1 none)
     (t.outs.find? fun o => o.id == 9 && o.isLoad && o.lanes.any (fun a => a.val.isNone)) = some (out1 (.v 4) 1 none) ∧ t.saving = some 0 ∧
       t.sfOps = [] ∧ (∀ x ∈ t.outs, x.id = 9) ∧
       (t.outs.find? fun o => o.id == 8 && o.isLoad && o.lanes.any (fun a => a.val.isNone)) = none) ∧
    ((10 : BitVec 64) - 0).toNat < 3500 ∧ 3500 ≤ ((3500 : BitVec 64) - 0).toNat ∧
    (let t := { tSave (out1 (.v 4) 1 none) with outs := [out1 (.v 4) 1 none, { out1 (.v 5) 1 none with id := 10 }] }
     (t.outs.find? fun o => o.id == 9 && o.isLoad && o.lanes.any (fun a => a.val.isNone)) = some (out1 (.v 4) 1 none) ∧
       ¬ (t.sfOps = [] ∧ ∀ x ∈ t.outs, x.id = 9)) ∧
    (let s := st (tSaved 0)
     s.task? 1 = some (tSaved 0) ∧ (tSaved 0).place = .saved ∧ (tSaved 0).saved = some (sv 0) ∧ s.mayResume (tSaved 0) (sv 0) 0 0 = true ∧
       s.mayResume (tSaved 0) (sv 0) 0 1 = false ∧ (tSaved 0).waits = [] ∧ (∀ u ∈ s.tasks, u.waits = []) ∧ (tSaved 0).fault = none ∧
       (tSaved 0).pendingReplays = [] ∧ (tSaved 0).deferred = [] ∧ (tSaved 0).deferredCopies = [] ∧ (s.core 0).ring.length = 128) ∧
    (let t := { tSaved 0 with fault := some (rec0 5) }
     (st t).mayResume t (sv 0) 0 0 = true ∧ t.fault = some (rec0 5)) := by
  and_intros <;> first | decide +kernel | exact quiet_nobody (by decide +kernel)

def tFault (code : BitVec 8) : Task := { t0 with fault := some (rec0 code) }
def sFault (t : Task) : State :=
  { st t with cores := [{ core0 with fqTail := 1, ring := core0.ring.set 0 ((t.fault).getD FaultRec.zero) }] }

/-- An empty slot; a task without a fault, inspected, halted and stopped; a record of a page fault, of a trap and of another fault at FQHEAD. -/
theorem witness_SupervisorCommands :
    s0.at_ 0 1 = none ∧ s0.at_ 0 0 = some t0 ∧ s0.task? 1 = some t0 ∧ t0.insp = false ∧ t0.fault = none ∧ t0.halted = false ∧ t0.capLanes = [] ∧
    ({ t0 with halted := true } : Task).insp = true ∧ (tFault 5).insp = true ∧
    0 < t0.lanes.length ∧ (191 : Nat) < (s0.kernelOf t0).n ∧ 14 + 1 < (s0.kernelOf t0).w ∧ (s0.kernelOf t0).w ∈ [16, 32, 64] ∧
    4 * (191 * (s0.kernelOf t0).w + 14) < 0xF000 ∧
    (∀ t ∈ [{ t0 with halted := true }, { tFault 5 with halted := true }, { tFault 5 with stop := some .faulted }, tFault 5, tFault 0x14, tFault 0x02],
      (sFault t).at_ 0 0 = some t ∧ (sFault t).task? t.id = some t) ∧
    (∀ c ∈ [5, 0x14, 2], (tFault c).fault = some (rec0 c) ∧ (tFault c).stop = none ∧ (tFault c).handlerFor = none ∧ (tFault c).fetchFault = false ∧
      (tFault c).deferred = [] ∧ (tFault c).deferredCopies = [] ∧ (tFault c).pendingReplays = [] ∧ (tFault c).waits = [] ∧
      (tFault c).replayCap = [] ∧ (rec0 c).deferred = false ∧ (rec0 c).replayed = false ∧ (tFault c).escalated = false ∧
      ((sFault (tFault c)).core 0).fqHead ≠ ((sFault (tFault c)).core 0).fqTail ∧
      ((sFault (tFault c)).core 0).ring.getD (((sFault (tFault c)).core 0).fqHead.toNat % 128) FaultRec.zero = rec0 c ∧
      (rec0 c).slot.toNat = 0 ∧ (rec0 c).code ≠ 0x16 ∧ (rec0 c).code ≠ 0x0A) ∧
    ({ tFault 5 with fetchFault := true } : Task).fetchFault = true ∧ (rec0 5).code = 0x05 ∧ (rec0 2).code ≠ 0x05 ∧ (rec0 2).code ≠ 0x06 ∧
    (∀ p ∈ [0, 1, 2, 3, 9], ((({ Asd.reset 1 with policy := List.replicate 32 p } : Asd).policy.getD 5 0)) = p) ∧
    ({ tFault 5 with handlerFor := some 9 } : Task).handlerFor ≠ none ∧ ({ tFault 5 with halted := true } : Task).fault ≠ none ∧
    (∀ u ∈ (sFault (tFault 5)).tasks, u.waits = []) ∧ (sFault (tFault 5)).NobodyWaits := by
  and_intros <;> first | decide +kernel | exact quiet_nobody (by decide +kernel)

def tPage : Task := { tFault 5 with escalated := true }
def asdH : Asd := { Asd.reset 1 with rootFrame := 0x10, fmode := true, handlerKernel := some 1, handlerEntry := 0x40, handlerAlw := 64 }
def sHandler (t : Task) : State := { st t with asds := [asdH] }

/-- The small device with n more pages, each of another device. -/
def sDevices (n : Nat) : State :=
  { s0 with
    l2 := (List.range 8).map fun j =>
      { line := 0x12100 + 128 * j, sealId := 0, dirty := true, stream := false
        data := BitVec.ofNat 1024 (packBytes ((List.range 8).map fun i => (16 * i, if 8 * j + i < n then 1 + (8 * j + i + 1) * 2 ^ 42 else 0))) } }

/-- A PAGER address space of 64 devices, an edit of it that reaches a 65th, and an address space of one device. -/
theorem witness_PagerHandlersAndInvalidations_devices :
    (s0.asd 1).fmode = false ∧ ((sDevices 63).reached (s0.asd 1)).length = 64 := ⟨by decide +kernel, by decide +kernel⟩

theorem witness_PagerHandlersAndInvalidations_refused :
    64 < (((sDevices 63).homeWrite 0 0x12800 8 0x1000000000001).reached (s0.asd 1)).length := by decide +kernel

theorem witness_PagerHandlersAndInvalidations_edit :
    (s0.reached (s0.asd 1) == [0]) = true ∧ okWith (walk s0 1 0x1000) (fun l => l.base == 0) = true ∧
    (∀ t ∈ s0.tasks, t.inGroup 1 0x5000 = false) ∧ (∀ i < 8, s0.Canonical (s0.asd 1).vf (0x12000 + i)) ∧
    ∀ i < 8, s0.zone (0x12000 + i) ≠ .reserved :=
  ⟨by decide +kernel, by decide +kernel, by decide +kernel, fun i hi => canonical (by revert i; decide +kernel), by decide +kernel⟩

/-- A fault group of one, under a pager; a handler's spawn that the account covers and one that it does not; a matrix engine that runs, long
and briefly. -/
theorem witness_PagerHandlersAndInvalidations :
    ((s0.asd 1).fmode = false ∧ (st tPage).tasks.filter (fun t => t.inGroup 1 0x5000) = [tPage] ∧ (st tPage).task? 1 = some tPage ∧ tPage.stop = none ∧
      tPage.deferred = [] ∧ tPage.deferredCopies = [] ∧ tPage.pendingReplays = [] ∧ tPage.waits = [] ∧ tPage.replayCap = [] ∧ tPage.isPlaced = true) ∧
    ((sHandler tPage).task? 1 = some tPage ∧ tPage.fault = some (rec0 5) ∧
      ((sHandler tPage).asd 1).handlerKernel.bind (fun k => (sHandler tPage).kernel? 1 k) = some kn ∧
      ((sHandler tPage).asd 1).fmode = true ∧ tPage.escalated = true ∧ (∀ u ∈ (sHandler tPage).tasks, u.handlerFor = some 1 → u.isRetired = true) ∧
      32 + ((sHandler tPage).asd 1).handlerAlw.toNat ≤ tPage.alw.toNat ∧ (sHandler tPage).nextTask ≠ 1 ∧
      ({ tPage with alw := 95 } : Task).alw.toNat < 32 + ((sHandler tPage).asd 1).handlerAlw.toNat ∧ (tFault 5).escalated = false) ∧
    (let k : Core := { core0 with running := some 0 }
     k.running ≠ none ∧ 2 ^ 20 < ((2 ^ 21 : BitVec 64) - k.mxStepAt).toNat ∧ ¬ 2 ^ 20 < ((0 : BitVec 64) - k.mxStepAt).toNat) ∧
    (∀ u ∈ s0.tasks, u.waits = []) ∧
    ((({ s0 with cores := [{ core0 with cvs := cv0 .armed :: List.replicate 15 Cv.reset }] } : State).core 0).cv 0).state ≠ .idle := by
  decide +kernel

/-- A graph table at 0x3000 with one node: kernel 1, entry 0x100. -/
def sGraph : State := { s0 with mem := Store.writeLE (Store.writeLE mem0 0x3000 4 0x10001) 0x3080 8 (1 + 0x100 * 2 ^ 32) }
def lrec : LaunchRec := LaunchRec.of .host (BitVec.ofNat 512 (0x3000 + 2 ^ 64 + 1000 * 2 ^ 128 + 0x5000 * 2 ^ 192 + 0x6000 * 2 ^ 256 + 2 ^ 384))
def qu (n : Nat) : Queue := { Queue.reset with asid := 1, prin := 5, ring := List.replicate n lrec, acl := [0x8000000000010007] }
def sQueue (n : Nat) : State := { sGraph with queues := [qu n] }
def node : Node := Node.of 0 (1 + 0x100 * 2 ^ 32)
def launch (n : Node) : Launch :=
  { id := 4, vf := 0, queue := 0, record := lrec, pool := 1000, nodes := [n], halted := false, hostReset := false, done := false }
def sLaunch (n : Node) : State := { sQueue 0 with launches := [launch n] }

/-- The host and an allowed peer send, another peer does not; a ring that is full; a record that is admitted and one without a table; a node
that starts with all of the pool, one whose allowance is beyond it, one whose task has retired; a launch with every result. -/
theorem witness_LaunchesRun :
    (sQueue 1).power = .open_ ∧ 16 * 0 + 0 < (sQueue 1).queues.length ∧ ((sQueue 1).queue 0 0).ring.length < 256 ∧ 256 ≤ ((sQueue 256).queue 0 0).ring.length ∧
    (∃ e ∈ (qu 0).acl, e.getLsbD 63 = true ∧ e.toNat % 2 ^ 10 = (7 : BitVec 10).toNat ∧ e.toNat / 2 ^ 16 % 2 ^ 16 = (1 : BitVec 16).toNat) ∧
    (∀ e ∈ (qu 0).acl, ¬ (e.getLsbD 63 = true ∧ e.toNat % 2 ^ 10 = (8 : BitVec 10).toNat ∧ e.toNat / 2 ^ 16 % 2 ^ 16 = (1 : BitVec 16).toNat)) ∧
    lrec.sender = .host ∧ (sQueue 1).hostBad 0 lrec.rblk.toNat 16 = false ∧ (sQueue 1).hostBad 0 lrec.cctr.toNat 8 = false ∧ lrec.rblk ≠ 0 ∧ lrec.cctr.toNat % 8 = 0 ∧ lrec.cctr.toNat + 8 ≤ lrec.rblk.toNat ∧
    (sQueue 1).stopAdmission = false ∧ okWith ((sQueue 1).validate (qu 1) lrec).2 (fun ns => ns == [node]) = true ∧
    errWith ((sQueue 1).validate (qu 1) { lrec with graph := 0x3004 }).2 (· == 1) = true ∧
    ((sQueue 1).lastQueue + 1 + 0) % 256 = 0 ∧ ((sQueue 1).lastQueue + 1 + 1) % 256 = 1 ∧
    (({ sQueue 1 with queues := [qu 1, qu 1] } : State).queue 0 0).ring ≠ [] ∧ ((sQueue 1).queue 0 0).ring.length < 512 ∧
    (sLaunch node).nextNode 0 0 = some (launch node, node) ∧ (sQueue 0).nextNode 0 0 = none ∧ lrec.det = false ∧ node.nalw = 0 ∧
    (launch node).pool ≠ 0 ∧ (launch node).pool.toNat < (1001 : BitVec 64).toNat ∧ (sLaunch node).boundCores 2 0 1 = [] ∧
    (let n := { node with task := some 1, started := true }
     let s := { sLaunch n with tasks := [{ t0 with place := .retired }] }
     n.result = none ∧ (s.task? 1).map Task.isRetired = some true ∧ s.launch? 4 = some (launch n)) ∧
    ({ launch node with hostReset := true } : Launch).hostReset = true ∧ ((sLaunch node).vf 0).ringOn = false ∧
    (let n := { node with result := some 0, started := true, placed := true }
     (sLaunch n).launch? 4 = some (launch n) ∧ (launch n).done = false ∧ (∀ m ∈ (launch n).nodes, m.result ≠ none) ∧ (sLaunch n).reqs = [] ∧
       ((launch n).nodes.filter (·.placed)).length < 2 ^ 16) := by
  refine ⟨by decide +kernel, by decide +kernel, by decide +kernel, by decide +kernel, ?_, ?_, by decide +kernel⟩ <;> simp [qu]

/-- An image with one kernel of a code section of 8 bytes, and with a relocation of an undefined symbol or without. -/
def image (rels : Nat) : List (BitVec 8) :=
  bytesLE 64 (0x43414241 + 2 ^ 32 + 2 * 2 ^ 48 + 2 ^ 56 + 2 ^ 64 + rels * 2 ^ 80 + rels * 2 ^ 96 + 64 * 2 ^ 128 + 96 * 2 ^ 192 + 128 * 2 ^ 256 +
      152 * 2 ^ 320 + 176 * 2 ^ 384) ++
    bytesLE 32 (16 * 2 ^ 32 + 64 * 2 ^ 40) ++ bytesLE 32 (1 + 8 * 2 ^ 64 + 176 * 2 ^ 128) ++
    bytesLE 24 (0xFFFF * 2 ^ 32 + 2 ^ 48 + 2 * 2 ^ 56) ++ bytesLE 24 (2 ^ 16 + 64 * 2 ^ 24) ++ bytesLE 8 0
def loadArgs (rels : Nat) (frames : List Nat) : LoadArgs :=
  { asid := 1, image := image rels, base := 0x10000000000, size := 2 ^ 32 + 4096, sealId := 0, kid := 7, frames := frames }
def spawnx : SpawnxReq :=
  { dev := 7, asid := 1, sender := 3, kernel := 1, entry := 0x100, alw := 64, argc := 1, args := [9], prio := 0, ceil := 0, exmode := false
    ownExm := false, fpctl := 0, handle := 0, ordinal := 0, prin := 5 }

/-- Address spaces of 64 and of 65 devices; a bind record that holds and one that does not; a request for a context that is bound, one for a
context that is not, one refused; images that load, that do not parse, and whose relocation is rejected. -/
theorem witness_OwnersSettings :
    16 * 0 + 0 < (sQueue 1).queues.length ∧ 0 < s0.vfs.length ∧ 64 < (List.range 65).length ∧ (List.range 64).length ≤ 64 ∧
    (let b : BindRec := { core := 0, slot := 1, kernel := 1, vf := 0, asid := 1, scratchBanks := 3, fifoBanks := 4, cacheBanks := 0x8000 }
     (sTasks []).bindOk b = true ∧ s0.bindOk { b with kernel := 9 } = false ∧ ((sTasks []).core 0).banks.length = 16 ∧ b.cacheBanks.getLsbD 15 = true) ∧
    (s0.vf 0).ringOn = false ∧ (s0.asd 1).suspended = false ∧ ({ s0 with tierPending := true } : State).inbound.contains spawnx = false ∧
    s0.tierPending = false ∧ (∃ x ∈ ({ s0 with inbound := [{ spawnx with handle := 3 }] } : State).inbound, x.asid = spawnx.asid) ∧
    spawnx.dev ≠ s0.deviceNo ∧ s0.inbound.contains spawnx = false ∧
    (s0.kernel? 1 1).isSome = true ∧ (s0.asd 1).torn = false ∧ (∃ c ∈ s0.cores, ∃ b ∈ c.binds, b.asid = spawnx.asid) ∧
    (∀ x ∈ s0.inbound, x.asid ≠ spawnx.asid) ∧ (∀ c ∈ ({ s0 with cores := [] } : State).cores, ∀ b ∈ c.binds, b.asid ≠ spawnx.asid) ∧
    s0.kernel? 1 2 = none ∧ (s0.core 0).banks.length = 16 ∧
    headerOk [] = false ∧ (∀ r ∈ [0, 1], headerOk (image r) = true ∧ (∀ k ∈ (Tables.of (image r)).kernels, k.ok = true) ∧
      s0.kernel? 1 7 = none ∧ (Tables.of (image r)).kernels.length = 1 ∧ s0.noSpace (loadArgs r []) (Tables.of (image r)) = false) ∧
    s0.kernel? 1 1 ≠ none ∧ s0.noSpace { loadArgs 0 [] with base := 1 } (Tables.of (image 0)) = true ∧ (Tables.of (image 0)).relocs = [] ∧
    (let t := Tables.of (image 1)
     let place := t.place (2 ^ 40)
     (t.relocs.map fun r => r.rejected t (t.fix place r)) = [some 2]) ∧
    (let t := Tables.of (image 0)
     let pages := pagesOf t (t.place (2 ^ 40)) (t.contents (image 0) (t.place (2 ^ 40)))
     s0.framesOk (loadArgs 0 []) pages = false ∧
       s0.framesOk (loadArgs 0 [0x100000, 0x101000, 0x102000, 0x103000, 0x104000]) pages = true) := by decide +kernel

theorem witness_OwnersSettings_mirror :
    (({ s0 with vfs := [{ Vf.reset with ringOn := true, ringK := 6 }] } : State).vf 0).ringOn = true ∧ 6 ≤ 6 ∧
    4096 ≤ ((List.replicate 4096 spawnx).filter fun x => x.asid == spawnx.asid).length := by
  refine ⟨by decide +kernel, by decide, ?_⟩
  have h : (List.replicate 4096 spawnx).filter (fun x => x.asid == spawnx.asid) = List.replicate 4096 spawnx :=
    List.filter_eq_self.mpr fun a h => by rw [List.eq_of_mem_replicate h]; decide
  exact Nat.le_of_eq (by rw [h, List.length_replicate])

def img : FwImage := { bytes := [1], key := [2], sig := [3], svn := 4 }
def tierOf (done : Bool) : TierImage :=
  { mem := [], tasks := [], cores := [], launches := [], vfs := [], plies := [], plyGens := [], credits := [], inbound := [], ranges := [], digest := Config.sha3 [], complete := done }

theorem bytesLE_get (n : Nat) : ∀ v k, k < n → (bytesLE n v)[k]? = some (BitVec.ofNat 8 (v / 256 ^ k)) := by
  induction n with
  | zero => intro v k h; omega
  | succ n ih =>
    intro v k h
    cases k with
    | zero => simp [bytesLE]
    | succ k => simp only [bytesLE, List.getElem?_cons_succ]; rw [ih _ _ (by omega), Nat.div_div_eq_div_mul, Nat.pow_succ']

theorem keys_writeLE (a : Nat) : ∀ k (m : Store 8) b v, a ≤ b → (∀ e ∈ m, a ≤ e.1) → ∀ e ∈ m.writeLE b k v, a ≤ e.1 := by
  intro k
  induction k with
  | zero => intro m b v _ h; simpa [Store.writeLE] using h
  | succ k ih =>
    intro m b v hb h
    refine ih _ _ _ (by omega) fun e he => ?_
    unfold Store.set at he
    split at he
    · exact h e (List.mem_filter.1 he).1
    · rcases (Store.mem_insert _ _ _ _).1 he with rfl | he
      · exact hb
      · exact h e (List.mem_filter.1 he).1

theorem toNat_lt_pow {n : Nat} (d : BitVec (8 * n)) : d.toNat < 256 ^ n :=
  Nat.lt_of_lt_of_eq d.isLt (by rw [Nat.pow_mul])

/-- The word COMPLETE as a number. -/
def completeWord : Nat := 0x4554454C504D4F43
theorem tierTrailer_get (d : BitVec 512) {k : Nat} (h : k < 72) :
    (tierTrailer d)[k]? = some (BitVec.ofNat 8 ((d.toNat + completeWord * 256 ^ 64) / 256 ^ k)) := by
  have hw : ∀ j < 8, ("COMPLETE".toList.map fun c => BitVec.ofNat 8 c.toNat)[j]? = some (BitVec.ofNat 8 (completeWord / 256 ^ j)) := by
    decide +kernel
  have hl : (bytesLE 64 d.toNat).length = 64 := by simp [bytesLE]
  unfold tierTrailer
  by_cases hk : k < 64
  · rw [List.getElem?_append_left (by omega), bytesLE_get _ _ _ hk]
    congr 1
    apply BitVec.eq_of_toNat_eq
    simp only [BitVec.toNat_ofNat]
    obtain ⟨j, hj⟩ : ∃ j, 64 = k + 1 + j := ⟨63 - k, by omega⟩
    rw [show completeWord * 256 ^ 64 = completeWord * 256 ^ j * 256 * 256 ^ k by rw [hj, Nat.pow_add, Nat.pow_add]; simp only [Nat.pow_one, Nat.mul_assoc, Nat.mul_comm, Nat.mul_left_comm]]
    rw [Nat.add_mul_div_right _ _ (Nat.pow_pos (by decide))]
    omega
  · rw [List.getElem?_append_right (by omega), hl, hw _ (by omega)]
    congr 2
    obtain ⟨j, hj⟩ : ∃ j, k = 64 + j := ⟨k - 64, by omega⟩
    subst hj
    have hd : d.toNat / 256 ^ 64 = 0 := Nat.div_eq_of_lt (toNat_lt_pow (n := 64) d)
    rw [Nat.pow_add, ← Nat.div_div_eq_div_mul, Nat.add_mul_div_right _ _ (Nat.pow_pos (by decide)), hd, Nat.zero_add, Nat.add_sub_cancel_left]

/-- The image of a device without memory and tasks, in host memory from 0x1000 on. -/
def tierIn (done : Bool) : TierImage := { tierOf done with ranges := [(0x1000, Config.hbmBytes + 72)] }
def tierDigest : BitVec 512 := Config.sha3 []
def tierHost (d : BitVec 512) : Memory := Store.writeLE [] (0x1000 + Config.hbmBytes) 72 (d.toNat + completeWord * 256 ^ 64)
def sTier (done : Bool) : State := { sTasks [] with tier := some (tierIn done), hostMem := tierHost tierDigest }

theorem tierHost_keys (d : BitVec 512) : ∀ e ∈ tierHost d, 0x1000 + Config.hbmBytes ≤ e.1 := by
  unfold tierHost
  exact keys_writeLE _ _ _ _ _ (Nat.le_refl _) (by simp)

theorem tierHost_get (d : BitVec 512) {k : Nat} (hk : k < 72) :
    Store.get (tierHost d) (0x1000 + Config.hbmBytes + k) = BitVec.ofNat 8 ((d.toNat + completeWord * 256 ^ 64) / 256 ^ k) := by
  rw [tierHost, Store.get_writeLE _ _ _ _ _ hk]

theorem sTier_host (done : Bool) : (sTier done).hostMem = tierHost tierDigest := by simp only [sTier]

theorem sTier_mem (done : Bool) : (sTier done).tierMem (tierIn done).ranges = [] := by
  have h : ∀ (l : List Host.Cell), (∀ e ∈ l, 0x1000 + Config.hbmBytes ≤ e.1) → ∀ m : Memory, (l.foldl (fun m c => (tierOffsets c.1 (tierIn done).ranges 0).foldl
      (fun m o => if o < Config.hbmBytes then Store.set m ((sTier done).deviceNo.toNat * 2 ^ 42 + o) c.2 else m) m) m) = m := by
    intro l
    induction l with
    | nil => intro _ m; rfl
    | cons c l ih =>
      intro hl m
      have hc := hl c (.head _)
      have hf : ∀ o ∈ tierOffsets c.1 (tierIn done).ranges 0, ¬ o < Config.hbmBytes := by
        simp only [tierOffsets, tierIn, tierOf, List.append_nil]
        split <;> (simp; try omega)
      have : (tierOffsets c.1 (tierIn done).ranges 0).foldl
          (fun m o => if o < Config.hbmBytes then Store.set m ((sTier done).deviceNo.toNat * 2 ^ 42 + o) c.2 else m) m = m := by
        generalize tierOffsets c.1 (tierIn done).ranges 0 = os at hf
        induction os with
        | nil => rfl
        | cons o os ih => rw [List.foldl_cons, if_neg (hf o (.head _))]; exact ih fun p hp => hf p (.tail _ hp)
      rw [List.foldl_cons, this]
      exact ih (fun e he => hl e (.tail _ he)) m
  have h1 := tierHost_keys tierDigest
  have h2 := h (tierHost tierDigest) h1 []
  rw [State.tierMem, sTier_host]
  exact h2

theorem sTier_trailer (done : Bool) :
    ∀ k < 72, (tierTrailer (Config.sha3 (((sTier done).withImage (tierIn done)).imageBytes ((sTier done).tierMem (tierIn done).ranges)
      (tierIn done).tasks)))[k]? = some ((sTier done).tierByte (tierIn done).ranges (Config.hbmBytes + k)) := by
  intro k hk
  rw [sTier_mem]
  have ht : tierAt (tierIn done).ranges (Config.hbmBytes + k) = some (0x1000 + Config.hbmBytes + k) := by
    simp only [tierIn, tierAt]
    rw [if_pos (by omega), Nat.add_assoc]
  rw [show ((sTier done).withImage (tierIn done)).imageBytes [] (tierIn done).tasks = [] from rfl, tierTrailer_get _ hk, State.tierByte, ht]
  dsimp only
  rw [sTier_host, tierHost_get _ hk]
  rfl

theorem tierTrailer_word (d : BitVec 512) : (tierTrailer d)[64]? = some 0x43 := by
  have hl : (bytesLE 64 d.toNat).length = 64 := by simp [bytesLE]
  rw [tierTrailer, List.getElem?_append_right (by omega), hl]
  decide +kernel

/-- An image that is whole, and one whose trailer does not stand in host memory. -/
theorem witness_HostAndPower_restore :
    (sTier true).tier = some (tierIn true) ∧ (sTier true).power = .open_ ∧ (tierIn true).complete = true ∧ (tierIn false).complete = false ∧
    (∀ t ∈ (sTier true).tasks, t.isPlaced = false) ∧ Memory.wf (sTier true).hostMem = true ∧
    (∀ o p h, tierAt (tierIn true).ranges o = some h → tierAt (tierIn true).ranges p = some h → o = p) ∧
    ∀ d, ¬ ∀ k < 72, (tierTrailer d)[k]? = some (({ sTasks [] with tier := some (tierIn true) } : State).tierByte (tierIn true).ranges
      (Config.hbmBytes + k)) := by
  refine ⟨rfl, rfl, rfl, rfl, (fun _ h => nomatch h), ?_, fun o p h ho hp => ?_, fun d h => ?_⟩
  · rw [sTier_host]
    exact Store.writeLE_wf _ _ _ _ rfl
  · simp only [tierIn, tierAt] at ho hp
    split at ho <;> split at hp <;> simp_all
    omega
  · have h1 := h 64 (by decide)
    rw [tierTrailer_word] at h1
    exact absurd h1 (by decide +kernel)

/-- An aperture access that is translated and in bounds; a device that is coupled, self-hosted and neither; boot without an image, and with
images whose signatures hold; an idle device; an image whose digest matches; a spindle gated and not. -/
theorem witness_HostAndPower :
    (let s := sQueue 0
     s.power = .open_ ∧ s.tierPending = false ∧ okWith (walk s (s.queue 0 0).asid 0x1000) (fun l => l.pa 0x1000 == 0x1000 && !l.bypass && l.r && l.w &&
       s.fwGranted 1 5 l 0x1000 false && s.fwGranted 1 5 l 0x1000 true && s.canon (s.asd 1).vf 0x1000 == 0x1000) = true ∧
       s.l2.length < Config.l2Lines ∧ s.isUe (lineAddr 0x1000) = false ∧ 0x1000 % 128 + 128 ≤ 128 ∧ 0x1000 + 128 ≤ 2 ^ 36 ∧ s.zone 0x1000 ≠ .reserved) ∧
    s0.power ≠ .frozen ∧ s0.selfHosted = false ∧ ({ s0 with selfHosted := true } : State).coupled = false ∧ State.reset.power = .off ∧
    State.reset.bootFails = some 1 ∧
    (img.verified [2] 4 = true → img.verified (Config.ownKey [1]) 4 = true → ({ State.reset with flash := [img, img, img], fuseDigest := Config.sha3 [2], fuseSvn := 4 } : State).bootFails = none) ∧
    (let s := sTasks []
     s.power = .open_ ∧ (∀ t ∈ s.tasks, t.isPlaced = false) ∧ (∀ c ∈ s.cores, c.copies = []) ∧ (∀ l ∈ s.l2, l.dirty = false) ∧ s.tier = none) ∧
    s0.tasks.any Task.isPlaced = true ∧ Config.hbmBytes + 72 = 0x6000000048 ∧
    0 < (s0.core 0).spindles.length ∧ (s0.spindle 0 0).gated = none ∧
    ((({ s0 with cores := [{ core0 with spindles := { Spindle.reset with gated := some 0 } :: core0.spindles.tail }] } : State).spindle 0 0).gated = some 0) := by
  have h (h1 : img.verified [2] 4 = true) (h2 : img.verified (Config.ownKey [1]) 4 = true) :
      ({ State.reset with flash := [img, img, img], fuseDigest := Config.sha3 [2], fuseSvn := 4 } : State).bootFails = none := by
    simp [State.bootFails, img] at h1 h2 ⊢
    simp [h1, h2]
  and_intros <;> first | decide +kernel | exact h

/-! ### The machine as a whole -/

/-- The device with a NOP at the head of a task of 32 lanes. -/
def sNop : State := State.reset.withFetchWord 64 0
def tNop : Task := (sNop.task? 1).getD t0
def tTwo : Task := { tNop with lanes := List.replicate 16 (Lane.start 0) ++ List.replicate 16 (Lane.start 0x40) }
def sTwo : State := { sNop with tasks := [tTwo] }
def cap0 : State := State.reset.withFetchWord 64 0x0000403FC101031C

def wordIs (f : BodyFetch) (p : Nat → Bool) : Bool := match f with | .word w => p w | _ => false
def bytesAre (f : Fetched) (p : Nat → Bool) : Bool := match f with | .bytes w => p w | _ => false

/-- A frozen device; an event, a body's turn, and a spindle's turn with one group and with two that issue together. -/
theorem witness_StepRunsTheDecodedInstruction :
    ({ s0 with power := .frozen } : State).power = .frozen ∧ ({ s0 with agenda := [.event .freeze] } : State).agenda = .event .freeze :: [] ∧
    ({ s0 with agenda := [.redo 1] } : State).agenda = .redo 1 :: [] ∧ cap0.power = .open_ ∧ cap0.agenda = .capStep 1 0 :: [] ∧
    wordIs ((cap0.rotateBody 1 0).bodyFetch 1 0) (· == 0x0000403FC101031C) = true ∧ (decodeBody 0x0000403FC101031C).isSome = true ∧
    (∀ x ∈ [(sNop, tNop), (sTwo, tTwo)],
      let (s, t) := x
      s.power = .open_ ∧ s.agenda = .issue 0 0 :: [] ∧ s.task? t.id = some t ∧ t.place = .placed 0 (16 * 0 + 0) ∧
      (∀ u ∈ s.tasks, ∀ j < 16, u.place = .placed 0 (16 * 0 + j) → u = t) ∧ (s.spindle 0 0).gated = none ∧ (s.spindle 0 0).forced = none ∧
      t.canIssue = true ∧
      let s0 : State := { s with agenda := [] }
      let u := s0.skipFill t
      let i := decode (s.kernelOf t).n (s.kernelOf t).w (u.pcOf u.headGroup) 0
      u.headGroup ≠ 0 ∧ u.windowsOpen u.headGroup = true ∧ u.sFree u.headGroup i = true ∧ u.acquiring = false ∧ t.after = none ∧
      bytesAre (s0.fetch u (u.pcOf u.headGroup)) (· == 0) = true ∧
      waits u (exec i { s0.updTask t.id (fun _ => u) with cur := .group t.id u.headGroup }) = false) := by decide +kernel

theorem witness_DecodingUndoesEncoding :
    (Instr.iadd a2).wellFormed 64 16 = true ∧ (encode (.iadd a2)).isSome = true ∧ (Instr.iadd a2).isBody = false ∧
    (24 : BitVec 32).toNat % 4 = 0 ∧ (24 : BitVec 32).toNat % 32 + wordLen ((encode (.iadd a2)).getD 0) ≤ 32 ∧
    Instr.capExitStep.wellFormed 64 16 = true ∧ Instr.capExitStep.isBody = true ∧
    okWith (decode? 64 16 0 0x0000000240C14100) (fun i => i == .iadd a2) = true ∧ decodeBody 0x304 = some .capExitStep := by decide +kernel

theorem witness_MemoriesStayCanonical : sNop.MemOk ∧ (match step sNop with | .next _ => true | _ => false) = true :=
  ⟨⟨by decide +kernel, by decide +kernel, by decide +kernel⟩, by decide +kernel⟩

theorem witness_UnitsKeepTheirShape : sNop.Shaped ∧ (match step sNop with | .next _ => true | _ => false) = true :=
  ⟨{ ids := by decide +kernel, fresh := by decide +kernel, lanes := by decide +kernel, slots := by decide +kernel, widths := by decide +kernel
     cores := by decide +kernel
     core := fun c hc => by
       have h : ∀ c ∈ sNop.cores, c.banks.length = 16 ∧ c.tiles.length = 16 ∧ c.tileOwner.length = 16 ∧ c.cvs.length = 16 ∧ c.gens.length = 8 ∧
         c.ring.length = 128 ∧ c.spindles.length = 4 ∧ ∀ x ∈ c.lysets, x.regs.length = 8 := by decide +kernel
       obtain ⟨h1, h2, h3, h4, h5, h6, h7, h8⟩ := h c hc
       exact ⟨h1, h2, h3, h4, h5, h6, h7, h8⟩
     queues := by decide +kernel, vfs := by decide +kernel
     tier := fun x hx => nomatch hx }, by decide +kernel⟩

/-! ### Further clauses: accounts that do not cover a cost, events, requests in front -/

def cPoor : Ctx := Ctx.of (st tPoor) tPoor 3 p0 8
def tDetPoor : Task := { tPoor with det := true }
def tPlyPoor : Task := { tPly with alw := 0 }

/-- An account of 0 before an instruction whose other conditions hold. -/
theorem witness_exhausted :
    Issues (st tPoor) 1 tPoor 3 ∧ tPoor.alw.toNat < 1 ∧ tPoor.guarded np0 3 = 0 ∧ tPoor.guarded p0 3 ≠ 0 ∧ flatCost (.nop p0) = some 1 ∧
    (tPoor.lane 0).depth ≠ 255 ∧ (st tPoor).replayable tPoor < Config.maxRequests ∧
    okWith (cPoor.gcheck (cPoor.loads false .i32 ad) Need.acquire 4) (fun _ => true) = true ∧
    okWith ((cPoor.cleared true (cPoor.privAccs .i32 priv)).pcheck .i32 priv Need.load.now) (fun _ => true) = true ∧
    okWith ((cPoor.cleared true (cPoor.privAccs .i32 priv)).pcheck .i32 priv Need.store.now) (fun _ => true) = true ∧
    okWith (cPoor.scheck .i32 scr4 (lanesOf cPoor.act)) (fun _ => true) = true ∧
    okWith (cPoor.gcheck (cPoor.stores false .n32 ad (.v 4)) Need.atom 4) (fun _ => true) = true ∧
    okWith (cPoor.gcheck (cPoor.stores false .n32 ad (.v 4)) Need.store 4) (fun gs => (cPoor.capsStore gs).isNone && !cPoor.capsHeld gs) = true ∧
    okWith (cPoor.gcheck [laneAcc 0 0x1000 0, laneAcc 0 0x1008 0] Need.load.now 8) (fun _ => true) = true ∧
    (core0.banks.getD 2 Bank.reset).mode = .fifo ∧ (core0.banks.getD 2 Bank.reset).owner = some tPoor.kkey ∧
    tPoor.plies.length < 4 ∧ ((List.range 256).any fun i => !(st tPoor).plies.any fun p => p.die == tPoor.die && p.idx == i) = true ∧
    (∃ p, (Ctx.of (sPly ply0 tPlyPoor) tPlyPoor 3 p0 8).plyOf 10 = .ok p ∧ p.members.length < p.cap ∧ tPlyPoor.plies.length < 4 ∧
      p.members.contains 1 = false) ∧
    ∃ p, (Ctx.of (sPly { ply0 with members := [1] } tPlyPoor) tPlyPoor 3 p0 8).plyOf 10 = .ok p ∧ p.members.contains 1 = true :=
  ⟨issues_st _ rfl, by and_intros <;> first | decide +kernel | exact ⟨_, rfl, by decide +kernel⟩⟩

/-- The same of a deterministic ATOMD, a step of a body, CAP.ABORT, and of the two engines. -/
theorem witness_exhausted_units :
    Issues (st tDetPoor) 1 tDetPoor 3 ∧ tDetPoor.det = true ∧
    okWith ((Ctx.of (st tDetPoor) tDetPoor 3 p0 8).gcheck ((Ctx.of (st tDetPoor) tDetPoor 3 p0 8).stores false .n32 ad (.v 4)) Need.atom.now 4)
      (fun gs => Nat.ble gs.length ((st tDetPoor).freeOnChip 0 + (st tDetPoor).freeSpill tDetPoor)) = true ∧
    (let s := { sMx (cv0 .armed) none [] with tasks := [{ tAll with alw := 0 }] }
     Issues s 1 { tAll with alw := 0 } 3 ∧ ({ tAll with alw := 0 } : Task).unexited = 3 ∧ ({ tAll with alw := 0 } : Task).alw.toNat < 2 ∧
     (cv0 .armed).signers.length < (cv0 .armed).need ∧ (Ctx.of s { tAll with alw := 0 } 3 p0 16).foreignTile 1 = none) := by
  refine ⟨issues_st _ rfl, by decide +kernel, by decide +kernel, ⟨rfl, by decide +kernel⟩, by decide +kernel⟩

/-- Lanes that stand at their meeting: both have come, so the meeting is over; lane 2 is still on its way, so they park. -/
def tMeet (n : Nat) : Task :=
  { t0 with lanes := (List.range 16).map fun l => { Lane.start 0x100 with meetValid := l < n, meetAddr := 0x108, pc := if l < 2 then 0x100 else 0x200 } }

theorem witness_ControlEffects_meetings :
    (∀ n ∈ [2, 3], Issues (st (tMeet n)) 1 (tMeet n) 3 ∧ 1 ≤ (tMeet n).alw.toNat) ∧
    ((task (after (.nop p0) (st (tMeet 2)))).lane 0).park = .none ∧ ((task (after (.nop p0) (st (tMeet 2)))).lane 0).meetValid = false ∧
    ((task (after (.nop p0) (st (tMeet 3)))).lane 0).park = .meeting ∧ ((task (after (.nop p0) (st (tMeet 3)))).lane 2).park = .none :=
  ⟨fun n hn => ⟨issues_st _ rfl, by revert n; decide +kernel⟩, by decide +kernel⟩

/-- A backward branch that brings the count to QUANT, and one that does not. -/
theorem witness_BranchesCallsAndReturns_quant :
    let t := { t0 with bbc := 31 }
    Issues (st t) 1 t 3 ∧ t.quant.toNat ≤ t.bbc.toNat + 1 ∧ t0.bbc.toNat + 1 < t0.quant.toNat ∧ t.guarded p0 3 ≠ 0 :=
  ⟨issues_st _ rfl, by decide +kernel⟩

/-- A task with one child and a group of lanes 4 and 5 that issues while lanes 0 and 1 wait for an arrival. -/
def tOne (k : Child) : Task := { t0 with children := [k], waits := [awaitWait] }
def sOne (k : Child) : State := { st (tOne k) with cur := .group 1 0x30 }

theorem lanes_unparked (t : Task) (g : Mask) (h : t.lanes = t0.lanes) : t.Unparked g := by
  intro l hl _
  have h0 : ∀ l < 16, (t0.lane l).park = .none := by decide +kernel
  rw [Task.lane, h]
  exact h0 l (by rw [h] at hl; exact hl)

/-- A child that is paused, one that runs, one that has ended, and no child, beside another wait. -/
theorem witness_JoinsReportChildren_kinds :
    (∀ k, Issues (sOne k) 1 (tOne k) 0x30 ∧ (tOne k).Unparked 0x30) ∧
    (∀ k ∈ [{ kid none with paused := true }, kid none, kid (some .done)], (tOne k).child? (((tOne k).rdS 0 1).setWidth 32) = some k) ∧
    (tOne (kid none)).guarded p0 0x30 ≠ 0 ∧ (tOne (kid none)).det = false ∧
    (∀ w ∈ [awaitWait], match w.kind with | .join _ _ | .joinAny _ => False | _ => True) ∧
    ({ kid none with paused := true } : Child).final = none ∧ (kid none).paused = false ∧ (kid none).ready false = false ∧
    (kid (some .done)).final = some .done ∧ (kid (some .done)).entries = [] ∧ t0.children = [] ∧ t0.Unparked 3 := by
  refine ⟨fun k => ⟨⟨rfl, by simp [sOne, tOne, st, State.task?, t0, Task.fresh]⟩, lanes_unparked _ _ rfl⟩, by decide +kernel, by decide +kernel, by decide +kernel,
    ?_, by decide +kernel, by decide +kernel, by decide +kernel, by decide +kernel, by decide +kernel, by decide +kernel, lanes_unparked _ _ rfl⟩
  intro w hw
  rw [List.mem_singleton.1 hw]
  trivial

/-- The device once the accesses of the private region have left their marks, with the region's words 15 written and their line in the L1. -/
def sTouched : State := match c0.pcheck .i32 priv Need.store.now with | .ok ls => c0.touch (ls.flatMap (·.2)) true s0 | .error _ => s0
def tWritten : Task := { t0 with privWritten := (List.range 8).map fun i => (0x3C0 + i, 1) }
def sWritten : State := { sTouched with tasks := [tWritten], cores := (sTouched.cores.map fun k => { k with l1 := [{ line 0x80380 true 0 with asid := 1 }] }) }
def cWritten : Ctx := Ctx.of sWritten tWritten 3 p0 8

/-- Both lanes' words in one line that nothing denies, written already, private in the core's L1, with no request in front. -/
theorem witness_PrivateAccesses_one :
    Issues sWritten 1 tWritten 3 ∧ sWritten.reqs = [] ∧
    okWith (cWritten.pcheck .i32 priv Need.load.now) (fun ls => cWritten.touch (ls.flatMap (·.2)) false sWritten == sWritten &&
      (cWritten.shut Need.load.now (ls.flatMap (·.2))).isEmpty && (ls.flatMap (·.2)).all fun a => !sWritten.isUe a.line && a.line == 0x80380 &&
        match tWritten.privOff cWritten.k a.acc.va.toNat with
        | some off => (List.range 4).all fun i => tWritten.privWritten.get (off + i) == 1
        | none => false) = true ∧
    okWith (cWritten.pcheck .i32 priv Need.store.now) (fun ls => cWritten.touch (ls.flatMap (·.2)) true sWritten == sWritten &&
      (cWritten.shut Need.store.now (ls.flatMap (·.2))).isEmpty && ((ls.flatMap (·.2)).map (·.acc.pa)).length == 2 &&
      ((ls.flatMap (·.2)).map (·.acc.pa)).eraseDups.length == 2 && (ls.flatMap (·.2)).all fun a => !sWritten.isUe a.line && !a.leaf.noL1 &&
        ((sWritten.core 0).l1? a.line).map (·.priv) == some true) = true :=
  ⟨⟨by decide +kernel, by decide +kernel⟩, by decide +kernel⟩

/-- An operation with a remainder behind its quotient. -/
theorem witness_SpecialFunctionsDeliver_rem :
    let o := { sfo 0 with rem := some 7, rems := [(0, 5), (1, 6)] }
    ((st (tSf [o])).sfQueue 0 0)[0]? = some (1, o) ∧ (o.rems.map (·.1)).Nodup ∧ o.dst.val ∉ [7] ∧ (∀ v ∈ o.rems, o.clob.get (vkey 7 v.1) = 0) := by
  decide +kernel

/-- A page under seal 9, which no table grants, under STRICT. -/
def sSealed : State := { sStrict with mem := Store.writeLE mem0 0x12020 16 (0x20000185 + 9 * 2 ^ 64) }
def cSealed : Ctx := { c0 with s := sSealed }

theorem witness_MemoryChecksAndFaults_strict :
    (sSealed.asd 1).strict = true ∧ okWith (sSealed.xlate 0 1 0x20000000) (fun l => l.r && l.sealId == 9) = true ∧
    errWith (cSealed.gcheck (la 0x20000000) Need.load.now 4) (fun f => f.code == 0x17) = true ∧
    okWith (({ c0 with s := sStrict } : Ctx).gcheck (la 0x1000) Need.load.now 4) (fun gs =>
      gs.all fun a => !({ c0 with s := sStrict } : Ctx).denied Need.load.now a && !sStrict.isUe a.line) = true := by decide +kernel

/-- A request of the core to the home of the private region's words, which the far end refuses: the accesses wait; one that it serves; a check
that fails behind it. -/
def sFront (ue : List Nat) : State := sReq { sStrict with ueLines := ue } { req .load with line := 0x80380 }
def cFront (ue : List Nat) : Ctx := Ctx.of (sFront ue) t0 3 p0 8

theorem witness_accesses_behind_requests :
    Issues (sFront [0x80380]) 1 t0 3 ∧ (cFront [0x80380]).Held true (c0.privAccs .i32 priv) ∧ ¬ (cFront []).Held true (c0.privAccs .i32 priv) ∧
    (let c := (cFront []).cleared true (c0.privAccs .i32 priv)
     okWith (c.pcheck .i32 priv Need.load.now) (fun ls => !ls.isEmpty) = true ∧ c.s.replayable t0 < Config.maxRequests) ∧
    (let c := (cFront []).cleared true (c0.privAccs .i32 { us with base := .s 63, disp := 64 })
     errWith (c.pcheck .i32 { us with base := .s 63, disp := 64 } Need.load.now) (fun f => f.code == 4) = true ∧
     errWith (c.pcheck .i32 { us with base := .s 63, disp := 64 } Need.store.now) (fun f => f.code == 4) = true) :=
  ⟨⟨by decide +kernel, by decide +kernel⟩, by unfold Ctx.Held; decide +kernel, by unfold Ctx.Held; decide +kernel, by decide +kernel, by decide +kernel⟩

/-- An event ring of 64 records at 0x6000, each of whose words lies where the page tables map it. -/
def sRing : State := { sQueue 0 with vfs := [{ Vf.reset with ringOn := true, ringK := 6, ringBase := 0x6000 }] }

theorem ring_mapped (words : List Nat)
    (h : ∀ o ∈ words, okWith (walk sRing (sRing.queue 0 0).asid ((sRing.vf 0).ringBase.toNat + o)) (fun l =>
      l.pa ((sRing.vf 0).ringBase.toNat + o) == 0x6000 + o && (0x6000 + o) % 8 == 0) = true ∧
      sRing.canon (sRing.asd (sRing.queue 0 0).asid).vf (0x6000 + o) = 0x6000 + o ∧ sRing.zone (0x6000 + o) ≠ .reserved)
    (ht : ∀ o ∈ words, ∀ p ∈ words,
      ∀ ea ∈ walkEntries sRing (sRing.asd (sRing.queue 0 0).asid).vf ((sRing.vf 0).ringBase.toNat + o) [1, 2, 3, 4, 5]
        ((sRing.asd (sRing.queue 0 0).asid).rootFrame.toNat * 4096), 0x6000 + p ≠ sRing.canon (sRing.asd (sRing.queue 0 0).asid).vf ea ∧
        0x6000 + p ≠ sRing.canon (sRing.asd (sRing.queue 0 0).asid).vf (ea + 8)) :
    RingMapped sRing 0 words (0x6000 + ·) :=
  ⟨fun o ho => by
    obtain ⟨h1, h2, h3⟩ := h o ho
    obtain ⟨l, hl, hp⟩ := okWith_iff h1
    simp only [Bool.and_eq_true, beq_iff_eq] at hp
    exact ⟨l, hl, hp.1, hp.2, canonical h2, h3⟩, fun o _ p _ h => by omega, ht⟩

theorem witness_eventRing :
    (sRing.vf 0).ringOn = true ∧ 0 < sRing.vfs.length ∧ (∀ l ∈ sRing.l2, l.dirty = true → sRing.zone l.line ≠ .host) ∧
    RingMapped sRing 0 (sRing.ringWords 0) (0x6000 + ·) ∧ RingMapped sRing 0 ringHeaderWords (0x6000 + ·) ∧
    (sRing.vf 0).wptr - BitVec.ofNat 64 (sRing.homeRead 0 0x6008 8) ≠ BitVec.ofNat 64 (2 ^ (sRing.vf 0).ringK) ∧
    (64 : BitVec 64) - BitVec.ofNat 64 (sRing.homeRead 0 0x6008 8) = BitVec.ofNat 64 (2 ^ (sRing.vf 0).ringK) ∧
    (s0.vf 0).ringOn = false :=
  ⟨by decide +kernel, by decide +kernel, by decide +kernel, ring_mapped _ (by decide +kernel) (by decide +kernel),
    ring_mapped _ (by decide +kernel) (by decide +kernel), by decide +kernel⟩

/-- A child that this device's inbound queue refuses: its context is torn down. -/
theorem witness_SpawnCreatesChildren_refused :
    ({ s0 with asds := [{ Asd.reset 1 with rootFrame := 0x10, torn := true }] } : State).inboundRefuses 1 1 = true ∧ s0.deviceNo = 0 ∧
    (tDet.det = true ∧ 255 ≤ ({ tDet with childCtr := 255 } : Task).childCtr.toNat ∧ 8 ≤ levelOf tDetLeaf.ordinal) := by decide +kernel

/-- Two members of a ply: the one that leaves or arrives is the last to wait for, or the other one still is. -/
def plyTwo (arrived : List Nat) : Ply := { ply0 with members := [1, 9], arrived := arrived }

theorem witness_AccountPriorityAndPlies_two :
    (∀ a ∈ [[], [9]], Issues (sPly (plyTwo a) tPly) 1 tPly 3 ∧ ((sPly (plyTwo a) tPly).tasks.map (·.id)).Nodup ∧
      ((sPly (plyTwo a) tPly).plies.map (·.id)).Nodup ∧ (∃ p, (Ctx.of (sPly (plyTwo a) tPly) tPly 3 p0 8).plyOf 10 = .ok p ∧ p = plyTwo a) ∧
      1 ∈ (plyTwo a).members ∧ 1 ∉ (plyTwo a).arrived ∧ ((sPly (plyTwo a) tPly).paid 1 3 4 0).unperformed
        (((sPly (plyTwo a) tPly).paid 1 3 4 0).releaseSet 0 1 .ply) = false) ∧
    tPly.waits = [] ∧ tPly.isPlaced = true ∧ tPly.dentries = [] ∧ tPly.Unparked 3 ∧ (sPly ply0 tPly).NobodyWaits ∧ tPly.guarded p0 3 ≠ 0 ∧
    ((plyTwo [9]).members.filter (· ≠ 1)) = [9] ∧ (∀ m ∈ [9], m ∈ (plyTwo [9]).arrived) ∧ (∃ m ∈ [9], m ∉ (plyTwo []).arrived) ∧
    (∃ m ∈ (plyTwo []).members, m ≠ 1 ∧ m ∉ (plyTwo []).arrived) ∧ (∀ m ∈ (plyTwo [9]).members, m = 1 ∨ m ∈ (plyTwo [9]).arrived) ∧
    ({ ply0 with members := [1] } : Ply).members.filter (· ≠ 1) = [] := by
  refine ⟨fun a ha => ⟨issues_st _ rfl, by revert a; decide +kernel, by revert a; decide +kernel, ?_, by revert a; decide +kernel⟩, by decide +kernel, by decide +kernel,
    by decide +kernel, lanes_unparked _ _ rfl, quiet_nobody (by decide +kernel), by decide +kernel⟩
  simp only [List.mem_cons, List.not_mem_nil, or_false] at ha
  rcases ha with rfl | rfl <;> exact ⟨_, rfl, rfl⟩

/-- A push that waits at a bank which has left FIFO mode. -/
theorem witness_FifoAccesses_dead :
    let w : Wait := { lanes := 3, pc := 0x100, len := 8, kind := .fpsh 2 1 }
    let t := { t0 with waits := [w] }
    let s := { sFifo { push with dead := true } [] with tasks := [t] }
    (∃ b, (s.core 0).banks[2]? = some b ∧ b.mode = .fifo) ∧ (s.core 0).fifoReqs.filter (fun r => r.bank == 2) = [{ push with dead := true }] ∧
    s.task? 1 = some t ∧ t.fault = none ∧ t.isPlaced = true ∧ t.core = 0 ∧
    (t.waits.find? fun (v : Wait) => match v.kind with | .fpsh _ i => i == push.id | _ => false) = some w := by
  refine ⟨⟨_, rfl, rfl⟩, by decide +kernel⟩

/-- A result that comes back to a stopping task. -/
theorem witness_ResultsReturn_stopping :
    let t := { tOut (out1 (.v 4) 1 (some 5)) with stop := some .faulted }
    (st t).task? 1 = some t ∧ t.isPlaced = true ∧ t.saving = none ∧ t.stop ≠ none ∧ (t.outs.find? fun p => p.id == 9) = some (out1 (.v 4) 1 (some 5)) := by
  decide +kernel

/-- A store into a capsule cell that has been taken, one behind an LDA whose value has not returned, and one before it. -/
theorem witness_DeferredFaultsStop_cells :
    let r := { req .store with caps := true, line := 0x10000000, lanes := [{ laneAcc 0 0x10000020 7 with pa := 0x10000020 }] }
    let s := { sReq (sCap .waiting 1 9 1) r with tasks := [t0] }
    s.reqBad r = some 0x0B ∧ (s.reqs.find? fun q => q.id == 5) = some r ∧ s.task? 1 = some t0 ∧ t0.fault = none ∧
    (∃ o ∈ (tOut { out1 (.v 4) 1 none with id := 4 }).outs, o.acq ≠ none ∧ o.id < r.inst) ∧
    (∀ o ∈ (tOut (out1 (.v 4) 1 none)).outs, o.acq ≠ none → r.inst ≤ o.id) := by
  refine ⟨by decide +kernel, by decide +kernel, by decide +kernel, by decide +kernel, ⟨_, .head _, by decide +kernel⟩, by decide +kernel⟩

/-- Faults of the engine instructions: no layout, one of another format, a misaligned and a distant tile, a length of 0, a word beyond scratch. -/
theorem witness_Copies_faults :
    (s0.core 0).layout? 1 0 = none ∧ ((c16 (sLy 4 [])).qntChecks { tq with tile := 3, origin := 63 } 0x40 0x1000 (ly 4)).isSome = true ∧
    (t0.rdS 0 3).toNat % 128 ≠ 0 ∧ (t0.rdS 0 5).toNat % 128 = 0 ∧ (t0.rdS 0 6).toNat % 128 = 0 ∧ (s0.kernelOf t0).scr < (t0.rdS 0 6).toNat + 8448 ∧
    (t0.rdS 0 63).toNat = 0 ∧ (t0.rdS 0 3).toNat + 0 ≤ (s0.kernelOf t0).scr ∧ (s0.kernelOf t0).scr < (t0.rdS 0 6).toNat + 0 ∧
    (wordFault (16 * 8192) (s0.kernelOf t0).scr).isSome = true ∧ ((c16 s0).tailFault { tl with arrive := some 8192 }).isSome = true ∧
    (t0.rdS 0 4).toNat = 3 := by decide +kernel

/-- A layout record that is misaligned, beyond scratch, unsound; one in memory behind a request that the far end refuses. -/
theorem witness_LayoutsAndConflicts_faults :
    (t0.rdS 0 0).toNat % 16 ≠ 0 ∧ (t0.rdS 0 6).toNat % 16 = 0 ∧ (s0.kernelOf t0).scr < (t0.rdS 0 6).toNat + 48 ∧
    ((Layout.ofNat (0xFF * 2 ^ 336)).fault 0).isSome = true ∧ s0.reqs = [] ∧
    (let s := sReq { sStrict with ueLines := [0x1000] } (req .load)
     (Ctx.of s t0 3 p0 8).Held false ((List.range 6).map fun i => laneAcc 0 (BitVec.ofNat 64 (0x1000 + 8 * i)) 0) ∧
     (Ctx.of s t0 3 p0 8).Held false ((Ctx.of s t0 3 p0 8).imageAccs 0x1000 8 fun _ => 0) ∧
     (Ctx.of s t0 3 p0 8).Held false ((Ctx.of s t0 3 p0 8).imageAccs 0x1000 4096 fun _ => 0)) ∧
    (let s := sReq { sStrict with ueLines := [0x10000000] } { req .load with line := 0x10000000 }
     (Ctx.of s t0 3 p0 8).Held false [laneAcc 0 0x10000000 0, laneAcc 0 0x10000008 0]) := by
  unfold Ctx.Held
  decide +kernel

theorem foremost_nil {c : Ctx} (h : c.s.reqs = []) (priv : Bool) (as : List LaneAcc) : c.Foremost priv as := by
  intro r hr
  rw [h] at hr
  cases hr

/-- No request in front of the small device's accesses, and of those of a body. -/
theorem witness_foremost :
    (∀ priv as, c0.Foremost priv as) ∧ ∀ priv as, (Ctx.of sBody (tCap (.own 1)) 1 p0 16).Foremost priv as :=
  ⟨foremost_nil rfl, foremost_nil rfl⟩

/-- A sequence number that is not spent, and a check that fails. -/
theorem witness_DeterministicAtomics_fault :
    errWith (cDet.gcheck (cDet.stores false .n32 { us with disp := 2 } (.v 4)) Need.atom.now 4) (fun f => f.code == 7) = true := by decide +kernel

/-- The return slot of a displaced lane without a translation. -/
theorem witness_CapsuleEntry_slot :
    errWith ((Ctx.of (sCap (.displaced 1) 0 0 1) (tCap (.displaced 1)) 1 p0 16).gcheck
      ((List.range 3).map fun i => laneAcc 0 (0x20000000 + BitVec.ofNat 64 (8 * i)) 0) Need.load.now 8) (fun f => f.code == 5) = true := by decide +kernel

/-- A body that adopted its cell, and one whose return slot no seal allows. -/
def sAdopt : State := sCap (.adopt 1) 1 1 1
def sSlot : State :=
  { sBody with asds := [{ Asd.reset 1 with rootFrame := 0x10, strict := true }], mem := Store.writeLE sBody.mem 0x10000018 8 0x20000000 }

theorem witness_BodiesEnd_adopted :
    sAdopt.cur = .body 1 0 ∧ sAdopt.CellAt 0 0x10000000 ∧ sAdopt.releaseSet 0 1 .device = [] ∧ sAdopt.reqs = [] ∧
    bodyIs sAdopt (fun b => b.live && b.l.mark == none && Nat.ble 4 b.c.t.alw.toNat && b.l.stage == .adopt 1 &&
      (List.range 3).all fun i => (b.slotBad (b.cell.slot + 8 * i)).isNone) = true ∧
    bodyIs sBody (fun b => (List.range 3).all fun i => (b.slotBad (b.cell.slot + 8 * i)).isNone) = true ∧
    sSlot.cur = .body 1 0 ∧ sSlot.CellAt 0 0x10000000 ∧ sSlot.releaseSet 0 1 .device = [] ∧ (sSlot.asd 1).strict = true ∧
    bodyIs sSlot (fun b => b.live && b.l.mark == none && Nat.ble 4 b.c.t.alw.toNat &&
      (List.range 3).all fun i => (b.slotBad (b.cell.slot + 8 * i)).map (·.1) == some 0x17) = true ∧
    (tCap (.own 1)).stop = none ∧ (tCap (.own 1)).fault = none ∧ (∀ v < 16, (sSlot.vf v).ringOn = false) :=
  ⟨by decide +kernel, cellAt_small _ (by decide +kernel) (by decide +kernel), by decide +kernel, by decide +kernel, by decide +kernel, by decide +kernel,
    by decide +kernel, cellAt_small _ (by decide +kernel) (by decide +kernel), by decide +kernel⟩

/-- A word of a return slot in memory that the core writes. -/
theorem witness_BodiesEnd_slotWord :
    okWith (sBody.xlate 0 1 0x2000) (fun l => !l.bypass && l.pa 0x2000 == 0x2000) = true ∧
    (let u := sBody.touch 0 1 0x2000 true
     u.touch 0 1 0x2000 true = u ∧ u.reqs = [] ∧ u.canon 0 0x2000 = 0x2000 ∧ u.zone 0x2000 ≠ .reserved ∧ u.l2.length < Config.l2Lines) := by
  decide +kernel

/-- A page that is no capsule memory, and an address that is not a multiple of 16. -/
theorem witness_CapsuleWords_faults :
    okWith (s0.xlate 0 1 0x1000) (fun l => !l.caps) = true ∧ (t0.rdS 0 2).toNat % 256 = 0 ∧ (t0.rdS 0 0).toNat % 16 ≠ 0 ∧ 2 ≤ t0.alw.toNat := by
  decide +kernel

/-- The numbers of SYSRD and SYSWR at the ends of each range, and SUSP with a load outstanding that no deferred fault holds. -/
theorem witness_SystemInstructions_numbers :
    (64 ≤ (0x40 : BitVec 8).toNat ∧ 64 ≤ (0xFF : BitVec 8).toNat ∧ 7 ≤ (7 : BitVec 8).toNat ∧ (0x3F : BitVec 8).toNat < 64 ∧ (0x40 : BitVec 32).toNat % 32 = 0) ∧
    (tPoor.alw.toNat < 2 ∧ (6 : BitVec 8) ≠ 4) ∧
    ((tOut (out1 (.v 4) 1 none)).outs ≠ [] ∧ (tOut (out1 (.v 4) 1 none)).deferred = [] ∧ ∀ q ∈ core0.fifoReqs, q.task ≠ 1) := by decide +kernel

/-- A slice whose tasks have held their slot for its time, while a task of another function waits; a load of a save that a deferred fault holds. -/
theorem witness_RetirementAndSaving_slice :
    (let bind : Bind := { slot := 0, kernel := 1, vf := 0, asid := 1, held := true, since := 0 }
     let s : State := { s0 with clock := 2 ^ 40, cores := [{ core0 with binds := [bind] }] }
     ((s.core 0).binds.find? fun b => b.slot == 0) = some bind ∧ (s.vf bind.vf).slice + s.gatedSpan 0 0 bind.since ≤ (s.clock - bind.since).toNat) ∧
    (let t := { tSave (out1 (.v 4) 1 none) with deferred := [{ req .load with out := some 9 }] }
     t.isDeferred (out1 (.v 4) 1 none) = true ∧ t.saving ≠ none) ∧
    (tSave (out1 (.v 4) 1 none)).isDeferred (out1 (.v 4) 1 none) = false := by decide +kernel

/-- A host reset that is noted in the ring, and a ring that is set. -/
theorem witness_LaunchesRun_ring :
    ({ launch node with hostReset := true } : Launch).hostReset = true ∧ (sRing.vf (launch node).vf).ringOn = true ∧ (launch node).vf < sRing.vfs.length ∧
    ¬ ((s0.vf 0).ringOn = true ∧ (s0.vf 0).ringBase = 0x6000) := by decide +kernel

end Sys2Proof.Tests
end

