-- ==== Sys2Proof/Proofs/Shape.lean ====
section
/-! SUPPORT. UnitsKeepTheirShape: what the invariant asks of a checkpoint image leaves its table of virtual functions open, and RESTORE
(R376) takes that table over. An image without functions, whole by its trailer and its digest, restores a device without functions. -/

namespace Sys2Proof.Machine

/-- What a store holds that lists a list from an address on. -/
theorem Store.get_map_zipIdx (l : List (BitVec 8)) (a i k : Nat) (hk : k < l.length) :
    Store.get ((l.zipIdx i).map fun b => (a + b.2, b.1)) (a + (i + k)) = l[k] := by
  induction l generalizing i k with
  | nil => simp at hk
  | cons x l ih =>
    cases k with
    | zero => simp [Store.get]
    | succ k =>
      have hne : ¬ a + (i + (k + 1)) = a + i := by omega
      simp only [List.zipIdx_cons, List.map_cons, Store.get, if_neg hne]
      rw [show i + (k + 1) = i + 1 + k by omega]
      exact ih (i + 1) k (by simpa using hk)

/-- A complete image of a device without tasks, cores and virtual functions, which takes host memory from address 0 on. -/
def functionlessImage : TierImage :=
  { mem := [], tasks := [], cores := [], launches := [], vfs := [], plies := [], plyGens := [], credits := [], inbound := []
    ranges := [(0, Config.hbmBytes + 72)], digest := Config.sha3 [], complete := true }

/-- Host memory with nothing but the image's trailer, behind the bytes of HBM. -/
def functionlessHost : Memory := (tierTrailer (Config.sha3 [])).zipIdx.map fun b => (Config.hbmBytes + b.2, b.1)

/-- An open device that has just been reset and whose host asks for that image back. -/
def restoring : State :=
  { State.reset with power := .open_, agenda := [.event .restore], tier := some functionlessImage, hostMem := functionlessHost }

theorem restoring_shaped : restoring.Shaped where
  ids := List.nodup_nil
  fresh := fun _ h => nomatch h
  lanes := fun _ h => nomatch h
  slots := fun _ h => nomatch h
  widths := fun _ h => nomatch h
  cores := List.nodup_nil
  core := fun _ h => nomatch h
  queues := List.length_replicate
  vfs := List.length_replicate
  tier := fun x hx => by
    obtain rfl : functionlessImage = x := Option.some.inj hx
    exact ⟨List.nodup_nil, (fun _ h => nomatch h), (fun _ _ h => nomatch h), (fun _ h => nomatch h)⟩

theorem length_tierTrailer (d : BitVec 512) : (tierTrailer d).length = 72 := by
  simp [tierTrailer, bytesLE]

/-- The image holds no byte of HBM: what host memory lists lies behind them. -/
theorem functionless_tierMem (s : State) (h : s.hostMem = functionlessHost) : s.tierMem functionlessImage.ranges = [] := by
  rw [State.tierMem, h]
  refine List.foldlRecOn (motive := fun m => m = []) _ _ rfl fun m hm c hc => ?_
  obtain ⟨b, -, rfl⟩ := List.mem_map.1 hc
  refine List.foldlRecOn (motive := fun m => m = []) _ _ hm fun m hm o ho => ?_
  have ho : ¬ o < Config.hbmBytes := by
    simp only [functionlessImage, tierOffsets, List.append_nil, List.mem_ite_nil_right, List.mem_singleton] at ho
    omega
  rw [if_neg ho, hm]

theorem functionless_tierByte (s : State) (h : s.hostMem = functionlessHost) {k : Nat} (hk : k < 72) :
    s.tierByte functionlessImage.ranges (Config.hbmBytes + k) = (tierTrailer (Config.sha3 []))[k]'(by rwa [length_tierTrailer]) := by
  have ht : tierAt functionlessImage.ranges (Config.hbmBytes + k) = some (Config.hbmBytes + k) := by
    simp only [functionlessImage, tierAt]
    rw [if_pos (by omega), Nat.zero_add]
  rw [State.tierByte, ht, h]
  simpa [functionlessHost] using Store.get_map_zipIdx (tierTrailer (Config.sha3 [])) Config.hbmBytes 0 k (by rwa [length_tierTrailer])

theorem functionless_whole (s : State) (h : s.hostMem = functionlessHost) : s.tierWhole functionlessImage = true := by
  have hb : (s.withImage functionlessImage).imageBytes (s.tierMem functionlessImage.ranges) functionlessImage.tasks = [] := by
    rw [functionless_tierMem s h]
    rfl
  have ht : (List.range 72).map (fun k => s.tierByte functionlessImage.ranges (Config.hbmBytes + k)) = tierTrailer (Config.sha3 []) :=
    List.ext_getElem (by simp [length_tierTrailer]) fun k hk _ => by
      simpa using functionless_tierByte s h (by simpa using hk)
  rw [State.tierWhole, hb, ht]
  simp [functionlessImage]

/-- The step in which the device restores the image leaves it without virtual functions. -/
theorem step_restoring : ∃ s', step restoring = .next s' ∧ s'.vfs = [] := by
  let s : State := { restoring with agenda := [] }
  have hw : s.tierWhole functionlessImage = true := functionless_whole s rfl
  have he : ∃ s', execRestore s = .next s' ∧ s'.vfs = [] := by
    simp only [execRestore, show s.tier = some functionlessImage from rfl, hw, show s.power = .open_ from rfl, show s.tasks = [] from rfl]
    exact ⟨_, rfl, rfl⟩
  obtain ⟨s', h1, h2⟩ := he
  refine ⟨s'.pass, ?_, h2⟩
  show onNext (execRestore s) State.pass = _
  rw [h1]
  rfl

end Sys2Proof.Machine
end
section
open Sys2Proof Sys2Proof.Machine

/-- Refutes O59: the invariant does not say how many virtual functions a checkpoint image has. RESTORE of an image that is whole and has none
leaves the device without any, where R357 gives it 16. -/
theorem not_unitsKeepTheirShape : ¬ Obligations.UnitsKeepTheirShape := by
  unfold Obligations.UnitsKeepTheirShape
  intro h
  obtain ⟨s', hs, hv⟩ := step_restoring
  have := (h restoring s' restoring_shaped hs).vfs
  rw [hv] at this
  cases this

end

