-- ==== Sys2Proof/Proofs/Tasks.lean ====
section
/-! SUPPORT. Units that keep no task: what the memory system, the engines' addresses and the fault queue do leaves the list of tasks alone. -/

namespace Sys2Proof.Machine

@[simp] theorem State.foldl_tasks {α : Type} {f : State → α → State} (hf : ∀ s a, (f s a).tasks = s.tasks) (l : List α) (s : State) :
    (l.foldl f s).tasks = s.tasks := by
  induction l generalizing s with
  | nil => rfl
  | cons a r ih => rw [List.foldl_cons, ih, hf]

@[simp] theorem State.ite_tasks (c : Prop) [Decidable c] (a b : State) : (if c then a else b).tasks = if c then a.tasks else b.tasks :=
  apply_ite State.tasks c a b

@[simp] theorem State.count_tasks (s : State) (v i : Nat) : (s.count v i).tasks = s.tasks := by simp [State.count]

@[simp] theorem State.pushRecord_tasks (s : State) (core : Nat) (r : FaultRec) : (s.pushRecord core r).tasks = s.tasks := by
  simp [State.pushRecord]

@[simp] theorem State.taintScr_tasks (s : State) (core : Nat) (k : KKey) (addrs : List Nat) (unit : Bool) :
    (s.taintScr core k addrs unit).tasks = s.tasks := by simp [State.taintScr]

@[simp] theorem State.fifoWithdraw_tasks (s : State) (tid : Nat) : (s.fifoWithdraw tid).tasks = s.tasks := rfl

@[simp] theorem State.rawSet_tasks (s : State) (vf pa : Nat) (b : BitVec 8) : (s.rawSet vf pa b).tasks = s.tasks := by
  unfold State.rawSet
  split <;> simp

@[simp] theorem State.homeSet_tasks (s : State) (vf pa : Nat) (b : BitVec 8) : (s.homeSet vf pa b).tasks = s.tasks := by
  unfold State.homeSet
  split <;> simp

@[simp] theorem State.homeWrite_tasks (s : State) (vf pa n v : Nat) : (s.homeWrite vf pa n v).tasks = s.tasks := by
  induction n generalizing s pa v with
  | zero => rfl
  | succ n ih => rw [State.homeWrite, ih, State.homeSet_tasks]

@[simp] theorem State.l2Clean_tasks (s : State) (vf line : Nat) : (s.l2Clean vf line).tasks = s.tasks := by
  unfold State.l2Clean
  split <;> simp

@[simp] theorem State.l2Drop_tasks (s : State) (line : Nat) : (s.l2Drop line).tasks = s.tasks := (rfl)

@[simp] theorem State.l2Room_tasks (s : State) (slice : Nat) : (s.l2Room slice).tasks = s.tasks := by
  unfold State.l2Room
  extract_lets held first of_
  split
  · rfl
  · split <;> simp

@[simp] theorem State.corrected_tasks (s : State) (vf line : Nat) : (s.corrected vf line).tasks = s.tasks := by simp [State.corrected]

@[simp] theorem State.memRead_tasks (s : State) (vf line : Nat) : (s.memRead vf line).tasks = s.tasks := by simp [State.memRead]

@[simp] theorem State.l2Fill_tasks (s : State) (vf line : Nat) (sealId : BitVec 20) (stream : Bool) :
    (s.l2Fill vf line sealId stream).tasks = s.tasks := by
  unfold State.l2Fill
  split <;> simp

@[simp] theorem State.hostFlush_tasks (s : State) : (s.hostFlush).tasks = s.tasks := by simp [State.hostFlush]

@[simp] theorem State.released_tasks (s : State) (sc : Scope) : (s.released sc).tasks = s.tasks := by simp [State.released]

@[simp] theorem State.walked_tasks (s : State) (asid : BitVec 16) (va : Nat) : (s.walked asid va).tasks = s.tasks := by simp [State.walked]

@[simp] theorem State.touch_tasks (s : State) (core : Nat) (asid : BitVec 16) (va : Nat) (write : Bool) :
    (s.touch core asid va write).tasks = s.tasks := by
  unfold State.touch
  split
  · rfl
  · extract_lets w0 s0 s1 e put
    calc _ = s1.tasks := by simp
      _ = s0.tasks := by simp [s1]
      _ = s.tasks := by simp [s0]

@[simp] theorem State.grantRead_tasks (s : State) (asid : BitVec 16) (prin : BitVec 24) (sealId : BitVec 20) :
    (s.grantRead asid prin sealId).tasks = s.tasks := by simp [State.grantRead]

@[simp] theorem State.noteSeal_tasks (s : State) (core : Nat) (asid : BitVec 16) (prin : BitVec 24) (sealId : BitVec 20) :
    (s.noteSeal core asid prin sealId).tasks = s.tasks := by simp [State.noteSeal]

@[simp] theorem State.vWrite8_tasks (s : State) (asid : BitVec 16) (va v : Nat) : (s.vWrite8 asid va v).tasks = s.tasks := by
  unfold State.vWrite8
  split <;> simp

@[simp] theorem State.event_tasks (s : State) (vf : Nat) (e : Event) : (s.event vf e).tasks = s.tasks := by simp [State.event]

@[simp] theorem State.ueError_tasks (s : State) (task : Nat) (asid : BitVec 16) (prin : BitVec 24) (va : Nat) (sealId : BitVec 20) :
    (s.ueError task asid prin va sealId).tasks = s.tasks := by simp [State.ueError]

@[simp] theorem State.writeBack_tasks (s : State) (l : L1Line) : (s.writeBack l).tasks = s.tasks := by simp [State.writeBack]

@[simp] theorem State.dropGlobal_tasks (s : State) (core : Nat) : (s.dropGlobal core).tasks = s.tasks := by simp [State.dropGlobal]

@[simp] theorem State.l1Store_tasks (s : State) (core : Nat) (pa n v : Nat) (dirty : Bool) : (s.l1Store core pa n v dirty).tasks = s.tasks := by
  simp [State.l1Store]

@[simp] theorem State.setOwner_tasks (s : State) (vf pa owner state step : Nat) : (s.setOwner vf pa owner state step).tasks = s.tasks := by
  simp [State.setOwner]

@[simp] theorem State.lease_tasks (s : State) (pa : Nat) : (s.lease pa).tasks = s.tasks := (rfl)

@[simp] theorem State.dropLease_tasks (s : State) (pa : Nat) : (s.dropLease pa).tasks = s.tasks := (rfl)

@[simp] theorem State.acquire_tasks (s : State) (core : Nat) (sc : Scope) : (s.acquire core sc).tasks = s.tasks := by
  unfold State.acquire
  split <;> simp

@[simp] theorem State.acquireOf_tasks (s : State) (t : Task) (sc : Scope) : (s.acquireOf t sc).tasks = s.tasks := by simp [State.acquireOf]

end Sys2Proof.Machine
end

