-- ==== Sys2Proof/Proofs/Steps.lean ====
section
/-! SUPPORT. What the shared operations leave of a task. A relation between a task and what has become of it is stepped through the state:
Still for the operations that only serve waits, Calm for those that settle accounts as well, Kept for those that stop tasks and serve joins. -/

namespace Sys2Proof.Machine

/-! ### Stepping a relation through the state -/

/-- Every task of s is a task of s' still, and R relates the two. -/
def State.Steps (R : Task → Task → Prop) (s s' : State) : Prop :=
  ∀ j t, s.task? j = some t → ∃ t', s'.task? j = some t' ∧ R t t'

/-- R may be stepped: nothing done is a step, and two steps are one. -/
structure Stepping (R : Task → Task → Prop) : Prop where
  refl : ∀ t, R t t
  trans : ∀ a b c, R a b → R b c → R a c

section
variable {R : Task → Task → Prop} {s s' s'' : State}

theorem State.Steps.mono {R' : Task → Task → Prop} (h : ∀ t t', R t t' → R' t t') (hs : s.Steps R s') : s.Steps R' s' := fun j t ht => by
  obtain ⟨t', ht', hr⟩ := hs j t ht
  exact ⟨t', ht', h _ _ hr⟩

variable (hR : Stepping R)
include hR

theorem State.steps_of_tasks (h : s'.tasks = s.tasks) : s.Steps R s' := fun _ t ht => ⟨t, by rw [State.task?, h]; exact ht, hR.refl t⟩

theorem State.steps_refl (s : State) : s.Steps R s := State.steps_of_tasks hR rfl

theorem State.Steps.trans (h : s.Steps R s') (h' : s'.Steps R s'') : s.Steps R s'' := fun j t ht => by
  obtain ⟨t', ht', hr⟩ := h j t ht
  obtain ⟨t'', ht'', hr'⟩ := h' j t' ht'
  exact ⟨t'', ht'', hR.trans _ _ _ hr hr'⟩

/-- A step, and behind it what moves no task. -/
theorem State.Steps.tasks (h : s.Steps R s') (e : s''.tasks = s'.tasks) : s.Steps R s'' := h.trans hR (State.steps_of_tasks hR e)

theorem State.steps_updTask (s : State) (i : Nat) (f : Task → Task) (hid : ∀ t, (f t).id = t.id) (hf : ∀ t, s.task? i = some t → R t (f t)) :
    s.Steps R (s.updTask i f) := fun j t ht => by
  by_cases h : j = i
  · subst h
    exact ⟨f t, State.task?_updTask_self f hid ht, hf t ht⟩
  · exact ⟨t, (State.task?_updTask_ne s i f hid h).trans ht, hR.refl t⟩

omit hR in
theorem State.steps_mapTasks (s : State) (f : Task → Task) (hid : ∀ t, (f t).id = t.id) (hf : ∀ t, R t (f t)) :
    s.Steps R { s with tasks := s.tasks.map f } := fun j t ht => by
  refine ⟨f t, ?_, hf t⟩
  unfold State.task? at ht ⊢
  rw [List.find?_map, show ((fun t : Task => t.id == j) ∘ f) = fun t => t.id == j from funext fun t => by simp [hid], ht]
  rfl

theorem State.steps_foldl {α : Type} (f : State → α → State) (hf : ∀ (s : State) (a : α), s.Steps R (f s a)) (l : List α) (s : State) :
    s.Steps R (l.foldl f s) := by
  induction l generalizing s with
  | nil => exact State.steps_refl hR s
  | cons a l ih => exact (hf s a).trans hR (ih _)

omit hR in
theorem State.steps_ite (c : Prop) [Decidable c] (h : c → s.Steps R s') (h' : ¬ c → s.Steps R s'') :
    s.Steps R (if c then s' else s'') := by
  split
  next hc => exact h hc
  next hc => exact h' hc

end

/-! ### What is left of a task -/

/-- The task is the same, and its trap record and its end stand. -/
structure Task.Kept (t t' : Task) : Prop where
  id : t'.id = t.id
  place : t'.place = t.place
  trapRec : t'.trapRec = t.trapRec
  stop : ∀ f, t.stop = some f → t'.stop = some f

/-- The task is the same, and so are its relatives; it runs or does not as before, and has begun no wait. -/
structure Task.Calm (t t' : Task) : Prop where
  id : t'.id = t.id
  place : t'.place = t.place
  trapRec : t'.trapRec = t.trapRec
  stop : t'.stop = t.stop
  parent : t'.parent = t.parent
  handle : t'.handle = t.handle
  handler : t'.handlerFor = t.handlerFor
  children : t'.children = t.children
  waits : t.waits = [] → t'.waits = []

/-- Calm, and the account of a task that is in no slot stands. -/
structure Task.Still (t t' : Task) : Prop extends Task.Calm t t' where
  alw : t.isPlaced = false → t'.alw = t.alw

theorem Task.Calm.kept {t t' : Task} (h : t.Calm t') : t.Kept t' :=
  ⟨h.id, h.place, h.trapRec, fun _ hf => h.stop.trans hf⟩

theorem Task.kept_stepping : Stepping Task.Kept where
  refl _ := ⟨rfl, rfl, rfl, fun _ h => h⟩
  trans _ _ _ h h' := ⟨h'.id.trans h.id, h'.place.trans h.place, h'.trapRec.trans h.trapRec, fun f hf => h'.stop f (h.stop f hf)⟩

theorem Task.calm_stepping : Stepping Task.Calm where
  refl _ := ⟨rfl, rfl, rfl, rfl, rfl, rfl, rfl, rfl, fun h => h⟩
  trans _ _ _ h h' := ⟨h'.id.trans h.id, h'.place.trans h.place, h'.trapRec.trans h.trapRec, h'.stop.trans h.stop, h'.parent.trans h.parent,
    h'.handle.trans h.handle, h'.handler.trans h.handler, h'.children.trans h.children, fun e => h'.waits (h.waits e)⟩

theorem Task.isPlaced_of_place {t t' : Task} (h : t'.place = t.place) : t'.isPlaced = t.isPlaced := by simp only [Task.isPlaced, h]

theorem Task.still_stepping : Stepping Task.Still where
  refl t := ⟨Task.calm_stepping.refl t, fun _ => rfl⟩
  trans _ _ _ h h' := ⟨Task.calm_stepping.trans _ _ _ h.toCalm h'.toCalm, fun e =>
    (h'.alw ((Task.isPlaced_of_place h.place).trans e)).trans (h.alw e)⟩

/-! ### Functions of one task -/

@[simp] theorem Task.wake_id (t : Task) (w : Wait) : (t.wake w).id = t.id := by simp [Task.wake]

theorem Task.still_wake (t : Task) (w : Wait) : t.Still (t.wake w) := by
  constructor
  · constructor <;> simp +contextual [Task.wake]
  · simp [Task.wake]

theorem Task.still_onCaps (t : Task) (f : CapLane → CapLane) : t.Still (t.onCaps f) := by
  constructor
  · constructor <;> simp +contextual [Task.onCaps]
  · simp [Task.onCaps]

/-- What the task that takes a fault becomes, behind its cells. -/
def Task.faulted (r : FaultRec) (t : Task) : Task :=
  { (t.onLanes r.gmask fun _ x => if x.park = .none then { x with park := .fault } else x).leaveSets 0 with fault := some r }

theorem Task.still_faulted (t : Task) (r : FaultRec) : t.Still (t.faulted r) := by
  constructor
  · constructor <;> simp +contextual [Task.faulted]
  · simp [Task.faulted]

theorem Task.calm_settle (t : Task) (a b : Nat) : t.Calm (t.settle a b) := by constructor <;> simp +contextual [Task.settle]

theorem Task.calm_mxFinal (t : Task) (core cv : Nat) (epoch : BitVec 16) (ops : List Nat) (e : MxEnd) : t.Calm (t.mxFinal core cv epoch ops e) := by
  constructor <;> simp +contextual [Task.mxFinal]

theorem Task.still_markPriv (t : Task) (k : Kernel) (va n : Nat) : t.Still (t.markPriv k va n) := by
  unfold Task.markPriv
  split
  · exact Task.still_stepping.refl t
  · constructor
    · constructor <;> simp +contextual
    · simp

/-! ### Operations that serve waits -/

theorem State.orphan_still (s : State) (tid : Nat) : s.Steps Task.Still (s.orphan tid) := by
  unfold State.orphan
  split
  · exact State.steps_refl Task.still_stepping s
  · refine (State.steps_foldl Task.still_stepping _ (fun s l => ?_) _ _).trans Task.still_stepping
      (State.steps_updTask Task.still_stepping _ _ _ (fun _ => rfl) fun t _ => t.still_onCaps _)
    exact State.steps_of_tasks Task.still_stepping (by dsimp only; split <;> simp)

theorem State.takeFault_eq (s : State) (tid : Nat) (r : FaultRec) {t : Task} (h : s.task? tid = some t) :
    s.takeFault tid r = ((s.orphan tid).pushRecord t.core r).updTask tid (Task.faulted r) := by
  simp only [State.takeFault, h]
  rfl

theorem State.takeFault_still (s : State) (tid : Nat) (r : FaultRec) : s.Steps Task.Still (s.takeFault tid r) := by
  cases h : s.task? tid with
  | none =>
    simp only [State.takeFault, h]
    exact State.steps_refl Task.still_stepping s
  | some t =>
    rw [State.takeFault_eq s tid r h]
    exact ((s.orphan_still tid).tasks Task.still_stepping (by simp)).trans Task.still_stepping
      (State.steps_updTask Task.still_stepping _ _ _ (fun _ => by simp [Task.faulted]) fun t _ => t.still_faulted r)

theorem State.fifoFault_still (s : State) (q : FifoReq) : s.Steps Task.Still (s.fifoFault q) := by
  unfold State.fifoFault
  split
  · exact State.steps_refl Task.still_stepping s
  next t ht =>
    have hid := State.task?_id ht
    split
    · exact State.steps_refl Task.still_stepping s
    next hp =>
      have hp : t.isPlaced = true := by simp_all
      extract_lets back s1
      split
      · split
        · exact State.steps_refl Task.still_stepping s
        next w _ =>
          extract_lets s2
          have h1 : s.Steps Task.Still s1 := State.steps_of_tasks Task.still_stepping (by simp [s1])
          have h2 : s.Steps Task.Still s2 := h1.trans Task.still_stepping
            (State.steps_updTask Task.still_stepping _ _ _ (fun u => by simp [back]) fun u hu => by
              have : u = t := by simpa [s1, hid, ht, eq_comm] using hu
              subst this
              exact ⟨by constructor <;> simp +contextual [back], fun h => absurd hp (by simp [h])⟩)
          split
          · exact h2
          · exact h2.trans Task.still_stepping (State.takeFault_still _ _ _)
      · split
        · exact State.steps_refl Task.still_stepping s
        next o _ =>
          extract_lets again s3
          have h1 : s.Steps Task.Still s1 := State.steps_of_tasks Task.still_stepping (by simp [s1])
          have h3 : s.Steps Task.Still s3 := h1.trans Task.still_stepping
            (State.steps_updTask Task.still_stepping _ _ _ (fun u => by simp [back]) fun u hu => by
              have : u = t := by simpa [s1, hid, ht, eq_comm] using hu
              subst this
              exact ⟨by constructor <;> simp +contextual [back], fun h => absurd hp (by simp [h])⟩)
          split
          · exact h3
          next u _ =>
            exact (((h3.trans Task.still_stepping (State.orphan_still s3 u.id)).tasks Task.still_stepping (by simp))).trans Task.still_stepping
              (State.steps_updTask Task.still_stepping _ _ _ (fun _ => rfl) fun u _ => ⟨by constructor <;> simp, fun _ => rfl⟩)

theorem State.fifoLeft_still (s : State) (core bank : Nat) : s.Steps Task.Still (s.fifoLeft core bank) :=
  ((State.steps_refl Task.still_stepping s).tasks Task.still_stepping (by simp)).trans Task.still_stepping
    (State.steps_foldl Task.still_stepping _ State.fifoFault_still _ _)

theorem State.bankAct_still (s : State) (core : Nat) (k : Kernel) (bank : Nat) (mode : BankMode) :
    s.Steps Task.Still (s.bankAct core k bank mode) := by
  unfold State.bankAct
  extract_lets c b gone s1 s2
  have h2 : s.Steps Task.Still s2 := State.steps_of_tasks Task.still_stepping (by simp [s2, s1])
  exact State.steps_ite _ (fun _ => State.steps_refl Task.still_stepping s) fun _ => State.steps_ite _
    (fun _ => h2.trans Task.still_stepping (State.fifoLeft_still _ _ _)) fun _ => h2

/-- Waking the task of a wait. -/
theorem State.wake_still (s : State) (i : Nat) (w : Wait) : s.Steps Task.Still (s.updTask i fun t => t.wake w) :=
  State.steps_updTask Task.still_stepping _ _ _ (fun _ => Task.wake_id _ _) fun t _ => t.still_wake w

/-- Writing the result of a wait and waking its task. -/
theorem State.wakeSet_still (s : State) (i : Nat) (dst : Fin 64) (x : BitVec 64) (w : Wait) :
    s.Steps Task.Still (s.updTask i fun t => (t.setS dst x).wake w) :=
  State.steps_updTask Task.still_stepping _ _ _ (fun _ => by simp) fun t _ =>
    Task.still_stepping.trans _ _ _ ⟨by constructor <;> simp +contextual, fun _ => by simp⟩ (Task.still_wake _ _)

theorem State.serveBanks_still (s : State) : s.Steps Task.Still s.serveBanks :=
  State.steps_foldl Task.still_stepping _ (fun s t => State.steps_foldl Task.still_stepping _ (fun s w => by
    split
    · exact State.steps_ite _ (fun _ => State.steps_refl Task.still_stepping s) fun _ =>
        (State.bankAct_still _ _ _ _ _).trans Task.still_stepping (State.wake_still _ _ _)
    · exact State.steps_refl Task.still_stepping s) _ _) _ _

theorem State.plyRelease_still (s : State) (id : BitVec 32) : s.Steps Task.Still (s.plyRelease id) := by
  unfold State.plyRelease
  split
  · exact State.steps_refl Task.still_stepping s
  next p _ =>
    extract_lets s1
    refine State.steps_ite _ (fun _ => State.steps_refl Task.still_stepping s) fun _ =>
      (State.steps_of_tasks Task.still_stepping (s' := s1) (by simp [s1])).trans Task.still_stepping
        (State.steps_foldl Task.still_stepping _ (fun s t => State.steps_foldl Task.still_stepping _ (fun s w => ?_) _ _) _ _)
    split
    · exact State.steps_ite _ (fun _ => (State.wake_still s t.id w).tasks Task.still_stepping (by simp)) fun _ =>
        State.steps_refl Task.still_stepping s
    · exact State.steps_refl Task.still_stepping s

theorem Task.still_foldl {α : Type} (f : Task → α → Task) (hf : ∀ (t : Task) (a : α), t.Still (f t a)) (l : List α) (t : Task) :
    t.Still (l.foldl f t) := by
  induction l generalizing t with
  | nil => exact Task.still_stepping.refl t
  | cons a l ih => exact Task.still_stepping.trans _ _ _ (hf t a) (ih _)

theorem Task.still_leavePly (t : Task) (id : BitVec 32) (ws : List Wait) :
    t.Still (ws.foldl Task.wake { t with plies := t.plies.filter (· ≠ id) }) :=
  Task.still_stepping.trans _ { t with plies := t.plies.filter (· ≠ id) } _ ⟨by constructor <;> simp, fun _ => rfl⟩
    (Task.still_foldl _ Task.still_wake ws _)

theorem State.plyLeave_still (s : State) (tid : Nat) (id : BitVec 32) : s.Steps Task.Still (s.plyLeave tid id) := by
  unfold State.plyLeave
  extract_lets s1
  have h1 : s.Steps Task.Still s1 := State.steps_updTask Task.still_stepping _ _ _ (fun t => (t.still_leavePly id _).id)
    fun t _ => t.still_leavePly id _
  split
  · exact h1
  · extract_lets left
    exact State.steps_ite _ (fun _ => h1.tasks Task.still_stepping rfl) fun _ =>
      (h1.tasks Task.still_stepping (by simp)).trans Task.still_stepping (State.plyRelease_still _ _)

theorem State.unwindPlies_still (s : State) (tid : Nat) : s.Steps Task.Still (s.unwindPlies tid) := by
  unfold State.unwindPlies
  split
  · exact State.steps_refl Task.still_stepping s
  · exact State.steps_ite _ (fun _ => State.steps_foldl Task.still_stepping _ (fun s p => s.plyLeave_still _ p) _ _) fun _ =>
      State.steps_refl Task.still_stepping s

theorem State.scratchTouched_still (s : State) (core : Nat) (k : KKey) : s.Steps Task.Still (s.scratchTouched core k) := by
  unfold State.scratchTouched
  extract_lets m words s1 s2
  have h2 : s.Steps Task.Still s2 := State.steps_of_tasks Task.still_stepping (by simp [s2, s1])
  refine h2.trans Task.still_stepping (State.steps_foldl Task.still_stepping _ (fun s t =>
    State.steps_ite _ (fun _ => State.steps_refl Task.still_stepping s) fun _ =>
      State.steps_foldl Task.still_stepping _ (fun s w => ?_) _ _) _ _)
  split
  next word gen dst _ _ _ =>
    exact State.steps_ite _ (fun _ => (State.wakeSet_still s t.id dst 0 w).tasks Task.still_stepping (by simp)) fun _ =>
      State.steps_refl Task.still_stepping s
  · exact State.steps_refl Task.still_stepping s

theorem State.serveMxWaits_still (s : State) : s.Steps Task.Still s.serveMxWaits := by
  refine State.steps_foldl Task.still_stepping _ (fun s t0 => State.steps_foldl Task.still_stepping _ (fun s w => ?_) _ _) _ _
  split
  next t cv dst ht _ =>
    split
    · exact State.steps_refl Task.still_stepping s
    next e _ =>
      refine State.steps_ite _ (fun _ => State.steps_refl Task.still_stepping s) fun hp => ?_
      have woken : ∀ (x : BitVec 64) (f : Core → Core), s.Steps Task.Still
          ((s.updTask t.id fun t => ((t.setS dst x).mxWaited cv).wake w).updCore t.core f) := fun x f =>
        (State.steps_updTask Task.still_stepping s t.id (fun t => ((t.setS dst x).mxWaited cv).wake w) (fun _ => by simp [Task.mxWaited])
          fun t _ => Task.still_stepping.trans _ _ _
            ⟨by constructor <;> simp +contextual [Task.mxWaited], fun _ => by simp [Task.mxWaited]⟩ (Task.still_wake _ _)).tasks
          Task.still_stepping (by simp)
      split
      · exact woken _ _
      · exact woken _ _
      · exact woken _ _
      · refine State.steps_ite _ (fun _ => State.steps_refl Task.still_stepping s) fun _ =>
          (State.steps_updTask Task.still_stepping _ _ _ (fun _ => by simp) fun u hu => ?_).trans Task.still_stepping (State.takeFault_still _ _ _)
        have : u = t := by simpa [State.task?_id ht, ht, eq_comm] using hu
        subst this
        exact ⟨by constructor <;> simp +contextual, fun h => absurd hp (by simp [h])⟩
  · exact State.steps_refl Task.still_stepping s

/-! ### Operations that settle accounts -/

theorem State.Steps.calm {s s' : State} (h : s.Steps Task.Still s') : s.Steps Task.Calm s' := h.mono fun _ _ h => h.toCalm

theorem State.Steps.kept {s s' : State} (h : s.Steps Task.Calm s') : s.Steps Task.Kept s' := h.mono fun _ _ h => h.kept

theorem State.deny_calm (s : State) (task : Nat) (asid : BitVec 16) (prin : BitVec 24) (va : Nat) (sealId : BitVec 20) :
    s.Steps Task.Calm (s.deny task asid prin va sealId) :=
  ((State.steps_of_tasks Task.calm_stepping (by simp)).trans Task.calm_stepping
    (State.steps_updTask Task.calm_stepping (s.count (s.asd asid).vf 0) task (fun t => { t with sealcnt := t.sealcnt + 1 }) (fun _ => rfl)
      fun t _ => by constructor <;> simp)).tasks Task.calm_stepping (by simp [State.deny])

theorem State.denied_calm (s : State) (task : Nat) (asid : BitVec 16) (prin : BitVec 24) (va : Nat) (sealId : BitVec 20) (here : Bool) :
    s.Steps Task.Calm (s.denied task asid prin va sealId here) :=
  State.steps_ite _ (fun _ => s.deny_calm _ _ _ _ _) fun _ =>
    State.steps_updTask Task.calm_stepping _ _ _ (fun _ => rfl) fun t _ => by constructor <;> simp

theorem State.engNote_calm (s : State) (m : EngMode) (task : Nat) (ls : List ELine) : s.Steps Task.Calm (s.engNote m task ls) := by
  refine State.steps_foldl Task.calm_stepping _ (fun s e => ?_) _ _
  extract_lets s1 here
  have h1 : s.Steps Task.Calm s1 := State.steps_of_tasks Task.calm_stepping (by simp [s1])
  exact State.steps_ite _ (fun _ => h1.trans Task.calm_stepping (s1.denied_calm _ _ _ _ _ _)) fun _ => State.steps_ite _
    (fun _ => h1.tasks Task.calm_stepping (by simp)) fun _ => h1

theorem State.markBytes_calm (s : State) (asid : BitVec 16) (va n : Nat) : s.Steps Task.Calm (s.markBytes asid va n) := by
  unfold State.markBytes
  split
  · exact State.steps_refl Task.calm_stepping s
  · exact State.steps_updTask Task.calm_stepping _ _ _ (fun t => (t.still_markPriv _ va n).id) fun t _ => (t.still_markPriv _ va n).toCalm

theorem State.engPut_calm (s : State) (m : EngMode) (ls : List ELine) (va : Nat) (b : BitVec 8) : s.Steps Task.Calm (s.engPut m ls va b) := by
  unfold State.engPut
  split
  · exact State.steps_refl Task.calm_stepping s
  next e _ =>
    extract_lets pa s0 s1
    exact State.steps_ite _ (fun _ => State.steps_refl Task.calm_stepping s) fun _ =>
      (s.markBytes_calm m.asid va 1).tasks Task.calm_stepping (by simp [s1, s0])

theorem State.copyPartial_calm (s : State) (o : CopyOp) : s.Steps Task.Calm (s.copyPartial o).1 := by
  unfold State.copyPartial
  split
  · exact State.steps_refl Task.calm_stepping s
  next e _ =>
    extract_lets key tile begun gs data sg scr s1 s2 s3 s4
    have h1 : s.Steps Task.Calm s1 := s.engNote_calm _ _ _
    have h2 : s.Steps Task.Calm s2 := State.steps_ite _ (fun _ => h1) fun _ => h1.trans Task.calm_stepping (s1.engNote_calm _ _ _)
    have h3 : s.Steps Task.Calm s3 := h2.trans Task.calm_stepping (State.steps_foldl Task.calm_stepping _ (fun s b => s.engPut_calm _ _ _ _) _ _)
    exact h3.tasks Task.calm_stepping (by simp [s4])

theorem State.copySettle_calm (s : State) (o : CopyOp) (n : Nat) : s.Steps Task.Calm (s.copySettle o n) :=
  ((State.steps_of_tasks Task.calm_stepping (s' := s.updCore o.core fun c => { c with copies := c.copies.filter fun p => p.id ≠ o.id })
    (by simp)).trans Task.calm_stepping (State.steps_updTask Task.calm_stepping _ o.task (fun t => t.settle o.reserved.toNat n) (fun _ => rfl)
      fun t _ => t.calm_settle _ _)).trans Task.calm_stepping (State.serveBanks_still _).calm

theorem State.copyCancel_calm (s : State) (o : CopyOp) : s.Steps Task.Calm (s.copyCancel o) := by
  unfold State.copyCancel
  refine State.steps_ite _ (fun _ => ?_) fun _ => s.copySettle_calm o 0
  split
  next s1 n h =>
    have h1 : s.Steps Task.Calm s1 := by
      have := s.copyPartial_calm o
      rwa [h] at this
    exact ((h1.trans Task.calm_stepping (s1.copySettle_calm o n)).tasks Task.calm_stepping (by simp)).trans Task.calm_stepping
      (State.scratchTouched_still _ _ _).calm

theorem State.genDone_calm (s : State) (core armer : Nat) (d : Desc) : s.Steps Task.Calm (s.genDone core armer d) :=
  State.steps_ite _ (fun _ => State.steps_refl Task.calm_stepping s) fun _ => State.steps_ite _
    (fun _ => State.steps_of_tasks Task.calm_stepping (by simp)) fun _ =>
      State.steps_updTask Task.calm_stepping _ _ _ (fun _ => rfl) fun t _ => by constructor <;> simp

theorem State.mxEnd_calm (s : State) (core i : Nat) (e : MxEnd) : s.Steps Task.Calm (s.mxEnd core i e) := by
  unfold State.mxEnd
  extract_lets v d s1 ops s2
  have h1 : s.Steps Task.Calm s1 := State.steps_updTask Task.calm_stepping _ _ _ (fun _ => rfl) fun t _ => t.calm_settle _ _
  have h2 : s.Steps Task.Calm s2 := h1.trans Task.calm_stepping
    (State.steps_mapTasks s1 _ (fun _ => rfl) fun t => t.calm_mxFinal core i v.epoch ops e)
  exact (h2.trans Task.calm_stepping (s2.genDone_calm core v.armer d)).tasks Task.calm_stepping (by simp)

theorem State.mxStop_calm (s : State) (core i : Nat) (e : MxEnd) : s.Steps Task.Calm (s.mxStop core i e) := by
  unfold State.mxStop
  extract_lets c v kern s1
  have h1 : s.Steps Task.Calm s1 := State.steps_of_tasks Task.calm_stepping (by simp [s1])
  exact State.steps_ite _ (fun _ => State.steps_refl Task.calm_stepping s) fun _ => h1.trans Task.calm_stepping (s1.mxEnd_calm core i e)

theorem State.mxCancelAll_calm (s : State) (tid : Nat) : s.Steps Task.Calm (s.mxCancelAll tid) := by
  unfold State.mxCancelAll
  extract_lets s1
  have h1 : s.Steps Task.Calm s1 := State.steps_foldl Task.calm_stepping _ (fun s c =>
    State.steps_foldl Task.calm_stepping _ (fun s i => State.steps_ite _ (fun _ => s.mxStop_calm _ _ _) fun _ =>
      State.steps_refl Task.calm_stepping s) _ _) _ _
  exact (h1.trans Task.calm_stepping s1.serveMxWaits_still.calm).trans Task.calm_stepping (State.serveBanks_still _).calm

/-! ### Stopping a task, serving joins, trap 0x0A -/

theorem State.stopOne_kept {s : State} {tid : Nat} {t : Task} (ht : s.task? tid = some t) (hs : t.stop = none) (f : Final) :
    s.Steps Task.Kept (s.stopOne tid f) ∧ ∃ t', (s.stopOne tid f).task? tid = some t' ∧ t'.stop = some f := by
  unfold State.stopOne
  split
  next hn => cases hn.symm.trans ht
  next v hv =>
  obtain rfl : v = t := Option.some.inj (hv.symm.trans ht)
  extract_lets s1 s2 s2' s3 s4
  have h1 : s.Steps Task.Calm s1 := (s.orphan_still tid).calm.tasks Task.calm_stepping (by simp [s1])
  obtain ⟨u, hu, hut⟩ := h1 tid v ht
  have h2 : s1.Steps Task.Kept s2 := State.steps_updTask Task.kept_stepping _ _ _ (fun _ => rfl) fun v hv => by
    obtain rfl : u = v := Option.some.inj (hu.symm.trans hv)
    exact ⟨rfl, rfl, rfl, fun g hg => absurd (hut.stop.symm.trans hg) (by simp [hs])⟩
  have e2 : ∃ v, s2.task? tid = some v ∧ v.stop = some f := ⟨_, State.task?_updTask_self _ (fun _ => rfl) hu, rfl⟩
  clear_value s2
  have h3 : s2.Steps Task.Kept s2' := by
    simp only [s2']
    split
    · exact State.steps_ite _ (fun _ => State.steps_updTask Task.kept_stepping _ _ _ (fun _ => rfl) fun v _ => ⟨rfl, rfl, rfl, fun _ h => h⟩)
        fun _ => State.steps_refl Task.kept_stepping _
    · exact State.steps_refl Task.kept_stepping _
  have h4 : s2.Steps Task.Kept s4 := (h3.trans Task.kept_stepping
    (State.steps_foldl Task.calm_stepping _ State.copyCancel_calm _ s2').kept).trans Task.kept_stepping (s3.mxCancelAll_calm tid).kept
  clear_value s4
  suffices h : ∀ s5, s4.Steps Task.Kept s5 → s.Steps Task.Kept s5 ∧ ∃ t', s5.task? tid = some t' ∧ t'.stop = some f by
    refine h _ (State.steps_ite _ (fun _ => State.steps_refl Task.kept_stepping _) fun _ => State.steps_ite _ (fun _ => ?_) fun _ =>
      State.steps_ite _ (fun _ => ?_) fun _ => State.steps_refl Task.kept_stepping _)
    · exact State.steps_updTask Task.kept_stepping _ _ _ (fun _ => rfl) fun v _ => ⟨rfl, rfl, rfl, fun _ h => h⟩
    · exact (State.steps_of_tasks Task.kept_stepping (s' := s4.pushRecord v.core v.notice16) (by simp)).trans Task.kept_stepping
        (State.steps_updTask Task.kept_stepping _ _ _ (fun _ => rfl) fun v _ => ⟨rfl, rfl, rfl, fun _ h => h⟩)
  intro s5 h5
  have h25 := h4.trans Task.kept_stepping h5
  obtain ⟨v, hv, hf⟩ := e2
  obtain ⟨w, hw, hk⟩ := h25 tid v hv
  exact ⟨(h1.kept.trans Task.kept_stepping h2).trans Task.kept_stepping h25, w, hw, hk.stop f hf⟩

theorem State.sweep_kept (s : State) (tid : Nat) : s.Steps Task.Kept (s.updTask tid Task.sweep) :=
  State.steps_updTask Task.kept_stepping _ _ _ (fun _ => rfl) fun _ _ => ⟨rfl, rfl, rfl, fun _ h => h⟩

theorem stopTree_kept (n : Nat) (f : Final) (s : State) (tid : Nat) : s.Steps Task.Kept (stopTree n f s tid) := by
  induction n generalizing f s tid with
  | zero => exact State.steps_refl Task.kept_stepping s
  | succ n ih =>
    unfold stopTree
    split
    · exact State.steps_refl Task.kept_stepping s
    next t ht =>
      refine State.steps_ite _ (fun _ => State.steps_refl Task.kept_stepping s) fun hn => ?_
      have hs : t.stop = none := by simp_all
      exact (((State.stopOne_kept ht hs f).1.trans Task.kept_stepping (State.sweep_kept _ tid)).trans Task.kept_stepping
        (State.steps_foldl Task.kept_stepping _ (fun s (c : Child) => ih _ s c.task) _ _)).trans Task.kept_stepping
        (State.unwindPlies_still _ tid).calm.kept

/-- A task that runs ends with the status it is stopped with. -/
theorem State.stopTask_ends {s : State} {tid : Nat} {t : Task} (ht : s.task? tid = some t) (hs : t.stop = none) (hr : t.isRetired = false)
    (f : Final) : ∃ t', (s.stopTask tid f).task? tid = some t' ∧ t'.stop = some f := by
  obtain ⟨u, hu, hf⟩ := (State.stopOne_kept ht hs f).2
  have h : (s.stopOne tid f).Steps Task.Kept (s.stopTask tid f) := by
    simp only [State.stopTask, stopTree, ht, hs, hr]
    exact ((State.sweep_kept _ tid).trans Task.kept_stepping
        (State.steps_foldl Task.kept_stepping _ (fun s (c : Child) => stopTree_kept _ _ s c.task) _ _)).trans Task.kept_stepping
        (State.unwindPlies_still _ tid).calm.kept
  obtain ⟨v, hv, hk⟩ := h tid u hu
  exact ⟨v, hv, hk.stop f hf⟩

/-! ### Joins -/

@[simp] theorem Task.joinResult_id (t : Task) (dst : Fin 64) (h : BitVec 32) (st r : BitVec 64) : (t.joinResult dst h st r).id = t.id := by
  unfold Task.joinResult
  split <;> simp

theorem Task.kept_joinResult (t : Task) (dst : Fin 64) (h : BitVec 32) (st r : BitVec 64) : t.Kept (t.joinResult dst h st r) := by
  unfold Task.joinResult
  split <;> constructor <;> simp

theorem Task.kept_joined (t : Task) (dst : Fin 64) (h : BitVec 32) (st r : BitVec 64) (w : Wait) : t.Kept ((t.joinResult dst h st r).wake w) :=
  Task.kept_stepping.trans _ _ _ (t.kept_joinResult dst h st r) (Task.still_wake _ w).toCalm.kept

/-- What a step of one task does: it keeps that task, and every other stands. -/
structure State.OwnStep (s s' : State) (tid : Nat) : Prop where
  kept : s.Steps Task.Kept s'
  others : OthersStand s s' tid

theorem State.OwnStep.refl (s : State) (tid : Nat) : s.OwnStep s tid := ⟨State.steps_refl Task.kept_stepping s, fun _ _ => rfl⟩

theorem State.OwnStep.trans {s s' s'' : State} {tid : Nat} (h : s.OwnStep s' tid) (h' : s'.OwnStep s'' tid) : s.OwnStep s'' tid :=
  ⟨h.kept.trans Task.kept_stepping h'.kept, fun j hj => (h'.others j hj).trans (h.others j hj)⟩

theorem State.ownStep_foldl {α : Type} {tid : Nat} (f : State → α → State) (hf : ∀ (s : State) (a : α), s.OwnStep (f s a) tid) (l : List α)
    (s : State) : s.OwnStep (l.foldl f s) tid := by
  induction l generalizing s with
  | nil => exact .refl s tid
  | cons a l ih => exact (hf s a).trans (ih _)

theorem State.ownStep_updTask (s : State) (tid : Nat) (f : Task → Task) (hf : ∀ t : Task, t.Kept (f t)) : s.OwnStep (s.updTask tid f) tid :=
  ⟨State.steps_updTask Task.kept_stepping _ _ _ (fun t => (hf t).id) fun t _ => hf t, fun _ hj =>
    State.task?_updTask_ne _ _ _ (fun t => (hf t).id) hj⟩

theorem State.ownStep_of_tasks {s s' : State} (tid : Nat) (h : s'.tasks = s.tasks) : s.OwnStep s' tid :=
  ⟨State.steps_of_tasks Task.kept_stepping h, fun _ _ => by rw [State.task?, State.task?, h]⟩

theorem State.report_ownStep (s : State) (tid : Nat) (w : Wait) (dst : Fin 64) (c : Child) : s.OwnStep (s.report tid w dst c) tid := by
  unfold State.report
  split
  next f _ =>
    extract_lets s1 s2
    have h1 : s.OwnStep s1 tid := s.ownStep_updTask tid _ fun t =>
      Task.kept_stepping.trans t (t.credit c.remainder) _ ⟨by simp, by simp, by simp, by simp⟩ (Task.kept_joined _ _ _ _ _ _)
    have h2 : s.OwnStep s2 tid := h1.trans (s1.ownStep_updTask tid _ fun t => ⟨rfl, rfl, rfl, fun _ h => h⟩)
    split
    · exact h2.trans (State.ownStep_of_tasks tid (by simp))
    · exact h2
  · exact s.ownStep_updTask tid _ fun t => Task.kept_stepping.trans _ _ _ (t.kept_joined _ _ _ _ w) ⟨rfl, rfl, rfl, fun _ h => h⟩

theorem State.serveJoins_ownStep (s : State) (tid : Nat) : s.OwnStep (s.serveJoins tid) tid := by
  unfold State.serveJoins
  split
  · exact .refl s tid
  refine State.ownStep_foldl _ (fun s w => ?_) _ _
  split
  · exact .refl s tid
  split
  · split
    · exact s.ownStep_updTask tid _ fun t => t.kept_joined _ _ _ _ w
    · split
      · exact s.report_ownStep tid w _ _
      · exact .refl s tid
  · split
    · exact s.ownStep_updTask tid _ fun t => t.kept_joined _ _ _ _ w
    · split
      · exact s.report_ownStep tid w _ _
      · exact .refl s tid
  · exact .refl s tid

/-! ### Trap 0x0A -/

/-- A task without capsule lanes has none to change. -/
theorem Task.onCaps_of_no_capLanes {t : Task} (h : t.capLanes = []) (f : CapLane → CapLane) : t.onCaps f = t := by
  have hw : ∀ w ∈ t.waits ++ t.replayCap, ∀ d st ls, w.kind = .capEnter d st ls → ls = [] := fun w hw d st ls e => by
    have := List.flatMap_eq_nil_iff.1 h w hw
    rwa [e] at this
  have key : ∀ ws : List Wait, (∀ w ∈ ws, w ∈ t.waits ++ t.replayCap) →
      ws.map (fun w => match w.kind with | .capEnter d st ls => { w with kind := .capEnter d st (ls.map f) } | _ => w) = ws := fun ws hws => by
    refine (List.map_congr_left fun w hm => ?_).trans (List.map_id ws)
    split
    next d st ls e =>
      obtain rfl := hw w (hws w hm) d st ls e
      rw [List.map_nil, ← e]
      rfl
    · rfl
  unfold Task.onCaps
  extract_lets g
  rw [show t.waits.map g = t.waits from key _ fun w h => List.mem_append_left _ h,
    show t.replayCap.map g = t.replayCap from key _ fun w h => List.mem_append_right _ h]

/-- The cells of a task without capsule lanes stand. -/
theorem State.orphan_of_no_capLanes {s : State} {tid : Nat} {t : Task} (ht : s.task? tid = some t) (hc : t.capLanes = []) :
    s.orphan tid = s.updTask tid fun t => t.onCaps fun l => { l with mark := none } := by
  simp [State.orphan, ht, hc]

theorem State.pause_kept (s : State) (tid : Nat) : s.Steps Task.Kept (s.pause tid) := by
  unfold State.pause
  split
  · exact State.steps_refl Task.kept_stepping s
  next t _ =>
    extract_lets s1
    have h1 : s.Steps Task.Kept s1 := (s.orphan_still tid).calm.kept.trans Task.kept_stepping
      (State.steps_updTask Task.kept_stepping _ _ _ (fun _ => rfl) fun _ _ => ⟨rfl, rfl, rfl, fun _ h => h⟩)
    split
    · exact h1
    next p _ =>
      extract_lets s2
      have h2 : s1.Steps Task.Kept s2 := State.steps_updTask Task.kept_stepping _ _ _ (fun _ => rfl) fun _ _ => ⟨rfl, rfl, rfl, fun _ h => h⟩
      have h3 : s.Steps Task.Kept { s2 with nextSeq := s2.nextSeq + 1 } := (h1.trans Task.kept_stepping h2).tasks Task.kept_stepping rfl
      exact h3.trans Task.kept_stepping (State.serveJoins_ownStep _ p).kept

/-- A pause of a task without capsule lanes, whose parent is another: nothing but the pause. -/
theorem State.pause_self {s : State} {tid : Nat} {t : Task} (ht : s.task? tid = some t) (hp : t.parent ≠ some tid) (hc : t.capLanes = []) :
    (s.pause tid).task? tid = some { t with paused := true } := by
  unfold State.pause
  split
  next hn => cases hn.symm.trans ht
  next v hv =>
    obtain rfl : v = t := Option.some.inj (hv.symm.trans ht)
    extract_lets s1
    have h1 : s1.task? tid = some { v with paused := true } := by
      have h0 : (s.orphan tid).task? tid = some v := by
        rw [State.orphan_of_no_capLanes ht hc, State.task?_updTask_self _ _ ht, Task.onCaps_of_no_capLanes hc]
        exact fun _ => rfl
      exact State.task?_updTask_self (fun t => { t with paused := true }) (fun _ => rfl) h0
    split
    · exact h1
    next p e =>
      have hne : tid ≠ p := fun h => hp (h ▸ e)
      extract_lets s2
      rw [(State.serveJoins_ownStep _ p).others tid hne]
      refine (State.task?_updTask_ne s1 p _ ?_ hne).trans h1
      exact fun _ => rfl

theorem State.exhaust_of_pause {s : State} {tid : Nat} {t : Task} (ht : s.task? tid = some t) (hm : t.ownExm = .pause) (r : FaultRec) :
    s.exhaust tid r = (s.updTask tid fun t => { t with trapRec := some r }).pause tid := by
  simp only [State.exhaust, ht, hm]

theorem State.exhaust_of_unwind {s : State} {tid : Nat} {t : Task} (ht : s.task? tid = some t) (hm : t.ownExm = .unwind) (r : FaultRec) :
    s.exhaust tid r = (s.updTask tid fun t => { t with trapRec := some r }).stopTask tid .exhausted := by
  simp only [State.exhaust, ht, hm]

/-- Trap 0x0A keeps its record with the task. -/
theorem State.exhaust_trapRec {s : State} {tid : Nat} {t : Task} (ht : s.task? tid = some t) (r : FaultRec) :
    ∃ t', (s.exhaust tid r).task? tid = some t' ∧ t'.trapRec = some r := by
  have h1 := State.task?_updTask_self (fun t => { t with trapRec := some r }) (fun _ => rfl) ht
  have h2 : (s.updTask tid fun t => { t with trapRec := some r }).Steps Task.Kept (s.exhaust tid r) := by
    simp only [State.exhaust, ht]
    split
    · exact State.pause_kept _ _
    · exact stopTree_kept _ _ _ _
  obtain ⟨t', ht', hk⟩ := h2 tid _ h1
  exact ⟨t', ht', hk.trapRec⟩

/-- An instruction that traps for its cost exhausts its task. -/
theorem exhausts_of_exec {s : State} {tid : Nat} {t : Task} {group : Mask} {i : Instr} {cost : Nat} (h : Issues s tid t group)
    (he : exec i s = .next (s.exhaust tid (t.trapRecord (t.groupPc group) group cost))) : Exhausts s tid t group i cost := by
  obtain ⟨-, ht⟩ := h
  have h1 := State.task?_updTask_self (fun u => { u with trapRec := some (t.trapRecord (t.groupPc group) group cost) }) (fun _ => rfl) ht
  obtain ⟨t', ht', hr⟩ := State.exhaust_trapRec ht (t.trapRecord (t.groupPc group) group cost)
  refine ⟨_, t', _, he, ht', hr, rfl, rfl, rfl, rfl, rfl, fun hm hs hn => ?_, fun hm hp hc => ?_⟩
  · rw [State.exhaust_of_unwind ht hm] at ht'
    obtain ⟨u, hu, hf⟩ := State.stopTask_ends h1 hs hn .exhausted
    rw [hu] at ht'
    exact Option.some.inj ht' ▸ hf
  · rw [State.exhaust_of_pause ht hm, State.pause_self h1 hp hc] at ht'
    obtain rfl := Option.some.inj ht'
    exact ⟨rfl, rfl, rfl, rfl, rfl, rfl, rfl, by simp [Task.canIssue], rfl⟩

end Sys2Proof.Machine
end

