-- ==== Sys2Proof/Proofs/Faults.lean ====
section
/-! SUPPORT. FaultsAndExhaustion: what a plan costs, that a cost beyond the account exhausts the task, and what taking a fault leaves. -/

namespace Sys2Proof.Machine

/-! ### The cost of a plan -/

/-- The plan is charged n, or takes its fault behind a charge of n: an account below n traps. -/
def Plan.Costs (n : Nat) : Plan → Prop
  | .go cost reserve _ => cost + reserve = n
  | .late cost _ _ _ _ _ => cost = n
  | _ => False

@[simp] theorem Plan.costs_go (n cost reserve : Nat) (eff : State → State) : (Plan.go cost reserve eff).Costs n ↔ cost + reserve = n := Iff.rfl

@[simp] theorem Plan.costs_simple (c : Ctx) (n cost : Nat) (f : Task → Task) : (c.simple cost f).Costs n ↔ cost = n := Iff.rfl

@[simp] theorem Plan.costs_ite (n : Nat) (p : Prop) [Decidable p] (a b : Plan) :
    (if p then a else b).Costs n ↔ (p → a.Costs n) ∧ (¬ p → b.Costs n) := by
  split <;> simp_all

/-- Where no guard is true a uniform instruction is charged the same. -/
@[simp] theorem Plan.costs_uniform (c : Ctx) {n : Nat} {p : Plan} (h : p.Costs n) : (c.uniform n p).Costs n := by
  unfold Ctx.uniform
  split
  · exact Nat.add_zero n
  · exact h

theorem exhausts_of_plan {s : State} {tid : Nat} {t : Task} {group : Mask} {i : Instr} {len n : Nat} {g : Guard} {plan : Ctx → Plan}
    (h : Issues s tid t group) (he : exec i s = issue s len g plan) (hp : (plan (Ctx.of s t group g len)).Costs n)
    (ha : t.alw.toNat < n) : Exhausts s tid t group i n := by
  refine exhausts_of_exec h (he.trans ?_)
  generalize hq : plan (Ctx.of s t group g len) = q at hp
  cases q with
  | go cost reserve eff =>
    obtain rfl := hp
    exact issue_exhaust h.1 h.2 hq ha
  | late cost code lmask addr detail note =>
    obtain rfl := hp
    simp only [issue, h.1, h.2, hq, ha, if_true]
    rfl
  | fault => exact hp.elim
  | wait => exact hp.elim

/-- An instruction of a flat cost issues with a plan of that cost, whatever its operands and guards. -/
theorem flatCost_plan {i : Instr} {n : Nat} (h : flatCost i = some n) (s : State) :
    ∃ len g plan, exec i s = issue s len g plan ∧ ∀ c, (plan c).Costs n := by
  cases i <;> simp only [flatCost, reduceCtorEq, Option.some.injEq] at h
  all_goals subst h
  all_goals simp only [exec, execIadd, execIsub, execIadds, execImul, execImulh, execImin, execImax, execAnd, execOr, execXor, execAndn, execShl,
    execShr, execSar, execIabs, execClz, execPopc, execBrev, execFadd, execFsub, execFmul, execFmin, execFmax, execShfl, execShflx, execShflup,
    execShfldn]
  all_goals refine ⟨_, _, _, rfl, fun c => ?_⟩
  case awtest =>
    refine Plan.costs_uniform c ?_
    extract_lets w m
    cases wordFault w c.k.scr with
    | some f => rfl
    | none => rfl
  all_goals simp [Ctx.alu, Ctx.aluI, Ctx.toPred, Ctx.branch, Ctx.raiseTrap]

/-! ### Taking a fault -/

theorem getElem?_listUpd {α : Type} (l : List α) (i : Nat) (f : α → α) (j : Nat) :
    (listUpd l i f)[j]? = (l[j]?).map fun x => if j = i then f x else x := by
  simp [listUpd]

@[simp] theorem Task.length_faulted (t : Task) (r : FaultRec) : (t.faulted r).lanes.length = t.lanes.length := by simp [Task.faulted]

theorem Task.lane_faulted (t : Task) (r : FaultRec) {l : Nat} (h : l < t.lanes.length) : (t.faulted r).lane l =
    if r.gmask.getLsbD l = true ∧ (t.lane l).park = .none then { t.lane l with park := .fault } else t.lane l := by
  have e : (t.faulted r).lane l = (t.onLanes r.gmask fun _ x => if x.park = .none then { x with park := .fault } else x).lane l := by
    simp [Task.lane, Task.faulted]
  rw [e, Task.lane_onLanes _ _ _ h]
  split <;> split <;> simp_all

theorem Task.park_faulted (t : Task) (r : FaultRec) {l : Nat} (h : l < t.lanes.length) (hg : r.gmask.getLsbD l = true) :
    ((t.faulted r).lane l).park ≠ .none := by
  rw [Task.lane_faulted t r h]
  split
  · simp
  next hn => exact fun e => hn ⟨hg, e⟩

theorem Task.oset_leaveSets (t : Task) (m : Mask) : (t.leaveSets m).oset = 0 ∨ (t.leaveSets m).oset = t.oset &&& t.running &&& ~~~m := by
  unfold Task.leaveSets
  extract_lets o d
  split
  · exact .inl rfl
  · exact .inr rfl

/-- The lanes of a group that has faulted run no more, so they are not in O (R76). -/
theorem Task.oset_faulted (t : Task) (r : FaultRec) : (t.faulted r).oset &&& r.gmask = 0 := by
  refine mask_eq_zero.2 fun l hl h => ?_
  obtain ⟨ho, hg⟩ : (t.faulted r).oset.getLsbD l = true ∧ r.gmask.getLsbD l = true := by simpa using h
  have hrun : (t.faulted r).running.getLsbD l = true := by
    rcases Task.oset_leaveSets (t.onLanes r.gmask fun _ x => if x.park = .none then { x with park := .fault } else x) 0 with e | e
    · rw [show (t.faulted r).oset = 0 from e] at ho
      simp at ho
    · rw [show (t.faulted r).oset = _ from e] at ho
      simp only [BitVec.getLsbD_and, Bool.and_eq_true] at ho
      simpa [Task.running, Task.laneMask, Task.lane, Task.faulted] using ho.1.2
  obtain ⟨hlen, hp⟩ := (getLsbD_laneMask _ _ hl).1 hrun
  exact Task.park_faulted t r (by simpa using hlen) hg (by simp_all)

theorem Task.faulted_eq (t : Task) (r : FaultRec) : t.faulted r =
    { t with fault := some r, lanes := (t.faulted r).lanes, dset := (t.faulted r).dset, oset := (t.faulted r).oset } := by
  unfold Task.faulted Task.leaveSets
  dsimp only
  split <;> rfl

@[simp] theorem Task.faulted_id (t : Task) (r : FaultRec) : (t.faulted r).id = t.id := (t.still_faulted r).id

/-- Taking a fault, for a task without capsule lanes: its own change and its core's. -/
theorem State.takeFault_of_no_capLanes {s : State} {tid : Nat} {t : Task} (ht : s.task? tid = some t) (hc : t.capLanes = []) (r : FaultRec) :
    s.takeFault tid r =
      ((s.updTask tid fun t => t.onCaps fun l => { l with mark := none }).pushRecord t.core r).updTask tid (Task.faulted r) := by
  rw [State.takeFault_eq s tid r ht, State.orphan_of_no_capLanes ht hc]

theorem State.updCore_eq (s : State) (i : Nat) (f : Core → Core) : s.updCore i f = { s with cores := (s.updCore i f).cores } := by
  unfold State.updCore
  split <;> rfl

theorem faultTaken {s : State} {tid : Nat} {t : Task} (ht : s.task? tid = some t) (hc : t.capLanes = []) (r : FaultRec) :
    (s.takeFault tid r).task? tid = some (t.faulted r) ∧ OthersStand s (s.takeFault tid r) tid := by
  have hid : ∀ t : Task, (t.onCaps fun l => { l with mark := none }).id = t.id := fun _ => rfl
  rw [State.takeFault_of_no_capLanes ht hc]
  constructor
  · rw [State.task?_updTask_self _ (Task.faulted_id · r) (t := t)]
    rw [State.pushRecord, State.task?_updCore, State.task?_updTask_self _ hid ht, Task.onCaps_of_no_capLanes hc]
  · intro j hj
    rw [State.task?_updTask_ne _ _ _ (Task.faulted_id · r) hj, State.pushRecord, State.task?_updCore, State.task?_updTask_ne _ _ _ hid hj]

theorem core_faultTaken {s : State} {tid : Nat} {t : Task} (ht : s.task? tid = some t) (hc : t.capLanes = []) (r : FaultRec) (c : Nat) :
    (s.takeFault tid r).core c = if c = t.core then
      { s.core c with ring := listUpd (s.core c).ring ((s.core c).fqTail.toNat % 128) fun _ => r, fqTail := (s.core c).fqTail + 1 }
    else s.core c := by
  rw [State.takeFault_of_no_capLanes ht hc, State.core_updTask, State.pushRecord, State.core_updCore]
  · simp only [State.core_updTask]
    split
    next h => rw [h]
    · rfl
  · exact fun _ => rfl

end Sys2Proof.Machine
end
section
open Sys2Proof Sys2Proof.Machine

/-- Settles O13: a fault is its task's own change and its core's, and an instruction of a flat cost issues with a plan of that cost. -/
theorem faultsAndExhaustion : Obligations.FaultsAndExhaustion := by
  unfold Obligations.FaultsAndExhaustion
  refine ⟨fun s tid t r ht hc hr => ?_, fun s tid t group i n h hn ha => ?_, fun s tid t group g h ha => ?_⟩
  · obtain ⟨hself, hothers⟩ := faultTaken ht hc r
    refine ⟨t.faulted r, hself, hothers, ?_, t.faulted_eq r, ?_, t.oset_faulted r, t.length_faulted r, fun l hl => t.lane_faulted r hl, ?_⟩
    · rw [State.takeFault_of_no_capLanes ht hc, State.pushRecord, State.updCore_eq]
      rfl
    · simp [Task.canIssue, Task.insp, Task.faulted]
    · rw [core_faultTaken ht hc, if_pos rfl]
      refine ⟨rfl, rfl, fun i hi => ?_⟩
      rw [getElem?_listUpd]
      split
      next hi' => rw [List.getElem?_eq_getElem (hr ▸ hi), Option.map_some]
      · cases (s.core t.core).ring[i]? <;> rfl
  · obtain ⟨len, g, plan, he, hp⟩ := flatCost_plan hn s
    exact exhausts_of_plan h he (hp _) ha
  · extract_lets act depth
    have ha : t.alw.toNat < 1 := by simp [ha]
    have called : ∀ (len : Nat) (f : Nat → BitVec 32) (save : Task → Task), act = 0 ∨ depth ≠ 255 →
        ((Ctx.of s t group g len).callTo f save).Costs 1 := fun len f save hd => by
      unfold Ctx.callTo
      rw [if_neg]
      · exact rfl
      · rw [Bool.and_eq_true, decide_eq_true_eq, decide_eq_true_eq]
        exact fun h => hd.elim h.1 fun hd => hd h.2
    refine ⟨fun hd => ⟨fun off => ?_, fun dst tgt => ?_⟩, fun hd src => ?_⟩
    · exact exhausts_of_plan (plan := fun c => c.callTo _ _) h (by simp only [exec]; rfl) (called _ _ _ hd) ha
    · exact exhausts_of_plan (plan := fun c => c.callTo _ _) h (by simp only [exec]; rfl) (called _ _ _ hd) ha
    · refine exhausts_of_plan h (by simp only [exec]; rfl) ?_ ha
      rw [if_neg]
      · exact rfl
      · rw [Bool.and_eq_true, decide_eq_true_eq, decide_eq_true_eq]
        exact fun h => hd.elim h.1 fun hd => hd h.2

end

