-- ==== Sys2Proof/Proofs/Placement.lean ====
section
/-! SUPPORT. PlacementAndCredits: what a choice by a fold takes, the slot of a placement, and what resuming a child leaves of its parent. -/

namespace Sys2Proof.Machine

/-! ### A choice by a fold -/

section
variable {α : Type} {f : Option α → α → Option α}

/-- Each step of the choice takes the new item or keeps the one it has. -/
def Chooses (f : Option α → α → Option α) : Prop := ∀ a x, f a x = some x ∨ (a.isSome = true ∧ f a x = a)

/-- What a step of the choice takes is as good as both in the sense of R. -/
def ChoosesBest (f : Option α → α → Option α) (R : α → α → Prop) : Prop :=
  ∀ a x y, f a x = some y → R y x ∧ ∀ z, a = some z → R y z

theorem Chooses.foldl_mem (h : Chooses f) {l : List α} {a : Option α} {y : α} (hy : l.foldl f a = some y) : y ∈ l ∨ a = some y := by
  induction l generalizing a with
  | nil => exact .inr hy
  | cons x l ih =>
    rcases ih hy with hm | hs
    · exact .inl (List.mem_cons_of_mem _ hm)
    · rcases h a x with e | ⟨-, e⟩
      · obtain rfl : x = y := Option.some.inj (e.symm.trans hs)
        exact .inl List.mem_cons_self
      · exact .inr (e.symm.trans hs)

theorem Chooses.mem (h : Chooses f) {l : List α} {y : α} (hy : l.foldl f none = some y) : y ∈ l :=
  (h.foldl_mem hy).resolve_right (by simp)

theorem Chooses.step_isSome (h : Chooses f) (a : Option α) (x : α) : (f a x).isSome = true := by
  rcases h a x with e | ⟨ha, e⟩
  · rw [e]; rfl
  · rw [e]; exact ha

theorem Chooses.foldl_isSome (h : Chooses f) (l : List α) {a : Option α} (ha : a.isSome = true) : (l.foldl f a).isSome = true := by
  induction l generalizing a with
  | nil => exact ha
  | cons x l ih => exact ih (h.step_isSome a x)

theorem Chooses.isSome_iff (h : Chooses f) (l : List α) : (l.foldl f none).isSome = true ↔ l ≠ [] := by
  cases l with
  | nil => simp
  | cons x l => simp [h.foldl_isSome l (h.step_isSome none x)]

theorem ChoosesBest.foldl {R : α → α → Prop} (h : ChoosesBest f R) (refl : ∀ x, R x x) (trans : ∀ x y z, R x y → R y z → R x z)
    (hs : ∀ a x, (f a x).isSome = true) {l : List α} {a : Option α} {y : α} (hy : l.foldl f a = some y) :
    (∀ x ∈ l, R y x) ∧ ∀ z, a = some z → R y z := by
  induction l generalizing a with
  | nil => exact ⟨by simp, fun z hz => by obtain rfl : z = y := Option.some.inj (hz.symm.trans hy); exact refl z⟩
  | cons x l ih =>
    obtain ⟨hl, hf⟩ := ih hy
    obtain ⟨m, hm⟩ := Option.isSome_iff_exists.1 (hs a x)
    obtain ⟨hx, ha⟩ := h a x m hm
    have hym := hf m hm
    refine ⟨fun z hz => ?_, fun z hz => trans _ _ _ hym (ha z hz)⟩
    rcases List.mem_cons.1 hz with rfl | hz
    · exact trans _ _ _ hym hx
    · exact hl z hz

end

theorem chooses_earlier : Chooses earlier := fun a x => by
  cases a with
  | none => exact .inl rfl
  | some b =>
    unfold earlier
    dsimp only
    split
    · exact .inl rfl
    · exact .inr ⟨rfl, rfl⟩

/-- The higher priority, then the earlier arrival (R109). -/
def Task.Before (t u : Task) : Prop := u.prio.toNat ≤ t.prio.toNat ∧ (u.prio = t.prio → t.arrival ≤ u.arrival)

theorem Task.before_refl (t : Task) : t.Before t := ⟨Nat.le_refl _, fun _ => Nat.le_refl _⟩

theorem Task.before_trans (t u v : Task) (h : t.Before u) (h' : u.Before v) : t.Before v := by
  obtain ⟨hp, ha⟩ := h
  obtain ⟨hp', ha'⟩ := h'
  refine ⟨Nat.le_trans hp' hp, fun e => ?_⟩
  have hn : v.prio.toNat = t.prio.toNat := congrArg _ e
  have hu : u.prio = t.prio := BitVec.eq_of_toNat_eq (by omega)
  exact Nat.le_trans (ha hu) (ha' (e.trans hu.symm))

theorem choosesBest_earlier : ChoosesBest earlier Task.Before := fun a x y h => by
  cases a with
  | none =>
    obtain rfl : x = y := Option.some.inj h
    exact ⟨x.before_refl, by simp⟩
  | some b =>
    unfold earlier at h
    dsimp only at h
    split at h
    next hb =>
      obtain rfl : x = y := Option.some.inj h
      refine ⟨x.before_refl, fun z hz => ?_⟩
      obtain rfl := Option.some.inj hz
      simp only [Bool.or_eq_true, decide_eq_true_eq, Bool.and_eq_true] at hb
      refine ⟨?_, fun e => ?_⟩
      · rcases hb with hb | ⟨hb, -⟩
        · omega
        · exact Nat.le_of_eq (congrArg _ hb)
      · rcases hb with hb | ⟨-, hb⟩
        · rw [e] at hb; omega
        · omega
    next hb =>
      obtain rfl : b = y := Option.some.inj h
      simp only [Bool.or_eq_true, decide_eq_true_eq, Bool.and_eq_true, not_or, not_and] at hb
      obtain ⟨hp, ha⟩ := hb
      refine ⟨⟨by omega, fun e => Nat.le_of_not_lt (ha e.symm)⟩, fun z hz => ?_⟩
      obtain rfl := Option.some.inj hz
      exact b.before_refl

theorem State.chooses_betterSlot (s : State) (core : Nat) : Chooses (s.betterSlot core) := fun a k => by
  cases a with
  | none => exact .inl rfl
  | some b =>
    unfold State.betterSlot
    dsimp only
    split
    · exact .inl rfl
    · exact .inr ⟨rfl, rfl⟩

/-! ### Placement -/

theorem State.pickSlot_mem {s : State} {c k : Nat} {t : Task} (h : s.pickSlot c t = some k) : k ∈ s.freeSlots c t.kernel t.vf t.asid :=
  (s.chooses_betterSlot c).mem h

theorem State.pickSlot_isSome (s : State) (c : Nat) (t : Task) : (s.pickSlot c t).isSome = true ↔ s.freeSlots c t.kernel t.vf t.asid ≠ [] :=
  (s.chooses_betterSlot c).isSome_iff _

/-- A record that a queue could place. -/
def State.Free (s : State) (q : PlaceQueue) (u : Task) : Prop :=
  u ∈ s.tasks ∧ u.waitsIn q = true ∧ u.stop = none ∧ s.heldByOrdinal u = false ∧ s.hasRoom u = true ∧
    ∃ c ∈ coresFor q u, s.freeSlots c u.kernel u.vf u.asid ≠ []

/-- What a queue places is the first of the records that it could place, on a core of the placement and in a free slot. -/
theorem State.placeable_spec {s : State} {q : PlaceQueue} {t : Task} {core slot : Nat} (h : s.placeable q = some (t, core, slot)) :
    s.Free q t ∧ (∀ u, s.Free q u → t.Before u) ∧ core ∈ coresFor q t ∧ slot ∈ s.freeSlots core t.kernel t.vf t.asid := by
  unfold State.placeable at h
  extract_lets target cs at h
  have hcs : ∀ u, u ∈ cs ↔ s.Free q u := fun u => by
    have ht : (target u).isSome = true ↔ ∃ c ∈ coresFor q u, s.freeSlots c u.kernel u.vf u.asid ≠ [] := by
      simp only [target, List.findSome?_isSome_iff, Option.isSome_map, State.pickSlot_isSome]
    simp only [cs, State.Free, List.mem_filter, Bool.and_eq_true, ht, Option.isNone_iff_eq_none, Bool.not_eq_true']
    tauto
  obtain ⟨u, hu, he⟩ := Option.bind_eq_some_iff.1 h
  obtain ⟨p, hp, e⟩ := Option.map_eq_some_iff.1 he
  obtain ⟨c, hc, hk⟩ := List.exists_of_findSome?_eq_some hp
  obtain ⟨k, hp', rfl⟩ := Option.map_eq_some_iff.1 hk
  cases e
  have best := choosesBest_earlier.foldl Task.before_refl Task.before_trans chooses_earlier.step_isSome hu
  exact ⟨(hcs t).1 (chooses_earlier.mem hu), fun v hv => best.1 v ((hcs v).2 hv), hc, State.pickSlot_mem hp'⟩

/-- The bind record of a slot that a task takes. -/
def Bind.taken (slot : Nat) (clock : BitVec 64) (b : Bind) : Bind :=
  if b.slot = slot ∧ b.held = false then { b with held := true, since := clock } else b

theorem State.place_spec {s : State} {t : Task} (ht : s.task? t.id = some t) (core slot : Nat) :
    OthersStand s (s.place t.id core slot) t.id ∧
    (s.place t.id core slot).task? t.id = some { t with place := .placed core slot, everPlaced := true, lastSelect := s.clock } ∧
    s.place t.id core slot = { s with
      tasks := (s.place t.id core slot).tasks, cores := (s.place t.id core slot).cores, launches := (s.place t.id core slot).launches } ∧
    (∀ c, c ≠ core → (s.place t.id core slot).core c = s.core c) ∧
    (s.place t.id core slot).core core = { s.core core with binds := (s.core core).binds.map (Bind.taken slot s.clock) } := by
  unfold State.place
  have hb : (fun b : Bind => if (b.slot = slot && !b.held) = true then { b with held := true, since := s.clock } else b) = Bind.taken slot s.clock :=
    funext fun b => if_congr (by simp) rfl rfl
  rw [hb]
  have hs : ∀ j, (s.updCore core fun c => { c with binds := c.binds.map (Bind.taken slot s.clock) }).task? j = s.task? j :=
    fun j => State.task?_updCore _ _ _ _
  have hc : ∀ d, (s.updCore core fun c => { c with binds := c.binds.map (Bind.taken slot s.clock) }).core d =
      if d = core then { s.core core with binds := (s.core core).binds.map (Bind.taken slot s.clock) } else s.core d :=
    fun d => State.core_updCore s core (fun c => { c with binds := c.binds.map (Bind.taken slot s.clock) }) d fun _ => rfl
  refine ⟨fun j hj => ?_, ?_, ?_, fun c hne => ?_, ?_⟩
  · refine (State.task?_updTask_ne _ _ _ ?_ hj).trans (hs j)
    exact fun _ => rfl
  · refine State.task?_updTask_self _ ?_ ((hs _).trans ht)
    exact fun _ => rfl
  · rw [State.updCore_eq]
    rfl
  · exact (hc c).trans (if_neg hne)
  · exact (hc core).trans (if_pos rfl)

/-- Changing a task keeps to the frame of a placement. -/
theorem frame_updTask {s s1 : State} (h : s1 = { s with tasks := s1.tasks, cores := s1.cores, launches := s1.launches }) (i : Nat)
    (f : Task → Task) : s1.updTask i f = { s with
      tasks := (s1.updTask i f).tasks, cores := (s1.updTask i f).cores, launches := (s1.updTask i f).launches } :=
  congrArg (fun x : State => { x with tasks := (s1.updTask i f).tasks }) h

/-- Changing a launch keeps to the frame of a placement. -/
theorem frame_updLaunch {s s1 : State} (h : s1 = { s with tasks := s1.tasks, cores := s1.cores, launches := s1.launches }) (i : Nat)
    (f : Launch → Launch) : s1.updLaunch i f = { s with
      tasks := (s1.updLaunch i f).tasks, cores := (s1.updLaunch i f).cores, launches := (s1.updLaunch i f).launches } :=
  congrArg (fun x : State => { x with launches := (s1.updLaunch i f).launches }) h

/-- TASK_PLACEMENT of the record that the queue places. -/
theorem taskPlacement_spec {s : State} {q : PlaceQueue} {pbase : BitVec 64} {t : Task} {core slot : Nat}
    (h : s.placeable q = some (t, core, slot)) (ht : s.task? t.id = some t) (hok : s.pbaseOk t pbase = true) (hp : s.tierPending = false) :
    ∃ s', execTaskPlacement q pbase s = .next s' ∧ OthersStand s s' t.id ∧
      s'.task? t.id = some { t with place := .placed core slot, everPlaced := true, lastSelect := s.clock, pbase := pbase } ∧
      s' = { s with tasks := s'.tasks, cores := s'.cores, launches := s'.launches } ∧ (∀ c, c ≠ core → s'.core c = s.core c) ∧
      s'.core core = { s.core core with binds := (s.core core).binds.map (Bind.taken slot s.clock) } := by
  obtain ⟨ho, hs, he, hc, hcc⟩ := s.place_spec ht core slot
  have hs1 := State.task?_updTask_self (fun t => { t with pbase := pbase }) (fun _ => rfl) hs
  have ho1 : OthersStand s ((s.place t.id core slot).updTask t.id fun t => { t with pbase := pbase }) t.id := fun j hj =>
    (State.task?_updTask_ne _ t.id (fun t => { t with pbase := pbase }) (fun _ => rfl) hj).trans (ho j hj)
  unfold execTaskPlacement
  rw [h]
  dsimp only
  rw [if_neg (by simp [hok, hp])]
  refine ⟨_, rfl, ?_⟩
  split
  next l n _ =>
    refine ⟨ho1, hs1, ?_, hc, hcc⟩
    exact frame_updLaunch (frame_updTask he _ _) _ _
  next =>
    refine ⟨ho1, hs1, ?_, hc, hcc⟩
    exact frame_updTask he t.id fun t => { t with pbase := pbase }

/-! ### Stealing -/

theorem State.oldest_mem {s : State} {die : Nat} {b : Bind} {t : Task} (h : s.oldest die b = some t) :
    t ∈ s.tasks ∧ t.place = .distQ die ∧ t.kernel = b.kernel ∧ t.det = false := by
  have hm := Chooses.mem (fun a x => by
    cases a with
    | none => exact .inl rfl
    | some u =>
      dsimp only
      split
      · exact .inl rfl
      · exact .inr ⟨rfl, rfl⟩) h
  simp only [List.mem_filter, Bool.and_eq_true, beq_iff_eq, decide_eq_true_eq, Bool.not_eq_true'] at hm
  tauto

/-- A steal moves one record of another die's distributor, or none. -/
theorem stealRequest_moves (die : Nat) (kernel : BitVec 32) (s : State) : ∃ s', execStealRequest die kernel s = .next s' ∧
    (s' = s ∨ ∃ t ∈ s.tasks, ∃ d, t.place = .distQ d ∧ d ≠ die ∧ t.kernel = kernel ∧ t.det = false ∧
      s' = s.updTask t.id fun u => { u with place := .distQ die }) := by
  unfold execStealRequest
  extract_lets cores free
  cases hb : free with
  | none => exact ⟨s, rfl, .inl rfl⟩
  | some b =>
    dsimp only
    split
    · exact ⟨s, rfl, .inl rfl⟩
    next t ht =>
      obtain ⟨c, -, hc⟩ := List.exists_of_findSome?_eq_some hb
      obtain ⟨d, hdm, hdo⟩ := List.exists_of_findSome?_eq_some ht
      obtain ⟨hm, hpl, hk, hdet⟩ := State.oldest_mem hdo
      have hbk := List.find?_some hc
      simp only [Bool.and_eq_true, beq_iff_eq] at hbk
      refine ⟨_, rfl, .inr ⟨t, hm, d, hpl, ?_, hk.trans hbk.1.1, hdet, rfl⟩⟩
      simp only [List.map_cons, List.map_nil, List.mem_cons, List.not_mem_nil, or_false] at hdm
      omega

/-- The first core of the die that has a bind record decides; the next die's oldest record comes first. -/
theorem stealRequest_first (s : State) (die : Nat) (kernel : BitVec 32) {i : Nat} {b : Bind} {t : Task} (hi : i < 40)
    (hn : ∀ j < i, (s.core (40 * die + j)).binds = []) (hb : (s.core (40 * die + i)).binds = [b]) (hk : b.kernel = kernel)
    (hf : b.slot ∈ s.freeSlots (40 * die + i) kernel b.vf b.asid) (ho : s.oldest die b = none) (ht : s.oldest ((die + 1) % 4) b = some t) :
    execStealRequest die kernel s = .next (s.updTask t.id fun u => { u with place := .distQ die }) := by
  unfold execStealRequest
  extract_lets cores free
  have hfree : free = some b := by
    have hsplit : List.range Config.coresPerDie = List.range i ++ i :: (List.range (39 - i)).map (i + 1 + ·) := by
      have h40 : Config.coresPerDie = i + (1 + (39 - i)) := by simp only [Config.coresPerDie]; omega
      rw [h40, List.range_add, List.range_add]
      simp [Function.comp_def, Nat.add_assoc]
    have hbefore : ((List.range i).map fun j => Config.coresPerDie * die + j).findSome? (fun c => (s.core c).binds.find? fun b =>
        b.kernel == kernel && (s.freeSlots c b.kernel b.vf b.asid).contains b.slot && (s.oldest die b).isNone) = none := by
      simp only [List.findSome?_eq_none_iff, List.mem_map, List.mem_range]
      rintro _ ⟨j, hj, rfl⟩
      rw [show (s.core (Config.coresPerDie * die + j)).binds = [] from hn j hj]
      rfl
    dsimp only [free, cores]
    rw [hsplit, List.map_append, List.findSome?_append, hbefore, List.map_cons, List.findSome?_cons,
      show (s.core (Config.coresPerDie * die + i)).binds = [b] from hb]
    have hok : (b.kernel == kernel && (s.freeSlots (Config.coresPerDie * die + i) b.kernel b.vf b.asid).contains b.slot &&
        (s.oldest die b).isNone) = true := by
      rw [hk, ho]
      rw [Bool.and_eq_true, Bool.and_eq_true]
      exact ⟨⟨beq_self_eq_true _, List.contains_iff_mem.2 hf⟩, rfl⟩
    simp only [List.find?_cons, hok]
    rfl
  rw [hfree]
  simp only [List.map_cons, List.findSome?_cons, ht]

/-! ### A starved task -/

/-- The one of two tasks that was selected longer ago. -/
def State.idler (s : State) (a : Option Task) (t : Task) : Option Task :=
  match a with
  | none => some t
  | some u => if (s.clock - u.lastSelect).toNat < (s.clock - t.lastSelect).toNat then some t else some u

theorem State.chooses_idler (s : State) : Chooses s.idler := fun a x => by
  cases a with
  | none => exact .inl rfl
  | some u =>
    unfold State.idler
    dsimp only
    split
    · exact .inl rfl
    · exact .inr ⟨rfl, rfl⟩

theorem State.choosesBest_idler (s : State) :
    ChoosesBest s.idler fun t u => (s.clock - u.lastSelect).toNat ≤ (s.clock - t.lastSelect).toNat := fun a x y h => by
  cases a with
  | none =>
    obtain rfl : x = y := Option.some.inj h
    exact ⟨Nat.le_refl _, by simp⟩
  | some b =>
    unfold State.idler at h
    dsimp only at h
    split at h
    next hb =>
      obtain rfl : x = y := Option.some.inj h
      exact ⟨Nat.le_refl _, fun z hz => Option.some.inj hz ▸ Nat.le_of_lt hb⟩
    next hb =>
      obtain rfl : b = y := Option.some.inj h
      exact ⟨Nat.le_of_not_lt hb, fun z hz => Option.some.inj hz ▸ Nat.le_refl _⟩

theorem starvationSelect_next {s : State} {core spindle : Nat} (hg : (s.spindle core spindle).gated = none) {t : Task}
    (h : (s.starved core spindle).foldl s.idler none = some t) : execStarvationSelect core spindle s = .next (s.updCore core fun c =>
      { c with spindles := listUpd c.spindles spindle fun x => { x with forced := some (t.slot % 16) } }) := by
  unfold execStarvationSelect
  extract_lets oldest
  obtain h : oldest = some t := h
  rw [hg, h]
  rfl

/-! ### Waits of MX.WAIT -/

/-- No wait of the task is one of MX.WAIT. -/
def Task.NoMxWaits (t : Task) : Prop := ∀ w ∈ t.waits, ∀ cv dst, w.kind ≠ .mxWait cv dst

theorem foldl_fixed_of_mem {α β : Type} {f : β → α → β} {b : β} {l : List α} (h : ∀ a ∈ l, f b a = b) : l.foldl f b = b := by
  induction l with
  | nil => rfl
  | cons a l ih => rw [List.foldl_cons, h a List.mem_cons_self, ih fun x hx => h x (List.mem_cons_of_mem _ hx)]

theorem State.serveMxWaits_of_none {s : State} (h : ∀ t ∈ s.tasks, t.NoMxWaits) : s.serveMxWaits = s :=
  foldl_fixed_of_mem fun t ht => foldl_fixed_of_mem fun w hw => by
    split
    next hk => exact absurd hk (h t ht w hw _ _)
    · rfl

theorem State.noMxWaits_updTask {s : State} (h : ∀ t ∈ s.tasks, t.NoMxWaits) (i : Nat) {f : Task → Task}
    (hf : ∀ t : Task, t.NoMxWaits → (f t).NoMxWaits) : ∀ t ∈ (s.updTask i f).tasks, t.NoMxWaits := fun t ht => by
  obtain ⟨u, hu, rfl⟩ := List.mem_map.1 ht
  split
  · exact hf u (h u hu)
  · exact h u hu

/-- A task that has nothing pending goes on without an effect. -/
theorem State.goOn_of_nothing {s : State} {tid : Nat} {t : Task} (ht : s.task? tid = some t) (hd : t.deferred = []) (hc : t.deferredCopies = [])
    (hp : t.pendingReplays = []) (h : ∀ t ∈ s.tasks, t.NoMxWaits) : s.goOn tid = s := by
  simp [State.goOn, ht, hd, hc, hp, redoDeferred, redoCopies, runReplays, State.serveMxWaits_of_none h]

/-! ### Credits on their way -/

@[simp] theorem State.foldl_credits {α : Type} {f : State → α → State} (hf : ∀ s a, (f s a).credits = s.credits) (l : List α) (s : State) :
    (l.foldl f s).credits = s.credits := by
  induction l generalizing s with
  | nil => rfl
  | cons a r ih => rw [List.foldl_cons, ih, hf]

@[simp] theorem State.rawSet_credits (s : State) (vf pa : Nat) (b : BitVec 8) : (s.rawSet vf pa b).credits = s.credits := by
  unfold State.rawSet
  split <;> rfl

@[simp] theorem State.homeSet_credits (s : State) (vf pa : Nat) (b : BitVec 8) : (s.homeSet vf pa b).credits = s.credits := by
  unfold State.homeSet
  split <;> simp

@[simp] theorem State.homeWrite_credits (s : State) (vf pa n v : Nat) : (s.homeWrite vf pa n v).credits = s.credits := by
  induction n generalizing s pa v with
  | zero => rfl
  | succ n ih => rw [State.homeWrite, ih, State.homeSet_credits]

@[simp] theorem State.memRead_credits (s : State) (vf line : Nat) : (s.memRead vf line).credits = s.credits := by
  unfold State.memRead State.corrected
  split
  · rfl
  · split <;> rfl

@[simp] theorem State.setOwner_credits (s : State) (vf pa owner state step : Nat) : (s.setOwner vf pa owner state step).credits = s.credits := by
  simp [State.setOwner]

@[simp] theorem State.lease_credits (s : State) (pa : Nat) : (s.lease pa).credits = s.credits := (rfl)

/-! ### A child that runs again -/

/-- Taking back its cells changes the waits of the task alone, and no wait of MX.WAIT. -/
theorem State.capReturn_eq (s : State) (tid : Nat) : ∃ (s1 : State) (f : Task → Task), s1.tasks = s.tasks ∧ s1.credits = s.credits ∧
    (∀ t, ∃ ws, f t = { t with waits := ws }) ∧ (∀ t : Task, t.NoMxWaits → (f t).NoMxWaits) ∧ s.capReturn tid = s1.updTask tid f := by
  unfold State.capReturn
  split
  next hn =>
    refine ⟨s, fun t => t, rfl, rfl, fun t => ⟨t.waits, rfl⟩, fun _ h => h, ?_⟩
    simp [State.updTask]
  next t ht =>
    extract_lets vf again s1
    refine ⟨s1, _, ?_, ?_, fun t => ⟨_, rfl⟩, fun t h w hw cv dst e => ?_, rfl⟩
    · refine State.foldl_tasks (fun s l => ?_) _ _
      dsimp only
      split <;> simp
    · refine State.foldl_credits (fun s l => ?_) _ _
      dsimp only
      split <;> simp
    · obtain ⟨v, hv, rfl⟩ := List.mem_map.1 hw
      split at e
      · cases e
      · exact h v hv cv dst e

/-- A paused task that has nothing pending runs again: its account stands, and of another task at most the children's records change. -/
theorem State.unpause_spec {s : State} {k : Task} (hk : s.task? k.id = some k) (hd : k.deferred = []) (hc : k.deferredCopies = [])
    (hp : k.pendingReplays = []) (h : ∀ t ∈ s.tasks, t.NoMxWaits) :
    (s.unpause k.id).credits = s.credits ∧
    (∃ k', (s.unpause k.id).task? k.id = some k' ∧ k'.paused = false ∧ k'.alw = k.alw) ∧
    ∀ j, j ≠ k.id → ∀ p, s.task? j = some p → ∃ cs, (s.unpause k.id).task? j = some { p with children := cs } := by
  unfold State.unpause
  split
  next hn => cases hn.symm.trans hk
  next v hv =>
  obtain rfl : v = k := Option.some.inj (hv.symm.trans hk)
  extract_lets s1 s2
  have hk1 : s1.task? v.id = some { v with paused := false } := State.task?_updTask_self (fun t => { t with paused := false }) (fun _ => rfl) hk
  have ho1 : ∀ j, j ≠ v.id → s1.task? j = s.task? j := fun j hj =>
    State.task?_updTask_ne s v.id (fun t => { t with paused := false }) (fun _ => rfl) hj
  have hm1 := State.noMxWaits_updTask h v.id (f := fun t => { t with paused := false }) fun _ h => h
  have h2 : s2.credits = s.credits ∧ (∀ t ∈ s2.tasks, t.NoMxWaits) ∧
      ∀ j t, s1.task? j = some t → ∃ cs, s2.task? j = some { t with children := cs } := by
    dsimp only [s2]
    split
    next p _ =>
      refine ⟨rfl, State.noMxWaits_updTask hm1 p fun _ h => h, fun j t ht => ?_⟩
      by_cases hj : j = p
      · subst hj
        exact ⟨_, State.task?_updTask_self _ (fun _ => rfl) ht⟩
      · refine ⟨t.children, (State.task?_updTask_ne s1 p _ ?_ hj).trans ht⟩
        exact fun _ => rfl
    · exact ⟨rfl, hm1, fun j t ht => ⟨t.children, ht⟩⟩
  obtain ⟨hcr2, hm2, ht2⟩ := h2
  obtain ⟨cs, hk2⟩ := ht2 _ _ hk1
  obtain ⟨s3, f, ht3, hcr3, hf, hfm, e⟩ := s2.capReturn_eq v.id
  have hid : ∀ t, (f t).id = t.id := fun t => by obtain ⟨ws, hw⟩ := hf t; rw [hw]
  obtain ⟨ws, hws⟩ := hf { v with paused := false, children := cs }
  have hk3 : (s3.updTask v.id f).task? v.id = some { v with paused := false, children := cs, waits := ws } := by
    rw [State.task?_updTask_self f hid (t := { v with paused := false, children := cs }) (by rw [State.task?, ht3]; exact hk2), hws]
  have hm3 : ∀ t ∈ (s3.updTask v.id f).tasks, t.NoMxWaits := State.noMxWaits_updTask (by rw [ht3]; exact hm2) v.id hfm
  rw [e, State.goOn_of_nothing hk3 hd hc hp hm3]
  refine ⟨hcr3.trans hcr2, ⟨_, hk3, rfl, rfl⟩, fun j hj p hp => ?_⟩
  obtain ⟨cs, hj2⟩ := ht2 j p ((ho1 j hj).trans hp)
  refine ⟨cs, (State.task?_updTask_ne s3 v.id f hid hj).trans ?_⟩
  rw [State.task?, ht3]
  exact hj2

/-! ### The outcome of a TOPUP -/

/-- What a task becomes whose TOPUP ends with status st. -/
theorem Task.topup_wake (t : Task) (dst : Fin 64) (st : BitVec 64) (w : Wait) :
    ((t.setS dst st).wake w).alw = t.alw ∧ w ∉ ((t.setS dst st).wake w).waits ∧ ((t.setS dst st).wake w).vregs = t.vregs ∧
      ∀ q, ((t.setS dst st).wake w).sreg q = if q = dst ∧ q ≠ 63 then st else t.sreg q := by
  have hs : ∀ q, ((t.setS dst st).wake w).sreg q = (t.setS dst st).sreg q := fun q => by simp [Task.wake, Task.sreg]
  refine ⟨by simp [Task.wake], by simp [Task.wake], by simp [Task.wake], fun q => ?_⟩
  rw [hs, Task.sreg_setS]
  refine if_congr (and_congr_right fun e => ?_) rfl rfl
  rw [e]

/-- The end of a TOPUP: the task that waits, as it is behind the credit, finds the outcome; every other task stands. -/
theorem topup_ends {s1 : State} {i : Nat} {q : Task} {f : Task → Task} {w : Wait} {dst : Fin 64} {st : BitVec 64} (hq : s1.task? i = some q)
    (hid : ∀ t, (f t).id = t.id) (hf : f q = (q.setS dst st).wake w) :
    OthersStand s1 (s1.updTask i f) i ∧ ∃ p', (s1.updTask i f).task? i = some p' ∧ p'.alw = q.alw ∧ w ∉ p'.waits ∧ p'.vregs = q.vregs ∧
      ∀ r, p'.sreg r = if r = dst ∧ r ≠ 63 then st else q.sreg r := by
  obtain ⟨ha, hw, hv, hs⟩ := q.topup_wake dst st w
  exact ⟨fun j hj => State.task?_updTask_ne s1 i f hid hj, f q, State.task?_updTask_self f hid hq, by rw [hf]; exact ⟨ha, hw, hv, hs⟩⟩

/-- What TOPUP_CREDIT leaves. -/
def TopupEnds (s : State) (n : Nat) (cr : Credit) (p : Task) (w : Wait) (dst : Fin 64) (st alw : BitVec 64) (more : State → Prop) : Prop :=
  ∃ s' p', execTopupCredit n s = .next s' ∧ s'.task? cr.parent = some p' ∧ s'.credits = s.credits.eraseIdx n ∧ p'.alw = alw ∧
    w ∉ p'.waits ∧ p'.vregs = p.vregs ∧ (∀ q, p'.sreg q = if q = dst ∧ q ≠ 63 then st else p.sreg q) ∧ more s'

/-- A credit that is settled so that the state is s1, with p as q in it. -/
theorem topupEnds_of {s s1 : State} {n : Nat} {cr : Credit} {p q : Task} {w : Wait} {dst : Fin 64} {st : BitVec 64} {more : State → Prop}
    {f : Task → Task} (he : execTopupCredit n s = .next (s1.updTask cr.parent f)) (hid : ∀ t, (f t).id = t.id)
    (hf : ∀ t : Task, t.waits = p.waits → f t = (t.setS dst st).wake w) (hq : s1.task? cr.parent = some q)
    (hc : s1.credits = s.credits.eraseIdx n)
    (hw : q.waits = p.waits) (hv : q.vregs = p.vregs) (hs : q.sregs = p.sregs)
    (hm : ∀ s', OthersStand s1 s' cr.parent → more s') : TopupEnds s n cr p w dst st q.alw more := by
  obtain ⟨ho, p', hp', ha, hnw, hvr, hsr⟩ := topup_ends hq hid (hf q hw)
  refine ⟨_, p', he, hp', hc, ha, hnw, hvr.trans hv, fun r => ?_, hm _ ho⟩
  rw [hsr, Task.sreg, Task.sreg, hs]

/-- The wait whose lanes sent the credit. -/
def Credit.answers (cr : Credit) (w : Wait) : Bool := w.lanes == cr.lanes && (match w.kind with | .topup _ => true | _ => false)

/-- The answer to the task whose TOPUP sent the credit. -/
def Task.topupAnswer (cr : Credit) (st : BitVec 64) (t : Task) : Task :=
  match t.waits.find? cr.answers with
  | some w => match w.kind with
    | .topup dst => (t.setS dst st).wake w
    | _ => t
  | none => t

theorem Task.topupAnswer_id (cr : Credit) (st : BitVec 64) (t : Task) : (t.topupAnswer cr st).id = t.id := by
  unfold Task.topupAnswer
  split
  · split <;> simp
  · rfl

section
variable {s : State} {n : Nat} {cr : Credit} {p : Task} {w : Wait} {dst : Fin 64} (hcr : s.credits[n]? = some cr)
  (hp : s.task? cr.parent = some p)
  (hw : p.waits.find? cr.answers = some w) (hk : w.kind = .topup dst)

include hw hk in
theorem Task.topupAnswer_eq (st : BitVec 64) {t : Task} (ht : t.waits = p.waits) : t.topupAnswer cr st = (t.setS dst st).wake w := by
  unfold Task.topupAnswer
  rw [ht, hw]
  dsimp only
  rw [hk]

/-- The credit goes back to its sender. -/
def State.refund (s : State) (n : Nat) (cr : Credit) : State :=
  ({ s with credits := s.credits.eraseIdx n } : State).updTask cr.parent fun t => t.credit cr.amount

/-- The credit reaches a task. -/
def State.reach (s : State) (n : Nat) (cr : Credit) (i : Nat) : State :=
  ({ s with credits := s.credits.eraseIdx n } : State).updTask i fun t => t.credit cr.amount

include hp hw hk

theorem topupEnds_refund {st : BitVec 64} (he : execTopupCredit n s = .next ((s.refund n cr).updTask cr.parent (Task.topupAnswer cr st))) :
    TopupEnds s n cr p w dst st (p.alw + cr.amount) fun s' => OthersStand s s' cr.parent :=
  topupEnds_of (q := p.credit cr.amount) he (Task.topupAnswer_id cr st) (fun _ => Task.topupAnswer_eq hw hk st)
    (State.task?_updTask_self (fun t => t.credit cr.amount) (fun _ => rfl) hp) rfl rfl rfl rfl fun _ h j hj =>
      (h j hj).trans (State.task?_updTask_ne _ cr.parent (fun t => t.credit cr.amount) (fun _ => rfl) hj)

/-- The credit reaches a child that is another task. -/
theorem topupEnds_reach {st : BitVec 64} {i : Nat} {k : Task} (hi : s.task? i = some k) (hne : i ≠ cr.parent)
    (he : execTopupCredit n s = .next ((s.reach n cr i).updTask cr.parent (Task.topupAnswer cr st))) :
    TopupEnds s n cr p w dst st p.alw fun s' => s'.task? i = some { k with alw := k.alw + cr.amount } :=
  topupEnds_of (q := p) he (Task.topupAnswer_id cr st) (fun _ => Task.topupAnswer_eq hw hk st)
    ((State.task?_updTask_ne _ i (fun t => t.credit cr.amount) (fun _ => rfl) hne.symm).trans hp) rfl rfl rfl rfl fun _ h =>
      (h i hne).trans (State.task?_updTask_self (fun t => t.credit cr.amount) (fun _ => rfl) hi)

/-- The credit reaches a paused child that is another task, and resumes it. -/
theorem topupEnds_resume {st : BitVec 64} {i : Nat} {k : Task} (hi : s.task? i = some k) (hne : i ≠ cr.parent) (hd : k.deferred = [])
    (hc : k.deferredCopies = []) (hr : k.pendingReplays = []) (hm : ∀ t ∈ s.tasks, t.NoMxWaits)
    (he : execTopupCredit n s = .next (((s.reach n cr i).unpause i).updTask cr.parent (Task.topupAnswer cr st))) :
    TopupEnds s n cr p w dst st p.alw fun s' => ∃ k', s'.task? i = some k' ∧ k'.paused = false ∧ k'.alw = k.alw + cr.amount := by
  obtain rfl : k.id = i := State.task?_id hi
  have hreach : (s.reach n cr k.id).task? (k.credit cr.amount).id = some (k.credit cr.amount) :=
    State.task?_updTask_self (fun t => t.credit cr.amount) (fun _ => rfl) hi
  have hother : (s.reach n cr k.id).task? cr.parent = some p :=
    (State.task?_updTask_ne _ k.id (fun t => t.credit cr.amount) (fun _ => rfl) hne.symm).trans hp
  obtain ⟨hcr', ⟨k', hk', hpa, ha⟩, ho⟩ := State.unpause_spec hreach hd hc hr
    (State.noMxWaits_updTask hm k.id (f := fun t => t.credit cr.amount) fun _ h => h)
  obtain ⟨cs, hq⟩ := ho _ hne.symm p hother
  exact topupEnds_of (q := { p with children := cs }) he (Task.topupAnswer_id cr st) (fun _ => Task.topupAnswer_eq hw hk st)
    hq hcr' rfl rfl rfl fun _ h =>
    ⟨k', (h _ hne).trans hk', hpa, ha⟩

include hcr

theorem topupCredit_unknown (hc : p.child? cr.child = none) :
    TopupEnds s n cr p w dst 0xFF (p.alw + cr.amount) fun s' => OthersStand s s' cr.parent :=
  topupEnds_refund hp hw hk (by
    have hp0 : ({ s with credits := s.credits.eraseIdx n } : State).task? cr.parent = some p := hp
    simp only [execTopupCredit, hcr, hp0, hc]
    rfl)

variable {c : Child} (hc : p.child? cr.child = some c)
include hc

theorem topupCredit_ended (h : c.final ≠ none ∨ s.task? c.task = none) :
    TopupEnds s n cr p w dst 2 (p.alw + cr.amount) fun s' => OthersStand s s' cr.parent :=
  topupEnds_refund hp hw hk (by
    have hp0 : ({ s with credits := s.credits.eraseIdx n } : State).task? cr.parent = some p := hp
    have hchild : (if c.final.isSome = true then none else ({ s with credits := s.credits.eraseIdx n } : State).task? c.task) = none := by
      split
      · rfl
      next hn => exact h.resolve_left fun h => hn (Option.isSome_iff_ne_none.2 h)
    simp only [execTopupCredit, hcr, hp0, hc, Option.bind_some, hchild]
    rfl)

variable {k : Task} (hf : c.final = none) (hi : s.task? c.task = some k)
include hf hi

theorem topupCredit_retired (hr : k.isRetired = true) :
    TopupEnds s n cr p w dst 2 (p.alw + cr.amount) fun s' => OthersStand s s' cr.parent :=
  topupEnds_refund hp hw hk (by
    have hp0 : ({ s with credits := s.credits.eraseIdx n } : State).task? cr.parent = some p := hp
    have hchild : (if c.final.isSome = true then none else ({ s with credits := s.credits.eraseIdx n } : State).task? c.task) = some k := by
      rw [hf]; exact hi
    simp only [execTopupCredit, hcr, hp0, hc, Option.bind_some, hchild, hr, if_true]
    rfl)

variable (hr : k.isRetired = false)
include hr

theorem topupCredit_stopping (hs : k.stop ≠ none) :
    TopupEnds s n cr p w dst 1 (p.alw + cr.amount) fun s' => OthersStand s s' cr.parent :=
  topupEnds_refund hp hw hk (by
    have hp0 : ({ s with credits := s.credits.eraseIdx n } : State).task? cr.parent = some p := hp
    have hchild : (if c.final.isSome = true then none else ({ s with credits := s.credits.eraseIdx n } : State).task? c.task) = some k := by
      rw [hf]; exact hi
    simp only [execTopupCredit, hcr, hp0, hc, Option.bind_some, hchild, hr, Option.isSome_iff_ne_none.2 hs, Bool.false_eq_true, if_false, if_true]
    rfl)

variable (hs : k.stop = none)
include hs

theorem topupCredit_running (hne : c.task ≠ cr.parent) (hu : k.paused = false) :
    TopupEnds s n cr p w dst 0 p.alw fun s' => s'.task? c.task = some { k with alw := k.alw + cr.amount } :=
  topupEnds_reach hp hw hk hi hne (by
    have hp0 : ({ s with credits := s.credits.eraseIdx n } : State).task? cr.parent = some p := hp
    have hchild : (if c.final.isSome = true then none else ({ s with credits := s.credits.eraseIdx n } : State).task? c.task) = some k := by
      rw [hf]; exact hi
    simp only [execTopupCredit, hcr, hp0, hc, Option.bind_some, hchild, hr, Bool.false_eq_true, if_false, hs, hu,
      Option.isSome_none, State.task?_id hi]
    rfl)

theorem topupCredit_paused (hne : c.task ≠ cr.parent) (hu : k.paused = true) (hres : cr.res = false) :
    TopupEnds s n cr p w dst 3 p.alw fun s' => s'.task? c.task = some { k with alw := k.alw + cr.amount } :=
  topupEnds_reach hp hw hk hi hne (by
    have hp0 : ({ s with credits := s.credits.eraseIdx n } : State).task? cr.parent = some p := hp
    have hchild : (if c.final.isSome = true then none else ({ s with credits := s.credits.eraseIdx n } : State).task? c.task) = some k := by
      rw [hf]; exact hi
    simp only [execTopupCredit, hcr, hp0, hc, Option.bind_some, hchild, hr, Bool.false_eq_true, if_false, hs, hu,
      Option.isSome_none, hres, if_true, State.task?_id hi]
    rfl)

theorem topupCredit_resumed (hne : c.task ≠ cr.parent) (hu : k.paused = true) (hres : cr.res = true) (hd : k.deferred = [])
    (hdc : k.deferredCopies = []) (hpr : k.pendingReplays = []) (hm : ∀ t ∈ s.tasks, t.NoMxWaits) :
    TopupEnds s n cr p w dst 3 p.alw fun s' => ∃ k', s'.task? c.task = some k' ∧ k'.paused = false ∧ k'.alw = k.alw + cr.amount :=
  topupEnds_resume hp hw hk hi hne hd hdc hpr hm (by
    have hp0 : ({ s with credits := s.credits.eraseIdx n } : State).task? cr.parent = some p := hp
    have hchild : (if c.final.isSome = true then none else ({ s with credits := s.credits.eraseIdx n } : State).task? c.task) = some k := by
      rw [hf]; exact hi
    simp only [execTopupCredit, hcr, hp0, hc, Option.bind_some, hchild, hr, Bool.false_eq_true, if_false, hs, hu,
      Option.isSome_none, hres, if_true, State.task?_id hi]
    rfl)

end

end Sys2Proof.Machine
end

section
open Sys2Proof Sys2Proof.Machine

/-- Settles O48: a placement takes the first of the records that it could place; the credit of a TOPUP by what has become of the child. -/
theorem placementAndCredits : Obligations.PlacementAndCredits := by
  unfold Obligations.PlacementAndCredits
  refine ⟨fun s q pbase => ⟨fun h => ?_, fun t core slot h ht => ?_⟩, fun s die kernel _ => ?_,
    fun s n => ⟨fun h => ?_, ?_⟩, fun s core spindle => ⟨fun h => ?_, fun hg h hi => ?_⟩⟩
  · simp only [exec, execTaskPlacement, h]
  · obtain ⟨hfree, hfirst, hcore, hslot⟩ := State.placeable_spec h
    refine ⟨hfree, hfirst, hcore, hslot, fun hno => ?_, fun hok hpend => ?_⟩
    · simp only [exec, execTaskPlacement, h]
      rcases hno with e | e <;> simp [e]
    · exact taskPlacement_spec h ht hok hpend
  · intro moved
    exact ⟨stealRequest_moves die kernel s, fun i b t hi hn hb hk hf ho ht => stealRequest_first s die kernel hi hn hb hk hf ho ht⟩
  · simp only [exec, execTopupCredit, h]
  · intro cr p w dst hcr hp hw hk ends
    refine ⟨topupCredit_unknown hcr hp hw hk, fun c hc => ⟨topupCredit_ended hcr hp hw hk hc, fun k hf hi hne => ⟨
      topupCredit_retired hcr hp hw hk hc hf hi, topupCredit_stopping hcr hp hw hk hc hf hi, fun hr hs => ⟨
      topupCredit_running hcr hp hw hk hc hf hi hr hs hne, topupCredit_paused hcr hp hw hk hc hf hi hr hs hne, ?_⟩⟩⟩⟩
    intro hu hres hpr hd hdc hm
    refine topupCredit_resumed hcr hp hw hk hc hf hi hr hs hne hu hres hd hdc hpr fun u hu v hv cv dst e => ?_
    have := hm u hu v hv
    rw [e] at this
    exact this
  · rcases h with h | h
    · simp [exec, execStarvationSelect, Option.isSome_iff_ne_none.2 h]
    · simp [exec, execStarvationSelect, h]
  · obtain ⟨t, ht⟩ := Option.isSome_iff_exists.1 ((s.chooses_idler.isSome_iff _).2 h)
    have hbest := s.choosesBest_idler.foldl (fun _ => Nat.le_refl _) (fun _ _ _ h h' => Nat.le_trans h' h) s.chooses_idler.step_isSome ht
    refine ⟨_, t, s.chooses_idler.mem ht, starvationSelect_next hg ht, hbest.1, ?_, by rw [State.updCore_eq]⟩
    rw [State.spindle, State.core_updCore, if_pos rfl, List.getD_eq_getElem?_getD, getElem?_listUpd, List.getElem?_eq_getElem hi]
    · simp
    · exact fun _ => rfl

end

