-- ==== Sys2Proof/Proofs/Retirement.lean ====
section
/-! SUPPORT. RetirementAndSaving: a state in which two tasks have one number, and what a resumption in it leaves of the first. -/

namespace Sys2Proof.Machine

/-- What the save of the first twin took from its core: nothing. -/
def twinSaved : Saved := { clock := 0, core := 0, slot := 0, susp := false, delay := 0, gens := [], tiles := [], unwaited := 0 }

/-- A saved task of one lane, with nothing pending. -/
def savedTwin : Task := { Task.fresh 0 0 0 0 0 0 1 1 0 0 .saved 0 with saved := some twinSaved }

/-- A task of the same number, whose lane waits at a word of scratch that stands reached. -/
def awaitingTwin : Task := { savedTwin with waits := [{ lanes := 1, pc := 0, len := 8, kind := .await 0 0 0 0 0 }] }

/-- A core with one free slot of the twins' kernel. -/
def twinCore : Core := { Core.reset 0 with binds := [{ slot := 0, kernel := 0, vf := 0, asid := 0, held := false, since := 0 }] }

/-- The two tasks of one number, the saved one first. -/
def twinned : State := { State.reset with tasks := [savedTwin, awaitingTwin], cores := [twinCore] }

theorem twinned_mayResume : twinned.mayResume savedTwin twinSaved 0 0 = true := by decide

/-- No twin waits for a matrix operation, a bank or an STL. -/
theorem twinned_waits : ∀ u ∈ twinned.tasks, ∀ w ∈ u.waits, w.kind = .await 0 0 0 0 0 := by
  simp [twinned, savedTwin, awaitingTwin, Task.fresh]

/-- The test of the scratch that the resumption touches ends the wait of the second twin in the first: its lane goes on. -/
theorem twinned_pc : ∃ s', exec (.contextResume 0 0 0) twinned = .next s' ∧ (s'.task? 0).map (fun t => (t.lane 0).pc) = some 8 :=
  ⟨_, rfl, by decide⟩

end Sys2Proof.Machine
end
section
open Sys2Proof Sys2Proof.Machine

/-- Refutes O49: the clause of a resumption without a record asks for the task number alone to be found, not for it to be the only one. Where
a second task has the number of the saved one and waits at a word of scratch that stands reached, the resumption places both, and the test of
the scratch wakes by number: the lane of the resumed task, which waits for nothing, goes on by 8 bytes. -/
theorem not_retirementAndSaving : ¬ Obligations.RetirementAndSaving := by
  unfold Obligations.RetirementAndSaving
  rintro ⟨-, -, -, -, -, h⟩
  obtain ⟨-, hsaved⟩ := h twinned 0 0 0 savedTwin rfl
  obtain ⟨-, hresume⟩ := hsaved twinSaved rfl rfl
  obtain ⟨-, hplain, -⟩ := hresume twinned_mayResume rfl rfl fun u hu w hw => by
    rw [twinned_waits u hu w hw]
    trivial
  obtain ⟨s', he, hs'⟩ := hplain rfl rfl rfl rfl
  obtain ⟨s'', he', hpc⟩ := twinned_pc
  obtain rfl : s' = s'' := Host.Outcome.next.inj (he.symm.trans he')
  rw [hs'] at hpc
  revert hpc
  decide

end

