-- ==== Sys2Proof/Proofs/Owners.lean ====
section
/-! SUPPORT. OwnersSettings: settings that move a function's host window together with its event ring, and what host memory reads after them. -/

namespace Sys2Proof.Machine

/-- A device whose address space 0 maps its first 256 MiB each at its own address, and whose host memory holds one byte. -/
def ringless : State :=
  { State.reset with mem := [(0, 0x03), (1, 0x10), (0x1000, 0x03), (0x1001, 0x20), (0x2000, 0x01)], hostMem := [(0, 1)] }

/-- An event ring at 0x6000, and the host window one byte further on. -/
def movingSettings : VfSettings :=
  { ringBase := 0x6000, ringK := 6, ringOn := true, hostBase := 1, slice := 0, spillLimit := 0, debugger := false, selfHosted := false
    coupled := false }

/-- The function with these settings. -/
def movedVf : Vf :=
  { Vf.reset with ringBase := 0x6000, ringK := 6, ringOn := true, hostBase := 1, slice := 0, spillLimit := 0, debugger := false }

/-- The device with the settings, before the ring's header is written. -/
def ringSet : State := { ringless with vfs := movedVf :: List.replicate 15 Vf.reset }

/-- The page of the ring. -/
def ringLeaf : Leaf := { base := 0, size := 2 ^ 28, pte := 0x2000, w0 := 1, w1 := 0 }

theorem ringSet_walk : ∀ o ∈ ringHeaderWords, walk ringSet 0 (0x6000 + o) = .ok ringLeaf := by decide +kernel

theorem ringSet_home : ∀ o ∈ ringHeaderWords, ringLeaf.pa (0x6000 + o) = 0x6000 + o ∧ (0x6000 + o) % 8 = 0 ∧
    ringSet.canon 0 (0x6000 + o) = 0x6000 + o ∧ ringSet.zone (0x6000 + o) ≠ .reserved := by decide +kernel

theorem ringSet_mapped : RingMapped ringSet 0 ringHeaderWords (0x6000 + ·) where
  home o ho := ⟨ringLeaf, ringSet_walk o ho, ringSet_home o ho⟩
  apart _ _ _ _ h e := h (Nat.add_left_cancel e)
  tables := by decide +kernel

/-- The first byte of the host window, which the settings move. -/
theorem ringless_moved : ∃ s', exec (.queueSettings 0 0 0 0 0 0 0 (some movingSettings)) ringless = .next s' ∧
    s'.queues = ringless.queues ∧ s'.vfs = ringSet.vfs ∧ s'.homeByte 0 0x20000000000 = 0 :=
  ⟨_, rfl, by decide +kernel, by decide +kernel, by decide +kernel⟩

end Sys2Proof.Machine
end
section
open Sys2Proof Sys2Proof.Machine

/-- Refutes O53: where QUEUE_SETTINGS sets an event ring, the clause asks for every byte of memory outside the ring's header to read as before.
The same settings may move the function's host window, and then an address of the window names another byte of host memory. -/
theorem not_ownersSettings : ¬ Obligations.OwnersSettings := by
  unfold Obligations.OwnersSettings
  rintro ⟨h, -⟩
  obtain ⟨-, hset⟩ := h ringless 0 0 0 0 (by decide +kernel)
  obtain ⟨-, hown⟩ := hset 0 0 0 0 0
  obtain ⟨s', f, he, rfl, -, -, -, -, -, -, -, -, -, -, -, -, -, -, hmoved⟩ := hown movingSettings (by decide +kernel)
  obtain ⟨s'', he', hq, hv, hb⟩ := ringless_moved
  obtain rfl : s' = s'' := Host.Outcome.next.inj (he.symm.trans he')
  have hs2 : ({ ringless with queues := s'.queues, vfs := s'.vfs } : State) = ringSet := by rw [hq, hv]; rfl
  rw [hs2] at hmoved
  obtain ⟨-, -, -, -, hstands⟩ := hmoved _ ⟨by rw [State.vf, hv]; decide +kernel, by decide +kernel⟩ ringSet_mapped
  have hbyte : s'.homeByte 0 0x20000000000 = ringless.homeByte 0 0x20000000000 :=
    hstands 0x20000000000 (show ringSet.canon 0 0x20000000000 = 0x20000000000 by decide +kernel) (by decide +kernel)
  have hone : ringless.homeByte 0 0x20000000000 = 1 := by decide +kernel
  exact absurd (hb.symm.trans (hbyte.trans hone)) (by decide)

end

