-- ==== Sys2Proof/Proofs/EncodingFields.lean ====
section
/-! SUPPORT. A word and its fields: what the decoder reads in what the encoder lays out. -/

namespace Sys2Proof

/-! ### A word and its fields (R24, R28, R32) -/

theorem Fields.form_toWord (f : Fields) (form : BitVec 2) : (f.toWord form).extractLsb' 0 2 = form :=
  BitVec.extractLsb'_append_eq_right

theorem Fields.ofWord_toWord (f : Fields) (form : BitVec 2) : Fields.ofWord (f.toWord form) = f := by
  have laid : f.toWord form = (f.hi ++ f.mx ++ f.i ++ f.imm ++ f.ty ++ f.neg ++ f.p ++ f.b ++ f.a ++ f.dst ++ f.la ++ f.op ++ form :
    BitVec (64 + 1 + 1 + 16 + 4 + 1 + 3 + 8 + 8 + 8 + 4 + 8 + 2)) := rfl
  rw [Fields.ofWord, laid]
  simp (disch := omega) only [BitVec.extractLsb'_append_eq_of_le, BitVec.extractLsb'_append_eq_of_add_le, Nat.reduceSub,
    BitVec.extractLsb'_eq_self]

theorem Fields.low_toSlot (f : Fields) (low : BitVec 2) : (f.toSlot low).extractLsb' 0 2 = low :=
  BitVec.extractLsb'_append_eq_right

/-- A slot has room for the opcodes 0x40 to 0x7F, and none for LA and a third word. -/
theorem Fields.ofSlot_toSlot (f : Fields) (low : BitVec 2) (hop : 0x40 ≤ f.op.toNat ∧ f.op.toNat < 0x80) (hla : f.la = 0)
    (hhi : f.hi = 0) : Fields.ofSlot (f.toSlot low) = f := by
  have laid : f.toSlot low = ((0 : BitVec 6) ++ f.mx ++ f.i ++ f.imm ++ f.ty ++ f.neg ++ f.p ++ f.b ++ f.a ++ f.dst ++
    (f.op - 0x40).setWidth 6 ++ low : BitVec (6 + 1 + 1 + 16 + 4 + 1 + 3 + 8 + 8 + 8 + 6 + 2)) := rfl
  have hop : 0x40 + ((f.op - 0x40).setWidth 6).setWidth 8 = f.op := by bv_omega
  rw [Fields.ofSlot, laid]
  simp (disch := omega) only [BitVec.extractLsb'_append_eq_of_le, BitVec.extractLsb'_append_eq_of_add_le, Nat.reduceSub,
    BitVec.extractLsb'_eq_self, hop]
  rw [← hla, show (0 : BitVec 6).setWidth 64 = f.hi from hhi.symm]

/-! ### Codes -/

@[simp] theorem val_mod_of_le {n m : Nat} (i : Fin n) (h : n ≤ m) : i.val % m = i.val := Nat.mod_eq_of_lt (by omega)

@[simp] theorem Reg.of_code (r : Reg) : Reg.of r.code = r := by
  cases r with
  | v r => simp [Reg.of, Reg.code]
  | s r => simp [Reg.of, Reg.code, Nat.mod_eq_of_lt (show 192 + r.val < 256 by omega)]

@[simp] theorem toNat_sCode (r : Fin 64) : (sCode r).toNat = 192 + r.val := by
  rw [sCode, BitVec.toNat_ofNat]
  omega

@[simp] theorem toNat_vCode (r : Fin 192) : (vCode r).toNat = r.val := by simp [vCode]

@[simp] theorem toNat_pCode (p : Fin 8) : (pCode p).toNat = p.val := by simp [pCode]

@[simp] theorem sOf_sCode (r : Fin 64) : sOf (sCode r) = r := by
  ext
  rw [sOf, toNat_sCode, Fin.val_ofNat]
  omega

@[simp] theorem vOf_vCode (r : Fin 192) : vOf (vCode r) = r := by
  ext
  simp [vOf, Fin.ofNat]

@[simp] theorem pOf_pCode (p : Fin 8) : pOf (pCode p) = p := by
  ext
  simp [pOf, Fin.ofNat]

@[simp] theorem vCode_ne_none (r : Fin 192) : vCode r ≠ 0xFF#8 := fun h => by
  have h := congrArg BitVec.toNat h
  rw [toNat_vCode] at h
  exact absurd r.isLt (by simp [h])

@[simp] theorem pCode_ne_none (p : Fin 8) : pCode p ≠ 0xFF#8 := fun h => by
  have h := congrArg BitVec.toNat h
  rw [toNat_pCode] at h
  exact absurd p.isLt (by simp [h])

@[simp] theorem tyOf_tyCode (t : Ty) : tyOf (tyCode t) = t := by cases t <;> rfl

@[simp] theorem tyCode_ne (t : Ty) : tyCode t ≠ 15#4 := by cases t <;> decide

@[simp] theorem flag_beq (b : Bool) : (flag b == 1#1) = b := by cases b <;> rfl

@[simp] theorem flag_eq_one (b : Bool) : flag b = 1#1 ↔ b = true := by cases b <;> decide

@[simp] theorem guard_code (g : Guard) : ({ neg := (if g.neg = true then 1#1 else 0#1) == 1#1, p := g.p } : Guard) = g := by
  obtain ⟨neg, p⟩ := g
  cases neg <;> rfl

@[simp] theorem icondOf_code (c : ICond) : icondOf c.code.toNat = some c := by cases c <;> rfl
@[simp] theorem fcondOf_code (c : FCond) : fcondOf c.code.toNat = some c := by cases c <;> rfl
@[simp] theorem modeOf_code (m : Option RMode) : modeOf (modeCode m).toNat = some m := by rcases m with _ | _ | _ | _ | _ | _ <;> rfl
@[simp] theorem foldOf_code (op : FoldOp) : foldOf op.code.toNat = some op := by cases op <;> rfl
@[simp] theorem atomOf_code (op : AtomOp) : atomOf op.code.toNat = some op := by cases op <;> rfl
@[simp] theorem scopeOf_bits3 (sc : Scope) : scopeOf sc.bits3.toNat = some sc := by cases sc <;> rfl
@[simp] theorem cctlOf_code (op : CctlOp) : cctlOf op.code.toNat = some op := by cases op <;> rfl
@[simp] theorem bankModeOf_code (m : BankMode) : bankModeOf m.code.toNat = some m := by cases m <;> rfl
@[simp] theorem kindOf_code (k : FenceKind) : kindOf k.code.toNat = some k := by cases k <;> rfl
@[simp] theorem kindOfTile_field (k : TileKind) : kindOfTile k.field.toNat = some k := by cases k <;> rfl
@[simp] theorem rawOf_code (m : RawMode) : rawOf m.code.toNat = some m := by cases m <;> rfl
@[simp] theorem voteOf_code (m : VoteMode) : voteOf (fld m.code 0 2) = m := by cases m <;> rfl
@[simp] theorem cxOpOf_code (op : CxOp) : cxOpOf op.code.toNat = some op := by cases op <;> rfl
@[simp] theorem cxCondOf_code (c : CxCond) : cxCondOf c.code.toNat = some c := by cases c <;> rfl

/-- The word of an arrival or a gate, where 0xFFFF is none (R297). -/
theorem wordOf_code {x : Option (BitVec 16)} (h : x ≠ some 0xFFFF) : wordOf (wordCode x) = x := by
  cases x with
  | none => rfl
  | some v => simpa [wordOf, wordCode] using h

/-! ### Parts of a field -/

/-- A field of 16 bits whose value fits into k bits has no bit of a mask above them. -/
theorem and_eq_zero_of_lt {x m : BitVec 16} (k : Nat) (h : x.toNat < 2 ^ k) (hm : BitVec.allOnes 16 <<< k = m) : x &&& m = 0#16 := by
  subst hm
  ext i hi
  simp only [BitVec.getElem_and, BitVec.getElem_shiftLeft, BitVec.getElem_zero, Bool.and_eq_false_iff]
  by_cases hk : i < k
  · simp [hk]
  · left
    rw [← BitVec.getLsbD_eq_getElem, BitVec.getLsbD]
    exact Nat.testBit_lt_two_pow (lt_of_lt_of_le h (Nat.pow_le_pow_right (by decide) (by omega)))

/-- The same where the bits above the k bits are a zero part of the layout. -/
theorem and_eq_zero_of_extract {x m : BitVec 16} (k l : Nat) (h : x.extractLsb' k l = 0#l) (hl : k + l = 16)
    (hm : BitVec.allOnes 16 <<< k = m) : x &&& m = 0#16 := by
  refine and_eq_zero_of_lt k ?_ hm
  have hx : x.toNat / 2 ^ k < 2 ^ l := by
    rw [Nat.div_lt_iff_lt_mul (Nat.two_pow_pos k), ← Nat.pow_add, Nat.add_comm, hl]
    exact x.isLt
  have h := congrArg BitVec.toNat h
  rw [BitVec.extractLsb'_toNat, Nat.shiftRight_eq_div_pow, Nat.mod_eq_of_lt hx, BitVec.toNat_ofNat, Nat.zero_mod] at h
  exact (Nat.div_eq_zero_iff_lt (Nat.two_pow_pos k)).1 h

theorem ofNat_and {m : Nat} (i : Fin m) {mask : BitVec 16} (k : Nat) (hi : m ≤ 2 ^ k) (hk : m ≤ 65536)
    (hm : BitVec.allOnes 16 <<< k = mask) : BitVec.ofNat 16 i.val &&& mask = 0#16 :=
  and_eq_zero_of_lt k (by rw [BitVec.toNat_ofNat]; omega) hm

theorem setWidth_and {w : Nat} (x : BitVec w) {mask : BitVec 16} (h : w ≤ 16) (hm : BitVec.allOnes 16 <<< w = mask) :
    x.setWidth 16 &&& mask = 0#16 :=
  and_eq_zero_of_lt w (by rw [BitVec.toNat_setWidth_of_le h]; exact x.isLt) hm

theorem bits_of_extract {w : Nat} {x : BitVec w} {lo n : Nat} {y : BitVec n} (h : x.extractLsb' lo n = y) : bits x.toNat lo n = y.toNat := by
  rw [← h, BitVec.extractLsb'_toNat, bits]

theorem fld_of_extract {x : BitVec 16} {lo n : Nat} {y : BitVec n} (h : x.extractLsb' lo n = y) : fld x lo n = y.toNat := bits_of_extract h

@[simp] theorem fld_ofNat {m n : Nat} (i : Fin m) (h : m ≤ 2 ^ n) (h' : m ≤ 65536) : fld (BitVec.ofNat 16 i.val) 0 n = i.val := by
  rw [fld, BitVec.toNat_ofNat, bits, Nat.shiftRight_zero, Nat.mod_eq_of_lt (a := i.val) (by omega), Nat.mod_eq_of_lt (by omega)]

@[simp] theorem fld_setWidth {w : Nat} (x : BitVec w) (h : w ≤ 16) : fld (x.setWidth 16) 0 w = x.toNat := by
  rw [fld, bits, Nat.shiftRight_zero, BitVec.toNat_setWidth_of_le h, BitVec.toNat_mod_cancel]

@[simp] theorem third_setWidth (x : BitVec 24) (c : BitVec 8) : (third x c).setWidth 8 = c :=
  BitVec.setWidth_append_eq_right

@[simp] theorem third_extract (x : BitVec 24) (c : BitVec 8) : (third x c).extractLsb' 8 24 = x := by
  simp (disch := omega) only [third, BitVec.extractLsb'_append_eq_of_le, BitVec.extractLsb'_append_eq_of_add_le, Nat.reduceSub,
    BitVec.extractLsb'_eq_self]

/-! ### Layouts: what the decoder reads in the parts that the encoder lays out -/

theorem cond_and : ∀ cond : BitVec 4, cond ++ (0 : BitVec 12) &&& 0xFFF#16 = 0#16 := by decide

theorem fence_and : ∀ (kind : BitVec 2) (scope : BitVec 3), (0 : BitVec 10) ++ kind ++ (0 : BitVec 1) ++ scope &&& 0xFFC8#16 = 0#16 := by decide

/-- The condition of ICMP and FCMP above the 12 bits of ICMP's immediate (R135, R144). -/
theorem imm_cond (cond : BitVec 4) (v : BitVec 12) : ∃ x : BitVec 16, x = cond ++ v ∧
    fld x 12 4 = cond.toNat ∧ x.setWidth 12 = v ∧ (v = 0 → x &&& 0xFFF#16 = 0#16) := by
  refine ⟨_, rfl, fld_of_extract ?_, BitVec.setWidth_append_eq_right, fun h => h ▸ cond_and cond⟩
  all_goals
    simp (disch := omega) only [BitVec.extractLsb'_append_eq_of_le, Nat.reduceSub, BitVec.extractLsb'_eq_self]

/-- The source format, rounding mode and saturation of CVT (R146). -/
theorem imm_cvt (sat : BitVec 1) (mode src : BitVec 4) : ∃ x : BitVec 16, x = (0 : BitVec 7) ++ sat ++ mode ++ src ∧
    x.extractLsb' 0 4 = src ∧ fld x 4 4 = mode.toNat ∧ x.extractLsb' 8 1 = sat ∧ x &&& 0xFE00#16 = 0#16 := by
  refine ⟨_, rfl, ?_, fld_of_extract ?_, ?_, and_eq_zero_of_extract 9 7 ?_ rfl (by decide)⟩
  all_goals
    simp (disch := omega) only [BitVec.extractLsb'_append_eq_of_le, BitVec.extractLsb'_append_eq_of_add_le, Nat.reduceSub,
      BitVec.extractLsb'_eq_self]
  rfl

/-- The source format and element of UNPK (R148). -/
theorem imm_unpk (idx : BitVec 2) (src : BitVec 4) : ∃ x : BitVec 16, x = (0 : BitVec 10) ++ idx ++ src ∧
    x.extractLsb' 0 4 = src ∧ fld x 4 2 = idx.toNat ∧ x &&& 0xFFC0#16 = 0#16 := by
  refine ⟨_, rfl, ?_, fld_of_extract ?_, and_eq_zero_of_extract 6 10 ?_ rfl (by decide)⟩
  all_goals
    simp (disch := omega) only [BitVec.extractLsb'_append_eq_of_le, BitVec.extractLsb'_append_eq_of_add_le, Nat.reduceSub,
      BitVec.extractLsb'_eq_self]
  rfl

/-- The operation of PRFX and its exclusive bit (R151). -/
theorem imm_prfx (excl : BitVec 1) (op : BitVec 3) : ∃ x : BitVec 16, x = (0 : BitVec 12) ++ excl ++ op ∧
    fld x 0 3 = op.toNat ∧ x.extractLsb' 3 1 = excl ∧ x &&& 0xFFF0#16 = 0#16 := by
  refine ⟨_, rfl, fld_of_extract ?_, ?_, and_eq_zero_of_extract 4 12 ?_ rfl (by decide)⟩
  all_goals
    simp (disch := omega) only [BitVec.extractLsb'_append_eq_of_le, BitVec.extractLsb'_append_eq_of_add_le, Nat.reduceSub,
      BitVec.extractLsb'_eq_self]
  rfl

/-- The mode and the bank of BANKSET (R196). -/
theorem imm_bankset (mode : BitVec 2) (bank : BitVec 4) : ∃ x : BitVec 16, x = (0 : BitVec 10) ++ mode ++ bank ∧
    fld x 4 2 = mode.toNat ∧ fld x 0 4 = bank.toNat ∧ x &&& 0xFFC0#16 = 0#16 := by
  refine ⟨_, rfl, fld_of_extract ?_, fld_of_extract ?_, and_eq_zero_of_extract 6 10 ?_ rfl (by decide)⟩
  all_goals
    simp (disch := omega) only [BitVec.extractLsb'_append_eq_of_le, BitVec.extractLsb'_append_eq_of_add_le, Nat.reduceSub,
      BitVec.extractLsb'_eq_self]
  rfl

/-- The kind and the scope of FENCE (R253). -/
theorem imm_fence (kind : BitVec 2) (scope : BitVec 3) : ∃ x : BitVec 16, x = (0 : BitVec 10) ++ kind ++ (0 : BitVec 1) ++ scope ∧
    fld x 4 2 = kind.toNat ∧ fld x 0 3 = scope.toNat ∧ x &&& 0xFFC8#16 = 0#16 := by
  refine ⟨_, rfl, fld_of_extract ?_, fld_of_extract ?_, fence_and kind scope⟩
  all_goals
    simp (disch := omega) only [BitVec.extractLsb'_append_eq_of_le, BitVec.extractLsb'_append_eq_of_add_le, Nat.reduceSub,
      BitVec.extractLsb'_eq_self]

/-- The displacement, RET and the operation of the atomic layout (R248). -/
theorem imm_atom (disp : BitVec 11) (ret : BitVec 1) (op : BitVec 4) : ∃ x : BitVec 16, x = disp ++ ret ++ op ∧
    x.extractLsb' 5 11 = disp ∧ x.extractLsb' 4 1 = ret ∧ x.extractLsb' 0 4 = op := by
  refine ⟨_, rfl, ?_, ?_, ?_⟩
  all_goals
    simp (disch := omega) only [BitVec.extractLsb'_append_eq_of_le, BitVec.extractLsb'_append_eq_of_add_le, Nat.reduceSub,
      BitVec.extractLsb'_eq_self]

/-- The count and the convergence register of MX.ARM (R324). -/
theorem imm_mxArm (count : BitVec 8) (cv : BitVec 4) : ∃ x : BitVec 16, x = (0 : BitVec 4) ++ count ++ cv ∧
    fld x 0 4 = cv.toNat ∧ fld x 4 8 = count.toNat ∧ x &&& 0xF000#16 = 0#16 := by
  refine ⟨_, rfl, fld_of_extract ?_, fld_of_extract ?_, and_eq_zero_of_extract 12 4 ?_ rfl (by decide)⟩
  all_goals
    simp (disch := omega) only [BitVec.extractLsb'_append_eq_of_le, BitVec.extractLsb'_append_eq_of_add_le, Nat.reduceSub,
      BitVec.extractLsb'_eq_self]
  rfl

/-- The length and the position of a bit field (R134). -/
theorem x24_bitField (len : BitVec 7) (pos : BitVec 6) : ∃ x : BitVec 24, x = (0 : BitVec 11) ++ len ++ pos ∧
    bits x.toNat 0 6 = pos.toNat ∧ bits x.toNat 6 7 = len.toNat ∧ x.extractLsb' 13 11 = 0 := by
  refine ⟨_, rfl, bits_of_extract ?_, bits_of_extract ?_, ?_⟩
  all_goals
    simp (disch := omega) only [BitVec.extractLsb'_append_eq_of_le, BitVec.extractLsb'_append_eq_of_add_le, Nat.reduceSub,
      BitVec.extractLsb'_eq_self]

/-- The source format, rounding mode, saturation and half of PACK (R147). -/
theorem x24_pack (half sat : BitVec 1) (mode src : BitVec 4) : ∃ x : BitVec 24, x = (0 : BitVec 14) ++ half ++ sat ++ mode ++ src ∧
    x.extractLsb' 0 4 = src ∧ bits x.toNat 4 4 = mode.toNat ∧ x.extractLsb' 8 1 = sat ∧ x.extractLsb' 9 1 = half ∧ x.extractLsb' 10 14 = 0 := by
  refine ⟨_, rfl, ?_, bits_of_extract ?_, ?_, ?_, ?_⟩
  all_goals
    simp (disch := omega) only [BitVec.extractLsb'_append_eq_of_le, BitVec.extractLsb'_append_eq_of_add_le, Nat.reduceSub,
      BitVec.extractLsb'_eq_self]

/-- The engine tail behind an operation's own 21 bits (R297). -/
theorem hi_tail (gen : BitVec 8) (gate arrive : BitVec 16) (scope : BitVec 3) (low : BitVec 21) :
    ∃ x : BitVec 64, x = gen ++ gate ++ arrive ++ scope ++ low ∧ bits x.toNat 21 3 = scope.toNat ∧ x.extractLsb' 24 16 = arrive ∧
      x.extractLsb' 40 16 = gate ∧ x.extractLsb' 56 8 = gen ∧ (∀ lo n, lo + n ≤ 21 → x.extractLsb' lo n = low.extractLsb' lo n) := by
  refine ⟨_, rfl, bits_of_extract ?_, ?_, ?_, ?_, fun lo n h => BitVec.extractLsb'_append_eq_of_add_le h⟩
  all_goals
    simp (disch := omega) only [BitVec.extractLsb'_append_eq_of_le, BitVec.extractLsb'_append_eq_of_add_le, Nat.reduceSub,
      BitVec.extractLsb'_eq_self]

/-- The scale register, tile kind and layout register of TC.LOAD and TC.STORE (R297). -/
theorem low_tile (scale : BitVec 8) (kind : BitVec 2) (ly : BitVec 3) : ∃ x : BitVec 21, x = (0 : BitVec 8) ++ scale ++ kind ++ ly ∧
    x.extractLsb' 0 3 = ly ∧ x.extractLsb' 3 2 = kind ∧ x.extractLsb' 5 8 = scale ∧ x.extractLsb' 13 8 = 0 := by
  refine ⟨_, rfl, ?_, ?_, ?_, ?_⟩
  all_goals
    simp (disch := omega) only [BitVec.extractLsb'_append_eq_of_le, BitVec.extractLsb'_append_eq_of_add_le, Nat.reduceSub,
      BitVec.extractLsb'_eq_self]

/-- The layout register of TC.QNT2 (R297). -/
theorem low_qnt2 (ly : BitVec 3) : ∃ x : BitVec 21, x = (0 : BitVec 18) ++ ly ∧
    x.extractLsb' 0 3 = ly ∧ x.extractLsb' 3 18 = 0 := by
  refine ⟨_, rfl, ?_, ?_⟩
  all_goals
    simp (disch := omega) only [BitVec.extractLsb'_append_eq_of_le, BitVec.extractLsb'_append_eq_of_add_le, Nat.reduceSub,
      BitVec.extractLsb'_eq_self]

/-- The code, return slot and status of CAP.ENTER (R274). -/
theorem hi_capEnter (code slot status : BitVec 8) : ∃ x : BitVec 64, x = code ++ slot ++ status ++ (0 : BitVec 40) ∧
    x.extractLsb' 0 40 = 0 ∧ bits x.toNat 40 8 = status.toNat ∧ x.extractLsb' 48 8 = slot ∧ x.extractLsb' 56 8 = code := by
  refine ⟨_, rfl, ?_, bits_of_extract ?_, ?_, ?_⟩
  all_goals
    simp (disch := omega) only [BitVec.extractLsb'_append_eq_of_le, BitVec.extractLsb'_append_eq_of_add_le, Nat.reduceSub,
      BitVec.extractLsb'_eq_self]

/-- The gate and the ply of MX.ARM (R324). -/
theorem hi_mxArm (gen : BitVec 8) (gate : BitVec 16) (ply : BitVec 8) : ∃ x : BitVec 64, x = gen ++ gate ++ ply ++ (0 : BitVec 32) ∧
    x.extractLsb' 0 32 = 0 ∧ x.extractLsb' 32 8 = ply ∧ x.extractLsb' 40 16 = gate ∧ x.extractLsb' 56 8 = gen := by
  refine ⟨_, rfl, ?_, ?_, ?_, ?_⟩
  all_goals
    simp (disch := omega) only [BitVec.extractLsb'_append_eq_of_le, BitVec.extractLsb'_append_eq_of_add_le, Nat.reduceSub,
      BitVec.extractLsb'_eq_self]

/-- The mode and the tile of MX.DRAIN, with what becomes of the tile (R324). -/
theorem hi_mxDrain (free zero : BitVec 1) (mode : BitVec 2) (tile : BitVec 4) :
    ∃ x : BitVec 64, x = (0 : BitVec 56) ++ free ++ zero ++ mode ++ tile ∧ bits x.toNat 0 4 = tile.toNat ∧ bits x.toNat 4 2 = mode.toNat ∧
      x.extractLsb' 6 1 = zero ∧ x.extractLsb' 7 1 = free ∧ x.extractLsb' 8 56 = 0 := by
  refine ⟨_, rfl, bits_of_extract ?_, bits_of_extract ?_, ?_, ?_, ?_⟩
  all_goals
    simp (disch := omega) only [BitVec.extractLsb'_append_eq_of_le, BitVec.extractLsb'_append_eq_of_add_le, Nat.reduceSub,
      BitVec.extractLsb'_eq_self]

/-- The mode and the tile of MX.FILL (R324). -/
theorem hi_mxFill (mode : BitVec 2) (tile : BitVec 4) : ∃ x : BitVec 64, x = (0 : BitVec 58) ++ mode ++ tile ∧
    bits x.toNat 0 4 = tile.toNat ∧ bits x.toNat 4 2 = mode.toNat ∧ x.extractLsb' 6 58 = 0 := by
  refine ⟨_, rfl, bits_of_extract ?_, bits_of_extract ?_, ?_⟩
  all_goals
    simp (disch := omega) only [BitVec.extractLsb'_append_eq_of_le, BitVec.extractLsb'_append_eq_of_add_le, Nat.reduceSub,
      BitVec.extractLsb'_eq_self]

end Sys2Proof
end

