-- ==== Sys2Proof/Proofs/EncodingOperands.lean ====
section
/-! SUPPORT. Decoding undoes encoding, by shape of operands: each shape passes the checks of its fields and is read back. -/

namespace Sys2Proof

/-! ### Checks -/

/-- All of some checks hold. -/
def Passed (cs : List Check) : Prop := ∀ c ∈ cs, c.1 = true

@[simp] theorem passed_nil : Passed [] ↔ True := by simp [Passed]

@[simp] theorem passed_cons (c : Check) (cs : List Check) : Passed (c :: cs) ↔ c.1 = true ∧ Passed cs := by simp [Passed]

@[simp] theorem passed_append (cs ds : List Check) : Passed (cs ++ ds) ↔ Passed cs ∧ Passed ds := by
  simp [Passed, or_imp, forall_and]

theorem wellFormed_iff (n w : Nat) (i : Instr) : i.wellFormed n w = true ↔ Passed (i.checks n w) := by
  simp [Instr.wellFormed, Passed]

theorem verdict_eq_none (cs : List Check) : verdict cs = none ↔ Passed cs := by
  induction cs with
  | nil => simp [verdict]
  | cons c cs ih =>
    obtain ⟨b, r⟩ := c
    cases b with
    | true => simp [verdict, ih]
    | false =>
      simp only [verdict, passed_cons]
      split <;> simp

@[simp] theorem zr_iff {n : Nat} (x : BitVec n) : (zr x).1 = true ↔ x = 0#n := by simp [zr]
@[simp] theorem sDst_iff (x : BitVec 8) : (sDst x).1 = true ↔ 192 ≤ x.toNat := by simp [sDst]
@[simp] theorem vDst_iff (x : BitVec 8) : (vDst x).1 = true ↔ x.toNat < 192 := by simp [vDst]
@[simp] theorem pFld_iff (x : BitVec 8) : (pFld x).1 = true ↔ x.toNat < 8 := by simp [pFld]
@[simp] theorem defined_iff {α : Type} (x : Option α) : (defined x).1 = true ↔ x.isSome = true := by simp [defined]

@[simp] theorem passed_sSrc (n : Nat) (x : BitVec 8) : Passed (sSrc n x) ↔ 192 ≤ x.toNat := by
  simp only [sSrc, passed_cons, passed_nil, Bool.or_eq_true, Nat.ble_eq]
  tauto

@[simp] theorem and_allOnes16 (x : BitVec 16) : x &&& 0xFFFF#16 = x := BitVec.and_allOnes

section
variable (n : Nat) (f : Fields)

@[simp] theorem Fields.noMx_iff : f.noMx.1 = true ↔ f.mx = 0#1 := by simp [noMx]
@[simp] theorem Fields.noLa_iff : f.noLa.1 = true ↔ f.la = 0#4 := by simp [noLa]
@[simp] theorem Fields.noTy_iff : f.noTy.1 = true ↔ f.ty = 0#4 := by simp [noTy]
@[simp] theorem Fields.okTy_iff : f.okTy.1 = true ↔ f.ty ≠ 15#4 := by simp [okTy]

@[simp] theorem Fields.passed_immNone (resv : BitVec 16) : Passed (f.immNone resv) ↔ f.i = 0#1 ∧ f.imm &&& resv = 0#16 := by
  have : f.i = 0#1 ∨ f.i = 1#1 := by bv_omega
  rcases this with h | h <;> simp [immNone, h]

@[simp] theorem Fields.passed_immOpt : Passed f.immOpt ↔ if f.i = 1#1 then f.b = 0#8 else f.imm = 0#16 := by simp [immOpt]

@[simp] theorem Fields.passed_immReq (resv : BitVec 16) : Passed (f.immReq resv) ↔ f.i = 1#1 ∧ f.b = 0#8 ∧ f.imm &&& resv = 0#16 := by
  have : f.i = 0#1 ∨ f.i = 1#1 := by bv_omega
  rcases this with h | h <;> simp [immReq, h]

@[simp] theorem Fields.passed_enc1 (resv : BitVec 16) :
    Passed (f.enc1 resv) ↔ f.ty ≠ 15#4 ∧ f.la = 0#4 ∧ f.b = 0#8 ∧ f.i = 0#1 ∧ f.imm &&& resv = 0#16 := by
  simp [enc1]

@[simp] theorem Fields.passed_enc2 : Passed f.enc2 ↔ f.ty ≠ 15#4 ∧ f.la = 0#4 ∧ if f.i = 1#1 then f.b = 0#8 else f.imm = 0#16 := by
  simp [enc2]

@[simp] theorem Fields.passed_bSrc : Passed (f.bSrc n) ↔ f.i = 1#1 ∨ 192 ≤ f.b.toNat := by
  simp only [bSrc, beq_iff_eq]
  split <;> simp_all

@[simp] theorem Fields.passed_encTask (dst a b : Bool) : Passed (f.encTask n dst a b) ↔
    f.la = 0#4 ∧ f.ty = 0#4 ∧ (if dst then 192 ≤ f.dst.toNat else f.dst = 0#8) ∧ (if a then 192 ≤ f.a.toNat else f.a = 0#8) ∧
      if b then f.i = 1#1 ∨ 192 ≤ f.b.toNat else f.b = 0#8 := by
  cases dst <;> cases a <;> cases b <;> simp [encTask]

@[simp] theorem Fields.passed_encEngine : Passed (f.encEngine n) ↔ f.mx = 0#1 ∧ f.la = 0#4 ∧ (scopeOf (bits f.hi.toNat 21 3)).isSome = true ∧
    192 ≤ (f.hi.extractLsb' 56 8).toNat ∧ 192 ≤ f.dst.toNat ∧ 192 ≤ f.a.toNat ∧ (f.i = 1#1 ∨ 192 ≤ f.b.toNat) ∧ f.i = 0#1 ∧
      f.imm = 0#16 := by
  simp [encEngine]

@[simp] theorem Fields.passed_encMx (resv : BitVec 16) (dst a ty : Bool) : Passed (f.encMx n resv dst a ty) ↔
    f.mx = 0#1 ∧ f.b = 0#8 ∧ f.la = 0#4 ∧ (if ty then f.ty ≠ 15#4 else f.ty = 0#4) ∧
      (if dst then 192 ≤ f.dst.toNat else f.dst = 0#8) ∧ (if a then 192 ≤ f.a.toNat else f.a = 0#8) ∧ f.i = 0#1 ∧ f.imm &&& resv = 0#16 := by
  cases dst <;> cases a <;> cases ty <;> simp [encMx]

@[simp] theorem Fields.passed_encSys (resv : BitVec 16) (dst a : Bool) : Passed (f.encSys n resv dst a) ↔
    f.mx = 0#1 ∧ f.b = 0#8 ∧ f.la = 0#4 ∧ f.ty = 0#4 ∧ (if dst then 192 ≤ f.dst.toNat else f.dst = 0#8) ∧
      (if a then 192 ≤ f.a.toNat else f.a = 0#8) ∧ f.i = 1#1 ∧ f.imm &&& resv = 0#16 := by
  cases dst <;> cases a <;> simp [encSys] <;> tauto
end

/-! ### Operand shapes -/

@[simp] theorem e1_op (op : BitVec 8) (x : Alu1) : (e1 op x).op = op := rfl
@[simp] theorem e1_alu1 (op : BitVec 8) (x : Alu1) : (e1 op x).alu1 = x := by simp [Fields.alu1, e1, blank, Fields.guard]

theorem e1_passed (op : BitVec 8) (x : Alu1) : Passed ((e1 op x).noMx :: (e1 op x).enc1) := by simp [e1, blank]

@[simp] theorem e2_op (op : BitVec 8) (x : Alu2) : (e2 op x).op = op := by
  obtain ⟨_, _, _, _, _ | _⟩ := x <;> rfl

@[simp] theorem e2_alu2 (op : BitVec 8) (x : Alu2) : (e2 op x).alu2 = x := by
  obtain ⟨_, _, _, _, _ | _⟩ := x <;> simp [Fields.alu2, e2, blank, Fields.withOpnd, Fields.guard, Fields.opnd]

theorem e2_passed (op : BitVec 8) (x : Alu2) : Passed ((e2 op x).noMx :: (e2 op x).enc2) := by
  obtain ⟨_, _, _, _, _ | _⟩ := x <;> simp [e2, blank, Fields.withOpnd]

@[simp] theorem e3_op (op : BitVec 8) (x : Alu3) : (e3 op x).op = op := by
  obtain ⟨_, _, _, _, _ | _, _⟩ := x <;> rfl

@[simp] theorem e3_alu3 (op : BitVec 8) (x : Alu3) : (e3 op x).alu3 = x := by
  obtain ⟨_, _, _, _, _ | _, _⟩ := x <;> simp [Fields.alu3, e3, blank, Fields.withOpnd, Fields.guard, Fields.opnd, Fields.c]

@[simp] theorem Icmp.enc_op (x : Icmp) : x.enc.op = 0x55 := by
  obtain ⟨_, _, _, _, _, _, _ | _⟩ := x <;> rfl

@[simp] theorem Icmp.icmp_enc (x : Icmp) : x.enc.icmp = x := by
  obtain ⟨g, ty, any, cond, dst, a, r | v⟩ := x
  · obtain ⟨y, hy, hc, hv, -⟩ := imm_cond cond.code 0
    simp only [Icmp.enc, ← hy]
    simp [Fields.icmp, blank, Fields.guard, hc]
  · obtain ⟨y, hy, hc, hv, -⟩ := imm_cond cond.code v
    simp only [Icmp.enc, ← hy]
    simp [Fields.icmp, blank, Fields.guard, hc, hv]

theorem Icmp.passed_enc (x : Icmp) : Passed x.enc.encIcmp := by
  obtain ⟨g, ty, any, cond, dst, a, r | v⟩ := x
  · obtain ⟨y, hy, hc, -, hv⟩ := imm_cond cond.code 0
    simp only [Icmp.enc, ← hy]
    simp [Fields.encIcmp, blank, hc, hv rfl]
  · obtain ⟨y, hy, hc, -⟩ := imm_cond cond.code v
    simp only [Icmp.enc, ← hy]
    simp [Fields.encIcmp, blank, hc]

@[simp] theorem Fcmp.enc_op (x : Fcmp) : x.enc.op = 0x68 := rfl

@[simp] theorem Fcmp.fcmp_enc (x : Fcmp) : x.enc.fcmp = x := by
  obtain ⟨y, hy, hc, -⟩ := imm_cond x.cond.code 0
  simp only [Fcmp.enc, ← hy]
  simp [Fields.fcmp, blank, Fields.guard, Fields.bReg, hc]

theorem Fcmp.passed_enc (x : Fcmp) : Passed x.enc.encFcmp := by
  obtain ⟨y, hy, hc, -, hv⟩ := imm_cond x.cond.code 0
  simp only [Fcmp.enc, ← hy]
  simp [Fields.encFcmp, blank, hc, hv rfl]

@[simp] theorem Movi.enc_op (x : Movi) : x.enc.op = 0x58 := rfl
@[simp] theorem Movi.movi_enc (x : Movi) : x.enc.movi = x := by simp [Fields.movi, Movi.enc, blank, Fields.guard]

theorem Movi.passed_enc (x : Movi) : Passed x.enc.encMovi := by simp [Fields.encMovi, Movi.enc, blank]

@[simp] theorem Plog.enc_op (x : Plog) : x.enc.op = 0x5B := rfl
@[simp] theorem Plog.plog_enc (x : Plog) : x.enc.plog = x := by simp [Fields.plog, Plog.enc, blank, Fields.guard]

theorem Plog.passed_enc (x : Plog) : Passed x.enc.encPlog := by
  simp [Fields.encPlog, Plog.enc, blank, setWidth_and x.table]

@[simp] theorem BitField.enc_op (op : BitVec 8) (x : BitField) : (x.enc op).op = op := rfl

@[simp] theorem BitField.bitField_enc (op : BitVec 8) (x : BitField) : (x.enc op).bitField x.b = x := by
  obtain ⟨y, hy, hp, hl, -⟩ := x24_bitField (BitVec.ofNat 7 x.len.val) (BitVec.ofNat 6 x.pos.val)
  simp only [BitField.enc, ← hy]
  simp [Fields.bitField, blank, Fields.guard, Fields.x24, hp, hl]

@[simp] theorem BitField.b_enc (op : BitVec 8) (x : BitField) : (x.enc op).b = x.b.code := rfl
@[simp] theorem BitField.bReg_enc (op : BitVec 8) (x : BitField) : (x.enc op).bReg = x.b := by simp [Fields.bReg, BitField.enc, blank]

theorem BitField.passed_enc (op : BitVec 8) (x : BitField) : Passed (x.enc op).encBit := by
  obtain ⟨y, hy, -, -, hr⟩ := x24_bitField (BitVec.ofNat 7 x.len.val) (BitVec.ofNat 6 x.pos.val)
  simp only [BitField.enc, ← hy]
  simpa [Fields.encBit, blank, Fields.c, Fields.x24] using hr

@[simp] theorem SpawnF.enc_op (op : BitVec 8) (x : SpawnF) (low : BitVec 16) : (x.enc op low).op = op := rfl
@[simp] theorem SpawnF.guard_enc (op : BitVec 8) (x : SpawnF) (low : BitVec 16) : (x.enc op low).guard = x.g := by
  simp [SpawnF.enc, blank, Fields.guard]

@[simp] theorem SpawnF.spawn_enc (op : BitVec 8) (x : SpawnF) (low : BitVec 16) : (x.enc op low).spawn = x := by
  have : (if x.prio.isSome = true then some (x.prio.getD 0#2) else none) = x.prio := by cases x.prio <;> rfl
  simp (disch := omega) only [Fields.spawn, SpawnF.enc, bits_of_extract rfl, BitVec.extractLsb'_append_eq_of_le,
    BitVec.extractLsb'_append_eq_of_add_le, Nat.reduceSub, BitVec.extractLsb'_eq_self]
  simp [blank, Fields.guard, this]

theorem SpawnF.passed_enc (n : Nat) (op : BitVec 8) (x : SpawnF) (low : BitVec 16) : Passed ((x.enc op low).encSpawn n) := by
  simp (disch := omega) only [Fields.encSpawn, SpawnF.enc, bits_of_extract rfl, BitVec.extractLsb'_append_eq_of_le,
    BitVec.extractLsb'_append_eq_of_add_le, Nat.reduceSub, BitVec.extractLsb'_eq_self]
  simp [blank]
  omega

/-- What stands behind the operands that all of the SPAWN family have. -/
theorem SpawnF.low_enc (op : BitVec 8) (x : SpawnF) (low : BitVec 16) {lo n : Nat} (h : lo + n ≤ 16) :
    (x.enc op low).hi.extractLsb' lo n = low.extractLsb' lo n :=
  BitVec.extractLsb'_append_eq_of_add_le h

@[simp] theorem Fields.withTarget_op (f : Fields) (t : Target) : (f.withTarget t).op = f.op := by cases t <;> rfl
@[simp] theorem Fields.withOpnd_op (f : Fields) (b : Opnd) : (f.withOpnd b).op = f.op := by cases b <;> rfl

@[simp] theorem Fields.withAddr_op (f : Fields) (a : MemAddr) : (f.withAddr a).op = f.op := rfl

@[simp] theorem Fields.scale_withAddr (f : Fields) (a : MemAddr) : (f.withAddr a).scale = a.scale := by
  have : ∀ k : Fin 4, Fin.ofNat 4 (2 * (BitVec.ofNat 1 (k.val / 2)).toNat + (BitVec.ofNat 1 k.val).toNat) = k := by decide
  exact this a.scale

@[simp] theorem Fields.memAddr_withAddr (f : Fields) (a : MemAddr) : (f.withAddr a).memAddr = a := by
  rw [Fields.memAddr, Fields.scale_withAddr]
  simp [Fields.withAddr]

@[simp] theorem Mem.enc_op (op : BitVec 8) (x : Mem) : (x.enc op).op = op := rfl
@[simp] theorem Mem.mem_enc (op : BitVec 8) (x : Mem) : (x.enc op).mem = x := by
  rw [Fields.mem, Mem.enc, Fields.memAddr_withAddr]
  simp [Fields.withAddr, blank, Fields.guard]

@[simp] theorem Fifo.enc_op (op : BitVec 8) (x : Fifo) : (x.enc op).op = op := rfl

/-- A displacement of 11 bits is what its low bits extend to (R248). -/
theorem dispOk_iff (d : BitVec 16) : dispOk d = true ↔ (d.extractLsb' 0 11).signExtend 16 = d := by simp [dispOk]

theorem Fields.atomAddr_withAtom (f : Fields) (a : MemAddr) (ret : Bool) (op : BitVec 4) (h : dispOk a.disp = true) :
    (f.withAtom a ret op).atomAddr = a := by
  obtain ⟨x, hx, hd, -, -⟩ := imm_atom (a.disp.extractLsb' 0 11) (flag ret) op
  have hs : (f.withAtom a ret op).scale = a.scale := Fields.scale_withAddr f a
  rw [Fields.atomAddr, hs]
  simp only [Fields.withAtom, Fields.withAddr, ← hx, hd, (dispOk_iff _).1 h, Reg.of_code]

@[simp] theorem Fields.withAtom_op (f : Fields) (a : MemAddr) (ret : Bool) (op : BitVec 4) : (f.withAtom a ret op).op = f.op := rfl
@[simp] theorem Atom.enc_op (op : BitVec 8) (x : Atom) : (x.enc op).op = op := rfl
@[simp] theorem ScopedMem.enc_op (op : BitVec 8) (x : ScopedMem) : (x.enc op).op = op := rfl

theorem AtomOp.isRed_of_takes {op : AtomOp} {t : Ty} (h : op.takes t = true) : t.isRed = true := by
  cases op <;> simp only [AtomOp.takes, Ty.isRed, Bool.or_eq_true] at h ⊢ <;> tauto

@[simp] theorem Sf1.enc_op (op : BitVec 8) (x : Sf1) : (x.enc op).op = op := rfl
@[simp] theorem TcTile.enc_op (op : BitVec 8) (x : TcTile) (dst a : Fin 64) : (x.enc op dst a).op = op := rfl
@[simp] theorem CapWord.enc_op (op : BitVec 8) (x : CapWord) : (x.enc op).op = op := rfl
@[simp] theorem PgMem.enc_op (op : BitVec 8) (x : PgMem) : (x.enc op).op = op := rfl
@[simp] theorem eS_op (op : BitVec 8) (g : Guard) (dst a b : BitVec 8) : (eS op g dst a b).op = op := rfl
@[simp] theorem eBranch_op (op : BitVec 8) (g : Guard) (off : BitVec 24) : (eBranch op g off).op = op := rfl
@[simp] theorem blank_op (op : BitVec 8) (g : Guard) : (blank op g).op = op := rfl

end Sys2Proof
end

