-- ==== Sys2Proof/Proofs/EncodingOpcodes.lean ====
section
/-! SUPPORT. Decoding undoes encoding, by opcode: the decoder of an opcode accepts the fields that the encoder lays out and reads the
instruction back. -/

namespace Sys2Proof

/-! ### Decoders of an opcode -/

/-- The fields pass the checks of their opcode's decoder, which reads this instruction. -/
structure Dec.Gives (d : Dec) (i : Instr) : Prop where
  passed : Passed d.enc
  instr : d.instr = i

theorem gives_mk {enc : List Check} {i j : Instr} (h : Passed enc) (h' : j = i) : Dec.Gives ⟨enc, j⟩ i := ⟨h, h'⟩

theorem d1_gives (op : BitVec 8) (x : Alu1) (c : Alu1 → Instr) : (d1 (e1 op x) c).Gives (c x) :=
  gives_mk (e1_passed op x) (by rw [e1_alu1])

theorem d2_gives (op : BitVec 8) (x : Alu2) (c : Alu2 → Instr) : (d2 (e2 op x) c).Gives (c x) :=
  gives_mk (e2_passed op x) (by rw [e2_alu2])

theorem d3_gives (op : BitVec 8) (x : Alu3) (c : Alu3 → Instr) : (d3 (e3 op x) c).Gives (c x) := by
  refine gives_mk ?_ (by rw [e3_alu3])
  obtain ⟨_, _, _, _, _ | _, _⟩ := x <;> simp [e3, blank, Fields.withOpnd, Fields.x24]

theorem dPlain_gives (op : BitVec 8) (g : Guard) (c : Guard → Instr) : (dPlain (blank op g) c).Gives (c g) :=
  gives_mk (by simp [blank]) (by simp [blank, Fields.guard])

theorem dBranch_gives (op : BitVec 8) (g : Guard) (off : BitVec 24) (c : Guard → BitVec 24 → Instr) :
    (dBranch (eBranch op g off) c).Gives (c g off) := by
  have h : off.extractLsb' 16 8 ++ off.extractLsb' 8 8 ++ off.extractLsb' 0 8 = off := by
    rw [BitVec.extractLsb'_append_extractLsb'_eq_extractLsb' (start₁ := 8) (len₁ := 8) rfl,
      BitVec.extractLsb'_append_extractLsb'_eq_extractLsb' (start₁ := 0) (len₁ := 8) rfl]
    exact BitVec.extractLsb'_eq_self
  exact gives_mk (by simp [eBranch, blank]) (by simp [eBranch, blank, Fields.guard, Fields.off, h])

theorem dMem_gives (op : BitVec 8) (x : Mem) (c : Mem → Instr) : (dMem (x.enc op) c).Gives (c x) :=
  gives_mk (by simp [Mem.enc, Fields.withAddr]) (by rw [Mem.mem_enc])

theorem dFifo_gives (op : BitVec 8) (x : Fifo) (c : Fifo → Instr) : (dFifo (x.enc op) c).Gives (c x) :=
  gives_mk (by simp [Fifo.enc, blank, ofNat_and x.bank 4]) (by simp [Fifo.enc, Fields.guard, blank])

/-- Destination, token and sources of a special-function operation. -/
theorem passed_encSf {f : Fields} {tok : Fin 8} {dst : Fin 192} {ty : Ty} (hmx : f.mx = 0) (hty : f.ty = tyCode ty) (hla : f.la = 0)
    (hdst : f.dst = vCode dst) (hi : f.i = 0) (himm : f.imm = BitVec.ofNat 16 tok.val) : Passed f.encSf := by
  simp [Fields.encSf, *, ofNat_and tok 3]

theorem dSf1_gives (op : BitVec 8) (x : Sf1) (c : Sf1 → Instr) : (dSf1 (x.enc op) c).Gives (c x) :=
  gives_mk ((passed_cons _ _).2 ⟨rfl, passed_encSf rfl rfl rfl rfl rfl rfl⟩) (by simp [Sf1.enc, blank, Fields.guard, Fields.tok])

theorem dAtom_gives {n : Nat} {scr : Bool} (op : BitVec 8) {x : Atom} (c : Atom → Instr) (h : Passed (x.checks n scr)) :
    (dAtom (x.enc op) c).Gives (c x) := by
  obtain ⟨⟨hla, hty, -⟩, hd, -⟩ : ((x.ret || x.la == 0) = true ∧ x.op.takes x.ty = true ∧ _) ∧ dispOk x.addr.disp = true ∧ _ := by
    simpa only [Atom.checks, atomAddr, chkTy, passed_append, passed_cons] using h
  have ha := Fields.atomAddr_withAtom { blank op x.g with ty := tyCode x.ty, la := BitVec.ofFin x.la, dst := x.data.code } x.addr x.ret
    x.op.code hd
  obtain ⟨y, hy, -, hr, ho⟩ := imm_atom (x.addr.disp.extractLsb' 0 11) (flag x.ret) x.op.code
  have ho := fld_of_extract ho
  refine gives_mk ?_ ?_
  · simp only [Atom.enc, Fields.withAtom, Fields.withAddr, ← hy]
    have hla : x.ret = true ∨ BitVec.ofFin x.la = 0#4 := by simpa [← BitVec.toFin_inj] using hla
    simpa [hr, ho, AtomOp.isRed_of_takes hty] using hla
  · rw [Atom.enc, ha]
    simp only [Fields.withAtom, Fields.withAddr, ← hy, hr, ho]
    simp [blank, Fields.guard]

theorem dScoped_gives {n : Nat} {long : Bool} (op : BitVec 8) {x : ScopedMem} (c : ScopedMem → Instr) (h : Passed (x.checks n long)) :
    (dScoped (x.enc op) c).Gives (c x) := by
  obtain ⟨-, hd, -⟩ : _ ∧ dispOk x.addr.disp = true ∧ _ := by
    simpa only [ScopedMem.checks, atomAddr, passed_append, passed_cons] using h
  have ha := Fields.atomAddr_withAtom { blank op x.g with ty := tyCode x.ty, la := BitVec.ofFin x.la, dst := x.data.code } x.addr false
    (x.scope.bits3.setWidth 4) hd
  obtain ⟨y, hy, -, hr, -⟩ := imm_atom (x.addr.disp.extractLsb' 0 11) (flag false) (x.scope.bits3.setWidth 4)
  have h3 : y.extractLsb' 3 1 = 0 := by
    rw [hy, BitVec.extractLsb'_append_eq_of_add_le (by decide)]
    cases x.scope <;> rfl
  have h0 : y.extractLsb' 0 3 = x.scope.bits3 := by
    rw [hy, BitVec.extractLsb'_append_eq_of_add_le (by decide)]
    cases x.scope <;> rfl
  have ho : scopeOf (fld y 0 3) = some x.scope := by rw [fld_of_extract h0, scopeOf_bits3]
  refine gives_mk ?_ ?_
  · simp only [ScopedMem.enc, Fields.withAtom, Fields.withAddr, ← hy]
    simpa [hr, ho, h3] using by decide
  · rw [ScopedMem.enc, ha]
    simp only [Fields.withAtom, Fields.withAddr, ← hy, ho]
    simp [blank, Fields.guard]

/-- The tail of an engine operation is read back whole. -/
theorem tail_of_hi {t : Tail} {low : BitVec 21} (h : Passed t.checks) : ∃ x : BitVec 64, x = t.hi low ∧
    (∀ f : Fields, f.hi = x → f.tail = t) ∧ (scopeOf (bits x.toNat 21 3)).isSome = true ∧ x.extractLsb' 56 8 = sCode t.gateGen ∧
      ∀ lo n, lo + n ≤ 21 → x.extractLsb' lo n = low.extractLsb' lo n := by
  obtain ⟨y, hy, hsc, harr, hgate, hgen, hlow⟩ := hi_tail (sCode t.gateGen) (wordCode t.gate) (wordCode t.arrive) t.scope.bits3 low
  obtain ⟨-, ha, hg⟩ : t.scope.arrives = true ∧ (t.arrive != some 0xFFFF) = true ∧ (t.gate != some 0xFFFF) = true := by
    simpa [Tail.checks] using h
  refine ⟨y, hy, fun f hf => ?_, by rw [hsc, scopeOf_bits3]; rfl, hgen, hlow⟩
  rw [Fields.tail, hf, hsc, harr, hgate, hgen, scopeOf_bits3, wordOf_code (by simpa using ha), wordOf_code (by simpa using hg), sOf_sCode]
  rfl

theorem TcTile.enc_passed (n : Nat) {op : BitVec 8} {x : TcTile} {dst a : Fin 64} (h : Passed x.tail.checks) :
    Passed ((x.enc op dst a).encTile n) ∧ ((x.enc op dst a).tcTile (sCode x.tile) (sCode x.base)) = x := by
  obtain ⟨l, hl, h0, h3, h5, h13⟩ := low_tile (sCode x.scale) x.kind.field (BitVec.ofNat 3 x.ly.val)
  obtain ⟨y, hy, ht, hsc, hgen, hlow⟩ := tail_of_hi (low := l) h
  simp only [TcTile.enc, ← hl, ← hy]
  have h0 := (hlow 0 3 (by decide)).trans h0
  have h3 := (hlow 3 2 (by decide)).trans h3
  have h5 := (hlow 5 8 (by decide)).trans h5
  have h13 := (hlow 13 8 (by decide)).trans h13
  constructor
  · simp [Fields.encTile, blank, hsc, hgen, h5, h13, bits_of_extract h3]
  · simp [Fields.tcTile, blank, Fields.guard, ht, h5, bits_of_extract h3, bits_of_extract h0]

theorem CapWord.gives (n : Nat) (op : BitVec 8) (x : CapWord) : Passed ((x.enc op).encCapWord n) ∧ (x.enc op).capWord = x := by
  constructor
  · simp [Fields.encCapWord, CapWord.enc, blank]
  · simp [Fields.capWord, CapWord.enc, blank, Fields.guard]

theorem PgMem.gives (n : Nat) (op : BitVec 8) (x : PgMem) : Passed ((x.enc op).encPg n 0xFFFF) ∧ (x.enc op).pgMem = x := by
  have : ∀ k : Fin 8, (BitVec.ofNat 8 k.val).extractLsb' 3 5 = 0#5 := by decide
  constructor
  · simp [Fields.encPg, PgMem.enc, blank, this]
  · simp [Fields.pgMem, PgMem.enc, blank, Fields.guard]

/-! ### Instructions -/

/-- DOT4 and FDOT2 take no immediate (R137, R143). -/
theorem Alu3.b_of_dotChecks {n : Nat} {p : Ty → Bool} {x : Alu3} (h : Passed (x.dotChecks n p)) : ∃ r, x.b = .reg r := by
  have h : x.b.isReg = true := ((passed_cons _ _).1 ((passed_append _ _).1 h).2).1
  cases hb : x.b with
  | reg r => exact ⟨r, rfl⟩
  | imm v => simp [hb, Opnd.isReg] at h

/-- The rounding mode of SF.DIV (R159). -/
theorem x24_mode (m : Option RMode) : ∃ x : BitVec 24, x = (modeCode m).setWidth 24 ∧ modeOf (bits x.toNat 0 4) = some m ∧
    x.extractLsb' 4 20 = 0 := by
  refine ⟨_, rfl, ?_⟩
  rcases m with _ | _ | _ | _ | _ | _ <;> decide

/-- The displacement of CAS, with the rest of its field reserved (R248). -/
theorem imm_cas (disp : BitVec 11) :
    ∃ x : BitVec 16, x = disp ++ flag false ++ (0 : BitVec 4) ∧ x.extractLsb' 5 11 = disp ∧ x.extractLsb' 0 5 = 0 := by
  obtain ⟨x, hx, hd, hr, h0⟩ := imm_atom disp (flag false) 0
  refine ⟨x, hx, hd, ?_⟩
  rw [← BitVec.extractLsb'_append_extractLsb'_eq_extractLsb' (start₂ := 4) (len₂ := 1) (start₁ := 0) (len₁ := 4) rfl, hr, h0]
  rfl

/-- Whether an opcode has a form other than P and is none of a body's. -/
def inStream (op : BitVec 8) : Bool :=
  match formOf op.toNat with
  | some form => form != 3 && !(0xC4 ≤ op.toNat && op.toNat ≤ 0xCA)
  | none => false

/-- The decoder of an instruction's opcode reads the instruction in its fields. -/
theorem Instr.fields_read {n w : Nat} {i : Instr} {f : Fields} (hw : i.wellFormed n w = true) (hb : i.isBody = false)
    (hf : i.fields = some f) : inStream f.op = true ∧ (decOp n f).Gives i := by
  rw [wellFormed_iff] at hw
  cases i
  case' brx _ _ d => cases d
  case' callx _ _ t => cases t
  case' ret _ s => cases s
  case' meet _ t => cases t
  case' elect _ d s => cases d <;> cases s
  case' setpri _ c _ => cases c
  case' vote x => obtain ⟨_, _, _, _ | _, _⟩ := x
  case' tcFill x =>
    have htail := ((passed_append _ _).1 hw).2
    obtain ⟨g, _ | _ | ty, dst, const, len, tail⟩ := x
  case' arrive _ s _ _ => cases s
  all_goals simp only [Instr.fields, reduceCtorEq, Option.some.injEq] at hf
  case cxGet | cxPut | cxLd | cxAlu | cxMovi | cxBr | cxRes | capExitStep | capAbortStep => cases hb
  all_goals subst hf
  all_goals
    refine ⟨by simp only [blank_op, e1_op, e2_op, e3_op, eS_op, eBranch_op, SpawnF.enc_op, BitField.enc_op, Icmp.enc_op, Fcmp.enc_op, Movi.enc_op,
      Plog.enc_op, Fields.withOpnd_op, Fields.withTarget_op, Fields.withAddr_op, Fields.withAtom_op, Mem.enc_op, Fifo.enc_op, Atom.enc_op,
      ScopedMem.enc_op, Sf1.enc_op, TcTile.enc_op, CapWord.enc_op, PgMem.enc_op]; rfl, ?_⟩
    simp only [decOp, decControl, decTask, decInt, decFloat, decCross, decSf, decMem, decAtom, decTile, decCap, decMx, decPg, decSys,
      blank_op, e1_op, e2_op, e3_op, eS_op, eBranch_op, SpawnF.enc_op, BitField.enc_op, Icmp.enc_op, Fcmp.enc_op, Movi.enc_op,
      Plog.enc_op, Fields.withOpnd_op, Fields.withTarget_op, Fields.withAddr_op, Fields.withAtom_op, Mem.enc_op, Fifo.enc_op, Atom.enc_op,
      ScopedMem.enc_op, Sf1.enc_op, TcTile.enc_op, CapWord.enc_op, PgMem.enc_op, BitVec.reduceToNat, Nat.reduceDiv]
  case nop | meetclr | yield | exit | aflush => exact dPlain_gives ..
  case bra | call => exact dBranch_gives ..
  case brx.none | brx.some | quant | ret.none | ret.some | elect.s.none | elect.s.some | elect.p.none | elect.p.some | trap | bkpt | susp |
      mxFence | mxZero =>
    exact gives_mk (by simp [blank]) (by simp [blank, Fields.guard])
  case callx.reg | callx.rel | meet.reg | meet.rel =>
    exact gives_mk (by simp [blank, Fields.withTarget, Fields.encTarget]) (by simp [blank, Fields.guard, Fields.withTarget, Fields.target])
  case setpri.none g p | setpri.some g p h =>
    have hp : (p.setWidth 16).toNat < 4 := by
      rw [BitVec.toNat_setWidth_of_le (by decide)]
      exact p.isLt
    exact gives_mk (by simpa [eS, blank] using hp) (by simp [eS, blank, Fields.guard])
  case spawn x => exact gives_mk (by simp [SpawnF.low_enc, SpawnF.passed_enc]) (by rw [SpawnF.spawn_enc])
  case spawnf x k =>
    have h : bits (x.enc 0x21#8 (BitVec.ofNat 16 k.val)).hi.toNat 0 16 = k.val := by
      rw [bits_of_extract (SpawnF.low_enc _ x _ (by decide)), BitVec.extractLsb'_eq_self, BitVec.toNat_ofNat, val_mod_of_le _ (by decide)]
    refine gives_mk ?_ (by simp [h])
    simp [SpawnF.passed_enc, h]
    omega
  case spawnx x d =>
    have h : (d.setWidth 16).extractLsb' 10 6 = 0#6 := by
      ext i hi
      simp
    have h' : (d.setWidth 16).extractLsb' 0 10 = d := by
      rw [BitVec.extractLsb'_setWidth_of_le (by decide), BitVec.extractLsb'_eq_self]
    exact gives_mk (by simp [SpawnF.low_enc, SpawnF.passed_enc, h]) (by simp [SpawnF.low_enc, h'])
  case join | joinany | topup | resume | cancel | alwrd | plyjoin | plyleave | plybar | awtest | tcStat =>
    exact gives_mk (by simp [eS, blank]) (by simp [eS, blank, Fields.guard])
  case plynew g dst cap => exact gives_mk (by simp [eS, blank]; omega) (by simp [eS, blank, Fields.guard])
  case clz | popc | brev | mov | fneg | fabs | fclass | confl => exact d1_gives ..
  case iadd | isub | imul | imulh | imin | imax | and | or | xor | andn | shl | shr | sar | fadd | fsub | fmul | fmin | fmax | shfl | shflx |
      shflup | shfldn => exact d2_gives ..
  case imad | ffma => exact d3_gives ..
  case iadds sub x =>
    exact gives_mk ((passed_cons _ _).1 (e2_passed 0x42 x)).2 (congrArg₂ Instr.iadds (flag_beq sub) (e2_alu2 0x42 x))
  case iabs sat x =>
    exact gives_mk ((passed_cons _ _).1 (e1_passed 0x48 x)).2 (congrArg₂ Instr.iabs (flag_beq sat) (e1_alu1 0x48 x))
  case dot4 sat x =>
    obtain ⟨g, ty, dst, a, b, c⟩ := x
    obtain ⟨r, rfl⟩ := Alu3.b_of_dotChecks ((passed_append _ _).1 hw).1
    exact gives_mk (by simp [e3, blank, Fields.withOpnd, Fields.x24])
      (by simp [e3, blank, Fields.alu3, Fields.withOpnd, Fields.guard, Fields.bReg, Fields.c])
  case fdot2 x =>
    obtain ⟨g, ty, dst, a, b, c⟩ := x
    obtain ⟨r, rfl⟩ := Alu3.b_of_dotChecks hw
    exact gives_mk (by simp [e3, blank, Fields.withOpnd, Fields.x24])
      (by simp [e3, blank, Fields.alu3, Fields.withOpnd, Fields.guard, Fields.bReg, Fields.c])
  case bfx x =>
    have hb : x.b = .v 0 := by simpa using ((passed_cons _ _).1 hw).1
    exact gives_mk (x.passed_enc _) (by rw [BitField.b_enc, Reg.of_code, BitField.bitField_enc])
  case bfi x => exact gives_mk (x.passed_enc _) (by rw [BitField.bReg_enc, BitField.bitField_enc])
  case icmp x => exact gives_mk x.passed_enc (by rw [Icmp.icmp_enc])
  case movi x => exact gives_mk x.passed_enc (by rw [Movi.movi_enc])
  case plog x => exact gives_mk x.passed_enc (by rw [Plog.plog_enc])
  case fcmp x => exact gives_mk x.passed_enc (by rw [Fcmp.fcmp_enc])
  case sel x =>
    obtain ⟨g, ty, dst, a, _ | _, p⟩ := x <;>
    exact gives_mk (by simp [blank, Fields.withOpnd, Fields.x24, Fields.c]) (by simp [blank, Fields.withOpnd, Fields.guard, Fields.opnd, Fields.c])
  case movw x => exact gives_mk (by simp [blank]) (by simp [blank, Fields.guard])
  case lea x =>
    have h : ∀ k : Fin 4, (BitVec.ofNat 8 k.val).extractLsb' 2 6 = 0#6 := by decide
    exact gives_mk (by simp [blank, Fields.c, h]) (by simp [blank, Fields.guard, Fields.c, Fields.x24, Fields.bReg])
  case movsp x =>
    obtain ⟨g, _ | _, dst, num⟩ := x <;>
    exact gives_mk (by simp [blank, ofNat_and num 8]) (by simp [blank, Fields.guard, Fields.movsp])
  case frnd m x =>
    exact gives_mk (by simp [blank, e1, setWidth_and (modeCode m)]) (by simp [blank, Fields.guard, e1, Fields.alu1])
  case cvt x =>
    obtain ⟨y, hy, h1, h2, h3, h4⟩ := imm_cvt (flag x.sat) (modeCode x.mode) (tyCode x.src)
    simp only [← hy]
    exact gives_mk (by simp [blank, h1, h2, h4]) (by simp [Fields.cvt, blank, Fields.guard, h1, h2, h3])
  case pack x =>
    obtain ⟨y, hy, h1, h2, h3, h4, h5⟩ := x24_pack (flag x.half) (flag x.sat) (modeCode x.mode) (tyCode x.src)
    simp only [← hy]
    exact gives_mk (by simp [blank, Fields.x24, h1, h2, h5])
      (by simp [Fields.pack, Fields.x24, Fields.bReg, Fields.c, blank, Fields.guard, h1, h2, h3, h4])
  case unpk x =>
    obtain ⟨y, hy, h1, h2, h3⟩ := imm_unpk (BitVec.ofNat 2 x.idx.val) (tyCode x.src)
    simp only [← hy]
    exact gives_mk (by simp [blank, h1, h3]) (by simp [blank, Fields.guard, h1, h2])
  case prfx x =>
    obtain ⟨y, hy, h1, h2, h3⟩ := imm_prfx (flag x.excl) x.op.code
    simp only [← hy]
    exact gives_mk (by simp [blank, h1, h3]) (by simp [blank, Fields.guard, h1, h2])
  case redv x => exact gives_mk (by simp [blank, setWidth_and x.op.code]) (by simp [blank, Fields.guard])
  case cpack x => exact gives_mk (by simp [blank, Fields.c, Fields.x24]) (by simp [blank, Fields.guard, Fields.c])
  case vote.s g ty m r a | vote.p g ty m r a =>
    have h : m.code &&& 0xFFFC#16 = 0#16 := by cases m <;> rfl
    exact gives_mk (by simp [blank, h]) (by simp [blank, Fields.guard])
  case sfRcp | sfRsq | sfSqrt | sfExp2 | sfLog2 | sfSin | sfCos | sfTanh | sfSigm | sfGelu => exact dSf1_gives ..
  case sfDiv x =>
    obtain ⟨y, hy, h0, h4⟩ := x24_mode x.mode
    simp only [← hy]
    refine gives_mk ((passed_append _ _).2 ⟨?_, passed_encSf rfl rfl rfl rfl rfl rfl⟩) ?_
    · simp [Fields.x24, Fields.c, h0, h4]
    · simp [blank, Fields.guard, Fields.tok, Fields.x24, Fields.bReg, h0]
  case sfIdiv x =>
    obtain ⟨g, ty, tok, dst, _ | r, a, b⟩ := x
    all_goals
      refine gives_mk ((passed_append _ _).2 ⟨?_, passed_encSf rfl rfl rfl rfl rfl rfl⟩) ?_
      · simp [Fields.x24, Fields.c]
      · simp [blank, Fields.guard, Fields.tok, Fields.x24, Fields.c, Fields.bReg]
  case sfWait g m => exact gives_mk (by simp [blank, setWidth_and m]) (by simp [blank, Fields.guard])
  case ld | st | ldu | stu | ldp | stp | lds | sts => exact dMem_gives ..
  case fpsh | fpop => exact dFifo_gives ..
  case prf g l2 a =>
    refine gives_mk ?_ ?_
    · cases l2 <;> simp [Fields.withAddr, blank]
    · rw [Fields.memAddr_withAddr]
      cases l2 <;> simp [Fields.withAddr, blank, Fields.guard]
  case cctl g op a =>
    exact gives_mk (by simp [Fields.withAddr, blank]) (by rw [Fields.memAddr_withAddr]; simp [Fields.withAddr, blank, Fields.guard])
  case probe g dst a =>
    exact gives_mk (by simp [Fields.withAddr, blank]) (by rw [Fields.memAddr_withAddr]; simp [Fields.withAddr, blank, Fields.guard])
  case bankset g bank m =>
    obtain ⟨y, hy, h1, h2, h3⟩ := imm_bankset m.code (BitVec.ofNat 4 bank.val)
    simp only [← hy]
    exact gives_mk (by simp [blank, h1, h3]) (by simp [blank, Fields.guard, h1, h2])
  case fence g k sc =>
    obtain ⟨y, hy, h1, h2, h3⟩ := imm_fence k.code sc.bits3
    simp only [← hy]
    exact gives_mk (by simp [blank, h1, h2, h3]) (by simp [blank, Fields.guard, h1, h2])
  case atom x | atomd x | atoms x => exact dAtom_gives _ _ hw
  case lda x | stl x => exact dScoped_gives _ _ hw
  case cas x =>
    have hd : dispOk x.addr.disp = true := ((passed_cons _ _).1 ((passed_append _ _).1 hw).2).1
    have ha := Fields.atomAddr_withAtom { blank 0xA1 x.g with ty := tyCode x.ty, la := BitVec.ofFin x.la, dst := x.data.code } x.addr
      false 0 hd
    obtain ⟨y, hy, -, hr⟩ := imm_cas (x.addr.disp.extractLsb' 0 11)
    refine gives_mk ?_ ?_
    · simp only [Fields.withAtom, Fields.withAddr, ← hy]
      simp [hr, blank, Fields.x24]
    · refine (congrArg (fun a => Instr.cas ⟨_, _, _, a, _, _⟩) ha).trans ?_
      simp [Fields.withAtom, Fields.withAddr, blank, Fields.guard, Fields.c]
  case tcLoad x =>
    obtain ⟨hp, hx⟩ := x.enc_passed n (op := 0xB0) (dst := x.tile) (a := x.base) ((passed_append _ _).1 hw).2
    exact gives_mk hp (congrArg Instr.tcLoad hx)
  case tcStore x =>
    obtain ⟨hp, hx⟩ := x.enc_passed n (op := 0xB1) (dst := x.base) (a := x.tile) ((passed_append _ _).1 hw).2
    exact gives_mk hp (congrArg Instr.tcStore hx)
  case tcQnt2 x =>
    obtain ⟨l, hl, h0, h3⟩ := low_qnt2 (BitVec.ofNat 3 x.ly.val)
    obtain ⟨y, hy, ht, hsc, hgen, hlow⟩ := tail_of_hi (low := l) ((passed_append _ _).1 hw).2
    have h0 := bits_of_extract ((hlow 0 3 (by decide)).trans h0)
    have h3 := (hlow 3 18 (by decide)).trans h3
    simp only [← hl, ← hy]
    exact gives_mk (by simp [blank, hsc, hgen, h3]) (by simp [blank, Fields.guard, ht, h0])
  case tcCopy x =>
    obtain ⟨y, hy, ht, hsc, hgen, hlow⟩ := tail_of_hi (low := 0) hw
    simp only [← hy]
    exact gives_mk (by simp [eS, blank, hsc, hgen, hlow]) (by simp [eS, blank, Fields.guard, ht])
  case tcFill.global =>
    obtain ⟨y, hy, ht, hsc, hgen, hlow⟩ := tail_of_hi (low := 0) htail
    have h0 := bits_of_extract (hlow 0 2 (by decide))
    have h2 := hlow 2 19 (by decide)
    simp only [← hy]
    exact gives_mk (by simp [eS, blank, hsc, hgen, h0, h2]) (by simp [eS, blank, Fields.guard, ht, Fields.fillMode, h0])
  case tcFill.scratch =>
    obtain ⟨y, hy, ht, hsc, hgen, hlow⟩ := tail_of_hi (low := 1) htail
    have h0 := bits_of_extract (hlow 0 2 (by decide))
    have h2 := hlow 2 19 (by decide)
    simp only [← hy]
    exact gives_mk (by simp [eS, blank, hsc, hgen, h0, h2]) (by simp [eS, blank, Fields.guard, ht, Fields.fillMode, h0])
  case tcFill.tile =>
    obtain ⟨y, hy, ht, hsc, hgen, hlow⟩ := tail_of_hi (low := 2) htail
    have h0 := bits_of_extract (hlow 0 2 (by decide))
    have h2 := hlow 2 19 (by decide)
    simp only [← hy]
    exact gives_mk (by simp [eS, blank, hsc, hgen, h0, h2]) (by simp [eS, blank, Fields.guard, ht, Fields.fillMode, h0])
  case tcLyset g scr ly addr =>
    have h : ∀ k : Fin 8, (BitVec.ofNat 8 k.val).extractLsb' 3 5 = 0#5 := by decide
    exact gives_mk (by simp [eS, blank, h]) (by simp [eS, blank, Fields.guard])
  case arrive.none => exact gives_mk (by simp [eS, blank]; rfl) (by simp [eS, blank, Fields.guard])
  case arrive.some g word amt sc => exact gives_mk (by simp [eS, blank, setWidth_and sc.bits3]) (by simp [eS, blank, Fields.guard])
  case await => exact gives_mk (by simp [eS, blank]) (by simp [eS, blank, Fields.guard])
  case capEnter x =>
    obtain ⟨y, hy, h0, hs, hslot, hcode⟩ := hi_capEnter x.code.code x.slot.code (BitVec.ofNat 8 x.status.val)
    simp only [← hy]
    cases ha : x.args with
    | none => exact gives_mk (by simp [blank, h0, hs]) (by simp [Fields.capEnter, blank, Fields.guard, hs, hslot, hcode, ← ha])
    | some r => exact gives_mk (by simp [blank, h0, hs]) (by simp [Fields.capEnter, blank, Fields.guard, hs, hslot, hcode, ← ha])
  case capExit x | capAbort x | capProbe x => exact gives_mk (x.gives n _).1 (by rw [(x.gives n _).2])
  case mxArm x =>
    obtain ⟨v, hv, h0, h4, hm⟩ := imm_mxArm (BitVec.ofNat 8 x.count.val) (BitVec.ofNat 4 x.cv.val)
    obtain ⟨y, hy, hz, hply, hgate, hgen⟩ := hi_mxArm (sCode x.gateGen) (wordCode x.gate) (sCode x.ply)
    have hw : x.gate ≠ some 0xFFFF := by
      have := ((passed_cons _ _).1 ((passed_cons _ _).1 hw).2).1
      simpa using this
    simp only [← hv, ← hy]
    exact gives_mk (by simp [blank, h4, hz, hply, hgen, hm]; omega)
      (by simp [blank, Fields.guard, Fields.cv, h0, h4, hply, hgate, hgen, wordOf_code hw])
  case mxSign g cv | mxAbort g cv | mxWait g dst cv | mxStep g dst cv =>
    exact gives_mk (by simp [blank, ofNat_and cv 4]) (by simp [blank, Fields.guard, Fields.cv])
  case mxDrain x =>
    obtain ⟨y, hy, h0, h4, h6, h7, h8⟩ := hi_mxDrain (flag x.free) (flag x.zero) x.mode.code (BitVec.ofNat 4 x.tile.val)
    simp only [← hy]
    exact gives_mk (by simp [blank, h4, h8]) (by simp [blank, Fields.guard, h0, h4, h6, h7])
  case mxFill x =>
    obtain ⟨y, hy, h0, h4, h6⟩ := hi_mxFill x.mode.code (BitVec.ofNat 4 x.tile.val)
    simp only [← hy]
    exact gives_mk (by simp [blank, h4, h6]) (by simp [blank, Fields.guard, h0, h4])
  case pgLoad x | pgRest x => exact gives_mk (x.gives n _).1 (by rw [(x.gives n _).2])
  case pgRun x =>
    have h : ∀ k : Fin 8, (BitVec.ofNat 64 k.val).extractLsb' 3 61 = 0#61 := by decide
    have h' : ∀ k : Fin 8, bits k.val 0 3 = k.val := by decide
    exact gives_mk (by simp [eS, blank, h]) (by simp [eS, blank, Fields.guard, h'])
  case pgSave x free =>
    have h : (flag free).setWidth 16 &&& 0xFFFE#16 = 0#16 := setWidth_and _ (by decide) (by decide)
    have h' : ((flag free).setWidth 16).extractLsb' 0 1 = flag free := by cases free <;> rfl
    refine gives_mk ?_ (congrArg₂ Instr.pgSave (x.gives n 0xE2).2 ?_)
    · have := (x.gives n 0xE2).1
      simp only [Fields.encPg, passed_append, Fields.passed_immNone, passed_cons] at this ⊢
      tauto
    · exact (congrArg (· == 1) h').trans (flag_beq free)
  case pgStat g dst ctx => exact gives_mk (by simp [blank, ofNat_and ctx 3]) (by simp [blank, Fields.guard])
  case sysrd g r num | syswr g r num => exact gives_mk (by simp [blank, setWidth_and num]) (by simp [blank, Fields.guard])

end Sys2Proof
end

