-- ==== Sys2Proof/Proofs/Encoding.lean ====
section
/-! SUPPORT. From fields to words and windows, and back: the decoder reads what the encoder wrote, and what decodes has a word. -/

namespace Sys2Proof

/-! ### Slots of a pair (R32, R38) -/

/-- A slot's fields fit into 64 bits, pass the checks of their opcode and are read back. -/
theorem Slot.fields_read (sl : Slot) : (0x40 ≤ sl.fields.op.toNat ∧ sl.fields.op.toNat < 0x80) ∧ sl.fields.la = 0 ∧ sl.fields.hi = 0 ∧
    ∃ enc, decSlot sl.fields = some (enc, sl) ∧ Passed enc := by
  cases sl with
  | alu2 op x =>
    have hla : (e2 op.op x).la = 0 ∧ (e2 op.op x).hi = 0 := by obtain ⟨_, _, _, _, _ | _⟩ := x <;> exact ⟨rfl, rfl⟩
    refine ⟨?_, hla.1, hla.2, _, ?_, e2_passed op.op x⟩
    · rw [Slot.fields, e2_op]
      cases op <;> decide
    · cases op <;> simp [Slot.fields, decSlot, PairAlu2.op]
  | alu1 op x =>
    refine ⟨?_, rfl, rfl, _, ?_, e1_passed op.op x⟩
    · rw [Slot.fields, e1_op]
      cases op <;> decide
    · cases op <;> simp [Slot.fields, decSlot, PairAlu1.op]
  | movi x => exact ⟨by simp [Slot.fields], rfl, rfl, _, by simp [Slot.fields, decSlot], x.passed_enc⟩
  | icmp x =>
    have hla : x.enc.la = 0 ∧ x.enc.hi = 0 := by obtain ⟨_, _, _, _, _, _, _ | _⟩ := x <;> exact ⟨rfl, rfl⟩
    exact ⟨by simp [Slot.fields], hla.1, hla.2, _, by simp [Slot.fields, decSlot], x.passed_enc⟩
  | fcmp x => exact ⟨by simp [Slot.fields], rfl, rfl, _, by simp [Slot.fields, decSlot], x.passed_enc⟩
  | plog x => exact ⟨by simp [Slot.fields], rfl, rfl, _, by simp [Slot.fields, decSlot], x.passed_enc⟩

theorem checkSlot_toSlot {n : Nat} {sl : Slot} (h : Passed (sl.checks n)) (low : BitVec 2) : checkSlot n (sl.fields.toSlot low) low = .ok sl := by
  obtain ⟨hop, hla, hhi, enc, hd, henc⟩ := sl.fields_read
  have hv : verdict ([zr sl.fields.hi, ((sl.fields.toSlot low).extractLsb' 0 2 == low, 7)] ++ enc ++ sl.checks n) = none := by
    rw [verdict_eq_none, passed_append, passed_append]
    exact ⟨⟨by simp [hhi, Fields.low_toSlot], henc⟩, h⟩
  simp only [checkSlot, Fields.ofSlot_toSlot _ _ hop hla hhi, hd, hv]

/-- Where slots pass their checks and go together, the pair is read back. -/
theorem decodePair_encode {n w : Nat} {a b : Slot} (h : (Instr.pair a b).wellFormed n w = true) :
    decodePair n (b.fields.toSlot 0 ++ a.fields.toSlot 3) = .ok (.pair a b) := by
  obtain ⟨ha, hb, hp⟩ : Passed (a.checks n) ∧ Passed (b.checks n) ∧ pairOk a b = true := by
    simpa [wellFormed_iff, Instr.checks] using h
  simp only [decodePair, BitVec.extractLsb'_append_eq_right, BitVec.extractLsb'_append_eq_left, checkSlot_toSlot ha, checkSlot_toSlot hb, hp, if_true]

/-! ### Words of the S, M and L forms -/

theorem inStream_iff {op : BitVec 8} (h : inStream op = true) :
    (∃ form, formOf op.toNat = some form ∧ form ≠ 3) ∧ ¬ (0xC4 ≤ op.toNat ∧ op.toNat ≤ 0xCA) := by
  unfold inStream at h
  split at h
  next form hf =>
    rw [Bool.and_eq_true, bne_iff_ne, Bool.not_eq_true', Bool.and_eq_false_iff, decide_eq_false_iff_not, decide_eq_false_iff_not] at h
    exact ⟨⟨form, hf, h.1⟩, by tauto⟩
  next => cases h

theorem decodeWord_encode {n w : Nat} {i : Instr} {f : Fields} {form : BitVec 2} (hw : i.wellFormed n w = true) (hb : i.isBody = false)
    (hf : i.fields = some f) (hform : formOf f.op.toNat = some form) : decodeWord n w (f.toWord form) = .ok i := by
  obtain ⟨hop, hp, hi⟩ := Instr.fields_read hw hb hf
  have hv : verdict ((decOp n f).enc ++ i.checks n w) = none := by
    rw [verdict_eq_none, passed_append]
    exact ⟨hp, (wellFormed_iff n w i).1 hw⟩
  have hc : ¬ ((decide (0xC4 ≤ f.op.toNat) && decide (f.op.toNat ≤ 0xCA)) = true) := by simpa using (inStream_iff hop).2
  simp only [decodeWord, Fields.ofWord_toWord, Fields.form_toWord, hform, hi, hv, hc, ne_eq, not_true_eq_false, if_false, Bool.false_eq_true]

/-! ### From the bytes of a window -/

/-- The bytes from the PC on that begin with a word decode as the word does, be it that the word fits into the window (R24-R26). -/
theorem decode?_of_word {n w : Nat} {x : BitVec 128} {pc : BitVec 32} {raw : Nat} (hpc : pc.toNat % 4 = 0) (hfit : pc.toNat % 32 + wordLen x ≤ 32)
    (hraw : raw % 2 ^ (8 * wordLen x) = x.toNat) (hop : x.extractLsb' 2 8 ≠ 0xFF ∨ x.toNat % 4 ≠ 0) :
    decode? n w pc raw = if x.toNat % 4 = 3 then decodePair n x else decodeWord n w x := by
  have hlen : 8 ≤ wordLen x := by
    unfold wordLen formLen
    split <;> decide
  have hmod : ∀ k, k ≤ 64 → raw % 2 ^ k = x.toNat % 2 ^ k := fun k hk => by
    rw [← hraw, Nat.mod_mod_of_dvd _ (Nat.pow_dvd_pow 2 (by omega))]
  have hform : raw % 2 ^ 32 % 4 = x.toNat % 4 := by
    rw [Nat.mod_mod_of_dvd _ (by decide)]
    exact hmod 2 (by decide)
  have hbits : bits (raw % 2 ^ 32) 2 8 = (x.extractLsb' 2 8).toNat := by
    rw [hmod 32 (by decide), BitVec.extractLsb'_toNat, bits]
    omega
  have hnot : ¬ ((decide (bits (raw % 2 ^ 32) 2 8 = 0xFF) && decide (x.toNat % 4 = 0)) = true) := by
    rw [hbits, Bool.and_eq_true, decide_eq_true_eq, decide_eq_true_eq]
    rintro ⟨h1, h2⟩
    exact hop.elim (fun h => h (BitVec.eq_of_toNat_eq h1)) fun h => h h2
  have hx : BitVec.ofNat 128 (raw % 2 ^ (8 * wordLen x)) = x := by rw [hraw, BitVec.ofNat_toNat, BitVec.setWidth_eq]
  simp only [decode?]
  rw [hform, if_neg (not_not.2 hpc), if_neg hnot, if_neg (by rw [← wordLen]; omega), ← wordLen, hx]

theorem Fields.toNat_toWord_mod (f : Fields) (form : BitVec 2) : (f.toWord form).toNat % 4 = form.toNat := by
  have h := congrArg BitVec.toNat (f.form_toWord form)
  rwa [BitVec.extractLsb'_toNat, Nat.shiftRight_zero] at h

theorem Fields.op_toWord (f : Fields) (form : BitVec 2) : (f.toWord form).extractLsb' 2 8 = f.op :=
  congrArg Fields.op (f.ofWord_toWord form)

theorem encode_of_fields {i : Instr} {f : Fields} (hf : i.fields = some f) : encode i = some (f.toWord ((formOf f.op.toNat).getD 0)) := by
  unfold encode
  split
  · cases hf
  · rw [hf]
    rfl

/-- An instruction of a task's stream that has a word is a pair or has fields. -/
theorem encode_eq_some {i : Instr} {x : BitVec 128} (h : encode i = some x) :
    (∃ a b, i = .pair a b ∧ x = b.fields.toSlot 0 ++ a.fields.toSlot 3) ∨
      ∃ f, i.fields = some f ∧ x = f.toWord ((formOf f.op.toNat).getD 0) := by
  unfold encode at h
  split at h
  next a b => exact .inl ⟨a, b, rfl, (Option.some.inj h).symm⟩
  next =>
    obtain ⟨f, hf, rfl⟩ := Option.map_eq_some_iff.1 h
    exact .inr ⟨f, hf, rfl⟩

/-- A well-formed instruction of a task's stream decodes from its word, wherever it fits into a window. -/
theorem decode_encode {n w : Nat} {i : Instr} {x : BitVec 128} (hw : i.wellFormed n w = true) (hx : encode i = some x)
    (hb : i.isBody = false) {pc : BitVec 32} {raw : Nat} (hpc : pc.toNat % 4 = 0) (hfit : pc.toNat % 32 + wordLen x ≤ 32)
    (hraw : raw % 2 ^ (8 * wordLen x) = x.toNat) : decode n w pc raw = i := by
  have hd : decode? n w pc raw = .ok i := by
    rcases encode_eq_some hx with ⟨a, b, rfl, rfl⟩ | ⟨f, hf, rfl⟩
    · have h3 : (b.fields.toSlot 0 ++ a.fields.toSlot 3).toNat % 4 = 3 := by
        have h : (b.fields.toSlot 0 ++ a.fields.toSlot 3).extractLsb' 0 2 = 3 := by
          rw [BitVec.extractLsb'_append_eq_of_add_le (by decide), a.fields.low_toSlot]
        have h := congrArg BitVec.toNat h
        rwa [BitVec.extractLsb'_toNat, Nat.shiftRight_zero] at h
      rw [decode?_of_word hpc hfit hraw (.inr (by rw [h3]; decide)), if_pos h3, decodePair_encode hw]
    · obtain ⟨⟨form, hform, h3⟩, -⟩ := inStream_iff (Instr.fields_read hw hb hf).1
      rw [hform, Option.getD_some] at hfit hraw
      rw [decode?_of_word hpc hfit hraw, f.toNat_toWord_mod, if_neg, decodeWord_encode hw hb hf hform]
      · exact fun h => h3 (BitVec.eq_of_toNat_eq h)
      · rw [f.op_toWord]
        left
        rintro h
        rw [h] at hform
        cases hform
  rw [decode, hd]

/-! ### Words of a capsule body (R268, R278) -/

section
variable {f : Fields} (hhi : f.hi = 0)
include hhi

theorem Fields.toWord_lt_of_hi : (f.toWord 0).toNat < 2 ^ 64 := by
  have h : (f.toWord 0).extractLsb' 64 64 = 0#64 := (congrArg Fields.hi (f.ofWord_toWord 0)).trans hhi
  have h := congrArg BitVec.toNat h
  rw [BitVec.extractLsb'_toNat, Nat.shiftRight_eq_div_pow, BitVec.toNat_zero] at h
  have := (f.toWord 0).isLt
  omega

theorem Fields.ofWord_setWidth : Fields.ofWord (((f.toWord 0).setWidth 64).setWidth 128) = f := by
  have h : ((f.toWord 0).setWidth 64).setWidth 128 = f.toWord 0 := by
    have := Fields.toWord_lt_of_hi hhi
    bv_omega
  rw [h, f.ofWord_toWord]
end

theorem Fields.low_setWidth (f : Fields) : ((f.toWord 0).setWidth 64).extractLsb' 0 2 = 0 := by
  rw [BitVec.extractLsb'_setWidth_of_le (by decide), f.form_toWord]

@[simp] theorem eCx_imm18 (op : BitVec 8) (imm18 : BitVec 18) (fn : BitVec 4) (b a dst : BitVec 8) :
    (eCx op imm18 fn b a dst).imm18 = imm18 := by
  have h : imm18.extractLsb' 17 1 ++ imm18.extractLsb' 16 1 ++ imm18.extractLsb' 0 16 = imm18 := by
    rw [BitVec.extractLsb'_append_extractLsb'_eq_extractLsb' (start₁ := 16) (len₁ := 1) rfl,
      BitVec.extractLsb'_append_extractLsb'_eq_extractLsb' (start₁ := 0) (len₁ := 16) rfl]
    exact BitVec.extractLsb'_eq_self
  exact h

/-- A step of a capsule body is read back from its fields. -/
theorem Instr.fields_read_body {n w : Nat} {i : Instr} (hw : i.wellFormed n w = true) (hb : i.isBody = true) :
    ∃ f, i.fields = some f ∧ f.hi = 0 ∧ formOf f.op.toNat = some 0 ∧
      ∀ x : BitVec 64, x.extractLsb' 0 2 = 0 → Fields.ofWord (x.setWidth 128) = f → decodeBody x = some i := by
  rw [wellFormed_iff] at hw
  cases i
  case cxGet | cxPut | cxLd | cxMovi | cxRes | capExitStep | capAbortStep =>
    refine ⟨_, rfl, rfl, rfl, fun x hx hf => ?_⟩
    simp only [decodeBody, hf, hx, eCx_imm18]
    simp [eCx, blank, noGuard]
  case cxAlu op cd ca cb imm =>
    refine ⟨_, rfl, rfl, rfl, fun x hx hf => ?_⟩
    simp only [decodeBody, hf, hx, eCx_imm18]
    cases cb with
    | none => simp [eCx, blank, noGuard, cbCode]
    | some c =>
      have h0 : imm = 0 := by simpa using ((passed_cons _ _).1 hw).1
      simp [eCx, blank, noGuard, cbCode, h0]
  case cxBr cond ca cb off =>
    refine ⟨_, rfl, rfl, rfl, fun x hx hf => ?_⟩
    simp only [decodeBody, hf, hx, eCx_imm18]
    have h0 : off ≠ 0#18 ∧ off.msb = false := by simpa using ((passed_cons _ _).1 hw).1
    cases cb <;> simp [eCx, blank, noGuard, cbCode, h0]
  all_goals cases hb

/-- A well-formed step of a capsule body decodes from its word, which has 64 bits. -/
theorem decodeBody_encode {n w : Nat} {i : Instr} {x : BitVec 128} (hw : i.wellFormed n w = true) (hx : encode i = some x)
    (hb : i.isBody = true) : x.toNat < 2 ^ 64 ∧ decodeBody (x.setWidth 64) = some i := by
  obtain ⟨f, hf, hhi, hform, hread⟩ := Instr.fields_read_body hw hb
  rw [encode_of_fields hf, hform] at hx
  obtain rfl := Option.some.inj hx
  exact ⟨Fields.toWord_lt_of_hi hhi, hread _ f.low_setWidth (Fields.ofWord_setWidth hhi)⟩

/-- What a body word decodes to is a step of a body that has a word. -/
theorem isBody_of_decodeBody {x : BitVec 64} {i : Instr} (h : decodeBody x = some i) : i.isBody = true ∧ (encode i).isSome = true := by
  simp only [decodeBody] at h
  split at h
  · cases h
  split at h
  case h_10 => cases h
  all_goals
    obtain ⟨-, h⟩ := Option.ite_none_right_eq_some.1 h
    obtain rfl := Option.some.inj h
    exact ⟨rfl, rfl⟩

/-! ### What decodes (R43) -/

theorem encode_isSome_of_fields {i : Instr} (h : i.fields.isSome = true) : (encode i).isSome = true := by
  obtain ⟨f, hf⟩ := Option.isSome_iff_exists.1 h
  rw [encode_of_fields hf]
  rfl

/-- An instruction of a task's stream that is no pair. -/
structure Instr.Single (i : Instr) : Prop where
  notBody : i.isBody = false
  hasFields : i.fields.isSome = true

section
variable (g : Guard)
theorem single_brx (r : Reg) (d : Option (BitVec 16)) : (Instr.brx g r d).Single := by cases d <;> exact ⟨rfl, rfl⟩
theorem single_ret (r : Option Reg) : (Instr.ret g r).Single := by cases r <;> exact ⟨rfl, rfl⟩
theorem single_elect (d : ElectDst) (r : Option (Fin 192)) : (Instr.elect g d r).Single := by cases d <;> exact ⟨rfl, rfl⟩
theorem single_setpri (h : Option (Fin 64)) (pr : BitVec 2) : (Instr.setpri g h pr).Single := by cases h <;> exact ⟨rfl, rfl⟩
theorem single_arrive (sc : Option Scope) (word amt : Fin 64) : (Instr.arrive g sc word amt).Single := by cases sc <;> exact ⟨rfl, rfl⟩
theorem single_vote (x : Vote) : (Instr.vote x).Single := by obtain ⟨_, _, _, _ | _, _⟩ := x <;> exact ⟨rfl, rfl⟩
theorem single_tcFill (x : TcFill) : (Instr.tcFill x).Single := by obtain ⟨_, _ | _ | _, _⟩ := x <;> exact ⟨rfl, rfl⟩
end

section
variable (n : Nat) (f : Fields)

theorem decControl_single : (decControl f).instr.Single := by
  unfold decControl
  split
  case h_3 => exact single_brx ..
  case h_6 => exact single_ret ..
  case h_11 => exact single_elect ..
  all_goals exact ⟨rfl, rfl⟩

theorem decTask_single : (decTask n f).instr.Single := by
  unfold decTask
  split
  case h_14 => exact single_setpri ..
  all_goals exact ⟨rfl, rfl⟩

theorem decInt_single : (decInt f).instr.Single := by
  unfold decInt
  split <;> exact ⟨rfl, rfl⟩

theorem decFloat_single : (decFloat f).instr.Single := by
  unfold decFloat
  split <;> exact ⟨rfl, rfl⟩

theorem decCross_single : (decCross f).instr.Single := by
  unfold decCross
  split
  case h_5 => exact single_vote ..
  all_goals exact ⟨rfl, rfl⟩

theorem decSf_single : (decSf f).instr.Single := by
  unfold decSf
  split <;> exact ⟨rfl, rfl⟩

theorem decMem_single : (decMem f).instr.Single := by
  unfold decMem
  split <;> exact ⟨rfl, rfl⟩

theorem decAtom_single : (decAtom f).instr.Single := by
  unfold decAtom
  split <;> exact ⟨rfl, rfl⟩

theorem decTile_single : (decTile n f).instr.Single := by
  unfold decTile
  split
  case h_5 => exact single_tcFill ..
  case h_7 => exact single_arrive ..
  all_goals exact ⟨rfl, rfl⟩

theorem decCap_single : (decCap n f).instr.Single := by
  unfold decCap
  split <;> exact ⟨rfl, rfl⟩

theorem decMx_single : (decMx n f).instr.Single := by
  unfold decMx
  split <;> exact ⟨rfl, rfl⟩

theorem decPg_single : (decPg n f).instr.Single := by
  unfold decPg
  split <;> exact ⟨rfl, rfl⟩

theorem decSys_single : (decSys n f).instr.Single := by
  unfold decSys
  split <;> exact ⟨rfl, rfl⟩

theorem decOp_single : (decOp n f).instr.Single := by
  unfold decOp
  split
  · exact decControl_single f
  · exact decTask_single n f
  · exact decInt_single f
  · exact decInt_single f
  · exact decFloat_single f
  · exact decCross_single f
  · exact decSf_single f
  · exact decMem_single f
  · exact decAtom_single f
  · exact decTile_single n f
  · exact decCap_single n f
  · exact decMx_single n f
  · exact decPg_single n f
  · exact decSys_single n f
end

/-- Well formed, of a task's stream and with a word. -/
structure Instr.Encodes (n w : Nat) (i : Instr) : Prop where
  wellFormed : i.wellFormed n w = true
  notBody : i.isBody = false
  hasWord : (encode i).isSome = true

theorem encodes_of_decodeWord {n w : Nat} {x : BitVec 128} {i : Instr} (h : decodeWord n w x = .ok i) : i.Encodes n w := by
  simp only [decodeWord] at h
  split at h
  · cases h
  next form hform =>
    split at h
    · cases h
    split at h
    · cases h
    split at h
    · cases h
    next hv =>
      obtain rfl := Except.ok.inj h
      obtain ⟨hb, hf⟩ := decOp_single n (Fields.ofWord x)
      rw [verdict_eq_none, passed_append] at hv
      exact ⟨(wellFormed_iff n w _).2 hv.2, hb, encode_isSome_of_fields hf⟩

theorem passed_of_checkSlot {n : Nat} {x : BitVec 64} {low : BitVec 2} {sl : Slot} (h : checkSlot n x low = .ok sl) : Passed (sl.checks n) := by
  simp only [checkSlot] at h
  split at h
  · cases h
  split at h
  · cases h
  next hv =>
    obtain rfl := Except.ok.inj h
    rw [verdict_eq_none, passed_append] at hv
    exact hv.2

theorem encodes_of_decodePair {n w : Nat} {x : BitVec 128} {i : Instr} (h : decodePair n x = .ok i) : i.Encodes n w := by
  simp only [decodePair] at h
  split at h
  · cases h
  next a ha =>
    split at h
    · cases h
    next b hb =>
      split at h
      next hp =>
        obtain rfl := Except.ok.inj h
        refine ⟨(wellFormed_iff n w _).2 ?_, rfl, rfl⟩
        simp [Instr.checks, passed_of_checkSlot ha, passed_of_checkSlot hb, hp]
      · cases h

theorem encodes_of_decode? {n w : Nat} {pc : BitVec 32} {raw : Nat} {i : Instr} (h : decode? n w pc raw = .ok i) : i.Encodes n w := by
  simp only [decode?] at h
  split at h
  · cases h
  split at h
  · cases h
  split at h
  · cases h
  split at h
  · exact encodes_of_decodePair h
  · exact encodes_of_decodeWord h

end Sys2Proof
end
section
open Sys2Proof

/-- Settles O57: a word carries its fields, the decoder of an opcode reads in them what the encoder laid out, and what the decoder accepts
has passed the checks of its instruction, which has a word. -/
theorem decodingUndoesEncoding : Obligations.DecodingUndoesEncoding := by
  refine ⟨fun n w i x hw hx => ⟨fun hb pc raw hpc hfit hraw => decode_encode hw hx hb hpc hfit hraw, decodeBody_encode hw hx⟩,
    fun n w pc raw i h => ?_, fun x i => isBody_of_decodeBody⟩
  obtain ⟨hw, hb, he⟩ := encodes_of_decode? h
  exact ⟨hw, hb, he⟩

end

