-- ==== Sys2Proof/Proofs/TurnOfABody.lean ====
section
/-! SUPPORT. StepRunsTheDecodedInstruction: a state in which a body's turn is on the agenda while its task waits for the acquire of an LDA, and
what the step leaves of it. -/

namespace Sys2Proof.Machine

/-- An LDA whose value has not come back to lane 0. -/
def openLda : Out :=
  { id := 0, kind := .memory, pc := 0, depth := 0, group := 1, dst := .v 0, ty := .i32, window := [], open_ := 1, clob := [], lanes := []
    acq := some .core, isLoad := true }

/-- A body whose turn is on the agenda and whose next word is CX.MOVI, of a task that waits for that LDA: its core's sequence of bodies
does not hold it (R254). -/
def acquiringBody : State :=
  let s := State.reset.placeWord 64 0x320 true
  { s with agenda := [.capStep 1 0], tasks := s.tasks.map fun t => { t with outs := [openLda] } }

/-- The state in which the step of the body would be fetched. -/
def acquiringRotated : State := ({ acquiringBody with agenda := [] } : State).rotateBody 1 0

/-- The word that a fetch gives. -/
def BodyFetch.word? : BodyFetch → Option Nat
  | .word w => some w
  | _ => none

theorem BodyFetch.eq_word {f : BodyFetch} {w : Nat} (h : f.word? = some w) : f = .word w := by
  cases f with
  | word v => exact congrArg BodyFetch.word (Option.some.inj h)
  | idle => cases h
  | ended s => cases h

/-- The account of the one task. -/
def firstAccount (o : Host.Outcome State Fault Refusal) : Option (BitVec 64) :=
  match o with
  | .next s => s.tasks.head?.map Task.alw
  | _ => none

theorem acquiringRotated_word : acquiringRotated.bodyFetch 1 0 = .word 0x320 := BodyFetch.eq_word (by decide +kernel)

theorem acquiringBody_account : firstAccount (step acquiringBody) = some (BitVec.ofNat 64 (2 ^ 40)) := by decide +kernel

theorem acquiringRotated_account :
    firstAccount (onNext (exec (.cxMovi 0 0 0) { acquiringRotated with cur := .body 1 0 }) State.pass) = some (BitVec.ofNat 64 (2 ^ 40 - 2)) := by
  decide +kernel

end Sys2Proof.Machine
end
section
open Sys2Proof Sys2Proof.Machine

/-- Refutes O55: the clause of a body's turn asks for the fetch of the body's word, not for it to be the body's turn. Where the task of the body
waits for the acquire of an LDA, the sequence of its core does not hold the body: the step fetches nothing and charges nothing, while the
CX.MOVI that stands at the body's next word would pay 2. -/
theorem not_stepRunsTheDecodedInstruction : ¬ Obligations.StepRunsTheDecodedInstruction := by
  unfold Obligations.StepRunsTheDecodedInstruction
  rintro ⟨-, -, h⟩
  obtain ⟨-, hbody, -⟩ := h acquiringBody [] (by decide +kernel)
  have hstep : step acquiringBody = onNext (exec (.cxMovi 0 0 0) { acquiringRotated with cur := .body 1 0 }) State.pass :=
    hbody 1 0 0x320 (.cxMovi 0 0 0) (by decide +kernel) acquiringRotated_word (by decide +kernel)
  have haccount := acquiringBody_account
  rw [hstep, acquiringRotated_account] at haccount
  exact absurd haccount (by decide)

end

