-- ==== Sys2Proof/Proofs/Unguarded.lean ====
section
/-! SUPPORT. UnguardedUniformInstructions: what a uniform instruction does where none of its lanes has a true guard. -/

namespace Sys2Proof.Machine

/-- A uniform instruction without a guard-true lane is charged its fixed part and goes on, or exhausts the account, whatever it would do with
one (R45). -/
theorem unguarded_goes_on {s : State} {tid : Nat} {t : Task} {group : Mask} {g : Guard} {i : Instr} {len cost : Nat} {plan : Ctx → Plan}
    (hi : Issues s tid t group) (hg : t.guarded g group = 0) (he : exec i s = issue s len g fun c => c.uniform cost (plan c)) :
    (cost ≤ t.alw.toNat → ∃ s', exec i s = .next s' ∧ TaskDone s s' tid t t group len cost) ∧
      (t.alw.toNat < cost → Exhausts s tid t group i cost) := by
  have hp : (Ctx.of s t group g len).uniform cost (plan (Ctx.of s t group g len)) = .go cost 0 (Ctx.of s t group g len).next := if_pos hg
  refine ⟨fun ha => he ▸ idle_done hi hp ha, fun ha => exhausts_of_plan hi he ?_ ha⟩
  rw [hp]
  exact Nat.add_zero cost

end Sys2Proof.Machine
end
section
open Sys2Proof Sys2Proof.Machine

/-- Settles O12: each of these instructions issues with a plan for uniform instructions. -/
theorem unguardedUniformInstructions : Obligations.UnguardedUniformInstructions := by
  unfold Obligations.UnguardedUniformInstructions
  intro s tid t group g hi hg idle
  have uniform : ∀ {i : Instr} {len cost : Nat} {g' : Guard}, g' = g →
      (∃ plan : Ctx → Plan, exec i s = issue s len g' fun c => c.uniform cost (plan c)) → idle i len cost := by
    rintro i len cost _ rfl ⟨plan, he⟩
    exact unguarded_goes_on hi hg he
  refine ⟨fun _ _ => uniform rfl ?_, fun _ => uniform rfl ?_, fun _ hx => ⟨uniform hx ?_, fun _ => uniform hx ?_, fun _ => uniform hx ?_⟩,
    fun _ _ => uniform rfl ?_, fun _ => uniform rfl ?_, fun _ _ _ _ => uniform rfl ?_, fun _ _ => ⟨uniform rfl ?_, uniform rfl ?_⟩,
    fun _ _ => uniform rfl ?_, fun _ _ => uniform rfl ?_, fun _ => ⟨uniform rfl ?_, uniform rfl ?_, uniform rfl ?_⟩,
    fun _ _ => uniform rfl ?_, fun _ hx => uniform hx ?_, fun _ hx => uniform hx ?_, fun _ => uniform rfl ?_, fun _ _ => uniform rfl ?_,
    fun _ _ => uniform rfl ?_, fun _ _ => uniform rfl ?_, uniform rfl ?_, fun _ _ => uniform rfl ?_,
    fun _ hx => ⟨uniform hx ?_, uniform hx ?_⟩, fun _ hx => uniform hx ?_, fun _ hx => uniform hx ?_, fun _ hx => uniform hx ?_,
    fun _ _ _ => uniform rfl ?_, fun _ _ _ => uniform rfl ?_, fun _ _ _ _ => uniform rfl ?_, fun _ _ => uniform rfl ?_,
    fun _ => uniform rfl ?_, fun _ hx => ⟨uniform hx ?_, uniform hx ?_⟩, fun _ hx => uniform hx ?_, fun _ => uniform rfl ?_, uniform rfl ?_,
    fun _ _ => ⟨uniform rfl ?_, uniform rfl ?_⟩, fun _ => uniform rfl ?_, fun _ => uniform rfl ?_, fun _ hx => uniform hx ?_,
    fun _ hx => uniform hx ?_, fun _ hx => ⟨uniform hx ?_, fun _ => uniform hx ?_, uniform hx ?_⟩, fun _ hx => uniform hx ?_,
    fun _ _ => uniform rfl ?_, fun _ => uniform rfl ?_, fun _ _ => uniform rfl ?_, fun _ _ => uniform rfl ?_, fun _ => uniform rfl ?_,
    fun _ => uniform rfl ?_⟩
  all_goals
    simp only [exec]
    exact ⟨_, rfl⟩

end

