-- ==== Sys2Proof/Proofs/InstructionFaults.lean ====
section
/-! SUPPORT. FaultsOfInstructions: the DETAIL of an illegal instruction, and the faults that uniform instructions take before their charge. -/

namespace Sys2Proof.Machine

/-- DETAIL of an illegal instruction holds the word above the slot above the reason (R44). -/
theorem detail1_toNat (reason slot : BitVec 8) (word : BitVec 64) :
    (detail1 reason slot word).toNat = word.toNat * 2 ^ 64 + (slot.toNat * 2 ^ 8 + reason.toNat) := by
  have hr : reason.toNat ||| slot.toNat <<< 8 = slot.toNat * 2 ^ 8 + reason.toNat := by
    rw [Nat.lor_comm, ← Nat.shiftLeft_add_eq_or_of_lt reason.isLt, Nat.shiftLeft_eq]
  have hw : (slot.toNat * 2 ^ 8 + reason.toNat) ||| word.toNat <<< 64 = word.toNat * 2 ^ 64 + (slot.toNat * 2 ^ 8 + reason.toNat) := by
    rw [Nat.lor_comm, ← Nat.shiftLeft_add_eq_or_of_lt (by omega), Nat.shiftLeft_eq]
  rw [← hw, ← hr]
  simp only [detail1, BitVec.toNat_or, BitVec.toNat_shiftLeft, BitVec.toNat_setWidth, Nat.shiftLeft_eq]
  congr <;> omega

section
variable {s : State} {tid : Nat} {t : Task} {group : Mask} {g : Guard}

/-- A trap that a plan gives before its charge is taken. -/
theorem trap_taken {i : Instr} {len : Nat} {plan : Ctx → Plan} {code : BitVec 8} {lanes : Mask} {detail : BitVec 128}
    (hi : Issues s tid t group) (he : exec i s = issue s len g plan) (hp : plan (Ctx.of s t group g len) = .trap code lanes 0 detail) :
    exec i s = .next (s.takeFault tid (t.record code (t.groupPc group) group lanes 0 detail false false)) :=
  he.trans (issue_fault (note := id) hi.1 hi.2 hp)
end

section
variable {c : Ctx} (hact : c.act ≠ 0)
include hact

theorem Ctx.uniform_of_act (cost : Nat) (p : Plan) : c.uniform cost p = p := if_neg hact

/-! ### Spawning (R103, R113, R118) -/

variable {w : SpawnHow}

/-- A deterministic launch spawns on no other device (R113). -/
theorem Ctx.spawn_remote (hd : c.t.det = true) (hw : w.dev.isSome = true) : c.spawn w = .trap 0x1B c.act 0 2 := by
  unfold Ctx.spawn
  rw [Ctx.uniform_of_act hact, hd, hw]
  rfl

/-- Nor beyond its ordinals (R113). -/
theorem Ctx.spawn_beyond (hd : c.t.det = true) (hw : w.dev = none)
    (hb : beyondOrdinals c.t.ordinal ((nextHandles c.t.childCtr c.t.childGen w.n).1.map fun h => h.toNat % 65536) = true) :
    c.spawn w = .trap 0x1B c.act 0 1 := by
  unfold Ctx.spawn
  rw [Ctx.uniform_of_act hact]
  simp only [hd, hw, hb]
  rfl

/-- A device must be in the load-store domain (R119). -/
theorem Ctx.spawn_foreign {d : BitVec 10} (hd : c.t.det = false) (hw : w.dev = some d)
    (hf : (c.s.asd c.t.asid).devices.contains d.toNat = false) : c.spawn w = .trap 0x1A c.act := by
  unfold Ctx.spawn
  rw [Ctx.uniform_of_act hact]
  simp only [hd, hw, hf]
  rfl
end

/-- The last of n children has an index of 255 or more where the first index and n together exceed 255 (R103). -/
theorem beyond_of_last {o : BitVec 64} {ctr gen : BitVec 16} {n : Nat} (hn : 1 ≤ n) (hle : n ≤ 65536)
    (h : 8 ≤ levelOf o ∨ 255 < (if ctr.toNat + n ≤ 65536 then ctr.toNat else 0) + n) :
    beyondOrdinals o ((nextHandles ctr gen n).1.map fun h => h.toNat % 65536) = true := by
  have index : ∀ (c : Nat) (g : BitVec 16), 255 < c + n → c + n ≤ 65536 →
      (((List.range n).map fun j => BitVec.ofNat 32 (g.toNat * 65536 + (c + j))).map fun h => h.toNat % 65536).any (fun i => 255 ≤ i) = true := by
    intro c g hc hc'
    simp only [List.any_map, List.any_eq_true, List.mem_range]
    refine ⟨n - 1, by omega, ?_⟩
    have := g.isLt
    simp only [Function.comp_apply, BitVec.toNat_ofNat, decide_eq_true_eq]
    omega
  unfold beyondOrdinals
  rw [Bool.or_eq_true, decide_eq_true_eq]
  refine h.imp_right fun h => ?_
  unfold nextHandles
  split at h
  next hc =>
    simp only [hc, decide_true, Bool.or_true, if_true]
    exact index _ _ h hc
  next hc =>
    have : n ≠ 1 := by
      have := ctr.isLt
      omega
    simp only [hc, this, decide_false, Bool.or_false, Bool.false_eq_true, if_false]
    exact index 0 _ h (by omega)

/-! ### Plies (R116, R117) -/

theorem plyTrap_eq (c : Ctx) (reason : Nat) : plyTrap c reason = .trap 0x19 c.group 0 (BitVec.ofNat 128 reason) := rfl

/-- A die without a free ply has one of every index. -/
theorem find?_ply_eq_none {s : State} {die : Nat} (h : ∀ i, i < 256 → ∃ p ∈ s.plies, p.die = die ∧ p.idx = i) :
    (List.range 256).find? (fun i => !s.plies.any fun p => p.die == die && p.idx == i) = none := by
  simpa [List.find?_eq_none] using h

end Sys2Proof.Machine
end
section
open Sys2Proof Sys2Proof.Machine

/-- Settles O11: each of these instructions issues with a plan that gives the fault before any charge. -/
theorem faultsOfInstructions : Obligations.FaultsOfInstructions := by
  unfold Obligations.FaultsOfInstructions
  constructor
  · intro s tid t group reason slot word hi
    refine ⟨_, trap_taken hi (by simp only [exec]; rfl) rfl, rfl, rfl, rfl, rfl, rfl, ?_⟩
    simp only [Task.record, detail1_toNat]
    omega
  intro s tid t group g hi hact fault
  have hs : (Ctx.of s t group g 8).s = s := rfl
  have ht : (Ctx.of s t group g 8).t = t := rfl
  have hid : (Ctx.of s t group g 8).tid = tid := State.task?_id hi.2
  have taken : ∀ {i : Instr} {len : Nat} {g' : Guard} {plan : Ctx → Plan} {code : BitVec 8} {lanes : Mask} {reason : Nat},
      exec i s = issue s len g' plan → plan (Ctx.of s t group g' len) = .trap code lanes 0 (BitVec.ofNat 128 reason) →
      exec i s = fault code lanes reason := fun he hp => trap_taken hi he hp
  have ply : ∀ {i : Instr} {plan : Ctx → Plan} {reason : Nat}, exec i s = issue s 8 g (fun c => c.uniform 4 (plan c)) →
      plan (Ctx.of s t group g 8) = plyTrap (Ctx.of s t group g 8) reason → exec i s = fault 0x19 group reason := fun he hp =>
    taken he ((Ctx.uniform_of_act hact _ _).trans hp)
  refine ⟨?_, ?_, ?_, ?_, fun dst cap h => ?_, fun dst cap h hfull => ?_, fun src r hr => ⟨?_, ?_, ?_⟩, fun src p hp =>
    ⟨fun h => ?_, fun h h' => ?_, fun h h' hm => ?_, fun hm => ⟨?_, ?_⟩⟩⟩
  · rintro x rfl d hd
    exact taken (by simp only [exec]; rfl) (Ctx.spawn_remote hact hd rfl)
  · rintro x rfl hd h
    have hb := beyond_of_last (ctr := t.childCtr) (gen := t.childGen) (n := 1) le_rfl (by decide) (h.imp_right fun h : 255 ≤ t.childCtr.toNat => by
      have := t.childCtr.isLt
      rw [if_pos (by omega)]
      omega)
    exact taken (by simp only [exec]; rfl) (Ctx.spawn_beyond hact hd rfl hb)
  · rintro x n rfl hd hn h
    have hb := beyond_of_last (gen := t.childGen) hn (by omega) h
    exact taken (by simp only [exec]; rfl) (Ctx.spawn_beyond hact hd rfl hb)
  · rintro x rfl d hd hf
    exact taken (by simp only [exec]; rfl) (Ctx.spawn_foreign hact hd rfl hf)
  · exact ply (by simp only [exec]; rfl) (if_pos h)
  · refine ply (by simp only [exec]; rfl) ?_
    simp only [hs, ht, not_le.2 h, if_false, find?_ply_eq_none hfull]
  · exact ply (by simp only [exec]; rfl) (by simp only [hr])
  · exact ply (by simp only [exec]; rfl) (by simp only [hr])
  · exact ply (by simp only [exec]; rfl) (by simp only [hr])
  · exact ply (by simp only [exec]; rfl) (by simp only [hp, h, if_true])
  · exact ply (by simp only [exec]; rfl) (by simp only [hp, ht, not_le.2 h, h', if_true, if_false])
  · exact ply (by simp only [exec]; rfl) (by simp only [hp, ht, hid, not_le.2 h, not_le.2 h', hm, if_true, if_false])
  · exact ply (by simp only [exec]; rfl) (by simp only [hp, hid, hm, Bool.not_false, if_true])
  · exact ply (by simp only [exec]; rfl) (by simp only [hp, hid, hm, Bool.not_false, if_true])

end

