-- ==== Sys2Proof/Proofs/Returns.lean ====
section
/-! SUPPORT. ResultsReturn: what RESULT_RETURN delivers, and that it leaves everything else where no request of the result must perform first
and nobody waits for stores. -/

namespace Sys2Proof.Machine

/-! ### What finds nothing to do -/

theorem State.performAll_of_none {s : State} {p : Req → Bool} (h : ∀ r ∈ s.reqs, p r = false) : s.performAll p = s := by
  have : s.reqs.filter p = [] := List.filter_eq_nil_iff.2 fun r hr => by simp [h r hr]
  rw [State.performAll, this]
  rfl

theorem foldl_stays {α β : Type} {f : β → α → β} {b : β} : ∀ {l : List α}, (∀ a ∈ l, f b a = b) → l.foldl f b = b
  | [], _ => rfl
  | a :: l, h => by rw [List.foldl_cons, h a (.head _), foldl_stays fun x hx => h x (.tail _ hx)]

theorem State.serveOrder_of_nobodyWaits {s : State} (h : s.NobodyWaits) : s.serveOrder = s := by
  refine foldl_stays fun t ht => foldl_stays fun w hw => ?_
  obtain ⟨ht, hp⟩ := List.mem_filter.1 ht
  have hk := h t ht hp w hw
  split
  · rfl
  · split <;> simp_all

theorem State.trySave_of_running {s : State} {tid : Nat} {t : Task} (ht : s.task? tid = some t) (h : t.saving = none) : s.trySave tid = s := by
  simp [State.trySave, ht, h]

theorem State.nobodyWaits_of_tasks {s s' : State} (h : s.NobodyWaits) (ht : s'.tasks = s.tasks) : s'.NobodyWaits := by
  rwa [State.NobodyWaits, ht]

theorem State.nobodyWaits_updTask {s : State} (h : s.NobodyWaits) (tid : Nat) {f : Task → Task} (hw : ∀ t, (f t).waits = t.waits)
    (hp : ∀ t, (f t).place = t.place) : (s.updTask tid f).NobodyWaits := by
  intro u hu hpl w hwu
  obtain ⟨t, ht, rfl⟩ := List.mem_map.1 hu
  by_cases hid : t.id = tid
  · rw [if_pos hid] at hpl hwu
    rw [hw] at hwu
    exact h t ht (by rwa [Task.isPlaced, hp] at hpl) w hwu
  · rw [if_neg hid] at hpl hwu
    exact h t ht hpl w hwu

/-! ### The acquire of an LDA (R254) -/

theorem State.dropGlobal_eq (s : State) (core : Nat) : s.dropGlobal core = { s with cores := (s.dropGlobal core).cores } := State.updCore_eq ..

theorem State.acquire_eq (s : State) (core : Nat) (sc : Scope) : s.acquire core sc = { s with cores := (s.acquire core sc).cores } := by
  cases sc with
  | task | core => rfl
  | ply | die | device | domain | system => exact s.dropGlobal_eq core

/-- An acquire above the core leaves only private lines in the core's L1. -/
theorem State.priv_of_acquire {s : State} {core : Nat} {sc : Scope} (ht : sc ≠ .task) (hc : sc ≠ .core) :
    ∀ l ∈ ((s.acquire core sc).core core).l1, l.priv = true := by
  have : s.acquire core sc = s.dropGlobal core := by
    cases sc with
    | task => exact absurd rfl ht
    | core => exact absurd rfl hc
    | ply | die | device | domain | system => rfl
  rw [this, State.dropGlobal, State.core_updCore, if_pos rfl]
  · exact fun l hl => (List.mem_filter.1 hl).2
  · exact fun _ => rfl

/-! ### Delivery (R36, R37) -/

section
variable {t : Task} {tick : Nat} {o : Out} {a : LaneAcc} {accs : List LaneAcc} {lane : Nat}

/-- The task after the results of some lanes have been delivered. -/
def Task.deliverAll (t : Task) (tick : Nat) (o : Out) (accs : List LaneAcc) : Task := accs.foldl (fun t a => t.deliver tick o a) t

/-- A delivery is writes into the result's destination: what those keep it keeps. -/
theorem Task.deliver_keeps {P : Task → Prop} (hs : ∀ u n x, o.dst = .s n → P u → P (u.setS n x))
    (hv : ∀ u n r x, o.dst = .v n → n.val = r ∨ (o.ty.wide = true ∧ n.val + 1 = r) → P u → P (u.setV r a.lane x)) (h : P t) :
    P (t.deliver tick o a) := by
  unfold Task.deliver
  cases a.val with
  | none => exact h
  | some v =>
    cases hd : o.dst with
    | s n =>
      dsimp only
      split
      · exact h
      · exact hs _ _ _ hd h
    | v n =>
      have low : ∀ x, P (t.setV n.val a.lane x) := fun x => hv _ _ _ _ hd (.inl rfl) h
      dsimp only
      split
      next hw =>
        have hw : o.ty.wide = true := (Bool.and_eq_true _ _ ▸ hw).1
        refine hv _ _ _ _ hd (.inr ⟨hw, rfl⟩) ?_
        split
        · exact h
        · exact low _
      · split
        · exact h
        · exact low _

theorem Task.deliverAll_keeps {P : Task → Prop} (hs : ∀ u n x, o.dst = .s n → P u → P (u.setS n x))
    (hv : ∀ a ∈ accs, ∀ u n r x, o.dst = .v n → n.val = r ∨ (o.ty.wide = true ∧ n.val + 1 = r) → P u → P (u.setV r a.lane x)) (h : P t) :
    P (t.deliverAll tick o accs) := by
  induction accs generalizing t with
  | nil => exact h
  | cons a accs ih => exact ih (fun b hb => hv b (.tail _ hb)) (Task.deliver_keeps hs (hv a (.head _)) h)

theorem Task.deliverAll_eq (t : Task) (tick : Nat) (o : Out) (accs : List LaneAcc) :
    t.deliverAll tick o accs = { t with vregs := (t.deliverAll tick o accs).vregs, sregs := (t.deliverAll tick o accs).sregs } := by
  refine Task.deliverAll_keeps (P := fun u => u = { t with vregs := u.vregs, sregs := u.sregs }) ?_ ?_ rfl
  · intro u n x _ hu
    rw [hu]
    unfold Task.setS
    split <;> rfl
  · intro a _ u n r x _ _ hu
    rw [hu]
    rfl

theorem laneBit_getLsbD {l m : Nat} (hm : m < 64) : (laneBit l).getLsbD m = decide (m = l) := by
  have := getLsbD_maskOf [l] hm
  simpa [maskOf] using this

/-- Registers that the result's destination in its lane does not hold stand. -/
theorem Task.vreg_deliverAll (hl : lane < 64) (ha : ∀ n, o.dst = .v n → ∀ a ∈ accs, a.lane = lane) {q m : Nat} (hm : m < 64)
    (hn : ¬ Writes o.dst o.ty.wide (laneBit lane) q m) : (t.deliverAll tick o accs).vreg q m = t.vreg q m := by
  refine Task.deliverAll_keeps (P := fun u => u.vreg q m = t.vreg q m) ?_ ?_ rfl
  · intro u n x _ hu
    rw [← hu]
    unfold Task.setS
    split <;> rfl
  · intro a haa u n r x hd hr hu
    rw [ha n hd a haa, Task.vreg_setV _ _ _ _ _ _ hl hm, if_neg, hu]
    rintro ⟨rfl, rfl⟩
    exact hn (by rw [hd]; exact ⟨by simp [laneBit_getLsbD hm], hr⟩)

theorem Task.sreg_deliverAll {q : Fin 64} (hq : o.dst ≠ .s q) : (t.deliverAll tick o accs).sreg q = t.sreg q := by
  refine Task.deliverAll_keeps (P := fun u => u.sreg q = t.sreg q) ?_ (fun _ _ _ _ _ _ _ _ hu => hu) rfl
  intro u n x hd hu
  rw [Task.sreg_setS, if_neg, hu]
  rintro ⟨rfl, -⟩
  exact hq hd

/-- A register that no instruction has written meanwhile takes its result. -/
theorem staysWritten_of_kept {clob : Store 1} {tick id base key : Nat} (h : clob.get key = 0) : staysWritten clob tick id base key = false := by
  simp [staysWritten, h]

section
variable {v : BitVec 64} (hv : a.val = some v)
include hv

theorem Task.sreg_deliver {n : Fin 64} (hd : o.dst = .s n) (hk : o.clob.get (skey n.val) = 0) :
    (t.deliver tick o a).sreg n = if n = 63 then 0 else memImage o.ty true (v &&& a.mask).toNat := by
  simp only [Task.deliver, hv, hd, staysWritten_of_kept hk, Bool.false_eq_true, if_false]
  rw [Task.sreg_setS]
  by_cases hn : n = 63
  · simp [hn, Task.sreg]
  · simp [hn]

variable {n : Fin 192} (hd : o.dst = .v n) (hl : a.lane < 64)
include hd hl

theorem Task.vreg_deliver_low (hk : o.clob.get (vkey n.val a.lane) = 0) :
    (t.deliver tick o a).vreg n.val a.lane = (memImage o.ty false (v &&& a.mask).toNat).setWidth 32 := by
  simp only [Task.deliver, hv, hd, staysWritten_of_kept hk, Bool.false_eq_true, if_false]
  split
  · rw [Task.vreg_setV _ _ _ _ _ _ hl hl, if_neg (by omega), Task.vreg_setV _ _ _ _ _ _ hl hl, if_pos ⟨rfl, rfl⟩]
  · rw [Task.vreg_setV _ _ _ _ _ _ hl hl, if_pos ⟨rfl, rfl⟩]

theorem Task.vreg_deliver_high (hw : o.ty.wide = true) (hk : o.clob.get (vkey (n.val + 1) a.lane) = 0) :
    (t.deliver tick o a).vreg (n.val + 1) a.lane = (memImage o.ty false (v &&& a.mask).toNat >>> 32).setWidth 32 := by
  simp only [Task.deliver, hv, hd, staysWritten_of_kept hk, hw, Bool.not_false, Bool.and_self, if_true]
  rw [Task.vreg_setV _ _ _ _ _ _ hl hl, if_pos ⟨rfl, rfl⟩]
end
end

/-! ### The event -/

/-- Whether a result is one of the whole group, whether an access of it returns with a lane, and the lanes that are still to come. -/
def Out.uniform (o : Out) : Bool := !o.dst.isV
def Out.mine (o : Out) (lane : Nat) (a : LaneAcc) : Bool := o.uniform || a.lane == lane
def Out.left (o : Out) (lane : Nat) : Mask := if o.uniform then 0 else o.open_ &&& ~~~laneBit lane

/-- The results that an event leaves on their way. -/
def outsLeft (outs : List Out) (out : Nat) (left : Mask) : List Out :=
  if left = 0 then outs.filter fun p => p.id ≠ out else outs.map fun p => if p.id = out then { p with open_ := left } else p

/-- The task after the results of some lanes have come back. -/
def Task.received (t : Task) (tick out : Nat) (o : Out) (accs : List LaneAcc) (left : Mask) : Task :=
  let t1 := if t.stop.isSome then t else t.deliverAll tick o accs
  { t1 with outs := outsLeft t1.outs out left }

/-- The state after them, with the acquire of an LDA. -/
def State.returned (s : State) (tid out lane : Nat) (t : Task) (o : Out) : State :=
  let s1 := s.updTask tid fun t => t.received s.tick out o (o.lanes.filter (o.mine lane)) (o.left lane)
  match o.acq with
  | some sc => if o.left lane = 0 && t.stop.isNone then s1.acquire t.core sc else s1
  | none => s1

section
variable {s : State} {tid out lane : Nat} {t : Task} {o : Out} (ht : s.task? tid = some t) (hp : t.isPlaced = true)
  (ho : (t.outs.find? fun p => p.id == out) = some o) (hopen : o.open_.getLsbD lane = true)
  (hreq : ∀ r ∈ s.reqs, r.task = tid → r.out = some out → (s.asd t.asid).strict = false ∧ ∀ a ∈ r.lanes, o.mine lane a = false)
include ht hp ho hopen hreq

/-- Where no request must perform first, RESULT_RETURN waits for values or delivers them. -/
theorem resultReturn_eq : exec (.resultReturn tid out lane) s =
    if (o.lanes.filter (o.mine lane)).any (·.val.isNone) then .next s.serveOrder
    else .next ((s.returned tid out lane t o).serveOrder.trySave tid) := by
  have hperform : s.performAll (fun r => r.out == some out && r.task == tid && ((s.asd t.asid).strict || r.lanes.any (o.mine lane))) = s := by
    refine State.performAll_of_none fun r hr => ?_
    by_contra h
    simp only [Bool.not_eq_false, Bool.and_eq_true, beq_iff_eq] at h
    obtain ⟨⟨h1, h2⟩, h3⟩ := h
    obtain ⟨hs, hm⟩ := hreq r hr h2 h1
    simp only [hs, Bool.false_or, List.any_eq_true] at h3
    obtain ⟨a, ha, ham⟩ := h3
    simp [hm a ha] at ham
  have hheld : ((s.asd t.asid).strict && s.reqs.any fun r => r.out == some out && r.task == tid) = false := by
    by_contra h
    simp only [Bool.not_eq_false, Bool.and_eq_true, List.any_eq_true, beq_iff_eq] at h
    obtain ⟨hs, r, hr, h1, h2⟩ := h
    simp [(hreq r hr h2 h1).1] at hs
  cases hd : o.dst
  all_goals
    have hmine : o.mine lane = fun a => !o.dst.isV || a.lane == lane := rfl
    have hleft : o.left lane = if (!o.dst.isV) = true then 0 else o.open_ &&& ~~~laneBit lane := rfl
    simp only [hd, Reg.isV, Bool.not_true, Bool.not_false] at hmine hleft
    rw [hmine] at hperform ⊢
    simp only [exec, execResultReturn, ht, hp, ho, hd, hopen, Bool.not_true, Bool.false_eq_true, if_false, hperform, Option.bind_some, hheld]
    rw [State.returned, hmine, hleft]
    rfl
end

theorem Task.received_eq (t : Task) (tick out : Nat) (o : Out) (accs : List LaneAcc) (left : Mask) : t.received tick out o accs left =
    { t with vregs := (t.received tick out o accs left).vregs, sregs := (t.received tick out o accs left).sregs, outs := outsLeft t.outs out left } := by
  unfold Task.received
  dsimp only
  split
  · rfl
  · rw [t.deliverAll_eq]

theorem Task.received_stopped {t : Task} (h : t.stop ≠ none) (tick out : Nat) (o : Out) (accs : List LaneAcc) (left : Mask) :
    t.received tick out o accs left = { t with outs := outsLeft t.outs out left } := by
  unfold Task.received
  rw [if_pos (Option.isSome_iff_ne_none.2 h)]

section
variable (s : State) (tid out lane : Nat) (t : Task) (o : Out)

/-- The event changes the tasks of its number and, by an acquire, cores. -/
theorem State.returned_eq : s.returned tid out lane t o =
    { s.updTask tid (fun t => t.received s.tick out o (o.lanes.filter (o.mine lane)) (o.left lane)) with
      cores := (s.returned tid out lane t o).cores } := by
  unfold State.returned
  cases o.acq with
  | none => rfl
  | some sc =>
    dsimp only
    split
    · exact State.acquire_eq ..
    · rfl

variable {s t}

theorem State.returned_nobodyWaits (h : s.NobodyWaits) : (s.returned tid out lane t o).NobodyWaits := by
  rw [State.returned_eq]
  refine State.nobodyWaits_of_tasks (State.nobodyWaits_updTask h tid (fun u => ?_) fun u => ?_) rfl
  · rw [Task.received_eq]
  · rw [Task.received_eq]

theorem State.task?_returned (ht : s.task? tid = some t) : (s.returned tid out lane t o).task? tid =
    some (t.received s.tick out o (o.lanes.filter (o.mine lane)) (o.left lane)) := by
  rw [State.returned_eq]
  exact State.task?_updTask_self _ (fun u => by rw [Task.received_eq]) ht

theorem State.task?_returned_ne {j : Nat} (hj : j ≠ tid) : (s.returned tid out lane t o).task? j = s.task? j := by
  rw [State.returned_eq]
  exact State.task?_updTask_ne _ _ _ (fun u => by rw [Task.received_eq]) hj

theorem State.returned_of_no_acquire (h : o.left lane ≠ 0 ∨ t.stop ≠ none ∨ o.acq = none) : s.returned tid out lane t o =
    s.updTask tid fun t => t.received s.tick out o (o.lanes.filter (o.mine lane)) (o.left lane) := by
  unfold State.returned
  cases ha : o.acq with
  | none => rfl
  | some sc =>
    have : ¬ (decide (o.left lane = 0) && t.stop.isNone) = true := by
      rw [Bool.and_eq_true, decide_eq_true_eq, Option.isNone_iff_eq_none]
      rintro ⟨h1, h2⟩
      rcases h with h | h | h
      · exact h h1
      · exact h h2
      · simp [ha] at h
    exact if_neg this

theorem State.priv_of_returned (hl : o.left lane = 0) (hst : t.stop = none) {sc : Scope} (ha : o.acq = some sc) (ht : sc ≠ .task)
    (hc : sc ≠ .core) : ∀ l ∈ ((s.returned tid out lane t o).core t.core).l1, l.priv = true := by
  unfold State.returned
  simp only [ha, hl, hst, decide_true, Option.isNone_none, Bool.and_self, if_true]
  exact State.priv_of_acquire ht hc
end

end Sys2Proof.Machine
end
section
open Sys2Proof Sys2Proof.Machine

/-- Settles O29: with nothing that must perform first and nobody waiting for stores, RESULT_RETURN is the delivery into its destination, the
end of its window, and an acquire. -/
theorem resultsReturn : Obligations.ResultsReturn := by
  unfold Obligations.ResultsReturn
  intro s tid out lane t o ht hp hsave hnobody ho hopen uniform mine last hreq
  have hlane : lane < 64 := by
    by_contra h
    simp [BitVec.getLsbD_of_ge _ _ (not_lt.1 h)] at hopen
  have huniform : uniform = o.uniform := by cases hd : o.dst <;> simp [uniform, Out.uniform, hd, Reg.isV]
  have hmine : ∀ a, o.mine lane a = true ↔ mine a := fun a => by simp [mine, huniform, Out.mine]
  have hlast : o.left lane = 0 ↔ last := by
    simp only [last, huniform, Out.left]
    cases o.uniform <;> simp
  have hexec := resultReturn_eq ht hp ho hopen fun r hr h1 h2 => by
    obtain ⟨hs, hm⟩ := hreq r hr h1 h2
    exact ⟨hs, fun a ha => by simpa [← hmine] using hm a ha⟩
  have hany : (o.lanes.filter (o.mine lane)).any (·.val.isNone) = true ↔ ∃ a ∈ o.lanes, mine a ∧ a.val = none := by
    simp [← hmine]
  refine ⟨fun hwait => ?_, fun hvals => ?_⟩
  · rw [hexec, if_pos (hany.2 hwait), State.serveOrder_of_nobodyWaits hnobody]
  have hnot : ¬ (o.lanes.filter (o.mine lane)).any (·.val.isNone) = true := fun h => by
    obtain ⟨a, ha, hm, hn⟩ := hany.1 h
    exact hvals a ha hm hn
  have htask := State.task?_returned tid out lane o ht
  have heq := Task.received_eq t s.tick out o (o.lanes.filter (o.mine lane)) (o.left lane)
  have hsaving : (t.received s.tick out o (o.lanes.filter (o.mine lane)) (o.left lane)).saving = none := by rw [heq]; exact hsave
  rw [if_neg hnot, State.serveOrder_of_nobodyWaits (State.returned_nobodyWaits tid out lane o hnobody),
    State.trySave_of_running htask hsaving] at hexec
  have haccs : ∀ n, o.dst = .v n → ∀ a ∈ o.lanes.filter (o.mine lane), a.lane = lane := fun n hd a ha => by
    simpa [Out.mine, Out.uniform, hd, Reg.isV] using (List.mem_filter.1 ha).2
  refine ⟨_, _, hexec, htask, fun j hj => State.task?_returned_ne tid out lane o hj, by rw [heq], fun hstop => ⟨?_, ?_⟩,
    fun hstop a v hone ha hnodup hv => ?_, fun q m hm hw => ?_, fun q hq => ?_, fun h => ?_, fun h => ?_, fun vf pa => ?_,
    fun h hstop sc hacq h1 h2 => State.priv_of_returned tid out lane o (hlast.2 h) hstop hacq h1 h2, fun h => ?_⟩
  · rw [Task.received_stopped hstop]
  · rw [State.returned_of_no_acquire tid out lane o (.inr (.inl hstop))]
    rfl
  · have hsingle : o.lanes.filter (o.mine lane) = [a] := by
      rw [← List.perm_singleton, List.perm_ext_iff_of_nodup (hnodup.filter _) (List.nodup_singleton a)]
      intro b
      rw [List.mem_filter, List.mem_singleton, hmine]
      exact ⟨fun ⟨hb, hm⟩ => (hone b hb).1 hm, fun hb => hb ▸ ⟨ha, (hone a ha).2 rfl⟩⟩
    have hregs : t.received s.tick out o (o.lanes.filter (o.mine lane)) (o.left lane) =
        { t.deliver s.tick o a with outs := (t.received s.tick out o (o.lanes.filter (o.mine lane)) (o.left lane)).outs } := by
      rw [hsingle]
      unfold Task.received
      rw [hstop]
      rfl
    rw [hregs]
    cases hd : o.dst with
    | v n =>
      have hal : a.lane = lane := haccs n hd a (by rw [hsingle]; exact .head _)
      subst hal
      exact ⟨Task.vreg_deliver_low hv hd hlane, Task.vreg_deliver_high hv hd hlane⟩
    | s n => exact Task.sreg_deliver hv hd
  · show Task.vreg (if t.stop.isSome then t else t.deliverAll s.tick o _) q m = _
    split
    · rfl
    · exact Task.vreg_deliverAll hlane haccs hm hw
  · show Task.sreg (if t.stop.isSome then t else t.deliverAll s.tick o _) q = _
    split
    · rfl
    · exact Task.sreg_deliverAll hq
  · rw [heq]
    exact if_pos (hlast.2 h)
  · rw [heq]
    have hleft : o.left lane = o.open_ &&& ~~~laneBit lane := if_neg fun hu => h (.inl (huniform.trans hu))
    rw [← hleft]
    exact if_neg (mt hlast.1 h)
  · rw [State.returned_eq]
    rfl
  · rw [State.returned_of_no_acquire tid out lane o (h.imp (mt hlast.1) .inr)]
    rfl

end

