-- ==== Sys2Proof/Proofs/Pairs.lean ====
section
/-! SUPPORT. PairsDoBoth: what one slot does to the task that the slot before it left, and that the second slot disturbs nothing of the first. -/

namespace Sys2Proof.Machine

variable {s : State} {t u v : Task} {group : Mask} {sl : Slot}

/-! ### What a slot computes -/

section
variable {c : Ctx} (hs : c.s = s) (ht : c.t = t)
include hs ht

theorem Ctx.pairAlu2_eq (op : PairAlu2) (x : Alu2) : c.pairAlu2 op x = pairAt s t op x := by
  subst hs ht
  cases op <;> rfl

theorem Ctx.icmp_eq (x : Icmp) : c.icmp x = icmpAt s t x := by
  subst hs ht
  obtain ⟨_, _, _, _, _, _, _ | _⟩ := x <;> rfl

theorem Ctx.fcmp_eq (x : Fcmp) : c.fcmp x = fcmpAt s t x := by
  subst hs ht
  rfl
end

theorem Ctx.plog_eq {c : Ctx} (ht : c.t = t) (x : Plog) : c.plog x = plogAt t x := by
  subst ht
  rfl

/-! ### The destinations of a slot -/

/-- A register that a slot writes stands in its list of destinations; the last one for the half of a pair that is none. -/
theorem mem_dst_of_slotWrites {r l : Nat} (h : slotWrites t group r l sl) : .v ⟨min r 191, by omega⟩ ∈ sl.sets.dst := by
  have span : ∀ (dst : Reg) (ty : Ty) (act : Mask), Writes dst ty.wide act r l → .v ⟨min r 191, by omega⟩ ∈ dst.span ty := by
    intro dst ty act hw
    cases dst with
    | s n => exact hw.elim
    | v n =>
      obtain ⟨-, hn | ⟨hwide, hn⟩⟩ := hw
      · have : (⟨min r 191, by omega⟩ : Fin 192) = n := Fin.ext (by simp; omega)
        rw [this, Reg.span]
        split
        · exact .head _
        · exact .head _
      · rw [Reg.span, if_pos hwide]
        by_cases hlast : n.val = 191
        · have : (⟨min r 191, by omega⟩ : Fin 192) = n := Fin.ext (by simp; omega)
          rw [this]
          exact .head _
        · have : (⟨min r 191, by omega⟩ : Fin 192) = n + 1 := Fin.ext (by simp [Fin.val_add]; omega)
          rw [this]
          exact .tail _ (.head _)
  cases sl with
  | alu2 op x => exact span _ _ _ h
  | alu1 op x => exact span _ _ _ h
  | movi x => exact span _ _ _ h
  | icmp x => exact h.elim
  | fcmp x => exact h.elim
  | plog x => exact h.elim

section
variable {a b : Slot} (h : pairOk a b = true)
include h

theorem dst_apart_of_pairOk {r : Reg} (hr : r ∈ a.sets.dst) : r ∉ b.sets.dst := by
  simp only [pairOk, Bool.and_eq_true, Bool.not_eq_true', List.any_eq_false, List.contains_iff_mem] at h
  exact h.1.1.1.1.1.1 r hr

theorem pdst_apart_of_pairOk (ha : a.sets.pdst ≠ none) : b.sets.pdst = none := by
  simp only [pairOk, Bool.and_eq_true, Bool.not_eq_true', Bool.and_eq_false_iff, Option.isSome_eq_false_iff, Option.isNone_iff_eq_none] at h
  exact h.1.1.2.resolve_left ha

theorem not_slotWrites_of_pairOk {r l : Nat} (hr : slotWrites t group r l a) : ¬ slotWrites t group r l b := fun hb =>
  dst_apart_of_pairOk h (mem_dst_of_slotWrites hr) (mem_dst_of_slotWrites hb)
end

/-! ### Computing results and predicates -/

/-- What computing results leaves of a task. -/
theorem Task.compute_spec (u : Task) (ty : Ty) (dst : Reg) (act : Mask) (f : Nat → Nat × FFlags) :
    u.compute ty dst act f = u.withResults (u.compute ty dst act f) ∧
    (∀ r m, m < 64 → ¬ Writes dst ty.wide act r m → (u.compute ty dst act f).vreg r m = u.vreg r m) ∧
    (∀ r, .s r ∉ dst.span ty → (u.compute ty dst act f).sreg r = u.sreg r) ∧
    (∀ l ∈ performLanes dst act, Holds (u.compute ty dst act f) ty dst l (f l).1) ∧
    (u.compute ty dst act f).fpctl = raised u.fpctl (performLanes dst act) (fun l => (f l).2) ∧
    u.Notes (u.compute ty dst act f) (Overwrites dst ty.wide act) (OverwritesSf dst ty.wide act) := by
  obtain ⟨h1, h2, h3⟩ := performLanes_spec dst act
  obtain ⟨hrest, hv, hs, hh, hf⟩ := Task.computeList_spec ty dst act f _ h1 h2 h3 u
  have hn := Task.computeList_notes ty dst f (performLanes dst act) u
  refine ⟨hrest, hv, fun r hr => hs r ?_, hh, hf, hn.1.congr fun o k => exists_outAt dst ty.wide act o k,
    hn.2.congr fun o k => exists_sfAt dst ty.wide act o k⟩
  rintro rfl
  exact hr (.head _)

theorem raised_zero (w : BitVec 64) (ls : List Nat) : raised w ls (fun _ => 0) = w := by
  induction ls with
  | nil => rfl
  | cons l ls ih => simp [raised]

theorem Task.predicate_eq (u : Task) (dst : Fin 8) (act : Mask) (f : Nat → Bool × FFlags) : u.predicate dst act f =
    { u with preds := (u.predicate dst act f).preds, fpctl := raised u.fpctl (lanesOf act) fun l => (f l).2 } := by
  unfold Task.predicate
  rw [Task.raiseAll, Task.setPred_rest]

theorem Task.pred_predicate (u : Task) (dst : Fin 8) (act : Mask) (f : Nat → Bool × FFlags) (q : Fin 8) {l : Nat} (hl : l < 64) :
    ((u.predicate dst act f).pred q).getLsbD l =
      if q = dst ∧ dst ≠ 0 ∧ act.getLsbD l = true then (f l).1 else (u.pred q).getLsbD l := by
  have hpred : ∀ q, (({ u with fpctl := raised u.fpctl (lanesOf act) fun l => (f l).2 } : Task).pred q) = u.pred q := fun _ => rfl
  rw [Task.predicate, Task.raiseAll, Task.pred_setPred, hpred, hpred]
  by_cases hq : q = dst ∧ dst ≠ 0
  · obtain ⟨rfl, h0⟩ := hq
    rw [if_pos ⟨rfl, h0⟩]
    simp only [BitVec.getLsbD_or, BitVec.getLsbD_and, BitVec.getLsbD_not, hl, getLsbD_maskOf _ hl, List.mem_filter, mem_lanesOf]
    cases hact : act.getLsbD l <;> simp [h0]
  · rw [if_neg hq, if_neg fun h => hq ⟨h.1, h.2.1⟩]

/-! ### One slot -/

/-- The task v is u after a slot whose sources are those of the task t (R39). -/
structure SlotDone (s : State) (t : Task) (group : Mask) (sl : Slot) (u v : Task) : Prop where
  rest : v = { u.withResults v with preds := v.preds }
  preds : sl.sets.pdst = none → v.preds = u.preds
  vregs : ∀ r l, l < 64 → ¬ slotWrites t group r l sl → v.vreg r l = u.vreg r l
  sregs : ∀ r : Fin 64, .s r ∉ sl.sets.dst → v.sreg r = u.sreg r
  notes : u.Notes v (fun o k => slotNotes t group o k sl) fun o k => slotNotesSf t group o k sl
  fpctl : v.fpctl = slotRaised s t group u.fpctl sl
  holds : (sl.sets.pdst ≠ none → u.preds = t.preds) → SlotHolds s t v group sl

/-- The parts of a slot whose destination is a predicate. -/
theorem Task.predicate_slot (u : Task) (dst : Fin 8) (act : Mask) (f : Nat → Bool × FFlags) :
    u.predicate dst act f = { u.withResults (u.predicate dst act f) with preds := (u.predicate dst act f).preds } ∧
    (∀ r l, (u.predicate dst act f).vreg r l = u.vreg r l) ∧ (∀ r, (u.predicate dst act f).sreg r = u.sreg r) ∧
    u.Notes (u.predicate dst act f) (fun _ _ => False) (fun _ _ => False) ∧
    (u.predicate dst act f).fpctl = raised u.fpctl (lanesOf act) (fun l => (f l).2) ∧
    (u.preds = t.preds → PredHolds t (u.predicate dst act f) dst act fun l => (f l).1) := by
  have e := u.predicate_eq dst act f
  refine ⟨by rw [e]; rfl, fun r l => by rw [e]; rfl, fun r => by rw [e]; rfl, ?_, by rw [e], fun hu q l hl => ?_⟩
  · rw [e]
    have hn := Task.Notes.refl u (w := fun _ _ => False) (v := fun _ _ => False) (fun _ _ h => h) fun _ _ h => h
    exact ⟨hn.1, hn.2⟩
  · rw [u.pred_predicate dst act f q hl, show u.pred q = t.pred q by rw [Task.pred, hu, Task.pred]]

/-- A slot whose destination is a register. -/
theorem slotDone_of_compute {ty : Ty} {dst : Reg} {act : Mask} {f : Nat → Nat × FFlags}
    (hdst : sl.sets.dst = dst.span ty) (hw : ∀ r l, slotWrites t group r l sl ↔ Writes dst ty.wide act r l)
    (hn : ∀ o k, slotNotes t group o k sl ↔ Overwrites dst ty.wide act o k)
    (hsf : ∀ o k, slotNotesSf t group o k sl ↔ OverwritesSf dst ty.wide act o k)
    (hr : slotRaised s t group u.fpctl sl = raised u.fpctl (performLanes dst act) fun l => (f l).2)
    (hh : ∀ v, (∀ l ∈ performLanes dst act, Holds v ty dst l (f l).1) → SlotHolds s t v group sl) :
    SlotDone s t group sl u (u.compute ty dst act f) := by
  obtain ⟨hrest, hv, hs, hholds, hf, hnotes⟩ := u.compute_spec ty dst act f
  have hp : (u.compute ty dst act f).preds = (u.withResults (u.compute ty dst act f)).preds := congrArg Task.preds hrest
  exact {
    rest := by rw [hp]; exact hrest
    preds := fun _ => hp
    vregs := fun r l hl hn => hv r l hl (mt (hw r l).2 hn)
    sregs := fun r hm => hs r (hdst ▸ hm)
    notes := ⟨hnotes.1.congr fun o k => (hn o k).symm, hnotes.2.congr fun o k => (hsf o k).symm⟩
    fpctl := hf.trans hr.symm
    holds := fun _ => hh _ hholds }

/-- A slot whose destination is a predicate. -/
theorem slotDone_of_predicate {dst : Fin 8} {act : Mask} {f : Nat → Bool × FFlags} (hdst : sl.sets.pdst = some dst)
    (hn : ∀ o k, ¬ slotNotes t group o k sl) (hsf : ∀ o k, ¬ slotNotesSf t group o k sl)
    (hr : slotRaised s t group u.fpctl sl = raised u.fpctl (lanesOf act) fun l => (f l).2)
    (hh : ∀ v, PredHolds t v dst act (fun l => (f l).1) → SlotHolds s t v group sl) :
    SlotDone s t group sl u (u.predicate dst act f) := by
  obtain ⟨hrest, hv, hs, hnotes, hf, hp⟩ := Task.predicate_slot (t := t) u dst act f
  exact {
    rest := hrest
    preds := fun h => by rw [hdst] at h; cases h
    vregs := fun r l _ _ => hv r l
    sregs := fun r _ => hs r
    notes := ⟨hnotes.1.congr fun o k => by simp [hn], hnotes.2.congr fun o k => by simp [hsf]⟩
    fpctl := hf.trans hr.symm
    holds := fun h => hh _ (hp (h (by simp [hdst]))) }

theorem slot_done {c : Ctx} (hs : c.s = s) (ht : c.t = t) (hg : c.group = group) (sl : Slot) (u : Task) :
    SlotDone s t group sl u (c.slot sl u) := by
  subst hs ht hg
  have same {α β : Type} (w : α → β → Prop) : ∀ x y, w x y ↔ w x y := fun _ _ => Iff.rfl
  cases sl with
  | alu2 op x => 
    have hf : Ctx.pairAlu2 { c with act := c.t.guarded x.g c.group } op x = pairAt c.s c.t op x := Ctx.pairAlu2_eq rfl rfl op x
    show SlotDone _ _ _ _ u (u.compute x.ty x.dst _ (Ctx.pairAlu2 { c with act := c.t.guarded x.g c.group } op x))
    rw [hf]
    exact slotDone_of_compute rfl (same _) (same _) (same _) rfl fun v hv => hv
  | alu1 op x => 
    refine slotDone_of_compute rfl (same _) (same _) (same _) (raised_zero _ _).symm fun v hv => ?_
    cases op <;> exact hv
  | movi x => exact slotDone_of_compute rfl (same _) (same _) (same _) (raised_zero _ _).symm fun v hv => hv
  | icmp x =>
    have hf : Ctx.icmp { c with act := c.t.guarded x.g c.group } x = icmpAt c.s c.t x := Ctx.icmp_eq rfl rfl x
    show SlotDone _ _ _ _ u (u.predicate x.dst _ fun l => (Ctx.icmp { c with act := c.t.guarded x.g c.group } x l, 0))
    rw [hf]
    exact slotDone_of_predicate rfl (fun _ _ h => h) (fun _ _ h => h) (raised_zero _ _).symm fun v hv => hv
  | fcmp x =>
    have hf : Ctx.fcmp { c with act := c.t.guarded x.g c.group } x = fcmpAt c.s c.t x := Ctx.fcmp_eq rfl rfl x
    show SlotDone _ _ _ _ u (u.predicate x.dst _ (Ctx.fcmp { c with act := c.t.guarded x.g c.group } x))
    rw [hf]
    exact slotDone_of_predicate rfl (fun _ _ h => h) (fun _ _ h => h) rfl fun v hv => hv
  | plog x =>
    have hf : Ctx.plog { c with act := c.t.guarded x.g c.group } x = plogAt c.t x := Ctx.plog_eq rfl x
    show SlotDone _ _ _ _ u (u.predicate x.dst _ fun l => (Ctx.plog { c with act := c.t.guarded x.g c.group } x l, 0))
    rw [hf]
    exact slotDone_of_predicate rfl (fun _ _ h => h) (fun _ _ h => h) (raised_zero _ _).symm fun v hv => hv

/-! ### Two slots -/

theorem slotNotes_clob (o : Out) (c : Store 1) (k : Nat) : slotNotes t group { o with clob := c } k sl ↔ slotNotes t group o k sl := by
  have apart : ∀ (dst : Reg) (wide : Bool) (act : Mask), Overwrites dst wide act { o with clob := c } k ↔ Overwrites dst wide act o k := by
    intro dst wide act
    cases dst <;> exact Iff.rfl
  cases sl with
  | alu2 op x => exact apart ..
  | alu1 op x => exact apart ..
  | movi x => exact apart ..
  | icmp x | fcmp x | plog x => exact Iff.rfl

theorem slotNotesSf_clob (o : SfOp) (c : Store 1) (k : Nat) : slotNotesSf t group { o with clob := c } k sl ↔ slotNotesSf t group o k sl := by
  cases sl <;> exact Iff.rfl

/-- Results stand in a task that holds the same in the slot's destination. -/
theorem SlotHolds.congr (h : SlotHolds s t u group sl) (hv : ∀ r l, l < 64 → slotWrites t group r l sl → v.vreg r l = u.vreg r l)
    (hs : ∀ r : Fin 64, .s r ∈ sl.sets.dst → v.sreg r = u.sreg r) (hp : sl.sets.pdst ≠ none → v.preds = u.preds) :
    SlotHolds s t v group sl := by
  have regs : ∀ {ty : Ty} {dst : Reg} {act : Mask} {f : Nat → Nat},
      (∀ r l, l < 64 → Writes dst ty.wide act r l → v.vreg r l = u.vreg r l) → (∀ r : Fin 64, .s r ∈ dst.span ty → v.sreg r = u.sreg r) →
      (∀ l ∈ performLanes dst act, Holds u ty dst l (f l)) → ∀ l ∈ performLanes dst act, Holds v ty dst l (f l) := by
    intro ty dst act f hv hs hh l hl
    obtain ⟨hl64, hact⟩ := (performLanes_spec dst act).2.1 l hl
    have hh := hh l hl
    cases dst with
    | v n =>
      have low := hv n.val l hl64 ⟨hact, .inl rfl⟩
      unfold Holds at hh ⊢
      cases hw : ty.wide with
      | false => simpa [hw, low] using hh
      | true =>
        have high := hv (n.val + 1) l hl64 ⟨hact, .inr ⟨hw, rfl⟩⟩
        simpa [hw, low, high] using hh
    | s n => exact (hs n (.head _)).trans hh
  have preds : ∀ {dst : Fin 8} {act : Mask} {f : Nat → Bool}, v.preds = u.preds → PredHolds t u dst act f → PredHolds t v dst act f := by
    intro dst act f hp hh q l hl
    rw [← hh q l hl, Task.pred, hp, Task.pred]
  cases sl with
  | alu2 op x => exact regs hv hs h
  | alu1 op x => exact regs hv hs h
  | movi x => exact regs hv hs h
  | icmp x => exact preds (hp (by simp [Slot.sets])) h
  | fcmp x => exact preds (hp (by simp [Slot.sets])) h
  | plog x => exact preds (hp (by simp [Slot.sets])) h

section
variable {a b : Slot} {w : Task} (ha : SlotDone s t group a u v) (hb : SlotDone s t group b v w)
include ha hb

theorem SlotDone.rest_pair : w = { u.withResults w with preds := w.preds } := by
  have h := hb.rest
  rw [ha.rest] at h
  exact h

theorem SlotDone.notes_pair : u.Notes w (fun o k => slotNotes t group o k a ∨ slotNotes t group o k b)
    fun o k => slotNotesSf t group o k a ∨ slotNotesSf t group o k b :=
  ha.notes.trans hb.notes (fun o c k => slotNotes_clob o c k) fun o c k => slotNotesSf_clob o c k

variable (hok : pairOk a b = true)
include hok

/-- The second slot leaves the first one's results (R38). -/
theorem SlotDone.holds_first (hu : u.preds = t.preds) : SlotHolds s t w group a :=
  (ha.holds fun _ => hu).congr (fun r l hl hr => hb.vregs r l hl (not_slotWrites_of_pairOk hok hr))
    (fun r hr => hb.sregs r (dst_apart_of_pairOk hok hr)) fun hp => hb.preds (pdst_apart_of_pairOk hok hp)

/-- The first slot changes no predicate where the second has one to write (R38). -/
theorem SlotDone.holds_second (hu : u.preds = t.preds) : SlotHolds s t w group b := by
  refine hb.holds fun hp => (ha.preds ?_).trans hu
  by_contra h
  exact hp (pdst_apart_of_pairOk hok h)
end

theorem Ctx.slot_id (c : Ctx) (sl : Slot) (u : Task) : (c.slot sl u).id = u.id := by
  rw [(slot_done (s := c.s) (t := c.t) (group := c.group) rfl rfl rfl sl u).rest]
  rfl

end Sys2Proof.Machine
end
section
open Sys2Proof Sys2Proof.Machine

/-- Settles O5: a pair is its two slots one after the other, with the sources of both as before the pair; the conditions on pairs keep the
second from the first one's destination. -/
theorem pairsDoBoth : Obligations.PairsDoBoth := by
  unfold Obligations.PairsDoBoth
  intro s tid t group a b hi halw hok
  let c := Ctx.of s t group { neg := false, p := 0 } 16
  let F (u : Task) : Task := c.slot b (c.slot a u)
  have hF : ∀ u, (F u).id = u.id := fun u => (c.slot_id b _).trans (c.slot_id a u)
  have hFid : ∀ u, (Task.simply 2 group 16 F u).id = u.id := fun u => by simp [Task.simply, hF]
  have hexec : exec (.pair a b) s = .next (s.updTask tid (Task.simply 2 group 16 F)) := by
    simp only [exec]
    exact issue_simple hi.1 hi.2 rfl hF halw
  have done := fun u => slot_done (s := s) (t := t) (group := group) (c := c) rfl rfl rfl a u
  have done' := fun u => slot_done (s := s) (t := t) (group := group) (c := c) rfl rfl rfl b u
  have hrest : ∀ u, F u = { u.withResults (F u) with preds := (F u).preds } := fun u => (done u).rest_pair (done' _)
  have ha := done (t.paid 2 group)
  have hb := done' (c.slot a (t.paid 2 group))
  have ht' : t.simply 2 group 16 F = (F (t.paid 2 group)).withLanes (t.simply 2 group 16 F) := Task.settle_rest ..
  generalize hx : t.simply 2 group 16 F = x at ht'
  have hlanes : LanesMoved t x group 16 := by
    rw [← hx]
    refine Task.simply_lanesMoved t 2 group 16 F (fun u => ?_) (fun u => ?_) fun u => ?_
    all_goals
      rw [hrest u]
      rfl
  refine ⟨_, x, hexec, ⟨rfl, hx ▸ State.task?_updTask_self _ hFid hi.2, fun j hj => State.task?_updTask_ne _ _ _ hFid hj⟩, ?_, hlanes, ?_, ?_,
    ?_, ?_, fun h h' => ?_, fun r l hl hna hnb => ?_, fun r hna hnb => ?_⟩
  all_goals rw [ht']
  · have hpaid : t.paid 2 group = { t with alw := t.alw - 2, outs := (t.countWindows group).outs } := by
      rw [Task.paid, Task.charge_zero]
      rfl
    have hrest := hrest (t.paid 2 group)
    generalize F (t.paid 2 group) = y at hrest
    rw [hpaid] at hrest
    conv_lhs => rw [hrest]
    rfl
  · have hn := ha.notes_pair hb
    exact ⟨hn.1, hn.2⟩
  · exact hb.fpctl.trans (congrArg (slotRaised s t group · b) ha.fpctl)
  · exact (ha.holds_first hb hok rfl).congr (fun _ _ _ _ => rfl) (fun _ _ => rfl) fun _ => rfl
  · exact (ha.holds_second hb hok rfl).congr (fun _ _ _ _ => rfl) (fun _ _ => rfl) fun _ => rfl
  · exact (hb.preds h').trans (ha.preds h)
  · exact (hb.vregs r l hl hnb).trans (ha.vregs r l hl hna)
  · exact (hb.sregs r hnb).trans (ha.sregs r hna)

end

