-- ==== Sys2Proof/Proofs/Branches.lean ====
section
/-! SUPPORT. BranchesCallsAndReturns: where a jump sends the lanes of its group, what counting a backward branch does, and the return address
of a call in a register. -/

namespace Sys2Proof.Machine

/-! ### Targets -/

theorem sext_eq_toInt {n : Nat} (hn : 0 < n) (x : BitVec n) : sext n x.toNat = x.toInt := by
  have hpow : 2 ^ n = 2 * 2 ^ (n - 1) := by rw [← pow_succ', Nat.sub_add_cancel hn]
  rw [sext, Nat.mod_eq_of_lt x.isLt, BitVec.toInt_eq_toNat_cond]
  simp only [hpow, Nat.mul_lt_mul_left Nat.two_pos]

theorem ofNat_wrap (n : Nat) (x : Int) : BitVec.ofNat n (wrap n x) = BitVec.ofInt n x := by
  rw [wrap, ← BitVec.toNat_ofInt, BitVec.ofNat_toNat, BitVec.setWidth_eq]

theorem ofNat_wrap_sext {n : Nat} (hn : 0 < n) (x : BitVec n) : BitVec.ofNat 32 (wrap 32 (sext n x.toNat)) = x.signExtend 32 := by
  rw [sext_eq_toInt hn, ofNat_wrap]
  rfl

/-- A relative target (R84, R86, R88). -/
theorem relTarget_eq {n : Nat} (hn : 0 < n) (pc : BitVec 32) (off : BitVec n) :
    relTarget pc n off.toNat = pc + 4 * off.signExtend 32 := by
  rw [relTarget, sext_eq_toInt hn, ofNat_wrap, BitVec.ofInt_mul]
  rfl

variable {s : State} {tid : Nat} {t : Task} {group : Mask} {g : Guard} {len cost : Nat} {i : Instr} {plan : Ctx → Plan}

theorem Ctx.target_eq (tgt : Target) (l : Nat) : (Ctx.of s t group g len).target tgt l = match tgt with
    | .reg r => BitVec.ofNat 32 (t.reg s.tick false r l)
    | .rel off => t.groupPc group + 4 * off.signExtend 32 := by
  cases tgt with
  | reg r => rfl
  | rel off => exact relTarget_eq (by decide) _ off

/-! ### An effect on the lanes of the group -/

theorem group_of_guarded {l : Nat} (h : (t.guarded g group).getLsbD l = true) : group.getLsbD l = true := by
  rw [Task.guarded, BitVec.getLsbD_and, Bool.and_eq_true] at h
  exact h.1

theorem Task.paid_eq (t : Task) (cost : Nat) (group : Mask) :
    t.paid cost group = { t with alw := t.alw - BitVec.ofNat 64 cost, outs := (t.countWindows group).outs } := by
  rw [Task.paid, Task.charge_zero]
  rfl

/-- An instruction whose effect on the paid state is one on its task. -/
theorem go_only {eff : State → State} {F : Task → Task} (hi : Issues s tid t group) (he : exec i s = issue s len g plan)
    (hp : plan (Ctx.of s t group g len) = .go cost 0 eff)
    (heff : eff (s.paid t.id group cost 0) = (s.paid t.id group cost 0).updTask t.id F) (hF : ∀ u, (F u).id = u.id)
    (ha : cost ≤ t.alw.toNat) :
    ∃ s', exec i s = .next s' ∧ OnlyTask s s' tid ((F (t.paid cost group)).settleLanes group) := by
  obtain ⟨hc, ht⟩ := hi
  obtain rfl := State.task?_id ht
  have hid : ∀ u : Task, ((F ((u.charge cost 0).countWindows group)).settleLanes group).id = u.id := fun u => by simp [hF]
  refine ⟨_, he.trans (issue_go hc ht hp (by omega)), ?_⟩
  rw [← State.paid, heff, State.paid, State.updTask_updTask _ _ _ _ hF, State.updTask_updTask _ _ _ _ fun u => by simp]
  exact ⟨rfl, State.task?_updTask_self _ hid ht, fun j hj => State.task?_updTask_ne _ _ _ hid hj⟩

/-- Where the effect leaves the rest of the task as u shows and its lanes as `lane` says, so does the instruction. -/
theorem go_ends {eff : State → State} {F : Task → Task} {u : Task} {lane : Nat → Lane} (hi : Issues s tid t group)
    (he : exec i s = issue s len g plan) (hp : plan (Ctx.of s t group g len) = .go cost 0 eff)
    (heff : eff (s.paid t.id group cost 0) = (s.paid t.id group cost 0).updTask t.id F) (hF : ∀ u, (F u).id = u.id)
    (ha : cost ≤ t.alw.toNat)
    (hv : F (t.paid cost group) =
      { u with alw := t.alw - BitVec.ofNat 64 cost, lanes := (F (t.paid cost group)).lanes, outs := (t.countWindows group).outs })
    (hlen : (F (t.paid cost group)).lanes.length = u.lanes.length)
    (hl : ∀ l < u.lanes.length, LeftAs group lane (F (t.paid cost group)) l) :
    ∃ s', exec i s = .next s' ∧ TaskEnds s s' tid t u group cost lane := by
  obtain ⟨s', hs, ho⟩ := go_only hi he hp heff hF ha
  exact ⟨s', hs, _, ho, Task.ends_of hv hlen hl⟩

/-- Guard-true lanes at their targets, the others of the group behind the instruction. -/
theorem Ctx.lane_jump {u : Task} {l : Nat} (f : Nat → BitVec 32) (hl : l < u.lanes.length) (hu : u.lane l = t.lane l) :
    ((Ctx.of s t group g len).jump f u).lane l = t.sent group (t.guarded g group) len (fun l x => { x with pc := f l }) l := by
  rw [Ctx.jump, Task.lane_onLanes _ _ _ hl, hu]
  unfold Task.sent Task.moved
  by_cases h : (t.guarded g group).getLsbD l = true
  · simp [Ctx.of, h, group_of_guarded h]
  · simp [Ctx.of, h]

theorem Task.length_paid (t : Task) (cost : Nat) (group : Mask) : (t.paid cost group).lanes.length = t.lanes.length := by
  rw [Task.paid_eq]

theorem Ctx.length_jump (c : Ctx) (f : Nat → BitVec 32) (u : Task) : (c.jump f u).lanes.length = u.lanes.length :=
  Task.length_onLanes ..

/-- A change of the guard-true lanes on top of what has sent them on. -/
theorem Task.lane_onLanes_sent {u : Task} {act : Mask} {l : Nat} {f h : Nat → Lane → Lane} (hl : l < u.lanes.length)
    (hu : u.lane l = t.sent group act len f l) :
    (u.onLanes act h).lane l = t.sent group act len (fun l x => h l (f l x)) l := by
  rw [Task.lane_onLanes _ _ _ hl, hu]
  unfold Task.sent
  by_cases ha : act.getLsbD l = true
  · simp only [if_pos ha]
  · simp only [if_neg ha]

/-! ### Branches (R75, R76, R84, R85) -/

theorem Ctx.countBackward_rest (c : Ctx) (f : Nat → BitVec 32) (u : Task) : c.countBackward f u =
    { u with bbc := (c.countBackward f u).bbc, dset := (c.countBackward f u).dset, oset := (c.countBackward f u).oset } := by
  unfold Ctx.countBackward
  split
  · split <;> rfl
  · rfl

theorem Ctx.countBackward_forward (c : Ctx) (u : Task) {f : Nat → BitVec 32} (h : ¬ ∃ l ∈ lanesOf c.act, (f l).toNat ≤ c.pc.toNat) :
    c.countBackward f u = u := by
  rw [Ctx.countBackward, if_neg]
  simpa using h

theorem Ctx.countBackward_below (c : Ctx) (u : Task) {f : Nat → BitVec 32} (h : ∃ l ∈ lanesOf c.act, (f l).toNat ≤ c.pc.toNat)
    (hq : u.bbc.toNat + 1 < u.quant.toNat) : c.countBackward f u = { u with bbc := u.bbc + 1 } := by
  rw [Ctx.countBackward, if_pos (by simpa using h), if_neg (by omega)]

theorem Ctx.countBackward_defers (c : Ctx) (u : Task) {f : Nat → BitVec 32} (h : ∃ l ∈ lanesOf c.act, (f l).toNat ≤ c.pc.toNat)
    (hq : u.quant.toNat ≤ u.bbc.toNat + 1) : c.countBackward f u = u.defer c.group := by
  rw [Ctx.countBackward, if_pos (by simpa using h), if_pos hq]

/-- The set O of a group deferred once its lanes have arrived (R76). -/
theorem Task.oset_defer_arrive {v : Task} {lane : Nat → Lane} (hv : ∀ l < v.lanes.length, LeftAs group lane v l) {l : Nat} (hl : l < 64) :
    ((v.arrive group).defer group).oset.getLsbD l = true ↔
      RunsOn v.lanes.length group lane l ∧ (v.dset ||| group).getLsbD l = false := by
  rw [← Task.runsOn_arrive hv hl]
  simp [Task.defer, hl]

/-- Lanes whose arrivals have been made already. -/
theorem leftAs_arrive {v : Task} {lane : Nat → Lane} {l : Nat} (hl : l < v.lanes.length) (hv : v.lane l = lane l) :
    LeftAs group lane (v.arrive group) l := by
  obtain ⟨h1, h2⟩ := Task.lane_arrive v group hl
  rw [hv] at h1 h2
  by_cases h : group.getLsbD l = true ∧ (lane l).Arrives
  · exact .inr ⟨h.1, h.2, h1 h⟩
  · exact .inl (h2 h)

/-- What a branch does to its task. -/
def Ctx.branched (c : Ctx) (f : Nat → BitVec 32) (u : Task) : Task := c.countBackward f ((c.jump f u).arrive c.group)

theorem Ctx.branch_eq (c : Ctx) (f : Nat → BitVec 32) : c.branch f = .go 1 0 (c.upd (c.branched f)) := rfl

theorem Ctx.branched_rest (c : Ctx) (f : Nat → BitVec 32) (u : Task) : c.branched f u =
    { u with lanes := (c.branched f u).lanes, bbc := (c.branched f u).bbc, dset := (c.branched f u).dset
             oset := (c.branched f u).oset } := by
  have h := c.countBackward_rest f ((c.jump f u).arrive c.group)
  rw [← Ctx.branched] at h
  generalize c.branched f u = y at h
  rw [h]
  rfl

theorem Ctx.lanes_branched (c : Ctx) (f : Nat → BitVec 32) (u : Task) :
    (c.branched f u).lanes = ((c.jump f u).arrive c.group).lanes := by
  rw [Ctx.branched, Ctx.countBackward_rest]

theorem Ctx.arrive_jump_counts (c : Ctx) (f : Nat → BitVec 32) (t : Task) (cost : Nat) (group : Mask) :
    let u := (c.jump f (t.paid cost group)).arrive group
    u.bbc = t.bbc ∧ u.quant = t.quant ∧ u.dset = t.dset ∧ u.oset = t.oset := by
  simp [Ctx.jump, Task.arrive, Task.paid]

/-- A branch has completed: its guard-true lanes are at their targets, and the backward ones are counted (R75, R76). -/
def Branches (s : State) (tid : Nat) (t : Task) (group : Mask) (g : Guard) (i : Instr) (f : Nat → BitVec 32) : Prop :=
  let back := ∃ l ∈ lanesOf (t.guarded g group), (f l).toNat ≤ (t.groupPc group).toNat
  let lane := t.sent group (t.guarded g group) 8 fun l x => { x with pc := f l }
  ∃ s' n d o, exec i s = .next s' ∧ TaskEnds s s' tid t { t with bbc := n, dset := d, oset := o } group 1 lane ∧
    (¬ back → n = t.bbc ∧ d = t.dset ∧ o = t.oset) ∧
    (back → t.bbc.toNat + 1 < t.quant.toNat → n = t.bbc + 1 ∧ d = t.dset ∧ o = t.oset) ∧
    (back → t.quant.toNat ≤ t.bbc.toNat + 1 → n = 0 ∧ d = t.dset ||| group ∧
      ∀ l < 64, o.getLsbD l = true ↔ RunsOn t.lanes.length group lane l ∧ d.getLsbD l = false)

/-- A branch completes (R71, R75, R76). -/
theorem branch_ends {f : Nat → BitVec 32} (hi : Issues s tid t group) (ha : 1 ≤ t.alw.toNat) (he : exec i s = issue s 8 g plan)
    (hp : plan (Ctx.of s t group g 8) = (Ctx.of s t group g 8).branch f) : Branches s tid t group g i f := by
  let c := Ctx.of s t group g 8
  let lane := t.sent group (t.guarded g group) 8 fun l x => { x with pc := f l }
  have hlen : (c.jump f (t.paid 1 group)).lanes.length = t.lanes.length := (Ctx.length_jump ..).trans (Task.length_paid ..)
  have hjump : ∀ l < t.lanes.length, (c.jump f (t.paid 1 group)).lane l = lane l := fun l hl =>
    Ctx.lane_jump f (by rwa [Task.length_paid]) (Task.paid_lane ..)
  have hlanes := c.lanes_branched f (t.paid 1 group)
  have hrest := c.branched_rest f (t.paid 1 group)
  have hcount : c.branched f (t.paid 1 group) = c.countBackward f ((c.jump f (t.paid 1 group)).arrive group) := rfl
  generalize hy : c.branched f (t.paid 1 group) = y at hlanes hrest hcount
  obtain ⟨s', hs, hends⟩ := go_ends (F := c.branched f) (lane := lane) (u := { t with bbc := y.bbc, dset := y.dset, oset := y.oset })
    hi he (hp.trans (Ctx.branch_eq ..)) rfl (fun u => by rw [Ctx.branched_rest]) ha
    (by
      rw [Task.paid_eq] at hrest
      rw [hy]
      exact hrest)
    (by
      rw [hy, hlanes]
      exact (Task.length_onLanes ..).trans hlen)
    fun l hl => by
      rw [hy, LeftAs, Task.lane, hlanes]
      exact leftAs_arrive (hlen.symm ▸ hl) (hjump l hl)
  obtain ⟨hbbc, hquant, hd, ho⟩ := c.arrive_jump_counts f t 1 group
  refine ⟨s', y.bbc, y.dset, y.oset, hs, hends, fun hback => ?_, fun hback hq => ?_, fun hback hq => ?_⟩
  · rw [hcount, c.countBackward_forward _ hback]
    exact ⟨hbbc, hd, ho⟩
  · rw [hcount, c.countBackward_below _ hback (by rwa [hbbc, hquant])]
    exact ⟨congrArg (· + 1) hbbc, hd, ho⟩
  · rw [hcount, c.countBackward_defers _ hback (by rwa [hbbc, hquant])]
    refine ⟨rfl, congrArg (· ||| group) hd, fun l hl => ?_⟩
    rw [← hlen]
    exact Task.oset_defer_arrive (fun l hl => .inl (hjump l (hlen ▸ hl))) hl

theorem bra_ends (hi : Issues s tid t group) (ha : 1 ≤ t.alw.toNat) (off : BitVec 24) :
    Branches s tid t group g (.bra g off) fun _ => t.groupPc group + 4 * off.signExtend 32 :=
  branch_ends hi ha (by simp only [exec]; rfl) (congrArg (Ctx.branch _) (funext fun _ => relTarget_eq (by decide) _ off))

/-! ### Calls and returns (R81, R84, R86, R87) -/

theorem Task.onLanes_onLanes (u : Task) (m : Mask) (f h : Nat → Lane → Lane) :
    (u.onLanes m f).onLanes m h = u.onLanes m fun l x => h l (f l x) := by
  simp only [Task.onLanes, List.mapIdx_mapIdx]
  congr 2
  funext l x
  by_cases hm : m.getLsbD l = true
  · simp [hm]
  · simp [hm]

/-- An instruction that sends the guard-true lanes to their targets, with a change of their own, completes. -/
theorem jump_ends {f : Nat → BitVec 32} {h : Nat → Lane → Lane} (hi : Issues s tid t group) (ha : 1 ≤ t.alw.toNat)
    (he : exec i s = issue s 8 g plan)
    (hp : plan (Ctx.of s t group g 8) =
      .go 1 0 ((Ctx.of s t group g 8).upd fun u => ((Ctx.of s t group g 8).jump f u).onLanes (t.guarded g group) h)) :
    ∃ s', exec i s = .next s' ∧
      TaskEnds s s' tid t t group 1 (t.sent group (t.guarded g group) 8 fun l x => h l { x with pc := f l }) := by
  refine go_ends hi he hp rfl (fun _ => rfl) ha (by rw [Task.paid_eq]; rfl) ?_ fun l hl => .inl ?_
  · rw [Task.length_onLanes, Ctx.length_jump, Task.length_paid]
  · have hl' : l < (t.paid 1 group).lanes.length := by rwa [Task.length_paid]
    exact Task.lane_onLanes_sent (by rwa [Ctx.length_jump]) (Ctx.lane_jump f hl' (Task.paid_lane ..))

section
variable {c : Ctx} {d : BitVec 8} {p q : Plan}

/-- Calls and returns go on where no lane has a true guard, or not at the depth d of their fault (R81). -/
theorem Ctx.depth_passes (h : c.act = 0 ∨ (c.t.lane c.low).depth ≠ d) :
    (if c.act ≠ 0 && (c.t.lane c.low).depth = d then p else q) = q := by
  refine if_neg fun hc => ?_
  rw [Bool.and_eq_true, decide_eq_true_iff, decide_eq_true_iff] at hc
  exact h.elim hc.1 fun e => e hc.2

theorem Ctx.depth_traps (h : c.act ≠ 0) (hd : (c.t.lane c.low).depth = d) :
    (if c.act ≠ 0 && (c.t.lane c.low).depth = d then p else q) = p := by
  refine if_pos ?_
  rw [Bool.and_eq_true, decide_eq_true_iff, decide_eq_true_iff]
  exact ⟨h, hd⟩
end

theorem Task.foldl_wrV (u : Task) (dst : Fin 192) (act : Mask) (x : BitVec 32) :
    (lanesOf act).foldl (fun u l => u.wrV dst.val l x) u = u.compute .n32 (.v dst) act fun _ => (x.toNat, 0) := by
  unfold Task.compute
  simp only [Task.raise_zero, Task.put_narrow _ (show Ty.wide .n32 = false from rfl), BitVec.ofNat_toNat, BitVec.setWidth_eq]
  rfl

/-- The end of an instruction whose effect has written results and moved lanes. -/
theorem Task.resultFrame_settle {v : Task} {act : Mask} {dst : Reg} {wide : Bool} {lane : Nat → Lane}
    (hv : v = { t.withResults v with alw := t.alw - BitVec.ofNat 64 cost, lanes := v.lanes })
    (hlen : v.lanes.length = t.lanes.length) (hl : ∀ l < t.lanes.length, v.lane l = lane l)
    (hn : (t.countWindows group).Notes v (Overwrites dst wide act) (OverwritesSf dst wide act))
    (hvregs : ∀ r l, l < 64 → ¬ Writes dst wide act r l → v.vreg r l = t.vreg r l)
    (hsregs : ∀ r, dst ≠ .s r → v.sreg r = t.sreg r) :
    ResultFrame t (v.settleLanes group) group act dst wide cost lane := by
  have hset := v.settleLanes_rest group
  have halw : v.alw = t.alw - BitVec.ofNat 64 cost := (congrArg Task.alw hv :)
  refine ⟨?_, ?_, Task.settle_ends hlen (by rw [hv]; rfl) (by rw [hv]; rfl) fun l h => .inl (hl l h), ⟨?_, ?_⟩, fun r l h hw => ?_,
    fun r hr => ?_⟩
  all_goals
    generalize v.settleLanes group = x at hset
    rw [hset]
  · rw [show (v.withLanes x).alw = _ from halw]
    conv_lhs => rw [hv]
    rfl
  · exact halw
  · exact hn.1
  · exact hn.2
  · exact hvregs r l h hw
  · exact hsregs r hr

/-- A jump that writes one value into a v register of the guard-true lanes completes. -/
theorem jump_writes {f : Nat → BitVec 32} {h : Nat → Lane → Lane} {dst : Fin 192} {x : BitVec 32} (hi : Issues s tid t group)
    (ha : 1 ≤ t.alw.toNat) (he : exec i s = issue s 8 g plan)
    (hp : plan (Ctx.of s t group g 8) = .go 1 0 ((Ctx.of s t group g 8).upd fun u =>
      (((Ctx.of s t group g 8).jump f u).compute .n32 (.v dst) (t.guarded g group) fun _ => (x.toNat, 0)).onLanes (t.guarded g group) h)) :
    ∃ s' t', exec i s = .next s' ∧ OnlyTask s s' tid t' ∧
      ResultFrame t t' group (t.guarded g group) (.v dst) false 1
        (t.sent group (t.guarded g group) 8 fun l x => h l { x with pc := f l }) ∧
      t'.fpctl = t.fpctl ∧ ∀ l, l < 64 → (t.guarded g group).getLsbD l = true → t'.vreg dst.val l = x := by
  have spec := fun u : Task => u.compute_spec .n32 (.v dst) (t.guarded g group) fun _ => (x.toNat, 0)
  obtain ⟨s', hs, ho⟩ := go_only hi he hp rfl (fun u => (congrArg Task.id (spec ((Ctx.of s t group g 8).jump f u)).1 :)) ha
  have hlen : ((Ctx.of s t group g 8).jump f (t.paid 1 group)).lanes.length = t.lanes.length := by rw [Ctx.length_jump, Task.length_paid]
  have hlane : ∀ l < t.lanes.length, ((Ctx.of s t group g 8).jump f (t.paid 1 group)).lane l = _ := fun l hl =>
    Ctx.lane_jump f (by rwa [Task.length_paid]) (Task.paid_lane ..)
  have hjump : (Ctx.of s t group g 8).jump f (t.paid 1 group) = { t with
      alw := t.alw - 1, outs := (t.countWindows group).outs, lanes := ((Ctx.of s t group g 8).jump f (t.paid 1 group)).lanes } := by
    rw [Task.paid_eq]
    rfl
  obtain ⟨hrest, hvregs, hsregs, hholds, hfpctl, hnotes⟩ := spec ((Ctx.of s t group g 8).jump f (t.paid 1 group))
  generalize (Ctx.of s t group g 8).jump f (t.paid 1 group) = w at *
  generalize w.compute .n32 (.v dst) (t.guarded g group) (fun _ => (x.toNat, 0)) = y at *
  have hlanes : y.lanes = w.lanes := (congrArg Task.lanes hrest :)
  have hy : y = { t.withResults y with alw := t.alw - 1, lanes := y.lanes } := by
    rw [hlanes]
    rw [hjump] at hrest
    exact hrest
  have hylane : ∀ l, y.lane l = w.lane l := fun l => by rw [Task.lane, hlanes]; rfl
  refine ⟨s', _, hs, ho, Task.resultFrame_settle (v := y.onLanes (t.guarded g group) h) ?_ ?_ (fun l hl => ?_) ?_ ?_ ?_, ?_, fun l hl hact => ?_⟩
  · conv_lhs => rw [hy]
    rfl
  · rw [Task.length_onLanes, hlanes, hlen]
  · exact Task.lane_onLanes_sent (by rw [hlanes, hlen]; exact hl) ((hylane l).trans (hlane l hl))
  · rw [hjump] at hnotes
    exact ⟨hnotes.1, hnotes.2⟩
  · intro r l hl hw
    exact (hvregs r l hl hw).trans (by rw [hjump]; rfl)
  · intro r _
    exact (hsregs r (by simp [Reg.span, Ty.wide])).trans (by rw [hjump]; rfl)
  · exact (by simp : _ = y.fpctl).trans (hfpctl.trans (by rw [raised_zero, hjump]))
  · have := hholds l (mem_lanesOf.2 ⟨hl, hact⟩)
    simpa [Holds, Ty.wide, Task.vreg] using this

end Sys2Proof.Machine
end
section
open Sys2Proof Sys2Proof.Machine

/-- Settles O10: a branch, a call and a return each send the guard-true lanes to their targets; a branch counts behind that, and a call or
return at the last depth is stopped before it. -/
theorem branchesCallsAndReturns : Obligations.BranchesCallsAndReturns := by
  unfold Obligations.BranchesCallsAndReturns
  refine ⟨?_, ?_, ?_⟩
  · intro s tid t group g hi ha act pc done
    refine ⟨bra_ends hi ha, fun src disp => branch_ends hi ha (by simp only [exec]; rfl) ?_⟩
    refine congrArg (Ctx.branch _) (funext fun l => ?_)
    cases disp with
    | none => rfl
    | some d => exact congrArg _ (ofNat_wrap_sext (by decide) d)
  · intro s tid t group g hi ha act pc depth
    refine ⟨fun off hd => ?_, fun dst tgt hd => ?_, fun src hd => ?_⟩
    · refine jump_ends (h := fun _ x => { x with link := pc + 8, depth := x.depth + 1 }) hi ha (by simp only [exec]; rfl)
        ((Ctx.depth_passes hd).trans ?_)
      rw [← relTarget_eq (by decide)]
      simp only [Task.onLanes_onLanes]
      rfl
    · refine jump_writes (h := fun _ x => { x with depth := x.depth + 1 }) hi ha (by simp only [exec]; rfl)
        ((Ctx.depth_passes hd).trans ?_)
      simp only [Task.foldl_wrV, funext (Ctx.target_eq tgt)]
      rfl
    · refine jump_ends (h := fun _ x => { x with depth := x.depth - 1 }) hi ha (by simp only [exec]; rfl)
        ((Ctx.depth_passes hd).trans ?_)
      cases src <;> rfl
  · intro s tid t group g hi act depth bad hact
    refine ⟨fun hd => ⟨fun off => ?_, fun dst tgt => ?_⟩, fun hd src => ?_⟩
    · exact trap_taken hi (by simp only [exec]; rfl) (Ctx.depth_traps hact hd)
    · exact trap_taken hi (by simp only [exec]; rfl) (Ctx.depth_traps hact hd)
    · exact trap_taken hi (by simp only [exec]; rfl) (Ctx.depth_traps hact hd)
end

