-- ==== Sys2Proof/Proofs/Control.lean ====
section
/-! SUPPORT. ControlEffects and NopOnlyAdvances: the instructions that only change lanes, deferral of a group, exits, and the choice of a lane. -/

namespace Sys2Proof.Machine

variable {s : State} {tid : Nat} {t u : Task} {group : Mask} {g : Guard} {cost : Nat} {i : Instr} {plan : Ctx → Plan}

/-! ### Instructions that change lanes and go on (R83, R88, R89) -/

/-- A lane of the group that goes on behind a change of the guard-true lanes. -/
theorem Task.lane_onLanes_advance {w : Task} {len l : Nat} (h : Nat → Lane → Lane) (hl : l < w.lanes.length) (hw : w.lane l = t.lane l) :
    ((w.onLanes (t.guarded g group) h).advance group len).lane l =
      t.sent group (t.guarded g group) len (fun l x => { h l x with pc := (h l x).pc + BitVec.ofNat 32 len }) l := by
  rw [Task.lane_advance _ _ _ (by rwa [Task.length_onLanes]), Task.lane_onLanes _ _ _ hl, hw]
  unfold Task.sent Task.moved
  by_cases hact : (t.guarded g group).getLsbD l = true
  · simp only [hact, group_of_guarded hact, if_true]
  · simp only [hact, Bool.false_eq_true, if_false]

/-- An instruction that only changes its guard-true lanes completes. -/
theorem lanes_end {f h : Nat → Lane → Lane} (hi : Issues s tid t group) (ha : 1 ≤ t.alw.toNat) (he : exec i s = issue s 8 g plan)
    (hp : plan (Ctx.of s t group g 8) = (Ctx.of s t group g 8).simple 1 fun u => u.onLanes (t.guarded g group) h)
    (hf : f = fun l x => { h l x with pc := (h l x).pc + 8 }) :
    ∃ s', exec i s = .next s' ∧ TaskEnds s s' tid t t group 1 (t.sent group (t.guarded g group) 8 f) := by
  subst hf
  refine go_ends hi he hp rfl (fun _ => rfl) ha (by rw [Task.paid_eq]; rfl) ?_ fun l hl => .inl ?_
  · rw [Task.advance, Task.length_onLanes, Task.length_onLanes, Task.length_paid]
  · exact Task.lane_onLanes_advance h (by rwa [Task.length_paid]) (Task.paid_lane ..)

theorem meet_ends (hi : Issues s tid t group) (ha : 1 ≤ t.alw.toNat) (tgt : Target) :
    ∃ s', exec (.meet g tgt) s = .next s' ∧ TaskEnds s s' tid t t group 1 (t.sent group (t.guarded g group) 8 fun l x =>
      { x with pc := x.pc + 8, meetValid := true, meetDepth := x.depth
               meetAddr := match tgt with
                 | .reg r => BitVec.ofNat 32 (t.reg s.tick false r l)
                 | .rel off => t.groupPc group + 4 * off.signExtend 32 }) := by
  refine lanes_end (h := fun l x => { x with meetValid := true, meetDepth := x.depth, meetAddr := (Ctx.of s t group g 8).target tgt l })
    hi ha (by simp only [exec]; rfl) rfl ?_
  cases tgt with
  | reg r => rfl
  | rel off =>
    have hrel : ∀ l, (Ctx.of s t group g 8).target (.rel off) l = t.groupPc group + 4 * off.signExtend 32 := Ctx.target_eq _
    simp only [hrel]

theorem meetclr_ends (hi : Issues s tid t group) (ha : 1 ≤ t.alw.toNat) :
    ∃ s', exec (.meetclr g) s = .next s' ∧ TaskEnds s s' tid t t group 1
      (t.sent group (t.guarded g group) 8 fun _ x => { x with pc := x.pc + 8, meetValid := false }) :=
  lanes_end (h := fun _ x => { x with meetValid := false }) hi ha (by simp only [exec]; rfl) rfl rfl

theorem nop_done (hi : Issues s tid t group) (ha : 1 ≤ t.alw.toNat) :
    ∃ s', exec (.nop g) s = .next s' ∧ TaskDone s s' tid t t group 8 1 := by
  have he : exec (.nop g) s = execNop g s := rfl
  rw [he]
  exact idle_done hi rfl ha

/-! ### What the end of an instruction leaves of the lanes (R78, R79) -/

theorem settled_of_ends {lane : Nat → Lane} (hu : u.lanes = t.lanes) (h : ∃ s', exec i s = .next s' ∧ TaskEnds s s' tid t u group cost lane) :
    ∃ s' t', exec i s = .next s' ∧ s'.task? tid = some t' ∧ ∀ l < t.lanes.length, Settled t.lanes.length group lane l (t'.lane l) := by
  obtain ⟨s', hs, t', ⟨-, ht', -⟩, -, hends⟩ := h
  refine ⟨s', t', hs, ht', ?_⟩
  rw [← hu]
  exact hends.lanes

theorem exited_of_settled {n l : Nat} {lane : Nat → Lane} {y : Lane} (h : Settled n group lane l y) : y.exited = (lane l).exited := by
  obtain ⟨hstands, hparks, hreleased⟩ := h
  by_cases hm : AtMeeting group lane l
  · by_cases hh : MeetingHeld n group lane l
    · rw [hparks hm hh]
    · rw [hreleased hm hh]
  · rw [hstands hm]

/-! ### ELECT and QUANT (R90, R91) -/

theorem quant_done (hi : Issues s tid t group) (ha : 1 ≤ t.alw.toNat) (hact : t.guarded g group ≠ 0) (q : BitVec 16) :
    ∃ s', exec (.quant g q) s = .next s' ∧ TaskDone s s' tid t { t with quant := q, bbc := 0 } group 8 1 := by
  have he : exec (.quant g q) s = execQuant g q s := rfl
  rw [he]
  exact simple_done (f := fun u => { u with quant := q, bbc := 0 }) hi (Ctx.uniform_of_act hact _ _) ha (fun _ => rfl)
    (by rw [Task.charge_zero]; rfl) fun _ => ⟨rfl, rfl, rfl⟩

theorem getLsbD_without (m n : Mask) (l : Nat) : (m &&& ~~~n).getLsbD l = (m.getLsbD l && !n.getLsbD l) := by
  rw [BitVec.getLsbD_and, BitVec.getLsbD_not]
  by_cases h : l < 64
  · rw [decide_eq_true h, Bool.true_and]
  · rw [BitVec.getLsbD_of_ge m l (not_lt.1 h), Bool.false_and, Bool.false_and]

/-- Predicates that are written in the lanes of a mask. -/
theorem Task.predHolds_setPred (t : Task) (p : Fin 8) (m v : Mask) : PredHolds t (t.setPred p m v) p m fun l => v.getLsbD l := by
  intro q l hl
  rw [Task.pred_setPred]
  by_cases hq : q = p ∧ p ≠ 0
  · rw [if_pos hq, BitVec.getLsbD_or, getLsbD_without, BitVec.getLsbD_and, hq.1]
    cases hm : m.getLsbD l
    · simp
    · simp [hq.2]
  · rw [if_neg hq, if_neg fun h => hq ⟨h.1, h.2.1⟩]

/-- An instruction that writes a predicate in every lane of the group completes. -/
theorem setPred_done {p : Fin 8} {v : Mask} {f : Nat → Bool} (hi : Issues s tid t group) (ha : 1 ≤ t.alw.toNat)
    (hp : plan (Ctx.of s t group g 8) = (Ctx.of s t group g 8).simple 1 fun u => u.setPred p group v)
    (hv : ∀ l < 64, v.getLsbD l = f l) :
    ∃ s', issue s 8 g plan = .next s' ∧ PredDone s s' tid t group group 8 1 p fun l => (f l, 0) := by
  obtain ⟨s', hs, hd⟩ := simple_done (f := fun u => u.setPred p group v) hi hp ha (fun u => by rw [Task.setPred_rest])
    (by rw [Task.charge_zero]; unfold Task.setPred; split <;> rfl) fun u => by rw [Task.setPred_rest]; exact ⟨rfl, rfl, rfl⟩
  refine ⟨s', hs, _, hd, ?_, fun q l hl => ?_⟩
  · rw [raised_zero]
    exact Task.setPred_rest ..
  · refine (t.predHolds_setPred p group v q l hl).trans ?_
    simp only [hv l hl]

/-- The lane that ELECT names, if any (R90). -/
def Task.elected (t : Task) (tick : Nat) (act : Mask) (src : Option (Fin 192)) : Option Nat :=
  (lanesOf act).find? fun l => match src with | none => true | some r => t.rdV tick r.val l != 0

theorem Task.elected_lt {tick : Nat} {act : Mask} {src : Option (Fin 192)} {l : Nat} (h : t.elected tick act src = some l) : l < 64 :=
  (mem_lanesOf.1 (List.mem_of_find?_eq_some h)).1

variable {src : Option (Fin 192)} (hi : Issues s tid t group) (ha : 1 ≤ t.alw.toNat) (hact : t.guarded g group ≠ 0)
include hi ha hact

theorem elect_computes (n : Fin 64) : Computes s tid t group g (.elect g (.s n) src) 8 .n64 (.s n)
    fun _ => (match t.elected s.tick (t.guarded g group) src with | some l => l | none => 2 ^ 64 - 1, 0) := by
  have he : exec (.elect g (.s n) src) s = execElect g (.s n) src s := rfl
  have hv : (match t.elected s.tick (t.guarded g group) src with | some l => BitVec.ofNat 64 l | none => BitVec.allOnes 64).toNat =
      match t.elected s.tick (t.guarded g group) src with | some l => l | none => 2 ^ 64 - 1 := by
    cases hl : t.elected s.tick (t.guarded g group) src with
    | none => rfl
    | some l =>
      have := Task.elected_lt hl
      exact Nat.mod_eq_of_lt (by omega)
  unfold Computes
  rw [he, ← hv]
  cases src <;> exact uniform_done hi n _ (Ctx.uniform_of_act hact _ _) hact ha

theorem elect_decides (n : Fin 8) : ∃ s', exec (.elect g (.p n) src) s = .next s' ∧
    PredDone s s' tid t group group 8 1 n fun l => (decide (t.elected s.tick (t.guarded g group) src = some l), 0) := by
  have hv : ∀ l < 64, (match t.elected s.tick (t.guarded g group) src with | some l => laneBit l | none => (0 : Mask)).getLsbD l =
      decide (t.elected s.tick (t.guarded g group) src = some l) := fun l hl => by
    cases t.elected s.tick (t.guarded g group) src with
    | none => simp
    | some e =>
      rw [laneBit_getLsbD hl]
      simp [eq_comm]
  have he : exec (.elect g (.p n) src) s = execElect g (.p n) src s := rfl
  rw [he]
  cases src <;> exact setPred_done hi ha (Ctx.uniform_of_act hact _ _) hv
omit hi ha hact

/-! ### YIELD (R76, R77) -/

/-- Where another lane runs on outside D, the lanes of a deferred group are not eligible. -/
theorem eligible_of_deferred {t' : Task} {lane : Nat → Lane} {d o : Mask}
    (ho : ∀ l < 64, o.getLsbD l = true ↔ RunsOn t.lanes.length group lane l ∧ d.getLsbD l = false)
    (hd : ∀ l, group.getLsbD l = true → d.getLsbD l = true)
    (hends : LanesEnd u t' group lane) (hu : u = { t with bbc := u.bbc, dset := d, oset := o })
    {l : Nat} (hl : l < 64) (hr : RunsOn t.lanes.length group lane l) (hout : d.getLsbD l = false) : t'.eligible &&& group = 0 := by
  obtain ⟨hlen, hlanes, -, hkept⟩ := hends
  rw [hu] at hlen hlanes hkept
  have hg : group.getLsbD l = false := by
    by_contra h
    rw [hd l (by simpa using h)] at hout
    cases hout
  have hover : ¬ ((∀ l < 64, ¬ StaysInO t.lanes.length group o lane l) ∨
      ∀ l < 64, RunsOn t.lanes.length group lane l → d.getLsbD l = true) := by
    rintro (h | h)
    · exact h l hl ⟨(ho l hl).2 ⟨hr, hout⟩, hr, hg⟩
    · rw [h l hl hr] at hout
      cases hout
  refine mask_eq_zero.2 fun k hk hb => ?_
  rw [BitVec.getLsbD_and, Bool.and_eq_true, Task.eligible, BitVec.getLsbD_and, Bool.and_eq_true, getLsbD_laneMask _ _ hk, BitVec.getLsbD_not] at hb
  obtain ⟨⟨⟨hk', hx⟩, hnd⟩, hgk⟩ := hb
  rw [hlen] at hk'
  rw [Bool.and_eq_true, Bool.not_eq_true', exited_of_settled (hlanes k hk')] at hx
  obtain ⟨-, hstays⟩ := hkept hover k hk
  rw [hstays.2 ⟨hd k hgk, hk', hx.1⟩] at hnd
  simp at hnd

theorem Task.length_advance_paid : ((t.paid cost group).advance group 8).lanes.length = t.lanes.length :=
  (Task.length_onLanes ..).trans (Task.length_paid ..)

theorem Task.lane_advance_paid {l : Nat} (hl : l < t.lanes.length) : ((t.paid cost group).advance group 8).lane l = t.moved group 8 l := by
  rw [Task.lane_advance _ _ _ (by rwa [Task.length_paid]), Task.paid_lane]
  rfl

theorem Task.arrive_advance_left {l : Nat} (hl : l < t.lanes.length) :
    LeftAs group (t.moved group 8) (((t.paid cost group).advance group 8).arrive group) l :=
  leftAs_arrive (by rwa [Task.length_advance_paid]) (Task.lane_advance_paid hl)

theorem leftAs_defer {v : Task} {lane : Nat → Lane} {l : Nat} (h : LeftAs group lane v l) : LeftAs group lane (v.defer group) l := h

/-- A YIELD without a guard-true lane only goes on. -/
theorem yield_idle (hi : Issues s tid t group) (ha : 1 ≤ t.alw.toNat) (hact : t.guarded g group = 0) :
    ∃ s', exec (.yield g) s = .next s' ∧ TaskEnds s s' tid t t group 1 (t.moved group 8) := by
  refine go_ends (F := fun u => (u.advance group 8).arrive group) hi (by simp only [exec]; rfl) rfl
    (congrArg (State.updTask _ _) (funext fun u => if_pos hact)) (fun _ => rfl) ha (by rw [Task.paid_eq]; rfl)
    ((Task.length_onLanes ..).trans Task.length_advance_paid) fun l hl => Task.arrive_advance_left hl

/-- A YIELD with a guard-true lane defers its whole group. -/
theorem yield_defers (hi : Issues s tid t group) (ha : 1 ≤ t.alw.toNat) (hact : t.guarded g group ≠ 0) :
    ∃ s' o, exec (.yield g) s = .next s' ∧
      (∀ l < 64, o.getLsbD l = true ↔ RunsOn t.lanes.length group (t.moved group 8) l ∧ (t.dset ||| group).getLsbD l = false) ∧
      TaskEnds s s' tid t { t with bbc := 0, dset := t.dset ||| group, oset := o } group 1 (t.moved group 8) := by
  obtain ⟨s', hs, hends⟩ := go_ends (i := .yield g) (F := fun u => ((u.advance group 8).arrive group).defer group) (lane := t.moved group 8)
    (u := { t with bbc := 0, dset := t.dset ||| group, oset := ((((t.paid 1 group).advance group 8).arrive group).defer group).oset })
    hi (by simp only [exec]; rfl) rfl (congrArg (State.updTask _ _) (funext fun u => if_neg hact)) (fun _ => rfl) ha
    (by rw [Task.paid_eq]; rfl) ((Task.length_onLanes ..).trans Task.length_advance_paid) fun l hl =>
      leftAs_defer (Task.arrive_advance_left hl)
  refine ⟨s', _, hs, fun l hl => ?_, hends⟩
  have hlen : ((t.paid 1 group).advance group 8).lanes.length = t.lanes.length := Task.length_advance_paid
  rw [← hlen, Task.oset_defer_arrive (fun l hl => .inl (Task.lane_advance_paid (hlen ▸ hl))) hl, Task.paid_eq]
  rfl

/-! ### EXIT (R89, R106) -/

/-- The group after an EXIT: its guard-true lanes have exited, the others have gone on. -/
def Task.leaves (u : Task) (group act : Mask) : Task :=
  (u.advance (group &&& ~~~act) 8).onLanes act fun _ x => { x with exited := true, meetValid := false }

/-- The same with the mark of the last exit. -/
def Task.exits (u : Task) (group act : Mask) (mark : Nat) : Task :=
  if (u.leaves group act).unexited = 0 then { u.leaves group act with relMark := mark } else u.leaves group act

section
variable {act : Mask} {mark : Nat}

theorem Task.exits_of_last (h : (u.leaves group act).unexited = 0) :
    u.exits group act mark = { u.leaves group act with relMark := mark } := if_pos h

theorem Task.exits_of_left (h : (u.leaves group act).unexited ≠ 0) : u.exits group act mark = u.leaves group act := if_neg h

theorem Task.exits_rest (u : Task) : u.exits group act mark =
    { u with lanes := (u.leaves group act).lanes, relMark := (u.exits group act mark).relMark } := by
  unfold Task.exits
  split <;> rfl

theorem Task.exits_id : (u.exits group act mark).id = u.id := by rw [Task.exits_rest]

theorem Task.lanes_exits : (u.exits group act mark).lanes = (u.leaves group act).lanes := by rw [Task.exits_rest]

theorem Task.children_exits : (u.exits group act mark).children = u.children := by rw [Task.exits_rest]

theorem Task.exits_paid : (t.paid cost group).exits group act mark =
    { t with relMark := ((t.paid cost group).exits group act mark).relMark, alw := t.alw - BitVec.ofNat 64 cost
             lanes := ((t.paid cost group).exits group act mark).lanes, outs := (t.countWindows group).outs } := by
  have h := (t.paid cost group).exits_rest (group := group) (act := act) (mark := mark)
  rw [← Task.lanes_exits (mark := mark)] at h
  generalize (t.paid cost group).exits group act mark = y at h ⊢
  rw [Task.paid_eq] at h
  exact h

theorem Task.length_leaves : (u.leaves group act).lanes.length = u.lanes.length :=
  (Task.length_onLanes ..).trans (Task.length_onLanes ..)
end

theorem Task.lane_leaves {l : Nat} (hl : l < u.lanes.length) (hu : u.lane l = t.lane l) : (u.leaves group (t.guarded g group)).lane l =
    t.sent group (t.guarded g group) 8 (fun _ x => { x with exited := true, meetValid := false }) l := by
  rw [Task.leaves, Task.lane_onLanes _ _ _ (by rwa [Task.advance, Task.length_onLanes]), Task.lane_advance _ _ _ hl, hu, getLsbD_without]
  unfold Task.sent Task.moved
  by_cases h : (t.guarded g group).getLsbD l = true
  · simp [h]
  · simp [h]

theorem Task.exited_sent {act : Mask} {l : Nat} :
    (t.sent group act 8 (fun _ x => { x with exited := true, meetValid := false }) l).exited = (act.getLsbD l || (t.lane l).exited) := by
  unfold Task.sent Task.moved
  by_cases h : act.getLsbD l = true
  · simp [h]
  · by_cases hg : group.getLsbD l = true
    · simp [h, hg]
    · simp [h, hg]

/-- An EXIT leaves an unexited lane where one has no true guard. -/
theorem Task.unexited_leaves (hlen : u.lanes.length = t.lanes.length) (hu : ∀ l, u.lane l = t.lane l) :
    (u.leaves group (t.guarded g group)).unexited ≠ 0 ↔
      ∃ l, l < t.lanes.length ∧ l < 64 ∧ (t.lane l).exited = false ∧ (t.guarded g group).getLsbD l = false := by
  have key : ∀ l < 64, (u.leaves group (t.guarded g group)).unexited.getLsbD l = true ↔
      l < t.lanes.length ∧ (t.lane l).exited = false ∧ (t.guarded g group).getLsbD l = false := fun l h64 => by
    rw [Task.unexited, getLsbD_laneMask _ _ h64, Task.length_leaves, hlen]
    refine and_congr_right fun hl => ?_
    rw [Task.lane_leaves (hlen.symm ▸ hl) (hu l), Task.exited_sent, Bool.not_eq_true', Bool.or_eq_false_iff, and_comm]
  rw [ne_eq, mask_eq_zero]
  push Not
  refine exists_congr fun l => ⟨fun ⟨h64, h⟩ => ?_, fun ⟨hl, h64, h⟩ => ⟨h64, (key l h64).2 ⟨hl, h⟩⟩⟩
  obtain ⟨hl, h⟩ := (key l h64).1 h
  exact ⟨hl, h64, h⟩

theorem State.lastExit_of_rest (ht : s.task? tid = some t) (h : t.unexited ≠ 0 ∨ ∀ c ∈ t.children, c.final ≠ none ∨ c.paused = false) :
    s.lastExit tid = s := by
  simp only [State.lastExit, ht]
  split
  next => rfl
  next hu =>
    have hnone : t.children.filter (fun c => c.final.isNone && c.paused) = [] := by
      rw [List.filter_eq_nil_iff]
      intro c hc hp
      rw [Bool.and_eq_true, Option.isNone_iff_eq_none] at hp
      rcases h.resolve_left hu c hc with hf | hf
      · exact hf hp.1
      · rw [hp.2] at hf
        cases hf
    rw [hnone]
    rfl

/-- After the EXIT of a task whose paused children need no cancelling. -/
theorem State.lastExit_exits {act : Mask} {mark : Nat} (ht : s.task? tid = some u)
    (h : (u.leaves group act).unexited ≠ 0 ∨ ∀ c ∈ u.children, c.final ≠ none ∨ c.paused = false) :
    (s.updTask tid fun u => u.exits group act mark).lastExit tid = s.updTask tid fun u => u.exits group act mark := by
  refine State.lastExit_of_rest (State.task?_updTask_self _ (fun _ => Task.exits_id) ht) (h.imp (fun h => ?_) fun h => ?_)
  · rwa [Task.exits_of_left h]
  · rwa [Task.children_exits]

/-- An EXIT completes that leaves an unexited lane, or no paused child. -/
theorem exit_ends (hi : Issues s tid t group) (ha : 1 ≤ t.alw.toNat) :
    let left := ∃ l, l < t.lanes.length ∧ l < 64 ∧ (t.lane l).exited = false ∧ (t.guarded g group).getLsbD l = false
    (left ∨ ∀ c ∈ t.children, c.final ≠ none ∨ c.paused = false) →
    ∃ s' mark, exec (.exit g) s = .next s' ∧
      TaskEnds s s' tid t { t with relMark := mark } group 1
        (t.sent group (t.guarded g group) 8 fun _ x => { x with exited := true, meetValid := false }) ∧
      (left → mark = t.relMark) ∧ (¬ left → mark = s.nextReq) := by
  intro left hleft
  obtain rfl := State.task?_id hi.2
  have hlen := Task.length_paid t 1 group
  have hu : ((t.paid 1 group).leaves group (t.guarded g group)).unexited ≠ 0 ↔ left := Task.unexited_leaves hlen fun l => Task.paid_lane ..
  have hpaid : (s.paid t.id group 1 0).task? t.id = some (t.paid 1 group) := State.task?_updTask_self _ (fun _ => rfl) hi.2
  obtain ⟨s', hs, hends⟩ := go_ends (i := .exit g)
    (u := { t with relMark := ((t.paid 1 group).exits group (t.guarded g group) s.nextReq).relMark })
    (lane := t.sent group (t.guarded g group) 8 fun _ x => { x with exited := true, meetValid := false })
    hi (by simp only [exec]; rfl) rfl
    (State.lastExit_exits hpaid (hleft.imp hu.2 fun h => by rwa [Task.paid_eq])) (fun _ => Task.exits_id) ha
    Task.exits_paid
    ((congrArg List.length Task.lanes_exits).trans (Task.length_leaves.trans hlen)) fun l hl => .inl (by
      rw [Task.lane, Task.lanes_exits]
      exact Task.lane_leaves (hlen.symm ▸ hl) (Task.paid_lane ..))
  refine ⟨s', _, hs, hends, fun h => ?_, fun h => ?_⟩
  · rw [Task.exits_of_left (hu.2 h), Task.paid_eq]
    rfl
  · rw [Task.exits_of_last (not_not.1 (mt hu.1 h))]

end Sys2Proof.Machine
end
section
open Sys2Proof Sys2Proof.Machine

/-- Settles O9: NOP only goes on, and the zero word is the one that the encoder lays out for it. -/
theorem nopOnlyAdvances : Obligations.NopOnlyAdvances := by
  unfold Obligations.NopOnlyAdvances
  refine ⟨fun s tid t group g hi ha => ?_, fun n w pc raw hpc hfit hraw => ?_⟩
  · obtain ⟨s', hs, t', ho, hrest, hends⟩ := nop_done (g := g) hi ha
    refine ⟨s', t', hs, ho, hends, ?_⟩
    generalize t'.lanes = ls, t'.dset = d, t'.oset = o at *
    rw [hrest]
    exact ⟨rfl, rfl, rfl, rfl, rfl, rfl⟩
  · exact decode_encode (i := .nop { neg := false, p := 0 }) (x := 0) rfl rfl rfl hpc
      (show pc.toNat % 32 + 8 ≤ 32 by omega) hraw

/-- Settles O8: each of these instructions moves its lanes in one way and changes little else of its task; the end of the issue parks and
releases the lanes at their meetings whatever the instruction was. -/
theorem controlEffects : Obligations.ControlEffects := by
  unfold Obligations.ControlEffects
  refine ⟨?_, ?_, ?_, ?_⟩
  · intro s tid t group g hi ha act
    refine ⟨nop_done hi ha, fun tgt => ?_, ?_, fun q hact => ?_, fun dst src hact => ?_⟩
    · exact meet_ends hi ha tgt
    · exact meetclr_ends hi ha
    · exact quant_done hi ha hact q
    · cases dst with
      | s n => cases src <;> exact elect_computes hi ha hact n
      | p n => cases src <;> exact elect_decides hi ha hact n
  · intro s tid t group g hi ha act
    by_cases hact : act = 0
    · obtain ⟨s', hs, t', ho, hends⟩ := yield_idle hi ha hact
      exact ⟨s', t', hs, ho, fun _ => hends, fun h => absurd hact h, fun h => absurd hact h⟩
    · obtain ⟨s', o, hs, hrun, t', ho, hends⟩ := yield_defers hi ha hact
      refine ⟨s', t', hs, ho, fun h => absurd h hact, fun _ => ⟨o, hrun, hends⟩, fun _ l hl h64 hd hg hx hp => ?_⟩
      have hm : t.moved group 8 l = t.lane l := if_neg (by simp [hg])
      refine eligible_of_deferred hrun (fun k hk => by simp [hk]) hends.2 rfl h64 ⟨hl, ?_, ?_, fun h => ?_⟩ (by simp [hd, hg])
      · rw [hm, hx]
      · rw [hm, hp]
      · rw [hg] at h
        cases h.1
  · intro s tid t group g hi ha act left _ hleft
    exact exit_ends hi ha hleft
  · intro s tid t group g hi ha act ends
    have settled : ∀ {i : Instr} {u : Task} {cost : Nat} {lane : Nat → Lane}, u.lanes = t.lanes →
        (∃ s', exec i s = .next s' ∧ TaskEnds s s' tid t u group cost lane) → ends i lane := by
      intro i u cost lane hu h
      obtain ⟨s', t', hs, ht', hl⟩ := settled_of_ends hu h
      refine ⟨s', t', hs, ht', fun l hlen => ?_⟩
      obtain ⟨hstands, hparks, hreleased⟩ := hl l hlen
      exact ⟨hparks, hreleased, hstands⟩
    refine ⟨settled rfl (nop_done hi ha), fun off => ?_, ?_, fun hleft => ?_⟩
    · obtain ⟨s', n, d, o, hs, hends, -⟩ := bra_ends hi ha off
      exact settled (u := { t with bbc := n, dset := d, oset := o }) rfl ⟨s', hs, hends⟩
    · exact settled rfl (meetclr_ends hi ha)
    · obtain ⟨s', mark, hs, hends, -⟩ := exit_ends hi ha (.inl hleft)
      exact settled (u := { t with relMark := mark }) rfl ⟨s', hs, hends⟩
end

