-- ==== Sys2Proof/Proofs/Reset.lean ====
section
/-! SUPPORT. ResetMeetsTheInvariants: a device and a core right after reset. -/

namespace Sys2Proof.Machine

/-- After reset every core is absent from the list, and so as after its own reset. -/
theorem State.core_reset (i : Nat) : State.reset.core i = Core.reset i := rfl

theorem State.reset_memOk : State.reset.MemOk := ⟨rfl, rfl, fun _ h => nomatch h⟩

/-- Reset leaves no task, kernel, core or image that a clause of the shape could speak of; queues and virtual functions have their number. -/
theorem State.reset_shaped : State.reset.Shaped where
  ids := List.nodup_nil
  fresh _ h := absurd h List.not_mem_nil
  lanes _ h := absurd h List.not_mem_nil
  slots _ h := absurd h List.not_mem_nil
  widths _ h := absurd h List.not_mem_nil
  cores := List.nodup_nil
  core _ h := absurd h List.not_mem_nil
  queues := List.length_replicate
  vfs := List.length_replicate
  tier _ h := nomatch h

end Sys2Proof.Machine
end

section
open Sys2Proof Sys2Proof.Machine

/-- Settles O60: an absent core is a core after reset, each of whose units is a copy of that unit after its own reset. -/
theorem resetMeetsTheInvariants : Obligations.ResetMeetsTheInvariants := by
  unfold Obligations.ResetMeetsTheInvariants
  refine ⟨State.reset_memOk, State.reset_shaped, rfl, rfl, rfl, rfl, fun i => ?_⟩
  rw [State.core_reset]
  refine ⟨rfl, rfl, rfl, rfl, fun b hb => ?_, fun v hv => ?_, fun g hg => ?_, fun p hp => ?_⟩
  · rw [List.eq_of_mem_replicate hb]
    exact ⟨rfl, rfl⟩
  · rw [List.eq_of_mem_replicate hv]
    rfl
  · rw [List.eq_of_mem_replicate hg]
    exact ⟨rfl, rfl⟩
  · rw [List.eq_of_mem_replicate hp]
    rfl
end

