-- ==== Sys2Proof/Proofs/TaskEffects.lean ====
section
/-! SUPPORT. The states that an instruction of a task's group goes through: charged, parked or gone on, and ended. -/

namespace Sys2Proof.Machine

variable {s : State} {tid : Nat} {t : Task} {group : Mask} {g : Guard} {len cost : Nat} {i : Instr} {plan : Ctx → Plan}

/-- An instruction that its account covers takes effect on the charged state, and its issue ends (R71, R95). -/
theorem exec_of_go {eff : State → State} (hi : Issues s tid t group) (he : exec i s = issue s len g plan)
    (hp : plan (Ctx.of s t group g len) = .go cost 0 eff) (ha : cost ≤ t.alw.toNat) :
    exec i s = .next ((eff (s.paid tid group cost 0)).ended tid group) :=
  he.trans (issue_go hi.1 hi.2 hp (by omega))

/-- The same for a uniform instruction with a guard-true lane. -/
theorem exec_of_uniform {n : Nat} {p : Ctx → Plan} {eff : State → State} (hi : Issues s tid t group) (hact : t.guarded g group ≠ 0)
    (he : exec i s = issue s len g fun c => c.uniform n (p c)) (hp : p (Ctx.of s t group g len) = .go cost 0 eff)
    (ha : cost ≤ t.alw.toNat) : exec i s = .next ((eff (s.paid tid group cost 0)).ended tid group) :=
  exec_of_go hi he ((Ctx.uniform_of_act hact _ _).trans hp) ha

/-- A uniform instruction with a guard-true lane whose cost the account does not cover. -/
theorem exhausts_of_uniform {n m : Nat} {p : Ctx → Plan} (hi : Issues s tid t group) (hact : t.guarded g group ≠ 0)
    (he : exec i s = issue s len g fun c => c.uniform m (p c)) (hp : (p (Ctx.of s t group g len)).Costs n) (ha : t.alw.toNat < n) :
    Exhausts s tid t group i n :=
  exhausts_of_plan hi he (by rwa [Ctx.uniform_of_act hact]) ha

theorem Issues.ctx_tid (hi : Issues s tid t group) : (Ctx.of s t group g len).tid = tid := State.task?_id hi.2

/-- Parking and going on, as the instruction's view of its task gives them. -/
theorem Ctx.hold_eq (hi : Issues s tid t group) (k : WaitKind) (p : Park) (s1 : State) :
    (Ctx.of s t group g len).hold k p s1 = s1.parked tid t group len k p := by
  rw [Ctx.hold, hi.ctx_tid]
  rfl

theorem Ctx.next_eq (hi : Issues s tid t group) (s1 : State) : (Ctx.of s t group g len).next s1 = s1.goneOn tid group len := by
  rw [Ctx.next, hi.ctx_tid]
  rfl

/-! ### Tasks of the charged state -/

theorem Task.charge_countWindows_id (u : Task) (cost reserve : Nat) (group : Mask) : ((u.charge cost reserve).countWindows group).id = u.id := by
  simp

theorem State.task?_paid (ht : s.task? tid = some t) : (s.paid tid group cost 0).task? tid = some (t.paid cost group) :=
  State.task?_updTask_self _ (fun u => u.charge_countWindows_id cost 0 group) ht

theorem State.task?_paid_ne (s : State) (group : Mask) (cost : Nat) {j : Nat} (hj : j ≠ tid) :
    (s.paid tid group cost 0).task? j = s.task? j :=
  State.task?_updTask_ne _ _ _ (fun u => u.charge_countWindows_id cost 0 group) hj

@[simp] theorem Task.child?_paid (t : Task) (cost : Nat) (group : Mask) (h : BitVec 32) : (t.paid cost group).child? h = t.child? h := by
  simp [Task.child?, Task.paid]

/-! ### A task that parks, goes on or ends its issue -/

theorem State.task?_ended {u : Task} (ht : s.task? tid = some u) : (s.ended tid group).task? tid = some (u.settleLanes group) :=
  State.task?_updTask_self _ (fun _ => by simp) ht

theorem State.task?_ended_ne (s : State) (group : Mask) {j : Nat} (hj : j ≠ tid) : (s.ended tid group).task? j = s.task? j :=
  State.task?_updTask_ne _ _ _ (fun _ => by simp) hj

theorem State.task?_goneOn {u : Task} (ht : s.task? tid = some u) : (s.goneOn tid group len).task? tid = some (u.advance group len) :=
  State.task?_updTask_self _ (fun _ => rfl) ht

theorem State.task?_goneOn_ne (s : State) (group : Mask) (len : Nat) {j : Nat} (hj : j ≠ tid) :
    (s.goneOn tid group len).task? j = s.task? j :=
  State.task?_updTask_ne s tid (fun u => u.advance group len) (fun _ => rfl) hj

/-- The wait on which a group parks. -/
def Task.waitOf (t : Task) (group : Mask) (len : Nat) (k : WaitKind) : Wait :=
  { lanes := group, pc := t.groupPc group, len := BitVec.ofNat 32 len, kind := k }

theorem State.task?_parked {u : Task} (hu : s.task? tid = some u) (t : Task) (group : Mask) (len : Nat) (k : WaitKind) (p : Park) :
    (s.parked tid t group len k p).task? tid = some (u.hold (t.waitOf group len k) p) :=
  State.task?_updTask_self _ (fun _ => rfl) hu

theorem State.task?_parked_ne (s : State) (t : Task) (group : Mask) (len : Nat) (k : WaitKind) (p : Park) {j : Nat} (hj : j ≠ tid) :
    (s.parked tid t group len k p).task? j = s.task? j :=
  State.task?_updTask_ne s tid (fun u => u.hold (t.waitOf group len k) p) (fun _ => rfl) hj

/-- Whether a group's instruction ends parked on a wait, with its account charged and its registers and children as they were. -/
theorem Task.held_stays (t : Task) (cost : Nat) (group : Mask) (w : Wait) (p : Park) :
    let t' := ((t.paid cost group).hold w p).settleLanes group
    t'.alw = t.alw - BitVec.ofNat 64 cost ∧ t'.sregs = t.sregs ∧ t'.vregs = t.vregs ∧ t'.children = t.children ∧ t'.waits = t.waits ++ [w] := by
  rw [Task.paid_eq]
  simp [Task.hold]

end Sys2Proof.Machine
end

