-- ==== Sys2Proof/Proofs/ChildCommands.lean ====
section
/-! SUPPORT. ChildCommands: what RESUME and CANCEL do to the child that a handle names, and the credit that TOPUP sends. -/

namespace Sys2Proof.Machine

variable {s : State} {tid : Nat} {t : Task} {group : Mask} {g : Guard}

/-- The issue of a command to a child ends: its status is written and its group goes on. -/
def State.answered (s : State) (tid : Nat) (group : Mask) (dst : Fin 64) (st : BitVec 64) : State :=
  ((s.updTask tid fun u => u.wrS dst st).goneOn tid group 8).ended tid group

/-- A command to a child acts on the charged state and writes its status. -/
theorem exec_command {i : Instr} {f : Ctx → State → State × BitVec 64} {dst : Fin 64} (hi : Issues s tid t group)
    (hact : t.guarded g group ≠ 0) (ha : 4 ≤ t.alw.toNat)
    (he : exec i s = issue s 8 g fun c => c.uniform 4 (.go 4 0 fun s => c.next (c.putS dst (f c s).2 (f c s).1))) :
    let r := f (Ctx.of s t group g 8) (s.paid tid group 4 0)
    exec i s = .next (r.1.answered tid group dst r.2) := by
  intro r
  rw [exec_of_uniform hi hact he rfl ha, Ctx.next_eq hi, Ctx.putS, hi.ctx_tid]
  rfl

theorem exec_resume (hi : Issues s tid t group) (hact : t.guarded g group ≠ 0) (ha : 4 ≤ t.alw.toNat) (dst h : Fin 64) :
    let r := (s.paid tid group 4 0).resumeChild tid ((t.rdS s.tick h).setWidth 32)
    exec (.resume g dst h) s = .next (r.1.answered tid group dst r.2) := by
  have he := exec_command (i := .resume g dst h) (dst := dst) (f := fun c s => s.resumeChild c.tid (c.handle h)) hi hact ha
    (by simp only [exec]; rfl)
  rwa [hi.ctx_tid] at he

theorem exec_cancel (hi : Issues s tid t group) (hact : t.guarded g group ≠ 0) (ha : 4 ≤ t.alw.toNat) (dst h : Fin 64) :
    let r := (s.paid tid group 4 0).cancelChild tid ((t.rdS s.tick h).setWidth 32)
    exec (.cancel g dst h) s = .next (r.1.answered tid group dst r.2) := by
  have he := exec_command (i := .cancel g dst h) (dst := dst) (f := fun c s => s.cancelChild c.tid (c.handle h)) hi hact ha
    (by simp only [exec]; rfl)
  rwa [hi.ctx_tid] at he

/-! ### The child that a handle names (R122) -/

section
variable (ht : s.task? tid = some t) {h : BitVec 32}
include ht

/-- A handle that names no child. -/
theorem State.command_unknown (hc : t.child? h = none) : s.resumeChild tid h = (s, 0xFF) ∧ s.cancelChild tid h = (s, 0xFF) := by
  simp [State.resumeChild, State.cancelChild, ht, hc]

variable {c : Child} (hc : t.child? h = some c)
include hc

/-- A child that has its final status, or is gone. -/
theorem State.command_ended (he : c.final ≠ none ∨ s.task? c.task = none) :
    s.resumeChild tid h = (s, 2) ∧ s.cancelChild tid h = (s, 2) := by
  rcases he with he | he
  · simp [State.resumeChild, State.cancelChild, ht, hc, Option.isSome_iff_ne_none.2 he]
  · simp [State.resumeChild, State.cancelChild, ht, hc, he]

variable {k : Task} (hf : c.final = none) (hk : s.task? c.task = some k)
include hf hk

/-- RESUME of a child that lives: one that is paused and not stopping runs again. -/
theorem State.resumeChild_live :
    s.resumeChild tid h = if k.paused = true ∧ k.stop = none then (s.unpause c.task, 0) else (s, 1) := by
  simp [State.resumeChild, ht, hc, hf, hk, State.task?_id hk]

/-- CANCEL of a child that lives: one that is not stopping stops. -/
theorem State.cancelChild_live :
    s.cancelChild tid h = if k.stop = none then (s.stopTask c.task .cancelled, 0) else (s, 1) := by
  simp only [State.cancelChild, ht, hc, hf, hk, State.task?_id hk, Option.bind_some, Option.isSome_none, Bool.false_eq_true, if_false]
  cases k.stop <;> rfl

end

/-! ### TOPUP (R121) -/

/-- TOPUP sends its amount, and its group waits for the outcome. -/
theorem exec_topup (hi : Issues s tid t group) (hact : t.guarded g group ≠ 0) (res : Bool) (dst h amt : Fin 64)
    (ha : 4 + (t.rdS s.tick amt).toNat ≤ t.alw.toNat) :
    let s1 := (s.paid tid group (4 + (t.rdS s.tick amt).toNat) 0).parked tid t group 8 (.topup dst) .join
    exec (.topup g res dst h amt) s = .next (({ s1 with credits := s1.credits ++
      [{ parent := tid, child := (t.rdS s.tick h).setWidth 32, amount := t.rdS s.tick amt, res := res, lanes := group }] } : State).ended
        tid group) := by
  intro s1
  rw [exec_of_uniform (i := .topup g res dst h amt) hi hact (by simp only [exec]; rfl) rfl ha, Ctx.hold_eq hi, hi.ctx_tid]
  rfl

end Sys2Proof.Machine
end

section
open Sys2Proof Sys2Proof.Machine

/-- Settles O16: a command acts on the charged state by what has become of the child, and a TOPUP parks its group behind the credit it sends. -/
theorem childCommands : Obligations.ChildCommands := by
  unfold Obligations.ChildCommands
  intro s tid t group g dst h hi hact handle paid ends
  have hpaid : paid.task? tid = some (t.paid 4 group) := State.task?_paid hi.2
  refine ⟨fun res amt ha => ?_, fun res amt ha => ?_, fun ha => ⟨fun hc => ?_, fun c hc => ⟨fun he => ?_, fun k hf hk hne => ?_⟩⟩⟩
  · exact exhausts_of_uniform (p := fun c => .go (4 + (c.sval amt).toNat) 0 _) hi hact (by simp only [exec]; rfl) rfl ha
  · have hs := exec_topup hi hact res dst h amt ha
    obtain ⟨halw, hsregs, -, -, hwaits⟩ := t.held_stays (4 + (t.rdS s.tick amt).toNat) group (t.waitOf group 8 (.topup dst)) .join
    refine ⟨_, _, hs, State.task?_ended (State.task?_parked (State.task?_paid hi.2) ..), halw, hsregs, rfl, _, hwaits, rfl, rfl, rfl⟩
  · obtain ⟨hr, hx⟩ := State.command_unknown hpaid ((Task.child?_paid ..).trans hc)
    have h1 := exec_resume hi hact ha dst h
    have h2 := exec_cancel hi hact ha dst h
    rw [hr] at h1
    rw [hx] at h2
    exact ⟨h1, h2⟩
  · have hgone : c.final ≠ none ∨ paid.task? c.task = none := he.imp_right fun hn => by
      rw [State.task?_paid_ne _ _ _ fun e => by rw [e, hi.2] at hn; cases hn]
      exact hn
    obtain ⟨hr, hx⟩ := State.command_ended hpaid ((Task.child?_paid ..).trans hc) hgone
    have h1 := exec_resume hi hact ha dst h
    have h2 := exec_cancel hi hact ha dst h
    rw [hr] at h1
    rw [hx] at h2
    exact ⟨h1, h2⟩
  · have hkp : paid.task? c.task = some k := (State.task?_paid_ne s group 4 hne).trans hk
    have h1 := exec_resume hi hact ha dst h
    have h2 := exec_cancel hi hact ha dst h
    rw [State.resumeChild_live hpaid ((Task.child?_paid ..).trans hc) hf hkp] at h1
    rw [State.cancelChild_live hpaid ((Task.child?_paid ..).trans hc) hf hkp] at h2
    refine ⟨h1.trans ?_, h2.trans ?_⟩
    · split <;> rfl
    · split <;> rfl
end

