-- ==== Sys2Proof/Proofs/Waking.lean ====
section
/-! SUPPORT. Waking a group (R71, R76, R78, R79): its lanes go on behind the instruction and settle there, and the end of the instruction that
woke them changes nothing more. -/

namespace Sys2Proof.Machine

/-! ### Lanes that have settled -/

/-- A lane once the meetings that nobody holds back are released. -/
def Task.released (t : Task) (x : Lane) : Lane :=
  if x.park = .meeting && !t.heldBack x.meetDepth x.meetAddr then { x with park := .none, meetValid := false } else x

theorem Task.releaseMeets_lanes (t : Task) : t.releaseMeets.lanes = t.lanes.map t.released := rfl

theorem Task.heldBack_congr {t u : Task} (h : t.lanes = u.lanes) : t.heldBack = u.heldBack := by
  funext d a
  rw [Task.heldBack, Task.heldBack, h]

theorem Task.released_congr {t u : Task} (h : t.lanes = u.lanes) : t.released = u.released := by
  funext x
  rw [Task.released, Task.released, Task.heldBack_congr h]

/-- A lane that has been released holds no meeting back, and is not at one. -/
theorem Task.released_cases (t : Task) (x : Lane) :
    t.released x = x ∨ (x.park = .meeting ∧ t.released x = { x with park := .none, meetValid := false }) := by
  unfold Task.released
  split
  next h => exact .inr ⟨by simp_all, rfl⟩
  · exact .inl rfl

/-- What holds meetings back is the same before and behind their release. -/
theorem Task.heldBack_releaseMeets (t : Task) : t.releaseMeets.heldBack = t.heldBack := by
  funext d a
  simp only [Task.heldBack, Task.releaseMeets_lanes, List.any_map]
  congr 1
  funext x
  rcases t.released_cases x with h | ⟨hp, h⟩
  · simp only [Function.comp_apply, h]
  · simp [h, hp]

/-- A second release finds nothing to do. -/
theorem Task.lanes_releaseMeets_twice (t : Task) : t.releaseMeets.releaseMeets.lanes = t.releaseMeets.lanes := by
  rw [Task.releaseMeets_lanes, Task.releaseMeets_lanes, List.map_map]
  refine List.map_congr_left fun x _ => ?_
  have hr : t.releaseMeets.released = t.released := by
    funext x
    rw [Task.released, Task.released, Task.heldBack_releaseMeets]
  rw [Function.comp_apply, hr]
  rcases t.released_cases x with h | ⟨-, h⟩
  · rw [h, h]
  · rw [h]
    exact if_neg (by simp)

/-- A lane that stands at its meeting parks (R78). -/
def Lane.arrived (x : Lane) : Lane :=
  if x.meetValid && !x.exited && x.park = .none && x.depth = x.meetDepth && x.pc = x.meetAddr then { x with park := .meeting } else x

theorem Task.arrive_eq (t : Task) (m : Mask) : t.arrive m = t.onLanes m fun _ => Lane.arrived := rfl

theorem Lane.arrived_arrived (x : Lane) : x.arrived.arrived = x.arrived := by
  unfold Lane.arrived
  split <;> simp_all

/-- Lanes arrive once. -/
theorem Task.arrive_arrive (t : Task) (m : Mask) : (t.arrive m).arrive m = t.arrive m := by
  rw [Task.arrive_eq, Task.arrive_eq, Task.onLanes_onLanes]
  exact congrArg (Task.onLanes t m) (funext fun _ => funext Lane.arrived_arrived)

/-- Nor does a release make lanes arrive. -/
theorem Task.lanes_arrive_releaseMeets {t : Task} {m : Mask} (h : (t.arrive m).lanes = t.lanes) :
    (t.releaseMeets.arrive m).lanes = t.releaseMeets.lanes := by
  refine List.ext_getElem (Task.length_onLanes ..) fun l h1 h2 => ?_
  have hl : l < t.lanes.length := by simpa [Task.releaseMeets_lanes] using h2
  have hstay : (if m.getLsbD l then (t.lanes[l]).arrived else t.lanes[l]) = t.lanes[l] := by
    have := List.getElem_of_eq h (i := l) (by rw [Task.arrive_eq, Task.length_onLanes]; exact hl)
    simpa [Task.arrive_eq, Task.onLanes] using this
  simp only [Task.arrive_eq, Task.onLanes, List.getElem_mapIdx, Task.releaseMeets_lanes, List.getElem_map]
  rcases t.released_cases t.lanes[l] with e | ⟨-, e⟩
  · rw [e, hstay]
  · rw [e]
    simp [Lane.arrived]

/-! ### The sets D and O of lanes that have settled -/

/-- Releasing meetings makes lanes run, and lets none exit. -/
theorem Task.running_releaseMeets (t : Task) : t.running &&& t.releaseMeets.running = t.running := by
  refine BitVec.eq_of_getLsbD_eq fun l hl => ?_
  rw [BitVec.getLsbD_and, Bool.and_eq_left_iff_imp]
  intro h
  rw [Task.running, getLsbD_laneMask _ _ hl] at h ⊢
  obtain ⟨hlen, hr⟩ := h
  rw [Task.releaseMeets, Task.lane_map t _ hlen]
  refine ⟨by simpa using hlen, ?_⟩
  rcases t.released_cases (t.lane l) with e | ⟨hp, -⟩
  · rwa [← Task.released, e]
  · simp [hp] at hr

theorem Task.unexited_releaseMeets (t : Task) : t.releaseMeets.unexited = t.unexited := by
  refine BitVec.eq_of_getLsbD_eq fun l hl => Bool.eq_iff_iff.2 ?_
  rw [Task.unexited, Task.unexited, getLsbD_laneMask _ _ hl, getLsbD_laneMask _ _ hl, Task.releaseMeets_lanes, List.length_map]
  refine and_congr_right fun hlen => ?_
  rw [Task.releaseMeets, Task.lane_map t _ hlen, ← Task.released]
  rcases t.released_cases (t.lane l) with e | ⟨-, e⟩ <;> rw [e]

theorem Task.running_leaveSets (t : Task) (m : Mask) : (t.leaveSets m).running = t.running := by simp [Task.running, Task.laneMask, Task.lane]

theorem Task.unexited_leaveSets (t : Task) (m : Mask) : (t.leaveSets m).unexited = t.unexited := by simp [Task.unexited, Task.laneMask, Task.lane]

/-- D and O, by the running and the unexited lanes, once the issued ones have left them (R76). -/
def setsLeft (run unexited d o issued : Mask) : Mask × Mask :=
  if o &&& run &&& ~~~issued = 0 ∨ run &&& ~~~(d &&& unexited) = 0 then (0, 0) else (d &&& unexited, o &&& run &&& ~~~issued)

theorem Task.sets_leaveSets (t : Task) (m : Mask) :
    ((t.leaveSets m).dset, (t.leaveSets m).oset) = setsLeft t.running t.unexited t.dset t.oset m := by
  rw [Task.leaveSets_eq, setsLeft]
  split <;> rfl

/-- Lanes that leave D and O because they parked or exited, and then those that issued, leave them as all at once do, even where more lanes
run by then. -/
theorem setsLeft_twice {r r' : Mask} (h : r &&& r' = r) (e d o m : Mask) :
    setsLeft r' e (setsLeft r e d o 0).1 (setsLeft r e d o 0).2 m = setsLeft r e d o m := by
  have hall : o &&& r &&& ~~~(0 : Mask) = o &&& r := by
    rw [show ~~~(0 : Mask) = BitVec.allOnes 64 from rfl, BitVec.and_allOnes]
  by_cases hc : o &&& r = 0 ∨ r &&& ~~~(d &&& e) = 0
  · have h0 : setsLeft r e d o 0 = (0, 0) := if_pos (hall.symm ▸ hc)
    have hm : setsLeft r e d o m = (0, 0) := if_pos (hc.imp_left fun h => by rw [h]; exact BitVec.zero_and)
    rw [h0, hm]
    exact if_pos (.inl (by rw [show (0 : Mask) &&& r' = 0 from BitVec.zero_and]; exact BitVec.zero_and))
  · have h0 : setsLeft r e d o 0 = (d &&& e, o &&& r) := by rw [setsLeft, hall, if_neg hc]
    have ho : o &&& r &&& r' = o &&& r := by rw [BitVec.and_assoc, h]
    have hd : d &&& e &&& e = d &&& e := by rw [BitVec.and_assoc, BitVec.and_self]
    have hr : r &&& ~~~(d &&& e) ≠ 0 := fun h => hc (.inr h)
    have hr' : r' &&& ~~~(d &&& e) ≠ 0 := fun h' => hr (by rw [← h, BitVec.and_assoc, h']; exact BitVec.and_zero)
    rw [h0, setsLeft, setsLeft, ho, hd]
    simp only [hr, hr', or_false]

/-! ### A group that is woken -/

/-- The task once the lanes of a wait have gone on behind its instruction, before they settle there. -/
def Task.resumed (t : Task) (w : Wait) : Task :=
  (({ t with waits := t.waits.filter (· ≠ w) } : Task).parkLanes w.lanes .none).advance w.lanes w.len.toNat

theorem Task.wake_eq (t : Task) (w : Wait) : t.wake w = (((t.resumed w).arrive w.lanes).leaveSets 0).releaseMeets := rfl

theorem Task.withLanes_congr (t : Task) {u v : Task} (hl : u.lanes = v.lanes) (hd : u.dset = v.dset) (ho : u.oset = v.oset) :
    t.withLanes u = t.withLanes v := by
  rw [Task.withLanes, Task.withLanes, hl, hd, ho]

/-- The lanes of a group that is woken are those of an issue that ends there. -/
theorem Task.lanes_wake (t : Task) (w : Wait) : (t.wake w).lanes = ((t.resumed w).settleLanes w.lanes).lanes := by
  generalize ha : (t.resumed w).arrive w.lanes = a
  rw [Task.wake_eq, Task.settleLanes, ha, Task.releaseMeets_lanes, Task.releaseMeets_lanes, Task.leaveSets_lanes, Task.leaveSets_lanes,
    Task.released_congr (t := a.leaveSets 0) (u := a.leaveSets w.lanes) (by rw [Task.leaveSets_lanes, Task.leaveSets_lanes])]

theorem Task.wake_rest (t : Task) (w : Wait) : t.wake w = (t.resumed w).withLanes (t.wake w) :=
  Task.lanes_trans (Task.lanes_trans (u := (t.resumed w).arrive w.lanes) rfl (Task.leaveSets_rest _ 0)) rfl

/-- The end of an issue adds nothing to the waking of its own group. -/
theorem Task.settleLanes_wake (t : Task) (w : Wait) : (t.wake w).settleLanes w.lanes = (t.resumed w).settleLanes w.lanes := by
  generalize ha : (t.resumed w).arrive w.lanes = a
  have harr : a.arrive w.lanes = a := by rw [← ha, Task.arrive_arrive]
  have hw : t.wake w = (a.leaveSets 0).releaseMeets := by rw [Task.wake_eq, ha]
  have hstay : ((t.wake w).arrive w.lanes).lanes = (t.wake w).lanes := by
    rw [hw]
    refine Task.lanes_arrive_releaseMeets ?_
    rw [Task.leaveSets_lanes, ← congrArg Task.lanes harr]
    simp [Task.arrive, Task.onLanes]
  have hagain : (t.wake w).arrive w.lanes = t.wake w :=
    (rfl : _ = (t.wake w).withLanes ((t.wake w).arrive w.lanes)).trans (Task.withLanes_congr (v := t.wake w) _ hstay rfl rfl)
  have hsets : (((t.wake w).leaveSets w.lanes).dset, ((t.wake w).leaveSets w.lanes).oset) =
      ((a.leaveSets w.lanes).dset, (a.leaveSets w.lanes).oset) := by
    rw [Task.sets_leaveSets, Task.sets_leaveSets, hw, Task.unexited_releaseMeets, Task.unexited_leaveSets]
    have hrun := (a.leaveSets 0).running_releaseMeets
    rw [Task.running_leaveSets] at hrun
    rw [← setsLeft_twice hrun, ← Task.sets_leaveSets]
    rfl
  obtain ⟨hd, ho⟩ := Prod.mk.inj hsets
  have hl : ((t.wake w).settleLanes w.lanes).lanes = ((t.resumed w).settleLanes w.lanes).lanes := by
    rw [← Task.lanes_wake, Task.settleLanes, hagain, Task.releaseMeets_lanes, Task.leaveSets_lanes,
      Task.released_congr (Task.leaveSets_lanes ..), ← Task.releaseMeets_lanes, hw, Task.lanes_releaseMeets_twice]
  refine (Task.lanes_trans (t.wake_rest w) (Task.settleLanes_rest ..)).trans (Eq.trans ?_ (Task.settleLanes_rest ..).symm)
  refine Task.withLanes_congr _ hl ?_ ?_
  · rw [Task.settleLanes, hagain, Task.settleLanes, ha]
    exact hd
  · rw [Task.settleLanes, hagain, Task.settleLanes, ha]
    exact ho

/-! ### A group that parks and is woken at once -/

/-- What waking leaves of the rest of a task. -/
theorem Task.wake_fields (t : Task) (w : Wait) : (t.wake w).alw = t.alw ∧ (t.wake w).sregs = t.sregs ∧ (t.wake w).vregs = t.vregs ∧
    (t.wake w).children = t.children ∧ (t.wake w).waits = t.waits.filter (· ≠ w) := by
  simp [Task.wake]

theorem filter_wait_append {ws : List Wait} {w : Wait} (h : w ∉ ws) : (ws ++ [w]).filter (· ≠ w) = ws := by
  have hws : ws.filter (· ≠ w) = ws := List.filter_eq_self.2 fun x hx => decide_eq_true (ne_of_mem_of_not_mem hx h)
  rw [List.filter_append, hws]
  simp

theorem Task.length_resumed (u : Task) (w : Wait) : (u.resumed w).lanes.length = u.lanes.length := by
  rw [Task.resumed, Task.advance, Task.length_onLanes, Task.parkLanes, Task.length_onLanes]

theorem Task.lane_resumed (u : Task) (w : Wait) {l : Nat} (hl : l < u.lanes.length) : (u.resumed w).lane l =
    if w.lanes.getLsbD l then { u.lane l with pc := (u.lane l).pc + BitVec.ofNat 32 w.len.toNat, park := .none } else u.lane l := by
  rw [Task.resumed, Task.lane_advance _ _ _ (by rw [Task.parkLanes, Task.length_onLanes]; exact hl), Task.parkLanes, Task.lane_onLanes]
  · split <;> rfl
  · exact hl

/-- A lane of a group that was running, once the group has parked and gone on. -/
theorem Task.lane_resumed_parked {t u : Task} {group : Mask} {w : Wait} {p : Park} {len l : Nat} (hrun : t.Unparked group)
    (hw : w.lanes = group) (hlen : w.len.toNat = len) (hu : u.lanes = (t.parkLanes group p).lanes) (hl : l < t.lanes.length) :
    (u.resumed w).lane l = t.moved group len l := by
  have hl' : l < u.lanes.length := by rw [hu, Task.parkLanes, Task.length_onLanes]; exact hl
  have hpark : u.lane l = (t.parkLanes group p).lane l := by rw [Task.lane, Task.lane, hu]
  rw [Task.lane_resumed u w hl', hw, hlen, hpark, Task.parkLanes, Task.lane_onLanes _ _ _ hl, Task.moved]
  split
  next h => rw [← hrun l hl h]
  · rfl

/-- A group that ran, parked and is woken has gone on as any other instruction leaves it. -/
theorem Task.woken_lanesMoved {t u : Task} {group : Mask} {w : Wait} {p : Park} {len : Nat} (hrun : t.Unparked group) (hw : w.lanes = group)
    (hlen : w.len.toNat = len) (hu : u.lanes = (t.parkLanes group p).lanes) (hd : u.dset = t.dset) (ho : u.oset = t.oset) :
    LanesMoved t ((u.wake w).settleLanes group) group len := by
  have hlanes : (u.resumed w).lanes.length = t.lanes.length := by
    rw [Task.length_resumed, hu, Task.parkLanes, Task.length_onLanes]
  have hsets : (u.resumed w).dset = t.dset ∧ (u.resumed w).oset = t.oset := by simp [Task.resumed, hd, ho]
  have hlane : ∀ l < t.lanes.length, LeftAs group (t.moved group len) (u.resumed w) l := fun l hl =>
    .inl (Task.lane_resumed_parked hrun hw hlen hu hl)
  have hsettle : (u.wake w).settleLanes group = (u.resumed w).settleLanes group := by rw [← hw, Task.settleLanes_wake]
  rw [hsettle]
  exact Task.settle_ends hlanes hsets.1 hsets.2 hlane

end Sys2Proof.Machine
end

