-- ==== Sys2Proof/Proofs/Joins.lean ====
section
/-! SUPPORT. JoinsReportChildren: which child JOINANY reports, what serving the joins of a task does to the last of its waits, and what a
report leaves of the task. -/

namespace Sys2Proof.Machine

variable {s : State} {tid : Nat} {t u : Task} {group : Mask} {g : Guard} {w : Wait}

/-! ### The child that is reported (R104, R120) -/

theorem Child.ready_of_final {c : Child} {f : Final} (hf : c.final = some f) (he : c.entries = []) (any : Bool) : c.ready any = true := by
  simp [Child.ready, hf, he]

theorem Child.ready_of_paused {c : Child} (hf : c.final = none) (hp : c.paused = true) : c.ready false = true := by
  simp [Child.ready, hf, hp]

theorem Child.not_ready_of_running {c : Child} (hf : c.final = none) (hp : c.paused = false) (any : Bool) : c.ready any = false := by
  simp [Child.ready, hf, hp]

/-- What JOINANY may report, JOIN may. -/
theorem Child.ready_false_of_ready {c : Child} {any : Bool} (h : c.ready any = true) : c.ready false = true := by
  revert h
  cases any
  · exact id
  · simp only [Child.ready]
    cases c.final
    · simp +contextual
    · simp

/-- The child received first, or with the lower handle, of the one found so far and another. -/
def firstReceived (a : Option Child) (c : Child) : Option Child :=
  match a with
  | none => some c
  | some b => if c.seq < b.seq || (c.seq = b.seq && c.handle.toNat < b.handle.toNat) then some c else a

/-- The child with the lower handle. -/
def lowerHandle (a : Option Child) (c : Child) : Option Child :=
  match a with
  | none => some c
  | some b => if c.handle.toNat < b.handle.toNat then some c else a

theorem chooses_firstReceived : Chooses firstReceived := fun a x => by
  cases a with
  | none => exact .inl rfl
  | some b =>
    dsimp only [firstReceived]
    split
    · exact .inl rfl
    · exact .inr ⟨rfl, rfl⟩

theorem chooses_lowerHandle : Chooses lowerHandle := fun a x => by
  cases a with
  | none => exact .inl rfl
  | some b =>
    dsimp only [lowerHandle]
    split
    · exact .inl rfl
    · exact .inr ⟨rfl, rfl⟩

theorem choosesBest_firstReceived : ChoosesBest firstReceived fun c d => c.seq ≤ d.seq := fun a x y h => by
  cases a with
  | none =>
    obtain rfl : x = y := Option.some.inj h
    exact ⟨Nat.le_refl _, fun z hz => nomatch hz⟩
  | some b =>
    dsimp only [firstReceived] at h
    split at h
    next hb =>
      obtain rfl : x = y := Option.some.inj h
      refine ⟨Nat.le_refl _, fun z hz => Option.some.inj hz ▸ ?_⟩
      simp only [Bool.or_eq_true, decide_eq_true_eq, Bool.and_eq_true] at hb
      omega
    next hb =>
      obtain rfl : b = y := Option.some.inj h
      simp only [Bool.or_eq_true, decide_eq_true_eq, Bool.and_eq_true, not_or, not_and] at hb
      exact ⟨by omega, fun z hz => Option.some.inj hz ▸ Nat.le_refl _⟩

/-- Outside a deterministic launch JOINANY reports the child received first. -/
theorem Task.anyChild_first {c : Child} (hdet : t.det = false) (hc : c ∈ t.children) (hr : c.ready true = true)
    (hfirst : ∀ d ∈ t.children, d ≠ c → d.ready true = true → c.seq < d.seq) : t.anyChild = some c := by
  simp only [Task.anyChild, hdet, Bool.false_eq_true, if_false]
  have hmem : c ∈ t.children.filter (·.ready true) := List.mem_filter.2 ⟨hc, hr⟩
  obtain ⟨d, hd⟩ := Option.isSome_iff_exists.1 ((chooses_firstReceived.isSome_iff _).2 (List.ne_nil_of_mem hmem))
  have hle := (choosesBest_firstReceived.foldl (fun _ => Nat.le_refl _) (fun _ _ _ => Nat.le_trans) chooses_firstReceived.step_isSome hd).1 c hmem
  obtain ⟨hdc, hdr⟩ := List.mem_filter.1 (chooses_firstReceived.mem hd)
  by_cases e : d = c
  · exact e ▸ hd
  · exact absurd (hfirst d hdc e hdr) (Nat.not_lt.2 hle)

/-- Where no child may be reported JOINANY finds none. -/
theorem Task.anyChild_none (h : ∀ c ∈ t.children, c.ready false = false) : t.anyChild = none := by
  unfold Task.anyChild
  split
  · split
    next c hc =>
      have := h c (chooses_lowerHandle.mem hc)
      rw [if_neg (by simp [this])]
    · rfl
  · have : t.children.filter (·.ready true) = [] := List.filter_eq_nil_iff.2 fun c hc hr => by
      have := h c hc
      simp [Child.ready_false_of_ready hr] at this
    rw [this]
    rfl

/-! ### Serving the joins of a task (R120) -/

/-- What serving the joins of a task does to one of its waits. -/
def State.serveJoin (tid : Nat) (s : State) (w : Wait) : State :=
  match s.task? tid with
  | none => s
  | some t => match w.kind with
    | .join h dst => match t.child? h with
      | none => s.updTask tid fun t => (t.joinResult dst h 0xFF 0).wake w
      | some c => if c.ready false then s.report tid w dst c else s
    | .joinAny dst =>
      if t.children.isEmpty then s.updTask tid fun t => (t.joinResult dst 0xFFFFFFFF 0xFF 0).wake w
      else match t.anyChild with
        | some c => s.report tid w dst c
        | none => s
    | _ => s

theorem State.serveJoins_eq (ht : s.task? tid = some u) : s.serveJoins tid = u.waits.foldl (State.serveJoin tid) s := by
  unfold State.serveJoins
  rw [ht]
  rfl

/-- A wait of a task that is no JOIN or JOINANY, or a JOIN of a child that may not be reported yet. -/
def Task.Idles (u : Task) (w : Wait) : Prop :=
  match w.kind with
  | .join h _ => ∃ c, u.child? h = some c ∧ c.ready false = false
  | .joinAny _ => False
  | _ => True

theorem State.serveJoin_of_idle (ht : s.task? tid = some u) (h : u.Idles w) : s.serveJoin tid w = s := by
  unfold State.serveJoin
  rw [ht]
  unfold Task.Idles at h
  split
  · rfl
  next v hv =>
    obtain rfl := Option.some.inj hv
    split
    next h' _ hk =>
      rw [hk] at h
      obtain ⟨c, hc, hr⟩ := h
      simp [hc, hr]
    next hk =>
      rw [hk] at h
      exact h.elim
    · rfl

/-- Serving the joins of a task comes to serving the last of its waits, where the others stay. -/
theorem State.serveJoins_last {ws : List Wait} (ht : s.task? tid = some u) (hu : u.waits = ws ++ [w]) (h : ∀ v ∈ ws, u.Idles v) :
    s.serveJoins tid = s.serveJoin tid w := by
  rw [State.serveJoins_eq ht, hu, List.foldl_append, foldl_stays fun v hv => State.serveJoin_of_idle ht (h v hv)]
  rfl

section
variable {dst : Fin 64} (ht : s.task? tid = some u)
include ht

theorem State.serveJoin_unknown {h : BitVec 32} (hk : w.kind = .join h dst) (hc : u.child? h = none) :
    s.serveJoin tid w = s.updTask tid fun t => (t.joinResult dst h 0xFF 0).wake w := by
  simp [State.serveJoin, ht, hk, hc]

theorem State.serveJoin_ready {h : BitVec 32} {c : Child} (hk : w.kind = .join h dst) (hc : u.child? h = some c) (hr : c.ready false = true) :
    s.serveJoin tid w = s.report tid w dst c := by
  simp [State.serveJoin, ht, hk, hc, hr]

theorem State.serveJoin_childless (hk : w.kind = .joinAny dst) (hc : u.children = []) :
    s.serveJoin tid w = s.updTask tid fun t => (t.joinResult dst 0xFFFFFFFF 0xFF 0).wake w := by
  simp [State.serveJoin, ht, hk, hc]

theorem State.serveJoin_any {c : Child} (hk : w.kind = .joinAny dst) (hc : u.anyChild = some c) (hne : u.children ≠ []) :
    s.serveJoin tid w = s.report tid w dst c := by
  simp [State.serveJoin, ht, hk, hc, hne]

theorem State.serveJoin_none (hk : w.kind = .joinAny dst) (hc : u.anyChild = none) (hne : u.children ≠ []) : s.serveJoin tid w = s := by
  simp [State.serveJoin, ht, hk, hc, hne]

/-! ### Reports -/

/-- A task that a JOIN of a handle ends for, with the children that it has then. -/
def Task.joined (u : Task) (w : Wait) (dst : Fin 64) (h : BitVec 32) (st rest : BitVec 64) (cs : List Child) : Task :=
  { (u.joinResult dst h st rest).wake w with children := cs }

/-- The report of a child with its final status. -/
theorem State.task?_report_final {c : Child} {f : Final} (hf : c.final = some f) :
    (s.report tid w dst c).task? tid = some ((u.credit c.remainder).joined w dst c.handle f.code c.remainder
      (u.children.filter fun d => d.handle ≠ c.handle)) := by
  have hchildren : (((u.credit c.remainder).joinResult dst c.handle f.code c.remainder).wake w).children = u.children := by
    rw [(Task.wake_fields ..).2.2.2.1]
    unfold Task.joinResult
    split <;> simp
  unfold State.report
  split
  rotate_left
  next hn => cases hn.symm.trans hf
  next f' hf' =>
  obtain rfl := Option.some.inj (hf'.symm.trans hf)
  extract_lets s1 s2
  have h1 : s1.task? tid = some (((u.credit c.remainder).joinResult dst c.handle f'.code c.remainder).wake w) :=
    State.task?_updTask_self (fun t => ((t.credit c.remainder).joinResult dst c.handle f'.code c.remainder).wake w) (fun _ => by simp) ht
  have h2 : s2.task? tid = some ((u.credit c.remainder).joined w dst c.handle f'.code c.remainder
      (u.children.filter fun d => d.handle ≠ c.handle)) := by
    rw [← hchildren]
    exact State.task?_updTask_self (fun t => { t with children := t.children.filter fun d => d.handle ≠ c.handle }) (fun _ => rfl) h1
  rw [h2]
  exact (congrArg (List.find? _) (State.acquireOf_tasks ..)).trans h2

/-- The report of a pause. -/
theorem State.task?_report_paused {c : Child} (hf : c.final = none) : (s.report tid w dst c).task? tid = some (u.joined w dst c.handle 2 0
    (u.children.map fun d => if d.handle = c.handle then { d with reported := true } else d)) := by
  have hchildren : ((u.joinResult dst c.handle 2 0).wake w).children = u.children := by
    rw [(Task.wake_fields ..).2.2.2.1]
    unfold Task.joinResult
    split <;> simp
  unfold State.report
  rw [hf, ← hchildren]
  exact State.task?_updTask_self (fun t => ((t.joinResult dst c.handle 2 0).wake w).setChild c.handle fun d => { d with reported := true })
    (fun _ => by simp [Task.setChild]) ht

end

/-! ### What a report leaves of the task -/

theorem Task.joinResult_rest (u : Task) (dst : Fin 64) (h : BitVec 32) (st rest : BitVec 64) :
    u.joinResult dst h st rest = { u with sregs := (u.joinResult dst h st rest).sregs } := by
  have hset : ∀ (v : Task) (r : Fin 64) (x : BitVec 64), v.setS r x = { v with sregs := (v.setS r x).sregs } := fun v r x => by
    unfold Task.setS
    split <;> rfl
  unfold Task.joinResult
  dsimp only
  split
  · rw [hset (u.setS ..), hset u]
  · rw [hset u]

/-- The registers of a JOIN's result: handle and status, and the remainder behind them; s63 stays zero (R33, R120). -/
theorem Task.sreg_joinResult (u : Task) (dst : Fin 64) (h : BitVec 32) (st rest : BitVec 64) (r : Fin 64) :
    (u.joinResult dst h st rest).sreg r = if r = 63 then (0 : BitVec 64) else if r.val = dst.val + 1 then rest
      else if r = dst then h.setWidth 64 <<< 32 ||| st else u.sreg r := by
  by_cases h63 : r = 63
  · rw [if_pos h63, h63]
    rfl
  rw [if_neg h63]
  unfold Task.joinResult
  dsimp only
  split
  next hd =>
    rw [Task.sreg_setS, Task.sreg_setS]
    by_cases h1 : r.val = dst.val + 1
    · have e : r = ⟨dst.val + 1, hd⟩ := Fin.ext h1
      rw [if_pos ⟨e, e ▸ h63⟩, if_pos h1]
    · rw [if_neg fun e => h1 (congrArg Fin.val e.1), if_neg h1]
      exact if_congr (and_iff_left_of_imp fun e => e ▸ h63) rfl rfl
  next hd =>
    rw [Task.sreg_setS, if_neg (show ¬ r.val = dst.val + 1 by omega)]
    exact if_congr (and_iff_left_of_imp fun e => e ▸ h63) rfl rfl

/-- The children of a task play no part in the sets D and O. -/
theorem Task.leaveSets_withChildren (t : Task) (m : Mask) (cs : List Child) :
    ({ t with children := cs } : Task).leaveSets m = { t.leaveSets m with children := cs } := by
  rw [Task.leaveSets_eq t]
  by_cases h : t.oset &&& t.running &&& ~~~m = 0 ∨ t.running &&& ~~~(t.dset &&& t.unexited) = 0
  · rw [if_pos h]
    exact (Task.leaveSets_eq ..).trans (if_pos h)
  · rw [if_neg h]
    exact (Task.leaveSets_eq ..).trans (if_neg h)

theorem Task.wake_withChildren (u : Task) (w : Wait) (cs : List Child) :
    ({ u with children := cs } : Task).wake w = { u.wake w with children := cs } :=
  congrArg Task.releaseMeets (Task.leaveSets_withChildren ((u.resumed w).arrive w.lanes) 0 cs)

/-- Its report ends a JOIN of a group that parked on it: registers, account, children and lanes. -/
theorem Task.joined_spec {u : Task} {len : Nat} {p : Park} (hrun : t.Unparked group) (hw : w.lanes = group) (hlen : w.len.toNat = len)
    (hnew : w ∉ t.waits) {a : BitVec 64} (hu : u = { (t.paid 4 group).hold w p with alw := a }) (dst : Fin 64) (h : BitVec 32) (st rest : BitVec 64)
    (cs : List Child) :
    let t' := (u.joined w dst h st rest cs).settleLanes group
    (t'.waits = t.waits ∧ t'.alw = a ∧ LanesMoved t t' group len) ∧ t'.children = cs ∧
      ∀ r : Fin 64, t'.sreg r = if r = 63 then (0 : BitVec 64) else if r.val = dst.val + 1 then rest
        else if r = dst then h.setWidth 64 <<< 32 ||| st else t.sreg r := by
  intro t'
  rw [Task.paid_eq] at hu
  obtain ⟨halw, hsregs, -, -, hwaits⟩ := (u.joinResult dst h st rest).wake_fields w
  have hrest := u.joinResult_rest dst h st rest
  have hfields : (u.joinResult dst h st rest).alw = a ∧ (u.joinResult dst h st rest).waits = t.waits ++ [w] := by
    rw [hrest, hu]
    exact ⟨rfl, rfl⟩
  refine ⟨⟨?_, ?_, ?_⟩, by simp [t', Task.joined], fun r => ?_⟩
  · rw [show t'.waits = ((u.joinResult dst h st rest).wake w).waits by simp [t', Task.joined], hwaits, hfields.2]
    exact filter_wait_append hnew
  · rw [show t'.alw = ((u.joinResult dst h st rest).wake w).alw by simp [t', Task.joined], halw, hfields.1]
  · rw [show t' = (({ u.joinResult dst h st rest with children := cs } : Task).wake w).settleLanes group by
      rw [Task.wake_withChildren]; rfl]
    refine Task.woken_lanesMoved (p := p) hrun hw hlen ?_ ?_ ?_
    · rw [hrest, hu, ← hw]
      rfl
    · rw [hrest, hu]
      rfl
    · rw [hrest, hu]
      rfl
  · have hregs : t'.sreg r = (u.joinResult dst h st rest).sreg r := by
      rw [Task.sreg, Task.sreg, ← hsregs]
      simp [t', Task.joined]
    have hold : u.sreg r = t.sreg r := by rw [hu]; rfl
    rw [hregs, Task.sreg_joinResult, hold]

/-! ### Instructions (R120) -/

theorem Task.joined_own (u : Task) (w : Wait) (dst : Fin 64) (h : BitVec 32) (st rest : BitVec 64) :
    (u.joinResult dst h st rest).wake w = u.joined w dst h st rest u.children := by
  have hchildren : ((u.joinResult dst h st rest).wake w).children = u.children := by
    rw [(Task.wake_fields ..).2.2.2.1, Task.joinResult_rest]
  rw [Task.joined, ← hchildren]

theorem State.task?_joined_own (hu : s.task? tid = some u) (dst : Fin 64) (h : BitVec 32) (st rest : BitVec 64) :
    (s.updTask tid fun t => (t.joinResult dst h st rest).wake w).task? tid = some (u.joined w dst h st rest u.children) := by
  rw [← Task.joined_own]
  exact State.task?_updTask_self (fun t => (t.joinResult dst h st rest).wake w) (fun _ => by simp) hu

section
variable (hi : Issues s tid t group) (hact : t.guarded g group ≠ 0) (ha : 4 ≤ t.alw.toNat)
include hi hact ha

theorem exec_join (dst h : Fin 64) : exec (.join g dst h) s =
    .next ((((s.paid tid group 4 0).parked tid t group 8 (.join ((t.rdS s.tick h).setWidth 32) dst) .join).serveJoins tid).ended tid group) := by
  rw [exec_of_uniform (i := .join g dst h) hi hact (by simp only [exec]; rfl) rfl ha, Ctx.hold_eq hi, hi.ctx_tid]
  rfl

theorem exec_joinany (dst : Fin 64) : exec (.joinany g dst) s =
    .next ((((s.paid tid group 4 0).parked tid t group 8 (.joinAny dst) .join).serveJoins tid).ended tid group) := by
  rw [exec_of_uniform (i := .joinany g dst) hi hact (by simp only [exec]; rfl) rfl ha, Ctx.hold_eq hi, hi.ctx_tid]

end

/-- The task while its group is parked on a join. -/
def Task.joining (t : Task) (group : Mask) (k : WaitKind) : Task := (t.paid 4 group).hold (t.waitOf group 8 k) .join

@[simp] theorem Task.joining_children (t : Task) (group : Mask) (k : WaitKind) : (t.joining group k).children = t.children := by
  simp [Task.joining, Task.paid]

@[simp] theorem Task.joining_child? (t : Task) (group : Mask) (k : WaitKind) (h : BitVec 32) : (t.joining group k).child? h = t.child? h := by
  rw [Task.child?, Task.child?, Task.joining_children]

@[simp] theorem Task.joining_anyChild (t : Task) (group : Mask) (k : WaitKind) : (t.joining group k).anyChild = t.anyChild := by
  have hdet : (t.joining group k).det = t.det := by simp [Task.joining, Task.paid]
  rw [Task.anyChild, Task.anyChild, Task.joining_children, hdet]

theorem Task.joining_waits (t : Task) (group : Mask) (k : WaitKind) : (t.joining group k).waits = t.waits ++ [t.waitOf group 8 k] := by
  simp [Task.joining, Task.hold, Task.paid]

theorem Task.joining_idles {t : Task} (group : Mask) (k : WaitKind) {w : Wait} (h : t.Idles w) : (t.joining group k).Idles w := by
  simpa only [Task.Idles, Task.joining_child?] using h

/-- The state once a join of the group has parked and the joins of its task have been served. -/
def State.joinServed (s : State) (tid : Nat) (t : Task) (group : Mask) (k : WaitKind) : State :=
  ((s.paid tid group 4 0).parked tid t group 8 k .join).serveJoins tid

/-- A join of the group has ended with a report: the group has gone on, and the registers hold handle and status and the remainder. -/
structure Task.Reported (t t' : Task) (group : Mask) (dst : Fin 64) (h : BitVec 32) (st rest more : BitVec 64) (cs : List Child) : Prop where
  goes : t'.waits = t.waits ∧ t'.alw = t.alw - 4 + more ∧ LanesMoved t t' group 8
  children : t'.children = cs
  writes : ∀ r : Fin 64, t'.sreg r = if r = 63 then (0 : BitVec 64) else if r.val = dst.val + 1 then rest
    else if r = dst then h.setWidth 64 <<< 32 ||| st else t.sreg r

/-- A join of the group waits. -/
def Task.Stays (t t' : Task) (group : Mask) (k : WaitKind) : Prop :=
  t'.alw = t.alw - 4 ∧ t'.sregs = t.sregs ∧ t'.children = t.children ∧
    ∃ w, t'.waits = t.waits ++ [w] ∧ w.lanes = group ∧ w.pc = t.groupPc group ∧ w.kind = k

theorem Task.joining_stays (t : Task) (group : Mask) (k : WaitKind) : t.Stays ((t.joining group k).settleLanes group) group k := by
  obtain ⟨halw, hsregs, -, hchildren, hwaits⟩ := t.held_stays 4 group (t.waitOf group 8 k) .join
  exact ⟨halw, hsregs, hchildren, _, hwaits, rfl, rfl, rfl⟩

section
variable {k : WaitKind} (hrun : t.Unparked group) (hnew : t.waitOf group 8 k ∉ t.waits) (dst : Fin 64) (h : BitVec 32) (st rest : BitVec 64)
  (cs : List Child)
include hrun hnew

/-- A report that credits nothing. -/
theorem Task.joining_reported :
    t.Reported (((t.joining group k).joined (t.waitOf group 8 k) dst h st rest cs).settleLanes group) group dst h st rest 0 cs := by
  have hu : t.joining group k = { (t.paid 4 group).hold (t.waitOf group 8 k) .join with alw := t.alw - 4 + 0 } := by
    rw [show t.alw - 4 + 0 = t.alw - 4 by simp, Task.joining, Task.paid_eq]
    rfl
  obtain ⟨hg, hc, hr⟩ := Task.joined_spec hrun rfl rfl hnew hu dst h st rest cs
  exact ⟨hg, hc, hr⟩

/-- A report that credits the child's remainder. -/
theorem Task.credited_reported (a : BitVec 64) : t.Reported ((((t.joining group k).credit a).joined (t.waitOf group 8 k) dst h st rest cs).settleLanes
    group) group dst h st rest a cs := by
  have hu : (t.joining group k).credit a = { (t.paid 4 group).hold (t.waitOf group 8 k) .join with alw := t.alw - 4 + a } := by
    rw [Task.joining, Task.paid_eq]
    rfl
  obtain ⟨hg, hc, hr⟩ := Task.joined_spec hrun rfl rfl hnew hu dst h st rest cs
  exact ⟨hg, hc, hr⟩
end

section
variable {k : WaitKind} (hi : Issues s tid t group) (hidle : ∀ v ∈ t.waits, t.Idles v)
include hi

theorem Issues.task?_joining (k : WaitKind) :
    ((s.paid tid group 4 0).parked tid t group 8 k .join).task? tid = some (t.joining group k) :=
  State.task?_parked (State.task?_paid hi.2) ..

/-- Serving its joins leaves a task. -/
theorem Issues.joinServed_task (k : WaitKind) : ∃ v, (s.joinServed tid t group k).task? tid = some v := by
  obtain ⟨v, hv, -⟩ := (State.serveJoins_ownStep _ tid).kept tid _ (hi.task?_joining k)
  exact ⟨v, hv⟩

include hidle

/-- Where no earlier wait of the task can be served, the wait of the group is. -/
theorem Issues.joinServed_eq (k : WaitKind) : s.joinServed tid t group k =
    ((s.paid tid group 4 0).parked tid t group 8 k .join).serveJoin tid (t.waitOf group 8 k) :=
  State.serveJoins_last (hi.task?_joining k) (t.joining_waits group k) fun v hv => Task.joining_idles group k (hidle v hv)

variable {dst : Fin 64} {h : BitVec 32} {c : Child} {f : Final}

/-- JOIN of a handle that names no child. -/
theorem joinServed_unknown (hc : t.child? h = none) : (s.joinServed tid t group (.join h dst)).task? tid =
    some ((t.joining group (.join h dst)).joined (t.waitOf group 8 (.join h dst)) dst h 0xFF 0 t.children) := by
  rw [hi.joinServed_eq hidle, State.serveJoin_unknown (w := t.waitOf group 8 (.join h dst)) (hi.task?_joining _) rfl (by simpa using hc),
    State.task?_joined_own (hi.task?_joining _), Task.joining_children]

/-- JOIN of a child with its final status. -/
theorem joinServed_final (hc : t.child? h = some c) (hf : c.final = some f) (he : c.entries = []) :
    (s.joinServed tid t group (.join h dst)).task? tid =
      some (((t.joining group (.join h dst)).credit c.remainder).joined (t.waitOf group 8 (.join h dst)) dst h f.code c.remainder
        (t.children.filter fun d => d.handle ≠ h)) := by
  obtain rfl : c.handle = h := by simpa using List.find?_some hc
  rw [hi.joinServed_eq hidle, State.serveJoin_ready (w := t.waitOf group 8 (.join c.handle dst)) (hi.task?_joining _) rfl (by simpa using hc)
    (Child.ready_of_final hf he false), State.task?_report_final (hi.task?_joining _) hf, Task.joining_children]

/-- JOIN of a paused child. -/
theorem joinServed_paused (hc : t.child? h = some c) (hf : c.final = none) (hp : c.paused = true) :
    (s.joinServed tid t group (.join h dst)).task? tid =
      some ((t.joining group (.join h dst)).joined (t.waitOf group 8 (.join h dst)) dst h 2 0
        (t.children.map fun d => if d.handle = h then { d with reported := true } else d)) := by
  obtain rfl : c.handle = h := by simpa using List.find?_some hc
  rw [hi.joinServed_eq hidle, State.serveJoin_ready (w := t.waitOf group 8 (.join c.handle dst)) (hi.task?_joining _) rfl (by simpa using hc)
    (Child.ready_of_paused hf hp), State.task?_report_paused (hi.task?_joining _) hf, Task.joining_children]

/-- JOIN of a child that runs. -/
theorem joinServed_running (hc : t.child? h = some c) (hf : c.final = none) (hp : c.paused = false) :
    (s.joinServed tid t group (.join h dst)).task? tid = some (t.joining group (.join h dst)) := by
  have hidles : (t.joining group (.join h dst)).Idles (t.waitOf group 8 (.join h dst)) :=
    Task.joining_idles (t := t) group _ ⟨c, hc, Child.not_ready_of_running hf hp false⟩
  rw [hi.joinServed_eq hidle, State.serveJoin_of_idle (hi.task?_joining _) hidles, hi.task?_joining]

/-- JOINANY where no child is outstanding. -/
theorem anyServed_childless (hc : t.children = []) : (s.joinServed tid t group (.joinAny dst)).task? tid =
    some ((t.joining group (.joinAny dst)).joined (t.waitOf group 8 (.joinAny dst)) dst 0xFFFFFFFF 0xFF 0 t.children) := by
  rw [hi.joinServed_eq hidle, State.serveJoin_childless (w := t.waitOf group 8 (.joinAny dst)) (hi.task?_joining _) rfl (by simpa using hc),
    State.task?_joined_own (hi.task?_joining _), Task.joining_children]

/-- JOINANY of the child with a final status that was received first. -/
theorem anyServed_first (hdet : t.det = false) (hc : c ∈ t.children) (hf : c.final = some f) (he : c.entries = [])
    (hfirst : ∀ d ∈ t.children, d ≠ c → d.ready true = true → c.seq < d.seq) :
    (s.joinServed tid t group (.joinAny dst)).task? tid =
      some (((t.joining group (.joinAny dst)).credit c.remainder).joined (t.waitOf group 8 (.joinAny dst)) dst c.handle f.code c.remainder
        (t.children.filter fun d => d.handle ≠ c.handle)) := by
  have hany : t.anyChild = some c := Task.anyChild_first hdet hc (Child.ready_of_final hf he true) hfirst
  rw [hi.joinServed_eq hidle, State.serveJoin_any (w := t.waitOf group 8 (.joinAny dst)) (hi.task?_joining _) rfl (by simpa using hany)
    (by simpa using List.ne_nil_of_mem hc), State.task?_report_final (hi.task?_joining _) hf, Task.joining_children]

/-- JOINANY where no child may be reported. -/
theorem anyServed_none (hne : t.children ≠ []) (hc : ∀ c ∈ t.children, c.ready false = false) :
    (s.joinServed tid t group (.joinAny dst)).task? tid = some (t.joining group (.joinAny dst)) := by
  have hany : t.anyChild = none := Task.anyChild_none hc
  rw [hi.joinServed_eq hidle, State.serveJoin_none (w := t.waitOf group 8 (.joinAny dst)) (hi.task?_joining _) rfl (by simpa using hany)
    (by simpa using hne),
    hi.task?_joining]

end

end Sys2Proof.Machine
end

section
open Sys2Proof Sys2Proof.Machine

/-- Settles O15: the group parks behind the waits that stay, so that its own is the one that is served, by what has become of the child. -/
theorem joinsReportChildren : Obligations.JoinsReportChildren := by
  unfold Obligations.JoinsReportChildren
  intro s tid t group g dst h hi ha hact handle
  refine ⟨exec_join hi hact ha dst h, exec_joinany hi hact ha dst, ?_⟩
  intro writes goes stays hrun
  constructor
  · intro hwaits
    have hidle : ∀ v ∈ t.waits, t.Idles v := fun v hv => by
      have := hwaits v hv
      unfold Task.Idles
      split
      next hk => rw [hk] at this; exact this.2
      next hk => rw [hk] at this; exact this
      · trivial
    have hnew : t.waitOf group 8 (.join handle dst) ∉ t.waits := fun hm => (hwaits _ hm).1 rfl
    obtain ⟨v, hv⟩ := hi.joinServed_task (.join handle dst)
    have result : ∀ {u : Task}, (s.joinServed tid t group (.join handle dst)).task? tid = some u → v = u := fun hu =>
      Option.some.inj (hv.symm.trans hu)
    refine ⟨_, v.settleLanes group, exec_join hi hact ha dst h, State.task?_ended hv, fun hc => ?_, fun c f hc hf he => ?_,
      fun c hc hf hp => ?_, fun c hc hf hp => ?_⟩
    · rw [result (joinServed_unknown hi hidle hc)]
      obtain ⟨hg, hcs, hr⟩ := Task.joining_reported hrun hnew dst handle 0xFF 0 t.children
      exact ⟨hg, hcs, hr⟩
    · rw [result (joinServed_final hi hidle hc hf he)]
      obtain ⟨hg, hcs, hr⟩ := Task.credited_reported hrun hnew dst handle f.code c.remainder (t.children.filter fun d => d.handle ≠ handle)
        c.remainder
      exact ⟨hg, hcs, hr⟩
    · rw [result (joinServed_paused hi hidle hc hf hp)]
      obtain ⟨hg, hcs, hr⟩ := Task.joining_reported hrun hnew dst handle 2 0
        (t.children.map fun d => if d.handle = handle then { d with reported := true } else d)
      exact ⟨hg, hcs, hr⟩
    · rw [result (joinServed_running hi hidle hc hf hp)]
      exact t.joining_stays group _
  · intro hwaits
    have hidle : ∀ v ∈ t.waits, t.Idles v := fun v hv => by
      have := hwaits v hv
      unfold Task.Idles
      split
      next hk => rw [hk] at this; exact this.elim
      next hk => rw [hk] at this; exact this
      · trivial
    have hnew : t.waitOf group 8 (.joinAny dst) ∉ t.waits := fun hm => hwaits _ hm
    obtain ⟨v, hv⟩ := hi.joinServed_task (.joinAny dst)
    have result : ∀ {u : Task}, (s.joinServed tid t group (.joinAny dst)).task? tid = some u → v = u := fun hu =>
      Option.some.inj (hv.symm.trans hu)
    refine ⟨_, v.settleLanes group, exec_joinany hi hact ha dst, State.task?_ended hv, fun hc => ?_, fun c f hdet hc hf he hfirst => ?_,
      fun hne hc => ?_⟩
    · rw [result (anyServed_childless hi hidle hc)]
      obtain ⟨hg, hcs, hr⟩ := Task.joining_reported hrun hnew dst 0xFFFFFFFF 0xFF 0 t.children
      exact ⟨hg, hcs.trans hc, hr⟩
    · rw [result (anyServed_first hi hidle hdet hc hf he hfirst)]
      obtain ⟨hg, hcs, hr⟩ := Task.credited_reported hrun hnew dst c.handle f.code c.remainder (t.children.filter fun d => d.handle ≠ c.handle)
        c.remainder
      exact ⟨hg, hcs, hr⟩
    · rw [result (anyServed_none hi hidle hne hc)]
      exact t.joining_stays group _
end

