-- ==== Sys2Proof/Proofs/Account.lean ====
section
/-! SUPPORT. AccountPriorityAndPlies, the account and the priority: ALWRD reads behind its own charge, SETPRI sets a task's priority. -/

namespace Sys2Proof.Machine

variable {s : State} {tid : Nat} {t : Task} {group : Mask} {g : Guard} {cost len : Nat}

/-- The task behind an effect that leaves it as f, and its group's going on. -/
theorem State.task?_gone {s1 : State} {f : Task → Task} (h : s1.task? tid = some (f (t.paid cost group))) :
    ((s1.goneOn tid group len).ended tid group).task? tid = some (t.simply cost group len f) :=
  State.task?_ended (State.task?_goneOn h)

theorem State.task?_gone_ne (s1 : State) (group : Mask) (len : Nat) {j : Nat} (hj : j ≠ tid) :
    ((s1.goneOn tid group len).ended tid group).task? j = s1.task? j :=
  (State.task?_ended_ne _ group hj).trans (State.task?_goneOn_ne s1 group len hj)

/-! ### ALWRD (R123) -/

/-- The completion of an ALU instruction speaks of what becomes of the task alone. -/
theorem AluDone.of_task {s1 s2 : State} {u : Task} {act : Mask} {ty : Ty} {dst : Reg} {f : Nat → Nat × FFlags}
    (h : AluDone s s1 tid t group act len cost ty dst f) (h1 : s1.task? tid = some u) (h2 : OnlyTask s s2 tid u) :
    AluDone s s2 tid t group act len cost ty dst f := by
  obtain ⟨t', ⟨-, ht', -⟩, hrest⟩ := h
  obtain rfl := Option.some.inj (ht'.symm.trans h1)
  exact ⟨t', h2, hrest⟩

/-- A uniform instruction that writes a result read from the charged task completes as an ALU instruction does. -/
theorem uniform_reads {plan : Ctx → Plan} {dst : Fin 64} {f : Task → BitVec 64} {x : BitVec 64} (hi : Issues s tid t group)
    (hp : plan (Ctx.of s t group g len) = (Ctx.of s t group g len).simple cost fun u => u.wrS dst (f u))
    (hx : f (t.paid cost group) = x) (hact : t.guarded g group ≠ 0) (ha : cost ≤ t.alw.toNat) :
    ∃ s', issue s len g plan = .next s' ∧ AluDone s s' tid t group (t.guarded g group) len cost .n64 (.s dst) fun _ => (x.toNat, 0) := by
  have hid : ∀ F : Task → BitVec 64, ∀ u : Task, (u.simply cost group len fun u => u.wrS dst (F u)).id = u.id := fun F u => by
    simp [Task.simply]
  obtain ⟨s1, h1, hdone⟩ := uniform_done (g := g) (len := len) (plan := fun c => c.simple cost fun u => u.wrS dst x) hi dst x rfl hact ha
  rw [issue_simple hi.1 hi.2 rfl (fun u => by simp) ha] at h1
  obtain rfl := Host.Outcome.next.inj h1
  refine ⟨_, issue_simple hi.1 hi.2 hp (fun u => by simp) ha, ?_⟩
  refine hdone.of_task (State.task?_updTask_self _ (hid fun _ => x) hi.2) ⟨rfl, ?_, fun j hj => State.task?_updTask_ne _ _ _ (hid f) hj⟩
  rw [State.task?_updTask_self _ (hid f) hi.2, Task.simply, ← Task.paid, hx]
  rfl

theorem alwrd_computes (hi : Issues s tid t group) (hact : t.guarded g group ≠ 0) (ha : 1 ≤ t.alw.toNat) (held : Bool) (dst : Fin 64) :
    Computes s tid t group g (.alwrd g held dst) 8 .n64 (.s dst) fun _ => ((if held then t.held else t.alw - 1).toNat, 0) := by
  have he : exec (.alwrd g held dst) s = execAlwrd g held dst s := rfl
  unfold Computes
  rw [he]
  refine uniform_reads (f := fun u => if held then u.held else u.alw) hi (Ctx.uniform_of_act hact _ _) ?_ hact ha
  rw [Task.paid_eq]
  rfl

/-! ### SETPRI (R110, R125) -/

section
variable (hi : Issues s tid t group) (hact : t.guarded g group ≠ 0) (ha : 4 ≤ t.alw.toNat)
include hi hact ha

theorem setpri_own (p : BitVec 2) : ∃ s', exec (.setpri g none p) s = .next s' ∧
    TaskDone s s' tid t { t with prio := if t.ceil.toNat < p.toNat then t.ceil else p } group 8 4 := by
  have he : exec (.setpri g none p) s = execSetpri g none p s := rfl
  rw [he]
  refine simple_done (f := fun u => { u with prio := capPrio p u.ceil }) hi ((Ctx.uniform_of_act hact _ _).trans ?_) ha (fun _ => rfl)
    (by rw [Task.charge_zero]; rfl) fun _ => ⟨rfl, rfl, rfl⟩
  exact congrArg (Plan.go 4 0) (funext fun s1 => State.updTask_updTask _ _ _ _ fun _ => rfl)

/-- A handle that names no child, or one that has its final status, sets nothing. -/
theorem setpri_nobody {h : Fin 64} (hc : t.child? ((t.rdS s.tick h).setWidth 32) = none ∨
    ∃ c, t.child? ((t.rdS s.tick h).setWidth 32) = some c ∧ c.final ≠ none) (p : BitVec 2) :
    ∃ s', exec (.setpri g (some h) p) s = .next s' ∧ TaskDone s s' tid t t group 8 4 := by
  have he : exec (.setpri g (some h) p) s = execSetpri g (some h) p s := rfl
  rw [he]
  refine idle_done hi ((Ctx.uniform_of_act hact _ _).trans ?_) ha
  have hh : (Ctx.of s t group g 8).t.child? ((Ctx.of s t group g 8).handle h) = t.child? ((t.rdS s.tick h).setWidth 32) := rfl
  refine congrArg (Plan.go 4 0) (funext fun s1 => ?_)
  dsimp only
  rw [hh]
  refine congrArg (Ctx.next _) ?_
  rcases hc with hc | ⟨c, hc, hf⟩
  · rw [hc]
  · rw [hc]
    exact if_pos (Option.isSome_iff_ne_none.2 hf)

theorem setpri_child {h : Fin 64} {c : Child} {k : Task} (hc : t.child? ((t.rdS s.tick h).setWidth 32) = some c) (hf : c.final = none)
    (hk : s.task? c.task = some k) (hne : c.task ≠ tid) (p : BitVec 2) :
    ∃ s' t', exec (.setpri g (some h) p) s = .next s' ∧ s'.task? tid = some t' ∧ t.After t t' group 8 4 ∧
      s'.task? c.task = some { k with prio := if k.ceil.toNat < p.toNat then k.ceil else p } ∧
      (∀ j, j ≠ tid → j ≠ c.task → s'.task? j = s.task? j) ∧ s' = { s with tasks := s'.tasks } := by
  have hset : ∀ u : Task, ({ u with prio := capPrio p u.ceil } : Task).id = u.id := fun _ => rfl
  have heff := exec_of_uniform (i := .setpri g (some h) p) (n := 4) (cost := 4)
    (eff := fun s1 => (s1.updTask c.task fun u => { u with prio := capPrio p u.ceil }).goneOn tid group 8) hi hact (by simp only [exec]; rfl) (by
      have hh : (Ctx.of s t group g 8).t.child? ((Ctx.of s t group g 8).handle h) = some c := hc
      refine congrArg (Plan.go 4 0) (funext fun s1 => ?_)
      dsimp only
      rw [hh, Ctx.next_eq hi]
      dsimp only
      rw [if_neg (by simp [hf])]) ha
  refine ⟨_, _, heff, State.task?_gone (f := id) ?_, Task.simply_after (f := id) (by rw [Task.charge_zero]; rfl) fun _ => ⟨rfl, rfl, rfl⟩,
    ?_, fun j hj hjc => ?_, rfl⟩
  · rw [State.task?_updTask_ne _ _ _ hset hne.symm]
    exact State.task?_paid hi.2
  · rw [State.task?_gone_ne _ _ _ hne]
    exact State.task?_updTask_self _ hset ((State.task?_paid_ne s group 4 hne).trans hk)
  · rw [State.task?_gone_ne _ _ _ hj, State.task?_updTask_ne _ _ _ hset hjc, State.task?_paid_ne s group 4 hj]

end

end Sys2Proof.Machine
end

