-- ==== Sys2Proof/Proofs/Plies.lean ====
section
/-! SUPPORT. AccountPriorityAndPlies, the plies: what a lookup finds, what the release of a barrier does to the tasks that wait for it, and
the instructions that make, join, leave and wait at a ply. -/

namespace Sys2Proof.Machine

variable {s : State} {tid : Nat} {t u : Task} {group : Mask} {g : Guard} {id : BitVec 32} {p : Ply}

/-! ### Plies by their id -/

theorem State.ply?_id (h : s.ply? id = some p) : p.id = id := by simpa using List.find?_some h

theorem Ctx.ply?_of_plyOf {c : Ctx} {r : Fin 64} (h : c.plyOf r = .ok p) : c.s.ply? p.id = some p := by
  unfold Ctx.plyOf at h
  extract_lets v at h
  split at h
  · cases h
  next q hq =>
    have hpq : q = p := by
      split at h
      · cases h
      · split at h
        · cases h
        · cases h; rfl
    subst hpq
    split at hq
    · rwa [State.ply?_id hq]
    · cases hq

theorem State.ply?_updPly (h : s.ply? id = some p) {f : Ply → Ply} (hf : ∀ q, (f q).id = q.id) : (s.updPly id f).ply? id = some (f p) := by
  have hid : ∀ q : Ply, (if q.id = id then f q else q).id = q.id := fun q => by
    split
    · exact hf q
    · rfl
  unfold State.ply? State.updPly at *
  rw [List.find?_map, show ((fun q : Ply => q.id == id) ∘ fun q => if q.id = id then f q else q) = fun q => q.id == id from
    funext fun q => by rw [Function.comp_apply, hid], h, Option.map_some, if_pos (by simpa using List.find?_some h)]

theorem State.ply?_of_plies {s s' : State} (h : s'.plies = s.plies) (id : BitVec 32) : s'.ply? id = s.ply? id := by
  rw [State.ply?, State.ply?, h]

/-- A ply that is dissolved is no more. -/
theorem ply?_dissolved {s' : State} (h : s'.plies = s.plies.filter fun q => q.id ≠ id) : s'.ply? id = none := by
  rw [State.ply?, h, List.find?_eq_none]
  intro q hq
  simpa using (List.mem_filter.1 hq).2

/-! ### Releasing a barrier (R116) -/

/-- A task once its groups that wait for a ply's barrier have gone on. -/
def Task.freed (id : BitVec 32) (u : Task) : Task := (u.waits.filter (·.forPly id)).foldl Task.wake u

theorem Task.foldl_wake_id (ws : List Wait) (u : Task) : (ws.foldl Task.wake u).id = u.id := by
  induction ws generalizing u with
  | nil => rfl
  | cons w ws ih => rw [List.foldl_cons, ih, Task.wake_id]

theorem Task.freed_of_none (h : ∀ w ∈ u.waits, w.forPly id = false) : u.freed id = u := by
  rw [Task.freed, List.filter_eq_nil_iff.2 fun w hw => by simp [h w hw]]
  rfl

theorem Task.freed_of_one {w : Wait} (h : u.waits.filter (·.forPly id) = [w]) : u.freed id = u.wake w := by
  rw [Task.freed, h]
  rfl

/-- The release of a ply's barrier wakes the groups of one task that wait for it. -/
def State.freePly (id : BitVec 32) (s : State) (t : Task) : State :=
  (t.waits.filter (·.forPly id)).foldl (fun s w => (s.updTask t.id fun t => t.wake w).acquireOf t .ply) s

theorem State.acquireOf_eq (s : State) (t : Task) (sc : Scope) : s.acquireOf t sc = { s with cores := (s.acquireOf t sc).cores } := by
  unfold State.acquireOf
  split
  · exact s.acquire_eq ..
  · rfl

theorem State.task?_freePly (s : State) (t : Task) (j : Nat) : (s.freePly id t).task? j =
    (s.task? j).map fun u => if j = t.id then (t.waits.filter (·.forPly id)).foldl Task.wake u else u := by
  unfold State.freePly
  generalize t.waits.filter (·.forPly id) = ws
  induction ws generalizing s with
  | nil => simp
  | cons w ws ih =>
    have hstep : ((s.updTask t.id fun t => t.wake w).acquireOf t .ply).task? j = (s.task? j).map fun u => if j = t.id then u.wake w else u := by
      rw [← State.task?_updTask _ _ _ _ fun u => u.wake_id w, State.task?, State.acquireOf_tasks]
      rfl
    rw [List.foldl_cons, ih, hstep, Option.map_map]
    congr 1
    funext u
    by_cases h : j = t.id
    · simp [h]
    · simp [h]

theorem State.plies_freePly (s : State) (t : Task) : (s.freePly id t).plies = s.plies := by
  unfold State.freePly
  generalize t.waits.filter (·.forPly id) = ws
  induction ws generalizing s with
  | nil => rfl
  | cons w ws ih => rw [List.foldl_cons, ih, State.acquireOf_eq, State.updTask_plies]

/-- The tasks of a list with numbers of their own are each woken once. -/
theorem State.task?_foldl_freePly {l : List Task} (hl : (l.map (·.id)).Nodup) (s : State) (j : Nat) : (l.foldl (State.freePly id) s).task? j =
    (s.task? j).map fun u => match l.find? fun t => t.id == j with
      | some t => (t.waits.filter (·.forPly id)).foldl Task.wake u
      | none => u := by
  induction l generalizing s with
  | nil => simp
  | cons t l ih =>
    rw [List.map_cons, List.nodup_cons] at hl
    obtain ⟨hnew, hl⟩ := hl
    rw [List.foldl_cons, ih hl, State.task?_freePly, Option.map_map]
    congr 1
    funext u
    by_cases h : t.id = j
    · have hnone : l.find? (fun v => v.id == j) = none := List.find?_eq_none.2 fun v hv e =>
        hnew (List.mem_map.2 ⟨v, hv, (by simpa using e : v.id = j).trans h.symm⟩)
      simp [hnone, h]
    · simp [h, Ne.symm h]

theorem State.plies_foldl_freePly (l : List Task) (s : State) : (l.foldl (State.freePly id) s).plies = s.plies := by
  induction l generalizing s with
  | nil => rfl
  | cons t l ih => rw [List.foldl_cons, ih, State.plies_freePly]

/-- The barrier of a ply at which not every member stands is not released. -/
theorem State.plyRelease_waits (hp : s.ply? id = some p) (h : ∃ m ∈ p.members, m ∉ p.arrived) : s.plyRelease id = s := by
  obtain ⟨m, hm, ha⟩ := h
  unfold State.plyRelease
  rw [hp]
  refine if_pos (Bool.or_eq_true_iff.2 (.inr ?_))
  rw [Bool.not_eq_true', List.all_eq_false]
  exact ⟨m, hm, by simpa using ha⟩

/-- A ply at the next generation of its barrier. -/
def Ply.opened (p : Ply) : Ply := { p with arrived := [], barrier := p.barrier + 1 }

theorem State.plyRelease_eq (hp : s.ply? id = some p) (hne : p.members ≠ []) (h : ∀ m ∈ p.members, m ∈ p.arrived) :
    s.plyRelease id = s.tasks.foldl (State.freePly id) (s.updPly id Ply.opened) := by
  have hstep : ∀ (s : State) (t : Task), t.waits.foldl (fun s w => match w.kind with
      | .plywait i => if i = id then (s.updTask t.id fun t => t.wake w).acquireOf t .ply else s
      | _ => s) s = s.freePly id t := fun s t => by
    rw [State.freePly, List.foldl_filter]
    congr 1
    funext s w
    unfold Wait.forPly
    cases w.kind <;> simp
  unfold State.plyRelease
  rw [hp]
  refine (if_neg ?_).trans ?_
  · simpa [hne] using h
  · exact congrArg (fun f => s.tasks.foldl f (s.updPly id Ply.opened)) (funext fun s => funext fun t => hstep s t)

/-- The release of a barrier opens the ply's next generation, and in every task the groups that waited for it go on. -/
theorem State.plyRelease_spec (hp : s.ply? id = some p) (hne : p.members ≠ []) (h : ∀ m ∈ p.members, m ∈ p.arrived)
    (hids : (s.tasks.map (·.id)).Nodup) :
    (s.plyRelease id).ply? id = some p.opened ∧ ∀ j, (s.plyRelease id).task? j = (s.task? j).map (Task.freed id) := by
  rw [State.plyRelease_eq hp hne h]
  refine ⟨?_, fun j => ?_⟩
  · rw [State.ply?_of_plies (State.plies_foldl_freePly ..)]
    exact State.ply?_updPly hp fun _ => rfl
  · rw [State.task?_foldl_freePly hids]
    have hj : (s.updPly id Ply.opened).task? j = s.task? j := rfl
    have hf : s.tasks.find? (fun t => t.id == j) = s.task? j := rfl
    rw [hj, hf]
    cases s.task? j <;> rfl

/-- A task whose only group at a barrier goes on. -/
theorem Task.woken_of_freed {w : Wait} (h : u.waits.filter (·.forPly id) = [w]) :
    (u.freed id).waits = u.waits.filter (fun x => !x.forPly id) ∧ Woken u (u.freed id) w := by
  have hsets : (u.resumed w).dset = u.dset ∧ (u.resumed w).oset = u.oset := by simp [Task.resumed]
  have hends := Task.settle_ends (group := w.lanes) (u.length_resumed w) hsets.1 hsets.2 fun l hl => .inl (u.lane_resumed w hl)
  rw [Task.freed_of_one h]
  refine ⟨?_, ?_, fun l hl => ?_⟩
  · rw [(u.wake_fields w).2.2.2.2]
    refine List.filter_congr fun x hx => Bool.eq_iff_iff.2 ?_
    have hxw : x.forPly id = true ↔ x = w := by
      have : x ∈ u.waits.filter (·.forPly id) ↔ x = w := by rw [h, List.mem_singleton]
      rwa [List.mem_filter, and_iff_right hx] at this
    rw [decide_eq_true_iff, Bool.not_eq_true', ← Bool.not_eq_true, hxw]
  · rw [Task.lanes_wake]
    exact hends.length
  · rw [Task.lane, Task.lanes_wake]
    exact hends.lanes l hl

/-! ### Leaving a ply and arriving at its barrier (R114-R116, R124) -/

/-- No group of the task stands at the barrier of a ply. -/
def Task.Free (id : BitVec 32) (u : Task) : Prop := ∀ w ∈ u.waits, w.forPly id = false ∧ w.atBar id = false

theorem Task.freed_of_free (h : u.Free id) : u.freed id = u := Task.freed_of_none fun w hw => (h w hw).1

/-- The task once it has left a ply. -/
def Task.leavesPly (id : BitVec 32) (u : Task) : Task := { u with plies := u.plies.filter (· ≠ id) }

/-- The same, with the groups that stand at its barrier gone on. -/
def Task.leftPly (id : BitVec 32) (u : Task) : Task := (u.waits.filter fun w => w.atBar id || w.forPly id).foldl Task.wake (u.leavesPly id)

theorem Task.leftPly_id (id : BitVec 32) (u : Task) : (u.leftPly id).id = u.id := Task.foldl_wake_id ..

theorem Task.leftPly_of_free (h : u.Free id) : u.leftPly id = u.leavesPly id := by
  have hnone : u.waits.filter (fun w => w.atBar id || w.forPly id) = [] := List.filter_eq_nil_iff.2 fun w hw => by
    obtain ⟨h1, h2⟩ := h w hw
    simp [h1, h2]
  rw [Task.leftPly, hnone]
  rfl

theorem State.ids_updTask (s : State) (i : Nat) {f : Task → Task} (hf : ∀ t, (f t).id = t.id) :
    (s.updTask i f).tasks.map (·.id) = s.tasks.map (·.id) := by
  rw [State.updTask, List.map_map]
  refine List.map_congr_left fun t _ => ?_
  rw [Function.comp_apply]
  split
  · exact hf t
  · rfl

/-- The state once a task none of whose groups stands at the barrier of a ply has left it, and the ply has not yet seen that. -/
theorem State.plyLeave_eq (hu : s.task? tid = some u) (hfree : u.Free id) (hp : s.ply? id = some p) :
    ∃ s1 : State, s1.plies = s.plies ∧ s1.plyGens = s.plyGens ∧ s1.task? tid = some (u.leavesPly id) ∧ OthersStand s s1 tid ∧
      s1.tasks.map (·.id) = s.tasks.map (·.id) ∧
      s.plyLeave tid id = if (p.members.filter (· ≠ tid)).isEmpty then
          { s1 with plies := s1.plies.filter fun q => q.id ≠ id
                    plyGens := Store.set s1.plyGens (256 * p.die + p.idx) (Store.get s1.plyGens (256 * p.die + p.idx) + 1) }
        else (s1.updPly id fun q => { q with members := p.members.filter (· ≠ tid), arrived := q.arrived.filter (· ≠ tid) }).plyRelease id := by
  unfold State.plyLeave
  extract_lets s1
  have hs1 : s1 = s.updTask tid (Task.leftPly id) := congrArg (State.updTask s tid) (funext fun t =>
    congrArg (List.foldl Task.wake (t.leavesPly id)) (List.filter_congr fun w _ => by
      unfold Wait.atBar Wait.forPly
      cases w.kind <;> simp))
  have hself : s1.task? tid = some (u.leavesPly id) := by
    rw [hs1, State.task?_updTask_self _ (Task.leftPly_id id) hu, Task.leftPly_of_free hfree]
  have hothers : OthersStand s s1 tid := fun j hj => by
    rw [hs1, State.task?_updTask_ne _ _ _ (Task.leftPly_id id) hj]
  have hids : s1.tasks.map (·.id) = s.tasks.map (·.id) := by
    rw [hs1]
    exact s.ids_updTask tid (Task.leftPly_id id)
  have hp1 : s1.ply? id = some p := hp
  rw [hp1]
  exact ⟨s1, rfl, rfl, hself, hothers, hids, rfl⟩

/-- The last member's leave dissolves the ply. -/
theorem State.plyLeave_last (hu : s.task? tid = some u) (hfree : u.Free id) (hp : s.ply? id = some p)
    (hleft : p.members.filter (· ≠ tid) = []) :
    (s.plyLeave tid id).task? tid = some (u.leavesPly id) ∧ OthersStand s (s.plyLeave tid id) tid ∧ (s.plyLeave tid id).ply? id = none ∧
      Store.get (s.plyLeave tid id).plyGens (256 * p.die + p.idx) = Store.get s.plyGens (256 * p.die + p.idx) + 1 := by
  obtain ⟨s1, -, hgens, hself, hothers, -, he⟩ := State.plyLeave_eq hu hfree hp
  rw [he, hleft, if_pos List.isEmpty_nil]
  exact ⟨hself, hothers, ply?_dissolved rfl, by rw [← hgens]; exact Store.get_set_self ..⟩

section
variable (hu : s.task? tid = some u) (hfree : u.Free id) (hp : s.ply? id = some p) (hleft : p.members.filter (· ≠ tid) ≠ [])
include hu hfree hp hleft

/-- Where a member left has not arrived the ply stands in its generation. -/
theorem State.plyLeave_stands (h : ∃ m ∈ p.members.filter (· ≠ tid), m ∉ p.arrived) :
    (s.plyLeave tid id).task? tid = some (u.leavesPly id) ∧ OthersStand s (s.plyLeave tid id) tid ∧ (s.plyLeave tid id).ply? id =
      some { p with members := p.members.filter (· ≠ tid), arrived := p.arrived.filter (· ≠ tid) } := by
  obtain ⟨s1, hplies, -, hself, hothers, -, he⟩ := State.plyLeave_eq hu hfree hp
  have hply := State.ply?_updPly (s := s1) ((State.ply?_of_plies hplies id).trans hp)
    (f := fun q => { q with members := p.members.filter (· ≠ tid), arrived := q.arrived.filter (· ≠ tid) }) fun _ => rfl
  obtain ⟨m, hm, ha⟩ := h
  rw [he, if_neg (by simpa [List.isEmpty_iff] using hleft),
    State.plyRelease_waits hply ⟨m, hm, fun h => ha (List.mem_filter.1 h).1⟩]
  exact ⟨hself, hothers, hply⟩

/-- Where every member left has arrived the barrier is released. -/
theorem State.plyLeave_releases (hids : (s.tasks.map (·.id)).Nodup) (h : ∀ m ∈ p.members.filter (· ≠ tid), m ∈ p.arrived) :
    (s.plyLeave tid id).task? tid = some (u.leavesPly id) ∧
      (s.plyLeave tid id).ply? id = some { p with members := p.members.filter (· ≠ tid), arrived := [], barrier := p.barrier + 1 } ∧
      ∀ j, j ≠ tid → (s.plyLeave tid id).task? j = (s.task? j).map (Task.freed id) := by
  obtain ⟨s1, hplies, -, hself, hothers, hids1, he⟩ := State.plyLeave_eq hu hfree hp
  have hply := State.ply?_updPly (s := s1) ((State.ply?_of_plies hplies id).trans hp)
    (f := fun q => { q with members := p.members.filter (· ≠ tid), arrived := q.arrived.filter (· ≠ tid) }) fun _ => rfl
  obtain ⟨hopen, htasks⟩ := State.plyRelease_spec hply hleft
    (fun m hm => List.mem_filter.2 ⟨h m hm, (List.mem_filter.1 hm).2⟩) (hids1 ▸ hids)
  rw [he, if_neg (by simpa [List.isEmpty_iff] using hleft)]
  refine ⟨?_, hopen, fun j hj => ?_⟩
  · have hfreed : (u.leavesPly id).freed id = u.leavesPly id := Task.freed_of_free (u := u.leavesPly id) hfree
    rw [htasks, State.updPly, ← hfreed]
    exact congrArg (Option.map _) hself
  · rw [htasks, ← hothers j hj]
    rfl

end

end Sys2Proof.Machine
end

