-- ==== Sys2Proof/Proofs/PlyBarriers.lean ====
section
/-! SUPPORT. AccountPriorityAndPlies, the barrier of a ply: a task whose writes are performed arrives as soon as its group has parked, and
releases the barrier as the last member; and the instructions of plies. -/

namespace Sys2Proof.Machine

variable {s : State} {tid : Nat} {t u : Task} {group : Mask} {g : Guard} {id : BitVec 32} {p : Ply}

/-! ### A group that arrives (R82, R116) -/

/-- A fold over the items of items in which the last item of one changes the state and every other leaves it. -/
theorem foldl_nested_only {α β γ : Type} {f : α → β → γ → β} {items : α → List γ} {Q : γ → Prop} (hq : ∀ a b v, Q v → f a b v = b)
    {b : β} {l l' : List α} {x : α} {vs : List γ} {w : γ} (hl : ∀ a, a ∈ l ∨ a ∈ l' → ∀ v ∈ items a, Q v) (hx : items x = vs ++ [w])
    (hvs : ∀ v ∈ vs, Q v) : (l ++ x :: l').foldl (fun b a => (items a).foldl (f a) b) b = f x b w := by
  have hstays : ∀ (k : List α), (∀ a ∈ k, ∀ v ∈ items a, Q v) → ∀ b, k.foldl (fun b a => (items a).foldl (f a) b) b = b := fun k hk b =>
    foldl_stays fun a ha => foldl_stays fun v hv => hq a b v (hk a ha v hv)
  rw [List.foldl_append, hstays l fun a ha => hl a (.inl ha), List.foldl_cons, hstays l' fun a ha => hl a (.inr ha), hx, List.foldl_append,
    foldl_stays fun v hv => hq x b v (hvs v hv)]
  rfl

/-- A wait that no performed store ends. -/
def Wait.Quiet (w : Wait) : Prop :=
  match w.kind with
  | .fence _ _ _ | .stl _ _ _ | .arrive _ _ _ _ | .capAbort _ _ _ | .plybar _ _ => False
  | _ => True

/-- A task whose group stands at the barrier of a ply with its own writes performed arrives, where no other wait of a placed task can be
served. -/
theorem State.serveOrder_arrives {w : Wait} {reqs : List Nat} {ws : List Wait} (hids : (s.tasks.map (·.id)).Nodup)
    (hu : s.task? tid = some u) (hplaced : u.isPlaced = true) (hentries : u.dentries = []) (hwaits : u.waits = ws ++ [w])
    (hk : w.kind = .plybar id reqs) (hreqs : s.unperformed reqs = false) (hown : ∀ v ∈ ws, v.Quiet)
    (hothers : ∀ t ∈ s.tasks, t.isPlaced = true → t.id ≠ tid → ∀ v ∈ t.waits, v.Quiet) : s.serveOrder = s.plyArrive tid id := by
  have huid : u.id = tid := State.task?_id hu
  have hmem : u ∈ s.tasks.filter (·.isPlaced) := List.mem_filter.2 ⟨List.mem_of_find?_eq_some hu, hplaced⟩
  obtain ⟨l, l', hl⟩ := List.append_of_mem hmem
  have hnodup : ((l ++ u :: l').map (·.id)).Nodup := hl ▸ hids.sublist (List.filter_sublist.map _)
  have hother : ∀ t, t ∈ l ∨ t ∈ l' → ∀ v ∈ t.waits, v.Quiet := fun t ht => by
    have htl : t ∈ l ++ u :: l' := by
      rw [List.mem_append, List.mem_cons]
      exact ht.imp_right .inr
    have hts := List.mem_filter.1 (hl ▸ htl)
    refine hothers t hts.1 hts.2 fun e => ?_
    rw [List.map_append, List.map_cons, List.nodup_middle, List.nodup_cons, ← List.map_append] at hnodup
    refine hnodup.1 (List.mem_map.2 ⟨t, ?_, e.trans huid.symm⟩)
    rwa [List.mem_append]
  rw [State.serveOrder, hl]
  refine (foldl_nested_only (Q := Wait.Quiet) (fun t s v hq => ?_) hother hwaits hown).trans ?_
  · unfold Wait.Quiet at hq
    split
    · rfl
    · split <;> simp_all
  · simp [huid, hu, hwaits, hk, hreqs, hentries]

/-- The same wait once its task has arrived. -/
def Wait.atRelease (w : Wait) (id : BitVec 32) : Wait := { w with kind := .plywait id }

section
variable {w : Wait} {reqs : List Nat} {ws : List Wait} (hu : s.task? tid = some u) (hwaits : u.waits = ws ++ [w])
  (hk : w.kind = .plybar id reqs) (hfree : ∀ v ∈ ws, v.forPly id = false ∧ v.atBar id = false) (hp : s.ply? id = some p)
  (hnew : tid ∉ p.arrived)
include hu hwaits hk hfree hp hnew

/-- What an arrival leaves before it can release the barrier. -/
theorem State.plyArrive_eq : ∃ s1 : State, s.plyArrive tid id = s1.plyRelease id ∧
    s1.ply? id = some { p with arrived := p.arrived ++ [tid] } ∧ s1.task? tid = some { u with waits := ws ++ [w.atRelease id] } ∧
    OthersStand s s1 tid ∧ s1.tasks.map (·.id) = s.tasks.map (·.id) := by
  have hmap : u.waits.map (fun x => if x.atBar id then { x with kind := .plywait id } else x) = ws ++ [w.atRelease id] := by
    have hws : ws.map (fun x => if x.atBar id then { x with kind := .plywait id } else x) = ws :=
      (List.map_congr_left fun v hv => if_neg (by simp [(hfree v hv).2])).trans (List.map_id ws)
    rw [hwaits, List.map_append, hws, List.map_singleton, if_pos (by simp [Wait.atBar, hk])]
    rfl
  have hid : ∀ t : Task, ({ t with waits := t.waits.map fun x => if x.atBar id then { x with kind := .plywait id } else x } : Task).id = t.id :=
    fun _ => rfl
  refine ⟨_, rfl, ?_, ?_, fun j hj => ?_, s.ids_updTask tid hid⟩
  · refine (State.ply?_updPly (s := s.updTask tid _) hp fun q => ?_).trans ?_
    · split <;> rfl
    · rw [if_neg (by simpa using hnew)]
  · refine (State.task?_updTask_self _ hid hu).trans ?_
    rw [hmap]
  · exact State.task?_updTask_ne _ _ _ hid hj

/-- An arrival that is not the last waits. -/
theorem State.plyArrive_waits (h : ∃ m ∈ p.members, m ≠ tid ∧ m ∉ p.arrived) :
    (s.plyArrive tid id).task? tid = some { u with waits := ws ++ [w.atRelease id] } ∧ OthersStand s (s.plyArrive tid id) tid ∧
      (s.plyArrive tid id).ply? id = some { p with arrived := p.arrived ++ [tid] } := by
  obtain ⟨s1, he, hply, hself, hothers, -⟩ := State.plyArrive_eq hu hwaits hk hfree hp hnew
  obtain ⟨m, hm, hne, ha⟩ := h
  rw [he, State.plyRelease_waits hply ⟨m, hm, by simp [hne, ha]⟩]
  exact ⟨hself, hothers, hply⟩

/-- The last arrival releases the barrier. -/
theorem State.plyArrive_releases (hids : (s.tasks.map (·.id)).Nodup) (hne : p.members ≠ [])
    (h : ∀ m ∈ p.members, m = tid ∨ m ∈ p.arrived) :
    (s.plyArrive tid id).task? tid = some (({ u with waits := ws ++ [w.atRelease id] } : Task).wake (w.atRelease id)) ∧
      (s.plyArrive tid id).ply? id = some p.opened ∧ ∀ j, j ≠ tid → (s.plyArrive tid id).task? j = (s.task? j).map (Task.freed id) := by
  obtain ⟨s1, he, hply, hself, hothers, hids1⟩ := State.plyArrive_eq hu hwaits hk hfree hp hnew
  obtain ⟨hopen, htasks⟩ := State.plyRelease_spec hply hne
    (fun m hm => List.mem_append.2 ((h m hm).symm.imp_right fun e => List.mem_singleton.2 e)) (hids1 ▸ hids)
  have hone : ({ u with waits := ws ++ [w.atRelease id] } : Task).waits.filter (·.forPly id) = [w.atRelease id] := by
    have hws : ws.filter (·.forPly id) = [] := List.filter_eq_nil_iff.2 fun v hv => by simp [(hfree v hv).1]
    rw [List.filter_append, hws]
    simp [Wait.forPly, Wait.atRelease]
  rw [he]
  refine ⟨?_, hopen, fun j hj => ?_⟩
  · rw [htasks, hself, Option.map_some, Task.freed_of_one hone]
  · rw [htasks, hothers j hj]

end

/-! ### PLYNEW and PLYJOIN (R114, R124) -/

/-- The ply that a task makes in an entry of its die's table. -/
def State.newPly (s : State) (tid : Nat) (t : Task) (cap : Fin 65) (i : Nat) : Ply :=
  { die := t.die, idx := i, gen := Store.get s.plyGens (256 * t.die + i), asid := t.asid, cap := cap.val, members := [tid]
    arrived := [], barrier := 0 }

/-- A task that has come into a ply. -/
def Task.inPly (t : Task) (id : BitVec 32) : Task := { t with plies := t.plies ++ [id] }

/-- A ply that a task has come into. -/
def Ply.joinedBy (p : Ply) (tid : Nat) : Ply := { p with members := p.members ++ [tid] }

/-- Nothing but the tasks has moved, and the plies are these. -/
def State.PliesAre (s s1 : State) (ps : List Ply) : Prop := s1 = { s with tasks := s1.tasks, plies := ps }

theorem State.PliesAre.updTask {s s1 : State} {ps : List Ply} (h : s.PliesAre s1 ps) (i : Nat) (f : Task → Task) :
    s.PliesAre (s1.updTask i f) ps :=
  congrArg (fun r : State => r.updTask i f) h

theorem State.PliesAre.gone {s s1 : State} {ps : List Ply} (h : s.PliesAre s1 ps) (i : Nat) (group : Mask) (len : Nat) :
    s.PliesAre ((s1.goneOn i group len).ended i group) ps :=
  (h.updTask i fun t => t.advance group len).updTask i fun t => t.settleLanes group

section
variable (hi : Issues s tid t group) (hact : t.guarded g group ≠ 0)
include hi hact

/-- The plan of PLYNEW where its task may have one more ply and its die's table an entry for it. -/
theorem plynew_plan {dst : Fin 64} {cap : Fin 65} {i : Nat} (hroom : t.plies.length < 4)
    (hfree : ((List.range 256).find? fun i => !s.plies.any fun p => p.die == t.die && p.idx == i) = some i) :
    ∃ plan, exec (.plynew g dst cap) s = issue s 8 g plan ∧ plan (Ctx.of s t group g 8) = .go 4 0 fun s1 =>
      (({ s1 with plies := s1.plies ++ [s1.newPly tid t cap i] } : State).updTask tid fun u =>
        ({ u with plies := u.plies ++ [(s1.newPly tid t cap i).id] } : Task).wrS dst
          ((s1.newPly tid t cap i).id.setWidth 64)).goneOn tid group 8 := by
  refine ⟨_, by simp only [exec]; rfl, (Ctx.uniform_of_act hact _ _).trans ?_⟩
  have hroom' : ¬ 4 ≤ (Ctx.of s t group g 8).t.plies.length := not_le.2 hroom
  have hfree' : ((List.range 256).find? fun i => !(Ctx.of s t group g 8).s.plies.any fun p =>
      p.die == (Ctx.of s t group g 8).t.die && p.idx == i) = some i := hfree
  rw [if_neg hroom', hfree']
  refine congrArg (Plan.go 4 0) (funext fun s1 => ?_)
  dsimp only
  rw [Ctx.next_eq hi, hi.ctx_tid]
  rfl

theorem plynew_done (ha : 4 ≤ t.alw.toNat) {dst : Fin 64} {cap : Fin 65} {i : Nat} (hroom : t.plies.length < 4)
    (hfree : ((List.range 256).find? fun i => !s.plies.any fun p => p.die == t.die && p.idx == i) = some i) :
    ∃ s' t', exec (.plynew g dst cap) s = .next s' ∧ s'.task? tid = some t' ∧
      s' = { s with tasks := s'.tasks, plies := s.plies ++ [s.newPly tid t cap i] } ∧ t'.alw = t.alw - 4 ∧ LanesMoved t t' group 8 ∧
      t'.plies = t.plies ++ [(s.newPly tid t cap i).id] ∧
      ∀ r, t'.sreg r = if r = dst ∧ r ≠ 63 then (s.newPly tid t cap i).id.setWidth 64 else t.sreg r := by
  obtain ⟨plan, he, hp⟩ := plynew_plan hi hact (dst := dst) (cap := cap) hroom hfree
  let made (u : Task) : Task :=
    ({ u with plies := u.plies ++ [(s.newPly tid t cap i).id] } : Task).wrS dst ((s.newPly tid t cap i).id.setWidth 64)
  have hid : ∀ u, (made u).id = u.id := fun u => by simp [made]
  have hplies : s.PliesAre { s.paid tid group 4 0 with plies := s.plies ++ [s.newPly tid t cap i] } (s.plies ++ [s.newPly tid t cap i]) := rfl
  refine ⟨_, t.simply 4 group 8 made, exec_of_go hi he hp ha, ?_, (hplies.updTask tid made).gone _ _ _, ?_, ?_, ?_, fun r => ?_⟩
  · exact State.task?_gone (State.task?_updTask_self _ hid (State.task?_paid hi.2))
  · simp [Task.simply, made, Task.charge]
  · exact t.simply_lanesMoved 4 group 8 made (fun u => by simp [made]) (fun u => by simp [made]) fun u => by simp [made]
  · simp [Task.simply, made]
  · have hregs : (t.simply 4 group 8 made).sreg r = (made (t.paid 4 group)).sreg r := by simp [Task.simply, Task.sreg, Task.paid]
    have hold : ({ t.paid 4 group with plies := (t.paid 4 group).plies ++ [(s.newPly tid t cap i).id] } : Task).sreg r = t.sreg r := by
      simp [Task.sreg, Task.paid]
    rw [hregs, Task.sreg_wrS, hold]
    refine if_congr (and_congr_right fun e => by rw [e]) rfl rfl

variable {src : Fin 64} (hp : (Ctx.of s t group g 8).plyOf src = .ok p)
include hp

theorem plyjoin_plan (hcap : p.members.length < p.cap) (hroom : t.plies.length < 4) (hm : p.members.contains tid = false) :
    ∃ plan, exec (.plyjoin g src) s = issue s 8 g plan ∧ plan (Ctx.of s t group g 8) = .go 4 0 fun s1 =>
      ((s1.updPly p.id fun q => q.joinedBy tid).updTask tid fun u => u.inPly p.id).goneOn tid group 8 := by
  refine ⟨_, by simp only [exec]; rfl, (Ctx.uniform_of_act hact _ _).trans ?_⟩
  have hroom' : ¬ 4 ≤ (Ctx.of s t group g 8).t.plies.length := not_le.2 hroom
  have hm' : ¬ p.members.contains (Ctx.of s t group g 8).tid = true := by rw [hi.ctx_tid, hm]; simp
  rw [hp]
  dsimp only
  rw [if_neg (not_le.2 hcap), if_neg hroom', if_neg hm', hi.ctx_tid]
  exact congrArg (Plan.go 4 0) (funext fun s1 => Ctx.next_eq hi _)

theorem plyjoin_done (ha : 4 ≤ t.alw.toNat) (hcap : p.members.length < p.cap) (hroom : t.plies.length < 4)
    (hm : p.members.contains tid = false) :
    ∃ s' t', exec (.plyjoin g src) s = .next s' ∧ s'.task? tid = some t' ∧ t.After { t with plies := t.plies ++ [p.id] } t' group 8 4 ∧
      s' = { s with tasks := s'.tasks, plies := s.plies.map fun q =>
        if q.id = p.id then { q with members := q.members ++ [tid] } else q } := by
  obtain ⟨plan, he, hplan⟩ := plyjoin_plan hi hact hp hcap hroom hm
  have hafter : t.After (t.inPly p.id) (t.simply 4 group 8 fun u => u.inPly p.id) group 8 4 :=
    Task.simply_after (by rw [Task.charge_zero]; rfl) fun _ => ⟨rfl, rfl, rfl⟩
  have hplies : s.PliesAre ((s.paid tid group 4 0).updPly p.id fun q => q.joinedBy tid)
      (s.plies.map fun q => if q.id = p.id then q.joinedBy tid else q) := rfl
  refine ⟨_, _, exec_of_go hi he hplan ha, State.task?_gone (f := fun u => u.inPly p.id) ?_, hafter, (hplies.updTask _ _).gone _ _ _⟩
  exact State.task?_updTask_self _ (fun _ => rfl) (State.task?_paid hi.2)

/-! ### PLYLEAVE and PLYBAR (R82, R114-R116, R124, R244) -/

variable (hm : p.members.contains tid = true)
include hm

theorem plyleave_plan : ∃ plan, exec (.plyleave g src) s = issue s 8 g plan ∧
    plan (Ctx.of s t group g 8) = .go 4 0 fun s1 => (s1.plyLeave tid p.id).goneOn tid group 8 := by
  refine ⟨_, by simp only [exec]; rfl, (Ctx.uniform_of_act hact _ _).trans ?_⟩
  rw [hp]
  dsimp only
  rw [hi.ctx_tid, hm]
  exact congrArg (Plan.go 4 0) (funext fun s1 => Ctx.next_eq hi _)

/-- PLYBAR of a task that has not arrived. -/
theorem plybar_plan (ha : p.arrived.contains tid = false) : ∃ plan, exec (.plybar g src) s = issue s 8 g plan ∧
    plan (Ctx.of s t group g 8) = .go 4 0 fun s1 =>
      (s1.parked tid t group 8 (.plybar p.id (s1.releaseSet t.core tid .ply)) .barrier).serveOrder := by
  refine ⟨_, by simp only [exec]; rfl, (Ctx.uniform_of_act hact _ _).trans ?_⟩
  rw [hp]
  dsimp only
  rw [hi.ctx_tid, hm, ha]
  exact congrArg (Plan.go 4 0) (funext fun s1 => congrArg State.serveOrder (Ctx.hold_eq hi _ _ _))

/-- PLYBAR of a task that has arrived. -/
theorem plybar_again_plan (ha : p.arrived.contains tid = true) : ∃ plan, exec (.plybar g src) s = issue s 8 g plan ∧
    plan (Ctx.of s t group g 8) = .go 4 0 fun s1 => s1.parked tid t group 8 (.plywait p.id) .barrier := by
  refine ⟨_, by simp only [exec]; rfl, (Ctx.uniform_of_act hact _ _).trans ?_⟩
  rw [hp]
  dsimp only
  rw [hi.ctx_tid, hm, ha]
  exact congrArg (Plan.go 4 0) (funext fun s1 => Ctx.hold_eq hi _ _ _)

end

end Sys2Proof.Machine
end

