-- ==== Sys2Proof/Proofs/PlyInstructions.lean ====
section
/-! AccountPriorityAndPlies, the obligation itself: what PLYLEAVE and PLYBAR leave of their task, its ply and the others. -/

namespace Sys2Proof.Machine

variable {s : State} {tid : Nat} {t u : Task} {group : Mask} {g : Guard} {id : BitVec 32} {p : Ply} {src : Fin 64}

/-! ### Tasks of the state that a group's parking leaves -/

theorem State.mem_updTask_ne {i : Nat} {f : Task → Task} (hf : ∀ t, (f t).id = t.id) (h : u ∈ (s.updTask i f).tasks) (hne : u.id ≠ i) :
    u ∈ s.tasks := by
  obtain ⟨v, hv, e⟩ := List.mem_map.1 h
  split at e
  next hid => exact absurd (by rw [← e, hf, hid]) hne
  · exact e ▸ hv

theorem State.ids_parked (s : State) (tid : Nat) (t : Task) (group : Mask) (len : Nat) (k : WaitKind) (p : Park) :
    (s.parked tid t group len k p).tasks.map (·.id) = s.tasks.map (·.id) :=
  State.ids_updTask s tid (f := fun u => u.hold (t.waitOf group len k) p) fun _ => rfl

/-- A group that parks at a barrier holds no store back. -/
theorem State.unperformed_parked (s : State) (tid : Nat) (t : Task) (group : Mask) (len : Nat) (id : BitVec 32) (rs : List Nat) (p : Park)
    (ids : List Nat) : (s.parked tid t group len (.plybar id rs) p).unperformed ids = s.unperformed ids := by
  have hstores : ∀ u : Task, (u.hold (t.waitOf group len (.plybar id rs)) p).parkedStores = u.parkedStores := fun u => by
    simp [Task.parkedStores, Task.hold, Task.waitOf]
  unfold State.unperformed State.parked State.updTask
  simp only [List.any_map]
  congr 1
  funext i
  congr 2
  funext u
  rw [Function.comp_apply]
  split
  · rw [← Task.waitOf, hstores]
    rfl
  · rfl

/-- The barrier of a ply is released as PlyReleased says where its entry is opened and every other task freed. -/
theorem plyReleased_of_freed {s' : State} {ms : List Nat} (hp : s'.ply? p.id = some { p with members := ms, arrived := [], barrier := p.barrier + 1 })
    (h : ∀ j, j ≠ tid → s'.task? j = (s.task? j).map (Task.freed p.id)) : PlyReleased s s' tid p ms := by
  refine ⟨hp, fun j u w hj hu hw => ⟨u.freed p.id, ?_, Task.woken_of_freed hw⟩⟩
  rw [h j hj, hu]
  rfl

/-! ### PLYLEAVE -/

theorem State.plyLeave_self (hu : s.task? tid = some u) (hfree : u.Free id) (hp : s.ply? id = some p) (hids : (s.tasks.map (·.id)).Nodup) :
    (s.plyLeave tid id).task? tid = some (u.leavesPly id) := by
  by_cases hleft : p.members.filter (· ≠ tid) = []
  · exact (State.plyLeave_last hu hfree hp hleft).1
  · by_cases h : ∀ m ∈ p.members.filter (· ≠ tid), m ∈ p.arrived
    · exact (State.plyLeave_releases hu hfree hp hleft hids h).1
    · push Not at h
      exact (State.plyLeave_stands hu hfree hp hleft h).1

section
variable (hi : Issues s tid t group) (hact : t.guarded g group ≠ 0) (ha : 4 ≤ t.alw.toNat) (hids : (s.tasks.map (·.id)).Nodup)
  (hp : (Ctx.of s t group g 8).plyOf src = .ok p) (hm : tid ∈ p.members) (hfree : t.Free p.id)
include hi hact ha hids hp hm hfree

theorem plyleave_leaves : let left := p.members.filter (· ≠ tid)
    ∃ s' t', exec (.plyleave g src) s = .next s' ∧ s'.task? tid = some t' ∧
      t.After { t with plies := t.plies.filter (· ≠ p.id) } t' group 8 4 ∧
      (left = [] → s'.ply? p.id = none ∧ OthersStand s s' tid ∧
        Store.get s'.plyGens (256 * p.die + p.idx) = Store.get s.plyGens (256 * p.die + p.idx) + 1) ∧
      (left ≠ [] → (∃ m ∈ left, m ∉ p.arrived) → OthersStand s s' tid ∧
        s'.ply? p.id = some { p with members := left, arrived := p.arrived.filter (· ≠ tid) }) ∧
      (left ≠ [] → (∀ m ∈ left, m ∈ p.arrived) → PlyReleased s s' tid p left) := by
  intro left
  obtain ⟨plan, he, hplan⟩ := plyleave_plan hi hact hp (by simpa using hm)
  have hu := State.task?_paid (group := group) (cost := 4) hi.2
  have hfree' : (t.paid 4 group).Free p.id := by rwa [Task.Free, Task.paid_eq]
  have hply : (s.paid tid group 4 0).ply? p.id = some p := Ctx.ply?_of_plyOf hp
  have hids' : ((s.paid tid group 4 0).tasks.map (·.id)).Nodup := by
    rw [State.paid, State.ids_updTask _ _ fun u => u.charge_countWindows_id 4 0 group]
    exact hids
  have hothers : OthersStand (s.paid tid group 4 0) ((s.paid tid group 4 0).plyLeave tid p.id) tid →
      OthersStand s ((((s.paid tid group 4 0).plyLeave tid p.id).goneOn tid group 8).ended tid group) tid := fun h j hj => by
    rw [State.task?_gone_ne _ group 8 hj, h j hj, State.task?_paid_ne s group 4 hj]
  refine ⟨_, t.simply 4 group 8 (Task.leavesPly p.id), exec_of_go hi he hplan ha,
    State.task?_gone (State.plyLeave_self hu hfree' hply hids'), Task.simply_after (by rw [Task.charge_zero]; rfl) fun _ => ⟨rfl, rfl, rfl⟩,
    fun h => ?_, fun hne h => ?_, fun hne h => ?_⟩
  · obtain ⟨-, ho, hq, hg⟩ := State.plyLeave_last hu hfree' hply h
    exact ⟨hq, hothers ho, hg⟩
  · obtain ⟨-, ho, hq⟩ := State.plyLeave_stands hu hfree' hply hne h
    exact ⟨hothers ho, hq⟩
  · obtain ⟨-, hq, ho⟩ := State.plyLeave_releases hu hfree' hply hne hids' h
    refine plyReleased_of_freed hq fun j hj => ?_
    rw [State.task?_gone_ne _ group 8 hj, ho j hj, State.task?_paid_ne s group 4 hj]

/-! ### PLYBAR -/

variable (hnew : tid ∉ p.arrived) (hplaced : t.isPlaced = true) (hentries : t.dentries = []) (hquiet : s.NobodyWaits)
  (hreqs : (s.paid tid group 4 0).unperformed ((s.paid tid group 4 0).releaseSet t.core tid .ply) = false)
include hnew hplaced hentries hquiet hreqs

omit hfree in
/-- The state in which the group has parked at the barrier: its task arrives there. -/
theorem plybar_arrives : ∃ s1 : State, exec (.plybar g src) s = .next ((s1.plyArrive tid p.id).ended tid group) ∧
    s1.ply? p.id = some p ∧ OthersStand s s1 tid ∧ (s1.tasks.map (·.id)).Nodup ∧
    ∃ rs, s1.task? tid = some ((t.paid 4 group).hold (t.waitOf group 8 (.plybar p.id rs)) .barrier) := by
  obtain ⟨plan, he, hplan⟩ := plybar_plan hi hact hp (by simpa using hm) (by simpa using hnew)
  generalize hrs : (s.paid tid group 4 0).releaseSet t.core tid .ply = rs at hreqs
  have hw : ∀ v ∈ t.waits, v.Quiet := hquiet t (List.mem_of_find?_eq_some hi.2) hplaced
  have hhold : ∀ u : Task, (u.hold (t.waitOf group 8 (.plybar p.id rs)) .barrier).id = u.id := fun _ => rfl
  have hpaid : ∀ u : Task, ((u.charge 4 0).countWindows group).id = u.id := fun u => u.charge_countWindows_id 4 0 group
  have hparked := State.task?_parked (State.task?_paid (group := group) (cost := 4) hi.2) t group 8 (.plybar p.id rs) .barrier
  have hids' : (((s.paid tid group 4 0).parked tid t group 8 (.plybar p.id rs) .barrier).tasks.map (·.id)).Nodup := by
    rw [State.ids_parked, State.paid, State.ids_updTask _ _ hpaid]
    exact hids
  have horder : ((s.paid tid group 4 0).parked tid t group 8 (.plybar p.id rs) .barrier).serveOrder =
      ((s.paid tid group 4 0).parked tid t group 8 (.plybar p.id rs) .barrier).plyArrive tid p.id := by
    refine State.serveOrder_arrives (w := t.waitOf group 8 (.plybar p.id rs)) (ws := t.waits) hids' hparked ?_ ?_ ?_ rfl ?_ hw fun v hv hpl hne =>
      hquiet v (State.mem_updTask_ne hpaid (State.mem_updTask_ne hhold hv hne) hne) hpl
    · rw [Task.paid_eq]
      exact hplaced
    · rw [Task.paid_eq]
      exact hentries
    · rw [Task.paid_eq]
      rfl
    · rw [State.unperformed_parked]
      exact hreqs
  have hply : ((s.paid tid group 4 0).parked tid t group 8 (.plybar p.id rs) .barrier).ply? p.id = some p := Ctx.ply?_of_plyOf hp
  refine ⟨_, ?_, hply, fun j hj => ?_, hids', rs, hparked⟩
  · rw [exec_of_go hi he hplan ha, hrs, horder]
  · rw [State.task?_parked_ne _ t group 8 _ _ hj, State.task?_paid_ne s group 4 hj]

/-- An arrival that is not the last waits for the release. -/
theorem plybar_waits (h : ∃ m ∈ p.members, m ≠ tid ∧ m ∉ p.arrived) :
    ∃ s' t', exec (.plybar g src) s = .next s' ∧ s'.task? tid = some t' ∧ t'.alw = t.alw - 4 ∧ t'.sregs = t.sregs ∧ t'.vregs = t.vregs ∧
      s'.ply? p.id = some { p with arrived := p.arrived ++ [tid] } ∧ OthersStand s s' tid ∧
      ∃ w, t'.waits = t.waits ++ [w] ∧ w.lanes = group ∧ w.pc = t.groupPc group ∧ w.kind = .plywait p.id := by
  obtain ⟨s1, he, hply, hothers, -, rs, hu⟩ := plybar_arrives hi hact ha hids hp hm hnew hplaced hentries hquiet hreqs
  obtain ⟨hself, ho, hq⟩ := State.plyArrive_waits (ws := t.waits) hu (by rw [Task.paid_eq]; rfl) rfl hfree hply hnew h
  obtain ⟨halw, hsregs, hvregs, -, hwaits⟩ := t.held_stays 4 group (t.waitOf group 8 (.plywait p.id)) .barrier
  have hself' : (s1.plyArrive tid p.id).task? tid = some ((t.paid 4 group).hold (t.waitOf group 8 (.plywait p.id)) .barrier) := by
    rw [hself, Task.paid_eq]
    rfl
  refine ⟨_, _, he, State.task?_ended hself', halw, hsregs, hvregs, hq, fun j hj => ?_, _, hwaits, rfl, rfl, rfl⟩
  rw [State.task?_ended_ne _ group hj, ho j hj, hothers j hj]

/-- The last arrival releases the barrier and goes on. -/
theorem plybar_releases (hrun : t.Unparked group) (h : ∀ m ∈ p.members, m = tid ∨ m ∈ p.arrived) :
    ∃ s' t', exec (.plybar g src) s = .next s' ∧ s'.task? tid = some t' ∧ t'.alw = t.alw - 4 ∧ t'.sregs = t.sregs ∧ t'.vregs = t.vregs ∧
      PlyReleased s s' tid p p.members ∧ t'.waits = t.waits ∧ LanesMoved t t' group 8 := by
  obtain ⟨s1, he, hply, hothers, hids1, rs, hu⟩ := plybar_arrives hi hact ha hids hp hm hnew hplaced hentries hquiet hreqs
  obtain ⟨hself, hq, ho⟩ := State.plyArrive_releases (ws := t.waits) hu (by rw [Task.paid_eq]; rfl) rfl hfree hply hnew hids1
    (List.ne_nil_of_mem hm) h
  have hself' : (s1.plyArrive tid p.id).task? tid = some (((t.paid 4 group).hold (t.waitOf group 8 (.plywait p.id)) .barrier).wake
      (t.waitOf group 8 (.plywait p.id))) := by
    rw [hself, Task.paid_eq]
    rfl
  have hnot : t.waitOf group 8 (.plywait p.id) ∉ t.waits := fun hw => by simpa [Wait.forPly, Task.waitOf] using (hfree _ hw).1
  generalize hv : (t.paid 4 group).hold (t.waitOf group 8 (.plywait p.id)) .barrier = v at hself'
  rw [Task.paid_eq] at hv
  obtain ⟨halw, hsregs, hvregs, -, hwaits⟩ := v.wake_fields (t.waitOf group 8 (.plywait p.id))
  refine ⟨_, _, he, State.task?_ended hself', ?_, ?_, ?_, plyReleased_of_freed hq fun j hj => ?_, ?_, ?_⟩
  · rw [Task.settleLanes_alw, halw, ← hv]
    rfl
  · rw [Task.settleLanes_sregs, hsregs, ← hv]
    rfl
  · rw [Task.settleLanes_vregs, hvregs, ← hv]
    rfl
  · rw [State.task?_ended_ne _ group hj, ho j hj, hothers j hj]
  · rw [Task.settleLanes_waits, hwaits, ← hv]
    exact filter_wait_append hnot
  · exact Task.woken_lanesMoved (p := .barrier) hrun rfl rfl (by rw [← hv]; rfl) (by rw [← hv]; rfl) (by rw [← hv]; rfl)

end

end Sys2Proof.Machine

section
open Sys2Proof Sys2Proof.Machine

/-- Settles O17: ALWRD and SETPRI change their task alone; a ply's entry and its members follow from what leaving it and arriving at its
barrier do to the tasks that wait there. -/
theorem accountPriorityAndPlies : Obligations.AccountPriorityAndPlies := by
  unfold Obligations.AccountPriorityAndPlies
  refine ⟨fun s tid t group g hi hact => ⟨fun ha held dst => alwrd_computes hi hact ha held dst, fun ha => ⟨fun p => setpri_own hi hact ha p,
    fun h p hc => setpri_nobody hi hact ha hc p, fun h p c k hc hf hk hne => setpri_child hi hact ha hc hf hk hne p⟩⟩,
    fun s tid t group g hi hact => ⟨fun dst cap i ha hroom hfree => ?_, fun ha => ⟨fun dst cap hroom hfree => ?_, fun src p hp =>
      ⟨fun hcap hroom hm => ?_, fun hm => ⟨?_, ?_⟩⟩⟩, fun ha src p hp => ⟨fun hcap hroom hm => plyjoin_done hi hact hp ha hcap hroom hm,
        fun hm => ⟨?_, fun h => ?_, fun h => ?_⟩⟩⟩,
    fun s tid t group g src p hi ha hact hids _ hp hm hfree => ⟨plyleave_leaves hi hact ha hids hp hm hfree,
      fun hnew hplaced hentries hquiet hrun hreqs => ?_⟩⟩
  · obtain ⟨s', t', hs, ht, hrest, halw, hmoved, hplies, hregs⟩ := plynew_done hi hact ha hroom hfree (dst := dst) (cap := cap)
    exact ⟨s', t', s.newPly tid t cap i, hs, ht, hrest, rfl, rfl, rfl, rfl, rfl, rfl, halw, hmoved, hplies, hregs⟩
  · obtain ⟨i, hi', hfree'⟩ := List.any_eq_true.1 hfree
    obtain ⟨j, hj⟩ := Option.isSome_iff_exists.1 (List.find?_isSome.2 ⟨i, hi', hfree'⟩ :
      ((List.range 256).find? fun i => !s.plies.any fun p => p.die == t.die && p.idx == i).isSome)
    obtain ⟨plan, he, hplan⟩ := plynew_plan hi hact hroom hj (dst := dst) (cap := cap)
    exact exhausts_of_plan hi he (by rw [hplan]; rfl) ha
  · obtain ⟨plan, he, hplan⟩ := plyjoin_plan hi hact hp hcap hroom hm
    exact exhausts_of_plan hi he (by rw [hplan]; rfl) ha
  · obtain ⟨plan, he, hplan⟩ := plyleave_plan hi hact hp hm
    exact exhausts_of_plan hi he (by rw [hplan]; rfl) ha
  · cases h : p.arrived.contains tid with
    | false =>
      obtain ⟨plan, he, hplan⟩ := plybar_plan hi hact hp hm h
      exact exhausts_of_plan hi he (by rw [hplan]; rfl) ha
    | true =>
      obtain ⟨plan, he, hplan⟩ := plybar_again_plan hi hact hp hm h
      exact exhausts_of_plan hi he (by rw [hplan]; rfl) ha
  · obtain ⟨plan, he, hplan⟩ := plyleave_plan hi hact hp hm
    exact exec_of_go hi he hplan ha
  · obtain ⟨plan, he, hplan⟩ := plybar_plan hi hact hp hm h
    exact exec_of_go hi he hplan ha
  · obtain ⟨plan, he, hplan⟩ := plybar_again_plan hi hact hp hm h
    exact exec_of_go hi he hplan ha
  · by_cases h : ∀ m ∈ p.members, m = tid ∨ m ∈ p.arrived
    · obtain ⟨s', t', hs, ht, halw, hsregs, hvregs, hdone⟩ :=
        plybar_releases hi hact ha hids hp hm hfree hnew hplaced hentries hquiet hreqs hrun h
      refine ⟨s', t', hs, ht, halw, hsregs, hvregs, fun ⟨m, hmem, hne, hnot⟩ => ?_, fun _ => hdone⟩
      exact absurd (h m hmem) (by simp [hne, hnot])
    · push Not at h
      obtain ⟨s', t', hs, ht, halw, hsregs, hvregs, hdone⟩ :=
        plybar_waits hi hact ha hids hp hm hfree hnew hplaced hentries hquiet hreqs h
      refine ⟨s', t', hs, ht, halw, hsregs, hvregs, fun _ => hdone, fun hall => ?_⟩
      obtain ⟨m, hmem, hne, hnot⟩ := h
      exact absurd (hall m hmem) (by simp [hne, hnot])

end
end

