-- ==== Sys2Proof/Proofs/Spawning.lean ====
section
/-! SUPPORT. SpawnCreatesChildren: what each child of the SPAWN family adds to the device, and what the fan of them has added. -/

namespace Sys2Proof.Machine

variable {s s' : State} {tid : Nat} {t u : Task} {c : Ctx} {w : SpawnHow} {a : BitVec 64} {h : BitVec 32} {j : Nat}

/-! ### States that have only gained tasks -/

/-- From s to s' only the task tid has changed, and tasks, children's numbers, requests to this device and counts of refusals have come. -/
structure State.Grows (s s' : State) (tid : Nat) : Prop where
  rest : s' = { s with tasks := s'.tasks, nextTask := s'.nextTask, nextSeq := s'.nextSeq, inbound := s'.inbound, vfs := s'.vfs }
  others : ∀ j u, j ≠ tid → s.task? j = some u → s'.task? j = some u
  entries : ∀ (i : Nat) (k : Task), s.tasks[i]? = some k → k.id ≠ tid → s'.tasks[i]? = some k

theorem State.Grows.refl (s : State) (tid : Nat) : s.Grows s tid := ⟨rfl, fun _ _ _ h => h, fun _ _ h _ => h⟩

theorem State.Grows.trans {s'' : State} (h : s.Grows s' tid) (h' : s'.Grows s'' tid) : s.Grows s'' tid where
  rest := h'.rest.trans (congrArg (fun r : State => { r with tasks := s''.tasks, nextTask := s''.nextTask, nextSeq := s''.nextSeq
                                                             inbound := s''.inbound, vfs := s''.vfs }) h.rest)
  others j u hj hu := h'.others j u hj (h.others j u hj hu)
  entries i k hk hne := h'.entries i k (h.entries i k hk hne) hne

theorem State.grows_updTask (s : State) (tid : Nat) {f : Task → Task} (hf : ∀ t, (f t).id = t.id) : s.Grows (s.updTask tid f) tid where
  rest := rfl
  others j u hj hu := (State.task?_updTask_ne s tid f hf hj).trans hu
  entries i k hk hne := by simp [State.updTask, hk, hne]

/-- A state whose tasks are those of a grown state has grown as much. -/
theorem State.Grows.of_tasks {s'' : State} (h : s.Grows s' tid) (ht : s''.tasks = s'.tasks)
    (hr : s'' = { s with tasks := s''.tasks, nextTask := s''.nextTask, nextSeq := s''.nextSeq, inbound := s''.inbound, vfs := s''.vfs }) :
    s.Grows s'' tid where
  rest := hr
  others j u hj hu := by
    rw [State.task?, ht]
    exact h.others j u hj hu
  entries i k hk hne := by
    rw [ht]
    exact h.entries i k hk hne

/-- A task that is appended. -/
theorem State.grows_append (s : State) (tid : Nat) (k : Task) : s.Grows { s with tasks := s.tasks ++ [k] } tid where
  rest := rfl
  others j u _ hu := by
    rw [State.task?] at hu ⊢
    rw [List.find?_append, hu]
    rfl
  entries i k' hk _ := by
    rw [List.getElem?_append_left (List.getElem?_eq_some_iff.1 hk).1]
    exact hk

/-! ### The children of a task -/

/-- The task with completion records added. -/
def Task.adopts (t : Task) (cs : List Child) : Task := { t with children := t.children ++ cs }

theorem Task.adopts_adopts (t : Task) (cs ds : List Child) : (t.adopts cs).adopts ds = t.adopts (cs ++ ds) := by
  simp only [Task.adopts, List.append_assoc]

/-- The children that count toward the limit of R104. -/
def Task.counts (t : Task) : Nat := (t.children.filter (·.counted)).length

theorem Task.counts_adopts (t : Task) (cs : List Child) : (t.adopts cs).counts = t.counts + (cs.filter (·.counted)).length := by
  simp [Task.counts, Task.adopts]

/-- No group of the task waits in JOIN or JOINANY. -/
def Task.NoJoins (t : Task) : Prop := ∀ w ∈ t.waits, match w.kind with | .join _ _ | .joinAny _ => False | _ => True

theorem State.serveJoins_of_noJoins (ht : s.task? tid = some u) (h : u.NoJoins) : s.serveJoins tid = s := by
  rw [State.serveJoins_eq ht]
  refine foldl_stays fun v hv => State.serveJoin_of_idle ht ?_
  have := h v hv
  unfold Task.Idles
  split <;> simp_all

/-! ### One child (R104, R107, R119) -/

/-- Whether this device's own inbound queue refuses a child. -/
def SpawnHow.Dropped (w : SpawnHow) (s : State) (t : Task) : Prop := w.dev = some s.deviceNo ∧ s.inboundRefuses t.asid t.kernel = true

/-- The completion record of a child that the task creates. -/
def SpawnHow.record (w : SpawnHow) (h : BitVec 32) (s : State) : Child :=
  { handle := h, task := s.nextTask, final := none, remainder := 0, paused := false, reported := false, seq := s.nextSeq
    counted := true, remote := w.dev.isSome, entries := [] }

/-- The completion record of a child that is refused. -/
def SpawnHow.refusal (w : SpawnHow) (a : BitVec 64) (h : BitVec 32) (s : State) (counted : Bool) : Child :=
  { w.record h s with task := 0, final := some .refused, remainder := a, counted := counted }

/-- The place of a child (R108, R113). -/
def SpawnHow.place (w : SpawnHow) (h : BitVec 32) (s : State) (t : Task) : Place :=
  match w.dev with
  | some d => .remote d
  | none => if t.det then .localQ (logicalCore t.lcores (childOrdinal t.ordinal (h.toNat % 65536)))
            else s.route t.core t.kernel t.vf t.asid w.x.hint.val

/-- The child with handle h and number j that the task t creates in the state s. -/
def Ctx.childOf (c : Ctx) (w : SpawnHow) (a : BitVec 64) (h : BitVec 32) (j : Nat) (s : State) (t : Task) : Task :=
  { Task.fresh s.nextTask t.vf t.asid t.prin t.kernel w.x.entry c.k.w a (capPrio (w.x.prio.getD t.prio) t.ceil) t.ceil (w.place h s t)
      (s.nextSeq + 1) with
    parent := some c.tid, root := t.root, handle := h, ordinal := childOrdinal t.ordinal (h.toNat % 65536), det := t.det
    viaSpawnx := w.dev.isSome, lcores := t.lcores, fpctl := childFpctl t.fpctl, exmode := t.exmode
    ownExm := match w.x.exm.val with | 1 => .unwind | 2 => .pause | _ => t.exmode
    after := some (t.core, s.nextReq)
    sregs := if w.fan then (putArgs (c.spawnArgs w.x)).set 8 (BitVec.ofNat 64 j) else putArgs (c.spawnArgs w.x) }

section
variable (hu : s.task? c.tid = some u)
include hu

theorem Ctx.spawnOne_refused_eq (hr : Config.maxChildren ≤ u.counts ∨ w.Dropped s u) : ∃ vfs, c.spawnOne w a h j s =
    (({ s with nextSeq := s.nextSeq + 1, vfs := vfs } : State).updTask c.tid fun t =>
      t.adopts [w.refusal a h s (decide (u.counts < Config.maxChildren))]).serveJoins c.tid := by
  have hcounted : (!decide (Config.maxChildren ≤ u.counts)) = decide (u.counts < Config.maxChildren) := by
    rw [← decide_not]
    exact decide_eq_decide.2 not_le
  unfold Ctx.spawnOne
  rw [hu, ← hcounted]
  dsimp only
  rw [if_pos (by simpa [SpawnHow.Dropped, Task.counts] using hr)]
  split
  · exact ⟨s.vfs, rfl⟩
  · exact ⟨_, rfl⟩

/-- A child beyond the limit of R104, or one that its target refuses, adds its record and nothing else. -/
theorem Ctx.spawnOne_refuses (hn : u.NoJoins) (hr : Config.maxChildren ≤ u.counts ∨ w.Dropped s u) :
    s.Grows (c.spawnOne w a h j s) c.tid ∧ (c.spawnOne w a h j s).inbound = s.inbound ∧ (c.spawnOne w a h j s).task? c.tid =
      some (u.adopts [w.refusal a h s (decide (u.counts < Config.maxChildren))]) := by
  have hid : ∀ t : Task, (t.adopts [w.refusal a h s (decide (u.counts < Config.maxChildren))]).id = t.id := fun _ => rfl
  obtain ⟨vfs, he⟩ := Ctx.spawnOne_refused_eq (a := a) (h := h) (j := j) hu hr
  have hself := State.task?_updTask_self (s := { s with nextSeq := s.nextSeq + 1, vfs := vfs })
    (fun t => t.adopts [w.refusal a h s (decide (u.counts < Config.maxChildren))]) hid hu
  rw [he, State.serveJoins_of_noJoins hself hn]
  exact ⟨(s.grows_updTask c.tid hid).of_tasks rfl rfl, rfl, hself⟩

/-- A child that is created. -/
theorem Ctx.spawnOne_creates (hroom : u.counts < Config.maxChildren) (hd : ¬ w.Dropped s u) :
    s.Grows (c.spawnOne w a h j s) c.tid ∧ (c.spawnOne w a h j s).task? c.tid = some (u.adopts [w.record h s]) ∧
      (c.spawnOne w a h j s).nextTask = s.nextTask + 1 ∧ (c.spawnOne w a h j s).tasks.length = s.tasks.length + 1 ∧
      (s.nextTask ≠ c.tid → (c.spawnOne w a h j s).tasks[s.tasks.length]? = some (c.childOf w a h j s u)) ∧
      (w.dev = none → (c.spawnOne w a h j s).inbound = s.inbound) := by
  obtain ⟨ib, hib, he⟩ : ∃ ib, (w.dev = none → ib = s.inbound) ∧ c.spawnOne w a h j s =
      { (({ s with tasks := s.tasks ++ [c.childOf w a h j s u] } : State).updTask c.tid fun t => t.adopts [w.record h s]) with
        nextTask := s.nextTask + 1, nextSeq := s.nextSeq + 2, inbound := ib } := by
    have hgo : ¬ (decide (Config.maxChildren ≤ u.counts) || decide (w.dev = some s.deviceNo) && s.inboundRefuses u.asid u.kernel) = true := by
      simpa [hroom] using not_and.1 hd
    obtain ⟨x, n, fan, dev⟩ := w
    unfold Ctx.spawnOne
    rw [hu]
    cases dev with
    | none => exact ⟨s.inbound, fun _ => rfl, if_neg hgo⟩
    | some d =>
      by_cases hself : d = s.deviceNo
      · exact ⟨_, nofun, (if_neg hgo).trans (if_pos hself)⟩
      · exact ⟨s.inbound, nofun, (if_neg hgo).trans (if_neg hself)⟩
  let s1 : State := { s with tasks := s.tasks ++ [c.childOf w a h j s u] }
  have hid : ∀ t : Task, (t.adopts [w.record h s]).id = t.id := fun _ => rfl
  have hgrow := s.grows_append c.tid (c.childOf w a h j s u)
  have hself : s1.task? c.tid = some u := by
    rw [State.task?, List.find?_append, show s.tasks.find? (fun t => t.id == c.tid) = some u from hu]
    rfl
  rw [he]
  refine ⟨(hgrow.trans (s1.grows_updTask c.tid hid)).of_tasks rfl rfl, State.task?_updTask_self _ hid hself, rfl, ?_, fun hne => ?_, hib⟩
  · simp [State.updTask]
  · refine (s1.grows_updTask c.tid hid).entries _ _ ?_ hne
    simp [s1]

end

/-- Spawning leaves the task there, whatever else it waits for. -/
theorem Ctx.spawnOne_keeps (hu : s.task? c.tid = some u) : ∃ u', (c.spawnOne w a h j s).task? c.tid = some u' := by
  by_cases hr : Config.maxChildren ≤ u.counts ∨ w.Dropped s u
  · obtain ⟨vfs, he⟩ := Ctx.spawnOne_refused_eq (a := a) (h := h) (j := j) hu hr
    rw [he]
    have hself := State.task?_updTask_self (s := { s with nextSeq := s.nextSeq + 1, vfs := vfs })
      (fun t => t.adopts [w.refusal a h s (decide (u.counts < Config.maxChildren))]) (fun _ => rfl) hu
    obtain ⟨u', hu', -⟩ := (State.serveJoins_ownStep _ c.tid).kept _ _ hself
    exact ⟨u', hu'⟩
  · obtain ⟨hroom, hd⟩ := not_or.1 hr
    exact ⟨_, (Ctx.spawnOne_creates hu (not_le.1 hroom) hd).2.1⟩

theorem Ctx.spawnAll_keeps (hs : List (BitVec 32 × Nat)) (hu : s.task? c.tid = some u) :
    ∃ u', (hs.foldl (fun s h => c.spawnOne w a h.1 h.2 s) s).task? c.tid = some u' := by
  induction hs generalizing s u with
  | nil => exact ⟨u, hu⟩
  | cons h hs ih =>
    obtain ⟨u', hu'⟩ := Ctx.spawnOne_keeps (w := w) (a := a) (h := h.1) (j := h.2) hu
    exact ih hu'

/-! ### What a child begins with -/

theorem Store.get_putFrom (args : List (BitVec 64)) (n i : Nat) (m : Store 64) :
    Store.get ((args.zipIdx n).foldl (fun (m : Store 64) a => m.set a.2 a.1) m) i =
      if n ≤ i ∧ i < n + args.length then args.getD (i - n) 0 else Store.get m i := by
  induction args generalizing n m with
  | nil =>
    have hi : ¬ (n ≤ i ∧ i < n) := by omega
    simp [hi]
  | cons x args ih =>
    rw [List.zipIdx_cons, List.foldl_cons, ih, Store.get_set, List.length_cons]
    by_cases hi : i = n
    · subst hi
      simp
    · by_cases hin : n + 1 ≤ i ∧ i < n + 1 + args.length
      · rw [if_pos hin, if_pos (by omega), show i - n = i - (n + 1) + 1 by omega, List.getD_cons_succ]
      · rw [if_neg hin, if_neg hi, if_neg (by omega)]

/-- Argument i is s[arg0 + i] of the parent. -/
theorem Ctx.get_spawnArgs (x : SpawnF) {i : Nat} (hi : i < x.argc.val) (hr : x.arg0.val + i < 64) :
    Store.get (putArgs (c.spawnArgs x)) i = c.sval ⟨x.arg0.val + i, hr⟩ := by
  rw [putArgs, Store.get_putFrom, if_pos (by simpa [Ctx.spawnArgs] using hi)]
  simp [Ctx.spawnArgs, hi, hr]

theorem Ctx.childOf_arg {i : Nat} (hi : i < w.x.argc.val) (hfan : w.fan = false ∨ i ≠ 8) (hr : w.x.arg0.val + i < 64) :
    Store.get (c.childOf w a h j s t).sregs i = c.sval ⟨w.x.arg0.val + i, hr⟩ := by
  rw [← Ctx.get_spawnArgs w.x hi hr, Ctx.childOf]
  dsimp only
  split
  next hw => exact Store.get_set_ne _ _ (hfan.resolve_left (by simp [hw]))
  · rfl

theorem Ctx.childOf_number (hw : w.fan = true) : Store.get (c.childOf w a h j s t).sregs 8 = BitVec.ofNat 64 j := by
  rw [Ctx.childOf]
  dsimp only
  rw [if_pos hw]
  exact Store.get_set_self ..

/-- The place of a child that stays on the device (R108). -/
theorem SpawnHow.place_here (hw : w.dev = none) : w.place h s t = .distQ (dieOf t.core) ∨ ∃ k, w.place h s t = .localQ k := by
  rw [SpawnHow.place, hw]
  dsimp only
  split
  · exact .inr ⟨_, rfl⟩
  · rw [State.route]
    split
    · exact .inr ⟨_, rfl⟩
    · exact .inl rfl

theorem SpawnHow.place_away {d : BitVec 10} (hw : w.dev = some d) : w.place h s t = .remote d := by rw [SpawnHow.place, hw]

/-! ### The fan of children -/

/-- What the child with number i of a fan is, in the state s1 in which the fan of the task u has the records cs: a refusal, or a task that was
made in some state with the number in turn. -/
structure Ctx.ChildStands (c : Ctx) (w : SpawnHow) (a : BitVec 64) (s : State) (u : Task) (hs : List (BitVec 32)) (s1 : State)
    (cs : List Child) (i : Nat) : Prop where
  refused : Config.maxChildren ≤ u.counts + i ∨ w.Dropped s u → ∃ r, cs[i]? = some r ∧ r.final = some .refused ∧ r.remainder = a ∧
    r.counted = decide (u.counts + i < Config.maxChildren)
  created : u.counts + i < Config.maxChildren → ¬ w.Dropped s u → c.tid < s.nextTask → ∃ v ds h, v.nextTask = s.nextTask + i ∧
    hs[i]? = some h ∧ cs[i]? = some (w.record h v) ∧ s1.tasks[s.tasks.length + i]? = some (c.childOf w a h i v (u.adopts ds))

/-- The state s1 stands behind the children with the handles hs of a fan that the task u began in s; their records are cs. -/
structure Ctx.Spawning (c : Ctx) (w : SpawnHow) (a : BitVec 64) (s : State) (u : Task) (hs : List (BitVec 32)) (s1 : State)
    (cs : List Child) : Prop where
  grows : s.Grows s1 c.tid
  self : s1.task? c.tid = some (u.adopts cs)
  handles : cs.map (·.handle) = hs
  room : u.counts + hs.length ≤ Config.maxChildren → (u.adopts cs).counts = u.counts + hs.length
  full : Config.maxChildren ≤ u.counts + hs.length → Config.maxChildren ≤ (u.adopts cs).counts
  numbers : u.counts + hs.length ≤ Config.maxChildren → ¬ w.Dropped s u →
    s1.tasks.length = s.tasks.length + hs.length ∧ s1.nextTask = s.nextTask + hs.length
  inbound : w.dev = none ∨ hs = [] → s1.inbound = s.inbound
  each : ∀ i < hs.length, c.ChildStands w a s u hs s1 cs i

theorem Ctx.spawning_nil (hu : s.task? c.tid = some u) : c.Spawning w a s u [] s [] where
  grows := .refl s c.tid
  self := by rw [hu, Task.adopts, List.append_nil]
  handles := rfl
  room _ := by rw [Task.counts_adopts]; rfl
  full h := by rw [Task.counts_adopts]; exact h
  numbers _ _ := ⟨rfl, rfl⟩
  inbound _ := rfl
  each _ h := absurd h (Nat.not_lt_zero _)

/-- A child stands as it is where the fan goes on. -/
theorem Ctx.ChildStands.mono {hs hs' : List (BitVec 32)} {s1 s2 : State} {cs cs' : List Child} {i : Nat}
    (h : c.ChildStands w a s u hs s1 cs i) (hi : i < hs.length) (hc : cs.length = hs.length) (hg : s1.Grows s2 c.tid) :
    c.ChildStands w a s u (hs ++ hs') s2 (cs ++ cs') i where
  refused hr := by
    obtain ⟨r, hr, hrest⟩ := h.refused hr
    exact ⟨r, by rwa [List.getElem?_append_left (hc ▸ hi)], hrest⟩
  created hroom hd ht := by
    obtain ⟨v, ds, h', hv, hh, hr, hk⟩ := h.created hroom hd ht
    refine ⟨v, ds, h', hv, ?_, ?_, hg.entries _ _ hk ?_⟩
    · rwa [List.getElem?_append_left hi]
    · rwa [List.getElem?_append_left (hc ▸ hi)]
    · exact (show v.nextTask ≠ c.tid by omega)

/-- Whether this device's queue refuses a child does not change while nothing is sent to it. -/
theorem SpawnHow.dropped_grows {s1 : State} (hg : s.Grows s1 tid) (hib : s1.inbound = s.inbound) (ds : List Child) :
    w.Dropped s1 (u.adopts ds) ↔ w.Dropped s u := by
  rw [hg.rest, hib]
  rfl

section
variable {hs : List (BitVec 32)} {s1 : State} {cs : List Child} (hI : c.Spawning w a s u hs s1 cs)
include hI

theorem Ctx.Spawning.length_eq : cs.length = hs.length := by rw [← hI.handles, List.length_map]

/-- A fan with one child more, whose record counts while the limit of R104 is not reached. -/
theorem Ctx.Spawning.extend {s2 : State} {r : Child} (hg : s1.Grows s2 c.tid) (hself : s2.task? c.tid = some ((u.adopts cs).adopts [r]))
    (hh : r.handle = h) (hc : r.counted = decide (u.counts + hs.length < Config.maxChildren))
    (hnum : u.counts + hs.length < Config.maxChildren → ¬ w.Dropped s u →
      s2.tasks.length = s1.tasks.length + 1 ∧ s2.nextTask = s1.nextTask + 1)
    (hib : w.dev = none → s2.inbound = s1.inbound) (hnew : c.ChildStands w a s u (hs ++ [h]) s2 (cs ++ [r]) hs.length) :
    c.Spawning w a s u (hs ++ [h]) s2 (cs ++ [r]) := by
  have hlen : (hs ++ [h]).length = hs.length + 1 := by simp
  have hcount : (u.adopts (cs ++ [r])).counts = (u.adopts cs).counts + if u.counts + hs.length < Config.maxChildren then 1 else 0 := by
    rw [← Task.adopts_adopts, Task.counts_adopts]
    by_cases hlt : u.counts + hs.length < Config.maxChildren <;> simp [hc, hlt]
  have hroom := hI.room
  have hfull := hI.full
  refine ⟨hI.grows.trans hg, by rw [hself, Task.adopts_adopts], by rw [List.map_append, hI.handles, ← hh]; rfl, fun hle => ?_, fun hle => ?_,
    fun hle hd => ?_, fun hone => ?_, fun i hi => ?_⟩
  · rw [hlen] at hle ⊢
    rw [hcount, if_pos (by omega), hroom (by omega)]
    rfl
  · rw [hlen] at hle
    rw [hcount]
    split <;> omega
  · obtain ⟨hl1, hn1⟩ := hI.numbers (by omega) hd
    obtain ⟨hl2, hn2⟩ := hnum (by omega) hd
    omega
  · have hdev : w.dev = none := hone.resolve_right (by simp)
    rw [hib hdev, hI.inbound (.inl hdev)]
  · rcases Nat.lt_succ_iff_lt_or_eq.1 (hlen ▸ hi) with hi | rfl
    · exact (hI.each i hi).mono hi hI.length_eq hg
    · exact hnew

theorem Ctx.Spawning.step (hn : u.NoJoins) (hone : w.dev = none ∨ hs = []) (h : BitVec 32) :
    ∃ r, c.Spawning w a s u (hs ++ [h]) (c.spawnOne w a h hs.length s1) (cs ++ [r]) := by
  have hdrop : w.Dropped s1 (u.adopts cs) ↔ w.Dropped s u := SpawnHow.dropped_grows hI.grows (hI.inbound hone) cs
  have hiff : (u.adopts cs).counts < Config.maxChildren ↔ u.counts + hs.length < Config.maxChildren := by
    have hroom := hI.room
    have hfull := hI.full
    omega
  have hlast : ∀ r : Child, (cs ++ [r])[hs.length]? = some r := fun r => by
    rw [← hI.length_eq]
    exact List.getElem?_concat_length
  by_cases hr : Config.maxChildren ≤ (u.adopts cs).counts ∨ w.Dropped s1 (u.adopts cs)
  · obtain ⟨hg, hib, hself⟩ := Ctx.spawnOne_refuses (a := a) (h := h) (j := hs.length) hI.self hn hr
    have hcounted : decide ((u.adopts cs).counts < Config.maxChildren) = decide (u.counts + hs.length < Config.maxChildren) :=
      decide_eq_decide.2 hiff
    have hr' : ¬ (u.counts + hs.length < Config.maxChildren ∧ ¬ w.Dropped s u) := by
      rwa [← hdrop, ← hiff, ← not_le, ← not_or, not_not]
    refine ⟨_, hI.extend hg hself rfl hcounted (fun hroom hd => absurd ⟨hroom, hd⟩ hr') (fun _ => hib) ⟨fun _ => ?_, fun hroom hd => ?_⟩⟩
    · exact ⟨_, hlast _, rfl, rfl, hcounted⟩
    · exact absurd ⟨hroom, hd⟩ hr'
  · obtain ⟨hroom, hd⟩ := not_or.1 hr
    obtain ⟨hg, hself, hnext, hlength, hchild, hib⟩ := Ctx.spawnOne_creates (a := a) (h := h) (j := hs.length) hI.self (not_le.1 hroom) hd
    have hroom' := hiff.1 (not_le.1 hroom)
    have hd' := mt hdrop.2 hd
    obtain ⟨hl1, hn1⟩ := hI.numbers hroom'.le hd'
    refine ⟨_, hI.extend hg hself rfl (decide_eq_true hroom').symm (fun _ _ => ⟨hlength, hnext⟩) hib ⟨fun hr => ?_, fun _ _ ht => ?_⟩⟩
    · exact absurd hr (not_or.2 ⟨not_le.2 hroom', hd'⟩)
    · refine ⟨s1, cs, h, hn1, List.getElem?_concat_length, hlast _, ?_⟩
      rw [← hl1]
      exact hchild (by omega)

end

/-- The whole fan. -/
theorem Ctx.spawning_all {hs : List (BitVec 32)} (hu : s.task? c.tid = some u) (hn : u.NoJoins) (hone : w.dev = none ∨ hs.length ≤ 1) :
    ∃ cs, c.Spawning w a s u hs (hs.zipIdx.foldl (fun s h => c.spawnOne w a h.1 h.2 s) s) cs := by
  suffices hgo : ∀ (hs' hs : List (BitVec 32)) (s1 : State) (cs : List Child), c.Spawning w a s u hs s1 cs →
      (w.dev = none ∨ (hs ++ hs').length ≤ 1) →
      ∃ cs, c.Spawning w a s u (hs ++ hs') ((hs'.zipIdx hs.length).foldl (fun s h => c.spawnOne w a h.1 h.2 s) s1) cs from
    hgo hs [] s [] (Ctx.spawning_nil hu) hone
  intro hs'
  induction hs' with
  | nil =>
    intro hs s1 cs hI _
    exact ⟨cs, by rwa [List.append_nil]⟩
  | cons h hs' ih =>
    intro hs s1 cs hI hone
    have hfirst : w.dev = none ∨ hs = [] := hone.imp_right fun hle => by
      rw [← List.length_eq_zero_iff]
      simp at hle
      omega
    obtain ⟨r, hI⟩ := hI.step hn hfirst h
    have := ih (hs ++ [h]) _ _ hI (by simpa using hone)
    simpa using this

end Sys2Proof.Machine
end

