-- ==== Sys2Proof/Proofs/Spawn.lean ====
section
/-! SpawnCreatesChildren, the obligation itself: the SPAWN family's plan, and what its group and its children are behind it. -/

namespace Sys2Proof.Machine

variable {s : State} {tid : Nat} {t u : Task} {group : Mask} {w : SpawnHow} {i : Instr}

/-- The handles that an instruction of the SPAWN family issues (R103). -/
def SpawnHow.handles (w : SpawnHow) (t : Task) : List (BitVec 32) := (nextHandles t.childCtr t.childGen w.n).1

theorem SpawnHow.length_handles (w : SpawnHow) (t : Task) : (w.handles t).length = w.n := by
  unfold SpawnHow.handles nextHandles
  split
  simp

/-- What an instruction of the SPAWN family costs (R119). -/
def SpawnHow.cost (w : SpawnHow) (s : State) (t : Task) : Nat := (if w.dev.isSome then 64 else 32) + w.n * (t.rdS s.tick w.x.alw).toNat

/-- The task v once it has issued handles as t counts them, and has the first in its register. -/
def SpawnHow.issued (w : SpawnHow) (t v : Task) : Task :=
  ({ v with childCtr := (nextHandles t.childCtr t.childGen w.n).2.1, childGen := (nextHandles t.childCtr t.childGen w.n).2.2 } : Task).wrS
    w.x.dst (((w.handles t).headD 0).setWidth 64)

/-- The state behind the children of a fan. -/
def Ctx.spawnAll (c : Ctx) (w : SpawnHow) (a : BitVec 64) (hs : List (BitVec 32)) (s : State) : State :=
  hs.zipIdx.foldl (fun s h => c.spawnOne w a h.1 h.2 s) s

/-- The state behind a fan that is paid, and behind its instruction. -/
def SpawnHow.fanned (w : SpawnHow) (s : State) (tid : Nat) (t : Task) (group : Mask) : State :=
  (Ctx.of s t group w.x.g 16).spawnAll w (t.rdS s.tick w.x.alw) (w.handles t) (s.paid tid group (w.cost s t) 0)

def SpawnHow.after (w : SpawnHow) (s : State) (tid : Nat) (t : Task) (group : Mask) : State :=
  (((w.fanned s tid t group).updTask tid fun v => w.issued t v).goneOn tid group 16).ended tid group

section
variable (hi : Issues s tid t group) (hact : t.guarded w.x.g group ≠ 0)
  (hdet : t.det = true → w.dev = none ∧ beyondOrdinals t.ordinal ((w.handles t).map fun h => h.toNat % 65536) = false)
  (hdev : ∀ d, w.dev = some d → (s.asd t.asid).devices.contains d.toNat = true)
include hi hact hdet hdev

theorem spawn_plan : (Ctx.of s t group w.x.g 16).spawn w = .go (w.cost s t) 0 fun s1 =>
    ((((Ctx.of s t group w.x.g 16).spawnAll w (t.rdS s.tick w.x.alw) (w.handles t) s1).updTask tid fun v => w.issued t v).goneOn tid group
      16) := by
  have hremote : ¬ ((Ctx.of s t group w.x.g 16).t.det && w.dev.isSome) = true := fun h => by
    obtain ⟨hd, hw⟩ := Bool.and_eq_true_iff.1 h
    rw [(hdet hd).1] at hw
    exact Bool.noConfusion hw
  have hbeyond : ¬ (t.det && beyondOrdinals t.ordinal ((w.handles t).map fun h => h.toNat % 65536)) = true := fun h => by
    obtain ⟨hd, hb⟩ := Bool.and_eq_true_iff.1 h
    exact Bool.noConfusion ((hdet hd).2.symm.trans hb)
  have hforeign : ¬ (match w.dev with | some d => !(s.asd t.asid).devices.contains d.toNat | none => false) = true := by
    split
    next d hd => rw [hdev d hd]; simp
    · simp
  unfold Ctx.spawn
  refine (Ctx.uniform_of_act hact _ _).trans ((if_neg hremote).trans ((if_neg hbeyond).trans ((if_neg hforeign).trans ?_)))
  refine congrArg (Plan.go _ 0) (funext fun s1 => ?_)
  rw [Ctx.next_eq hi, hi.ctx_tid]
  rfl

theorem spawn_exhausts (he : exec i s = issue s 16 w.x.g fun c => c.spawn w) (ha : t.alw.toNat < w.cost s t) :
    Exhausts s tid t group i (w.cost s t) :=
  exhausts_of_plan hi he (by rw [spawn_plan hi hact hdet hdev]; rfl) ha

/-- The effect of an instruction of the SPAWN family that its task's account covers. -/
theorem spawn_exec (he : exec i s = issue s 16 w.x.g fun c => c.spawn w) (ha : w.cost s t ≤ t.alw.toNat) :
    exec i s = .next (w.after s tid t group) := by
  rw [exec_of_go hi he (spawn_plan hi hact hdet hdev) ha]
  rfl

end

theorem SpawnHow.issued_id (w : SpawnHow) (t v : Task) : (w.issued t v).id = v.id := by simp [SpawnHow.issued]

/-- The instruction's own end changes its task alone. -/
theorem SpawnHow.fanned_grows (w : SpawnHow) (s : State) (tid : Nat) (t : Task) (group : Mask) :
    (w.fanned s tid t group).Grows (w.after s tid t group) tid :=
  ((State.grows_updTask _ tid (w.issued_id t)).trans (State.grows_updTask _ tid (f := fun u => u.advance group 16) fun _ => rfl)).trans
    (State.grows_updTask _ tid (f := fun u => u.settleLanes group) fun u => u.settleLanes_id group)

section
variable (hi : Issues s tid t group)
include hi

theorem Issues.task?_ctx_paid {g : Guard} {len cost : Nat} :
    (s.paid tid group cost 0).task? (Ctx.of s t group g len).tid = some (t.paid cost group) := by
  rw [hi.ctx_tid]
  exact State.task?_paid hi.2

theorem spawn_keeps : ∃ t', (w.after s tid t group).task? tid = some t' := by
  obtain ⟨u, hu⟩ := Ctx.spawnAll_keeps (w := w) (a := t.rdS s.tick w.x.alw) (w.handles t).zipIdx hi.task?_ctx_paid
  rw [hi.ctx_tid] at hu
  exact ⟨_, State.task?_ended (State.task?_goneOn (State.task?_updTask_self _ (w.issued_id t) hu))⟩

/-- Where no group waits in JOIN or JOINANY the fan is as the steps of it tell. -/
theorem spawn_spawning (hn : t.NoJoins) (hone : w.dev = none ∨ w.n ≤ 1) :
    ∃ cs, (Ctx.of s t group w.x.g 16).Spawning w (t.rdS s.tick w.x.alw) (s.paid tid group (w.cost s t) 0) (t.paid (w.cost s t) group)
      (w.handles t) (w.fanned s tid t group) cs := by
  refine Ctx.spawning_all hi.task?_ctx_paid ?_ (by rwa [w.length_handles])
  rw [Task.paid_eq]
  exact hn

end

/-- The task behind a fan with these records. -/
theorem SpawnHow.issued_ends (w : SpawnHow) (t : Task) (cost : Nat) (group : Mask) (cs : List Child) :
    let t' := t.simply cost group 16 fun v => w.issued t (v.adopts cs)
    t'.alw = t.alw - BitVec.ofNat 64 cost ∧ LanesMoved t t' group 16 ∧ t'.vregs = t.vregs ∧ t'.preds = t.preds ∧
      t'.children = t.children ++ cs ∧ ∀ r, t'.sreg r = if r = w.x.dst ∧ r ≠ 63 then ((w.handles t).headD 0).setWidth 64 else t.sreg r := by
  intro t'
  refine ⟨?_, ?_, ?_, ?_, ?_, fun r => ?_⟩
  · simp [t', Task.simply, SpawnHow.issued, Task.adopts, Task.charge]
  · exact t.simply_lanesMoved cost group 16 _ (fun u => by simp [SpawnHow.issued, Task.adopts]) (fun u => by simp [SpawnHow.issued, Task.adopts])
      fun u => by simp [SpawnHow.issued, Task.adopts]
  · simp [t', Task.simply, SpawnHow.issued, Task.adopts]
  · simp [t', Task.simply, SpawnHow.issued, Task.adopts]
  · simp [t', Task.simply, SpawnHow.issued, Task.adopts]
  · have hregs : t'.sreg r = (w.issued t ((t.paid cost group).adopts cs)).sreg r := by simp [t', Task.simply, Task.sreg, Task.paid]
    rw [hregs, Task.paid_eq, SpawnHow.issued, Task.sreg_wrS]
    exact if_congr (and_congr_right fun e => by rw [e]) rfl rfl

section
variable {cs : List Child} (hi : Issues s tid t group)
  (hI : (Ctx.of s t group w.x.g 16).Spawning w (t.rdS s.tick w.x.alw) (s.paid tid group (w.cost s t) 0) (t.paid (w.cost s t) group)
    (w.handles t) (w.fanned s tid t group) cs)
include hi hI

theorem spawn_self : (w.after s tid t group).task? tid =
    some (t.simply (w.cost s t) group 16 fun v => w.issued t (v.adopts cs)) := by
  have hself := hI.self
  rw [hi.ctx_tid] at hself
  exact State.task?_gone (State.task?_updTask_self _ (w.issued_id t) hself)

theorem spawn_grows : s.Grows (w.after s tid t group) tid := by
  have hpaid := s.grows_updTask tid fun u => u.charge_countWindows_id (w.cost s t) 0 group
  have hfan := hI.grows
  rw [hi.ctx_tid] at hfan
  exact (hpaid.trans hfan).trans (w.fanned_grows s tid t group)

/-- The child with number j that is created, in the state behind the instruction. -/
theorem spawn_child {j : Nat} (hj : j < w.n) (hroom : t.counts + j < Config.maxChildren) (hd : ¬ w.Dropped s t) (ht : tid < s.nextTask) :
    ∃ v u h, v.nextTask = s.nextTask + j ∧ (w.handles t)[j]? = some h ∧ cs[j]? = some (w.record h v) ∧
      (∃ al os ds, u = { t with alw := al, outs := os, children := ds }) ∧ (w.after s tid t group).tasks[s.tasks.length + j]? =
        some ((Ctx.of s t group w.x.g 16).childOf w (t.rdS s.tick w.x.alw) h j v u) := by
  have h := (hI.each j (by rwa [w.length_handles])).created
  rw [Task.paid_eq, hi.ctx_tid] at h
  obtain ⟨v, ds, h, hv, hh, hr, hk⟩ := h hroom hd ht
  have hlen : (s.paid tid group (w.cost s t) 0).tasks.length = s.tasks.length := by simp [State.paid, State.updTask]
  rw [hlen] at hk
  have hnum : v.nextTask = s.nextTask + j := hv
  exact ⟨v, _, h, hnum, hh, hr, ⟨_, _, _, rfl⟩, (w.fanned_grows s tid t group).entries _ _ hk (show v.nextTask ≠ tid by omega)⟩

omit hi in
theorem spawn_refusal {j : Nat} (hj : j < w.n) (hr : Config.maxChildren ≤ t.counts + j ∨ w.Dropped s t) : ∃ r, cs[j]? = some r ∧
    r.final = some .refused ∧ r.remainder = t.rdS s.tick w.x.alw ∧ r.counted = decide (t.counts + j < Config.maxChildren) := by
  have hpaid : (t.paid (w.cost s t) group).counts = t.counts := by rw [Task.paid_eq]; rfl
  have h := (hI.each j (by rwa [w.length_handles])).refused
  rw [hpaid] at h
  refine h (hr.imp_right fun hd => ?_)
  rw [Task.paid_eq]
  exact hd

end

end Sys2Proof.Machine

section
open Sys2Proof Sys2Proof.Machine

/-- Settles O14, by an invariant of the fan: behind each child the task has the records of those before it, and the device their tasks. -/
theorem spawnCreatesChildren : Obligations.SpawnCreatesChildren := by
  unfold Obligations.SpawnCreatesChildren
  intro s tid t group x hi hact a done
  have hdone : ∀ (i : Instr) (n fixed : Nat) (dev : Option (BitVec 10)) (fan : Bool),
      exec i s = (issue s 16 x.g fun c => c.spawn ⟨x, n, fan, dev⟩) → fixed = (if dev.isSome then 64 else 32) → (dev = none ∨ n ≤ 1) →
      done i n fixed dev fan := by
    rintro i n fixed dev fan he rfl hone
    unfold done
    intro hs hdet hdev
    let w : SpawnHow := ⟨x, n, fan, dev⟩
    refine ⟨fun ha => spawn_exhausts (w := w) hi hact hdet hdev he ha, fun ha => ?_⟩
    intro dropped
    have hexec := spawn_exec (w := w) hi hact hdet hdev he ha
    by_cases hn : t.NoJoins
    · obtain ⟨cs, hI⟩ := spawn_spawning (w := w) hi hn hone
      obtain ⟨halw, hmoved, hvregs, hpreds, hchildren, hregs⟩ := w.issued_ends t (w.cost s t) group cs
      have hgrows := spawn_grows hi hI
      have hrecord : ∀ j, (t.children ++ cs)[t.children.length + j]? = cs[j]? := fun j => by
        rw [List.getElem?_append_right (Nat.le_add_right ..), Nat.add_sub_cancel_left]
      refine ⟨_, _, hexec, spawn_self hi hI, fun _ => ⟨hgrows.rest, hgrows.others, halw, hmoved, hvregs, hpreds, hregs, ?_, fun j hj => ?_⟩⟩
      · rw [hchildren, List.map_append, hI.handles]
        rfl
      intro m
      refine ⟨fun hr => ?_, fun hroom hd ht => ?_⟩
      · obtain ⟨r, hr, hrest⟩ := spawn_refusal (w := w) hI hj hr
        refine ⟨r, ?_, hrest⟩
        rw [hchildren, hrecord, hr]
      · obtain ⟨v, u, h, hv, hh, hr, ⟨al, os, ds, rfl⟩, hk⟩ := spawn_child (w := w) hi hI hj hroom hd ht
        refine ⟨_, w.record h v, hk, ?_, rfl, rfl, rfl, rfl, hv, congrArg some hi.ctx_tid, rfl, rfl, rfl, rfl, rfl, rfl, rfl, rfl, rfl, rfl,
          rfl, rfl, rfl, hh, fun hfan => Ctx.childOf_number (w := w) hfan, fun k hk hfan hlt => Ctx.childOf_arg (w := w) hk hfan hlt,
          fun d hd => SpawnHow.place_away (w := w) hd, fun hd => SpawnHow.place_here (w := w) hd⟩
        rw [hchildren, hrecord, hr]
    · obtain ⟨t', ht'⟩ := spawn_keeps (w := w) hi
      exact ⟨_, t', hexec, ht', fun h => absurd h hn⟩
  exact ⟨hdone _ _ _ _ _ rfl rfl (.inl rfl), fun n => hdone _ _ _ _ _ rfl rfl (.inl rfl), fun d => hdone _ _ _ _ _ rfl rfl (.inr le_rfl)⟩

end
end

