-- ==== Sys2Proof/Proofs/ComputedResults.lean ====
section
/-! SUPPORT. IntegerResults, FloatResults and PredicateResults: instructions that compute a value or decide a predicate for each lane from the
registers as they stood. -/

namespace Sys2Proof.Machine

section
variable {s : State} {tid : Nat} {t : Task} {group : Mask} {i : Instr} (hi : Issues s tid t group) (ha : 1 ≤ t.alw.toNat)
include hi ha

theorem computes_alu2I {x : Alu2} {f : Nat → Nat → Nat} (he : exec i s = alu2I x f s) :
    Computes s tid t group x.g i 8 x.ty x.dst fun l => (lanewise2 s t x f l, 0) := computes hi ha he rfl

theorem computes_alu1I {x : Alu1} {f : Nat → Nat} (he : exec i s = alu1I x f s) :
    Computes s tid t group x.g i 8 x.ty x.dst fun l => (lanewise1 s t x f l, 0) := computes hi ha he rfl

theorem computes_alu2F {x : Alu2} {f : Bool → RMode → Ty → Nat → Nat → Nat × FFlags} (he : exec i s = alu2F x f s) :
    Computes s tid t group x.g i 8 x.ty x.dst (floatwise2 s t x f) := computes hi ha he rfl

theorem decides_icmp (x : Icmp) : Decides s tid t group x.g (.icmp x) 8 x.dst fun l => (icmpAt s t x l, 0) := by
  have hf : Ctx.icmp (Ctx.of s t group x.g 8) x = icmpAt s t x := Ctx.icmp_eq rfl rfl x
  rw [← hf]
  exact decides hi ha (show _ = execIcmp x s from rfl) rfl

theorem decides_fcmp (x : Fcmp) : Decides s tid t group x.g (.fcmp x) 8 x.dst (fcmpAt s t x) := by
  have hf : Ctx.fcmp (Ctx.of s t group x.g 8) x = fcmpAt s t x := Ctx.fcmp_eq rfl rfl x
  rw [← hf]
  exact decides hi ha (show _ = execFcmp x s from rfl) rfl

theorem decides_plog (x : Plog) : Decides s tid t group x.g (.plog x) 8 x.dst fun l => (plogAt t x l, 0) := by
  have hf : Ctx.plog (Ctx.of s t group x.g 8) x = plogAt t x := Ctx.plog_eq rfl x
  rw [← hf]
  exact decides hi ha (show _ = execPlog x s from rfl) rfl

end

end Sys2Proof.Machine

section
open Sys2Proof Sys2Proof.Machine

/-- Settles O1: each integer instruction is the issue of a plan that computes the value named, with no flags. -/
theorem integerResults : Obligations.IntegerResults := by
  unfold Obligations.IntegerResults
  refine ⟨fun s tid t group x hi ha => ?_, fun s tid t group hi ha => ?_⟩
  · have two {i : Instr} {f : Nat → Nat → Nat} (he : exec i s = alu2I x f s) := computes_alu2I hi ha he
    exact ⟨two rfl, two rfl, two rfl, two rfl, two rfl, two rfl, two rfl, two rfl, two rfl, two rfl, two rfl, two rfl, two rfl, two rfl, two rfl⟩
  · have one {i : Instr} {x : Alu1} {f : Nat → Nat} (he : exec i s = alu1I x f s) := computes_alu1I hi ha he
    refine ⟨fun x => ⟨fun _ => one rfl, one rfl, one rfl, one rfl, ?_⟩, fun x => ⟨?_, ?_⟩, fun x => ?_, fun x => ?_, fun x => ?_, fun x => ?_,
      fun x => ?_, fun x => ?_⟩
    · exact computes hi ha (show _ = execMov x s from rfl) rfl
    · exact computes hi ha (show _ = execBfx x s from rfl) rfl
    · exact computes hi ha (show _ = execBfi x s from rfl) rfl
    · exact computes hi ha (show _ = execImad x s from rfl) rfl
    · exact computes hi ha (show _ = execSel x s from rfl) rfl
    · exact computes hi ha (show _ = execMovi x s from rfl) rfl
    · exact computes hi ha (show _ = execMovw x s from rfl) rfl
    · exact computes hi ha (show _ = execLea x s from rfl) rfl
    · exact computes hi ha (show _ = execMovsp x s from rfl) rfl

/-- Settles O3: each floating-point instruction is the issue of a plan that computes the value and the flags named. -/
theorem floatResults : Obligations.FloatResults := by
  unfold Obligations.FloatResults
  refine ⟨fun s tid t group x hi ha => ?_, fun s tid t group hi ha => ?_⟩
  · have two {i : Instr} {f : Bool → RMode → Ty → Nat → Nat → Nat × FFlags} (he : exec i s = alu2F x f s) := computes_alu2F hi ha he
    exact ⟨two rfl, two rfl, two rfl, two rfl, two rfl⟩
  · refine ⟨fun x => ⟨?_, ?_, ?_, fun mode => ?_⟩, fun x => ⟨?_, ?_, fun sat hint => ?_, fun sat hint => ?_⟩, fun x => ?_, fun x => ?_,
      fun x => ?_⟩
    · exact computes hi ha (show _ = execFneg x s from rfl) rfl
    · exact computes hi ha (show _ = execFabs x s from rfl) rfl
    · exact computes hi ha (show _ = execFclass x s from rfl) rfl
    · exact computes hi ha (show _ = execFrnd mode x s from rfl) rfl
    · exact computes hi ha (show _ = execFfma x s from rfl) rfl
    · exact computes hi ha (show _ = execFdot2 x s from rfl) rfl
    · refine computes hi ha (show _ = execDot4 sat x s from rfl) ?_
      simp only [hint, if_true]
      rfl
    · refine computes hi ha (show _ = execDot4 sat x s from rfl) ?_
      simp only [hint, Bool.false_eq_true, if_false]
      rfl
    · exact computes hi ha (show _ = execCvt x s from rfl) rfl
    · exact computes hi ha (show _ = execPack x s from rfl) rfl
    · exact computes hi ha (show _ = execUnpk x s from rfl) rfl

/-- Settles O4: what a comparison or PLOG decides for a lane is a function of the registers and predicates as they stood. -/
theorem predicateResults : Obligations.PredicateResults := by
  unfold Obligations.PredicateResults
  exact fun s tid t group hi ha => ⟨decides_icmp hi ha, decides_fcmp hi ha, decides_plog hi ha⟩

end
end

