-- ==== Sys2Proof/Proofs/IntegerElements.lean ====
section
/-! SUPPORT. IntegerElementsAreBitVectors: the element operations of R131 and R134 on the values of bit vectors of the type's width. -/

namespace Sys2Proof.Machine

/-! ### Wrapping and sign -/

theorem wrap_eq_toNat_ofInt (w : Nat) (x : Int) : wrap w x = (BitVec.ofInt w x).toNat := (BitVec.toNat_ofInt ..).symm

theorem Ty.w_pos (ty : Ty) : 0 < Ty.w ty := by cases ty <;> decide

variable {ty : Ty} {a b : BitVec (Ty.w ty)}

theorem Ty.toI_toNat (ty : Ty) (a : BitVec (Ty.w ty)) : ty.toI a.toNat = if ty.signed then a.toInt else (a.toNat : Int) := by
  rw [Ty.toI, ← Ty.w, sext_eq_toInt (Ty.w_pos ty), Nat.mod_eq_of_lt a.isLt]

/-- A value in the type's range is read back from the element that holds it. -/
theorem Ty.toI_wrap {x : Int} (hlo : ty.range.1 ≤ x) (hhi : x ≤ ty.range.2) : ty.toI (wrap (Ty.w ty) x) = x := by
  rw [wrap_eq_toNat_ofInt, Ty.toI_toNat]
  unfold Ty.range at hlo hhi
  rw [← Ty.w] at hlo hhi
  cases hs : ty.signed with
  | true =>
    simp only [hs, if_true] at hlo hhi ⊢
    push_cast at hlo hhi
    exact BitVec.toInt_ofInt_eq_self (Ty.w_pos ty) hlo (by omega)
  | false =>
    simp only [hs, Bool.false_eq_true, if_false] at hlo hhi ⊢
    rw [BitVec.toNat_ofInt, Int.toNat_of_nonneg (Int.emod_nonneg _ (by positivity))]
    exact Int.emod_eq_of_lt hlo (by omega)

theorem Ty.range_le (ty : Ty) : ty.range.1 ≤ ty.range.2 := by cases ty <;> decide

theorem le_clampTo {r : Int × Int} (h : r.1 ≤ r.2) (x : Int) : r.1 ≤ clampTo r x := by
  unfold clampTo
  split
  · exact le_rfl
  · split <;> omega

theorem clampTo_le {r : Int × Int} (h : r.1 ≤ r.2) (x : Int) : clampTo r x ≤ r.2 := by
  unfold clampTo
  split
  · exact h
  · split <;> omega

/-! ### The operations -/

theorem iaddE_toNat : iaddE ty a.toNat b.toNat = (a + b).toNat := (BitVec.toNat_add ..).symm

theorem isubE_toNat : isubE ty a.toNat b.toNat = (a - b).toNat := by
  rw [isubE, wrap_eq_toNat_ofInt, sub_eq_add_neg, BitVec.ofInt_add, BitVec.ofInt_neg, BitVec.ofInt_natCast, BitVec.ofInt_natCast,
    BitVec.ofNat_toNat, BitVec.ofNat_toNat, BitVec.setWidth_eq, BitVec.setWidth_eq, BitVec.sub_eq_add_neg]

theorem imulE_toNat : imulE ty a.toNat b.toNat = (a * b).toNat := (BitVec.toNat_mul ..).symm

theorem andnE_toNat : andnE ty a.toNat b.toNat = (a &&& ~~~b).toNat := by
  rw [andnE, BitVec.toNat_and, BitVec.toNat_not]

theorem shlE_toNat (y : Nat) : shlE ty a.toNat y = (a <<< y).toNat := by
  unfold shlE
  split
  next h => rw [BitVec.shiftLeft_eq_zero h, BitVec.toNat_zero]
  next => rw [BitVec.toNat_shiftLeft]

theorem shrE_toNat (y : Nat) : shrE ty a.toNat y = (a >>> y).toNat := by
  unfold shrE
  split
  next h => rw [BitVec.ushiftRight_eq_zero h, BitVec.toNat_zero]
  next => rw [BitVec.toNat_ushiftRight]

/-- Past the width a right shift of a signed value leaves its sign only. -/
theorem toInt_div_pow_min {w : Nat} (a : BitVec w) (y : Nat) : a.toInt / 2 ^ min y w = a.toInt / 2 ^ y := by
  rcases Nat.le_total y w with h | h
  · rw [Nat.min_eq_left h]
  · rw [Nat.min_eq_right h]
    have hlt : 2 * a.toInt < 2 ^ w := BitVec.two_mul_toInt_lt
    have hge : -2 ^ w ≤ 2 * a.toInt := BitVec.le_two_mul_toInt
    have hpow : (2 : Int) ^ w ≤ 2 ^ y := pow_le_pow_right₀ (by norm_num) h
    rcases Int.lt_or_le a.toInt 0 with hneg | hpos
    · rw [Int.ediv_eq_neg_one_of_neg_of_le hneg (by omega), Int.ediv_eq_neg_one_of_neg_of_le hneg (by omega)]
    · rw [Int.ediv_eq_zero_of_lt hpos (by omega), Int.ediv_eq_zero_of_lt hpos (by omega)]

theorem sarE_toNat (y : Nat) : sarE ty a.toNat y = (a.sshiftRight y).toNat := by
  rw [sarE, wrap_eq_toNat_ofInt, sext_eq_toInt (Ty.w_pos ty), BitVec.sshiftRight, Int.shiftRight_eq_div_pow]
  push_cast
  rw [toInt_div_pow_min]

theorem imulhE_toNat : imulhE ty a.toNat b.toNat =
    (BitVec.ofInt (Ty.w ty) (ty.toI a.toNat * ty.toI b.toNat / (2 ^ Ty.w ty : Int))).toNat := by
  rw [imulhE, wrap_eq_toNat_ofInt]
  push_cast
  rfl

theorem iaddsE_lt (sub : Bool) (x y : Nat) : iaddsE ty sub x y < 2 ^ Ty.w ty := by
  rw [iaddsE, wrap_eq_toNat_ofInt]
  exact BitVec.isLt _

theorem toI_iaddsE (sub : Bool) (x y : Nat) :
    ty.toI (iaddsE ty sub x y) = clampTo ty.range (if sub then ty.toI x - ty.toI y else ty.toI x + ty.toI y) :=
  Ty.toI_wrap (le_clampTo (Ty.range_le ty) _) (clampTo_le (Ty.range_le ty) _)

end Sys2Proof.Machine

section
open Sys2Proof Sys2Proof.Machine

/-- Settles O2: an element below 2^w is the value of the bit vector it makes, and each operation is proved on such values. -/
theorem integerElementsAreBitVectors : Obligations.IntegerElementsAreBitVectors := by
  unfold Obligations.IntegerElementsAreBitVectors
  refine ⟨fun ty x y _ hx hy => ?_, fun ty sub x y _ _ _ => ⟨iaddsE_lt sub x y, toI_iaddsE sub x y⟩⟩
  intro w a b
  have hax : a.toNat = x := Nat.mod_eq_of_lt hx
  have hby : b.toNat = y := Nat.mod_eq_of_lt hy
  rw [← hax, ← hby]
  exact ⟨iaddE_toNat, isubE_toNat, imulE_toNat, andnE_toNat, shlE_toNat _, shrE_toNat _, sarE_toNat _, Ty.toI_toNat ty a,
    imulhE_toNat, rfl, rfl⟩

end
end

