-- ==== Sys2Proof/Proofs/CrossLane.lean ====
section
/-! SUPPORT. CrossLaneResults: the source lanes of shuffles. -/

namespace Sys2Proof.Machine

/-- The distance or lane number that a shuffle takes from srcB or the immediate (R149). -/
def shuffleBy (s : State) (t : Task) (x : Alu2) (l : Nat) : Nat :=
  match x.b with
  | .reg q => t.reg s.tick x.ty.wide q l
  | .imm n => n.toNat

section
variable {s : State} {tid : Nat} {t : Task} {group : Mask} {i : Instr} (hi : Issues s tid t group) (ha : 1 ≤ t.alw.toNat)
include hi ha

/-- A shuffle computes srcA of the lane that its form names, or of the lane itself (R149). -/
theorem computes_shuffle {x : Alu2} {j : Nat → Nat → Int} {src : Nat → Int} (he : exec i s = shuffle x j s)
    (hsrc : ∀ l, j l (shuffleBy s t x l) = src l) :
    Computes s tid t group x.g i 8 x.ty x.dst fun l =>
      (t.reg s.tick x.ty.wide x.a (if 0 ≤ src l ∧ src l < t.lanes.length then (src l).toNat else l), 0) := by
  obtain rfl : (fun l => j l (shuffleBy s t x l)) = src := funext hsrc
  refine computes hi ha he ?_
  simp only [Bool.and_eq_true, decide_eq_true_eq]
  rfl

end

end Sys2Proof.Machine

section
open Sys2Proof Sys2Proof.Machine

/-- Settles O6: each instruction is the issue of a plan that computes from the registers as they stood. -/
theorem crossLaneResults : Obligations.CrossLaneResults := by
  unfold Obligations.CrossLaneResults
  refine fun s tid t group hi ha => ⟨fun x => ?_, fun x => ?_, fun x => ?_, fun x => ?_⟩
  · intro k done
    have hk : ∀ l, shuffleBy s t x l = k l := fun l => by cases hb : x.b <;> simp only [k, shuffleBy, hb]
    refine ⟨?_, ?_, ?_, ?_⟩
    · exact computes_shuffle hi ha (show _ = execShfl x s from rfl) fun l => by rw [hk]
    · exact computes_shuffle hi ha (show _ = execShflx x s from rfl) fun l => by rw [hk]
    · exact computes_shuffle hi ha (show _ = execShflup x s from rfl) fun l => by rw [hk]
    · exact computes_shuffle hi ha (show _ = execShfldn x s from rfl) fun l => by rw [hk, Nat.cast_add]
  · exact computes hi ha (show _ = execPrfx x s from rfl) rfl
  · exact computes hi ha (show _ = execRedv x s from rfl) rfl
  · exact computes hi ha (show _ = execConfl x s from rfl) rfl

end
end

