-- ==== Sys2Proof/Proofs/VotesAndPacks.lean ====
section
/-! SUPPORT. VotesAndPacks: the test of a vote, the lanes that CPACK fills, and what it sends to each. -/

namespace Sys2Proof.Machine

/-! ### Votes (R150) -/

/-- The test of VOTE over the lanes of act, whose values are v. -/
def voteTest (mode : VoteMode) (v : Nat → Nat) (act : Mask) : Bool :=
  match mode with
  | .any | .ballot => (lanesOf act).any fun l => v l != 0
  | .all => (lanesOf act).all fun l => v l != 0
  | .eq => (lanesOf act).all fun l => v l == v ((lowest? act).getD 0)

/-- What VOTE writes into an s register. -/
def voteWord (mode : VoteMode) (v : Nat → Nat) (act : Mask) : BitVec 64 :=
  match mode with
  | .ballot => maskOf ((lanesOf act).filter fun l => v l != 0)
  | m => if voteTest m v act then 1 else 0

theorem lowest_mem_lanesOf {m : Mask} {l : Nat} (h : l ∈ lanesOf m) : (lowest? m).getD 0 ∈ lanesOf m := by
  unfold lowest?
  cases hm : lanesOf m with
  | nil => rw [hm] at h; cases h
  | cons k ls => exact .head _

section
variable (v : Nat → Nat) (act : Mask)

theorem voteTest_any : voteTest .any v act = true ↔ ∃ l ∈ lanesOf act, v l ≠ 0 := by simp [voteTest]

theorem voteTest_all : voteTest .all v act = true ↔ ∀ l ∈ lanesOf act, v l ≠ 0 := by simp [voteTest]

/-- The model compares with the lowest lane's value, the rule any two. -/
theorem voteTest_eq : voteTest .eq v act = true ↔ ∀ l ∈ lanesOf act, ∀ m ∈ lanesOf act, v l = v m := by
  simp only [voteTest, List.all_eq_true, beq_iff_eq]
  exact ⟨fun h l hl m hm => (h l hl).trans (h m hm).symm, fun h l hl => h l hl _ (lowest_mem_lanesOf hl)⟩

theorem voteWord_ballot {l : Nat} (hl : l < 64) : (voteWord .ballot v act).getLsbD l = (act.getLsbD l && v l != 0) := by
  rw [voteWord, getLsbD_maskOf _ hl, Bool.eq_iff_iff]
  simp [mem_lanesOf, hl]

theorem voteWord_test {mode : VoteMode} (h : mode ≠ .ballot) : voteWord mode v act = if voteTest mode v act then 1 else 0 := by
  cases mode with
  | ballot => exact absurd rfl h
  | any | all | eq => rfl

end

section
variable {s : State} {tid : Nat} {t : Task} {group : Mask} {x : Vote} (hi : Issues s tid t group) (ha : 1 ≤ t.alw.toNat)
  (hact : t.guarded x.g group ≠ 0)
include hi ha hact

theorem vote_computes {n : Fin 64} (hdst : x.dst = .s n) : Computes s tid t group x.g (.vote x) 8 .n64 (.s n)
    fun _ => ((voteWord x.mode (t.reg s.tick x.ty.wide x.a) (t.guarded x.g group)).toNat, 0) := by
  have he : exec (.vote x) s = execVote x s := rfl
  unfold Computes
  rw [he]
  refine uniform_done hi n _ ?_ hact ha
  refine (Ctx.uniform_of_act hact _ _).trans ?_
  obtain ⟨g, ty, mode, dst, a⟩ := x
  cases hdst
  cases mode <;> rfl

theorem vote_decides {n : Fin 8} (hdst : x.dst = .p n) : ∃ s', exec (.vote x) s = .next s' ∧
    PredDone s s' tid t group group 8 1 n fun _ => (voteTest x.mode (t.reg s.tick x.ty.wide x.a) (t.guarded x.g group), 0) := by
  have hv (b : Bool) : ∀ l < 64, (if b then BitVec.allOnes 64 else 0).getLsbD l = b := fun l hl => by
    cases b with
    | false => simp
    | true => rw [if_pos rfl, BitVec.getLsbD_allOnes, decide_eq_true hl]
  have he : exec (.vote x) s = execVote x s := rfl
  rw [he]
  refine setPred_done hi ha ?_ (hv _)
  refine (Ctx.uniform_of_act hact _ _).trans ?_
  obtain ⟨g, ty, mode, dst, a⟩ := x
  cases hdst
  cases mode <;> rfl

end

/-! ### Packs (R153) -/

theorem lanesOf_sorted (m : Mask) : (lanesOf m).Pairwise (· < ·) := List.pairwise_lt_range.filter _

theorem lanesOf_maskOf {ls : List Nat} {m : Mask} (h : ls.Sublist (lanesOf m)) : lanesOf (maskOf ls) = ls := by
  refine (lanesOf_sorted _).eq_of_mem_iff ((lanesOf_sorted m).sublist h) fun l => ?_
  have hlt : l ∈ ls → l < 64 := fun hl => (mem_lanesOf.1 (h.subset hl)).1
  rw [mem_lanesOf]
  constructor
  · rintro ⟨hl, hm⟩
    simpa [getLsbD_maskOf _ hl] using hm
  · intro hl
    exact ⟨hlt hl, by simpa [getLsbD_maskOf _ (hlt hl)] using hl⟩

/-- The lanes of the group that CPACK writes: as many of the lowest as there are guard-true ones. -/
def packTargets (act group : Mask) : Mask := maskOf ((lanesOf group).take (lanesOf act).length)

/-- The lane whose value CPACK sends to lane m. -/
def packSource (act group : Mask) (m : Nat) : Nat := (lanesOf act).getD ((lanesOf group).idxOf m) 0

theorem lanesOf_packTargets (act group : Mask) : lanesOf (packTargets act group) = (lanesOf group).take (lanesOf act).length :=
  lanesOf_maskOf (List.take_sublist ..)

theorem packSource_getElem {act group : Mask} {i : Nat} {l m : Nat} (hl : (lanesOf act)[i]? = some l) (hm : (lanesOf group)[i]? = some m) :
    m ∈ lanesOf (packTargets act group) ∧ packSource act group m = l := by
  obtain ⟨hlt, rfl⟩ := List.getElem?_eq_some_iff.1 hm
  obtain ⟨hlt', rfl⟩ := List.getElem?_eq_some_iff.1 hl
  constructor
  · rw [lanesOf_packTargets, List.mem_take_iff_getElem]
    exact ⟨i, by omega, rfl⟩
  · rw [packSource, (lanesOf_sorted group).nodup.idxOf_getElem, List.getD_eq_getElem _ _ hlt']

theorem zip_lanesOf (act group : Mask) : (lanesOf act).zip (lanesOf group) =
    (lanesOf (packTargets act group)).map fun m => (packSource act group m, m) := by
  refine List.ext_getElem ?_ fun i h h' => ?_
  · rw [lanesOf_packTargets]
    simp
  · have hi : i < (lanesOf act).length ∧ i < (lanesOf group).length := by simpa using h
    obtain ⟨-, hs⟩ := packSource_getElem (List.getElem?_eq_getElem hi.1) (List.getElem?_eq_getElem hi.2)
    simp [lanesOf_packTargets, hs]

/-- What CPACK does to the registers of its task. -/
def Task.packs (t : Task) (x : Cpack) (act group : Mask) (v : Nat → Nat) : Task :=
  (t.compute x.ty x.dst (packTargets act group) fun m => (v (packSource act group m), 0)).wrS x.cnt (BitVec.ofNat 64 (lanesOf act).length)

theorem Task.packs_eq (t : Task) {x : Cpack} {n : Fin 192} (hdst : x.dst = .v n) (act group : Mask) (v : Nat → Nat) : t.packs x act group v =
    (((lanesOf act).zip (lanesOf group)).foldl (fun t p => t.put x.ty x.dst p.2 (v p.1)) t).wrS x.cnt
      (BitVec.ofNat 64 (lanesOf act).length) := by
  rw [zip_lanesOf, List.foldl_map, Task.packs, hdst]
  simp only [Task.compute, performLanes, Task.raise_zero]

theorem overwrites_s {act : Mask} {wide : Bool} {n : Fin 64} {o : Out} {k : Nat} (hact : act ≠ 0) :
    Overwrites (.s n) wide act o k ↔ o.coversS n.val = true ∧ k = skey n.val := and_iff_right hact

/-- All that CPACK does to the registers of its task. -/
structure Task.Packed (u w : Task) (x : Cpack) (act group : Mask) (v : Nat → Nat) : Prop where
  rest : w = u.withResults w
  fpctl : w.fpctl = u.fpctl
  notes : u.Notes w (fun o k => Overwrites x.dst x.ty.wide (packTargets act group) o k ∨ Overwrites (.s x.cnt) false act o k)
    (OverwritesSf x.dst x.ty.wide (packTargets act group))
  holds : ∀ m ∈ lanesOf (packTargets act group), Holds w x.ty x.dst m (v (packSource act group m))
  vregs : ∀ r m, m < 64 → ¬ Writes x.dst x.ty.wide (packTargets act group) r m → w.vreg r m = u.vreg r m
  sregs : ∀ q, w.sreg q = if q = x.cnt ∧ q ≠ 63 then BitVec.ofNat 64 (lanesOf act).length else u.sreg q

theorem Task.packs_packed (u : Task) {x : Cpack} {n : Fin 192} (hdst : x.dst = .v n) {act : Mask} (hact : act ≠ 0) (group : Mask)
    (v : Nat → Nat) : u.Packed (u.packs x act group v) x act group v := by
  obtain ⟨hrest, hv, hs, hh, hf, hn⟩ := u.compute_spec x.ty x.dst (packTargets act group) fun m => (v (packSource act group m), 0)
  have hperform : performLanes x.dst (packTargets act group) = lanesOf (packTargets act group) := by rw [hdst, performLanes]
  have hspan : ∀ q, Reg.s q ∉ x.dst.span x.ty := fun q => by
    rw [hdst, Reg.span]
    split <;> simp
  rw [hperform] at hh
  unfold Task.packs
  generalize u.compute x.ty x.dst (packTargets act group) _ = y at *
  have hw := Task.wrS_rest y x.cnt (BitVec.ofNat 64 (lanesOf act).length)
  have hcnt := Task.wrS_notes y x.cnt (BitVec.ofNat 64 (lanesOf act).length)
  exact {
    rest := Task.results_trans hrest (by rw [hw]; rfl)
    fpctl := by rw [hw]; exact hf.trans (raised_zero _ _)
    notes := by
      have h := hn.trans hcnt (fun _ _ _ => Iff.rfl) fun _ _ _ => Iff.rfl
      exact ⟨h.1.congr fun o k => or_congr_right (overwrites_s hact).symm, h.2.congr fun o k => iff_of_eq (or_false _)⟩
    holds := fun m hm => by
      rw [hw]
      have h := hh m hm
      rw [hdst] at h ⊢
      exact h
    vregs := fun r m hm hn => by rw [hw]; exact hv r m hm hn
    sregs := fun q => by
      rw [Task.sreg_wrS, hs q (hspan q)]
      by_cases hq : q = x.cnt
      · rw [hq]
      · simp only [hq, false_and] }

/-- An instruction that changes results only, and goes on. -/
theorem results_done {s : State} {tid : Nat} {t : Task} {group : Mask} {g : Guard} {len cost : Nat} {plan : Ctx → Plan} {F : Task → Task}
    (hi : Issues s tid t group) (hp : plan (Ctx.of s t group g len) = (Ctx.of s t group g len).simple cost F)
    (hF : ∀ u, F u = u.withResults (F u)) (ha : cost ≤ t.alw.toNat) :
    ∃ s' t', issue s len g plan = .next s' ∧ OnlyTask s s' tid t' ∧ t' = (F (t.paid cost group)).withLanes t' ∧ LanesMoved t t' group len := by
  have hid : ∀ u, (F u).id = u.id := fun u => by rw [hF]; rfl
  have hid' : ∀ u : Task, (u.simply cost group len F).id = u.id := fun u => by simp [Task.simply, hid]
  refine ⟨_, t.simply cost group len F, issue_simple hi.1 hi.2 hp hid ha,
    ⟨rfl, State.task?_updTask_self _ hid' hi.2, fun j hj => State.task?_updTask_ne _ _ _ hid' hj⟩, Task.settle_rest .., ?_⟩
  refine Task.simply_lanesMoved t cost group len F (fun u => ?_) (fun u => ?_) fun u => ?_
  all_goals
    rw [hF]
    rfl

theorem cpack_done {s : State} {tid : Nat} {t : Task} {group : Mask} {x : Cpack} {n : Fin 192} (hi : Issues s tid t group)
    (ha : 1 ≤ t.alw.toNat) (hdst : x.dst = .v n) (hact : t.guarded x.g group ≠ 0) :
    ∃ s' t', exec (.cpack x) s = .next s' ∧ OnlyTask s s' tid t' ∧
      t' = ((t.paid 1 group).packs x (t.guarded x.g group) group (t.reg s.tick x.ty.wide x.a)).withLanes t' ∧ LanesMoved t t' group 12 := by
  have he : exec (.cpack x) s = execCpack x s := rfl
  rw [he]
  refine results_done hi ((Ctx.uniform_of_act hact _ _).trans ?_) (fun u => (u.packs_packed hdst hact group _).rest) ha
  simp only [Task.packs_eq _ hdst]
  rfl

end Sys2Proof.Machine

section
open Sys2Proof Sys2Proof.Machine

/-- Settles O7: the value VOTE writes is its test, and CPACK computes for the lanes it fills as an ALU instruction does for its guard-true ones,
then writes the count. -/
theorem votesAndPacks : Obligations.VotesAndPacks := by
  unfold Obligations.VotesAndPacks
  refine ⟨fun s tid t group x hi ha => ?_, fun s tid t group x n hi ha hdst => ?_⟩
  · refine ⟨fun hact => (unguarded_goes_on hi hact (show _ = execVote x s from rfl)).1 ha, fun hact => ?_⟩
    intro v one
    have hone : voteTest x.mode v (t.guarded x.g group) = true ↔ one := by
      unfold one
      cases x.mode with
      | any | ballot => exact voteTest_any ..
      | all => exact voteTest_all ..
      | eq => exact voteTest_eq ..
    cases hd : x.dst with
    | s n =>
      refine ⟨_, fun hm l hl => ?_, BitVec.isLt _, fun hm => ?_, vote_computes hi ha hact hd⟩
      · rw [hm]
        exact voteWord_ballot v _ hl
      · rw [voteWord_test _ _ hm, ← hone]
        cases voteTest x.mode v (t.guarded x.g group) <;> simp
    | p n => exact ⟨_, hone, vote_decides hi ha hact hd⟩
  · refine ⟨fun hact => (unguarded_goes_on hi hact (show _ = execCpack x s from rfl)).1 ha, fun hact => ?_⟩
    set act := t.guarded x.g group with hdef
    set v := t.reg s.tick x.ty.wide x.a
    obtain ⟨s', t', hs, honly, ht', hlanes⟩ := cpack_done hi ha hdst hact
    obtain ⟨hrest, hfpctl, hnotes, hholds, hvregs, hsregs⟩ := (t.paid 1 group).packs_packed hdst hact group v
    rw [← hdef] at ht'
    generalize (t.paid 1 group).packs x act group v = w at *
    refine ⟨s', t', hs, honly, ?_, hlanes, ?_, fun i l m hl hm => ?_, ?_, ?_⟩
    all_goals rw [ht']
    · rw [hrest, Task.withResults, hfpctl, Task.paid_eq]
      rfl
    · exact ⟨hnotes.1, hnotes.2⟩
    · obtain ⟨hmem, hsource⟩ := packSource_getElem hl hm
      rw [← hsource]
      exact hholds m hmem
    · exact hvregs
    · exact hsregs

end
end
